-- ==== Sys2Proof/Word.lean ====
section
/-!
DEFINITION. The machine's words: 32-bit register words, bytes and 16-bit origin tags (R7, R22, R94).
-/

namespace Sys2Proof

/-- A 32-bit register word (R22). -/
abbrev Word := BitVec 32

/-- A byte of memory (R7). -/
abbrev Byte := BitVec 8

/-- A 16-bit origin tag (R94). -/
abbrev Tag := BitVec 16

end Sys2Proof
end

