-- ==== Sys2Proof/Config.lean ====
section
/-!
DEFINITION. What the spec leaves to an implementation: constants without a body (no proof can see their value) and the fixed
choices that the assumption log names.
-/

namespace Sys2Proof.Config

/-- The seven check bits of a register word: 32 data bits above 16 tag bits (R344; the code itself is not given).
DESIGN CHOICE: log entry 10, safe. -/
opaque checkReg : BitVec 48 → BitVec 7

/-- The eight check bits of a 64-bit SRAM word: 64 data bits above the 16 tag bits of its sector (R344).
DESIGN CHOICE: log entry 10, safe. -/
opaque checkWord : BitVec 80 → BitVec 8

/-- The ten CHECK bits of an LPDDR sector: POISON above TAG above 256 data bits (R277).
DESIGN CHOICE: log entry 10, safe. -/
opaque checkSector : BitVec 273 → BitVec 10

/-- Bank and row of an LPDDR sector within its channel (R354 names row groups and gives no mapping).
DESIGN CHOICE: log entry 61, safe. -/
opaque lpddrRow : Nat → Nat × Nat

/-- Bank and row of a byte of a stationary window (R354; the layout is not given).
DESIGN CHOICE: log entry 61, safe. -/
opaque stationaryRow : Nat → Nat × Nat

/-- How many post-package repairs an LPDDR channel has (R355; not given).
DESIGN CHOICE: log entry 61, safe. -/
opaque lpddrRepairs : Nat

/-- Payload bytes of an SPDM response that the spec does not give (R373), by response number.
PRESUMED: log entry 14, unsafe. -/
opaque spdmPayload : Nat → List (BitVec 8)

/-- A free value, one for each value of the state's counter: the sink entries or bytes that the spec leaves open.
DESIGN CHOICE: log entry 4, safe. -/
opaque freeByte : Nat → BitVec 8

/-- Which of the values that an overlapped byte holds during a copy the copy takes (R199).
DESIGN CHOICE: log entry 4, safe. -/
opaque freeNat : Nat → Nat

/-- First byte of the firmware region (R360: in die 7's memory; its place is not given).
DESIGN CHOICE: log entry 16, unsafe. -/
def firmwareBase : Nat := 7 * 2 ^ 38

/-- Bytes of the firmware region, the table's 64 MiB among them.
DESIGN CHOICE: log entry 16, unsafe. -/
def firmwareSize : Nat := 2 ^ 28

end Sys2Proof.Config
end

