-- ==== Sys2Proof/Syntax.lean ====
section
/-!
DEFINITION. The abstract syntax: one constructor of `Instr` for each row of the opcode table.

Instruction rows carry the operands their entry in the spec names. Register codes are the codes of R62 as numbers;
`WellFormed` bounds them. Event rows are what the device does of its own accord, or what the world outside does to it;
they have no encoding, and `State.agenda` holds those that are to happen next.
-/

namespace Sys2Proof

/-- The four forms that LEN selects (R53). -/
inductive Form
  | w1 | w3 | w1l | w3l
  deriving DecidableEq, Repr, Inhabited

/-- What every instruction carries: its form, BND (R54, R57) and its guard (R60, R65). A form without a guard field has
`pg = 7` and `pn = false`, the guard of R59. -/
structure Hdr where
  form : Form
  bnd : Bool
  pn : Bool
  pg : Nat
  deriving DecidableEq, Repr, Inhabited

/-- A second source: a vector-space code, a uniform code, a 32-bit immediate or literal, or a 64-bit literal (R62, R64). -/
inductive Src
  | v (code : Nat)
  | s (code : Nat)
  | imm (x : BitVec 32)
  | wide (x : BitVec 64)
  deriving DecidableEq, Repr, Inhabited

/-- Arithmetic with a second source (R125, R134, R136, R137). `z` is SUB[0]; `c` is the third source, equal to `d` in the
one-word forms marked C = D, and 0 where the operation has none. -/
structure Alu where
  h : Hdr
  z : Bool
  sat : Bool
  rm : Nat
  tr : Nat
  la : Nat
  d : Nat
  a : Nat
  b : Src
  c : Nat
  deriving DecidableEq, Repr, Inhabited

/-- One source and one destination (R126, R130, R134). -/
structure Un where
  h : Hdr
  rm : Nat
  tr : Nat
  la : Nat
  d : Nat
  a : Nat
  deriving DecidableEq, Repr, Inhabited

/-- LEA (R127): scale code, base pair s(`b`):s(`b`+1), displacement. -/
structure LeaOp where
  h : Hdr
  tr : Nat
  sc : Nat
  d : Nat
  a : Nat
  b : Nat
  disp : BitVec 64
  deriving DecidableEq, Repr, Inhabited

/-- ICMP and FCMP (R128); `dbl` is SUB[4] of FCMP. -/
structure CmpOp where
  h : Hdr
  cond : Nat
  dbl : Bool
  d : Nat
  a : Nat
  b : Src
  deriving DecidableEq, Repr, Inhabited

/-- SEL (R129); `p` is the predicate c. -/
structure SelOp where
  h : Hdr
  tr : Nat
  d : Nat
  a : Nat
  b : Src
  p : Nat
  deriving DecidableEq, Repr, Inhabited

/-- MOVS (R130). -/
structure MovsOp where
  h : Hdr
  tr : Nat
  d : Nat
  b : Nat
  deriving DecidableEq, Repr, Inhabited

/-- MOVL (R130): `wide` is W. -/
structure MovlOp where
  h : Hdr
  tr : Nat
  wide : Bool
  d : Nat
  lit : BitVec 64
  deriving DecidableEq, Repr, Inhabited

/-- SHFL (R131). The amount is a constant (`Src.imm`) or b. -/
structure ShflOp where
  h : Hdr
  tr : Nat
  mode : Nat
  d : Nat
  a : Nat
  amt : Src
  deriving DecidableEq, Repr, Inhabited

/-- SCAN (R132). -/
structure ScanOp where
  h : Hdr
  rm : Nat
  tr : Nat
  op : Nat
  excl : Bool
  d : Nat
  a : Nat
  deriving DecidableEq, Repr, Inhabited

/-- SREAD (R133). -/
structure SreadOp where
  h : Hdr
  u : Bool
  sel : Nat
  d : Nat
  deriving DecidableEq, Repr, Inhabited

/-- FCLASS (R135). -/
structure FclassOp where
  h : Hdr
  dbl : Bool
  mask : Nat
  d : Nat
  a : Nat
  deriving DecidableEq, Repr, Inhabited

/-- CVT (R138). -/
structure CvtOp where
  h : Hdr
  sat : Bool
  rm : Nat
  tr : Nat
  la : Nat
  d : Nat
  a : Nat
  c : Nat
  sb : Nat
  de : Nat
  se : Nat
  df : Nat
  sf : Nat
  deriving DecidableEq, Repr, Inhabited

/-- DOT4 and DOT8 (R140). -/
structure DotOp where
  h : Hdr
  rm : Nat
  tr : Nat
  la : Nat
  d : Nat
  a : Nat
  b : Src
  c : Nat
  fb : Nat
  fa : Nat
  bsb : Nat
  bsa : Nat
  srb : Nat
  sra : Nat
  deriving DecidableEq, Repr, Inhabited

/-- WUPD (R142). -/
structure WupdOp where
  h : Hdr
  tr : Nat
  la : Nat
  d : Nat
  a : Nat
  g : Nat
  negv : Nat
  zden : Nat
  deriving DecidableEq, Repr, Inhabited

/-- RAND (R144). -/
structure RandOp where
  h : Hdr
  tr : Nat
  f : Bool
  d : Nat
  deriving DecidableEq, Repr, Inhabited

/-- Uniform arithmetic (R145): `z` is SUB[0], `b64` SUB[1], `ar` SUB[2]. -/
structure SAlu where
  h : Hdr
  cv : Bool
  z : Bool
  b64 : Bool
  ar : Bool
  sat : Bool
  tr : Nat
  d : Nat
  a : Nat
  b : Src
  deriving DecidableEq, Repr, Inhabited

/-- SMOV (R146): `wide` makes it a 64-bit addition on pairs. -/
structure SmovOp where
  h : Hdr
  cv : Bool
  tr : Nat
  wide : Bool
  d : Nat
  a : Nat
  x : BitVec 64
  deriving DecidableEq, Repr, Inhabited

/-- SCMP (R147). -/
structure ScmpOp where
  h : Hdr
  cv : Bool
  cond : Nat
  d : Nat
  a : Nat
  b : Src
  deriving DecidableEq, Repr, Inhabited

/-- SSEL (R147). -/
structure SselOp where
  h : Hdr
  cv : Bool
  tr : Nat
  d : Nat
  a : Nat
  b : Src
  k : Nat
  deriving DecidableEq, Repr, Inhabited

/-- A load or store: LD, ST, SLD, SST (R148, R179). `d` is the destination or data, `a` the index (0: none), `b` the base
pair, `pd` SUB[0] of LD. -/
structure MemOp where
  h : Hdr
  cv : Bool
  la : Nat
  pd : Bool
  d : Nat
  a : Nat
  b : Nat
  disp : BitVec 16
  rmt : Bool
  sx : Bool
  scope : Nat
  ord : Nat
  sync : Bool
  sc : Nat
  size : Nat
  deriving DecidableEq, Repr, Inhabited

/-- ATOM, RED and CAS (R189); `op` is SUB. -/
structure AtomOp where
  h : Hdr
  op : Nat
  la : Nat
  d : Nat
  a : Nat
  b : Nat
  c : Nat
  disp : BitVec 16
  rmt : Bool
  scope : Nat
  ord : Nat
  sync : Bool
  sc : Nat
  size : Nat
  deriving DecidableEq, Repr, Inhabited

/-- VTOS (R152). -/
structure VtosOp where
  h : Hdr
  cv : Bool
  rm : Nat
  tr : Nat
  ty : Nat
  mode : Nat
  kf : Nat
  d : Nat
  a : Nat
  deriving DecidableEq, Repr, Inhabited

/-- VOTE (R153). -/
structure VoteOp where
  h : Hdr
  cv : Bool
  mode : Nat
  d : Nat
  p : Nat
  deriving DecidableEq, Repr, Inhabited

/-- BALLOT (R153). -/
structure BallotOp where
  h : Hdr
  cv : Bool
  tr : Nat
  d : Nat
  p : Nat
  deriving DecidableEq, Repr, Inhabited

/-- PLOP and KLOP (R154). -/
structure LopOp where
  h : Hdr
  cv : Bool
  fn : Nat
  d : Nat
  a : Nat
  b : Nat
  deriving DecidableEq, Repr, Inhabited

/-- BRA, SBRA and CALL (R156): `k` chooses the guard's file, `off` is the word offset from word0. -/
structure BraOp where
  h : Hdr
  cv : Bool
  k : Bool
  off : BitVec 32
  deriving DecidableEq, Repr, Inhabited

/-- JMP and CALLR (R157): a vector pair, a uniform pair, or (JMP) a literal address. -/
structure JmpOp where
  h : Hdr
  target : Src
  deriving DecidableEq, Repr, Inhabited

/-- An instruction that has no operand but its guard and, where it is uniform-class, CV. -/
structure NoOp where
  h : Hdr
  cv : Bool
  deriving DecidableEq, Repr, Inhabited

/-- GUARD.O (R171). -/
structure GuardOp where
  h : Hdr
  p : Bool
  off : BitVec 32
  deriving DecidableEq, Repr, Inhabited

/-- TRAP (R173). -/
structure TrapOp where
  h : Hdr
  code : Nat
  deriving DecidableEq, Repr, Inhabited

/-- CHKERR (R170). -/
structure ChkOp where
  h : Hdr
  cv : Bool
  clr : Bool
  t : Bool
  k : Nat
  mask : Nat
  deriving DecidableEq, Repr, Inhabited

/-- TAG (R177); `b` is the source of the new tag of TAG.SET. -/
structure TagOp where
  h : Hdr
  d : Nat
  a : Nat
  b : Src
  deriving DecidableEq, Repr, Inhabited

/-- FENCE (R193). -/
structure FenceOp where
  h : Hdr
  scope : Nat
  ord : Nat
  deriving DecidableEq, Repr, Inhabited

/-- BARI (R195): base pair `b`, EXP register `a`. -/
structure BariOp where
  h : Hdr
  cv : Bool
  a : Nat
  b : Nat
  disp : BitVec 16
  deriving DecidableEq, Repr, Inhabited

/-- BARV (R195). -/
structure BarvOp where
  h : Hdr
  cv : Bool
  scope : Nat
  tx : Bool
  d : Nat
  a : Nat
  b : Nat
  c : Nat
  disp : BitVec 16
  icount : Nat
  deriving DecidableEq, Repr, Inhabited

/-- BARW (R195): `a` the phase register, `c` the bound register, `d` the k code. -/
structure BarwOp where
  h : Hdr
  cv : Bool
  scope : Nat
  d : Nat
  a : Nat
  b : Nat
  c : Nat
  disp : BitVec 16
  deriving DecidableEq, Repr, Inhabited

/-- CPY (R198); its MODE is its constructor. -/
structure CpyOp where
  h : Hdr
  cv : Bool
  d : Nat
  a : Nat
  b : Nat
  c : Nat
  scope : Nat
  stream : Nat
  deriving DecidableEq, Repr, Inhabited

/-- CSEAL and CWAIT (R201): `r` is the destination of CSEAL, the source of CWAIT. -/
structure SealOp where
  h : Hdr
  cv : Bool
  r : Nat
  deriving DecidableEq, Repr, Inhabited

/-- MAIL (R204). -/
structure MailOp where
  h : Hdr
  cv : Bool
  scope : Nat
  a : Nat
  b : Nat
  deriving DecidableEq, Repr, Inhabited

/-- EMIT (R205). -/
structure EmitOp where
  h : Hdr
  a : Nat
  b : Nat
  deriving DecidableEq, Repr, Inhabited

/-- MMA, MMAS and MMD (R216, R218). `t2` is the dW tile of MMD; `mb`, `nb`, `kb` are the encoded sizes. -/
structure MmaOp where
  h : Hdr
  cv : Bool
  d : Nat
  t2 : Nat
  a : Nat
  b : Nat
  c : Nat
  crew : Bool
  syn : Nat
  kb : Nat
  nb : Nat
  mb : Nat
  deriving DecidableEq, Repr, Inhabited

/-- ACCZ (R224). -/
structure AcczOp where
  h : Hdr
  cv : Bool
  side : Bool
  t : Nat
  mb : Nat
  nb : Nat
  deriving DecidableEq, Repr, Inhabited

/-- ACCLD (R225). -/
structure AccldOp where
  h : Hdr
  cv : Bool
  d : Nat
  a : Nat
  nb : Nat
  mb : Nat
  deriving DecidableEq, Repr, Inhabited

/-- ACCST (R225); `q` is SUB[0]. -/
structure AccstOp where
  h : Hdr
  cv : Bool
  q : Bool
  sat : Bool
  rm : Nat
  d : Nat
  a : Nat
  nb : Nat
  mb : Nat
  deriving DecidableEq, Repr, Inhabited

/-- ACCRD (R226). -/
structure AccrdOp where
  h : Hdr
  la : Nat
  sel : Nat
  d : Nat
  a : Nat
  b : Nat
  nb : Nat
  deriving DecidableEq, Repr, Inhabited

/-- SMX (R227). -/
structure SmxOp where
  h : Hdr
  cv : Bool
  d : Nat
  a : Nat
  db : Nat
  nb : Nat
  mb : Nat
  deriving DecidableEq, Repr, Inhabited

/-- MSYNC (R228); its MODE is its constructor. -/
structure MsyncOp where
  h : Hdr
  cv : Bool
  t : Nat
  n : Nat
  deriving DecidableEq, Repr, Inhabited

/-- WSL (R229). -/
structure WslOp where
  h : Hdr
  cv : Bool
  key : Nat
  dst : Nat
  d : Nat
  b : Nat
  c : Nat
  deriving DecidableEq, Repr, Inhabited

/-- LAUNCH (R238); `lit` is the code address of the literal form. -/
structure LaunchOp where
  h : Hdr
  cv : Bool
  d : Nat
  b : Nat
  lit : BitVec 64
  deriving DecidableEq, Repr, Inhabited

/-- GETC (R206). -/
structure GetcOp where
  h : Hdr
  cv : Bool
  la : Nat
  n : Nat
  d : Nat
  deriving DecidableEq, Repr, Inhabited

/-- SETC (R206): `m` is SUB[0], with the mask pair `c`. -/
structure SetcOp where
  h : Hdr
  cv : Bool
  n : Nat
  m : Bool
  b : Nat
  c : Nat
  deriving DecidableEq, Repr, Inhabited

/-- SYS (R207): registers D, A, B, C and the defined bits of X; SUB is its constructor. -/
structure SysOp where
  h : Hdr
  d : Nat
  a : Nat
  b : Nat
  c : Nat
  x : Nat
  deriving DecidableEq, Repr, Inhabited

/-- A message of 64 bytes for mailbox `n` of context `ctx` (R300). -/
structure MailMsg where
  ctx : Nat
  n : Nat
  bytes : List (BitVec 8)
  deriving DecidableEq, Repr, Inhabited

/-- A host write of `bytes` at byte `off` of the slot of mailbox `n` (R302). -/
structure HostMail where
  ctx : Nat
  n : Nat
  off : Nat
  bytes : List (BitVec 8)
  deriving DecidableEq, Repr, Inhabited

/-- A fabric packet (R381) that arrives on input port `port`. -/
structure Packet where
  port : Nat
  vc : Nat
  gang : Nat
  drank : Nat
  srank : Nat
  seq : Nat
  addr : Nat
  rtag : Nat
  ops : BitVec 256
  payload : List (BitVec 8)
  tags : List (BitVec 16)
  deriving DecidableEq, Repr, Inhabited

/-- A unit of R358: an L2 slice, a core, a memory channel of a die, or a fabric port. -/
inductive UnitName
  | core (k : Nat)
  | l2 (cluster : Nat)
  | channel (die ch : Nat)
  | port (p : Nat)
  deriving DecidableEq, Repr, Inhabited

/-- An array row of R354 and R355. -/
inductive RowName
  | scratch (core bank row : Nat)
  | l2 (cluster bank row : Nat)
  | acc (core bank row : Nat)
  | stationary (core bank row : Nat)
  | regs (core part row : Nat)
  | lpddr (die ch bank row : Nat)
  deriving DecidableEq, Repr, Inhabited

/-- What firmware writes when it creates a context (R50, R279, R300, R331, R361, R380). -/
structure CtxParams where
  ctx : Nat
  world : Nat
  ptroot : Nat
  mbx : Nat
  deadline : Nat
  area : Nat
  blkSize : Nat
  blkCount : Nat
  peers : List (Nat × BitVec 32)
  boxes : List (Nat × List (BitVec 8))
  pages : List Nat
  control : Nat
  deriving DecidableEq, Repr, Inhabited

/-- The digests that boot measures into MEAS0 to MEAS4 (R372), and the configuration record's default sweep deadline (R338).
DESIGN CHOICE: log entry 36, unsafe. -/
structure BootOp where
  digests : List (BitVec 256)
  sweepDefault : Nat
  sweepArea : Nat
  sweepSize : Nat
  deriving DecidableEq, Repr, Inhabited

/-- A transport of the SPDM responder (R373): MCTP or DOE. -/
inductive Transport
  | mctp | doe
  deriving DecidableEq, Repr, Inhabited

/-- The states of a TDI (R374). -/
inductive TdiState
  | configUnlocked | configLocked | run | error
  deriving DecidableEq, Repr, Inhabited

/-- One constructor for each row of the opcode table. -/
inductive Instr
  | nop (bnd : Bool)
  -- 0x01 to 0x16 (R125, R126)
  | iadd (o : Alu) | isub (o : Alu) | imul (o : Alu) | imulh (o : Alu) | imad (o : Alu) | imin (o : Alu) | imax (o : Alu)
  | and (o : Alu) | or (o : Alu) | xor (o : Alu) | andn (o : Alu) | shl (o : Alu) | shr (o : Alu) | sar (o : Alu)
  | rot (o : Alu) | popc (o : Un) | clz (o : Un) | brev (o : Un) | iaddi (o : Alu) | andi (o : Alu) | shli (o : Alu)
  | shri (o : Alu)
  -- 0x17 to 0x1F (R127 to R133)
  | lea (o : LeaOp) | icmp (o : CmpOp) | sel (o : SelOp) | mov (o : Un) | movl (o : MovlOp) | movs (o : MovsOp)
  | shfl (o : ShflOp) | scan (o : ScanOp) | sread (o : SreadOp)
  -- 0x20 to 0x2F (R128, R134, R135)
  | fadd (o : Alu) | fsub (o : Alu) | fmul (o : Alu) | ffma (o : Alu) | fmin (o : Alu) | fmax (o : Alu) | fdiv (o : Alu)
  | fsqrt (o : Un) | frcp (o : Un) | frsq (o : Un) | fex2 (o : Un) | flg2 (o : Un) | fsin (o : Un) | fcos (o : Un)
  | fcmp (o : CmpOp) | fclass (o : FclassOp)
  -- 0x30 to 0x3F (R134, R136 to R144)
  | dadd (o : Alu) | dmul (o : Alu) | dfma (o : Alu) | hadd2 (o : Alu) | hmul2 (o : Alu) | hfma2 (o : Alu)
  | badd2 (o : Alu) | bmul2 (o : Alu) | bfma2 (o : Alu) | cvt (o : CvtOp) | dot4 (o : DotOp) | dot8 (o : DotOp)
  | wupd (o : WupdOp) | rand (o : RandOp) | fscl (o : Alu) | frnd (o : Un)
  -- 0x40 to 0x51 (R145 to R154)
  | sadd (o : SAlu) | ssub (o : SAlu) | smul (o : SAlu) | sand (o : SAlu) | sor (o : SAlu) | sxor (o : SAlu)
  | sshl (o : SAlu) | sshr (o : SAlu) | smov (o : SmovOp) | scmp (o : ScmpOp) | ssel (o : SselOp) | sld (o : MemOp)
  | sst (o : MemOp) | vtos (o : VtosOp) | vote (o : VoteOp) | ballot (o : BallotOp) | plop (o : LopOp) | klop (o : LopOp)
  -- 0x52 to 0x5F (R156 to R177)
  | bra (o : BraOp) | sbra (o : BraOp) | jmp (o : JmpOp) | call (o : BraOp) | callr (o : JmpOp) | ret (o : NoOp)
  | exit (o : NoOp) | rgn (o : NoOp) | guardOpen (o : GuardOp) | guardClose (o : NoOp) | trap (o : TrapOp)
  | tretRestart (o : NoOp) | tretNext (o : NoOp) | tretKill (o : NoOp) | chkerr (o : ChkOp) | drain (o : NoOp)
  | tagGet (o : TagOp) | tagSet (o : TagOp) | tagMint (o : TagOp)
  -- 0x60 to 0x6F (R179 to R205)
  | ld (o : MemOp) | st (o : MemOp) | atom (o : AtomOp) | red (o : AtomOp) | cas (o : AtomOp) | fence (o : FenceOp)
  | bari (o : BariOp) | barv (o : BarvOp) | barw (o : BarwOp) | cpyMemory (o : CpyOp) | cpyFromPort (o : CpyOp)
  | cpyToPort (o : CpyOp) | cseal (o : SealOp) | cwait (o : SealOp) | tokw (o : NoOp) | tokp (o : NoOp) | mail (o : MailOp)
  | emit (o : EmitOp)
  -- 0x70 to 0x7A (R216 to R238)
  | mma (o : MmaOp) | mmas (o : MmaOp) | mmd (o : MmaOp) | accz (o : AcczOp) | accld (o : AccldOp) | accst (o : AccstOp)
  | accrd (o : AccrdOp) | smx (o : SmxOp) | wsl (o : WslOp) | msyncAll (o : MsyncOp) | msyncProg (o : MsyncOp)
  | msyncWs (o : MsyncOp) | launch (o : LaunchOp)
  -- 0x7B to 0x7D (R206, R207)
  | getc (o : GetcOp) | setc (o : SetcOp) | setcCrew (o : SetcOp) | setcQmap (o : SetcOp) | setcStfq (o : SetcOp)
  | sysReplay (o : SysOp) | sysReplayTok (o : SysOp) | sysTlbinv (o : SysOp) | sysDiagst (o : SysOp) | sysDiagld (o : SysOp)
  | sysScrub (o : SysOp) | sysWorld (o : SysOp) | sysHalt (o : SysOp)
  -- issue events: `part` is a partition of the package, core × 4 + partition; `st` a strand's own number in State
  | runArbitration (part : Nat) | convergenceIssue (st : Nat) | longLatencyReturn (st i : Nat)
  | queueAccessResume (st : Nat) | scoreboardRelease (core i : Nat) | regionReentry (st : Nat) (threads : BitVec 32)
  | operandParityError (st : Nat) (threads : BitVec 32)
  -- commit and engine events
  | commitCheck (st : Nat) | parkedStorePerform (st seq : Nat) | ord10StorePerform (st : Nat) | tokwAcquire (st : Nat)
  | copyComplete (core i : Nat) | copyResume (core i : Nat) | barwWake (st : Nat) | barwTimeout (st : Nat)
  | matrixAccept (st : Nat) | crewRendezvous (st : Nat) | rowBlockComplete (st i : Nat) (failed : Bool) | matrixResume (st i : Nat)
  | wsuBlockDelivery (core : Nat) | wsuQueuePush (core : Nat) | wsuResume (core : Nat)
  | peerResponseArrival (rtag : Nat) (value : BitVec 64)
  -- mailboxes, launches and continuations
  | mailboxMessageArrival (m : MailMsg) | hostMailboxWrite (m : HostMail) | mailDelivery (ctx n : Nat)
  | launchIntake (ctx n : Nat) | launchWaitResolved (launch : Nat) | hankPlacement (launch cluster : Nat)
  | launchCompletion (launch : Nat) | emitRecordIntake (die : Nat) | continuationTimeout (launch entry : Nat)
  | generationFormation (launch : Nat) | bobbinPreempt (launch : Nat)
  -- pre-emption and the context control page
  | preempt (ctx : Nat) (dies : BitVec 8) (hold : Bool) | releaseHold (ctx : Nat) | controlCmdInvalid (ctx cmd : Nat)
  | preemptionSave (ctx : Nat) | saveDeadlineExpiry (ctx die : Nat) | contextRestore (hank cluster : Nat)
  -- the gang switch
  | gangSwitchCommand (gang deadline : Nat) | sweep (gang deadline : Nat) | sweepMarkerArrival (gang port vc : Nat)
  | sweepDone (gang chip : Nat) | sweepDeadlineExpiry (gang : Nat) | gangResumeRequest (gang : Nat) (map : List (Nat × Nat))
  | resume (gang : Nat) (map : List (Nat × Nat)) | run (gang : Nat)
  -- the fabric
  | peerRead (p : Packet) | peerReadResponse (p : Packet) | peerWrite (p : Packet) | peerAtomic (p : Packet)
  | peerAtomicResponse (p : Packet) | peerMailboxMessage (p : Packet) | writeAcknowledgement (p : Packet)
  | flitRetryExhausted (port : Nat)
  -- reliability
  | outOfServiceRequest (u : UnitName) | lastingFaultRepair (r : RowName) | errorWindowExpiry (die : Nat)
  | bankRetirement (r : RowName) | coreSleep (core : Nat) | coreWakeSweep (core : Nat) | scrubComplete (core : Nat)
  -- proposals: entry `j` of the proposal page at `page` (R363)
  | map (page j : Nat) | unmap (page j : Nat) | assign (page j : Nat) | share (page j : Nat) | release (page j : Nat)
  | sealok (page j : Nat)
  -- the security core
  | measurementExtend (i : Nat) (digest : BitVec 256) | getVersion (t : Transport) | getCapabilities (t : Transport)
  | negotiateAlgorithms (t : Transport) (offered : Bool) | getDigests (t : Transport) | getCertificate (t : Transport)
  | challenge (t : Transport) | getMeasurements (t : Transport) (block : Nat) | keyExchange (t : Transport)
  | finish (t : Transport) | endSession (t : Transport)
  | keySlotLoad (t : Transport) (world slot : Nat) (key digest : BitVec 256)
  | allowListWrite (t : Transport) (world : Nat) (list : BitVec 64) | spdmUnsupportedRequest (t : Transport) (code : Nat)
  -- the host link
  | counterRead (group owner : Nat) (value : BitVec 64) | cxlMemRead (world pa len : Nat)
  | cxlMemWrite (world pa stream : Nat) (bytes : List (BitVec 8)) | bisnpResponse (line : Nat)
  | tdiStateChange (n : Nat) (next : TdiState)
  -- the module
  | boot (o : BootOp) | firmwareUpdate (digest : BitVec 256) (good : Bool) | thermalThrottle (die : Nat)
  | thermalShutdown (die : Nat) | contextCreation (p : CtxParams) | unitReturnedToService (u : UnitName) (good : Bool)
  deriving DecidableEq, Repr, Inhabited

end Sys2Proof
end

