-- ==== Sys2Proof/WellFormed.lean ====
section
/-!
DEFINITION. Which instructions have an encoding, and the fields that fail step 5 of R69.

`Instr.faults` lists the bit positions (R70) of the operand fields whose value the spec does not allow, each field legal or
not by its own value or together with another. Fields that an entry does not use are not part of `Instr`; `decode` finds
them by comparing an instruction's words with the words that `encode` gives back.
-/

namespace Sys2Proof

/-- The position `p` fails unless `ok`. -/
def need (ok : Bool) (p : Nat) : List Nat := if ok then [] else [p]

/-- A form with the words of W3 (R53). -/
def Form.isW3 : Form → Bool
  | .w1 | .w1l => false
  | .w3 | .w3l => true

/-- A form with a literal (R53). -/
def Form.isLit : Form → Bool
  | .w1 | .w3 => false
  | .w1l | .w3l => true

/-- The position of a field that stands at `p1` in W1 and at `p3` in W3. -/
def Form.at (f : Form) (p1 p3 : Nat) : Nat := if f.isW3 then p3 else p1

/-- Forms and guard (R59, R60, R68): a one-word form has the guard p7 or k7. -/
def Hdr.faults (h : Hdr) (forms : List Form) : List Nat :=
  need (forms.contains h.form) 0 ++ need (h.pg < 8 && (h.form.isW3 || h.pg == 7)) 48 ++ need (h.form.isW3 || !h.pn) 51

/-- Forms and guard of the layout BB, which carries a guard in its one word (R58). -/
def Hdr.faultsBB (h : Hdr) (forms : List Form) : List Nat :=
  need (forms.contains h.form) 0 ++ need (h.pg < 8) (h.form.at 10 48)

/-- Which of the fields RM, TR, SAT and LA an instruction may set (R61, R66). -/
structure Attr where
  rm : Bool := false
  tr : Bool := true
  sat : Bool := false
  la : Bool := false
  deriving DecidableEq, Repr, Inhabited

/-- The fields RM, TR, SAT and LA, which a one-word form does not carry. -/
def attrFaults (f : Form) (ok : Attr) (rm tr la : Nat) (sat : Bool) : List Nat :=
  need (rm == 0 || (ok.rm && rm < 7 && f.isW3)) 59 ++ need (tr == 0 || (ok.tr && tr < 6 && f.isW3)) 56 ++
    need (!sat || (ok.sat && f.isW3)) 62 ++ need (la == 0 || (ok.la && la < 16 && f.isW3)) 52

/-- A register code in a field of `n1` values in W1 and of 256 values in W3. -/
def codeFault (f : Form) (code n1 p1 p3 : Nat) : List Nat := need (code < (if f.isW3 then 256 else n1)) (f.at p1 p3)

/-- b as a register or a 32-bit literal (R62, R64), in a W1 field of `n1` codes. -/
def Src.faults (f : Form) (b : Src) (n1 p1 : Nat) : List Nat :=
  match b with
  | .v r | .s r => need (!f.isLit) 32 ++ codeFault f r n1 p1 32
  | .imm _ => need f.isLit 32
  | .wide _ => [f.at p1 32]

/-- b in the uniform space, without U (R145, R147). -/
def Src.faultsU (f : Form) (b : Src) (p1 : Nat) : List Nat :=
  match b with
  | .s r => need (!f.isLit) 32 ++ codeFault f r 64 p1 32
  | .imm _ => need f.isLit 32
  | .v _ | .wide _ => [f.at p1 32]

/-- b of the FP64 instructions, whose literal has W = 1 (R136). -/
def Src.faultsD (f : Form) (b : Src) : List Nat :=
  match b with
  | .v r | .s r => need (!f.isLit) 32 ++ codeFault f r 128 24 32
  | .wide _ => need f.isLit 32
  | .imm _ => [f.at 24 32]

/-- A 32-bit value that a signed field of `n` bits can hold. -/
def fits (n : Nat) (x : BitVec 32) : Bool := (x.setWidth n).signExtend 32 == x

def all4 : List Form := [.w1, .w3, .w1l, .w3l]
def two : List Form := [.w1, .w3]
def w3only : List Form := [.w3]

/-- Integer, FP32 and packed arithmetic in layout B3 (R125, R134, R137). `z`: SUB[0] is defined; `three`: c is used. -/
def Alu.faults (o : Alu) (z three : Bool) (ok : Attr) : List Nat :=
  o.h.faults all4 ++ attrFaults o.h.form ok o.rm o.tr o.la o.sat ++ need (!o.z || (z && o.h.form.isW3)) 26 ++
    codeFault o.h.form o.d 128 10 10 ++ codeFault o.h.form o.a 128 17 18 ++ o.b.faults o.h.form 128 24 ++
    need (if three then (if o.h.form.isW3 then o.c < 256 else o.c == o.d) else o.c == 0) 40

/-- FP64 arithmetic (R136). -/
def Alu.faultsD (o : Alu) (three : Bool) : List Nat :=
  o.h.faults all4 ++ attrFaults o.h.form { rm := true } o.rm o.tr o.la o.sat ++ need (!o.z) 26 ++
    codeFault o.h.form o.d 128 10 10 ++ codeFault o.h.form o.a 128 17 18 ++ o.b.faultsD o.h.form ++
    need (if three then (if o.h.form.isW3 then o.c < 256 else o.c == o.d) else o.c == 0) 40

/-- The forms with an immediate in layout BI (R125). `count`: a shift count, 0 to 31. -/
def Alu.faultsImm (o : Alu) (forms : List Form) (count : Bool) : List Nat :=
  o.h.faults forms ++ attrFaults o.h.form {} o.rm o.tr o.la o.sat ++ need (!o.z) 26 ++ need (o.c == 0) 40 ++
    codeFault o.h.form o.d 128 10 10 ++ codeFault o.h.form o.a 128 17 18 ++
    (match o.b with
     | .imm x => need ((o.h.form != .w1 || fits 8 x) && (!count || x.toNat < 32)) (o.h.form.at 24 64)
     | _ => [o.h.form.at 24 64])

/-- One-source instructions (R126, R130, R134). -/
def Un.faults (o : Un) (ok : Attr) : List Nat :=
  o.h.faults two ++ attrFaults o.h.form ok o.rm o.tr o.la false ++ codeFault o.h.form o.d 128 10 10 ++
    codeFault o.h.form o.a 128 17 18

/-- LEA (R127). -/
def LeaOp.faults (o : LeaOp) : List Nat :=
  o.h.faults [.w1, .w3, .w3l] ++ attrFaults o.h.form {} 0 o.tr 0 false ++ need (o.sc < 5) (o.h.form.at 28 26) ++
    codeFault o.h.form o.d 128 10 10 ++ codeFault o.h.form o.a 128 17 18 ++
    (match o.h.form with
     | .w1 => need (o.b < 32 && o.b % 2 == 0) 24 ++ need (o.disp == 0) 64
     | .w3l => need (o.b < 256) 32 ++ need (o.disp.toNat < 2 ^ 56) (96 + 56)
     | _ => need (o.b < 256) 32 ++ need ((o.disp.setWidth 32).signExtend 64 == o.disp) 64)

/-- ICMP and FCMP (R128): `n` conditions, FP64 pairs where `dbl` is allowed. -/
def CmpOp.faults (o : CmpOp) (n : Nat) (dbl : Bool) : List Nat :=
  o.h.faults all4 ++ need (o.cond < n) (o.h.form.at 13 26) ++ need (!o.dbl || (dbl && o.h.form.isW3)) 30 ++
    need (o.d < 8) 10 ++ codeFault o.h.form o.a 128 17 18 ++ o.b.faults o.h.form 128 24

/-- SEL (R129). -/
def SelOp.faults (o : SelOp) : List Nat :=
  o.h.faults all4 ++ attrFaults o.h.form {} 0 o.tr 0 false ++ codeFault o.h.form o.d 64 10 10 ++
    codeFault o.h.form o.a 64 16 18 ++ o.b.faults o.h.form 64 22 ++ need (o.p < 8) (o.h.form.at 29 40)

/-- MOVS (R130). -/
def MovsOp.faults (o : MovsOp) : List Nat :=
  o.h.faults two ++ attrFaults o.h.form {} 0 o.tr 0 false ++ codeFault o.h.form o.d 128 10 10 ++
    codeFault o.h.form o.b 128 24 32

/-- MOVL (R130). -/
def MovlOp.faults (o : MovlOp) : List Nat :=
  o.h.faults [.w1l, .w3l] ++ attrFaults o.h.form {} 0 o.tr 0 false ++ codeFault o.h.form o.d 128 10 10 ++
    need (o.wide || o.lit.toNat < 2 ^ 32) (o.h.form.at 64 128)

/-- SHFL (R131). -/
def ShflOp.faults (o : ShflOp) : List Nat :=
  o.h.faults two ++ attrFaults o.h.form {} 0 o.tr 0 false ++ need (o.mode < 4) (o.h.form.at 30 26) ++
    codeFault o.h.form o.d 128 10 10 ++ codeFault o.h.form o.a 128 17 18 ++
    (match o.amt with
     | .imm x => need (x.toNat < 32) (o.h.form.at 24 64)
     | .v r | .s r => need (o.h.form.isW3 && r < 256) 32
     | .wide _ => [32])

/-- SCAN (R132): RM only on the FP32 add, and never SR. -/
def ScanOp.faults (o : ScanOp) : List Nat :=
  o.h.faults two ++ attrFaults o.h.form { rm := o.op == 1 } o.rm o.tr 0 false ++ need (o.rm != 6) 59 ++
    need (o.op < 11) (o.h.form.at 28 26) ++ codeFault o.h.form o.d 128 10 10 ++ codeFault o.h.form o.a 128 17 18

/-- The selectors of R51 that exist. -/
def sreadKnown (sel : Nat) : Bool := sel ≤ 0x17

/-- The selectors of R51 marked uniform: all but thread and lane. -/
def sreadUniform (sel : Nat) : Bool := 2 ≤ sel && sel ≤ 0x17

/-- SREAD (R133). -/
def SreadOp.faults (o : SreadOp) : List Nat :=
  o.h.faults two ++ need (!o.u || o.h.pg == 7) 48 ++ need (!o.u || !o.h.pn) 51 ++
    codeFault o.h.form o.d 128 10 10 ++
    need (sreadKnown o.sel && (!o.u || sreadUniform o.sel) && o.sel < (if o.h.form.isW3 then 256 else 128))
      (o.h.form.at 17 64)

/-- FCLASS (R135). -/
def FclassOp.faults (o : FclassOp) : List Nat :=
  o.h.faults two ++ need (!o.dbl || o.h.form.isW3) 26 ++ need (o.mask < 1024) (o.h.form.at 22 64) ++
    need (o.d < 8) 10 ++ codeFault o.h.form o.a 128 15 18

/-- Elements of a format in one word (R76, R138); 1 for the 32- and 64-bit formats. -/
def fmtElems (f : Nat) : Nat :=
  match f with
  | 2 | 3 | 8 | 9 => 2
  | 4 | 5 | 6 | 7 => 4
  | 14 => 8
  | _ => 1

/-- Integer format codes of R138. -/
def fmtIsInt (f : Nat) : Bool := 6 ≤ f && f ≤ 13

/-- CVT (R138). -/
def CvtOp.faults (o : CvtOp) : List Nat :=
  let ii := fmtIsInt o.sf && fmtIsInt o.df
  let n4 := o.sf == 14 || o.df == 14
  o.h.faults w3only ++ attrFaults o.h.form { rm := !ii, sat := ii, la := true } o.rm o.tr o.la o.sat ++
    need (o.rm != 6 || o.df != 14) 59 ++ need (o.d < 256) 10 ++ need (o.a < 256) 18 ++
    need (o.c < 256 && (n4 || o.c == 0)) 40 ++ need (o.sf < 15) 64 ++ need (o.df < 15) 68 ++
    need (o.se < fmtElems o.sf) 72 ++ need (o.de < fmtElems o.df) 75 ++ need (o.sb < 4 && (n4 || o.sb == 0)) 78

/-- DOT4 and DOT8 (R140). -/
def DotOp.faults (o : DotOp) (eight : Bool) : List Nat :=
  o.h.faults w3only ++ attrFaults o.h.form { rm := true, la := true } o.rm o.tr o.la false ++ need (o.d < 256) 10 ++
    need (o.a < 256) 18 ++ o.b.faults o.h.form 128 32 ++ need (o.c < 256) 40 ++ need (o.sra < 256) 64 ++
    need (o.srb < 256) 72 ++ need (o.bsa < 4) 80 ++ need (o.bsb < 4) 82 ++
    need (if eight then o.fa == 0 else o.fa < 3) 84 ++ need (if eight then o.fb == 0 else o.fb < 3) 86

/-- WUPD (R142). -/
def WupdOp.faults (o : WupdOp) : List Nat :=
  o.h.faults w3only ++ attrFaults o.h.form { la := true } 0 o.tr o.la false ++ need (o.d < 256) 10 ++
    need (o.a < 256) 18 ++ need (o.g < 8) 64 ++ need (o.negv < 8) 68 ++ need (o.zden < 8) 72

/-- RAND (R144). -/
def RandOp.faults (o : RandOp) : List Nat :=
  o.h.faults two ++ attrFaults o.h.form {} 0 o.tr 0 false ++ codeFault o.h.form o.d 128 10 10

/-- Uniform arithmetic (R145). `z`, `ar`, `sat`: which of SUB[0], SUB[2] and SAT the entry defines. -/
def SAlu.faults (o : SAlu) (z ar sat : Bool) : List Nat :=
  o.h.faults all4 ++ attrFaults o.h.form { sat := sat } 0 o.tr 0 o.sat ++
    need (!o.z || (z && o.h.form.isW3)) 26 ++ need (!o.b64 || o.h.form.isW3) 27 ++
    need (!o.ar || (ar && o.h.form.isW3)) 28 ++ need (!o.cv || o.h.form.isW3) 95 ++
    codeFault o.h.form o.d 64 10 10 ++ codeFault o.h.form o.a 64 16 18 ++ o.b.faultsU o.h.form 22

/-- SMOV (R146). -/
def SmovOp.faults (o : SmovOp) : List Nat :=
  o.h.faults all4 ++ attrFaults o.h.form {} 0 o.tr 0 false ++ need (!o.cv || o.h.form.isW3) 28 ++
    codeFault o.h.form o.d 64 10 10 ++ codeFault o.h.form o.a 64 16 18 ++
    (match o.h.form with
     | .w1 => need (!o.wide) 27 ++ need ((o.x.setWidth 10).signExtend 64 == o.x) 22
     | .w3 => need ((o.x.setWidth 32).signExtend 64 == o.x) 64
     | .w1l | .w3l => need (o.wide || o.x.toNat < 2 ^ 32) (o.h.form.at 64 128))

/-- SCMP (R147): COND 0 to 15 all have a meaning. -/
def ScmpOp.faults (o : ScmpOp) : List Nat :=
  o.h.faults all4 ++ need (o.cond < 16) (o.h.form.at 13 26) ++ need (o.d < 8) 10 ++
    codeFault o.h.form o.a 64 17 18 ++ o.b.faultsU o.h.form 23

/-- SSEL (R147). -/
def SselOp.faults (o : SselOp) : List Nat :=
  o.h.faults all4 ++ attrFaults o.h.form {} 0 o.tr 0 false ++ codeFault o.h.form o.d 64 10 10 ++
    codeFault o.h.form o.a 64 16 18 ++ o.b.faultsU o.h.form 22 ++ need (o.k < 8) (o.h.form.at 28 40)

/-- The access fields of X (R148, R179). `load`: the access reads; `lax`: which loads with ORD may carry RMT.
DEDUCED: log entry 64, unsafe. -/
def memXFaults (load pdOk pd sync rmt sx : Bool) (size sc ord scope : Nat) (rmtOrd : List Nat) : List Nat :=
  need (size < 5 && !(pd && size == 4)) 64 ++ need (!(pd && (size == 4 || sx))) 26 ++ need (pdOk || !pd) 26 ++
    need (sc < 5) 67 ++ need (ord < 4 && (ord != 1 || load) && (ord != 2 || !load)) 71 ++ need (scope < 6) 74 ++
    need (sync || (ord == 0 && scope == 0 && !rmt)) 70 ++ need (!sx || (load && !pd)) 77 ++
    need (!rmt || rmtOrd.contains ord) 71 ++ need (!rmt || rmtOrd.contains ord) 78

/-- A one-word access: 32 bits, weak, scale 1, displacement 0 (R58, R148). -/
def MemOp.plain (o : MemOp) : Bool :=
  !o.pd && o.disp == 0 && !o.rmt && !o.sx && o.scope == 0 && o.ord == 0 && !o.sync && o.sc == 0 && o.size == 2

/-- LD and ST (R179). -/
def MemOp.faults (o : MemOp) (load : Bool) : List Nat :=
  o.h.faults two ++ need (!o.cv) 95 ++
    (match o.h.form with
     | .w1 => need o.plain 64 ++ need (o.la < 16 && (load || o.la == 0)) 28 ++ need (o.b < 32 && o.b % 2 == 0) 24 ++
         need (o.d < 128) 10 ++ need (o.a < 128) 17
     | _ => need (o.la < 16 && (load || o.la == 0)) 52 ++ need (o.b < 256) 32 ++
         need (o.d < (if o.pd then 8 else 256)) 10 ++ need (o.a < 256) 18 ++
         memXFaults load load o.pd o.sync o.rmt o.sx o.size o.sc o.ord o.scope (if load then [1, 3] else []))

/-- SLD and SST (R148). -/
def MemOp.faultsU (o : MemOp) (load : Bool) : List Nat :=
  o.h.faults two ++ need (!o.pd) 26 ++
    (match o.h.form with
     | .w1 => need o.plain 64 ++ need (o.la == 0) 52 ++ need (o.b < 32 && o.b % 2 == 0) 16 ++ need (o.d < 64) 10 ++
         need (o.a < 64) 20
     | _ => need (o.la < 16 && (load || o.la == 0)) 52 ++ need (o.b < 256) 32 ++ need (o.d < 256) 10 ++
         need (o.a < 256) 18 ++
         memXFaults load false o.pd o.sync o.rmt o.sx o.size o.sc o.ord o.scope (if load then [1] else []))

/-- ATOM, RED and CAS (R189, R190). `red`: no result; `float`: OP is one of R190's FP32 operations.
DEDUCED: log entry 64, unsafe. -/
def AtomOp.faults (o : AtomOp) (red cas : Bool) : List Nat :=
  let float := !cas && (o.op == 5 || o.op == 6 || o.op == 11)
  let acq := !red && (o.ord == 1 || o.ord == 3 || o.ord == 4)
  o.h.faults w3only ++ need (if cas then o.op == 0 else o.op < 12) 26 ++ need (!(float && o.size == 3)) 26 ++
    need (o.la < 16 && (!red || o.la == 0)) 52 ++ need (o.d < 256 && (!red || o.d == 0)) 10 ++ need (o.a < 256) 18 ++
    need (o.b < 256) 32 ++ need (o.c < 256) 40 ++ need ((o.size == 2 || o.size == 3) && !(float && o.size == 3)) 64 ++
    need (o.sc < 5) 67 ++ need (o.ord < 5 && !(red && (o.ord == 1 || o.ord == 4))) 71 ++ need (o.scope < 6) 74 ++
    need (!o.rmt || acq) 71 ++ need (!o.rmt || acq) 78

/-- VTOS (R152). -/
def VtosOp.faults (o : VtosOp) : List Nat :=
  o.h.faults two ++ attrFaults o.h.form { rm := o.mode == 6 && o.ty == 2 } o.rm o.tr 0 false ++ need (o.rm != 6) 59 ++
    need (o.mode < 8) (o.h.form.at 23 26) ++
    need (o.ty < 3 && (o.ty == 0 || o.mode == 4 || o.mode == 5 || o.mode == 6)) (o.h.form.at 29 29) ++
    need (o.kf < 8 && (o.mode == 1 || o.kf == 0)) (o.h.form.at 26 40) ++ codeFault o.h.form o.d 64 10 10 ++
    codeFault o.h.form o.a 128 16 18

/-- VOTE (R153). -/
def VoteOp.faults (o : VoteOp) : List Nat :=
  o.h.faults two ++ need (o.mode < 3) (o.h.form.at 29 26) ++ need (o.d < 8) 10 ++ need (o.p < 8) (o.h.form.at 13 18)

/-- BALLOT (R153). -/
def BallotOp.faults (o : BallotOp) : List Nat :=
  o.h.faults two ++ attrFaults o.h.form {} 0 o.tr 0 false ++ codeFault o.h.form o.d 64 10 10 ++
    need (o.p < 8) (o.h.form.at 16 18)

/-- PLOP and KLOP (R154); CV = 1 on PLOP is ILL_FIELD (R124). -/
def LopOp.faults (o : LopOp) (uni : Bool) : List Nat :=
  o.h.faults two ++ need (uni || !o.cv) (o.h.form.at 31 95) ++ need (o.fn < 16) (o.h.form.at 19 26) ++ need (o.d < 8) 10 ++
    need (o.a < 8) (o.h.form.at 13 18) ++ need (o.b < 8) (o.h.form.at 16 32)

/-- BRA, SBRA and CALL (R65, R156): SBRA and CALL need K = 1. -/
def BraOp.faults (o : BraOp) (kOnly cvOk : Bool) : List Nat :=
  o.h.faultsBB two ++ need (!kOnly || o.k) 14 ++ need (!o.cv || (cvOk && o.h.form.isW3)) 26 ++
    need (o.h.form.isW3 || fits 17 o.off) 15

/-- JMP and CALLR (R157). -/
def JmpOp.faults (o : JmpOp) (lit : Bool) : List Nat :=
  match o.target with
  | .v r | .s r => o.h.faults two ++ codeFault o.h.form r 128 17 18
  | .wide x => o.h.faults [.w1l] ++ need (lit && x.toNat < 2 ^ 56) (32 + 56) ++ need (x.toNat % 4 == 0) 32
  | .imm _ => [18]

/-- Instructions with no operand (R157, R159, R169, R202). -/
def NoOp.faults (o : NoOp) (cvOk : Bool) : List Nat := o.h.faults two ++ need (cvOk || !o.cv) (o.h.form.at 31 95)

/-- RGN (R161): never guarded. -/
def NoOp.faultsRgn (o : NoOp) : List Nat := o.faults false ++ need (o.h.pg == 7) 48 ++ need (!o.h.pn) 51

/-- GUARD.O (R171). -/
def GuardOp.faults (o : GuardOp) : List Nat := o.h.faults two ++ need (o.h.form.isW3 || fits 17 o.off) 15

/-- TRAP (R173). -/
def TrapOp.faults (o : TrapOp) : List Nat := o.h.faults two ++ need (o.code < 2 ^ 16) (o.h.form.at 10 64)

/-- CHKERR (R170). -/
def ChkOp.faults (o : ChkOp) : List Nat :=
  o.h.faults two ++ need (o.k < 8) (o.h.form.at 14 10) ++ need (o.mask < 16) (o.h.form.at 10 64)

/-- TAG (R177): U may be 1 for SET alone; GET and MINT read no b. -/
def TagOp.faults (o : TagOp) (set : Bool) : List Nat :=
  o.h.faults two ++ codeFault o.h.form o.d 128 10 10 ++ codeFault o.h.form o.a 128 17 18 ++
    (match o.b with
     | .v r => codeFault o.h.form r 64 24 32 ++ need (set || r == 0) (o.h.form.at 24 32)
     | .s r => need (set && o.h.form.isW3 && r < 256) 63
     | _ => [32])

/-- FENCE (R193). -/
def FenceOp.faults (o : FenceOp) : List Nat :=
  o.h.faults two ++ need (o.scope < 6) (o.h.form.at 13 26) ++ need (o.ord < 4) (o.h.form.at 11 29)

/-- BARI (R195). -/
def BariOp.faults (o : BariOp) : List Nat :=
  o.h.faults two ++
    (match o.h.form with
     | .w1 => need (!o.cv) 95 ++ need (o.disp == 0) 79 ++ need (o.b < 32 && o.b % 2 == 0) 24 ++ need (o.a < 64) 18
     | _ => need (o.b < 256) 32 ++ need (o.a < 256) 18)

/-- BARV (R195): a C register only with TX, an immediate count only with A = 0.
DEDUCED: log entry 64, unsafe. -/
def BarvOp.faults (o : BarvOp) : List Nat :=
  o.h.faults two ++ need (o.scope < 6) (o.h.form.at 28 26) ++
    (match o.h.form with
     | .w1 => need (!o.tx) 29 ++ need (o.c == 0) 40 ++ need (o.disp == 0) 79 ++ need (o.icount == 0) 64 ++
         need (o.b < 32 && o.b % 2 == 0) 24 ++ need (o.a < 64) 18 ++ need (o.d < 64) 10
     | _ => need (o.b < 256) 32 ++ need (o.a < 256) 18 ++ need (o.d < 256) 10 ++
         need (o.c < 256 && (o.tx || o.c == 0)) 40 ++ need (o.icount < 2 ^ 15 && (o.a == 0 || o.icount == 0)) 64)

/-- BARW (R195). -/
def BarwOp.faults (o : BarwOp) : List Nat :=
  o.h.faults two ++ need (o.scope < 6) (o.h.form.at 29 26) ++ need (o.d < 8) 10 ++
    (match o.h.form with
     | .w1 => need (!o.cv) 95 ++ need (o.disp == 0) 79 ++ need (o.b < 32 && o.b % 2 == 0) 25 ++ need (o.a < 64) 19 ++
         need (o.c < 64) 13
     | _ => need (o.b < 256) 32 ++ need (o.a < 256) 18 ++ need (o.c < 256) 40)

/-- CPY (R198): `hasD`, `hasA`: which address pair the MODE uses. -/
def CpyOp.faults (o : CpyOp) (hasD hasA : Bool) : List Nat :=
  o.h.faults w3only ++ need (o.d < 256 && (hasD || o.d == 0)) 10 ++ need (o.a < 256 && (hasA || o.a == 0)) 18 ++
    need (o.b < 256) 32 ++ need (o.c < 256) 40 ++ need (o.scope < 6 && (o.c != 0 || o.scope == 0)) 76 ++
    need (o.stream < 0xFFF) 64

/-- CSEAL and CWAIT (R201). -/
def SealOp.faults (o : SealOp) (p1 p3 : Nat) : List Nat := o.h.faults two ++ codeFault o.h.form o.r 64 p1 p3

/-- MAIL (R204). -/
def MailOp.faults (o : MailOp) : List Nat :=
  o.h.faults w3only ++ need (o.scope < 6) 26 ++ need (o.a < 64 && o.a % 16 == 0) 18 ++ need (o.b < 256) 32

/-- EMIT (R205). -/
def EmitOp.faults (o : EmitOp) : List Nat := o.h.faults w3only ++ need (o.a < 256) 18 ++ need (o.b < 256) 32

/-- A descriptor group (R210): a multiple of 8 from 8 to 56. -/
def groupFault (g p : Nat) : List Nat := need (8 ≤ g && g ≤ 56 && g % 8 == 0) p

/-- MMA and MMAS (R216). -/
def MmaOp.faults (o : MmaOp) (bitmap : Bool) : List Nat :=
  o.h.faults w3only ++ need (o.d < 4) 10 ++ need (o.t2 == 0) 26 ++ groupFault o.a 18 ++ groupFault o.b 32 ++
    need (o.c < 256 && (bitmap || o.c == 0)) 40 ++ need (o.mb < 16) 64 ++ need (o.nb < 40) 68 ++ need (o.kb < 1024) 74 ++
    need (o.syn < 3) 84

/-- MMD (R218): MB and KB from 0 to 15. -/
def MmaOp.faultsD (o : MmaOp) : List Nat :=
  o.h.faults w3only ++ need (o.d < 4) 10 ++ need (o.t2 < 4) 26 ++ groupFault o.a 18 ++ groupFault o.b 32 ++
    groupFault o.c 40 ++ need (o.mb < 16) 64 ++ need (o.nb < 40) 68 ++ need (o.kb < 16) 74 ++ need (o.syn < 3) 84

/-- ACCZ (R224). -/
def AcczOp.faults (o : AcczOp) : List Nat :=
  o.h.faults two ++ need (o.t < 4) (o.h.form.at 20 10) ++ need (o.mb < 16) (o.h.form.at 16 64) ++
    need (o.nb < 64) (o.h.form.at 10 68)

/-- ACCLD (R225). -/
def AccldOp.faults (o : AccldOp) : List Nat :=
  o.h.faults w3only ++ need (o.d < 4) 10 ++ groupFault o.a 18 ++ need (o.mb < 16) 64 ++ need (o.nb < 64) 68

/-- ACCST (R225): SR is ILL_FIELD; with Q, D is zero. -/
def AccstOp.faults (o : AccstOp) : List Nat :=
  o.h.faults w3only ++ need (o.rm < 6) 59 ++ (if o.q then need (o.d == 0) 10 else groupFault o.d 10) ++
    need (o.a < 4) 18 ++ need (o.mb < 16) 64 ++ need (o.nb < 64) 68

/-- ACCRD (R226): SEL 1 and 2 need NB = 0. -/
def AccrdOp.faults (o : AccrdOp) : List Nat :=
  o.h.faults w3only ++ need (o.la < 16) 52 ++ need (o.sel < 3) 26 ++ need (o.d < 256) 10 ++ need (o.a < 4) 18 ++
    need (o.b < 256) 32 ++ need (o.nb < 64 && (o.sel == 0 || o.nb == 0)) 68

/-- SMX (R227). -/
def SmxOp.faults (o : SmxOp) : List Nat :=
  o.h.faults w3only ++ need (o.d < 4) 10 ++ need (o.a < 4) 18 ++ need (o.mb < 16) 64 ++ need (o.nb < 64) 68 ++
    need (o.db < 40) 74

/-- MSYNC (R228). -/
def MsyncOp.faults (o : MsyncOp) : List Nat :=
  o.h.faults two ++ need (o.t < 4) (o.h.form.at 15 10) ++ need (o.n ≤ 16) (o.h.form.at 10 64)

/-- WSL (R229). -/
def WslOp.faults (o : WslOp) : List Nat :=
  o.h.faults w3only ++ need (o.dst < 3) 64 ++ need (o.key < 16) 68 ++ need (o.d < 256 && (o.dst != 2 || o.d == 0)) 10 ++
    need (o.b < 256) 32 ++ need (o.c < 256 && (o.dst == 0 || o.c == 0)) 40

/-- LAUNCH (R238). -/
def LaunchOp.faults (o : LaunchOp) : List Nat :=
  o.h.faults [.w3, .w3l] ++ need (o.d < 256) 10 ++ need (o.b < 256) 32 ++
    (match o.h.form with
     | .w3l => need (o.lit.toNat < 2 ^ 56) (96 + 56) ++ need (o.lit.toNat % 4 == 0) 96
     | _ => need (o.lit == 0) 96)

/-- A control register number that does not exist in any mode (R34). -/
def ctlUndefined (n : Nat) : Bool := n == 0x0D || n == 0x0F || (0x12 ≤ n && n ≤ 0x3F) || 0x50 ≤ n

/-- GETC (R206). -/
def GetcOp.faults (o : GetcOp) : List Nat :=
  o.h.faults two ++ need (o.la < 16 && (o.h.form.isW3 || o.la == 0)) 52 ++
    need (o.n < 256 && !ctlUndefined o.n) (o.h.form.at 16 18) ++ codeFault o.h.form o.d 64 10 10

/-- SETC (R206). `ok`: the number is one of the constructor's row. -/
def SetcOp.faults (o : SetcOp) (ok : Nat → Bool) : List Nat :=
  o.h.faults two ++ need (!o.m || o.h.form.isW3) 26 ++
    need (o.n < 256 && !ctlUndefined o.n && ok o.n) (o.h.form.at 16 18) ++ codeFault o.h.form o.b 64 10 32 ++
    need (o.c < 256 && (o.m || o.c == 0)) 40

/-- SYS (R207, R356, R368): which of D, A, B and C the function names, and how many values X takes. -/
def SysOp.faults (o : SysOp) (d a b c : Bool) (x : Nat → Bool) : List Nat :=
  o.h.faults w3only ++ need (o.d < 256 && (d || o.d == 0)) 10 ++ need (o.a < 256 && (a || o.a == 0)) 18 ++
    need (o.b < 256 && (b || o.b == 0)) 32 ++ need (o.c < 256 && (c || o.c == 0)) 40 ++ need (x o.x) 64

/-- The failing fields of an instruction, by bit position (R69 step 5, R70). Events have no encoding and no fields. -/
def Instr.faults : Instr → List Nat
  | .nop _ => []
  | .iadd o | .isub o | .imul o => o.faults true false { sat := true }
  | .imad o => o.faults true true { sat := true }
  | .imulh o | .imin o | .imax o => o.faults true false {}
  | .and o | .or o | .xor o | .andn o | .shl o | .shr o | .sar o | .rot o => o.faults false false {}
  | .popc o | .clz o | .brev o | .mov o => o.faults {}
  | .iaddi o | .andi o => o.faultsImm all4 false
  | .shli o | .shri o => o.faultsImm two true
  | .lea o => o.faults
  | .icmp o => o.faults 10 false
  | .fcmp o => o.faults 8 true
  | .sel o => o.faults
  | .movl o => o.faults
  | .movs o => o.faults
  | .shfl o => o.faults
  | .scan o => o.faults
  | .sread o => o.faults
  | .fadd o | .fsub o | .fmul o | .fscl o => o.faults false false { rm := true }
  | .ffma o => o.faults false true { rm := true }
  | .fmin o | .fmax o => o.faults false false {}
  | .fdiv o => o.faults false false { rm := true, la := true }
  | .fsqrt o | .frcp o | .frsq o | .fex2 o | .flg2 o | .fsin o | .fcos o => o.faults { rm := true, la := true }
  | .frnd o => o.faults { rm := true }
  | .fclass o => o.faults
  | .dadd o | .dmul o => o.faultsD false
  | .dfma o => o.faultsD true
  | .hadd2 o | .hmul2 o | .badd2 o | .bmul2 o => o.faults false false { rm := true }
  | .hfma2 o | .bfma2 o => o.faults false true { rm := true }
  | .cvt o => o.faults
  | .dot4 o => o.faults false
  | .dot8 o => o.faults true
  | .wupd o => o.faults
  | .rand o => o.faults
  | .sadd o | .ssub o | .smul o => o.faults true false true
  | .sand o | .sor o | .sxor o | .sshl o => o.faults false false false
  | .sshr o => o.faults false true false
  | .smov o => o.faults
  | .scmp o => o.faults
  | .ssel o => o.faults
  | .sld o => o.faultsU true
  | .sst o => o.faultsU false
  | .vtos o => o.faults
  | .vote o => o.faults
  | .ballot o => o.faults
  | .plop o => o.faults false
  | .klop o => o.faults true
  | .bra o => o.faults false false
  | .sbra o => o.faults true true
  | .call o => o.faults true false
  | .jmp o => o.faults true
  | .callr o => o.faults false
  | .ret o | .exit o => o.faults false
  | .rgn o => o.faultsRgn
  | .guardOpen o => o.faults
  | .guardClose o => o.faults false
  | .trap o => o.faults
  | .tretRestart o | .tretNext o | .tretKill o => o.faults false
  | .chkerr o => o.faults
  | .drain o | .tokw o | .tokp o => o.faults true
  | .tagGet o | .tagMint o => o.faults false
  | .tagSet o => o.faults true
  | .ld o => o.faults true
  | .st o => o.faults false
  | .atom o => o.faults false false
  | .red o => o.faults true false
  | .cas o => o.faults false true
  | .fence o => o.faults
  | .bari o => o.faults
  | .barv o => o.faults
  | .barw o => o.faults
  | .cpyMemory o => o.faults true true
  | .cpyFromPort o => o.faults true false
  | .cpyToPort o => o.faults false true
  | .cseal o => o.faults 10 10
  | .cwait o => o.faults 16 18
  | .mail o => o.faults
  | .emit o => o.faults
  | .mma o => o.faults false
  | .mmas o => o.faults true
  | .mmd o => o.faultsD
  | .accz o => o.faults
  | .accld o => o.faults
  | .accst o => o.faults
  | .accrd o => o.faults
  | .smx o => o.faults
  | .wsl o => o.faults
  | .msyncAll o | .msyncProg o | .msyncWs o => o.faults
  | .launch o => o.faults
  | .getc o => o.faults
  | .setc o => o.faults (fun n => n != 4 && n != 0x0A && n != 0x0E)
  | .setcCrew o => o.faults (· == 4)
  | .setcQmap o => o.faults (· == 0x0A)
  | .setcStfq o => o.faults (· == 0x0E)
  | .sysReplay o => o.faults false true false false (· == 0)
  | .sysReplayTok o => o.faults false true false false (· == 1)
  | .sysTlbinv o => o.faults false (o.x % 4 == 0) false false (· < 8)
  | .sysDiagst o => o.faults false true true true (· < 3)
  | .sysDiagld o => o.faults true true false false (· < 3)
  | .sysScrub o => o.faults false true false false (· < 6)
  | .sysWorld o => o.faults false true false false (· == 0)
  | .sysHalt o => o.faults false false false false (· == 0)
  | .runArbitration _ | .convergenceIssue _ | .longLatencyReturn _ _ | .queueAccessResume _ | .scoreboardRelease _ _
  | .regionReentry _ _ | .operandParityError _ _ | .commitCheck _ | .parkedStorePerform _ _ | .ord10StorePerform _
  | .tokwAcquire _ | .copyComplete _ _ | .copyResume _ _ | .barwWake _ | .barwTimeout _ | .matrixAccept _
  | .crewRendezvous _ | .rowBlockComplete _ _ _ | .matrixResume _ _ | .wsuBlockDelivery _ | .wsuQueuePush _ | .wsuResume _
  | .peerResponseArrival _ _ | .mailboxMessageArrival _ | .hostMailboxWrite _ | .mailDelivery _ _ | .launchIntake _ _
  | .launchWaitResolved _ | .hankPlacement _ _ | .launchCompletion _ | .emitRecordIntake _ | .continuationTimeout _ _
  | .generationFormation _ | .bobbinPreempt _ | .preempt _ _ _ | .releaseHold _ | .controlCmdInvalid _ _
  | .preemptionSave _ | .saveDeadlineExpiry _ _ | .contextRestore _ _ | .gangSwitchCommand _ _ | .sweep _ _
  | .sweepMarkerArrival _ _ _ | .sweepDone _ _ | .sweepDeadlineExpiry _ | .gangResumeRequest _ _ | .resume _ _ | .run _
  | .peerRead _ | .peerReadResponse _ | .peerWrite _ | .peerAtomic _ | .peerAtomicResponse _ | .peerMailboxMessage _
  | .writeAcknowledgement _ | .flitRetryExhausted _ | .outOfServiceRequest _ | .lastingFaultRepair _
  | .errorWindowExpiry _ | .bankRetirement _ | .coreSleep _ | .coreWakeSweep _ | .scrubComplete _ | .map _ _ | .unmap _ _
  | .assign _ _ | .share _ _ | .release _ _ | .sealok _ _ | .measurementExtend _ _ | .getVersion _ | .getCapabilities _
  | .negotiateAlgorithms _ _ | .getDigests _ | .getCertificate _ | .challenge _ | .getMeasurements _ _ | .keyExchange _
  | .finish _ | .endSession _ | .keySlotLoad _ _ _ _ _ | .allowListWrite _ _ _ | .spdmUnsupportedRequest _ _
  | .counterRead _ _ _ | .cxlMemRead _ _ _ | .cxlMemWrite _ _ _ _ | .bisnpResponse _ | .tdiStateChange _ _ | .boot _
  | .firmwareUpdate _ _ | .thermalThrottle _ | .thermalShutdown _ | .contextCreation _ | .unitReturnedToService _ _ => []

/-- The control register number an instruction names, with the position of its field (R34, R70). -/
def Instr.ctlNumber : Instr → Option (Nat × Nat)
  | .getc o => some (o.n, o.h.form.at 16 18)
  | .setc o | .setcCrew o | .setcQmap o | .setcStfq o => some (o.n, o.h.form.at 16 18)
  | _ => none

/-- Numbers 0x46 to 0x4F do not exist in system mode (R34). -/
def Instr.sysFaults (i : Instr) : List Nat :=
  match i.ctlNumber with
  | some (n, p) => need (!(0x46 ≤ n && n ≤ 0x4F)) p
  | none => []

/-- An instruction that has an encoding, legal in system mode. -/
def Instr.WF (i : Instr) : Prop := i.faults ++ i.sysFaults = []

end Sys2Proof
end

