-- ==== Sys2Proof/Decode.lean ====
section
/-!
DEFINITION. Encoding and decoding (R53 to R71).

An instruction of n words is one number, whose bit 0 is bit 0 of word0 and whose word k stands at bit 32k, as R70 counts
positions. `slots` gives the layout of an opcode in a form; `Raw` holds the fields as read. `build` reads an instruction
from the fields and `toRaw` writes it back. `decode` rejects by name, in the order of R69.
-/

namespace Sys2Proof

/-- Bits lo to lo + n − 1 of w. -/
def fld (w lo n : Nat) : Nat := w / 2 ^ lo % 2 ^ n

/-- The n-bit number v read as signed, as 32 bits. -/
def sextNat (n v : Nat) : Nat := if v < 2 ^ (n - 1) then v else v + 2 ^ 32 - 2 ^ n

/-- The value of a 0 or 1 field. -/
def bit (b : Bool) : Nat := if b then 1 else 0

/-- The fields of an instruction's words as read, after the layouts have been mapped onto the names of R60. -/
structure Raw where
  form : Form := .w1
  bnd : Bool := false
  sub : Nat := 0
  d : Nat := 0
  a : Nat := 0
  b : Nat := 0
  c : Nat := 0
  u : Nat := 0
  sat : Nat := 0
  rm : Nat := 0
  tr : Nat := 0
  la : Nat := 0
  pn : Nat := 0
  pg : Nat := 0
  k : Nat := 0
  cv : Nat := 0
  w : Nat := 0
  x : Nat := 0
  lit : Nat := 0
  deriving DecidableEq, Repr, Inhabited

/-- The fields a slot can hold: SUB and X from a bit upward, `xs` a signed immediate held in X, `bb` a base pair SB. -/
inductive Fd
  | d | a | b | bb | c | u | sat | rm | tr | la | pn | pg | k | cv | w | lit | xs | sub (s : Nat) | x (s : Nat)
  deriving DecidableEq, Repr

/-- `len` bits from position `lo` hold a field. -/
structure Slot where
  lo : Nat
  len : Nat
  fd : Fd
  deriving DecidableEq, Repr

def Raw.get (r : Raw) : Fd → Nat
  | .d => r.d | .a => r.a | .b => r.b | .bb => r.b / 2 | .c => r.c | .u => r.u | .sat => r.sat | .rm => r.rm
  | .tr => r.tr | .la => r.la | .pn => r.pn | .pg => r.pg | .k => r.k | .cv => r.cv | .w => r.w | .lit => r.lit
  | .xs => r.x | .sub s => r.sub / 2 ^ s | .x s => r.x / 2 ^ s

def Raw.set (r : Raw) (sl : Slot) (v : Nat) : Raw :=
  match sl.fd with
  | .d => { r with d := v } | .a => { r with a := v } | .b => { r with b := v } | .bb => { r with b := 2 * v }
  | .c => { r with c := v } | .u => { r with u := v } | .sat => { r with sat := v } | .rm => { r with rm := v }
  | .tr => { r with tr := v } | .la => { r with la := v } | .pn => { r with pn := v } | .pg => { r with pg := v }
  | .k => { r with k := v } | .cv => { r with cv := v } | .w => { r with w := v } | .lit => { r with lit := v }
  | .xs => { r with x := sextNat sl.len v } | .sub s => { r with sub := r.sub + v * 2 ^ s }
  | .x s => { r with x := r.x + v * 2 ^ s }

/-- Where CV stands in the W3 words of an opcode (R124, R146, R156). -/
inductive CvPlace
  | none | x31 | sub (s : Nat)
  deriving DecidableEq, Repr

def cvPlace (op : Nat) : CvPlace :=
  match op with
  | 0x48 => .sub 2
  | 0x53 => .sub 0
  | 0x40 | 0x41 | 0x42 | 0x43 | 0x44 | 0x45 | 0x46 | 0x47 | 0x49 | 0x4A | 0x4B | 0x4C | 0x4D | 0x4E | 0x4F | 0x51 | 0x5D
  | 0x5E | 0x66 | 0x67 | 0x68 | 0x69 | 0x6A | 0x6B | 0x6C | 0x6D | 0x6E | 0x70 | 0x71 | 0x72 | 0x73 | 0x74 | 0x75 | 0x77
  | 0x78 | 0x79 | 0x7A | 0x7B | 0x7C => .x31
  | _ => .none

/-- The role of a literal (R64, R68). -/
inductive Role
  | none | b32 | b64 | addr
  deriving DecidableEq, Repr

def role (op : Nat) : Role :=
  match op with
  | 0x01 | 0x02 | 0x03 | 0x04 | 0x05 | 0x06 | 0x07 | 0x08 | 0x09 | 0x0A | 0x0B | 0x0C | 0x0D | 0x0E | 0x0F | 0x13 | 0x14
  | 0x18 | 0x19 | 0x20 | 0x21 | 0x22 | 0x23 | 0x24 | 0x25 | 0x26 | 0x2E | 0x33 | 0x34 | 0x35 | 0x36 | 0x37 | 0x38 | 0x3E
  | 0x40 | 0x41 | 0x42 | 0x43 | 0x44 | 0x45 | 0x46 | 0x47 | 0x49 | 0x4A => .b32
  | 0x1B | 0x30 | 0x31 | 0x32 | 0x48 => .b64
  | 0x17 | 0x54 | 0x7A => .addr
  | _ => .none

/-- The forms an opcode defines (R68). -/
def formOk (op : Nat) (f : Form) : Bool :=
  match f with
  | .w1 => op == 0 || (1 ≤ op && op ≤ 0x1A) || (0x1C ≤ op && op ≤ 0x38) || (0x3D ≤ op && op ≤ 0x61) ||
      (0x65 ≤ op && op ≤ 0x68) || (0x6A ≤ op && op ≤ 0x6D) || op == 0x73 || op == 0x79 || op == 0x7B || op == 0x7C
  | .w3 => 1 ≤ op && op ≤ 0x7D && op != 0x1B
  | .w1l => op == 0x54 || role op == .b32 || role op == .b64
  | .w3l => op == 0x17 || op == 0x7A || role op == .b32 || role op == .b64

/-- Layouts B3, BI, BM, BU3, BUI and BB (R58). -/
def slotsB3 : List Slot := [⟨31, 1, .u⟩, ⟨24, 7, .b⟩, ⟨17, 7, .a⟩, ⟨10, 7, .d⟩]
def slotsB3one : List Slot := [⟨17, 7, .a⟩, ⟨10, 7, .d⟩]
def slotsBI : List Slot := [⟨24, 8, .xs⟩, ⟨17, 7, .a⟩, ⟨10, 7, .d⟩]
def slotsBM : List Slot := [⟨28, 4, .la⟩, ⟨24, 4, .bb⟩, ⟨17, 7, .a⟩, ⟨10, 7, .d⟩]
def slotsBU3 : List Slot := [⟨22, 6, .b⟩, ⟨16, 6, .a⟩, ⟨10, 6, .d⟩]
def slotsBUI : List Slot := [⟨22, 10, .xs⟩, ⟨16, 6, .a⟩, ⟨10, 6, .d⟩]
def slotsBB : List Slot := [⟨15, 17, .xs⟩, ⟨14, 1, .k⟩, ⟨13, 1, .pn⟩, ⟨10, 3, .pg⟩]

/-- The W1 layouts of the opcode map, with the BC layouts of the entries. -/
def slotsW1 (op : Nat) : List Slot :=
  match op with
  | 0x01 | 0x02 | 0x03 | 0x04 | 0x05 | 0x06 | 0x07 | 0x08 | 0x09 | 0x0A | 0x0B | 0x0C | 0x0D | 0x0E | 0x0F | 0x1C | 0x20
  | 0x21 | 0x22 | 0x23 | 0x24 | 0x25 | 0x26 | 0x30 | 0x31 | 0x32 | 0x33 | 0x34 | 0x35 | 0x36 | 0x37 | 0x38 | 0x3E => slotsB3
  | 0x10 | 0x11 | 0x12 | 0x1A | 0x27 | 0x28 | 0x29 | 0x2A | 0x2B | 0x2C | 0x2D | 0x3F => slotsB3one
  | 0x13 | 0x14 | 0x15 | 0x16 => slotsBI
  | 0x17 => [⟨28, 3, .sub 0⟩, ⟨24, 4, .bb⟩, ⟨17, 7, .a⟩, ⟨10, 7, .d⟩]
  | 0x18 | 0x2E => [⟨31, 1, .u⟩, ⟨24, 7, .b⟩, ⟨17, 7, .a⟩, ⟨13, 4, .sub 0⟩, ⟨10, 3, .d⟩]
  | 0x19 => [⟨29, 3, .c⟩, ⟨28, 1, .u⟩, ⟨22, 6, .b⟩, ⟨16, 6, .a⟩, ⟨10, 6, .d⟩]
  | 0x1B => [⟨17, 1, .w⟩, ⟨10, 7, .d⟩]
  | 0x1D => [⟨30, 2, .sub 0⟩, ⟨24, 5, .x 0⟩, ⟨17, 7, .a⟩, ⟨10, 7, .d⟩]
  | 0x1E => [⟨28, 4, .sub 0⟩, ⟨27, 1, .sub 4⟩, ⟨17, 7, .a⟩, ⟨10, 7, .d⟩]
  | 0x1F => [⟨31, 1, .x 8⟩, ⟨17, 7, .x 0⟩, ⟨10, 7, .d⟩]
  | 0x2F => [⟨22, 10, .x 0⟩, ⟨15, 7, .a⟩, ⟨10, 3, .d⟩]
  | 0x3D => [⟨17, 1, .sub 0⟩, ⟨10, 7, .d⟩]
  | 0x40 | 0x41 | 0x42 | 0x43 | 0x44 | 0x45 | 0x46 | 0x47 => slotsBU3
  | 0x48 => slotsBUI
  | 0x49 => [⟨31, 1, .cv⟩, ⟨23, 6, .b⟩, ⟨17, 6, .a⟩, ⟨13, 4, .sub 0⟩, ⟨10, 3, .d⟩]
  | 0x4A => [⟨31, 1, .cv⟩, ⟨28, 3, .c⟩, ⟨22, 6, .b⟩, ⟨16, 6, .a⟩, ⟨10, 6, .d⟩]
  | 0x4B | 0x4C => [⟨31, 1, .cv⟩, ⟨20, 6, .a⟩, ⟨16, 4, .bb⟩, ⟨10, 6, .d⟩]
  | 0x4D => [⟨31, 1, .cv⟩, ⟨29, 2, .sub 3⟩, ⟨26, 3, .c⟩, ⟨23, 3, .sub 0⟩, ⟨16, 7, .a⟩, ⟨10, 6, .d⟩]
  | 0x4E => [⟨31, 1, .cv⟩, ⟨29, 2, .sub 0⟩, ⟨13, 3, .a⟩, ⟨10, 3, .d⟩]
  | 0x4F => [⟨31, 1, .cv⟩, ⟨16, 3, .a⟩, ⟨10, 6, .d⟩]
  | 0x50 => [⟨19, 4, .sub 0⟩, ⟨16, 3, .b⟩, ⟨13, 3, .a⟩, ⟨10, 3, .d⟩]
  | 0x51 => [⟨31, 1, .cv⟩, ⟨19, 4, .sub 0⟩, ⟨16, 3, .b⟩, ⟨13, 3, .a⟩, ⟨10, 3, .d⟩]
  | 0x52 | 0x53 | 0x55 => slotsBB
  | 0x54 | 0x56 => [⟨24, 1, .u⟩, ⟨17, 7, .a⟩]
  | 0x5A => [⟨15, 17, .xs⟩, ⟨14, 1, .sub 2⟩, ⟨12, 2, .sub 0⟩]
  | 0x5B => [⟨10, 16, .x 0⟩]
  | 0x5C => [⟨10, 2, .sub 0⟩]
  | 0x5D => [⟨31, 1, .cv⟩, ⟨18, 1, .sub 1⟩, ⟨17, 1, .sub 0⟩, ⟨14, 3, .d⟩, ⟨10, 4, .x 0⟩]
  | 0x5E | 0x6C | 0x6D => [⟨31, 1, .cv⟩]
  | 0x5F => [⟨30, 2, .sub 0⟩, ⟨24, 6, .b⟩, ⟨17, 7, .a⟩, ⟨10, 7, .d⟩]
  | 0x60 | 0x61 => slotsBM
  | 0x65 => [⟨13, 3, .sub 0⟩, ⟨11, 2, .sub 3⟩]
  | 0x66 => [⟨24, 4, .bb⟩, ⟨18, 6, .a⟩]
  | 0x67 => [⟨31, 1, .cv⟩, ⟨28, 3, .sub 0⟩, ⟨24, 4, .bb⟩, ⟨18, 6, .a⟩, ⟨10, 6, .d⟩]
  | 0x68 => [⟨29, 3, .sub 0⟩, ⟨25, 4, .bb⟩, ⟨19, 6, .a⟩, ⟨13, 6, .c⟩, ⟨10, 3, .d⟩]
  | 0x6A => [⟨31, 1, .cv⟩, ⟨10, 6, .d⟩]
  | 0x6B => [⟨31, 1, .cv⟩, ⟨16, 6, .a⟩]
  | 0x73 => [⟨31, 1, .cv⟩, ⟨30, 1, .x 30⟩, ⟨20, 2, .d⟩, ⟨16, 4, .x 0⟩, ⟨10, 6, .x 4⟩]
  | 0x79 => [⟨31, 1, .cv⟩, ⟨29, 2, .sub 0⟩, ⟨15, 2, .d⟩, ⟨10, 5, .x 0⟩]
  | 0x7B => [⟨31, 1, .cv⟩, ⟨16, 8, .a⟩, ⟨10, 6, .d⟩]
  | 0x7C => [⟨31, 1, .cv⟩, ⟨16, 8, .a⟩, ⟨10, 6, .b⟩]
  | _ => []

/-- In a literal form the second source's field keeps its lowest bit, W, and U and BU must be zero (R64). -/
def literalSlot (sl : Slot) : List Slot :=
  match sl.fd with
  | .b | .xs => [⟨sl.lo, 1, .w⟩]
  | .u => []
  | _ => [sl]

/-- SUB of the W3 words, which may hold CV, K or U (R146, R156, R157). -/
def slotsSub (op : Nat) : List Slot :=
  match op with
  | 0x48 => [⟨26, 2, .sub 0⟩, ⟨28, 1, .cv⟩, ⟨29, 3, .sub 3⟩]
  | 0x52 => [⟨26, 1, .k⟩, ⟨27, 5, .sub 1⟩]
  | 0x53 => [⟨26, 1, .cv⟩, ⟨27, 5, .sub 1⟩]
  | 0x54 | 0x56 => [⟨26, 1, .u⟩, ⟨27, 5, .sub 1⟩]
  | _ => [⟨26, 6, .sub 0⟩]

/-- The U bit, unless SUB carries U (R157). -/
def slotsU (op : Nat) : List Slot := if op == 0x54 || op == 0x56 then [] else [⟨63, 1, .u⟩]

/-- X, whose bit 31 is CV in the uniform-class opcodes (R124). -/
def slotsX (op : Nat) : List Slot :=
  match cvPlace op with
  | .x31 => [⟨64, 31, .x 0⟩, ⟨95, 1, .cv⟩]
  | _ => [⟨64, 32, .x 0⟩]

/-- The W3 words (R60). -/
def slotsW3 (op : Nat) : List Slot :=
  slotsSub op ++ [⟨18, 8, .a⟩, ⟨10, 8, .d⟩] ++ slotsU op ++
    [⟨62, 1, .sat⟩, ⟨59, 3, .rm⟩, ⟨56, 3, .tr⟩, ⟨52, 4, .la⟩, ⟨51, 1, .pn⟩, ⟨48, 3, .pg⟩, ⟨40, 8, .c⟩, ⟨32, 8, .b⟩] ++
    slotsX op

/-- The layout of an opcode in a form. -/
def slots (op : Nat) (f : Form) : List Slot :=
  match f with
  | .w1 => slotsW1 op
  | .w3 => slotsW3 op
  | .w1l => (if op == 0x54 then [] else (slotsW1 op).flatMap literalSlot) ++ [⟨32, 64, .lit⟩]
  | .w3l => (if role op == .addr then slotsW3 op else (slotsW3 op).flatMap literalSlot) ++ [⟨96, 64, .lit⟩]

/-- Words of a form (R53). -/
def Form.words : Form → Nat
  | .w1 => 1 | .w3 => 3 | .w1l => 3 | .w3l => 5

/-- LEN of a form (R53). -/
def Form.len : Form → Nat
  | .w1 => 0 | .w3 => 1 | .w1l => 2 | .w3l => 3

def formOf (len : Nat) : Form :=
  match len with
  | 0 => .w1 | 1 => .w3 | 2 => .w1l | _ => .w3l

/-- The fields of the words `w`. A form without a guard has the guard p7 or k7 (R59); BRA's and CALL's K has its own place. -/
def unpack (op : Nat) (f : Form) (w : Nat) : Raw :=
  (slots op f).foldl (fun r sl => r.set sl (fld w sl.lo sl.len))
    { form := f, bnd := fld w 2 1 == 1, pg := if f.isW3 then 0 else 7 }

/-- The words that hold the fields. -/
def pack (op : Nat) (r : Raw) : Nat :=
  (slots op r.form).foldl (fun n sl => n + r.get sl.fd % 2 ^ sl.len * 2 ^ sl.lo)
    (r.form.len + 4 * bit r.bnd + 8 * op)

/-- SUB bits that an opcode's entry defines (R69 step 4), beyond CV, K and U. -/
def subMask (op : Nat) : Nat :=
  match op with
  | 0x01 | 0x02 | 0x03 | 0x04 | 0x05 | 0x06 | 0x07 => 1
  | 0x17 => 7
  | 0x18 => 15
  | 0x1D => 7
  | 0x1E => 31
  | 0x2E => 31
  | 0x2F => 1
  | 0x3D => 1
  | 0x40 | 0x41 | 0x42 => 3
  | 0x43 | 0x44 | 0x45 | 0x46 => 2
  | 0x47 => 6
  | 0x48 => 2
  | 0x49 => 15
  | 0x4D => 31
  | 0x4E => 3
  | 0x50 | 0x51 => 15
  | 0x5A => 7
  | 0x5C => 3
  | 0x5D => 3
  | 0x5F => 3
  | 0x60 => 1
  | 0x62 | 0x63 => 63
  | 0x65 => 31
  | 0x67 => 15
  | 0x68 => 7
  | 0x69 => 3
  | 0x6E => 7
  | 0x72 => 3
  | 0x75 => 1
  | 0x76 => 3
  | 0x79 => 3
  | 0x7C => 1
  | 0x7D => 7
  | _ => 0

def Raw.hdr (r : Raw) : Hdr := { form := r.form, bnd := r.bnd, pn := r.pn == 1, pg := r.pg }

/-- The second source: a register, or the literal, 64 bits wide where W = 1 is legal and set (R64). -/
def Raw.src (r : Raw) (wideOk : Bool) : Src :=
  if r.form.isLit then (if wideOk && r.w == 1 then .wide (BitVec.ofNat 64 r.lit) else .imm (BitVec.ofNat 32 r.lit))
  else if r.u == 1 then .s r.b else .v r.b

/-- The second source in the uniform space (R145). -/
def Raw.srcU (r : Raw) : Src := if r.form.isLit then .imm (BitVec.ofNat 32 r.lit) else .s r.b

/-- b's fields: code, U, W and literal. -/
def Raw.putSrc (r : Raw) (b : Src) : Raw :=
  match b with
  | .v n => { r with b := n }
  | .s n => { r with b := n, u := 1 }
  | .imm x => { r with lit := x.toNat }
  | .wide x => { r with lit := x.toNat, w := 1 }

def Raw.putSrcU (r : Raw) (b : Src) : Raw :=
  match b with
  | .v n | .s n => { r with b := n }
  | .imm x => { r with lit := x.toNat }
  | .wide x => { r with lit := x.toNat }

def Hdr.raw (h : Hdr) : Raw := { form := h.form, bnd := h.bnd, pn := bit h.pn, pg := h.pg }

def Raw.alu (r : Raw) (wideOk three : Bool) : Alu :=
  { h := r.hdr, z := r.sub % 2 == 1, sat := r.sat == 1, rm := r.rm, tr := r.tr, la := r.la, d := r.d, a := r.a,
    b := r.src wideOk, c := if three then (if r.form.isW3 then r.c else r.d) else 0 }

def Alu.raw (o : Alu) : Raw :=
  { o.h.raw with sub := bit o.z, sat := bit o.sat, rm := o.rm, tr := o.tr, la := o.la, d := o.d, a := o.a, c := o.c }.putSrc o.b

/-- The forms with an immediate: X, or the literal in its place (R125). -/
def Raw.aluImm (r : Raw) : Alu :=
  { h := r.hdr, z := false, sat := r.sat == 1, rm := r.rm, tr := r.tr, la := r.la, d := r.d, a := r.a,
    b := .imm (BitVec.ofNat 32 (if r.form.isLit then r.lit else r.x)), c := 0 }

def Alu.rawImm (o : Alu) : Raw :=
  let v := match o.b with | .imm x => x.toNat | _ => 0
  { o.h.raw with sat := bit o.sat, rm := o.rm, tr := o.tr, la := o.la, d := o.d, a := o.a,
                 x := if o.h.form.isLit then 0 else v, lit := if o.h.form.isLit then v else 0 }

def Raw.un (r : Raw) : Un := { h := r.hdr, rm := r.rm, tr := r.tr, la := r.la, d := r.d, a := r.a }

def Un.raw (o : Un) : Raw := { o.h.raw with rm := o.rm, tr := o.tr, la := o.la, d := o.d, a := o.a }

def Raw.lea (r : Raw) : LeaOp :=
  { h := r.hdr, tr := r.tr, sc := r.sub, d := r.d, a := r.a, b := r.b,
    disp := if r.form == .w3l then BitVec.ofNat 64 r.lit else (BitVec.ofNat 32 r.x).signExtend 64 }

def LeaOp.raw (o : LeaOp) : Raw :=
  { o.h.raw with sub := o.sc, tr := o.tr, d := o.d, a := o.a, b := o.b, u := bit o.h.form.isW3,
                 x := if o.h.form == .w3 then o.disp.toNat % 2 ^ 32 else 0,
                 lit := if o.h.form == .w3l then o.disp.toNat else 0 }

def Raw.cmp (r : Raw) : CmpOp :=
  { h := r.hdr, cond := r.sub % 16, dbl := r.sub / 16 % 2 == 1, d := r.d, a := r.a, b := r.src false }

def CmpOp.raw (o : CmpOp) : Raw := { o.h.raw with sub := o.cond + 16 * bit o.dbl, d := o.d, a := o.a }.putSrc o.b

def Raw.selOp (r : Raw) : SelOp := { h := r.hdr, tr := r.tr, d := r.d, a := r.a, b := r.src false, p := r.c }

def SelOp.raw (o : SelOp) : Raw := { o.h.raw with tr := o.tr, d := o.d, a := o.a, c := o.p }.putSrc o.b

def Raw.movsOp (r : Raw) : MovsOp := { h := r.hdr, tr := r.tr, d := r.d, b := r.b }

def MovsOp.raw (o : MovsOp) : Raw := { o.h.raw with tr := o.tr, d := o.d, b := o.b, u := 1 }

def Raw.movlOp (r : Raw) : MovlOp :=
  { h := r.hdr, tr := r.tr, wide := r.w == 1, d := r.d,
    lit := if r.w == 1 then BitVec.ofNat 64 r.lit else (BitVec.ofNat 32 r.lit).setWidth 64 }

def MovlOp.raw (o : MovlOp) : Raw := { o.h.raw with tr := o.tr, w := bit o.wide, d := o.d, lit := o.lit.toNat }

def Raw.shflOp (r : Raw) : ShflOp :=
  { h := r.hdr, tr := r.tr, mode := r.sub % 4, d := r.d, a := r.a,
    amt := if r.sub / 4 % 2 == 1 then (if r.u == 1 then .s r.b else .v r.b) else .imm (BitVec.ofNat 32 (r.x % 32)) }

def ShflOp.raw (o : ShflOp) : Raw :=
  let r : Raw := { o.h.raw with tr := o.tr, sub := o.mode, d := o.d, a := o.a }
  match o.amt with
  | .imm x => { r with x := x.toNat }
  | .v n => { r with b := n, sub := o.mode + 4 }
  | .s n => { r with b := n, u := 1, sub := o.mode + 4 }
  | .wide _ => r

def Raw.scanOp (r : Raw) : ScanOp :=
  { h := r.hdr, rm := r.rm, tr := r.tr, op := r.sub % 16, excl := r.sub / 16 % 2 == 1, d := r.d, a := r.a }

def ScanOp.raw (o : ScanOp) : Raw :=
  { o.h.raw with rm := o.rm, tr := o.tr, sub := o.op + 16 * bit o.excl, d := o.d, a := o.a }

def Raw.sreadOp (r : Raw) : SreadOp := { h := r.hdr, u := r.x / 256 % 2 == 1, sel := r.x % 256, d := r.d }

def SreadOp.raw (o : SreadOp) : Raw := { o.h.raw with x := o.sel + 256 * bit o.u, d := o.d }

def Raw.fclassOp (r : Raw) : FclassOp := { h := r.hdr, dbl := r.sub % 2 == 1, mask := r.x % 1024, d := r.d, a := r.a }

def FclassOp.raw (o : FclassOp) : Raw := { o.h.raw with sub := bit o.dbl, x := o.mask, d := o.d, a := o.a }

def Raw.cvtOp (r : Raw) : CvtOp :=
  { h := r.hdr, sat := r.sat == 1, rm := r.rm, tr := r.tr, la := r.la, d := r.d, a := r.a, c := r.c,
    sb := r.x / 2 ^ 14 % 4, de := r.x / 2 ^ 11 % 8, se := r.x / 2 ^ 8 % 8, df := r.x / 16 % 16, sf := r.x % 16 }

def CvtOp.raw (o : CvtOp) : Raw :=
  { o.h.raw with sat := bit o.sat, rm := o.rm, tr := o.tr, la := o.la, d := o.d, a := o.a, c := o.c,
                 x := o.sf + 16 * o.df + 2 ^ 8 * o.se + 2 ^ 11 * o.de + 2 ^ 14 * o.sb }

def Raw.dotOp (r : Raw) : DotOp :=
  { h := r.hdr, rm := r.rm, tr := r.tr, la := r.la, d := r.d, a := r.a, b := r.src false, c := r.c,
    fb := r.x / 2 ^ 22 % 4, fa := r.x / 2 ^ 20 % 4, bsb := r.x / 2 ^ 18 % 4, bsa := r.x / 2 ^ 16 % 4,
    srb := r.x / 2 ^ 8 % 256, sra := r.x % 256 }

def DotOp.raw (o : DotOp) : Raw :=
  { o.h.raw with rm := o.rm, tr := o.tr, la := o.la, d := o.d, a := o.a, c := o.c,
                 x := o.sra + 2 ^ 8 * o.srb + 2 ^ 16 * o.bsa + 2 ^ 18 * o.bsb + 2 ^ 20 * o.fa + 2 ^ 22 * o.fb }.putSrc o.b

def Raw.wupdOp (r : Raw) : WupdOp :=
  { h := r.hdr, tr := r.tr, la := r.la, d := r.d, a := r.a, g := r.x % 8, negv := r.x / 16 % 8, zden := r.x / 256 % 8 }

def WupdOp.raw (o : WupdOp) : Raw :=
  { o.h.raw with tr := o.tr, la := o.la, d := o.d, a := o.a, x := o.g + 16 * o.negv + 256 * o.zden }

def Raw.randOp (r : Raw) : RandOp := { h := r.hdr, tr := r.tr, f := r.sub % 2 == 1, d := r.d }

def RandOp.raw (o : RandOp) : Raw := { o.h.raw with tr := o.tr, sub := bit o.f, d := o.d }

def Raw.salu (r : Raw) : SAlu :=
  { h := r.hdr, cv := r.cv == 1, z := r.sub % 2 == 1, b64 := r.sub / 2 % 2 == 1, ar := r.sub / 4 % 2 == 1,
    sat := r.sat == 1, tr := r.tr, d := r.d, a := r.a, b := r.srcU }

def SAlu.raw (o : SAlu) : Raw :=
  { o.h.raw with cv := bit o.cv, sub := bit o.z + 2 * bit o.b64 + 4 * bit o.ar, sat := bit o.sat, tr := o.tr,
                 d := o.d, a := o.a }.putSrcU o.b

def Raw.smovOp (r : Raw) : SmovOp :=
  { h := r.hdr, cv := r.cv == 1, tr := r.tr, d := r.d, a := r.a,
    wide := if r.form.isLit then r.w == 1 else r.sub / 2 % 2 == 1,
    x := if r.form.isLit then (if r.w == 1 then BitVec.ofNat 64 r.lit else (BitVec.ofNat 32 r.lit).setWidth 64)
         else (BitVec.ofNat 32 r.x).signExtend 64 }

def SmovOp.raw (o : SmovOp) : Raw :=
  { o.h.raw with cv := bit o.cv, tr := o.tr, d := o.d, a := o.a,
                 w := if o.h.form.isLit then bit o.wide else 0,
                 sub := if o.h.form.isLit then 0 else 2 * bit o.wide,
                 x := if o.h.form.isLit then 0 else o.x.toNat % 2 ^ 32,
                 lit := if o.h.form.isLit then o.x.toNat else 0 }

def Raw.scmpOp (r : Raw) : ScmpOp :=
  { h := r.hdr, cv := r.cv == 1, cond := r.sub % 16, d := r.d, a := r.a, b := r.srcU }

def ScmpOp.raw (o : ScmpOp) : Raw := { o.h.raw with cv := bit o.cv, sub := o.cond, d := o.d, a := o.a }.putSrcU o.b

def Raw.sselOp (r : Raw) : SselOp :=
  { h := r.hdr, cv := r.cv == 1, tr := r.tr, d := r.d, a := r.a, b := r.srcU, k := r.c }

def SselOp.raw (o : SselOp) : Raw :=
  { o.h.raw with cv := bit o.cv, tr := o.tr, d := o.d, a := o.a, c := o.k }.putSrcU o.b

/-- The access fields of X (R148, R179): the defaults of a one-word access in W1 (R58). -/
def Raw.memOp (r : Raw) (pd : Bool) : MemOp :=
  if r.form.isW3 then
    { h := r.hdr, cv := r.cv == 1, la := r.la, pd := pd && r.sub % 2 == 1, d := r.d, a := r.a, b := r.b,
      disp := BitVec.ofNat 16 (r.x / 2 ^ 15), rmt := r.x / 2 ^ 14 % 2 == 1, sx := r.x / 2 ^ 13 % 2 == 1,
      scope := r.x / 2 ^ 10 % 8, ord := r.x / 2 ^ 7 % 8, sync := r.x / 2 ^ 6 % 2 == 1, sc := r.x / 8 % 8, size := r.x % 8 }
  else
    { h := r.hdr, cv := r.cv == 1, la := r.la, pd := false, d := r.d, a := r.a, b := r.b, disp := 0, rmt := false,
      sx := false, scope := 0, ord := 0, sync := false, sc := 0, size := 2 }

def MemOp.x (o : MemOp) : Nat :=
  o.size + 8 * o.sc + 2 ^ 6 * bit o.sync + 2 ^ 7 * o.ord + 2 ^ 10 * o.scope + 2 ^ 13 * bit o.sx + 2 ^ 14 * bit o.rmt +
    2 ^ 15 * o.disp.toNat

def MemOp.raw (o : MemOp) (u : Nat) : Raw :=
  { o.h.raw with cv := bit o.cv, la := o.la, sub := bit o.pd, d := o.d, a := o.a, b := o.b, u := u,
                 x := if o.h.form.isW3 then o.x else 0 }

def Raw.atomOp (r : Raw) (red cas : Bool) : AtomOp :=
  { h := r.hdr, op := if cas then 0 else r.sub, la := r.la, d := if red then 0 else r.d, a := r.a, b := r.b, c := r.c,
    disp := BitVec.ofNat 16 (r.x / 2 ^ 15), rmt := r.x / 2 ^ 14 % 2 == 1, scope := r.x / 2 ^ 10 % 8,
    ord := r.x / 2 ^ 7 % 8, sync := r.x / 2 ^ 6 % 2 == 1, sc := r.x / 8 % 8, size := r.x % 8 }

def AtomOp.raw (o : AtomOp) : Raw :=
  { o.h.raw with la := o.la, sub := o.op, d := o.d, a := o.a, b := o.b, c := o.c, u := 1,
                 x := o.size + 8 * o.sc + 2 ^ 6 * bit o.sync + 2 ^ 7 * o.ord + 2 ^ 10 * o.scope + 2 ^ 14 * bit o.rmt +
                   2 ^ 15 * o.disp.toNat }

def Raw.vtosOp (r : Raw) : VtosOp :=
  { h := r.hdr, cv := r.cv == 1, rm := r.rm, tr := r.tr, ty := r.sub / 8 % 4, mode := r.sub % 8, kf := r.c, d := r.d, a := r.a }

def VtosOp.raw (o : VtosOp) : Raw :=
  { o.h.raw with cv := bit o.cv, rm := o.rm, tr := o.tr, sub := o.mode + 8 * o.ty, c := o.kf, d := o.d, a := o.a }

def Raw.voteOp (r : Raw) : VoteOp := { h := r.hdr, cv := r.cv == 1, mode := r.sub % 4, d := r.d, p := r.a }

def VoteOp.raw (o : VoteOp) : Raw := { o.h.raw with cv := bit o.cv, sub := o.mode, d := o.d, a := o.p }

def Raw.ballotOp (r : Raw) : BallotOp := { h := r.hdr, cv := r.cv == 1, tr := r.tr, d := r.d, p := r.a }

def BallotOp.raw (o : BallotOp) : Raw := { o.h.raw with cv := bit o.cv, tr := o.tr, d := o.d, a := o.p }

def Raw.lopOp (r : Raw) (uni : Bool) : LopOp :=
  { h := r.hdr, cv := uni && r.cv == 1, fn := r.sub % 16, d := r.d, a := r.a, b := r.b }

def LopOp.raw (o : LopOp) : Raw := { o.h.raw with cv := bit o.cv, sub := o.fn, d := o.d, a := o.a, b := o.b }

/-- BRA, SBRA, CALL: K is a field of the W1 word and of BRA's SUB; the W3 forms of SBRA and CALL take k guards (R65, R156). -/
def Raw.braOp (r : Raw) (kFixed : Bool) : BraOp :=
  { h := r.hdr, cv := r.cv == 1, k := r.k == 1 || (kFixed && r.form.isW3), off := BitVec.ofNat 32 r.x }

def BraOp.raw (o : BraOp) : Raw := { o.h.raw with cv := bit o.cv, k := bit o.k, x := o.off.toNat }

def Raw.jmpOp (r : Raw) : JmpOp :=
  { h := r.hdr, target := if r.form == .w1l then .wide (BitVec.ofNat 64 r.lit) else if r.u == 1 then .s r.a else .v r.a }

def JmpOp.raw (o : JmpOp) : Raw :=
  match o.target with
  | .v n => { o.h.raw with a := n }
  | .s n => { o.h.raw with a := n, u := 1 }
  | .wide x => { o.h.raw with lit := x.toNat }
  | .imm _ => o.h.raw

def Raw.noOp (r : Raw) : NoOp := { h := r.hdr, cv := r.cv == 1 }

def NoOp.raw (o : NoOp) (sub : Nat) : Raw := { o.h.raw with cv := bit o.cv, sub := sub }

def Raw.guardOp (r : Raw) : GuardOp := { h := r.hdr, p := r.sub / 4 % 2 == 1, off := BitVec.ofNat 32 r.x }

def GuardOp.raw (o : GuardOp) : Raw := { o.h.raw with sub := 4 * bit o.p, x := o.off.toNat }

def Raw.trapOp (r : Raw) : TrapOp := { h := r.hdr, code := r.x % 2 ^ 16 }

def TrapOp.raw (o : TrapOp) : Raw := { o.h.raw with x := o.code }

def Raw.chkOp (r : Raw) : ChkOp :=
  { h := r.hdr, cv := r.cv == 1, clr := r.sub / 2 % 2 == 1, t := r.sub % 2 == 1, k := r.d, mask := r.x % 16 }

def ChkOp.raw (o : ChkOp) : Raw :=
  { o.h.raw with cv := bit o.cv, sub := bit o.t + 2 * bit o.clr, d := o.k, x := o.mask }

/-- TAG.SET reads b; TAG.GET and TAG.MINT leave the field to be zero (R177). -/
def Raw.tagOp (r : Raw) (set : Bool) : TagOp :=
  { h := r.hdr, d := r.d, a := r.a, b := if set then (if r.u == 1 then .s r.b else .v r.b) else .v 0 }

def TagOp.raw (o : TagOp) (sub : Nat) : Raw := { o.h.raw with sub := sub, d := o.d, a := o.a }.putSrc o.b

def Raw.fenceOp (r : Raw) : FenceOp := { h := r.hdr, scope := r.sub % 8, ord := r.sub / 8 % 4 }

def FenceOp.raw (o : FenceOp) : Raw := { o.h.raw with sub := o.scope + 8 * o.ord }

def Raw.disp (r : Raw) : BitVec 16 := if r.form.isW3 then BitVec.ofNat 16 (r.x / 2 ^ 15) else 0

def Raw.bariOp (r : Raw) : BariOp := { h := r.hdr, cv := r.cv == 1, a := r.a, b := r.b, disp := r.disp }

def BariOp.raw (o : BariOp) : Raw :=
  { o.h.raw with cv := bit o.cv, a := o.a, b := o.b, x := 2 ^ 15 * o.disp.toNat }

def Raw.barvOp (r : Raw) : BarvOp :=
  { h := r.hdr, cv := r.cv == 1, scope := r.sub % 8, tx := r.sub / 8 % 2 == 1, d := r.d, a := r.a, b := r.b, c := r.c,
    disp := r.disp, icount := r.x % 2 ^ 15 }

def BarvOp.raw (o : BarvOp) : Raw :=
  { o.h.raw with cv := bit o.cv, sub := o.scope + 8 * bit o.tx, d := o.d, a := o.a, b := o.b, c := o.c,
                 x := o.icount + 2 ^ 15 * o.disp.toNat }

def Raw.barwOp (r : Raw) : BarwOp :=
  { h := r.hdr, cv := r.cv == 1, scope := r.sub % 8, d := r.d, a := r.a, b := r.b, c := r.c, disp := r.disp }

def BarwOp.raw (o : BarwOp) : Raw :=
  { o.h.raw with cv := bit o.cv, sub := o.scope, d := o.d, a := o.a, b := o.b, c := o.c, x := 2 ^ 15 * o.disp.toNat }

def Raw.cpyOp (r : Raw) : CpyOp :=
  { h := r.hdr, cv := r.cv == 1, d := r.d, a := r.a, b := r.b, c := r.c, scope := r.x / 2 ^ 12 % 8, stream := r.x % 2 ^ 12 }

def CpyOp.raw (o : CpyOp) (mode : Nat) : Raw :=
  { o.h.raw with cv := bit o.cv, sub := mode, d := o.d, a := o.a, b := o.b, c := o.c, x := o.stream + 2 ^ 12 * o.scope }

def Raw.sealOp (r : Raw) (dst : Bool) : SealOp := { h := r.hdr, cv := r.cv == 1, r := if dst then r.d else r.a }

def SealOp.raw (o : SealOp) (dst : Bool) : Raw :=
  { o.h.raw with cv := bit o.cv, d := if dst then o.r else 0, a := if dst then 0 else o.r }

def Raw.mailOp (r : Raw) : MailOp := { h := r.hdr, cv := r.cv == 1, scope := r.sub % 8, a := r.a, b := r.b }

def MailOp.raw (o : MailOp) : Raw := { o.h.raw with cv := bit o.cv, sub := o.scope, a := o.a, b := o.b }

def Raw.emitOp (r : Raw) : EmitOp := { h := r.hdr, a := r.a, b := r.b }

def EmitOp.raw (o : EmitOp) : Raw := { o.h.raw with a := o.a, b := o.b, u := 1 }

/-- `c`: the entry names C. -/
def Raw.mmaOp (r : Raw) (c : Bool) : MmaOp :=
  { h := r.hdr, cv := r.cv == 1, d := r.d, t2 := r.sub % 4, a := r.a, b := r.b, c := if c then r.c else 0,
    crew := r.x / 2 ^ 22 % 2 == 1, syn := r.x / 2 ^ 20 % 4, kb := r.x / 2 ^ 10 % 2 ^ 10, nb := r.x / 16 % 64, mb := r.x % 16 }

def MmaOp.raw (o : MmaOp) : Raw :=
  { o.h.raw with cv := bit o.cv, sub := o.t2, d := o.d, a := o.a, b := o.b, c := o.c,
                 x := o.mb + 16 * o.nb + 2 ^ 10 * o.kb + 2 ^ 20 * o.syn + 2 ^ 22 * bit o.crew }

def Raw.acczOp (r : Raw) : AcczOp :=
  { h := r.hdr, cv := r.cv == 1, side := r.x / 2 ^ 30 % 2 == 1, t := r.d, mb := r.x % 16, nb := r.x / 16 % 64 }

def AcczOp.raw (o : AcczOp) : Raw :=
  { o.h.raw with cv := bit o.cv, d := o.t, x := o.mb + 16 * o.nb + 2 ^ 30 * bit o.side }

def Raw.accldOp (r : Raw) : AccldOp := { h := r.hdr, cv := r.cv == 1, d := r.d, a := r.a, nb := r.x / 16 % 64, mb := r.x % 16 }

def AccldOp.raw (o : AccldOp) : Raw := { o.h.raw with cv := bit o.cv, d := o.d, a := o.a, x := o.mb + 16 * o.nb }

def Raw.accstOp (r : Raw) : AccstOp :=
  { h := r.hdr, cv := r.cv == 1, q := r.sub % 2 == 1, sat := r.sat == 1, rm := r.rm, d := r.d, a := r.a,
    nb := r.x / 16 % 64, mb := r.x % 16 }

def AccstOp.raw (o : AccstOp) : Raw :=
  { o.h.raw with cv := bit o.cv, sub := bit o.q, sat := bit o.sat, rm := o.rm, d := o.d, a := o.a, x := o.mb + 16 * o.nb }

def Raw.accrdOp (r : Raw) : AccrdOp :=
  { h := r.hdr, la := r.la, sel := r.sub % 4, d := r.d, a := r.a, b := r.b, nb := r.x / 16 % 64 }

def AccrdOp.raw (o : AccrdOp) : Raw :=
  { o.h.raw with la := o.la, sub := o.sel, d := o.d, a := o.a, b := o.b, u := 1, x := 16 * o.nb }

def Raw.smxOp (r : Raw) : SmxOp :=
  { h := r.hdr, cv := r.cv == 1, d := r.d, a := r.a, db := r.x / 2 ^ 10 % 64, nb := r.x / 16 % 64, mb := r.x % 16 }

def SmxOp.raw (o : SmxOp) : Raw :=
  { o.h.raw with cv := bit o.cv, d := o.d, a := o.a, x := o.mb + 16 * o.nb + 2 ^ 10 * o.db }

def Raw.msyncOp (r : Raw) : MsyncOp := { h := r.hdr, cv := r.cv == 1, t := r.d, n := r.x % 32 }

def MsyncOp.raw (o : MsyncOp) (mode : Nat) : Raw := { o.h.raw with cv := bit o.cv, sub := mode, d := o.t, x := o.n }

def Raw.wslOp (r : Raw) : WslOp :=
  { h := r.hdr, cv := r.cv == 1, key := r.x / 16 % 16, dst := r.x % 4, d := r.d, b := r.b, c := r.c }

def WslOp.raw (o : WslOp) : Raw :=
  { o.h.raw with cv := bit o.cv, d := o.d, b := o.b, c := o.c, x := o.dst + 16 * o.key }

def Raw.launchOp (r : Raw) : LaunchOp :=
  { h := r.hdr, cv := r.cv == 1, d := r.d, b := r.b, lit := if r.form.isLit then BitVec.ofNat 64 r.lit else 0 }

def LaunchOp.raw (o : LaunchOp) : Raw := { o.h.raw with cv := bit o.cv, d := o.d, b := o.b, lit := o.lit.toNat }

def Raw.getcOp (r : Raw) : GetcOp := { h := r.hdr, cv := r.cv == 1, la := r.la, n := r.a, d := r.d }

def GetcOp.raw (o : GetcOp) : Raw := { o.h.raw with cv := bit o.cv, la := o.la, a := o.n, d := o.d }

def Raw.setcOp (r : Raw) : SetcOp := { h := r.hdr, cv := r.cv == 1, n := r.a, m := r.sub % 2 == 1, b := r.b, c := r.c }

def SetcOp.raw (o : SetcOp) : Raw := { o.h.raw with cv := bit o.cv, sub := bit o.m, a := o.n, b := o.b, c := o.c }

/-- `x`: how many values the function's X field has; other bits must be zero. -/
def Raw.sysOp (r : Raw) (x : Nat) : SysOp := { h := r.hdr, d := r.d, a := r.a, b := r.b, c := r.c, x := r.x % x }

def SysOp.raw (o : SysOp) (sub : Nat) : Raw := { o.h.raw with sub := sub, d := o.d, a := o.a, b := o.b, c := o.c, x := o.x }

/-- The constructors by opcode and sub-operation; none where the sub-operation code is not defined (R69 step 4). -/
def buildLow (op : Nat) (r : Raw) : Option Instr :=
  match op with
  | 0x00 => some (.nop r.bnd)
  | 0x01 => some (.iadd (r.alu false false))
  | 0x02 => some (.isub (r.alu false false))
  | 0x03 => some (.imul (r.alu false false))
  | 0x04 => some (.imulh (r.alu false false))
  | 0x05 => some (.imad (r.alu false true))
  | 0x06 => some (.imin (r.alu false false))
  | 0x07 => some (.imax (r.alu false false))
  | 0x08 => some (.and (r.alu false false))
  | 0x09 => some (.or (r.alu false false))
  | 0x0A => some (.xor (r.alu false false))
  | 0x0B => some (.andn (r.alu false false))
  | 0x0C => some (.shl (r.alu false false))
  | 0x0D => some (.shr (r.alu false false))
  | 0x0E => some (.sar (r.alu false false))
  | 0x0F => some (.rot (r.alu false false))
  | 0x10 => some (.popc r.un)
  | 0x11 => some (.clz r.un)
  | 0x12 => some (.brev r.un)
  | 0x13 => some (.iaddi r.aluImm)
  | 0x14 => some (.andi r.aluImm)
  | 0x15 => some (.shli r.aluImm)
  | 0x16 => some (.shri r.aluImm)
  | 0x17 => some (.lea r.lea)
  | 0x18 => if r.sub < 10 then some (.icmp r.cmp) else none
  | 0x19 => some (.sel r.selOp)
  | 0x1A => some (.mov r.un)
  | 0x1B => some (.movl r.movlOp)
  | 0x1C => some (.movs r.movsOp)
  | 0x1D => some (.shfl r.shflOp)
  | 0x1E => if r.sub % 16 < 11 then some (.scan r.scanOp) else none
  | 0x1F => some (.sread r.sreadOp)
  | 0x20 => some (.fadd (r.alu false false))
  | 0x21 => some (.fsub (r.alu false false))
  | 0x22 => some (.fmul (r.alu false false))
  | 0x23 => some (.ffma (r.alu false true))
  | 0x24 => some (.fmin (r.alu false false))
  | 0x25 => some (.fmax (r.alu false false))
  | 0x26 => some (.fdiv (r.alu false false))
  | 0x27 => some (.fsqrt r.un)
  | 0x28 => some (.frcp r.un)
  | 0x29 => some (.frsq r.un)
  | 0x2A => some (.fex2 r.un)
  | 0x2B => some (.flg2 r.un)
  | 0x2C => some (.fsin r.un)
  | 0x2D => some (.fcos r.un)
  | 0x2E => if r.sub % 16 < 8 then some (.fcmp r.cmp) else none
  | 0x2F => some (.fclass r.fclassOp)
  | 0x30 => some (.dadd (r.alu true false))
  | 0x31 => some (.dmul (r.alu true false))
  | 0x32 => some (.dfma (r.alu true true))
  | 0x33 => some (.hadd2 (r.alu false false))
  | 0x34 => some (.hmul2 (r.alu false false))
  | 0x35 => some (.hfma2 (r.alu false true))
  | 0x36 => some (.badd2 (r.alu false false))
  | 0x37 => some (.bmul2 (r.alu false false))
  | 0x38 => some (.bfma2 (r.alu false true))
  | 0x39 => some (.cvt r.cvtOp)
  | 0x3A => some (.dot4 r.dotOp)
  | 0x3B => some (.dot8 r.dotOp)
  | 0x3C => some (.wupd r.wupdOp)
  | 0x3D => some (.rand r.randOp)
  | 0x3E => some (.fscl (r.alu false false))
  | 0x3F => some (.frnd r.un)
  | _ => none

/-- As `buildLow`, for 0x40 to 0x7D. SETC, CPY, MSYNC, TRET, GUARD, TAG and SYS have a constructor for each sub-function. -/
def buildHigh (op : Nat) (r : Raw) : Option Instr :=
  match op with
  | 0x40 => some (.sadd r.salu)
  | 0x41 => some (.ssub r.salu)
  | 0x42 => some (.smul r.salu)
  | 0x43 => some (.sand r.salu)
  | 0x44 => some (.sor r.salu)
  | 0x45 => some (.sxor r.salu)
  | 0x46 => some (.sshl r.salu)
  | 0x47 => some (.sshr r.salu)
  | 0x48 => some (.smov r.smovOp)
  | 0x49 => some (.scmp r.scmpOp)
  | 0x4A => some (.ssel r.sselOp)
  | 0x4B => some (.sld (r.memOp false))
  | 0x4C => some (.sst (r.memOp false))
  | 0x4D => if r.sub / 8 % 4 < 3 then some (.vtos r.vtosOp) else none
  | 0x4E => if r.sub % 4 < 3 then some (.vote r.voteOp) else none
  | 0x4F => some (.ballot r.ballotOp)
  | 0x50 => some (.plop (r.lopOp false))
  | 0x51 => some (.klop (r.lopOp true))
  | 0x52 => some (.bra (r.braOp false))
  | 0x53 => some (.sbra (r.braOp true))
  | 0x54 => some (.jmp r.jmpOp)
  | 0x55 => some (.call (r.braOp true))
  | 0x56 => some (.callr r.jmpOp)
  | 0x57 => some (.ret r.noOp)
  | 0x58 => some (.exit r.noOp)
  | 0x59 => some (.rgn r.noOp)
  | 0x5A =>
    match r.sub % 4 with
    | 0 => some (.guardOpen r.guardOp)
    | 1 => some (.guardClose r.noOp)
    | _ => none
  | 0x5B => some (.trap r.trapOp)
  | 0x5C =>
    match r.sub % 4 with
    | 0 => some (.tretRestart r.noOp)
    | 1 => some (.tretNext r.noOp)
    | 2 => some (.tretKill r.noOp)
    | _ => none
  | 0x5D => some (.chkerr r.chkOp)
  | 0x5E => some (.drain r.noOp)
  | 0x5F =>
    match r.sub % 4 with
    | 0 => some (.tagGet (r.tagOp false))
    | 1 => some (.tagSet (r.tagOp true))
    | 2 => some (.tagMint (r.tagOp false))
    | _ => none
  | 0x60 => some (.ld (r.memOp true))
  | 0x61 => some (.st (r.memOp false))
  | 0x62 => if r.sub < 12 then some (.atom (r.atomOp false false)) else none
  | 0x63 => if r.sub < 12 then some (.red (r.atomOp true false)) else none
  | 0x64 => some (.cas (r.atomOp false true))
  | 0x65 => some (.fence r.fenceOp)
  | 0x66 => some (.bari r.bariOp)
  | 0x67 => some (.barv r.barvOp)
  | 0x68 => some (.barw r.barwOp)
  | 0x69 =>
    match r.sub % 4 with
    | 0 => some (.cpyMemory r.cpyOp)
    | 1 => some (.cpyFromPort r.cpyOp)
    | 2 => some (.cpyToPort r.cpyOp)
    | _ => none
  | 0x6A => some (.cseal (r.sealOp true))
  | 0x6B => some (.cwait (r.sealOp false))
  | 0x6C => some (.tokw r.noOp)
  | 0x6D => some (.tokp r.noOp)
  | 0x6E => some (.mail r.mailOp)
  | 0x6F => some (.emit r.emitOp)
  | 0x70 => some (.mma (r.mmaOp false))
  | 0x71 => some (.mmas (r.mmaOp true))
  | 0x72 => some (.mmd (r.mmaOp true))
  | 0x73 => some (.accz r.acczOp)
  | 0x74 => some (.accld r.accldOp)
  | 0x75 => some (.accst r.accstOp)
  | 0x76 => if r.sub % 4 < 3 then some (.accrd r.accrdOp) else none
  | 0x77 => some (.smx r.smxOp)
  | 0x78 => some (.wsl r.wslOp)
  | 0x79 =>
    match r.sub % 4 with
    | 0 => some (.msyncAll r.msyncOp)
    | 1 => some (.msyncProg r.msyncOp)
    | 2 => some (.msyncWs r.msyncOp)
    | _ => none
  | 0x7A => some (.launch r.launchOp)
  | 0x7B => some (.getc r.getcOp)
  | 0x7C =>
    match r.a with
    | 0x04 => some (.setcCrew r.setcOp)
    | 0x0A => some (.setcQmap r.setcOp)
    | 0x0E => some (.setcStfq r.setcOp)
    | _ => some (.setc r.setcOp)
  | 0x7D =>
    match r.sub % 8 with
    | 0 => if r.x % 2 == 1 then some (.sysReplayTok (r.sysOp 2)) else some (.sysReplay (r.sysOp 2))
    | 1 => some (.sysTlbinv (r.sysOp 8))
    | 2 => some (.sysDiagst (r.sysOp 4))
    | 3 => some (.sysDiagld (r.sysOp 4))
    | 4 => some (.sysScrub (r.sysOp 16))
    | 5 => some (.sysWorld (r.sysOp 1))
    | 6 => some (.sysHalt (r.sysOp 1))
    | _ => none
  | _ => none

def build (op : Nat) (r : Raw) : Option Instr := if op < 0x40 then buildLow op r else buildHigh op r

/-- An instruction's opcode and fields; events have none. -/
def toRaw : Instr → Option (Nat × Raw)
  | .nop b => some (0x00, { form := .w1, bnd := b, pg := 7 })
  | .iadd o => some (0x01, o.raw) | .isub o => some (0x02, o.raw) | .imul o => some (0x03, o.raw)
  | .imulh o => some (0x04, o.raw) | .imad o => some (0x05, o.raw) | .imin o => some (0x06, o.raw)
  | .imax o => some (0x07, o.raw) | .and o => some (0x08, o.raw) | .or o => some (0x09, o.raw)
  | .xor o => some (0x0A, o.raw) | .andn o => some (0x0B, o.raw) | .shl o => some (0x0C, o.raw)
  | .shr o => some (0x0D, o.raw) | .sar o => some (0x0E, o.raw) | .rot o => some (0x0F, o.raw)
  | .popc o => some (0x10, o.raw) | .clz o => some (0x11, o.raw) | .brev o => some (0x12, o.raw)
  | .iaddi o => some (0x13, o.rawImm) | .andi o => some (0x14, o.rawImm) | .shli o => some (0x15, o.rawImm)
  | .shri o => some (0x16, o.rawImm) | .lea o => some (0x17, o.raw) | .icmp o => some (0x18, o.raw)
  | .sel o => some (0x19, o.raw) | .mov o => some (0x1A, o.raw) | .movl o => some (0x1B, o.raw)
  | .movs o => some (0x1C, o.raw) | .shfl o => some (0x1D, o.raw) | .scan o => some (0x1E, o.raw)
  | .sread o => some (0x1F, o.raw) | .fadd o => some (0x20, o.raw) | .fsub o => some (0x21, o.raw)
  | .fmul o => some (0x22, o.raw) | .ffma o => some (0x23, o.raw) | .fmin o => some (0x24, o.raw)
  | .fmax o => some (0x25, o.raw) | .fdiv o => some (0x26, o.raw) | .fsqrt o => some (0x27, o.raw)
  | .frcp o => some (0x28, o.raw) | .frsq o => some (0x29, o.raw) | .fex2 o => some (0x2A, o.raw)
  | .flg2 o => some (0x2B, o.raw) | .fsin o => some (0x2C, o.raw) | .fcos o => some (0x2D, o.raw)
  | .fcmp o => some (0x2E, o.raw) | .fclass o => some (0x2F, o.raw) | .dadd o => some (0x30, o.raw)
  | .dmul o => some (0x31, o.raw) | .dfma o => some (0x32, o.raw) | .hadd2 o => some (0x33, o.raw)
  | .hmul2 o => some (0x34, o.raw) | .hfma2 o => some (0x35, o.raw) | .badd2 o => some (0x36, o.raw)
  | .bmul2 o => some (0x37, o.raw) | .bfma2 o => some (0x38, o.raw) | .cvt o => some (0x39, o.raw)
  | .dot4 o => some (0x3A, o.raw) | .dot8 o => some (0x3B, o.raw) | .wupd o => some (0x3C, o.raw)
  | .rand o => some (0x3D, o.raw) | .fscl o => some (0x3E, o.raw) | .frnd o => some (0x3F, o.raw)
  | .sadd o => some (0x40, o.raw) | .ssub o => some (0x41, o.raw) | .smul o => some (0x42, o.raw)
  | .sand o => some (0x43, o.raw) | .sor o => some (0x44, o.raw) | .sxor o => some (0x45, o.raw)
  | .sshl o => some (0x46, o.raw) | .sshr o => some (0x47, o.raw) | .smov o => some (0x48, o.raw)
  | .scmp o => some (0x49, o.raw) | .ssel o => some (0x4A, o.raw) | .sld o => some (0x4B, o.raw 0)
  | .sst o => some (0x4C, o.raw 0) | .vtos o => some (0x4D, o.raw) | .vote o => some (0x4E, o.raw)
  | .ballot o => some (0x4F, o.raw) | .plop o => some (0x50, o.raw) | .klop o => some (0x51, o.raw)
  | .bra o => some (0x52, o.raw) | .sbra o => some (0x53, o.raw) | .jmp o => some (0x54, o.raw)
  | .call o => some (0x55, o.raw) | .callr o => some (0x56, o.raw) | .ret o => some (0x57, o.raw 0)
  | .exit o => some (0x58, o.raw 0) | .rgn o => some (0x59, o.raw 0) | .guardOpen o => some (0x5A, o.raw)
  | .guardClose o => some (0x5A, o.raw 1) | .trap o => some (0x5B, o.raw) | .tretRestart o => some (0x5C, o.raw 0)
  | .tretNext o => some (0x5C, o.raw 1) | .tretKill o => some (0x5C, o.raw 2) | .chkerr o => some (0x5D, o.raw)
  | .drain o => some (0x5E, o.raw 0) | .tagGet o => some (0x5F, o.raw 0) | .tagSet o => some (0x5F, o.raw 1)
  | .tagMint o => some (0x5F, o.raw 2)
  | .ld o => some (0x60, o.raw (bit o.h.form.isW3)) | .st o => some (0x61, o.raw (bit o.h.form.isW3))
  | .atom o => some (0x62, o.raw) | .red o => some (0x63, o.raw) | .cas o => some (0x64, o.raw)
  | .fence o => some (0x65, o.raw) | .bari o => some (0x66, o.raw) | .barv o => some (0x67, o.raw)
  | .barw o => some (0x68, o.raw) | .cpyMemory o => some (0x69, o.raw 0) | .cpyFromPort o => some (0x69, o.raw 1)
  | .cpyToPort o => some (0x69, o.raw 2) | .cseal o => some (0x6A, o.raw true) | .cwait o => some (0x6B, o.raw false)
  | .tokw o => some (0x6C, o.raw 0) | .tokp o => some (0x6D, o.raw 0) | .mail o => some (0x6E, o.raw)
  | .emit o => some (0x6F, o.raw) | .mma o => some (0x70, o.raw) | .mmas o => some (0x71, o.raw)
  | .mmd o => some (0x72, o.raw) | .accz o => some (0x73, o.raw) | .accld o => some (0x74, o.raw)
  | .accst o => some (0x75, o.raw) | .accrd o => some (0x76, o.raw) | .smx o => some (0x77, o.raw)
  | .wsl o => some (0x78, o.raw) | .msyncAll o => some (0x79, o.raw 0) | .msyncProg o => some (0x79, o.raw 1)
  | .msyncWs o => some (0x79, o.raw 2) | .launch o => some (0x7A, o.raw) | .getc o => some (0x7B, o.raw)
  | .setc o => some (0x7C, o.raw) | .setcCrew o => some (0x7C, o.raw) | .setcQmap o => some (0x7C, o.raw)
  | .setcStfq o => some (0x7C, o.raw) | .sysReplay o => some (0x7D, o.raw 0) | .sysReplayTok o => some (0x7D, o.raw 0)
  | .sysTlbinv o => some (0x7D, o.raw 1) | .sysDiagst o => some (0x7D, o.raw 2) | .sysDiagld o => some (0x7D, o.raw 3)
  | .sysScrub o => some (0x7D, o.raw 4) | .sysWorld o => some (0x7D, o.raw 5) | .sysHalt o => some (0x7D, o.raw 6)
  | _ => none

/-- The words of an instruction as one number; 0 for an event. -/
def encode (i : Instr) : Nat :=
  match toRaw i with
  | some (op, r) => pack op r
  | none => 0

/-- The form of an instruction; events have none. -/
def Instr.form? (i : Instr) : Option Form := (toRaw i).map (·.2.form)

/-- Why words are not an instruction (R69). -/
inductive Reject
  | illOpcode (sub : Nat)
  | illField (pos : Nat)
  | priv (sub : Nat)
  deriving DecidableEq, Repr

/-- The lowest bit of `p` in a field that must be zero as a whole is the position of that field (R70).
DEDUCED: log entry 9, unsafe. -/
def fieldBase (groups : List (Nat × Nat)) (p : Nat) : Nat :=
  match groups with
  | [] => p
  | (lo, len) :: gs => if lo ≤ p && p < lo + len then lo else fieldBase gs p

/-- The named fields of a form that an entry may leave unused: those of the W3 words (R60); in W1 words B and A of B3 (R68),
OFF17, or X, of GUARD.C (R171), B of TAG.GET and TAG.MINT (R177).
DEDUCED: log entry 9, unsafe. -/
def namedFields (op : Nat) (f : Form) : List (Nat × Nat) :=
  if f.isW3 then
    [(18, 8), (10, 8), (59, 3), (56, 3), (52, 4), (48, 3), (40, 8)] ++ (if f.isLit && role op != .addr then [] else [(32, 8)]) ++
      (if op == 0x5A then [(64, 32)] else [])
  else if slotsW1 op == slotsB3one then [(24, 7)]
  else
    match op with
    | 0x1C => [(17, 7)]
    | 0x5A => [(15, 17)]
    | 0x5F => [(24, 6)]
    | _ => []

/-- The position of the lowest bit in which two numbers differ. -/
def lowDiff (x y : Nat) : Option Nat :=
  let z := Nat.xor x y
  if z == 0 then none else some (Nat.log2 (z - Nat.land z (z - 1)))

/-- The words differ from those of the instruction they decode to: some unused bit is not zero.
DEDUCED: log entry 9, unsafe. -/
def reservedFault (op : Nat) (f : Form) (w canon : Nat) : List Nat :=
  match lowDiff w canon with
  | none => []
  | some p => [fieldBase (namedFields op f) p]

/-- The smallest of a non-empty list of positions. -/
def lowestPos : List Nat → Option Nat
  | [] => none
  | p :: ps => match lowestPos ps with | none => some p | some q => some (min p q)

/-- Step 5 of R69 for the instruction `i` read from the words `w`. -/
def fieldCheck (sys : Bool) (op : Nat) (f : Form) (w : Nat) (i : Instr) : Except Reject Instr :=
  let bad := reservedFault op f w (encode i) ++ i.faults ++ (if sys then i.sysFaults else [])
  match lowestPos bad with
  | some p => .error (.illField p)
  | none =>
    match i.ctlNumber with
    | some (n, _) => if !sys && 0x40 ≤ n && n ≤ 0x4F then .error (.priv 1) else .ok i
    | none => .ok i

/-- SUB bits outside the entry's sub-operations, where the form has SUB (R69 step 4). -/
def subUndefined (op : Nat) (f : Form) (r : Raw) : Bool := f.isW3 && Nat.land r.sub (63 - subMask op) != 0

/-- The instruction at the start of `w`, whose further bits are ignored (R69). `sys`: the strand is in system mode. -/
def decode (sys : Bool) (w : Nat) : Except Reject Instr :=
  let f := formOf (fld w 0 2)
  let op := fld w 3 7
  let v := w % 2 ^ (32 * f.words)
  if 0x7E ≤ op then .error (.illOpcode 0)
  else if op == 0x7D && !sys then .error (.priv 0)
  else if !formOk op f then .error (.illOpcode 2)
  else
    let r := unpack op f v
    if subUndefined op f r then .error (.illOpcode 1)
    else
      match build op r with
      | none => .error (.illOpcode 1)
      | some i => fieldCheck sys op f v i

/-- The number that little-endian bytes at ascending addresses form (R7, R53). -/
def ofBytes : List Byte → Nat
  | [] => 0
  | b :: bs => b.toNat + 256 * ofBytes bs

/-- The `n` little-endian bytes of a number. -/
def toBytes : Nat → Nat → List Byte
  | 0, _ => []
  | n + 1, x => BitVec.ofNat 8 x :: toBytes n (x / 256)

/-- Words of the instruction that begins with word0 (R53). -/
def wordsOf (w0 : Nat) : Nat := (formOf (fld w0 0 2)).words

/-- What the decoder reads from an opcode-table word, in system mode, where every row has a meaning: the instruction's 20
bytes are laid out as the hardware stores them, with zeros above `nbits`, and decoded. -/
def decodeTableWord (nbits w : Nat) : Option Instr :=
  match decode true (ofBytes (toBytes 20 (w % 2 ^ nbits))) with
  | .ok i => some i
  | .error _ => none

end Sys2Proof
end

