-- ==== Sys2Proof/Machine/State.lean ====
section
/-!
DEFINITION. The machine's state as plain data, its faults and refusals, and the state after reset.

A table keyed by numbers is a list of pairs in ascending order of key that lists no entry equal to the table's default
(`Sparse`). Every byte the machine can hold has one place in `State.mem`: a physical location, one number for LPDDR,
device register space, host memory, scratchpad and stationary windows (Machine/Mem.lean gives the ranges).
-/

namespace Sys2Proof.Machine

/-- A table from numbers, ascending, without entries equal to its default. -/
abbrev Sparse (β : Type) := List (Nat × β)

/-- The check state of a protected word: valid, marked poisoned (R345), or check bits written raw by SYS.DIAGST (R357). -/
inductive Chk
  | ok | poison | raw (bits : Nat)
  deriving DecidableEq, Repr, Inhabited

/-- A register word: value, origin tag, check state (R22, R344). -/
structure TWord where
  val : Word := 0
  tag : Tag := 0
  chk : Chk := .ok
  deriving DecidableEq, Repr, Inhabited

/-- Why a thread does not issue. A thread that waits has not executed the instruction at its pc; it executes it again when
the wait is over, but for `barw`, whose wait two events complete (R196). -/
inductive Wait
  | ready
  /-- a convergence point (R29) -/
  | converge
  /-- a long-latency result (R66), or the results of the closing region (R67) -/
  | lookahead
  /-- room or an entry in a queue (R32) -/
  | queue
  /-- earlier stores performed and checked (R160, R169, R175, R185, R202) -/
  | stores
  /-- pages by 4 KiB virtual page number; a load's fragment re-enters its region, others restart (R165, R192) -/
  | pages (ps : List Nat) (reenter : Bool)
  /-- a free wait-table entry (R290) -/
  | tableFull
  /-- BARW: object's location, phase, die cycle of issue, bound, k code, and the pc after it (R196) -/
  | barw (loc phase start bound k : Nat) (next : BitVec 62)
  /-- the bobbin (R202, R203) -/
  | bobbin
  /-- one of the core's 64 copies (R199) -/
  | copySlot
  /-- copies of sealed batches (R201) -/
  | batch
  /-- a mailbox slot of the context (R204) -/
  | slot (n : Nat)
  /-- the dispatcher's intake or queues (R205, R238) -/
  | dispatcher
  /-- an entry of the WSU queue (R230) -/
  | wsuQueue
  /-- a range in flight on the core (R182, R183, R215) -/
  | scoreboard
  /-- the matrix engine (R214, R228, R333) -/
  | engine
  /-- the rendezvous latch of a crew (R220) -/
  | latch
  /-- a pending stationary unit (R234) -/
  | unit
  /-- a host-held line's back-invalidation (R379) -/
  | snoop
  /-- a peer's response, or acknowledgements (R328, R383) -/
  | peer
  /-- the launches of a context that SYS.WORLD moves (R369) -/
  | quiet (ctx : Nat)
  deriving DecidableEq, Repr, Inhabited

/-- A long-latency result outstanding (R66): the window's instructions left (none: open until the return), and the
registers it writes as (space, code) with space 0 v, 1 p, 2 s, 3 k, 4 q. -/
structure Outst where
  id : Nat
  left : Option Nat
  regs : List (Nat × Nat)
  deriving DecidableEq, Repr, Inhabited

/-- One thread (R22, R26 to R28, R161, R333). -/
structure Thread where
  lane : Nat := 0
  live : Bool := false
  ended : Bool := false
  exited : Bool := false
  bound : BitVec 32 := 0
  pc : BitVec 62 := 0
  region : Nat := 0
  v : Sparse TWord := []
  p : BitVec 8 := 0x80
  stack : List (BitVec 62) := []
  spilled : Nat := 0
  wait : Wait := .ready
  inTrap : Bool := false
  paused : Bool := false
  intr : Option Nat := none
  outs : List Outst := []
  since : Nat := 0
  deriving DecidableEq, Repr, Inhabited

/-- Control registers 0x00 to 0x11 (R34 to R49); TOKS is shown from the launch (R46). -/
structure Ctl where
  fctl : BitVec 64 := 1
  tctl : BitVec 64 := 0
  rctl : BitVec 64 := 0x10800
  chki : BitVec 64 := 0
  crew : BitVec 64 := 0
  genk : BitVec 64 := 0
  genc : BitVec 64 := 0
  tvec : BitVec 64 := 0
  tfp : BitVec 64 := 0
  gspan : BitVec 64 := 0
  qmap : BitVec 64 := 0
  batch : BitVec 64 := 0
  stfq : BitVec 64 := 0
  btbase : BitVec 64 := 0
  btnext : BitVec 64 := 0
  deriving DecidableEq, Repr, Inhabited

/-- An open region (R161): its start, the control registers as it began (R36), and whether it is the own region of a
boundary instruction that has not yet taken effect (R162). -/
structure Region where
  id : Nat
  start : BitVec 62
  ctl : Ctl
  own : Bool := false
  mismatch : Bool := false
  deriving DecidableEq, Repr, Inhabited

/-- One lane's part of a buffered store: thread, region, lane, virtual address, data tag, and the bytes it writes. -/
structure StLane where
  thread : Nat
  region : Nat
  lane : Nat
  addr : Nat
  tag : Tag
  bytes : List Byte
  closed : Bool := false
  deriving DecidableEq, Repr, Inhabited

/-- What a buffered entry is: ST, SST, or a birth record with its index (R110). -/
inductive StKind
  | st | sst | birth (n : Nat) (uniform : Bool)
  deriving DecidableEq, Repr, Inhabited

/-- A closed store's state: to be checked, parked under pages (R168), waiting for the bobbin (R203). -/
inductive StPhase
  | pending | parked (ps : List Nat) | bobbin
  deriving DecidableEq, Repr, Inhabited

/-- An entry of the region store buffer or, once all its lanes are closed, of the commit queue (R164, R167); `sc` marks an sc
store (R186). -/
structure BufStore where
  seq : Nat
  kind : StKind
  pc : BitVec 62
  site : Tag
  size : Nat
  rstart : BitVec 62
  lanes : List StLane
  phase : StPhase := .pending
  own : Nat := 0
  sc : Bool := false
  deriving DecidableEq, Repr, Inhabited

/-- A store permission fault not yet reported (R167): the threads whose boundary reports it (0: any), the region that a
reporting boundary must not be in, and what the frame shows. -/
structure StFault where
  threads : BitVec 32
  own : Nat
  lanes : BitVec 32
  va : Nat
  seq : Nat
  sub : Nat := 0
  deriving DecidableEq, Repr, Inhabited

/-- A store sent to a peer and not yet acknowledged (R383): its number, and the fault and record of a refusal (R279, R167). -/
structure PeerStore where
  seq : Nat
  fault : StFault
  record : List Byte
  deriving DecidableEq, Repr, Inhabited

/-- A deferred engine fault: cause, sub-cause, address, WS expected and computed values, first sector tag (R200, R223, R235),
a copy's batch, whether a release reports it too (R237), its place in issue order, and a matrix operation's words (R336). -/
structure EngFault where
  cause : Nat
  sub : Nat
  addr : Nat
  expected : Nat := 0
  computed : Nat := 0
  tag : Tag := 0
  batch : Nat := 0
  rel : Bool := false
  seq : Nat := 0
  words : List Nat := []
  deriving DecidableEq, Repr, Inhabited

/-- A guarded span (R171). -/
structure Span where
  handler : BitVec 62
  p : Bool
  depths : List Nat
  deriving DecidableEq, Repr, Inhabited

/-- What the device keeps of the trap a strand is in (R174, R175): the trapping fragment, the cause recorded, RESTART as
written, whether RESTART is the region start, the number from which on regions and stores are the handler's, and the tags
of s62 and s63. -/
structure TrapState where
  frag : BitVec 32
  cause : Nat
  restart : BitVec 64
  regional : Bool
  since : Nat
  tag62 : Tag
  tag63 : Tag
  deriving DecidableEq, Repr, Inhabited

/-- A request to a peer whose response has not come (R328): sequence number, thread, destination code, words, and how the
value is used: SX, access bytes, predicate or uniform destination, the peer's rank, whether an atomic sent it, TCTL.EN, pc and word0
of the instruction; `unsent` gives type, address and OPS of one that waits until fewer than 16 are outstanding (R333). -/
structure PeerWait where
  seq : Nat
  thread : Nat
  code : Nat
  words : Nat
  sx : Bool
  size : Nat
  pred : Bool
  rank : Nat
  uniform : Bool
  atomic : Bool
  en : Bool := false
  pc : BitVec 62 := 0
  word0 : Nat := 0
  unsent : Option (Nat × Nat × BitVec 256) := none
  deriving DecidableEq, Repr, Inhabited

/-- One accumulator element: FP32 pattern, the tag of its block, poison of its pair (R33, R119, R344). -/
structure AccEl where
  val : Word := 0
  tag : Tag := 0
  poison : Bool := false
  deriving DecidableEq, Repr, Inhabited

/-- The matrix-class operations (R209 to R227). -/
inductive MKind
  | mma | mmas | mmd | accz | accld | accst | smx
  deriving DecidableEq, Repr, Inhabited

/-- The state of an operation (R222, R336); one that a fault has stopped leaves its fault behind (R223). -/
inductive MPhase
  | run | parked (ps : List Nat)
  deriving DecidableEq, Repr, Inhabited

/-- A matrix-class operation in flight (R221, R336). `m`, `n`, `k` are its own extents (`k` the width of O in SMX), `rows` and
`cols` those of the whole crew, `rowOff` and `colOff` its place in them; `group` is shared by the members of a crew. `stage`
counts the tiles of MMD, `prog` the row-blocks done in the pass, `due` the records to be performed before the next counts.
`part` to `qbuf` hold an SRC 2 operand's row-block in progress (R211). -/
structure MOp where
  id : Nat := 0
  kind : MKind
  words : List Nat := []
  pc : BitVec 62 := 0
  site : Tag := 0
  en : Bool := false
  mint : Bool := false
  t1 : Nat := 0
  t2 : Nat := 0
  m : Nat := 0
  n : Nat := 0
  k : Nat := 0
  rows : Nat := 0
  cols : Nat := 0
  rowOff : Nat := 0
  colOff : Nat := 0
  syn : Nat := 0
  descs : List (List Word) := []
  bitmap : Nat := 0
  crew : List Nat := []
  group : Nat := 0
  rm : Nat := 0
  sat : Bool := false
  f8sat : Bool := false
  q : Bool := false
  side : Bool := false
  limit : Nat := 8
  phase : MPhase := .run
  stage : Nat := 0
  pass : Nat := 0
  prog : Nat := 0
  due : List Nat := []
  fails : Nat := 0
  poison : Bool := false
  qpos : Nat := 0
  part : List (List Word) := []
  partRow : Nat := 0
  partGroup : Nat := 0
  partTags : List Tag := []
  partPois : List Bool := []
  qbuf : List TWord := []
  deriving DecidableEq, Repr, Inhabited

/-- A crew member held at the rendezvous latch (R220): its operation, CREW, the number from which on a member's trap counts,
and the verdict once there is one: the operation has taken effect (none), or the crew is broken. -/
structure Latch where
  op : MOp
  crew : BitVec 64
  since : Nat
  verdict : Option (Option Nat) := none
  deriving DecidableEq, Repr, Inhabited

/-- Bytes asked of a peer for an engine operation, a launch record or a fetch: sequence number, the operation (0: none),
rank, address, length, and the bytes once they have come; or the peer has refused them (R279). -/
structure PeerBuf where
  seq : Nat
  owner : Nat
  rank : Nat
  pa : Nat
  n : Nat
  data : Option (List Byte) := none
  refused : Bool := false
  deriving DecidableEq, Repr, Inhabited

/-- The state of a copy (R199, R200, R336): at work, parked under pages, waiting for a mailbox slot (R302). -/
inductive CpPhase
  | run | parked (ps : List Nat) | slot (ctx n : Nat)
  deriving DecidableEq, Repr, Inhabited

/-- A copy in flight (R198, R199, R336). -/
structure Copy where
  id : Nat
  strand : Nat
  mode : Nat
  dst : Nat
  src : Nat
  len : Nat
  done : Nat
  bar : Nat
  batch : Nat
  scope : Nat
  stream : Nat
  seq : Nat
  en : Bool
  phase : CpPhase := .run
  deriving DecidableEq, Repr, Inhabited

/-- Where a strand is in its life (R160, R175, R326). -/
inductive Phase
  | resident | saved | ended | terminated
  deriving DecidableEq, Repr, Inhabited

/-- One strand (R22 to R52, R164, R171, R174). `copyUnacked` holds peer writes of copies: number, batch, destination (R383).
`q` holds eight queues, oldest entry first, of one word per lane; `held` keeps a strand from issuing while it is saved or
restored (R326, R337); `copies` are those of a saved one. -/
structure Strand where
  launch : Nat := 0
  skein : Nat := 0
  idx : Nat := 0
  sid : Nat := 0
  core : Nat := 0
  part : Nat := 0
  slot : Nat := 0
  sys : Bool := false
  prot : Bool := false
  onSec : Bool := false
  cont : Bool := false
  regs : Nat := 8
  accn : Nat := 0
  phase : Phase := .resident
  held : Bool := false
  cause : Nat := 0
  threads : List Thread := []
  s : Sparse TWord := []
  k : BitVec 8 := 0x80
  q : List (List (List TWord)) := [[], [], [], [], [], [], [], []]
  acc : Sparse AccEl := []
  rowmax : Sparse Word := []
  rowsum : Sparse Word := []
  rprog : List Nat := [0, 0, 0, 0]
  ctl : Ctl := {}
  arrivals : Nat := 0
  regions : List Region := []
  buf : List BufStore := []
  cq : List BufStore := []
  reserved : List Nat := []
  redraw : List Nat := []
  stFaults : List StFault := []
  cpFaults : List EngFault := []
  mtFaults : List EngFault := []
  wsFaults : List EngFault := []
  spans : List Span := []
  trap : Option TrapState := none
  mops : List MOp := []
  latch : Option Latch := none
  peerBuf : List PeerBuf := []
  poisonDue : Bool := false
  emits : Nat := 0
  launches : Nat := 0
  sealed : Nat := 0
  peers : List PeerWait := []
  unacked : List PeerStore := []
  copyUnacked : List (Nat × Nat × Nat) := []
  copies : List Copy := []
  deriving DecidableEq, Repr, Inhabited

/-- A TLB entry or a last-page register (R287): context, virtual page at its size, the leaf as filled. -/
structure TlbEntry where
  ctx : Nat
  page : Nat
  shift : Nat
  leaf : BitVec 64
  deriving DecidableEq, Repr, Inhabited

/-- A wait-table entry in use (R290): index, context, page, generation, write and fetch need, message sent, and the pages'
waiters that are not threads: parked stores, copies, operations, commands and records refer to the page themselves. -/
structure WaitEnt where
  idx : Nat
  ctx : Nat
  page : Nat
  gen : Nat
  w : Bool
  x : Bool
  sent : Bool
  deriving DecidableEq, Repr, Inhabited

/-- A command of the weight stream unit (R229, R336): `q` the queue of a DST 2 command (R269), `redo` one repeated at a
restore (R236). -/
structure WslCmd where
  strand : Nat
  sid : Nat
  skein : Nat
  ctx : Nat
  blk : Nat
  scale : Option Nat
  off : Nat
  dst : Nat
  key : Nat
  q : Nat := 0
  pushed : Nat := 0
  en : Bool
  seq : Nat
  redo : Bool := false
  deriving DecidableEq, Repr, Inhabited

/-- A command in the WSU queue: waiting or working, parked under pages, or pushing entries to port 0x1 (R230, R234). -/
inductive WsPhase
  | run | parked (ps : List Nat) | pushing (entries : List (List Byte)) (tag : Tag)
  deriving DecidableEq, Repr, Inhabited

/-- What a unit of a stationary window keeps besides its bytes (R234 to R236). -/
structure UnitInfo where
  tag : Tag := 0
  pending : Nat := 0
  err : Option EngFault := none
  cmd : Option WslCmd := none
  deriving DecidableEq, Repr, Inhabited

/-- One core: translation, wait table, copies, weight stream unit, scrubs, sleep and repair state. `score` is the range
scoreboard: number of the copy or operation, context, first byte, byte after the last (R199, R215).
DESIGN CHOICE: log entry 3, unsafe. -/
structure Core where
  tlb : List TlbEntry := []
  last : Sparse TlbEntry := []
  waits : List WaitEnt := []
  gens : Sparse Nat := []
  copies : List Copy := []
  score : List (Nat × Nat × Nat × Nat) := []
  wsu : List (WslCmd × WsPhase) := []
  scrub : List (Nat × Nat) := []
  pend : List (Nat × Nat) := []
  asleep : Bool := false
  retiredBanks : List Nat := []
  retiredParts : List Nat := []
  marked : List RowName := []
  probes : Nat := 0
  served : Sparse Nat := []
  deriving DecidableEq, Repr, Inhabited

/-- A skein: its place in the launch, on the chip and in the save area, and its stationary window's units. While saved it keeps
its queued WSL commands and which 8-byte units of its slice are poisoned. A skein over before its hank was saved is
`terminated` (R326). -/
structure Skein where
  launch : Nat
  index : Nat
  hank : Nat
  rank : Nat
  core : Nat
  base : Nat
  scratch : Nat
  block : Nat
  window : Nat
  phase : Phase
  units : Sparse UnitInfo := []
  wsl : List WslCmd := []
  poisoned : List Nat := []
  deriving DecidableEq, Repr, Inhabited

/-- A launch message's fields (R303). -/
structure Msg where
  code : Nat := 0
  params : Nat := 0
  btbase : Nat := 0
  gridx : Nat := 0
  gridy : Nat := 0
  nstrand : Nat := 0
  regs : Nat := 0
  hankx : Nat := 0
  hanky : Nat := 0
  scratch : Nat := 0
  acc : Nat := 0
  pbytes : Nat := 0
  btpart : Nat := 0
  mode : Nat := 0
  tagdef : Nat := 0
  skewpri : Nat := 0
  cmbx : Nat := 0
  wait0 : Nat := 0
  wait1 : Nat := 0
  gang : Nat := 0
  grank : Nat := 0
  bytes : List Byte := []
  deriving DecidableEq, Repr, Inhabited

/-- A continuation record (R205, R315): parent's identifier, call index, lane, the parent's generation, entry, words and
tags, the die cycle of its arrival. -/
structure EmitRec where
  launch : Nat
  sid : Nat
  call : Nat
  lane : Nat
  gen : Nat
  entry : Nat
  words : List (Word × Tag)
  arrived : Nat
  deriving DecidableEq, Repr, Inhabited

/-- A launch's phase (R304 to R307). -/
inductive LPhase
  | waiting | queued | done
  deriving DecidableEq, Repr, Inhabited

/-- A launch taken by the dispatcher (R303 to R317). `slot` is the mailbox whose slot it holds; `unplaced` the hanks still
to place, in curve order; `conts` formed continuation strands still to place, as (index, entry, records). -/
structure Launch where
  num : Nat
  ctx : Nat
  msg : Msg
  sys : Bool := false
  sec : Bool := false
  parent : Option Nat := none
  order : Nat × Nat := (0, 0)
  slot : Option Nat := none
  phase : LPhase := .waiting
  status : Nat := 0
  offset : Nat := 0
  unplaced : List Nat := []
  held : List Nat := []
  placedAt : List (Nat × Nat) := []
  retired : List Nat := []
  dies : List Nat := []
  btnext : Nat := 0
  holder : Nat := 0
  cause : Nat := 0
  chki : Nat := 0
  btfull : Bool := false
  lost : Bool := false
  nterm : Nat := 0
  firstSid : Nat := 0xFFFFFFFF
  records : List EmitRec := []
  conts : List (Nat × Nat × List EmitRec) := []
  contCount : Nat := 0
  gens : List (Nat × Nat) := []
  gen : Nat := 0
  deriving DecidableEq, Repr, Inhabited

/-- A pre-emption in progress (R325, R330): dies with the cycle of their request's arrival, the hanks taken as (launch, hank),
whether the control page reports it, and whether a gang switch asked for it. -/
structure PreReq where
  dies : List (Nat × Nat)
  hanks : List (Nat × Nat)
  control : Bool
  gang : Bool
  deriving DecidableEq, Repr, Inhabited

/-- A context (R50, R279, R300, R331, R361, R380). -/
structure Context where
  world : Nat := 0
  ptroot : Nat := 0
  mbx : Nat := 0
  deadline : Nat := 0
  area : Nat := 0
  peers : Sparse (BitVec 32) := []
  pages : List Nat := []
  control : Nat := 0
  numA : Nat := 0
  numB : Nat := 0
  busy : List (Nat × List Byte) := []
  writers : List (Nat × Option Nat × List Byte) := []
  blocks : List Nat := []
  pre : Option PreReq := none
  hold : Bool := false
  mbxHeld : Bool := false
  deriving DecidableEq, Repr, Inhabited

/-- A die (R6, R308, R315, R354, R387).
DESIGN CHOICE: log entry 3, unsafe. -/
structure Die where
  cycle : Nat := 0
  queue : List Nat := []
  intake : List EmitRec := []
  window : Nat := 0
  throttled : Bool := false
  contexts : List Nat := []
  deriving DecidableEq, Repr, Inhabited

/-- An entry of a partition's carding table (R318). -/
structure Card where
  pc : BitVec 62
  skein : Nat
  members : List (Nat × BitVec 32)
  running : Bool := false
  deriving DecidableEq, Repr, Inhabited

/-- A partition's carding table, entries in the order of their allocation, and its spill list (R318). -/
structure Carding where
  entries : List Card := []
  spill : List (Nat × BitVec 32) := []
  deriving DecidableEq, Repr, Inhabited

/-- The run that the model is stepping (R57): partition, the sliver's fragments, which of them executes next, and how many
instructions the run has issued. -/
structure Run where
  part : Nat
  frags : List (Nat × BitVec 32)
  j : Nat := 0
  n : Nat := 0
  stop : Bool := false
  deriving DecidableEq, Repr, Inhabited

/-- A line of the package health log (R355, R375, R387). -/
inductive LogLine
  | repair (r : RowName) (cycle : Nat)
  | bankMarked (r : RowName) (cycle : Nat)
  | pageRetired (page cycle : Nat)
  | denied (world pa : Nat)
  | poisonRead (pa : Nat)
  | shutdown (die cycle : Nat)
  | testFailed (u : UnitName)
  deriving DecidableEq, Repr, Inhabited

/-- The connection state of an SPDM transport (R373).
PRESUMED: log entry 14, unsafe. -/
inductive Spdm
  | start | version | capabilities | algorithms | session | keyExchanged
  deriving DecidableEq, Repr, Inhabited

/-- What the responder answered last on a transport (R373): nothing yet, a response of the request's kind with its
payload, or an ERROR.
PRESUMED: log entry 14, unsafe. -/
inductive SpdmReply
  | none | ok (code : Nat) (payload : List Byte) | unexpectedRequest | unsupportedRequest
  deriving DecidableEq, Repr, Inhabited

/-- The security core (R360 to R377, R384, R385).
DESIGN CHOICE: log entry 3, unsafe. -/
structure Sec where
  pot : Sparse (BitVec 16) := []
  potDefault : BitVec 16 := 0
  meas : List (BitVec 256) := List.replicate 16 0
  keys : Sparse (Option (BitVec 256)) := []
  allow : Sparse (BitVec 64) := []
  denied : Sparse Nat := []
  spdm : List (Spdm × SpdmReply) := [(.start, .none), (.start, .none)]
  log : List LogLine := []
  flash : List (BitVec 256) := [0, 0]
  active : Nat := 0
  verified : Bool := false
  tdi : Sparse TdiState := []
  errors : Sparse (Nat × Nat) := []
  rows : List (RowName × Nat) := []
  lasting : List RowName := []
  spares : List (RowName × Nat) := []
  outUnits : List UnitName := []
  reduced : List UnitName := []
  sweepDefault : Nat := 0
  sweepArea : Nat := 0
  sweepSize : Nat := 0
  cycle : Nat := 0
  deriving DecidableEq, Repr, Inhabited

/-- A packet of TYPE 0 to 6 held in a router buffer, waiting for its turn in its flow, or recorded by a sweep (R340).
DEDUCED: log entry 30, safe. -/
structure HeldPacket where
  type : Nat
  pkt : Packet
  deriving DecidableEq, Repr, Inhabited

/-- A gang in a chip's gang table (R338 to R342): its state, the sweep's deadline, start and markers in, whether this chip's
markers have gone out, the records with their ORIGIN and the end of their bytes, what is quarantined, the saved flow table
(own rank, other rank, VC, direction, next SEQ), the coordinator's view, and the routes from ranks to chips.
DESIGN CHOICE: log entry 3, unsafe. DESIGN CHOICE: log entry 32, safe. -/
structure Gang where
  sweeping : Bool := false
  swept : Bool := false
  resumed : Bool := false
  deadline : Nat := 0
  start : Nat := 0
  markers : List (Nat × Nat) := []
  sent : Bool := false
  records : List (HeldPacket × Nat) := []
  top : Nat := 0
  late : Nat := 0
  lateHdrs : List (Nat × Nat) := []
  flows : List (Nat × Nat × Nat × Nat × Nat) := []
  coordinating : Bool := false
  done : List Nat := []
  resuming : Bool := false
  routes : List (Nat × Nat) := []
  deriving DecidableEq, Repr, Inhabited

/-- A packet that leaves the package, with its TYPE (R381). -/
structure OutPacket where
  type : Nat
  vc : Nat
  gang : Nat
  drank : Nat
  srank : Nat
  seq : Nat
  addr : Nat
  rtag : Nat
  ops : BitVec 256
  payload : List Byte
  deriving DecidableEq, Repr, Inhabited

/-- Control traffic the chip has sent (R338 to R341). -/
inductive Control
  | sweep (gang deadline : Nat) | done (gang : Nat) | failed (gang : Nat) | marker (gang port vc : Nat)
  | resume (gang : Nat) (map : List (Nat × Nat)) | resumed (gang : Nat) | run (gang : Nat) | reset (gang : Nat)
  deriving DecidableEq, Repr, Inhabited

/-- The fabric (R338 to R342, R381 to R383). `send` and `recv` give the next SEQ of a flow (gang, source rank, destination rank,
VC); `waiting` holds the BARWs of other packages with the die cycle of their arrival; `command` the gang whose switch the
command slot asks for.
DESIGN CHOICE: log entry 3, unsafe. -/
structure Fabric where
  portsOut : List Nat := []
  gangs : Sparse Gang := []
  send : List (Nat × Nat × Nat × Nat × Nat) := []
  recv : List (Nat × Nat × Nat × Nat × Nat) := []
  buffers : List HeldPacket := []
  waiting : List (HeldPacket × Nat) := []
  out : List OutPacket := []
  control : List Control := []
  command : Option Nat := none
  chips : List Nat := [0]
  deriving DecidableEq, Repr, Inhabited

/-- The host link (R375, R379, R384): lines the host may hold, back-invalidations sent, the last data returned.
DESIGN CHOICE: log entry 3, unsafe. -/
structure Link where
  lines : List Nat := []
  snoops : List Nat := []
  data : List Byte := []
  status : Nat := 0
  ready : Bool := false
  stopped : Bool := false
  deriving DecidableEq, Repr, Inhabited

/-- The machine. `agenda`, `cur`, `turn`, `fresh` and `uid` are the model's own: the events to happen next, the run being stepped, the partition that ran last,
the counter of free values, and the next number for a strand, skein, launch, region, store, copy or operation. -/
structure State where
  mem : List Host.Cell
  tags : Sparse Tag
  poison : List Nat
  raw : Sparse Nat
  strands : Sparse Strand
  skeins : Sparse Skein
  launches : Sparse Launch
  contexts : Sparse Context
  cores : Sparse Core
  carding : Sparse Carding
  dies : List Die
  sec : Sec
  fabric : Fabric
  link : Link
  agenda : List Instr
  cur : Option Run
  turn : Nat
  fresh : Nat
  uid : Nat
  deriving DecidableEq, Repr

/-- Why the machine stops. -/
inductive Fault
  /-- Raised by an instruction's meaning when no fragment is issuing; `step` never asks for that. Safe: the machine
  stops where the spec gives an instruction no fragment to act for. -/
  | noFragment
  deriving DecidableEq, Repr

/-- Why an instruction has no meaning. -/
inductive Refusal
  /-- Raised by `exec` for an instruction the model does not cover. Safe: nothing is claimed of it. -/
  | notModelled (mnemonic : String)
  deriving DecidableEq, Repr

/-- The package at power-on (R384, R22): nothing booted, no context, memory with nothing listed, every die at cycle 0.
DESIGN CHOICE: log entry 3, unsafe. -/
def State.reset : State :=
  { mem := [], tags := [], poison := [], raw := [], strands := [], skeins := [], launches := [], contexts := [],
    cores := [], carding := [], dies := List.replicate 8 {}, sec := {}, fabric := {}, link := {}, agenda := [],
    cur := none, turn := 0, fresh := 0, uid := 1 }

end Sys2Proof.Machine
end

