-- ==== Sys2Proof/Machine/Sparse.lean ====
section
/-!
DEFINITION. Tables keyed by numbers, in canonical form: ascending keys, no entry equal to the default.
-/

namespace Sys2Proof.Machine

/-- The entry of a key; `d` where none is listed. -/
def sget {β : Type} (d : β) (m : Sparse β) (k : Nat) : β := (m.lookup k).getD d

/-- The table with `v` at `k`; the default is not listed. -/
def sput {β : Type} [DecidableEq β] (d : β) (m : Sparse β) (k : Nat) (v : β) : Sparse β :=
  m.filter (fun c => c.1 < k) ++ (if v = d then [] else [(k, v)]) ++ m.filter (fun c => k < c.1)

/-- The entry of a key in a table without a default. -/
def sfind {β : Type} (m : Sparse β) (k : Nat) : Option β := m.lookup k

/-- The table with `v` at `k`, whatever `v` is. -/
def sset {β : Type} (m : Sparse β) (k : Nat) (v : β) : Sparse β :=
  m.filter (fun c => c.1 < k) ++ [(k, v)] ++ m.filter (fun c => k < c.1)

/-- The table without the key. -/
def sdel {β : Type} (m : Sparse β) (k : Nat) : Sparse β := m.filter (fun c => c.1 != k)

/-- The table with the entry of `k` changed by `f`, where it has one. -/
def smod {β : Type} (m : Sparse β) (k : Nat) (f : β → β) : Sparse β := m.map fun c => if c.1 = k then (k, f c.2) else c

/-- An element put before the first one that it is not to follow. -/
def insertBy {α : Type} (le : α → α → Bool) (a : α) : List α → List α
  | [] => [a]
  | b :: l => if le a b then a :: b :: l else b :: insertBy le a l

/-- A list in the order of `le`; equal elements keep their order. -/
def sortBy {α : Type} (le : α → α → Bool) (l : List α) : List α := l.foldr (insertBy le) []

/-- Ascending keys, none listed twice. -/
def ascending : List Nat → Bool
  | [] => true
  | [_] => true
  | a :: b :: l => decide (a < b) && ascending (b :: l)

/-- The canonical form of a table with default `d`. -/
def scanon {β : Type} [DecidableEq β] (d : β) (m : Sparse β) : Bool :=
  ascending (m.map (·.1)) && m.all (fun c => decide (c.2 ≠ d))

/-- The first number not below `n` and not listed, among the next `fuel`. -/
def firstFree (used : List Nat) : Nat → Nat → Option Nat
  | 0, _ => none
  | fuel + 1, n => if used.contains n then firstFree used fuel (n + 1) else some n

/-- The natural numbers a, a + 1, …, a + n − 1. -/
def upFrom (a n : Nat) : List Nat := (List.range n).map (a + ·)

end Sys2Proof.Machine
end

