-- ==== Sys2Proof/Machine/Mem.lean ====
section
/-!
DEFINITION. Physical storage: every byte the machine can hold, its sector tags (R113), poison (R345, R349) and raw check
bits (R357).

A location is one number: an LPDDR or device register address as R278 gives it, a host physical address above 2^52, byte o
of core c's scratchpad at 2^53 + c·2^20 + o, byte o of skein n's stationary window at 2^54 + n·2^19 + o. A byte that nothing
has written reads zero: LPDDR after the boot scrub (R384), a slice at its skein's start (R274).
-/

namespace Sys2Proof.Machine

/-- A memory: cells at ascending locations, none of them zero. -/
abbrev Memory := List Host.Cell

/-- The canonical form: equal memories are equal lists. -/
def Memory.wf (m : Memory) : Bool := scanon (0 : Byte) m

/-- The byte at a location.
DESIGN CHOICE: log entry 5, unsafe. -/
def Memory.byte (m : Memory) (loc : Nat) : Byte := sget 0 m loc

/-- `n` bytes from a location. -/
def Memory.read (m : Memory) (loc n : Nat) : List Byte :=
  let near := m.filter fun c => loc ≤ c.1 && c.1 < loc + n
  (List.range n).map fun i => sget 0 near (loc + i)

/-- Bytes with their locations, zeros left out. -/
def cellsOf (loc : Nat) : List Byte → Memory
  | [] => []
  | b :: bs => if b = 0 then cellsOf (loc + 1) bs else (loc, b) :: cellsOf (loc + 1) bs

/-- The memory with bytes written from a location upward. -/
def Memory.write (m : Memory) (loc : Nat) (bs : List Byte) : Memory :=
  m.filter (fun c => c.1 < loc) ++ cellsOf loc bs ++ m.filter (fun c => loc + bs.length ≤ c.1)

/-- DESIGN CHOICE: log entry 16, unsafe. -/
def devBase : Nat := 0x8_0000_0000_0000
/-- DESIGN CHOICE: log entry 5, unsafe. -/
def hostBase : Nat := 2 ^ 52
def scratchBase : Nat := 2 ^ 53
def windowBase : Nat := 2 ^ 54

/-- Byte `o` of a core's scratchpad. -/
def scratchLoc (core o : Nat) : Nat := scratchBase + core * 2 ^ 20 + o

/-- Byte `o` of a skein's stationary window; its scale sides start at 2^18. -/
def windowLoc (skein o : Nat) : Nat := windowBase + skein * 2 ^ 19 + o

/-- Host memory carries neither tags nor poison (R113, R295).
DESIGN CHOICE: log entry 5, unsafe. -/
def isHost (loc : Nat) : Bool := hostBase ≤ loc && loc < scratchBase

/-- Bytes of a poison unit (R344): 32 in LPDDR and device space, 8 in SRAM. -/
def unitSize (loc : Nat) : Nat := if loc < scratchBase then 32 else 8

/-- The first locations of the units, of size `z`, that n bytes from loc touch. -/
def blocksOf (z loc n : Nat) : List Nat :=
  if n = 0 then [] else upFrom (loc / z) ((loc + n - 1) / z - loc / z + 1) |>.map (· * z)

def unitsOf (loc n : Nat) : List Nat := blocksOf (unitSize loc) loc n

/-- Sector numbers that n bytes from loc touch. -/
def sectorsOf (loc n : Nat) : List Nat := (blocksOf 32 loc n).map (· / 32)

/-- CLASS and INDEX of a tag (R94). -/
def tagClass (t : Tag) : Nat := t.toNat / 2 ^ 14
def tagIndex (t : Tag) : Nat := t.toNat % 2 ^ 14
def isBirth (t : Tag) : Bool := tagClass t == 2

/-- The tag of smallest index of a class in a list. -/
def leastOf (cls : Nat) (l : List Tag) : Option Tag :=
  (l.filter fun t => tagClass t == cls).foldl
    (fun a t => match a with | none => some t | some b => if t.toNat < b.toNat then some t else some b) none

/-- sector_merge of R113. -/
def sectorMerge (l : List Tag) : Tag :=
  match leastOf 2 l with
  | some t => t
  | none =>
    match leastOf 3 l with
    | some t => t
    | none =>
      match leastOf 1 l with
      | some t => t
      | none => 0

def State.read (s : State) (loc n : Nat) : List Byte := Memory.read s.mem loc n

def State.write (s : State) (loc : Nat) (bs : List Byte) : State := { s with mem := Memory.write s.mem loc bs }

/-- A little-endian number in memory. -/
def State.readNat (s : State) (loc n : Nat) : Nat := ofBytes (s.read loc n)

def State.tagAt (s : State) (sector : Nat) : Tag := sget 0 s.tags sector

def State.setTag (s : State) (sector : Nat) (t : Tag) : State := { s with tags := sput 0 s.tags sector t }

/-- The tag of a load's sectors (R114). -/
def State.tagOf (s : State) (loc n : Nat) : Tag :=
  if isHost loc then 0xCFFF else sectorMerge ((sectorsOf loc n).map s.tagAt)

/-- Some byte lies in a poisoned unit. -/
def State.poisonedAt (s : State) (loc n : Nat) : Bool :=
  if isHost loc then false else (unitsOf loc n).any s.poison.contains

/-- Mark a unit poisoned, its data zero; LPDDR keeps the sector tag (R345). -/
def State.poisonUnit (s : State) (u : Nat) : State :=
  { s.write u (List.replicate (unitSize u) 0) with
    poison := s.poison.filter (· < u) ++ [u] ++ s.poison.filter (u < ·), raw := sdel s.raw u }

def State.clearPoison (s : State) (u : Nat) : State := { s with poison := s.poison.filter (· != u), raw := sdel s.raw u }

/-- A piece of a store: location, bytes, tag. -/
abbrev Piece := Nat × List Byte × Tag

/-- Every byte from lo to lo + n − 1 lies in some piece. -/
def coveredBy (ps : List Piece) (lo n : Nat) : Bool :=
  (List.range n).all fun i => ps.any fun p => p.1 ≤ lo + i && lo + i < p.1 + p.2.1.length

/-- The tags of the pieces that write into a sector. -/
def tagsInto (ps : List Piece) (sec : Nat) : List Tag :=
  ps.filterMap fun p => if p.1 < 32 * sec + 32 && 32 * sec < p.1 + p.2.1.length then some p.2.2 else none

/-- Sectors and units that pieces touch, once each. -/
def pieceSectors (ps : List Piece) : List Nat := (ps.flatMap fun p => sectorsOf p.1 p.2.1.length).dedup
def pieceUnits (ps : List Piece) : List Nat := (ps.flatMap fun p => unitsOf p.1 p.2.1.length).dedup

/-- The tag rule of a store on one sector (R115); T is the merge of the contributing tags. -/
def storeTag (ps : List Piece) (s : State) (sec : Nat) : State :=
  let t := sectorMerge (tagsInto ps sec)
  if isHost (32 * sec) then s
  else s.setTag sec (if coveredBy ps (32 * sec) 32 then t else sectorMerge [s.tagAt sec, t])

/-- The bytes of a piece that do not fall into a unit that stays poisoned, written one at a time. -/
def writePiece (kept : List Nat) (s : State) (p : Piece) : State :=
  if kept.isEmpty then s.write p.1 p.2.1
  else p.2.1.zipIdx.foldl (fun s b =>
    let l := p.1 + b.2
    if kept.contains (l / unitSize l * unitSize l) then s else s.write l [b.1]) s

/-- A store performed: bytes in the order of the pieces, tags (R115), poison (R349). A unit wholly written becomes clean; one
partly written stays poisoned, and the bytes are lost. -/
def State.store (s : State) (ps : List Piece) : State :=
  let bad := (pieceUnits ps).filter fun u => s.poison.contains u && !isHost u
  let whole := bad.filter fun u => coveredBy ps u (unitSize u)
  let kept := bad.filter fun u => !whole.contains u
  let s := whole.foldl State.clearPoison s
  let s := ps.foldl (writePiece kept) s
  (pieceSectors ps).foldl (storeTag ps) s

/-- Raw units that a store replaces as a whole lose their raw check bits: the store writes valid ones. -/
def State.dropRaw (s : State) (ps : List Piece) : State :=
  { s with raw := s.raw.filter fun r => !((pieceUnits ps).contains r.1 && coveredBy ps r.1 (unitSize r.1)) }

/-! ### Error correction of raw units (R345, R357) -/

/-- The words that differ from `w` in one of `n` bits. -/
def flips (n w : Nat) : List Nat := (List.range n).map fun i => Nat.xor w (2 ^ i)

/-- What a read of a codeword finds: the word, whether it was corrected; none if uncorrectable. `ok` is the code's test.
DESIGN CHOICE: log entry 10, safe. -/
def correct (ok : Nat → Bool) (n w : Nat) : Option (Nat × Bool) :=
  if ok w then some (w, false)
  else
    match (flips n w).filter ok with
    | [x] => some (x, true)
    | _ => none

/-- A register word as data·2^16 + tag, with its check bits above (R344).
DESIGN CHOICE: log entry 10, safe. -/
def regOk (w : Nat) : Bool := (Config.checkReg (BitVec.ofNat 48 w)).toNat == w / 2 ^ 48

/-- A 64-bit SRAM word: tag, data above, check bits above (R344).
DESIGN CHOICE: log entry 10, safe. -/
def wordOk (w : Nat) : Bool := (Config.checkWord (BitVec.ofNat 80 w)).toNat == w / 2 ^ 80

/-- A sector: 256 data bits, tag, POISON, CHECK above (R277).
DESIGN CHOICE: log entry 10, safe. -/
def sectorOk (w : Nat) : Bool := (Config.checkSector (BitVec.ofNat 273 w)).toNat == w / 2 ^ 273

/-- The scratchpad row of a location, retired banks skipped (R271, R274, R355), or the LPDDR row group (R354).
DESIGN CHOICE: log entry 61, safe. -/
def rowOf (s : State) (loc : Nat) : RowName :=
  if loc < 2 ^ 41 then
    let r := Config.lpddrRow (loc / 32)
    .lpddr (loc / 2 ^ 38) (Nat.xor (loc / 2 ^ 8 % 32) (loc / 2 ^ 18 % 32)) r.1 r.2
  else if loc < windowBase then
    let o := loc % 2 ^ 20
    let core := (loc - scratchBase) / 2 ^ 20
    let banks := (List.range 96).filter fun b => !(sget {} s.cores core).retiredBanks.contains b
    .scratch core (banks.getD (o / 8 % banks.length) 0) (o / 8 / banks.length)
  else
    let r := Config.stationaryRow (loc % 2 ^ 19)
    .stationary (((sfind s.skeins ((loc - windowBase) / 2 ^ 19)).map (·.core)).getD 0) r.1 r.2

/-- The number of errors counted against a row in its window. -/
def rowCount (s : State) (r : RowName) : Nat := (s.sec.rows.lookup r).getD 0

/-- One error counted against a row; it becomes lasting at the third corrected or first uncorrectable error (R354). -/
def State.countError (s : State) (r : RowName) (fatal : Bool) : State :=
  let n := rowCount s r + 1
  let rows := s.sec.rows.filter (fun x => x.1 ≠ r) ++ [(r, n)]
  let lasting := if (fatal || 3 ≤ n) && !s.sec.lasting.contains r then s.sec.lasting ++ [r] else s.sec.lasting
  { s with sec := { s.sec with rows := rows, lasting := lasting } }

/-- A unit whose check bits were written raw, as a read finds it: corrected, clean, or poisoned. -/
def State.settleUnit (s : State) (u : Nat) : State :=
  match sfind s.raw u with
  | none => s
  | some bits =>
    if unitSize u = 8 then
      let data := s.readNat u 8
      let chk := bits % 256
      if chk = 0xFF ∧ data = 0 then s.poisonUnit u
      else
        match correct wordOk 88 (bits / 2 ^ 16 % 2 ^ 16 + 2 ^ 16 * data + 2 ^ 80 * chk) with
        | some (w, fixed) =>
          let s := { (s.write u (toBytes 8 (w / 2 ^ 16 % 2 ^ 64))).setTag (u / 32) (BitVec.ofNat 16 w) with raw := sdel s.raw u }
          if fixed then s.countError (rowOf s u) false else s
        | none => (s.poisonUnit u).countError (rowOf s u) true
    else
      let data := s.readNat u 32
      match correct sectorOk 283 (data + 2 ^ 256 * (bits % 2 ^ 16) + 2 ^ 272 * (bits / 2 ^ 26 % 2) + 2 ^ 273 * (bits / 2 ^ 16 % 2 ^ 10)) with
      | some (w, fixed) =>
        let s := { (s.write u (toBytes 32 w)).setTag (u / 32) (BitVec.ofNat 16 (w / 2 ^ 256)) with raw := sdel s.raw u }
        let s := if w / 2 ^ 272 % 2 = 1 then s.poisonUnit u else s
        if fixed then s.countError (rowOf s u) false else s
      | none => (s.poisonUnit u).countError (rowOf s u) true

/-- Settle every raw unit that n bytes from loc touch. -/
def State.settle (s : State) (loc n : Nat) : State :=
  if s.raw.isEmpty then s else (unitsOf loc n).foldl State.settleUnit s

/-- Settle what a store covers only in part; replace the rest. -/
def State.settleStore (s : State) (ps : List Piece) : State :=
  if s.raw.isEmpty then s
  else let s := s.dropRaw ps; (pieceUnits ps).foldl State.settleUnit s

/-- A store as the memory system performs it. -/
def State.storeAll (s : State) (ps : List Piece) : State := (s.settleStore ps).store ps

/-- Bytes written zero, tags 0x0000, poison cleared (R274, R365, R366). -/
def State.wipe (s : State) (loc n : Nat) : State :=
  let inside (x : Nat) : Bool := loc ≤ x && x < loc + n
  { s with
    mem := s.mem.filter fun c => !inside c.1
    tags := s.tags.filter fun c => !inside (32 * c.1)
    poison := s.poison.filter fun u => !inside u
    raw := s.raw.filter fun c => !inside c.1 }

end Sys2Proof.Machine
end

