-- ==== Sys2Proof/Machine/Xlat.lean ====
section
/-!
DEFINITION. Virtual addresses: windows (R272, R273), the page walk (R281 to R283), the checks of a present leaf (R284), the
ownership check of a fill (R361), the TLB and the last-page registers (R287).
-/

namespace Sys2Proof.Machine

def localWindow : Nat := 0x00FF_FF00_0000_0000
def hankWindow : Nat := 0x00FF_FE00_0000_0000

/-- Why a present translation refuses an access: malformed (R283), window (R273), world (R361, R279), permission, execute,
sealed, illegal ORD (R284). -/
inductive XFault
  | malformed | window | world | perm | exec | seal | ord
  deriving DecidableEq, Repr, Inhabited

/-- Cause and sub-cause where the access's own PAGE_PERM sub-cause is `b` (R180, R284; OWNERSHIP and SEALED_ACCESS carry the
same sub-cause). -/
def XFault.trap (f : XFault) (b : Nat) : Nat × Nat :=
  match f with
  | .malformed => (0x21, 9)
  | .window => (0x21, 8)
  | .world => (0x25, b)
  | .perm => (0x21, b)
  | .exec => (0x21, 1)
  | .seal => (0x26, b)
  | .ord => (0x21, 6)

/-- SUB of a store-fault record (R335). -/
def XFault.record : XFault → Nat
  | .malformed => 9 | .window => 8 | .world => 0x25 | .perm => 0 | .exec => 0 | .seal => 0x26 | .ord => 6

/-- A physical target (R278): a location, or an LPDDR address behind a peer slot. -/
inductive Target
  | loc (l : Nat) | peer (slot pa : Nat)
  deriving DecidableEq, Repr, Inhabited

/-- A translation's outcome; a success shows the leaf. -/
inductive Xl
  | ok (t : Target) (leaf : Nat) | absent | bad (f : XFault)
  deriving DecidableEq, Repr, Inhabited

/-- The kinds of access that R273 and R284 tell apart. `sealed`: a copy between two SEAL pages. -/
inductive Access
  | load | store | atomic | fetch | copySrc (sealed : Bool) | copyDst (sealed : Bool) | matrix | wsu
  deriving DecidableEq, Repr, Inhabited

def Access.writes : Access → Bool
  | .store | .atomic | .copyDst _ => true
  | _ => false

/-- For whom an access is translated: context, core, system mode, skein, last-page register if a lane makes it. -/
structure Who where
  ctx : Nat
  core : Nat
  sys : Bool
  skein : Nat
  lane : Option Nat := none
  deriving DecidableEq, Repr, Inhabited

/-- Bits lo to lo + n − 1 of a leaf. -/
def leafBit (leaf b : Nat) : Bool := leaf / 2 ^ b % 2 == 1
def leafOrd (leaf : Nat) : Nat := fld leaf 5 2
def leafPA (leaf : Nat) : Nat := fld leaf 12 40 * 4096

/-- A window page's attributes (R273): V, L, W and U set. -/
def windowLeaf : Nat := 0x17

/-! ### The walk -/

inductive Walk
  | absent | malformed | leaf (entry bits shift : Nat)
  deriving DecidableEq, Repr, Inhabited

/-- Page sizes by SIZE code, as bits of offset (R282). -/
def sizeShift : Nat → Nat
  | 0 => 12 | 1 => 16 | 2 => 21 | _ => 30

/-- The PA of a leaf is allowed (R278). -/
def paAllowed (leaf shift : Nat) : Bool :=
  let pa := leafPA leaf
  let host := leafBit leaf 8
  let peer := leafBit leaf 9
  if host && peer then false
  else if host || peer then true
  else pa + 2 ^ shift ≤ 2 ^ 41 || (devBase ≤ pa && pa + 2 ^ shift ≤ devBase + 2 ^ 32)

/-- A leaf at a level is well formed (R283). -/
def leafOk (level leaf : Nat) : Bool :=
  let size := fld leaf 56 3
  let sizeOk := match level with
    | 2 => size == 3
    | 1 => size == 2
    | 0 => size == 0 || size == 1
    | _ => false
  sizeOk && fld leaf 59 5 == 0 && leafPA leaf % 2 ^ sizeShift size == 0 && paAllowed leaf (sizeShift size)

/-- The levels from 4 down with the lowest VA bit that indexes each (R281). -/
def walkFrom (s : State) (va : Nat) : Nat → Nat → Walk
  | 0, table => walkAt 0 table
  | level + 1, table =>
    let entry := table + 8 * fld va (12 + 9 * (level + 1)) 9
    let e := s.readNat entry 8
    if !leafBit e 0 then .absent
    else if leafBit e 1 then
      if level + 1 ≤ 2 && leafOk (level + 1) e then .leaf entry e (sizeShift (fld e 56 3)) else .malformed
    else if fld e 2 10 != 0 || fld e 52 12 != 0 || 2 ^ 41 ≤ leafPA e then .malformed
    else walkFrom s va level (leafPA e)
where
  /-- Level 0: only leaves. -/
  walkAt (_ : Nat) (table : Nat) : Walk :=
    let entry := table + 8 * fld va 12 9
    let e := s.readNat entry 8
    if !leafBit e 0 then .absent
    else if leafBit e 1 && leafOk 0 e then .leaf entry e (sizeShift (fld e 56 3))
    else .malformed

/-- The walk of a virtual address from the root table (R281). Level 4 is indexed by VA[55:48]. -/
def walk (s : State) (root va : Nat) : Walk := walkFrom s (va % 2 ^ 56) 4 (root * 4096)

/-! ### Ownership -/

/-- An entry of the Page Ownership Table (R360). -/
def potEntry (s : State) (page : Nat) : Nat := (sget s.sec.potDefault s.sec.pot page).toNat

/-- One entry passes for a context of world c (R361). -/
def potPasses (c : Nat) (sealed : Bool) (e : Nat) : Bool :=
  let st := fld e 4 2
  let owner := fld e 0 4
  ((st == 1 && owner == c) || (st == 2 && (owner == c || c == 0))) && (!sealed || fld e 6 1 == 1)

/-- Every 64 KiB page of a range passes. -/
def potRange (s : State) (c : Nat) (sealed : Bool) (pa n : Nat) : Bool :=
  let first := pa / 2 ^ 16
  let count := (pa + n - 1) / 2 ^ 16 - first + 1
  let listed := s.sec.pot.filter fun e => first ≤ e.1 && e.1 < first + count
  listed.all (fun e => potPasses c sealed e.2.toNat) &&
    (listed.length == count || potPasses c sealed s.sec.potDefault.toNat)

/-- The range touches the firmware region (R360). -/
def inFirmware (pa n : Nat) : Bool := pa < Config.firmwareBase + Config.firmwareSize && Config.firmwareBase < pa + n

/-- The check of a fill (R361) through a well-formed leaf. -/
def fillOk (s : State) (ctx : Context) (leaf shift : Nat) : Bool :=
  let pa := leafPA leaf
  fld leaf 52 4 == ctx.world &&
    (leafBit leaf 8 || leafBit leaf 9 ||
      (if pa < 2 ^ 41 then potRange s ctx.world (leafBit leaf 7) pa (2 ^ shift) && !inFirmware pa (2 ^ shift)
       else
         let first := pa / 4096
         ((ctx.pages.dedup).filter fun p => first ≤ p && p < first + 2 ^ (shift - 12)).length == 2 ^ (shift - 12)))

/-! ### Checks and targets -/

/-- The first failing check of a cached leaf, after the world (R284, R286). -/
def leafCheck (k : Access) (sys : Bool) (leaf : Nat) : Option XFault :=
  if !sys && !leafBit leaf 4 then some .perm
  else if k.writes && !leafBit leaf 2 then some .perm
  else if k = .fetch ∧ !leafBit leaf 3 then some .exec
  else if leafBit leaf 7 && !(k = .wsu ∨ k = .copySrc true ∨ k = .copyDst true) then some .seal
  else if leafOrd leaf = 3 then some .ord
  else if leafOrd leaf = 1 && (k = .matrix ∨ k = .wsu) then some .perm
  else none

/-- Where a page's byte lies (R278). -/
def leafTarget (leaf shift va : Nat) : Target :=
  let pa := leafPA leaf + va % 2 ^ shift
  if leafBit leaf 8 then .loc (hostBase + pa)
  else if leafBit leaf 9 then .peer (pa / 2 ^ 41) (pa % 2 ^ 41)
  else .loc pa

/-- The skein of a hank's rank (R272). -/
def hankMember (s : State) (k : Skein) (h : Nat) : Option Skein :=
  (s.skeins.find? fun x => x.2.launch = k.launch ∧ x.2.hank = k.hank ∧ x.2.rank = h ∧ x.2.phase ≠ .saved).map (·.2)

/-- A window access of n bytes (R272, R273). -/
def windowAt (s : State) (w : Who) (k : Access) (va n : Nat) : Xl :=
  let place (sk : Skein) (o : Nat) : Xl :=
    if o + n ≤ sk.scratch then .ok (.loc (scratchLoc sk.core (sk.base + o))) windowLeaf else .bad .window
  if k = .fetch then .bad .exec
  else
    match sfind s.skeins w.skein with
    | none => .bad .window
    | some me =>
      if localWindow ≤ va then
        if va < localWindow + 2 ^ 20 then place me (va - localWindow) else .bad .window
      else if va < hankWindow + 2 ^ 26 then
        match hankMember s me ((va - hankWindow) / 2 ^ 20) with
        | some sk => place sk ((va - hankWindow) % 2 ^ 20)
        | none => .bad .window
      else .bad .window

def State.core (s : State) (c : Nat) : Core := sget {} s.cores c

def State.setCore (s : State) (c : Nat) (x : Core) : State := { s with cores := sset s.cores c x }

def State.context (s : State) (c : Nat) : Context := sget {} s.contexts c

def State.modContext (s : State) (c : Nat) (f : Context → Context) : State := { s with contexts := smod s.contexts c f }

/-- The cached translation of an address: the lane's register, then the TLB (R280, R287).
DESIGN CHOICE: log entry 13, unsafe. -/
def cached (c : Core) (w : Who) (va : Nat) : Option TlbEntry :=
  let hit (e : TlbEntry) : Bool := e.ctx == w.ctx && va / 2 ^ e.shift == e.page
  let own := match w.lane with
    | none => none
    | some l => (sfind c.last l).filter hit
  match own with
  | some e => some e
  | none => c.tlb.find? hit

/-- A translation put into the TLB in place of an older one of its page, and into the lane's register.
DESIGN CHOICE: log entry 13, unsafe. -/
def Core.fill (c : Core) (w : Who) (e : TlbEntry) : Core :=
  { c with
    tlb := if c.tlb.contains e then c.tlb
      else c.tlb.filter (fun x => !(x.ctx == e.ctx && x.page == e.page && x.shift == e.shift)) ++ [e]
    last := match w.lane with | none => c.last | some l => sset c.last l e }

/-- Translate n bytes at a canonical, aligned address (R280). -/
def translate (s : State) (w : Who) (k : Access) (va n : Nat) : Xl × State :=
  if hankWindow ≤ va then (windowAt s w k va n, s)
  else
    let c := s.core w.core
    match (cached c w va).filter fun e => !k.writes || leafBit e.leaf.toNat 11 || !leafBit e.leaf.toNat 2 with
    | some e =>
      let leaf := e.leaf.toNat
      let s := s.setCore w.core (c.fill w e)
      match leafCheck k w.sys leaf with
      | some f => (.bad f, s)
      | none => (.ok (leafTarget leaf e.shift va) leaf, s)
    | none =>
      let ctx := s.context w.ctx
      match walk s ctx.ptroot va with
      | .absent => (.absent, s)
      | .malformed => (.bad .malformed, s)
      | .leaf entry bits shift =>
        if !fillOk s ctx bits shift then (.bad .world, s)
        else
          let bad := leafCheck k w.sys bits
          let dirty := k.writes && bad.isNone
          let leaf := bits ||| 2 ^ 10 ||| (if dirty then 2 ^ 11 else 0)
          let s := s.write entry (toBytes 8 leaf)
          let e : TlbEntry := { ctx := w.ctx, page := va / 2 ^ shift, shift := shift, leaf := BitVec.ofNat 64 leaf }
          let s := s.setCore w.core (c.fill w e)
          match bad with
          | some f => (.bad f, s)
          | none => (.ok (leafTarget leaf shift va) leaf, s)

/-- Where an address's bytes lie now, whatever the access may do there: the view of a strand's buffered stores (R164). -/
def locate (s : State) (w : Who) (va n : Nat) : Option Nat :=
  if hankWindow ≤ va then
    match windowAt s w .load va n with
    | .ok (.loc l) _ => some l
    | _ => none
  else
    match cached (s.core w.core) w va with
    | some e => match leafTarget e.leaf.toNat e.shift va with | .loc l => some l | .peer _ _ => none
    | none =>
      match walk s (s.context w.ctx).ptroot va with
      | .leaf _ bits shift => match leafTarget bits shift va with | .loc l => some l | .peer _ _ => none
      | _ => none

/-- Invalidate translations (R288): by context (none: every one) and virtual page (none: every one), on every core.
DESIGN CHOICE: log entry 13, unsafe. -/
def State.shootDown (s : State) (ctx page : Option Nat) : State :=
  let keep (e : TlbEntry) : Bool :=
    !((ctx.all fun c => c == e.ctx) && (page.all fun p => p / 2 ^ (e.shift - 12) == e.page))
  { s with cores := s.cores.map fun c => (c.1, { c.2 with tlb := c.2.tlb.filter keep, last := [] }) }

end Sys2Proof.Machine
end

