-- ==== Sys2Proof/Machine/Mailbox.lean ====
section
/-!
DEFINITION. The device's own accesses to a context's memory (R390), mailboxes (R300 to R302), the error log (R307),
completion of a launch (R307) and the forced reset of a context (R330).
-/

namespace Sys2Proof.Machine

/-! ### The device's own writes -/

/-- Where a device access of n bytes within one page goes; none: not present, refused, or beyond the package (R390).
DEDUCED: log entry 55, unsafe. -/
def devLoc (s : State) (ctx va n : Nat) (wr : Bool) : Option (Nat × State) :=
  let c := s.context ctx
  match walk s c.ptroot va with
  | .leaf entry bits shift =>
    if 2 ^ 56 ≤ va + n || !fillOk s c bits shift || (leafCheck (if wr then .store else .load) true bits).isSome then none
    else
      let s := s.write entry (toBytes 8 (bits ||| 2 ^ 10 ||| (if wr then 2 ^ 11 else 0)))
      match leafTarget bits shift va with
      | .loc l => some (l, s)
      | .peer _ _ => none
  | _ => none

/-- The bytes from `va` cut at 4 KiB boundaries; `fuel` bounds the number of pieces. -/
def pageCuts (va : Nat) (bs : List Byte) : Nat → List (Nat × List Byte)
  | 0 => []
  | fuel + 1 =>
    if bs.isEmpty then []
    else
      let n := 4096 - va % 4096
      (va, bs.take n) :: pageCuts (va + n) (bs.drop n) fuel

/-- A device write; sector tags stay as they are. None where a page refuses it.
DEDUCED: log entry 55, unsafe. -/
def devPut (s : State) (ctx va : Nat) (bs : List Byte) : Option State :=
  (pageCuts va bs (bs.length / 4096 + 2)).foldlM (fun s p =>
    (devLoc s ctx p.1 p.2.length true).map fun r => r.2.write r.1 p.2) s

/-- A device write that is dropped where it is refused. -/
def devPutQuiet (s : State) (ctx va : Nat) (bs : List Byte) : State := (devPut s ctx va bs).getD s

/-- A device read of n bytes within one page.
DEDUCED: log entry 56, unsafe. -/
def devGet (s : State) (ctx va n : Nat) : Option (List Byte) := (devLoc s ctx va n false).map fun r => s.read r.1 n

/-- `l` with the bytes from `off` replaced. -/
def patch (l : List Byte) (off : Nat) (bs : List Byte) : List Byte := l.take off ++ bs ++ l.drop (off + bs.length)

/-- Bytes `off` to `off + n − 1` of a message as a number. -/
def field (l : List Byte) (off n : Nat) : Nat := ofBytes ((l.drop off).take n)

/-- 64 bytes with fields, each given as offset, length, value. -/
def message (fs : List (Nat × Nat × Nat)) : List Byte :=
  fs.foldl (fun l f => patch l f.1 (toBytes f.2.1 f.2.2)) (List.replicate 64 0)

/-! ### The mailbox table -/

/-- DEDUCED: log entry 56, unsafe. -/
def mbxVA (c : Context) (n : Nat) : Nat := c.mbx * 64 + 32 * n

/-- KIND of a mailbox: 0 where unbound or undefined, or where the table cannot be read (R300). -/
def mbxKind (s : State) (ctx n : Nat) : Nat :=
  match devGet s ctx (mbxVA (s.context ctx) n) 32 with
  | some e => let k := field e 16 1; if k < 4 then k else 0
  | none => 0

/-- The virtual address of a mailbox's slot. -/
def mbxSlot (s : State) (ctx n : Nat) : Nat :=
  match devGet s ctx (mbxVA (s.context ctx) n) 8 with
  | some e => ofBytes e
  | none => 0

def mbxTemplate (s : State) (ctx n : Nat) : Nat :=
  match devGet s ctx (mbxVA (s.context ctx) n + 8) 8 with
  | some e => ofBytes e
  | none => 0

/-- The slot's location: where its home is. -/
def slotLoc (s : State) (ctx n : Nat) : Option Nat := (devLoc s ctx (mbxSlot s ctx n) 64 true).map (·.1)

/-- The bound mailbox whose slot lies at a location: the lowest-numbered. Entries with KIND zero are not bound. -/
def mailboxAt (s : State) (ctx loc : Nat) : Option Nat :=
  let c := s.context ctx
  let page (j : Nat) : List Nat :=
    match devLoc s ctx (c.mbx * 64 / 4096 * 4096 + 4096 * j) 4096 false with
    | none => []
    | some r => (s.mem.filter fun x => r.1 ≤ x.1 && x.1 < r.1 + 4096).filterMap fun x =>
        let va := c.mbx * 64 / 4096 * 4096 + 4096 * j + (x.1 - r.1)
        if c.mbx * 64 ≤ va && (va - c.mbx * 64) % 32 == 16 then some ((va - c.mbx * 64) / 32) else none
  let ns := ((List.range 33).flatMap page).filter fun n => n < 4096 && mbxKind s ctx n != 0
  ns.find? fun n => slotLoc s ctx n == some loc

/-- Add one to a 32-bit count of a table entry: OVERRUN saturates, SEQ wraps (R300). -/
def bumpCount (s : State) (ctx n off : Nat) (saturate : Bool) : Option State :=
  let va := mbxVA (s.context ctx) n + off
  match devGet s ctx va 4 with
  | none => none
  | some b =>
    let v := ofBytes b
    devPut s ctx va (toBytes 4 (if v + 1 = 2 ^ 32 then (if saturate then v else 0) else v + 1))

def isBusy (s : State) (ctx n : Nat) : Bool := (s.context ctx).busy.any fun b => b.1 == n

/-- A message stored in a free slot (R301), with the tag of R117.
DEDUCED: log entry 55, unsafe. -/
def putSlot (s : State) (ctx n : Nat) (bytes : List Byte) (loc : Nat) : State :=
  let tag : Tag := BitVec.ofNat 16 (0xE000 + n)
  (s.storeAll [(loc, bytes, tag)]).modContext ctx fun c => { c with busy := c.busy ++ [(n, bytes)] }

/-- A message the device sends itself: delivered, queued behind a busy slot, or dropped at an unbound one (R301, R302). The
flag says that every device write it needed was accepted (R390). -/
def deliverOnce (s : State) (ctx n : Nat) (bytes : List Byte) : State × Bool × Bool :=
  match mbxKind s ctx n, slotLoc s ctx n with
  | 0, _ | _, none =>
    match bumpCount s ctx n 24 true with
    | some s => (s, true, true)
    | none => (s, true, false)
  | _, some loc =>
    if isBusy s ctx n || (s.context ctx).writers.any (fun w => w.1 == n) then
      (s.modContext ctx fun c => { c with writers := c.writers ++ [(n, none, bytes)] }, false, true)
    else (putSlot s ctx n bytes loc, false, true)

/-- The device's message with the error message of a drop (R301): cause 0xF4 for completion and fault messages. -/
def deliverQuiet (s : State) (ctx n : Nat) (bytes : List Byte) : State × Bool :=
  let (s, dropped, ok) := deliverOnce s ctx n bytes
  let type := field bytes 0 1
  if dropped && (type == 1 || type == 2) then
    let r := deliverOnce s ctx 2 (message [(0, 1, 3), (1, 1, 0xF4), (12, 2, n), (14, 1, type)])
    (r.1, ok && r.2.2)
  else (s, ok)

/-! ### Launches completing -/

def State.launch (s : State) (l : Nat) : Launch := sget (default : Launch) s.launches l

def State.modLaunch (s : State) (l : Nat) (f : Launch → Launch) : State := { s with launches := smod s.launches l f }

/-- A slot freed: SEQ counts it (R301). -/
def freeSlot (s : State) (ctx n : Nat) : State × Bool :=
  let s := s.modContext ctx fun c => { c with busy := c.busy.filter fun b => b.1 != n }
  match bumpCount s ctx n 20 false with
  | some s => (s, true)
  | none => (s, false)

/-- The completion message of a launch (R307). -/
def completionBytes (l : Launch) : List Byte :=
  message [(0, 1, 2), (1, 1, l.status), (2, 2, l.ctx), (4, 4, l.num), (8, 1, l.cause), (9, 1, l.chki),
    (10, 1, bit l.btfull + 2 * bit l.lost), (11, 1, l.offset), (12, 4, l.nterm), (16, 4, l.firstSid)]

/-- A launch is complete: its message goes to CMBX, and a handler's slot becomes free (R301, R307). -/
def finishLaunch (s : State) (key : Nat) : State × Bool :=
  let l := s.launch key
  let s := s.modLaunch key fun l => { l with phase := .done, unplaced := [], conts := [], records := [] }
  let s := { s with dies := s.dies.map fun d => { d with queue := d.queue.filter (· != key) } }
  let (s, a) := if l.msg.cmbx < 4096 then deliverQuiet s l.ctx l.msg.cmbx (completionBytes l) else (s, true)
  let (s, b) := match l.slot with
    | some n => freeSlot s l.ctx n
    | none => (s, true)
  (s, a && b)

/-! ### Forced reset -/

def roundScratch (n : Nat) : Nat := (n + 767) / 768 * 768

/-- What a skein held on its core is erased: slice, window, its strands' fragments in the carding table (R274, R366). -/
def State.vacate (s : State) (key : Nat) : State :=
  match sfind s.skeins key with
  | none => s
  | some k =>
    let mine (u : Nat) : Bool := ((sfind s.strands u).map (·.skein)) == some key
    let s := s.wipe (windowLoc key 0) (2 ^ 19)
    let s := if k.phase ≠ .saved then s.wipe (scratchLoc k.core k.base) (roundScratch k.scratch) else s
    let clean (c : Carding) : Carding :=
      { entries := c.entries.filter fun e => !(e.members.any fun m => mine m.1)
        spill := c.spill.filter fun m => !mine m.1 }
    { s with
      carding := (s.carding.map fun c => (c.1, clean c.2)).filter fun c => c.2 ≠ {}
      cur := match s.cur with
        | some r => if r.frags.any fun f => mine f.1 then none else some r
        | none => none
      cores := smod s.cores k.core fun c =>
        { c with
          copies := c.copies.filter fun x => !mine x.strand
          wsu := c.wsu.filter fun x => x.1.skein != key } }

/-- The skein with its strands is gone. -/
def State.dropSkein (s : State) (key : Nat) : State :=
  let s := s.vacate key
  { s with skeins := sdel s.skeins key, strands := s.strands.filter fun x => x.2.skein != key }

/-- The header words that the device keeps in a save area (R331): INUSE, SAVED and MAP. -/
def headerPut (s : State) (ctx : Nat) : Option State :=
  let c := s.context ctx
  let saved := (s.skeins.filter fun k => k.2.phase = .saved && (s.launch k.2.launch).ctx == ctx).length
  let map := c.blocks.foldl (fun n b => n ||| 2 ^ b) 0
  (devPut s ctx (c.area + 8) (toBytes 8 (c.blocks.length + 2 ^ 32 * saved))).bind fun s =>
    devPut s ctx (c.area + 512) (toBytes 512 map)

/-- STATUS of a context's control page (R380). -/
def State.setStatus (s : State) (ctx v : Nat) : State :=
  let page := (s.context ctx).control
  if page = 0 then s else s.write (page + 1) (toBytes 1 v)

/-- A pre-emption that a reset ends: what its STATUS becomes is not given (R330, R380), so it is any that does not say 1. -/
def State.endPreempt (s : State) (ctx : Nat) : State :=
  match (s.context ctx).pre with
  | none => s
  | some p =>
    let v := [0, 2, 3].getD (Config.freeNat s.fresh % 3) 0
    let s := if p.control then State.setStatus { s with fresh := s.fresh + 1 } ctx v else s
    s.modContext ctx fun c => { c with pre := none }

/-- A context's forced reset (R330): its skeins stop and are discarded, its blocks are freed, its launches complete with
FORCED_RESET, and the error mailbox hears of it.
DESIGN CHOICE: log entry 43, safe. -/
def forceReset (s : State) (ctx die reason : Nat) : State :=
  let mine := s.launches.filter fun l => l.2.ctx == ctx && l.2.phase ≠ .done
  let keys := (s.skeins.filter fun k => (s.launch k.2.launch).ctx == ctx).map (·.1)
  let s := keys.foldl State.dropSkein s
  let s := s.endPreempt ctx
  let s := s.modContext ctx fun c => { c with blocks := [] }
  let s := (headerPut s ctx).getD s
  let s := mine.foldl (fun s l => (finishLaunch (s.modLaunch l.1 fun x => { x with status := 2 }) l.1).1) s
  (deliverQuiet s ctx 2 (message [(0, 1, 3), (1, 1, 0xF1), (12, 1, die), (13, 1, reason)])).1

/-- A device write of a running context (R390): refused, it resets the context. -/
def devWrite (s : State) (ctx die va : Nat) (bs : List Byte) : State := (devPut s ctx va bs).getD (forceReset s ctx die 1)

/-- A result whose device writes were all accepted, or the reset of R390. -/
def orReset (r : State × Bool) (ctx die : Nat) : State := if r.2 then r.1 else forceReset r.1 ctx die 1

/-- A message the device sends itself (R301, R302). -/
def deliver (s : State) (ctx die n : Nat) (bytes : List Byte) : State := orReset (deliverQuiet s ctx n bytes) ctx die

/-- An error-log message (R307). -/
def errorLog (s : State) (ctx die cause launch sid addr : Nat) : State :=
  deliver s ctx die 2 (message [(0, 1, 3), (1, 1, cause), (4, 4, launch), (8, 4, sid), (16, 8, addr)])

/-- Passive slots whose byte 0 a store has set to zero become free (R301). -/
def noteSlots (s : State) (ps : List Piece) : State :=
  s.contexts.foldl (fun s c =>
    c.2.busy.foldl (fun s b =>
      if mbxKind s c.1 b.1 != 3 then s
      else
        match slotLoc s c.1 b.1 with
        | none => s
        | some l =>
          if ps.any (fun p => p.1 ≤ l && l < p.1 + p.2.1.length) && Memory.byte s.mem l == 0 then
            orReset (freeSlot s c.1 b.1) c.1 0
          else s) s) s

end Sys2Proof.Machine
end

