-- ==== Sys2Proof/Machine/Num.lean ====
section
/-!
DEFINITION. Numbers: formats (R73, R74, R76, R77), exact values (R80), rounding (R81 to R84), integer conversion (R86), the
generator (R87) and group sums (R89).

An exact value is a sign, a magnitude m × 2^e and a sticky bit: with it, the magnitude lies strictly between m × 2^e and
(m + 1) × 2^e. Only quotients, roots and transcendental results are sticky, and they carry far more bits than any format
keeps. Flags are five bits: invalid 1, divide by zero 2, overflow 4, underflow 8, inexact 16.
-/

namespace Sys2Proof.Machine

/-- Exact values (R80). A zero has m = 0 and keeps its sign. -/
inductive Ex
  | nan
  | inf (neg : Bool)
  | fin (neg : Bool) (m : Nat) (e : Int) (sticky : Bool)
  deriving DecidableEq, Repr, Inhabited

/-- The floating-point formats (R73). -/
inductive Fmt
  | f64 | f32 | f16 | bf16 | e4m3 | e5m2
  deriving DecidableEq, Repr, Inhabited

/-- Width, precision p, bias (R73). -/
def Fmt.width : Fmt → Nat
  | .f64 => 64 | .f32 => 32 | .f16 => 16 | .bf16 => 16 | .e4m3 => 8 | .e5m2 => 8

def Fmt.p : Fmt → Nat
  | .f64 => 53 | .f32 => 24 | .f16 => 11 | .bf16 => 8 | .e4m3 => 4 | .e5m2 => 3

def Fmt.bias : Fmt → Nat
  | .f64 => 1023 | .f32 => 127 | .f16 => 15 | .bf16 => 127 | .e4m3 => 7 | .e5m2 => 15

def Fmt.emin (f : Fmt) : Int := 1 - (f.bias : Int)

/-- The pattern of the largest finite value, of +∞ and of the canonical NaN (R74). -/
def Fmt.maxPat : Fmt → Nat
  | .f64 => 0x7FEFFFFFFFFFFFFF | .f32 => 0x7F7FFFFF | .f16 => 0x7BFF | .bf16 => 0x7F7F | .e4m3 => 0x7E | .e5m2 => 0x7B

def Fmt.nan : Fmt → Nat
  | .f64 => 0x7FF8000000000000 | .f32 => 0x7FC00000 | .f16 => 0x7E00 | .bf16 => 0x7FC0 | .e4m3 => 0x7F | .e5m2 => 0x7E

def Fmt.infPat (f : Fmt) : Nat := f.maxPat + 1

def Fmt.signBit (f : Fmt) : Nat := 2 ^ (f.width - 1)

/-- The pattern of a magnitude with a sign. -/
def Fmt.signed (f : Fmt) (neg : Bool) (pat : Nat) : Nat := if neg then f.signBit + pat else pat

/-- The formats FTZ flushes (R84). -/
def Fmt.ftz : Fmt → Bool
  | .f32 | .f16 => true
  | _ => false

/-- value(bits, fmt) of R80: NaN for every NaN pattern. -/
def Fmt.value (f : Fmt) (bits : Nat) : Ex :=
  let neg := bits / f.signBit % 2 == 1
  let mag := bits % f.signBit
  if mag ≤ f.maxPat then
    let frac := mag % 2 ^ (f.p - 1)
    let ex := mag / 2 ^ (f.p - 1)
    if ex = 0 then .fin neg frac (f.emin - (f.p - 1 : Nat)) false
    else .fin neg (2 ^ (f.p - 1) + frac) ((ex : Int) - f.bias - (f.p - 1 : Nat)) false
  else if mag = f.infPat ∧ f ≠ .e4m3 then .inf neg
  else .nan

/-- A subnormal pattern of a format. -/
def Fmt.isSubnormal (f : Fmt) (bits : Nat) : Bool :=
  let mag := bits % f.signBit
  mag != 0 && mag / 2 ^ (f.p - 1) == 0

/-- An input under FTZ: a subnormal reads as a zero of its sign (R84). -/
def Fmt.input (f : Fmt) (ftz : Bool) (bits : Nat) : Ex :=
  if ftz && f.ftz && f.isSubnormal bits then .fin (bits / f.signBit % 2 == 1) 0 0 false else f.value bits

def Ex.isNan : Ex → Bool
  | .nan => true
  | _ => false

def Ex.isInf : Ex → Bool
  | .inf _ => true
  | _ => false

def Ex.isFin : Ex → Bool
  | .fin _ _ _ _ => true
  | _ => false

def Ex.isZero : Ex → Bool
  | .fin _ m _ st => m == 0 && !st
  | _ => false

def Ex.sign : Ex → Bool
  | .nan => false
  | .inf n => n
  | .fin n _ _ _ => n

def Ex.neg : Ex → Ex
  | .nan => .nan
  | .inf n => .inf !n
  | .fin n m e st => .fin (!n) m e st

/-- An exact integer. -/
def Ex.ofInt (i : Int) : Ex := .fin (decide (i < 0)) i.natAbs 0 false

/-- The exact product; 0 × ∞ is NaN. -/
def Ex.mul : Ex → Ex → Ex
  | .nan, _ => .nan
  | _, .nan => .nan
  | .inf a, .inf b => .inf (a != b)
  | .inf a, .fin b m _ _ => if m = 0 then .nan else .inf (a != b)
  | .fin b m _ _, .inf a => if m = 0 then .nan else .inf (a != b)
  | .fin a m e _, .fin b n f _ => .fin (a != b) (m * n) (e + f) false

/-- The signed integer mantissa at exponent `e0`, at or below the value's own. -/
def scaled (neg : Bool) (m : Nat) (e e0 : Int) : Int :=
  let v : Int := m * 2 ^ (e - e0).toNat
  if neg then -v else v

/-- The exact sum; an exact zero is −0 only in RD or when both terms are −0 (R81). -/
def Ex.add (rd : Bool) : Ex → Ex → Ex
  | .nan, _ => .nan
  | _, .nan => .nan
  | .inf a, .inf b => if a == b then .inf a else .nan
  | .inf a, .fin _ _ _ _ => .inf a
  | .fin _ _ _ _, .inf b => .inf b
  | .fin a m e _, .fin b n f _ =>
    if m = 0 ∧ n = 0 then .fin (if a == b then a else rd) 0 0 false
    else if m = 0 then .fin b n f false
    else if n = 0 then .fin a m e false
    else
      let e0 := min e f
      let v := scaled a m e e0 + scaled b n f e0
      if v = 0 then .fin rd 0 0 false else .fin (decide (v < 0)) v.natAbs e0 false

/-- Bits of a number; 0 for 0. -/
def bitLen (m : Nat) : Nat := if m = 0 then 0 else Nat.log2 m + 1

/-- The quotient of finite values, the divisor not zero, with at least 128 bits. -/
def Ex.divFin (a : Bool) (m : Nat) (e : Int) (b : Bool) (n : Nat) (f : Int) : Ex :=
  let s := 128 + bitLen n - min (bitLen m) (128 + bitLen n)
  let t := m * 2 ^ s
  .fin (a != b) (t / n) (e - f - (s : Nat)) (t % n != 0)

/-- The exact quotient; x/0 is ±∞, 0/0 and ∞/∞ are NaN. -/
def Ex.div : Ex → Ex → Ex
  | .nan, _ => .nan
  | _, .nan => .nan
  | .inf _, .inf _ => .nan
  | .inf a, .fin b _ _ _ => .inf (a != b)
  | .fin a _ _ _, .inf b => .fin (a != b) 0 0 false
  | .fin a m e _, .fin b n f _ =>
    if n = 0 then (if m = 0 then .nan else .inf (a != b))
    else if m = 0 then .fin (a != b) 0 0 false
    else Ex.divFin a m e b n f

/-- The integer square root, one bit at a time from bit `k` − 1 down. -/
def isqrtFrom (n : Nat) : Nat → Nat → Nat
  | 0, r => r
  | k + 1, r => let c := r + 2 ^ k; isqrtFrom n k (if c * c ≤ n then c else r)

/-- The integer square root. -/
def isqrt (n : Nat) : Nat := isqrtFrom n (bitLen n / 2 + 1) 0

/-- The root of m × 2^e with at least 100 bits. -/
def sqrtMag (m : Nat) (e : Int) : Nat × Int × Bool :=
  let k : Nat := 200 + (if (e - 200) % 2 = 0 then 0 else 1)
  let n := m * 2 ^ k
  let r := isqrt n
  (r, (e - (k : Nat)) / 2, r * r != n)

/-- √x: √−0 is −0, below −0 NaN (R134). -/
def Ex.sqrt : Ex → Ex
  | .nan => .nan
  | .inf n => if n then .nan else .inf false
  | .fin n m e _ =>
    if m = 0 then .fin n 0 0 false
    else if n then .nan
    else let r := sqrtMag m e; .fin false r.1 r.2.1 r.2.2

/-- 1/√x (R134): ±0 gives ±∞. -/
def Ex.rsqrt : Ex → Ex
  | .nan => .nan
  | .inf n => if n then .nan else .fin false 0 0 false
  | .fin n m e _ =>
    if m = 0 then .inf n
    else if n then .nan
    else
      let s : Nat := 2 * bitLen m + 400 + (if e % 2 = 0 then 0 else 1)
      let d := 2 ^ s / m
      let r := isqrt d
      .fin false r ((-e - (s : Nat)) / 2) (r * r * m != 2 ^ s)

/-- x < y on values that are not NaN, with −0 equal to +0. -/
def Ex.lt : Ex → Ex → Bool
  | .nan, _ => false
  | _, .nan => false
  | .inf a, .inf b => a && !b
  | .inf a, .fin _ _ _ _ => a
  | .fin _ _ _ _, .inf b => !b
  | .fin a m e _, .fin b n f _ => let e0 := min e f; decide (scaled a m e e0 < scaled b n f e0)

/-- x = y on values that are not NaN, with −0 equal to +0. -/
def Ex.eq : Ex → Ex → Bool
  | .nan, _ => false
  | _, .nan => false
  | .inf a, .inf b => a == b
  | .fin a m e _, .fin b n f _ => let e0 := min e f; decide (scaled a m e e0 = scaled b n f e0)
  | _, _ => false

/-- How a rounding is made: mode 1 to 6 (R61), the 16 random bits of SR (R83), FTZ, F8SAT, and overflow to the largest
finite value whatever the format (R225). -/
structure Rnd where
  rm : Nat := 1
  r : Nat := 0
  ftz : Bool := false
  f8sat : Bool := false
  sat : Bool := false
  deriving DecidableEq, Repr, Inhabited

/-- The kept integer and whether it is inexact, for the magnitude m × 2^e (and more, with `st`) at ulp 2^q (R82, R83). -/
def roundMag (c : Rnd) (neg : Bool) (m : Nat) (e : Int) (st : Bool) (q : Int) : Nat × Bool :=
  if q ≤ e then (m * 2 ^ (e - q).toNat, false)
  else
    let sh := (q - e).toNat
    let n := m / 2 ^ sh
    let rem := m % 2 ^ sh
    let half := 2 ^ (sh - 1)
    let inexact := rem != 0 || st
    let up :=
      match c.rm with
      | 1 => half < rem || (rem == half && (st || n % 2 == 1))
      | 3 => inexact && !neg
      | 4 => inexact && neg
      | 5 => half ≤ rem
      | 6 => 65536 ≤ rem * 65536 / 2 ^ sh + c.r
      | _ => false
    (if up then n + 1 else n, inexact)

/-- The replacement of an overflowed result (R81). -/
def overflowPat (f : Fmt) (c : Rnd) (neg : Bool) : Nat :=
  let toInf :=
    match c.rm with
    | 2 => false
    | 3 => !neg
    | 4 => neg
    | _ => true
  if c.sat || (c.f8sat && (f == .e4m3 || f == .e5m2)) then f.signed neg f.maxPat
  else if toInf then (if f == .e4m3 then f.nan else f.signed neg f.infPat)
  else f.signed neg f.maxPat

/-- round_to(x, fmt, rm) of R81, R82, R84: pattern and flags.
DEDUCED: log entry 11, unsafe. -/
def roundTo (f : Fmt) (c : Rnd) (x : Ex) : Nat × Nat :=
  match x with
  | .nan => (f.nan, 0)
  | .inf neg =>
    if f == .e4m3 then (if c.f8sat then (f.signed neg f.maxPat, 0) else (f.nan, 1)) else (f.signed neg f.infPat, 0)
  | .fin neg m e st =>
    if m = 0 ∧ !st then (f.signed neg 0, 0)
    else
      let top : Int := (bitLen m : Int) - 1 + e
      let p1 : Int := (f.p - 1 : Nat)
      let q := max top f.emin - p1
      let (n, nx) := roundMag c neg m e st q
      let tiny := decide (top < f.emin) && decide ((roundMag c neg m e st (top - p1)).1 * 2 ^ (top - f.emin + 1).toNat
        < 2 ^ f.p ∨ top + 1 < f.emin)
      let (n', q') := if n = 2 ^ f.p then (2 ^ (f.p - 1), q + 1) else (n, q)
      let pat := if n' < 2 ^ (f.p - 1) then n' else (q' + p1 + f.bias).toNat * 2 ^ (f.p - 1) + (n' - 2 ^ (f.p - 1))
      if f.maxPat < pat then (overflowPat f c neg, 4 + 16)
      else if tiny && c.ftz && f.ftz then (f.signed neg 0, 8 + 16)
      else (f.signed neg pat, (if nx then 16 else 0) + (if nx && tiny then 8 else 0))

/-- The nearest integer in a mode (R86 step 1): value and whether it differs from x. -/
def roundInt (c : Rnd) (neg : Bool) (m : Nat) (e : Int) (st : Bool) : Int × Bool :=
  let (n, nx) := roundMag c neg m e st 0
  (if neg then -(n : Int) else n, nx)

/-- to_int(x, width, signed, rm) of R86. -/
def toInt (c : Rnd) (width : Nat) (signed : Bool) (x : Ex) : Nat × Nat :=
  let lo : Int := if signed then -(2 ^ (width - 1)) else 0
  let hi : Int := if signed then 2 ^ (width - 1) - 1 else 2 ^ width - 1
  let pat (i : Int) : Nat := (i % 2 ^ width).toNat
  match x with
  | .nan => (0, 1)
  | .inf neg => (pat (if neg then lo else hi), 1)
  | .fin neg m e st =>
    let (i, nx) := roundInt c neg m e st
    if i < lo then (pat lo, 1) else if hi < i then (pat hi, 1) else (pat i, if nx then 16 else 0)

/-- The element v(c, T) of R77, in eighths, with the sign that a zero keeps. -/
def n4Eighths (t c : Nat) : Bool × Nat :=
  let mag := c % 8
  let neg := c / 8 % 2 == 1
  match t with
  | 0 => if neg then (true, 8 * (16 - c)) else (false, 8 * c)
  | 1 => (neg, match mag with | 0 => 0 | 1 => 4 | 2 => 8 | 3 => 12 | 4 => 16 | 5 => 24 | 6 => 32 | _ => 48)
  | 2 => (neg, match mag with | 0 => 0 | 1 => 1 | 2 => 2 | 3 => 4 | 4 => 8 | 5 => 16 | 6 => 32 | _ => 64)
  | _ => (neg, match mag with | 0 => 0 | 1 => 8 | 2 => 16 | 3 => 24 | 4 => 32 | 5 => 48 | 6 => 80 | _ => 128)

/-- The value of a 4-bit code under a scale byte (R77): v(c, T) × 2^(X − 32); X = 63 makes it NaN. -/
def n4Value (scale c : Nat) : Ex :=
  let x := scale % 64
  if x = 63 then .nan
  else let (neg, m) := n4Eighths (scale / 64 % 4) (c % 16); .fin neg m ((x : Int) - 35) false

/-- The codes of a type with their values, as signed eighths, that an encoding may choose: code 0b0000 stands for zero. -/
def n4Codes (t : Nat) : List (Nat × Int) :=
  (List.range 16).filterMap fun c =>
    let (neg, m) := n4Eighths t c
    if m = 0 ∧ c ≠ 0 then none else some (c, if neg then -(m : Int) else m)

/-- The magnitude index by which RN breaks a tie: the integer for I4, the index c[2:0] otherwise (R79). -/
def n4Even (t c : Nat) : Bool := if t = 0 then c % 2 == 0 else c % 8 % 2 == 0

/-- Encoding under a scale byte (R79): code and flags. -/
def n4Encode (c : Rnd) (scale : Nat) (x : Ex) : Nat × Nat :=
  let t := scale / 64 % 4
  let xs := scale % 64
  if xs = 63 then (0, 1)
  else
    let codes := n4Codes t
    let top := codes.foldl (fun a b => if a.2 < b.2 then b else a) (0, 0)
    let bot := codes.foldl (fun a b => if b.2 < a.2 then b else a) (0, 0)
    match x with
    | .nan => (0, 1)
    | .inf neg => (if neg then bot.1 else top.1, 4 + 16)
    | .fin neg m e st =>
      -- y in units of 2^e0 eighths, doubled against the sticky bit
      let ey := e - ((xs : Int) - 35)
      let e0 := min ey 0
      let y := 2 * scaled neg m ey e0 + (if st then (if neg then -1 else 1) else 0)
      let val (v : Int) : Int := 2 * v * 2 ^ (-e0).toNat
      if val top.2 < y then (top.1, 4 + 16)
      else if y < val bot.2 then (bot.1, 4 + 16)
      else
        let below := codes.foldl (fun a b => if val b.2 ≤ y ∧ val a.2 < val b.2 then b else a) bot
        let above := codes.foldl (fun a b => if y ≤ val b.2 ∧ val b.2 < val a.2 then b else a) top
        if val below.2 = y then (below.1, 0)
        else
          let dl := y - val below.2
          let dh := val above.2 - y
          let pick :=
            match c.rm with
            | 1 => if dl < dh then below else if dh < dl then above else if n4Even t below.1 then below else above
            | 3 => above
            | 4 => below
            | 5 => if dl < dh then below else if dh < dl then above else if y < 0 then below else above
            | _ => if y < 0 then above else below
          (pick.1, 16)

/-- gen(k, c, i) of R87. -/
def gen (k c : BitVec 64) (i : Nat) : Nat :=
  let z := ((c <<< 8) ||| BitVec.ofNat 64 i) ^^^ k
  let z := (z ^^^ (z >>> 30)) * 0xBF58476D1CE4E5B9
  let z := (z ^^^ (z >>> 27)) * 0x94D049BB133111EB
  let z := z ^^^ (z >>> 31)
  z.toNat / 2 ^ 32

/-- group_sum of R89 over pairs of exact values; an exact zero is −0 where every term is, or with `rd` unless every term is +0.
DEDUCED: log entry 59, unsafe. -/
def groupSum (rd : Bool) (ps : List (Ex × Ex)) : Ex :=
  let prods := ps.map fun q => q.1.mul q.2
  if prods.any Ex.isNan then .nan
  else if prods.contains (.inf false) && prods.contains (.inf true) then .nan
  else if prods.contains (.inf false) then .inf false
  else if prods.contains (.inf true) then .inf true
  else prods.tail.foldl (Ex.add rd) (prods.headD (.fin false 0 0 false))

/-- accumulate of R89 on FP32 patterns.
DEDUCED: log entry 59, unsafe. -/
def accumulate (acc : Nat) (s : Ex) : Nat :=
  let a := Fmt.f32.value acc
  if a.isNan || s.isNan then Fmt.f32.nan
  else if s.isZero then acc
  else (roundTo .f32 {} (a.add false s)).1

/-- bf16_rz and bf16_rn of R80. -/
def bf16Of (rm : Nat) (x : Ex) : Nat := (roundTo .bf16 { rm := rm } x).1

/-- The signed value of a w-bit pattern. -/
def signedOf (w bits : Nat) : Int := if bits % 2 ^ w < 2 ^ (w - 1) then (bits % 2 ^ w : Nat) else (bits % 2 ^ w : Nat) - 2 ^ w

/-- The pattern of an integer in w bits. -/
def patOf (w : Nat) (i : Int) : Nat := (i % 2 ^ w).toNat

end Sys2Proof.Machine
end

