-- ==== Sys2Proof/Machine/Regs.lean ====
section
/-!
DEFINITION. Strands, threads and registers: the operations that read and write them (R22 to R29), poison on reading (R346),
and the fields of the control registers (R37 to R49).
-/

namespace Sys2Proof.Machine

/-- The numbers of the set bits of a mask, ascending. -/
def maskBits (m : BitVec 32) : List Nat := (List.range 32).filter fun i => m.getLsbD i

def maskOf (l : List Nat) : BitVec 32 := l.foldl (fun m i => m ||| BitVec.twoPow 32 i) 0

def State.strand (s : State) (u : Nat) : Strand := sget default s.strands u

def State.modStrand (s : State) (u : Nat) (f : Strand → Strand) : State := { s with strands := smod s.strands u f }

/-- A new number for a strand, skein, launch, region, store, copy or operation. -/
def State.newId (s : State) : Nat × State := (s.uid, { s with uid := s.uid + 1 })

def Strand.thread (st : Strand) (i : Nat) : Thread := st.threads.getD i default

def Strand.modThreads (st : Strand) (m : BitVec 32) (f : Thread → Thread) : Strand :=
  { st with threads := st.threads.mapIdx fun i t => if m.getLsbD i then f t else t }

/-- The live threads (R28). -/
def Strand.liveMask (st : Strand) : BitVec 32 := maskOf ((List.range st.threads.length).filter fun i => (st.thread i).live)

/-- The threads of a mask in ascending lane order (R28). -/
def Strand.byLane (st : Strand) (m : BitVec 32) : List Nat :=
  (List.range 32).filterMap fun l => (maskBits m).find? fun i => (st.thread i).lane == l && i < st.threads.length

/-- The lane mask of threads; a protected thread has both lanes of its pair (R27). -/
def Strand.laneMask (st : Strand) (ts : List Nat) : BitVec 32 :=
  maskOf (ts.flatMap fun i => let l := (st.thread i).lane; if st.prot then [l, l + 1] else [l])

/-- The lowest lane's thread of a mask. -/
def Strand.lowest (st : Strand) (m : BitVec 32) : Nat := (st.byLane m).headD 0

def State.ctxOf (s : State) (st : Strand) : Nat := (s.launch st.launch).ctx

/-- For whom a strand's access is made; `lane` selects its partition's last-page register (R287). -/
def Strand.who (s : State) (st : Strand) (lane : Option Nat) : Who :=
  { ctx := s.ctxOf st, core := st.core, sys := st.sys, skein := st.skein, lane := lane.map (st.part * 32 + ·) }

def dieOfCore (core : Nat) : Nat := core / 32

/-- The launch is deterministic (R303). -/
def isDet (l : Launch) : Bool := l.msg.mode / 4 % 2 == 1

/-! ### Words -/

/-- The value a poisoned word reads as (R346). -/
def poisonWord : Word := 0x7FC00000

/-- An operand as read: words (lowest first), one tag (R25), whether poison was consumed. -/
structure Opd where
  words : List Word := []
  tag : Tag := 0
  poison : Bool := false
  deriving DecidableEq, Repr, Inhabited

/-- The first word. -/
def Opd.w (o : Opd) : Word := o.words.headD 0

/-- The words as one number. -/
def Opd.val (o : Opd) : Nat := o.words.foldr (fun w n => w.toNat + 2 ^ 32 * n) 0

/-- A 64-bit operand. -/
def Opd.d (o : Opd) : BitVec 64 := BitVec.ofNat 64 o.val

/-- The n words of a register, pair or quad; code 0 is the constant (R24). A poisoned pair reads as poison in both words. -/
def readWords (m : Sparse TWord) (code n : Nat) : Opd :=
  let ws := (upFrom code n).map fun r => if r = 0 then ({} : TWord) else sget {} m r
  let bad := ws.any fun w => w.chk = .poison
  { words := ws.map fun w => if w.chk = .poison || (bad && n == 2) then poisonWord else w.val
    tag := if n = 1 then (ws.headD {}).tag else sectorMerge (ws.map (·.tag))
    poison := bad }

/-- Words written with one tag; register 0 discards its part (R24, R25). -/
def writeWords (m : Sparse TWord) (code : Nat) (ws : List Word) (tag : Tag) : Sparse TWord :=
  (ws.zipIdx code).foldl (fun m w => if w.2 = 0 then m else sput {} m w.2 { val := w.1, tag := tag }) m

/-- The n words of a number, lowest first. -/
def wordsOfNat (n x : Nat) : List Word := (List.range n).map fun j => BitVec.ofNat 32 (x / 2 ^ (32 * j))

def Thread.readV (t : Thread) (code n : Nat) : Opd := readWords t.v code n

def Thread.writeV (t : Thread) (code : Nat) (ws : List Word) (tag : Tag) : Thread := { t with v := writeWords t.v code ws tag }

def Strand.readS (st : Strand) (code n : Nat) : Opd := readWords st.s code n

def Strand.writeS (st : Strand) (code : Nat) (ws : List Word) (tag : Tag) : Strand := { st with s := writeWords st.s code ws tag }

/-- A predicate; p7 and k7 read as true (R24). -/
def predBit (p : BitVec 8) (i : Nat) : Bool := i == 7 || p.getLsbD i

/-- A predicate written; a write of p7 or k7 is discarded (R24). -/
def setPred (p : BitVec 8) (i : Nat) (b : Bool) : BitVec 8 :=
  if i = 7 then p else if b then p ||| BitVec.twoPow 8 i else p &&& ~~~BitVec.twoPow 8 i

/-! ### Raw check bits of register words (R345, R357) -/

/-- A word as a read finds it, with what was counted: nothing, a corrected or an uncorrectable error. -/
def settleWord (w : TWord) : TWord × Option Bool :=
  match w.chk with
  | .raw bits =>
    if bits = 0x7F ∧ w.val = 0 then ({ w with chk := .poison }, none)
    else
      match correct regOk 55 (w.tag.toNat + 2 ^ 16 * w.val.toNat + 2 ^ 48 * bits) with
      | some (x, fixed) =>
        ({ val := BitVec.ofNat 32 (x / 2 ^ 16), tag := BitVec.ofNat 16 x, chk := .ok }, if fixed then some false else none)
      | none => ({ val := 0, tag := w.tag, chk := .poison }, some true)
  | _ => (w, none)

/-- A register file with its raw words settled where `used`, and the errors met with their register numbers. -/
def settleFile (m : Sparse TWord) (used : Nat → Bool) : Sparse TWord × List (Nat × Bool) :=
  let rs := m.map fun e => if used e.1 then (e.1, settleWord e.2) else (e.1, (e.2, none))
  ((rs.map fun e => (e.1, e.2.1)).filter fun e => e.2 ≠ {}, rs.filterMap fun e => e.2.2.map fun f => (e.1, f))

/-- Settle the raw words of a strand's threads (those of the mask) and uniform file that an instruction reads. -/
def State.settleRegs (s : State) (u : Nat) (m : BitVec 32) (usedV usedS : Nat → Bool) : State :=
  let st := s.strand u
  let raw (f : Sparse TWord) : Bool := f.any fun e => match e.2.chk with | .raw _ => true | _ => false
  if !(raw st.s || st.threads.any fun t => raw t.v) then s
  else
    let (f, es) := settleFile st.s usedS
    let ths := st.threads.mapIdx fun i t =>
      if m.getLsbD i then let r := settleFile t.v usedV; ({ t with v := r.1 }, r.2) else (t, [])
    let s := s.modStrand u fun st => { st with s := f, threads := ths.map (·.1) }
    (es ++ ths.flatMap (·.2)).foldl (fun s e => s.countError (.regs st.core st.part e.1) e.2) s

/-! ### Control registers -/

/-- Bits lo to lo + n − 1 of a control register. -/
def cfld (x : BitVec 64) (lo n : Nat) : Nat := fld x.toNat lo n

/-- The register with those bits replaced. -/
def cset (x : BitVec 64) (lo n v : Nat) : BitVec 64 :=
  BitVec.ofNat 64 (x.toNat - fld x.toNat lo n * 2 ^ lo + v % 2 ^ n * 2 ^ lo)

def Strand.ftz (st : Strand) : Bool := cfld st.ctl.fctl 13 1 == 1
def Strand.f8sat (st : Strand) : Bool := cfld st.ctl.fctl 14 1 == 1
def Strand.tagEn (st : Strand) : Bool := cfld st.ctl.tctl 0 1 == 1
def Strand.mintOn (st : Strand) : Bool := cfld st.ctl.tctl 4 1 == 1
def Strand.shift (st : Strand) : Nat := cfld st.ctl.tctl 5 2
def Strand.reent (st : Strand) : Nat := cfld st.ctl.rctl 0 8
def Strand.limit (st : Strand) : Nat := cfld st.ctl.rctl 8 8
def Strand.depth (st : Strand) : Nat := st.spans.length

def Strand.setReent (st : Strand) (n : Nat) : Strand :=
  { st with ctl := { st.ctl with rctl := cset st.ctl.rctl 0 8 (min n 255) } }

/-- An event that sets CHKI bits: POISON 1, LMREC 2, REERR 4, UNWOUND 8; COUNT saturates (R40). -/
def Strand.chkiEvent (st : Strand) (bits : Nat) : Strand :=
  let c := st.ctl.chki
  let c' := cset (c ||| BitVec.ofNat 64 bits) 16 16 (min (cfld c 16 16 + 1) 0xFFFF)
  { st with ctl := { st.ctl with chki := c' } }

/-- GSPAN as the open spans give it, with LASTCAUSE (R44). -/
def Strand.setGspan (st : Strand) (cause : Nat) : Strand :=
  let unwp := (st.spans.zipIdx 3).foldl (fun n x => n + bit x.1.p * 2 ^ x.2) 0
  { st with ctl := { st.ctl with gspan := BitVec.ofNat 64 (cause * 256 + unwp + st.spans.length) } }

/-- Some open span unwinds on poison (R347). -/
def Strand.poisonSpan (st : Strand) : Bool := st.spans.any (·.p)

/-! ### The save slot (R332, R333) -/

/-- S0 of a skein block (R332), in bytes. -/
def slotsStart (scratch n nstrand : Nat) : Nat :=
  let scr := roundScratch scratch
  let accb := 4096 * ((4 * n + 4112 + n / 32 + 4095) / 4096) + 12288
  let a0 := 4096 * ((0x2000 + scr + scr / 16 + 4095) / 4096)
  0x20000 * ((a0 + nstrand * accb + 0x1FFFF) / 0x20000)

/-- BLKSIZE of a context, read from its save area header (R331). -/
def blkSize (s : State) (ctx : Nat) : Nat := ((devGet s ctx (s.context ctx).area 4).map ofBytes).getD 0

/-- The virtual address of a skein's block. -/
def blockVA (s : State) (ctx block : Nat) : Nat := (s.context ctx).area + 0x20000 + block * blkSize s ctx

/-- The launch parameters that size a skein: a continuation has one strand, no scratchpad, no accumulator (R315). -/
def skeinShape (l : Launch) (cont : Bool) : Nat × Nat × Nat :=
  if cont then (0, 0, 1) else (l.msg.scratch, l.msg.acc * 256, l.msg.nstrand)

/-- The virtual address of a strand's slot. -/
def slotVA (s : State) (st : Strand) : Nat :=
  let l := s.launch st.launch
  let (scr, n, ns) := skeinShape l st.cont
  match sfind s.skeins st.skein with
  | none => 0
  | some k => blockVA s l.ctx k.block + slotsStart scr n ns + 0x20000 * st.idx

/-- A device write into a strand's slot (R390). -/
def slotWrite (s : State) (u off : Nat) (bs : List Byte) : State :=
  let st := s.strand u
  devWrite s (s.ctxOf st) (dieOfCore st.core) (slotVA s st + off) bs

end Sys2Proof.Machine
end

