-- ==== Sys2Proof/Machine/Ops.lean ====
section
/-!
DEFINITION. The operations that the instructions share: the wait table (R290 to R292), births (R103 to R110), regions and
the commit of their stores (R161 to R168), re-entry and unwinding (R165, R172), taking a trap and returning from it (R174,
R175), and the end of a strand.
-/

namespace Sys2Proof.Machine

/-! ### The wait table -/

/-- The first index i below 64 such that i to i + n − 1 are free. -/
def freeRun (used : List Nat) (n : Nat) : Option Nat :=
  (List.range 64).find? fun i => i + n ≤ 64 && (upFrom i n).all fun j => !used.contains j

/-- The token of an entry (R292). -/
def tokenOf (core gen idx : Nat) : Nat := core / 32 * 2 ^ 29 + core % 32 * 2 ^ 24 + gen % 256 * 2 ^ 16 + idx

/-- The fault message for new entries on a core, given as (page, write, fetch) (R291). -/
def faultMessage (ctx core token : Nat) (ps : List (Nat × Bool × Bool)) : List Byte :=
  let wm := (ps.zipIdx).foldl (fun n p => n + bit p.1.2.1 * 2 ^ p.2) 0
  let xm := (ps.zipIdx).foldl (fun n p => n + bit p.1.2.2 * 2 ^ p.2) 0
  message ([(0, 1, 1), (1, 1, ps.length), (2, 2, ctx), (4, 2, core), (6, 1, wm), (7, 1, xm), (8, 4, token)] ++
    (ps.zipIdx).map fun p => (16 + 6 * p.2, 6, p.1.1))

/-- New entries at consecutive indices from `i`, with one generation and one message. -/
def newEntries (s : State) (core ctx i : Nat) (ps : List (Nat × Bool × Bool)) : State :=
  let c := s.core core
  let gen := (sget 0 c.gens 0 + 1) % 256
  let es : List WaitEnt := (ps.zipIdx i).map fun p =>
    { idx := p.2, ctx := ctx, page := p.1.1, gen := gen, w := p.1.2.1, x := p.1.2.2, sent := true }
  let s := s.setCore core { c with waits := c.waits ++ es, gens := sput 0 c.gens 0 gen }
  deliver s ctx (core / 32) 1 (faultMessage ctx core (tokenOf core gen i) ps)

/-- Attach to the wait-table entries of 4 KiB pages, given as (page, write, fetch); missing entries are created and sent in
one message where consecutive entries are free. None: all entries are in use (R290). -/
def waitPages (s : State) (core ctx : Nat) (ps : List (Nat × Bool × Bool)) : Option State :=
  let c := s.core core
  let known (p : Nat) : Bool := c.waits.any fun e => e.ctx == ctx && e.page == p
  let fresh := ps.filter fun p => !known p.1
  let used := c.waits.map (·.idx)
  if fresh.isEmpty then some s
  else
    match freeRun used fresh.length with
    | some i => some (newEntries s core ctx i fresh)
    | none =>
      if 64 < used.length + fresh.length then none
      else some (fresh.foldl (fun s p =>
        match freeRun ((s.core core).waits.map (·.idx)) 1 with
        | some i => newEntries s core ctx i [p]
        | none => s) s)

/-- One page taken out of a list of pages waited for. -/
def dropPage (page : Nat) (ps : List Nat) : List Nat := ps.filter (· != page)

/-! ### Births -/

/-- What a birth records (R103, R105). -/
structure Birth where
  kind : Nat
  lane : Nat := 0
  fmt : Nat := 0
  flags : Nat := 0
  a : Tag := 0
  b : Tag := 0
  c : Tag := 0
  result : Word := 0
  aux : Nat := 0
  deriving DecidableEq, Repr, Inhabited

/-- The 32 bytes of a record (R105). -/
def birthBytes (pc : BitVec 62) (launch sid : Nat) (r : Birth) : List Byte :=
  toBytes 8 (pc.toNat * 4) ++ toBytes 4 launch ++ toBytes 4 sid ++ toBytes 1 r.lane ++ toBytes 1 r.kind ++
    toBytes 1 r.fmt ++ toBytes 1 r.flags ++ toBytes 2 r.a.toNat ++ toBytes 2 r.b.toNat ++ toBytes 2 r.c.toNat ++
    toBytes 4 r.result.toNat ++ toBytes 2 r.aux

/-- site_tag() (R95). -/
def siteTag (s : State) (st : Strand) (pc : BitVec 62) : Tag :=
  let base := (s.launch st.launch).msg.code / 4
  if pc.toNat < base then 0x7FFF
  else 0x4000 ||| BitVec.ofNat 16 (min ((pc.toNat - base) / 2 ^ st.shift) 0x3FFF)

/-- The next birth index of a strand (R108, R109). None: the table is full, and BTFULL is set (R104). -/
def takeIndex (s : State) (u : Nat) : Option Nat × State :=
  let st := s.strand u
  let l := s.launch st.launch
  let full := (none, s.modStrand u fun st => { st with ctl := { st.ctl with tctl := st.ctl.tctl ||| 0x80 } })
  if isDet l then
    let n := cfld st.ctl.btnext 0 15
    if cfld st.ctl.btnext 16 15 ≤ n ∨ n = 0x3FFF then full
    else (some n, s.modStrand u fun st => { st with ctl := { st.ctl with btnext := cset st.ctl.btnext 0 15 (n + 1) } })
  else
    match st.reserved with
    | n :: rest => (some n, s.modStrand u fun st => { st with reserved := rest })
    | [] =>
      if 0x3FFF ≤ l.btnext then full
      else (some l.btnext, s.modLaunch st.launch fun l => { l with btnext := l.btnext + 1 })

def birthVA (st : Strand) (n : Nat) : Nat := cfld st.ctl.btbase 5 51 * 32 + 32 * n

/-- The byte address of a thread's region start. -/
def Strand.startOf (st : Strand) (i : Nat) : BitVec 62 :=
  match st.regions.find? fun r => r.id == (st.thread i).region with
  | some r => r.start
  | none => (st.thread i).pc

/-- mint (R103) for an instruction of threads `own`: the record is held with their regions (R110). -/
def mint (s : State) (u : Nat) (pc : BitVec 62) (own : List Nat) (uniform : Bool) (r : Birth) : Tag × State :=
  match takeIndex s u with
  | (none, s) => (0xBFFF, s)
  | (some n, s) =>
    let st := s.strand u
    let (seq, s) := s.newId
    let bytes := birthBytes pc (s.launch st.launch).num st.sid r
    let lanes : List StLane := own.map fun i =>
      { thread := i, region := (st.thread i).region, lane := (st.thread i).lane, addr := birthVA st n, tag := 0, bytes := bytes }
    let e : BufStore := { seq := seq, kind := .birth n uniform, pc := pc, site := siteTag s st pc, size := 0,
                          rstart := st.startOf (own.headD 0), lanes := lanes }
    (0x8000 ||| BitVec.ofNat 16 (n % 2 ^ 14), s.modStrand u fun st => { st with buf := st.buf ++ [e] })

/-! ### The bobbin -/

/-- Skeins of the grid, strands per skein. -/
def gridSkeins (l : Launch) : Nat := l.msg.gridx * l.msg.gridy

/-- Hank and rank of a skein (R312); a continuation reads hank 0xFFFF_FFFF and rank 0 (R315). -/
def hankOf (l : Launch) (idx : Nat) : Nat :=
  if gridSkeins l ≤ idx then 0xFFFFFFFF
  else idx % l.msg.gridx / l.msg.hankx + idx / l.msg.gridx / l.msg.hanky * (l.msg.gridx / l.msg.hankx)

def rankOf (l : Launch) (idx : Nat) : Nat :=
  if gridSkeins l ≤ idx then 0
  else idx % l.msg.gridx % l.msg.hankx + idx / l.msg.gridx % l.msg.hanky * l.msg.hankx

/-- A strand of the launch that has ended, been terminated, or whose hank has retired; continuations not formed do not count. -/
def sidEnded (s : State) (key sid : Nat) : Bool :=
  let l := s.launch key
  match s.strands.find? fun x => x.2.launch = key ∧ x.2.sid = sid with
  | some x => x.2.phase = .ended ∨ x.2.phase = .terminated
  | none =>
    let idx := sid / max l.msg.nstrand 1
    if gridSkeins l ≤ idx then sid % max l.msg.nstrand 1 != 0 || gridSkeins l + l.contCount ≤ idx || l.retired.contains (2 ^ 32 + idx)
    else l.retired.contains (hankOf l idx)

/-- The first identifier from `n` on that has not ended, among `fuel`. -/
def nextSid (s : State) (key : Nat) : Nat → Nat → Option Nat
  | 0, _ => none
  | fuel + 1, n => if sidEnded s key n then nextSid s key fuel (n + 1) else some n

/-- The bobbin goes from its holder to the next larger identifier, and from the largest to the smallest (R202). -/
def passBobbin (s : State) (key : Nat) : State :=
  let l := s.launch key
  let total := (gridSkeins l + l.contCount) * l.msg.nstrand
  match nextSid s key (total - (l.holder + 1)) (l.holder + 1) with
  | some n => s.modLaunch key fun l => { l with holder := n }
  | none =>
    match nextSid s key (l.holder + 1) 0 with
    | some n => s.modLaunch key fun l => { l with holder := n }
    | none => s

def holdsBobbin (s : State) (st : Strand) : Bool := (s.launch st.launch).holder == st.sid

/-! ### Commit -/

/-- A range of bytes overlaps an entry of a core's range scoreboard (R182, R183) that was made before number `seq`. -/
def rangeHeld (s : State) (core ctx va n seq : Nat) : Bool :=
  (s.core core).score.any fun e => e.1 < seq && e.2.1 == ctx && va < e.2.2.2 && e.2.2.1 < va + n

/-- 64-byte lines that pieces touch and the host may hold (R379). -/
def heldLines (s : State) (ps : List Piece) : List Nat :=
  (ps.flatMap fun p => (blocksOf 64 p.1 p.2.1.length).map (· / 64)).dedup.filter s.link.lines.contains

/-- Back-invalidations sent for lines. -/
def State.snoop (s : State) (ls : List Nat) : State :=
  { s with link := { s.link with snoops := s.link.snoops ++ ls.filter fun l => !s.link.snoops.contains l } }

/-- A request handed to the fabric (R328, R381): the next sequence number of its flow, and the packet sent. -/
def State.sendPeer (s : State) (type vc gang drank srank addr rtag : Nat) (ops : BitVec 256) (payload : List Byte) : State :=
  let f := s.fabric
  let mine (e : Nat × Nat × Nat × Nat × Nat) : Bool := e.1 == gang && e.2.1 == srank && e.2.2.1 == drank && e.2.2.2.1 == vc
  let n := ((f.send.find? mine).map (·.2.2.2.2)).getD 0
  let p : OutPacket := { type := type, vc := vc, gang := gang, drank := drank, srank := srank, seq := n, addr := addr,
                         rtag := rtag, ops := ops, payload := payload }
  { s with fabric := { f with out := f.out ++ [p]
                              send := f.send.filter (fun e => !mine e) ++ [(gang, srank, drank, vc, (n + 1) % 2 ^ 32)] } }

/-- The gang rank behind a context's peer slot; none where the slot is invalid (R279). -/
def peerRank (s : State) (ctx slot : Nat) : Option Nat :=
  let e := sget 0 (s.context ctx).peers slot
  if e.getLsbD 31 then some (e.toNat % 2 ^ 14) else none

/-- The response tag of a strand's request (R328). -/
def respTag (s : State) (st : Strand) (seq : Nat) : Nat := s.ctxOf st * 2 ^ 48 + st.sid * 2 ^ 16 + seq % 2 ^ 16

/-- What came of an attempt to commit an entry. -/
inductive Commit
  | done (s : State) | parked (ps : List Nat) (s : State) | bobbin | held (s : State)

/-- A store-fault record (R297, R335). -/
def recordBytes (e : BufStore) (va : Nat) (data : List Byte) (lanes : BitVec 32) (sub : Nat) (tag : Tag) : List Byte :=
  let kind := match e.kind with | .st => e.size | .sst => e.size + 8 | .birth _ _ => 16
  toBytes 8 va ++ (data ++ List.replicate 16 0).take 16 ++ toBytes 4 lanes.toNat ++ toBytes 2 e.site.toNat ++ toBytes 1 sub ++
    toBytes 1 kind ++ toBytes 8 (e.rstart.toNat * 4) ++ toBytes 8 (e.pc.toNat * 4) ++ toBytes 2 tag.toNat ++
    List.replicate 14 0

/-- Append a record to the strand's queue (R48): 16 held, it is dropped and LOST is set. -/
def appendRecord (s : State) (u : Nat) (bytes : List Byte) : State :=
  let st := s.strand u
  let q := st.ctl.stfq
  let count := cfld q 4 5
  if 16 ≤ count then s.modStrand u fun st => { st with ctl := { st.ctl with stfq := st.ctl.stfq ||| 0x200 } }
  else
    let s := devWrite s (s.ctxOf st) (dieOfCore st.core) (cfld q 12 44 * 4096 + 64 * ((cfld q 0 4 + count) % 16)) bytes
    s.modStrand u fun st =>
      { st with ctl := { st.ctl with stfq := cset st.ctl.stfq 4 5 (count + 1) }, arrivals := st.arrivals + 1 }

/-- One lane of an entry translated: pieces, absent pages, faults, strong shared pages, peers. -/
structure Sorted where
  s : State
  pieces : List Piece := []
  absent : List Nat := []
  bad : List (StLane × XFault) := []
  shared : Bool := false
  peers : List (Nat × Nat × StLane) := []

def sortLane (w : Who) (r : Sorted) (l : StLane) : Sorted :=
  if l.bytes.isEmpty then r
  else
    match translate r.s w .store l.addr l.bytes.length with
    | (.absent, s) => { r with s := s, absent := r.absent ++ [l.addr / 4096] }
    | (.bad f, s) => { r with s := s, bad := r.bad ++ [(l, f)] }
    | (.ok (.loc x) leaf, s) =>
      { r with s := s, pieces := r.pieces ++ [(x, l.bytes, l.tag)], shared := r.shared || leafOrd leaf == 2 }
    | (.ok (.peer slot pa) leaf, s) =>
      match peerRank s w.ctx slot with
      | none => { r with s := s, bad := r.bad ++ [(l, .world)] }
      | some k => { r with s := s, peers := r.peers ++ [(k, pa, l)], shared := r.shared || leafOrd leaf == 2 }

/-- The threads of an entry; 0, every thread, for a birth of a trap entry or of the matrix engine (R110). -/
def entryThreads (e : BufStore) : BitVec 32 := maskOf ((e.lanes.filter fun l => l.region != 0).map (·.thread))

/-- Check and perform a closed entry (R167, R168, R203).
DEDUCED: log entry 57, unsafe. -/
def commitEntry (s : State) (u : Nat) (e : BufStore) : Commit :=
  let st := s.strand u
  let r := e.lanes.foldl (sortLane (st.who s none)) { s := s }
  if !r.absent.isEmpty then .parked r.absent.dedup r.s
  else if r.shared && isDet (s.launch st.launch) && !holdsBobbin s st then .bobbin
  else if e.lanes.any fun l => rangeHeld s st.core (s.ctxOf st) l.addr l.bytes.length e.seq then .held r.s
  else if !(heldLines s r.pieces).isEmpty then .held (r.s.snoop (heldLines s r.pieces))
  else
    let s := noteSlots (r.s.storeAll r.pieces) r.pieces
    let l := s.launch st.launch
    let lanesOf (n : Nat) : List Nat := if st.prot && n < 32 then [n, n + 1] else [n]
    let fault (lanes : BitVec 32) (va sub : Nat) : StFault :=
      { threads := entryThreads e, own := e.own, lanes := lanes, va := va, seq := e.seq, sub := sub }
    let sent (x : StLane) : PeerStore :=
      let lanes := maskOf (lanesOf x.lane)
      { seq := e.seq, fault := fault lanes x.addr 0x25, record := recordBytes e x.addr x.bytes lanes 0x25 x.tag }
    let s := r.peers.foldl (fun s p =>
      (s.sendPeer 2 0 l.msg.gang p.1 l.msg.grank p.2.1 (respTag s st e.seq) 0 p.2.2.bytes).modStrand u fun st =>
        { st with unacked := st.unacked ++ [sent p.2.2] }) s
    match r.bad with
    | [] => .done s
    | (b, f) :: _ =>
      let lanes := maskOf (r.bad.flatMap fun x => lanesOf x.1.lane)
      let s := appendRecord s u (recordBytes e b.addr b.bytes lanes f.record b.tag)
      .done (s.modStrand u fun st => { st with stFaults := st.stFaults ++ [fault lanes b.addr f.record] })

/-- An earlier entry of the commit queue, not yet performed, shares a thread with this one (R164, R168). -/
def commitBlocked (st : Strand) (e : BufStore) : Bool :=
  (st.cq.takeWhile fun d => d.seq != e.seq).any fun d => (entryThreads d &&& entryThreads e) != 0

def setEntry (s : State) (u seq : Nat) (f : BufStore → BufStore) : State :=
  s.modStrand u fun st => { st with cq := st.cq.map fun d => if d.seq = seq then f d else d }

/-- Attempt one entry: performed entries leave the queue, absent pages park it (R168).
DESIGN CHOICE: log entry 2, unsafe. DEDUCED: log entry 57, unsafe. -/
def commitTry (s : State) (u seq : Nat) : State :=
  let st := s.strand u
  match st.cq.find? fun e => e.seq == seq with
  | none => s
  | some e =>
    let ready := match e.phase with | .parked _ => false | _ => true
    if !ready || commitBlocked st e then s
    else
      match commitEntry s u e with
      | .done s => s.modStrand u fun st => { st with cq := st.cq.filter fun d => d.seq != seq }
      | .parked ps s =>
        match waitPages s st.core (s.ctxOf st) (ps.map fun p => (p, true, false)) with
        | some s => setEntry s u seq fun d => { d with phase := .parked ps }
        | none => s
      | .bobbin => setEntry s u seq fun d => { d with phase := .bobbin }
      | .held s => s

/-- Attempt, in order, the entries that `sel` chooses. -/
def commitPass (s : State) (u : Nat) (sel : BufStore → Bool) : State :=
  (((s.strand u).cq.filter sel).map (·.seq)).foldl (fun s q => commitTry s u q) s

/-- A birth written at once: at a trap entry, or by the matrix engine (R106, R110). `lane` 32 gives no lane. -/
def mintNow (s : State) (u : Nat) (pc : BitVec 62) (lane : Nat) (r : Birth) : Tag × State :=
  match takeIndex s u with
  | (none, s) => (0xBFFF, s)
  | (some n, s) =>
    let st := s.strand u
    let (seq, s) := s.newId
    let e : BufStore :=
      { seq := seq, kind := .birth n false, pc := pc, site := siteTag s st pc, size := 0, rstart := 0
        lanes := [{ thread := 0, region := 0, lane := lane, addr := birthVA st n, tag := 0
                    bytes := birthBytes pc (s.launch st.launch).num st.sid r, closed := true }] }
    let s := s.modStrand u fun st => { st with cq := st.cq ++ [e] }
    (0x8000 ||| BitVec.ofNat 16 (n % 2 ^ 14), commitTry s u seq)

/-- The strand's own view of memory (R110, R164): its closed and buffered stores performed in order, those numbered below
`upto`. -/
def ownView (s : State) (u : Nat) (upto : Option Nat) : State :=
  let st := s.strand u
  let w := st.who s none
  ((st.cq ++ st.buf).filter fun e => upto.all fun n => e.seq < n).foldl (fun s e =>
    s.storeAll (e.lanes.filterMap fun l =>
      if l.bytes.isEmpty then none else (locate s w l.addr l.bytes.length).map fun x => (x, l.bytes, l.tag))) s

/-! ### Regions -/

/-- Regions that some thread is in, or has left for a trap. -/
def Strand.pruneRegions (st : Strand) : Strand :=
  { st with regions := st.regions.filter fun r => st.threads.any fun t => t.region == r.id || t.intr == some r.id }

/-- The region of a number opened for threads, starting at an address, with the control registers as they stand (R36, R161). -/
def openRegionAs (s : State) (u : Nat) (m : BitVec 32) (start : BitVec 62) (own : Bool) (id : Nat) : State :=
  s.modStrand u fun st =>
    let st := st.modThreads m fun t => { t with region := id }
    let r : Region := { id := id, start := start, ctl := st.ctl, own := own }
    Strand.pruneRegions { st with regions := st.regions.filter (fun x => x.id != id) ++ [r] }

/-- A new region for threads. -/
def openRegion (s : State) (u : Nat) (m : BitVec 32) (start : BitVec 62) (own : Bool) : State :=
  openRegionAs s.newId.2 u m start own s.newId.1

/-- Exited threads that close with a set: those bound to one of it, or to one so bound (R159). A thread in trap mode does not
act for the region that its trap interrupted. -/
def Strand.boundTo (st : Strand) (m : BitVec 32) : BitVec 32 :=
  let out := maskOf ((List.range st.threads.length).filter fun i => (st.thread i).exited)
  if out = 0 then 0
  else
    let acting := maskOf ((maskBits m).filter fun i => (st.thread i).intr.isNone)
    let next (b : BitVec 32) : BitVec 32 :=
      maskOf ((maskBits out).filter fun i => ((st.thread i).bound &&& (acting ||| b)) != 0)
    (List.range 32).foldl (fun b _ => next b) (next 0)

/-- The reserved indices that a closed re-entered region has not taken again, as empty records (R109). -/
def forfeits (st : Strand) (seq : Nat) (m : BitVec 32) (own : Nat) : List BufStore :=
  st.reserved.mapIdx fun j n =>
    { seq := seq + j, kind := .birth n true, pc := 0, site := 0, size := 0, rstart := 0, own := own
      lanes := (maskBits m).map fun i =>
        { thread := i, region := (st.thread i).region, lane := (st.thread i).lane, addr := birthVA st n, tag := 0
          bytes := List.replicate 32 0, closed := true } }

/-- Close the current regions of threads (R163, R164): entries wholly closed go to the commit queue, births before stores,
with `own` the region of the boundary that closed them; a mismatch is recovered (R352).
DEDUCED: log entry 24, unsafe. -/
def closeThreads (s : State) (u : Nat) (m : BitVec 32) (own : Nat) : State :=
  let st := s.strand u
  let late := st.boundTo m
  let all := m ||| late
  let shut (l : StLane) : StLane :=
    if all.getLsbD l.thread && l.region == (st.thread l.thread).region then { l with closed := true } else l
  let buf := st.buf.map fun e => { e with lanes := e.lanes.map shut }
  let (done, rest) := buf.partition fun e => e.lanes.all (·.closed)
  let isRec (e : BufStore) : Bool := match e.kind with | .birth _ _ => true | _ => false
  let again := !st.redraw.isEmpty && !(List.range st.threads.length).any fun i =>
    !all.getLsbD i && (st.thread i).live && st.redraw.contains (st.thread i).region
  let empty := if again then forfeits st s.uid m own else []
  let s := { s with uid := s.uid + empty.length }
  let mine (r : Region) : Bool := (maskBits all).any fun i => (st.thread i).region == r.id
  s.modStrand u fun st =>
    let st := if st.regions.any fun r => r.mismatch && mine r then st.chkiEvent 2 else st
    let st := { st with regions := st.regions.map fun r => if mine r then { r with mismatch := false } else r }
    let st := st.modThreads late fun t => { t with exited := false, ended := true, stack := [], bound := 0, region := 0 }
    { st.setReent 0 with
      buf := rest
      cq := st.cq ++ ((done.filter isRec ++ empty ++ done.filter fun e => !isRec e).map fun e => { e with own := own })
      reserved := if again then [] else st.reserved
      redraw := if again then [] else st.redraw }

/-- Lanes of the current regions of threads withdrawn from the buffer; what is left, and the birth indices given back. -/
def withdraw (st : Strand) (m : BitVec 32) : List BufStore × List Nat :=
  let mine (l : StLane) : Bool := !l.closed && m.getLsbD l.thread && l.region == (st.thread l.thread).region
  let gone (e : BufStore) : Bool := match e.kind with
    | .birth _ _ => e.lanes.any mine
    | _ => e.lanes.all mine
  let kept := (st.buf.filter fun e => !gone e).map fun e => { e with lanes := e.lanes.filter fun l => !mine l }
  (kept, st.buf.filterMap fun e => match e.kind with | .birth n _ => if gone e then some n else none | _ => none)

/-- The control registers as a re-entry leaves them (R36). -/
def restoreCtl (now snap : Ctl) (det : Bool) : Ctl :=
  { snap with
    chki := now.chki, stfq := now.stfq, batch := now.batch
    rctl := cset snap.rctl 0 8 (cfld now.rctl 0 8)
    tfp := now.tfp
    btnext := if det then snap.btnext else now.btnext }

/-- Discard the current regions of threads (R165): stores and births withdrawn, exited threads live again, control registers
restored as `ctl` says from the lowest lane's region; loads from peers are forgotten. Returns the threads concerned. -/
def discard (s : State) (u : Nat) (m : BitVec 32) (ctl : Ctl → Ctl → Ctl) : BitVec 32 × State :=
  let st := s.strand u
  let all := m ||| st.boundTo m
  let (kept, idx) := withdraw st all
  let det := isDet (s.launch st.launch)
  let snap := ((st.regions.find? fun r => r.id == (st.thread (st.lowest all)).region).map (·.ctl)).getD st.ctl
  (all, s.modStrand u fun st =>
    let again := if det || idx.isEmpty then [] else (maskBits all).map fun i => (st.thread i).region
    let st := st.modThreads all fun t => { t with live := t.live || t.exited, exited := false, bound := 0 }
    { st with
      buf := kept
      ctl := ctl st.ctl snap
      reserved := if det then st.reserved else idx ++ st.reserved
      redraw := (st.redraw ++ again).dedup
      peers := st.peers.filter fun w => w.atomic || !all.getLsbD w.thread })

/-! ### Unwinding -/

/-- The span an unwind chooses, by its number from the outermost (R172).
DEDUCED: log entry 58, unsafe. -/
def spanFor (st : Strand) (cause : Nat) : Option Nat :=
  ((List.range st.spans.length).filter fun j => cause != 0x40 || (st.spans[j]?.map (·.p)).getD false).getLast?

/-- Unwind a strand (R172); none where no span is open for the cause. Trap mode ends with it: the handler is ordinary code.
DEDUCED: log entry 58, unsafe. -/
def unwind (s : State) (u cause : Nat) : Option State :=
  let st := s.strand u
  match spanFor st cause with
  | none => none
  | some j =>
    let sp := (st.spans[j]?).getD default
    let (all, s) := discard s u st.liveMask (fun a b => restoreCtl a b (isDet (s.launch st.launch)))
    let pc := sp.handler
    let s := s.modStrand u fun st =>
      let go (i : Nat) (t : Thread) : Thread :=
        if all.getLsbD i && t.live then
          { t with pc := pc, wait := .ready, outs := [], inTrap := false, paused := false, intr := none,
                   stack := t.stack.drop (t.stack.length - sp.depths.getD i 0),
                   spilled := min t.spilled (sp.depths.getD i 0) }
        else t
      let st := { st with threads := st.threads.mapIdx go }
      let st := { st with spans := st.spans.take j, trap := none, ctl := { st.ctl with tfp := 0 } }
      ((st.setGspan cause).chkiEvent 8).setReent 0
    some (openRegion s u (s.strand u).liveMask pc false)

/-! ### The end of a strand -/

/-- What a strand's end adds to its launch's completion status (R307). -/
def countEnd (s : State) (u : Nat) : State :=
  let st := s.strand u
  s.modLaunch st.launch fun l =>
    { l with
      chki := Nat.lor l.chki (cfld st.ctl.chki 0 4)
      btfull := l.btfull || cfld st.ctl.tctl 7 1 == 1
      lost := l.lost || cfld st.ctl.stfq 9 1 == 1 }

/-- Fragments of a strand taken out of the carding table and the run. -/
def State.uncard (s : State) (u : Nat) : State :=
  { s with
    carding := (s.carding.map fun c => (c.1,
      { entries := (c.2.entries.map fun e => { e with members := e.members.filter fun m => m.1 != u }).filter fun e => !e.members.isEmpty
        spill := c.2.spill.filter fun m => m.1 != u : Carding })).filter fun c => c.2 ≠ {} }

/-- A strand has ended: its threads are no longer live, its open regions are gone, the bobbin passes on if it held it. -/
def endStrand (s : State) (u : Nat) (phase : Phase) : State :=
  let st := s.strand u
  let s := (countEnd s u).modStrand u fun st =>
    { st with
      phase := phase, buf := [], regions := [], trap := none, spans := []
      threads := st.threads.map fun t =>
        { t with live := false, exited := false, ended := true, stack := [], wait := .ready, outs := [], inTrap := false
                 paused := false, intr := none, bound := 0 } }
  let s := s.uncard u
  if isDet (s.launch st.launch) && holdsBobbin s st then passBobbin s st.launch else s

/-- A strand is terminated (R43, R175, R176): open regions are discarded, closed ones drain; its matrix operations stop, and its
commands to queue port 0x1 leave the WSU queue (R392). -/
def terminate (s : State) (u cause : Nat) : State :=
  let st := s.strand u
  let ops := st.mops.map (·.id)
  let s := endStrand (s.modStrand u fun st => { st with cause := cause, mops := [], mtFaults := [] }) u .terminated
  let s := s.modLaunch st.launch fun l =>
    { l with
      nterm := l.nterm + 1
      cause := if l.nterm = 0 then cause else l.cause
      firstSid := if l.nterm = 0 then st.sid else l.firstSid }
  { s with cores := smod s.cores st.core fun c =>
      { c with
        wsu := c.wsu.filter fun w => !(w.1.strand == u && w.1.dst == 2)
        score := c.score.filter fun e => !ops.contains e.1 } }

/-! ### Traps -/

/-- What a trap reports (R334). Addresses are byte addresses; `lanes` none stands for the lanes of the issuing fragment. -/
structure Exc where
  cause : Nat
  sub : Nat := 0
  lanes : Option (BitVec 32) := none
  addr : Nat := 0
  flags : Nat := 0
  birth : Option Birth := none
  restart : Option Nat := none
  next : Option Nat := none
  tags : List (Nat × Tag × Tag × Tag × Nat) := []
  untagged : Bool := false
  uniform : Bool := false
  expected : Nat := 0
  computed : Nat := 0
  deriving DecidableEq, Repr, Inhabited

/-- Where a trap is taken: the fragment, its pc, the instruction's length and word0, and whether it is a boundary. -/
structure Site where
  u : Nat
  mask : BitVec 32
  pc : BitVec 62
  words : Nat
  word0 : Nat
  boundary : Bool
  deriving DecidableEq, Repr, Inhabited

/-- TAGS and CODES of the frame (R334).
DEDUCED: log entry 54, unsafe. -/
def frameTags (x : Exc) (born : Bool) : Nat × List Byte :=
  if x.cause = 0x22 then (0, List.replicate 192 0)
  else if 0x50 ≤ x.cause ∧ x.cause ≤ 0x52 then
    (0, (List.replicate 8 0 ++ toBytes 4 x.expected ++ toBytes 4 x.computed ++ List.replicate 176 0))
  else
    x.tags.foldl (fun r e =>
      (r.1 + (if born && x.birth.any (fun b => b.lane == e.1) then 0 else e.2.2.2.2 * 2 ^ (2 * e.1)),
       patch r.2 (6 * (e.1 % 32)) (toBytes 2 e.2.1.toNat ++ toBytes 2 e.2.2.1.toNat ++ toBytes 2 e.2.2.2.1.toNat)))
      (0, List.replicate 192 0)

/-- The 256 bytes of a trap frame (R334). -/
def frameBytes (x : Exc) (born : Bool) (ctag : Tag) (lanes : BitVec 32) (pc word0 restart next : Nat) (s62 s63 : Word) : List Byte :=
  let (codes, tags) := frameTags x born
  let flags := (if 0x10 ≤ x.cause && x.cause ≤ 0x14 then x.flags % 32 else 0) + 32 * bit born + 64 * bit x.uniform
  toBytes 1 x.cause ++ toBytes 1 flags ++ toBytes 2 x.sub ++ toBytes 4 lanes.toNat ++ toBytes 8 pc ++ toBytes 4 word0 ++
    toBytes 2 ctag.toNat ++ toBytes 2 0 ++ toBytes 8 x.addr ++ toBytes 8 restart ++ toBytes 8 next ++
    toBytes 4 s62.toNat ++ toBytes 4 s63.toNat ++ toBytes 8 codes ++ tags

/-- CTAG and the trap-entry birth (R106, R334). -/
def trapTag (s : State) (p : Site) (x : Exc) : Tag × Bool × State :=
  let st := s.strand p.u
  let site := siteTag s st p.pc
  if !st.tagEn then (0, false, s)
  else
    match x.birth with
    | none => (if x.untagged then 0 else site, false, s)
    | some b =>
      if !st.mintOn then (site, false, s)
      else
        let flags := 16 + (if x.uniform then 4 else 0)
        let (t, s) := mintNow s p.u p.pc (if x.uniform then 0 else b.lane) { b with flags := flags }
        (t, true, s)

/-- The byte address of a program counter. -/
def byteOf (pc : BitVec 62) : Nat := pc.toNat * 4

/-- A trap is taken (R174): the frame in the save slot, s62:s63 and TFP, the fragment at TVEC.HANDLER, the other fragments
paused; terminating where TVEC is 0 (R43) or in trap mode (R176).
DEDUCED: log entry 19, unsafe. -/
def takeTrap (s : State) (p : Site) (x : Exc) : State :=
  let (ctag, born, s) := trapTag s p x
  let st := s.strand p.u
  let ctx := s.ctxOf st
  let die := dieOfCore st.core
  let num := (s.launch st.launch).num
  if st.trap.isSome then
    terminate (errorLog s ctx die 0x61 num st.sid (byteOf p.pc)) p.u 0x61
  else if st.ctl.tvec = 0 then
    terminate (errorLog s ctx die x.cause num st.sid (byteOf p.pc)) p.u x.cause
  else
    let low := st.lowest p.mask
    let restart := x.restart.getD (if p.boundary then byteOf p.pc else byteOf (st.startOf low))
    let next := x.next.getD (byteOf (p.pc + BitVec.ofNat 62 p.words))
    let lanes := x.lanes.getD (st.laneMask (maskBits p.mask))
    let frame := slotVA s st + 0x400
    let s := slotWrite s p.u 0x400 (frameBytes x born ctag lanes (byteOf p.pc) p.word0 restart next (st.readS 62 1).w (st.readS 63 1).w)
    let handler := BitVec.ofNat 62 (st.ctl.tvec.toNat / 4)
    let t : TrapState := { frag := p.mask, cause := x.cause, restart := BitVec.ofNat 64 restart
                           regional := restart == byteOf (st.startOf low), since := s.uid
                           tag62 := (st.readS 62 1).tag, tag63 := (st.readS 63 1).tag }
    let s := s.modStrand p.u fun st =>
      let st := st.writeS 62 (wordsOfNat 2 frame) 0
      let st := { st with trap := some t, ctl := { st.ctl with tfp := BitVec.ofNat 64 frame } }
      { st with threads := st.threads.mapIdx fun i h =>
          if p.mask.getLsbD i then { h with inTrap := true, intr := some h.region, pc := handler, wait := .ready, outs := [] }
          else if h.live then { h with paused := true } else h }
    openRegion s p.u p.mask handler false

/-- Re-entry (R165): the threads go back to their region starts. `err` is CHKI's bit for a detected error or 0; the limit
traps LANE_MISMATCH in place of REENTRY_LIMIT where `mismatch` (R353). -/
def reenter (s : State) (p : Site) (count : Bool) (err : Nat) (mismatch : Bool) : State :=
  let s := if err = 0 then s else s.modStrand p.u fun st => st.chkiEvent err
  let st := s.strand p.u
  let limit := if mismatch && st.limit = 0 then 8 else st.limit
  let det := isDet (s.launch st.launch)
  if count && limit ≠ 0 && limit ≤ st.reent + 1 then
    match unwind s p.u (if mismatch then 0x41 else 0x31) with
    | some s => s
    | none =>
      let start := byteOf (st.startOf (st.lowest p.mask))
      let (_, s) := discard s p.u p.mask (fun a b => restoreCtl a b det)
      takeTrap s p { cause := if mismatch then 0x41 else 0x31, restart := some start
                     next := if mismatch then some (byteOf p.pc) else none }
  else
    let (all, s) := discard s p.u p.mask (fun a b => restoreCtl a b det)
    s.modStrand p.u fun st =>
      let st := if count then st.setReent (st.reent + 1) else st
      let mine (r : Region) : Bool := mismatch && (maskBits all).any fun i => (st.thread i).region == r.id
      let st := { st with regions := st.regions.map fun r => if mine r then { r with mismatch := true } else r }
      { st with threads := st.threads.mapIdx fun i t =>
          if all.getLsbD i then { t with pc := st.startOf i, wait := .ready, outs := [] } else t }

/-! ### Return from a trap -/

/-- A number in the strand's trap frame, as memory holds it. -/
def frameField (s : State) (st : Strand) (off n : Nat) : Nat :=
  ((devGet s (s.ctxOf st) (st.ctl.tfp.toNat + off) n).map ofBytes).getD 0

/-- Trap mode ends (R175): s62 and s63 from the frame, the fragment's interrupted regions current again, the paused fragments
free to issue.
DEDUCED: log entry 27, unsafe. -/
def leaveTrap (s : State) (u : Nat) : State :=
  let st := s.strand u
  let a := frameField s st 48 4
  let b := frameField s st 52 4
  s.modStrand u fun st =>
    let k := st.trap.getD ⟨0, 0, 0, false, 0, 0, 0⟩
    let st := (st.writeS 62 [BitVec.ofNat 32 a] k.tag62).writeS 63 [BitVec.ofNat 32 b] k.tag63
    let st := { st with trap := none, ctl := { st.ctl with tfp := 0 } }
    Strand.pruneRegions { st with threads := st.threads.map fun t =>
      { t with inTrap := false, paused := false, region := t.intr.getD t.region, intr := none } }

/-- TRET.restart (R175): the interrupted region is discarded, only GENC and BTNEXT returning to their values at its start; the
threads resume at their region starts, or at a RESTART that is not one, where a new region opens.
DEDUCED: log entry 24, unsafe. -/
def tretRestart (s : State) (p : Site) (t : TrapState) : State :=
  let st0 := s.strand p.u
  let restart := frameField s st0 32 8
  let s := leaveTrap s p.u
  let st := s.strand p.u
  let det := isDet (s.launch st.launch)
  let (all, s) := discard s p.u t.frag (fun a b => { a with genc := b.genc, btnext := if det then b.btnext else a.btnext })
  if restart == t.restart.toNat && t.regional then
    if st.limit ≠ 0 && st.limit ≤ st.reent + 1 then
      match unwind s p.u 0x31 with
      | some s => s
      | none => takeTrap s { p with mask := t.frag } { cause := 0x31, restart := some (byteOf (st.startOf (st.lowest t.frag))) }
    else
      s.modStrand p.u fun st =>
        let st := st.setReent (st.reent + 1)
        { st with threads := st.threads.mapIdx fun i h => if all.getLsbD i then { h with pc := st.startOf i, wait := .ready } else h }
  else
    let pc := BitVec.ofNat 62 (restart / 4)
    let s := s.modStrand p.u fun st =>
      (st.modThreads all fun h => { h with pc := pc, wait := .ready }).setReent 0
    openRegion s p.u all pc false

/-- TRET.next (R175): the fragment goes on at NEXT in its interrupted region; after a boundary's own region a new one opens. -/
def tretNext (s : State) (p : Site) (t : TrapState) : State :=
  let pc := BitVec.ofNat 62 (frameField s (s.strand p.u) 40 8 / 4)
  let s := leaveTrap s p.u
  let st := s.strand p.u
  let m := t.frag &&& st.liveMask
  let own := st.regions.any fun r => r.own && r.id == (st.thread (st.lowest m)).region
  let s := s.modStrand p.u fun st => st.modThreads m fun h => { h with pc := pc, wait := .ready }
  if own && pc != st.startOf (st.lowest m) then openRegion s p.u m pc false else s

end Sys2Proof.Machine
end

