-- ==== Sys2Proof/Machine/Operands.lean ====
section
/-!
DEFINITION. Operands: which registers an instruction names and how (R62, R69 step 6), reading and writing them in the lanes
of the issuing fragment (R28, R31, R32), and the choice of a result's tag (R97 to R103).
-/

namespace Sys2Proof.Machine

/-! ### The registers an instruction names -/

/-- The register files of R22 that a field can name. -/
inductive Space
  | v | p | s | k
  deriving DecidableEq, Repr, Inhabited

/-- A use of registers: `n` from `code`, aligned to `al`, read, written, queues allowed; `src` 1, 2, 3 for source a, b, c. -/
structure Use where
  sp : Space
  code : Nat
  n : Nat := 1
  al : Nat := 1
  rd : Bool := false
  wr : Bool := false
  q : Bool := false
  src : Nat := 0
  deriving DecidableEq, Repr, Inhabited

def useV (code : Nat) (rd wr q : Bool) (src : Nat) : Use := { sp := .v, code := code, rd := rd, wr := wr, q := q, src := src }
def useS (code : Nat) (rd wr : Bool) (src : Nat) : Use := { sp := .s, code := code, rd := rd, wr := wr, src := src }

/-- n aligned words of a file; pairs and quads are never queues (R62). -/
def useN (sp : Space) (code n : Nat) (rd wr : Bool) (src : Nat) : Use :=
  { sp := sp, code := code, n := n, al := n, rd := rd, wr := wr, src := src }
def useP (code : Nat) (rd wr : Bool) : Use := { sp := .p, code := code, rd := rd, wr := wr }
def useK (code : Nat) (rd wr : Bool) : Use := { sp := .k, code := code, rd := rd, wr := wr }

/-- Source b of n words: nothing for a literal, a uniform or a vector register (R31). -/
def bUse (r : Raw) (n : Nat) : List Use :=
  if r.form.isLit then []
  else if r.u = 1 then [useN .s r.b n true false 2]
  else if n = 1 then [useV r.b true false true 2] else [useN .v r.b n true false 2]

/-- A second source in the uniform space. -/
def bUseU (r : Raw) (n : Nat) : List Use := if r.form.isLit then [] else [useN .s r.b n true false 2]

/-- Words of an access by its SIZE code, which is b32 in a one-word form (R148, R179). -/
def sizeWords : Nat → Nat
  | 3 => 2 | 4 => 4 | _ => 1

def rawSize (r : Raw) : Nat := if r.form.isW3 then r.x % 8 else 2

/-- Destination, a and b of a vector operation on single words. -/
def usesDab (r : Raw) : List Use := [useV r.d false true true 0, useV r.a true false true 1] ++ bUse r 1

/-- The formats whose values are pairs (R138). -/
def fmtPair (f : Nat) : Bool := f == 0 || f == 12 || f == 13

/-- The uses of opcodes 0x00 to 0x3F, in the order D, A, B, C and then the scale registers. -/
def usesLow (op : Nat) (r : Raw) : List Use :=
  let c := useV r.c true false true 3
  match op with
  | 0x00 => []
  | 0x05 | 0x23 | 0x35 | 0x38 => usesDab r ++ [c]
  | 0x10 | 0x11 | 0x12 | 0x13 | 0x14 | 0x15 | 0x16 | 0x1A | 0x27 | 0x28 | 0x29 | 0x2A | 0x2B | 0x2C | 0x2D | 0x3F =>
    [useV r.d false true true 0, useV r.a true false true 1]
  | 0x17 => [useN .v r.d 2 false true 0, useV r.a true false false 1, useN .s r.b 2 true false 2]
  | 0x18 => [useP r.d false true, useV r.a true false true 1] ++ bUse r 1
  | 0x19 => usesDab r ++ [useP r.c true false]
  | 0x1B => if r.w = 1 then [useN .v r.d 2 false true 0] else [useV r.d false true true 0]
  | 0x1C => [useV r.d false true true 0, useS r.b true false 2]
  | 0x1D =>
    [useV r.d false true false 0, useV r.a true false false 1] ++
      (if r.sub / 4 % 2 = 1 then [if r.u = 1 then useS r.b true false 2 else useV r.b true false false 2] else [])
  | 0x1E => [useV r.d false true false 0, useV r.a true false false 1]
  | 0x1F =>
    let n := if r.x % 256 = 0x10 ∨ r.x % 256 = 0x11 then 2 else 1
    [useN (if r.x / 256 % 2 = 1 then .s else .v) r.d n false true 0]
  | 0x2E =>
    if r.sub / 16 % 2 = 1 then [useP r.d false true, useN .v r.a 2 true false 1] ++ bUse r 2
    else [useP r.d false true, useV r.a true false true 1] ++ bUse r 1
  | 0x2F => [useP r.d false true, if r.sub % 2 = 1 then useN .v r.a 2 true false 1 else useV r.a true false true 1]
  | 0x30 | 0x31 => [useN .v r.d 2 false true 0, useN .v r.a 2 true false 1] ++ bUse r 2
  | 0x32 => [useN .v r.d 2 false true 0, useN .v r.a 2 true false 1] ++ bUse r 2 ++ [useN .v r.c 2 true false 3]
  | 0x39 =>
    let sf := r.x % 16
    let df := r.x / 16 % 16
    let narrow := fmtElems df != 1
    [if fmtPair df then useN .v r.d 2 false true 0 else useV r.d narrow true true 0,
     if fmtPair sf then useN .v r.a 2 true false 1 else useV r.a true false true 1] ++
      (if sf = 14 ∨ df = 14 then [useV r.c true false true 0] else [])
  | 0x3A | 0x3B =>
    usesDab r ++ [c, useV (r.x % 256) true false false 0, useV (r.x / 256 % 256) true false false 0]
  | 0x3C =>
    [useN .v r.d 4 true true 0, useV r.a true false false 1, { sp := .s, code := 8 * (r.x % 8), n := 7, rd := true },
     useP (r.x / 16 % 8) false true, useP (r.x / 256 % 8) false true]
  | 0x3D => [useV r.d false true false 0]
  | _ => usesDab r

/-- The uses of LD, ST, SLD and SST: data or destination, index, base pair. -/
def usesMem (r : Raw) (sp : Space) (load : Bool) : List Use :=
  let data := if load && sp = .v && r.sub % 2 = 1 then useP r.d false true
    else useN sp r.d (sizeWords (rawSize r)) (!load) load 0
  [data, useN sp r.a 1 true false 1, useN .s r.b 2 true false 2]

/-- The uses of opcodes 0x40 to 0x7D. -/
def usesHigh (op : Nat) (r : Raw) : List Use :=
  let sd (rd wr : Bool) := useS r.d rd wr 0
  let sa := useS r.a true false 1
  let sb2 := useN .s r.b 2 true false 2
  let desc (code : Nat) (src : Nat) : Use := { sp := .s, code := code, n := 8, rd := true, src := src }
  match op with
  | 0x40 | 0x41 | 0x42 | 0x43 | 0x44 | 0x45 | 0x46 | 0x47 =>
    let n := if r.sub / 2 % 2 = 1 then 2 else 1
    [useN .s r.d n false true 0, useN .s r.a n true false 1] ++ bUseU r n
  | 0x48 =>
    let n := if (if r.form.isLit then r.w = 1 else r.sub / 2 % 2 = 1) then 2 else 1
    [useN .s r.d n false true 0, useN .s r.a n true false 1]
  | 0x49 => [useK r.d false true, sa] ++ bUseU r 1
  | 0x4A => [sd false true, sa] ++ bUseU r 1 ++ [useK r.c true false]
  | 0x4B => usesMem r .s true
  | 0x4C => usesMem r .s false
  | 0x4D => [sd false true, useV r.a true false false 1] ++ (if r.sub % 8 = 1 then [useK r.c false true] else [])
  | 0x4E => [useK r.d false true, useP r.a true false]
  | 0x4F => [sd false true, useP r.a true false]
  | 0x50 => [useP r.d false true, useP r.a true false, useP r.b true false]
  | 0x51 => [useK r.d false true, useK r.a true false, useK r.b true false]
  | 0x54 | 0x56 => if r.form.isLit then [] else [useN (if r.u = 1 then .s else .v) r.a 2 true false 1]
  | 0x5D => [useK r.d false true]
  | 0x5F =>
    if r.sub % 4 = 1 then
      [useV r.d false true false 0, useV r.a true false false 1,
       if r.u = 1 then useS r.b true false 2 else useV r.b true false false 2]
    else [useV r.d false true true 0, useV r.a true false true 1]
  | 0x60 => usesMem r .v true
  | 0x61 => usesMem r .v false
  | 0x62 =>
    let n := sizeWords (r.x % 8)
    [useN .v r.d n false true 0, useN .v r.a 1 true false 1, sb2, useN .v r.c n true false 3]
  | 0x63 => [useN .v r.a 1 true false 1, sb2, useN .v r.c (sizeWords (r.x % 8)) true false 3]
  | 0x64 =>
    let n := sizeWords (r.x % 8)
    [useN .v r.d n false true 0, useN .v r.a 1 true false 1, sb2, useN .v r.c (2 * n) true false 3]
  | 0x66 => [sa, sb2]
  | 0x67 => [sd false true, sa, sb2] ++ (if r.sub / 8 % 2 = 1 then [useS r.c true false 3] else [])
  | 0x68 => [useK r.d false true, sa, sb2, useS r.c true false 3]
  | 0x69 =>
    (if r.sub % 4 = 2 then [] else [useN .s r.d 2 true false 0]) ++
      (if r.sub % 4 = 1 then [] else [useN .s r.a 2 true false 1]) ++
      [useS r.b true false 2, useN .s r.c 2 true false 3]
  | 0x6A => [sd false true]
  | 0x6B => [sa]
  | 0x6E => [{ sp := .s, code := r.a, n := 16, rd := true, src := 1 }, sb2]
  | 0x6F => [{ sp := .v, code := r.a, n := 14, rd := true, src := 1 }, sb2]
  | 0x70 => [desc r.a 1, desc r.b 2]
  | 0x71 => [desc r.a 1, desc r.b 2, useN .s r.c 2 true false 3]
  | 0x72 => [desc r.a 1, desc r.b 2, desc r.c 3]
  | 0x74 => [desc r.a 1]
  | 0x75 => if r.sub % 2 = 1 then [] else [desc r.d 0]
  | 0x76 => [useV r.d false true false 0, useS r.b true false 2]
  | 0x78 =>
    (if r.x % 4 = 2 then [] else [useS r.d true false 0]) ++ [sb2] ++ (if r.x % 4 = 0 then [useN .s r.c 2 true false 3] else [])
  | 0x7A => [sd false true] ++ (if r.form.isLit then [useN .s r.b 2 true false 2] else [sb2])
  | 0x7B => [useN .s r.d 2 false true 0]
  | 0x7C => [sb2] ++ (if r.sub % 2 = 1 then [useN .s r.c 2 true false 3] else [])
  | 0x7D =>
    match r.sub % 8 with
    | 0 => [useN .s r.a 2 true false 1]
    | 1 => if r.x % 4 = 0 then [useN .s r.a 2 true false 1] else []
    | 2 => [useN .s r.a 2 true false 1, sb2, useS r.c true false 3]
    | 3 => [useN .s r.d 4 false true 0, useN .s r.a 2 true false 1]
    | 4 | 5 => [sa]
    | _ => []
  | _ => []

def usesOf (op : Nat) (r : Raw) : List Use := if op < 0x40 then usesLow op r else usesHigh op r

/-! ### The register faults of R69 step 6 -/

/-- The direction of a port (R45): the strand reads it, writes it, or it is none. -/
def portReads (qmap : BitVec 64) (j : Nat) : Option Bool :=
  match cfld qmap (4 * j) 4 with
  | 1 | 3 | 5 => some true
  | 2 | 4 => some false
  | _ => none

/-- The ILL_REG sub-cause of one use; `regs` the launch's registers. -/
def useFault (regs : Nat) (qmap : BitVec 64) (u : Use) : Option Nat :=
  match u.sp with
  | .s =>
    if 64 ≤ u.code then some 4
    else if u.al = 2 ∧ u.code % 2 = 1 then some 0
    else if u.al = 4 ∧ u.code % 4 ≠ 0 then some 1
    else none
  | .v =>
    if 248 ≤ u.code then
      if !u.q || u.n != 1 then some 3
      else if (u.rd && portReads qmap (u.code - 248) != some true) || (u.wr && portReads qmap (u.code - 248) != some false) then
        some 5
      else none
    else if u.al = 2 ∧ u.code % 2 = 1 then some 0
    else if u.al = 4 ∧ u.code % 4 ≠ 0 then some 1
    else if regs < u.code + u.n then some 2
    else none
  | _ => none

/-- The sub-cause of ILL_REG, that of the first field which fails (R69). -/
def regFault (regs : Nat) (qmap : BitVec 64) (us : List Use) : Option Nat := us.findSome? (useFault regs qmap)

/-! ### Classes of instructions -/

/-- Uniform-class opcodes (R68). -/
def isUniform (op : Nat) : Bool :=
  (0x40 ≤ op && op ≤ 0x4F) || op == 0x51 || op == 0x53 || op == 0x5A || op == 0x5D || op == 0x5E ||
    (0x66 ≤ op && op ≤ 0x6E) || (0x70 ≤ op && op ≤ 0x75) || (0x77 ≤ op && op ≤ 0x7D)

/-- Matrix-class opcodes, with MSYNC (R347, R391). -/
def isMatrix (op : Nat) : Bool := (0x70 ≤ op && op ≤ 0x75) || op == 0x77 || op == 0x79

/-- Implicit boundaries (R162) and RGN. -/
def isBoundary (op : Nat) (us : List Use) : Bool :=
  op == 0x55 || op == 0x56 || op == 0x57 || op == 0x59 || op == 0x5A || op == 0x5B || op == 0x5C || op == 0x5E ||
    (0x62 ≤ op && op ≤ 0x72) || op == 0x77 || op == 0x78 || op == 0x7A || us.any fun u => u.sp = .v && 248 ≤ u.code

/-- Long-latency opcodes (R66). -/
def isLong (op : Nat) : Bool :=
  op == 0x26 || (0x27 ≤ op && op ≤ 0x2D) || op == 0x39 || op == 0x3A || op == 0x3B || op == 0x3C || op == 0x4B || op == 0x60 ||
    op == 0x62 || op == 0x64 || op == 0x76 || op == 0x7B

/-- Opcodes whose entry names KEEP as the default rule (R98). -/
def keepsTag (op : Nat) : Bool :=
  op == 0x19 || op == 0x1A || op == 0x1B || op == 0x1C || op == 0x1D || op == 0x39 || op == 0x48 || op == 0x4A

/-- Opcodes on which TR is legal: they write a result tagged by a rule (R61). -/
def isTagged (op : Nat) (r : Raw) : Bool :=
  (1 ≤ op && op ≤ 0x17) || (0x19 ≤ op && op ≤ 0x1E) || (0x20 ≤ op && op ≤ 0x2D) || (0x30 ≤ op && op ≤ 0x48) || op == 0x4A ||
    (op == 0x4D && r.sub % 8 != 7) || op == 0x4F

/-- The rule in force (R98). -/
def ruleOf (st : Strand) (op tr : Nat) : Nat :=
  if tr ≠ 0 then tr else if keepsTag op then 3 else if op = 0x4F then 4 else cfld st.ctl.tctl 1 3

/-- Instructions that wait for every live thread of the strand (R29, R131, R132, R171).
DEDUCED: log entry 26, safe. -/
def converges (op : Nat) (r : Raw) : Bool := op == 0x1D || op == 0x1E || op == 0x5A || r.cv == 1

/-- The guard's file is the k file (R65). -/
def guardIsK (op : Nat) (r : Raw) : Bool := isUniform op || op == 0x55 || (op == 0x52 && r.k == 1)

/-! ### The issuing fragment -/

/-- What a meaning knows of its issue: strand, fragment, active threads in lane order, the instruction's site, the entries it
has popped by queue number, opcode, fields, rule in force, and its site tag. -/
structure Cx where
  u : Nat
  mask : BitVec 32
  act : List Nat
  site : Site
  pops : List (Nat × List TWord)
  op : Nat
  raw : Raw
  rule : Nat
  here : Tag
  deriving DecidableEq, Repr, Inhabited

/-- The threads of the fragment in lane order. -/
def Cx.threads (cx : Cx) (st : Strand) : List Nat := st.byLane cx.mask

/-- The pc of the next instruction. -/
def Cx.next (cx : Cx) : BitVec 62 := cx.site.pc + BitVec.ofNat 62 cx.site.words

/-- n vector words of thread i; a queue gives the popped entry's word of its lane (R32). -/
def Cx.v (cx : Cx) (st : Strand) (i code n : Nat) : Opd :=
  if 248 ≤ code then
    let w := ((cx.pops.lookup (code - 248)).getD []).getD (st.thread i).lane {}
    { words := [w.val], tag := w.tag }
  else (st.thread i).readV code n

/-- Source b in thread i: vector, uniform (R31), or a constant with tag NONE (R64). -/
def Cx.src (cx : Cx) (st : Strand) (i : Nat) (b : Src) (n : Nat) : Opd :=
  match b with
  | .v c => cx.v st i c n
  | .s c => st.readS c n
  | .imm x => { words := [x] }
  | .wide x => { words := wordsOfNat 2 x.toNat }

/-- An entry pushed to a queue: a word and tag for each lane given, zero with tag NONE elsewhere (R32). -/
def pushQueue (st : Strand) (j : Nat) (ws : List (Nat × Word × Tag)) : Strand :=
  let word (lane : Nat) : TWord :=
    match ws.find? fun w => w.1 == lane with
    | some w => { val := w.2.1, tag := w.2.2 }
    | none => {}
  { st with q := st.q.mapIdx fun k e => if k = j then e ++ [(List.range 32).map word] else e }

/-- The entries popped taken off their queues. -/
def dropHeads (st : Strand) (js : List Nat) : Strand :=
  { st with q := st.q.mapIdx fun k e => if js.contains k then e.drop 1 else e }

/-- Results of threads written to a vector destination, or pushed as one entry. A protected thread fills both lanes. -/
def writeD (s : State) (cx : Cx) (d : Nat) (rs : List (Nat × List Word × Tag)) : State :=
  s.modStrand cx.u fun st =>
    if 248 ≤ d then
      pushQueue st (d - 248) (rs.flatMap fun r =>
        let l := (st.thread r.1).lane
        let w := (r.2.1.headD 0, r.2.2)
        if st.prot then [(l, w), (l + 1, w)] else [(l, w)])
    else
      { st with threads := st.threads.mapIdx fun i t =>
          match rs.find? fun r => r.1 == i with
          | some r => t.writeV d r.2.1 r.2.2
          | none => t }

/-- Predicates of threads written. -/
def writeP (s : State) (cx : Cx) (d : Nat) (rs : List (Nat × Bool)) : State :=
  s.modStrand cx.u fun st =>
    { st with threads := st.threads.mapIdx fun i t =>
        match rs.find? fun r => r.1 == i with
        | some r => { t with p := setPred t.p d r.2 }
        | none => t }

def writeK (s : State) (cx : Cx) (d : Nat) (b : Bool) : State := s.modStrand cx.u fun st => { st with k := setPred st.k d b }

def writeU (s : State) (cx : Cx) (d : Nat) (ws : List Word) (t : Tag) : State := s.modStrand cx.u fun st => st.writeS d ws t

/-! ### The tag of a result -/

/-- The smallest birth of a list, the first of equals. -/
def earliest (l : List Tag) : Option Tag := leastOf 2 l

/-- tag_pick of R99; `here` is site_tag(). -/
def tagPick (here : Tag) (rule : Nat) (srcs : List Tag) : Tag :=
  match rule with
  | 1 => (srcs.find? isBirth).getD here
  | 2 => (earliest srcs).getD here
  | 3 => srcs.headD 0
  | 4 => here
  | _ => 0

/-- parent_of (R99): the chosen birth's position among the record's sources. -/
def parentOf (here : Tag) (rule : Nat) (srcs listed : List Tag) : Nat :=
  let t := tagPick here rule srcs
  if isBirth t then
    match listed.findIdx? (· == t) with
    | some j => if j < 3 then j + 1 else 0
    | none => 0
  else 0

/-- A result's event (R100): the birth kind it would mint. -/
abbrev Event := Option Nat

/-- result_tag (R101) for the threads `own` in lane `lane`; `listed` the source tags as the record lists them. -/
def resultTag (s : State) (cx : Cx) (own : List Nat) (uniform : Bool) (lane : Nat) (srcs listed : List Tag) (ev : Event) (fmt : Nat)
    (pat : Word) : Tag × State :=
  let st := s.strand cx.u
  if !st.tagEn then (0, s)
  else
    let t := tagPick cx.here cx.rule srcs
    match ev with
    | none => (t, s)
    | some kind =>
      if cx.rule = 4 ∨ cx.rule = 5 ∨ !st.mintOn then (t, s)
      else
        let b (parent : Nat) : Birth :=
          { kind := kind, lane := if uniform then 0 else lane, fmt := fmt, flags := parent + (if uniform then 4 else 0)
            a := listed.getD 0 0, b := listed.getD 1 0, c := listed.getD 2 0, result := pat }
        if kind = 2 ∨ kind = 5 then mint s cx.u cx.site.pc own uniform (b (parentOf cx.here cx.rule srcs listed))
        else if srcs.any isBirth then (t, s)
        else mint s cx.u cx.site.pc own uniform (b 0)

/-! ### Results lane by lane -/

/-- One lane's result: words, flags, event, the pattern a birth records, source tags, the same as a record lists them,
whether poison was consumed. -/
structure LaneRes where
  words : List Word
  flags : Nat := 0
  ev : Event := none
  pat : Word := 0
  srcs : List Tag := []
  listed : List Tag := srcs
  poison : Bool := false
  deriving DecidableEq, Repr, Inhabited

/-- The pattern of R103: the word, or the upper word of a 64-bit result. -/
def patWord (ws : List Word) : Word := ws.getLastD 0

/-- The event of a lane (R102): consumed poison first. -/
def LaneRes.event (r : LaneRes) : Event := if r.poison then some 5 else r.ev

/-- Source tags as a record lists them: a poisoned operand's first (R346). -/
def recordTags (ops : List Opd) : List Tag :=
  match ops.findIdx? (·.poison) with
  | some j => (ops.getD j {}).tag :: (ops.eraseIdx j).map (·.tag)
  | none => ops.map (·.tag)

/-- A result of operands: the pattern and poison follow from them. -/
def laneRes (ws : List Word) (flags : Nat) (ev : Event) (ops : List Opd) : LaneRes :=
  { words := ws, flags := flags, ev := ev, pat := patWord ws, srcs := ops.map (·.tag), listed := recordTags ops
    poison := ops.any (·.poison) }

/-- The tags of lane results, minted in ascending lane order (R102). -/
def tagLanes (s : State) (cx : Cx) (fmt : Nat) (rs : List (Nat × LaneRes)) : State × List (Nat × List Word × Tag) :=
  rs.foldl (fun a r =>
    let t := resultTag a.1 cx [r.1] false ((a.1.strand cx.u).thread r.1).lane r.2.srcs r.2.listed r.2.event fmt r.2.pat
    (t.2, a.2 ++ [(r.1, r.2.words, t.1)])) (s, [])

/-- How an execution ends: it completed (poison consumed?), it moved the pcs itself (by a branch,
taken in the threads given), it traps, it waits, or
the strand's threads have gone elsewhere. -/
inductive Eff
  | done (s : State) (poison : Bool)
  | jump (s : State) (taken : BitVec 32)
  | trap (x : Exc) (s : State)
  | wait (w : Wait) (s : State)
  | gone (s : State)

/-- Completed without poison. -/
def Eff.ok (s : State) : Eff := .done s false

/-! ### Faults of addresses -/

/-- An address check (R149, R158, R179): ADDR_NONCANON or ALIGN, none where it passes. -/
def addrFault (va align : Nat) : Option Nat :=
  if 2 ^ 56 ≤ va then some 0x23 else if va % align ≠ 0 then some 0x24 else none

/-- The trap of a failed address check, with its ADDRESS birth (R106).
DEDUCED: log entry 19, unsafe. -/
def addrTrap (cause va lane : Nat) (lanes : Option (BitVec 32)) (base idx : Tag) (uniform : Bool) (s : State) : Eff :=
  .trap { cause := cause, lanes := lanes, addr := va
          birth := some { kind := 6, lane := lane, a := base, b := idx, result := BitVec.ofNat 32 va }
          uniform := uniform } s

end Sys2Proof.Machine
end

