-- ==== Sys2Proof/Machine/Issue.lean ====
section
/-!
DEFINITION. Issuing an instruction for one fragment: the register checks (R69), the lookahead contract (R66, R67), region
boundaries (R162, R163, R167), convergence (R29), guards (R65), queues (R32, R63), and what follows its execution. Every
meaning goes through `issue`.
-/

namespace Sys2Proof.Machine

/-! ### Hazards -/

/-- The registers of a use, as `Outst` names them: spaces 0 v, 1 p, 2 s, 3 k, 4 q. -/
def Use.regs (u : Use) : List (Nat × Nat) :=
  match u.sp with
  | .v => if 248 ≤ u.code then [(4, u.code - 248)] else (upFrom u.code u.n).map (0, ·)
  | .p => [(1, u.code)]
  | .s => (upFrom u.code u.n).map (2, ·)
  | .k => [(3, u.code)]

/-- Registers that reading or writing cannot disturb: the constants (R24). -/
def isConstReg (x : Nat × Nat) : Bool := x == (0, 0) || x == (1, 7) || x == (2, 0) || x == (3, 7)

def touched (us : List Use) : List (Nat × Nat) := (us.flatMap Use.regs).filter fun x => !isConstReg x

/-- A thread must wait before an instruction that touches `rs` (R66); `all`: before any, as an instruction that ends a region
or waits for completion does (R67, R35). -/
def mustWait (t : Thread) (rs : List (Nat × Nat)) (all : Bool) : Bool :=
  t.outs.any fun o => all || o.left == some 0 || o.regs.any rs.contains

/-- Registers that a peer's response is still to write (R328), named as `Outst` names them. -/
def PeerWait.regs (w : PeerWait) : List (Nat × Nat) :=
  if w.pred then [((if w.uniform then 3 else 1), w.code)] else (upFrom w.code w.words).map ((if w.uniform then 2 else 0), ·)

/-- Threads of a mask must wait for a peer: a register that its response writes, or, where `all`, a load from it. -/
def peersDue (st : Strand) (m : BitVec 32) (rs : List (Nat × Nat)) (all : Bool) : Bool :=
  st.peers.any fun w => (w.uniform || m.getLsbD w.thread) && ((all && !w.atomic) || w.regs.any rs.contains)

/-- Instructions before which every earlier long-latency result has returned: region ends (R67), GETC and CHKERR (R35). -/
def waitsAll (op : Nat) (us : List Use) : Bool := isBoundary op us || op == 0x7B || op == 0x5D

/-! ### The gate -/

/-- The guard in one thread (R65). -/
def guardOf (st : Strand) (op : Nat) (r : Raw) (i : Nat) : Bool :=
  (if guardIsK op r then predBit st.k r.pg else predBit (st.thread i).p r.pg) != (r.pn == 1)

/-- The threads in which the instruction acts, in lane order. -/
def activeThreads (st : Strand) (op : Nat) (r : Raw) (m : BitVec 32) : List Nat := (st.byLane m).filter (guardOf st op r)

/-- Queue numbers popped, in the order A, B, C, each once (R63), and pushed. -/
def popsOf (us : List Use) : List Nat :=
  ((us.filter fun u => u.sp = .v && 248 ≤ u.code && u.rd).map fun u => u.code - 248).dedup

def pushesOf (us : List Use) : List Nat :=
  ((us.filter fun u => u.sp = .v && 248 ≤ u.code && u.wr).map fun u => u.code - 248).dedup

/-- Every queue has an entry to pop or room for a push (R32). -/
def queuesReady (st : Strand) (us : List Use) : Bool :=
  (popsOf us).all (fun j => !(st.q.getD j []).isEmpty) && (pushesOf us).all fun j => (st.q.getD j []).length < 4

/-- The threads wait; the run ends before the instruction (R57, R66). -/
def park (s : State) (u : Nat) (m : BitVec 32) (w : Wait) : State :=
  let now := (s.dies.getD (dieOfCore (s.strand u).core) {}).cycle
  let s := s.modStrand u fun st => st.modThreads m fun t => { t with wait := w, since := now }
  { s with cur := s.cur.map fun r => { r with stop := true } }

/-- The run ends after this instruction (R57). -/
def stopRun (s : State) : State := { s with cur := s.cur.map fun r => { r with stop := true } }

/-- The store permission faults that a boundary of threads `m` reports, those of the stores it closed itself (region `id`)
excepted (R167): in trap mode only those of the handler's own stores (R176).
DEDUCED: log entry 22, unsafe. -/
def dueFaults (st : Strand) (m : BitVec 32) (id : Option Nat) : List StFault :=
  st.stFaults.filter fun f =>
    some f.own != id && (f.threads == 0 || (f.threads &&& m) != 0) && (st.trap.all fun t => t.since ≤ f.seq)

/-- The report of store faults: STORE_PERM with the union of their lanes (R167, R174).
DEDUCED: log entry 22, unsafe. -/
def storePerm (fs : List StFault) (restart next : Nat) : Exc :=
  { cause := 0x22, lanes := some (fs.foldl (fun m f => m ||| f.lanes) 0), addr := (fs.headD ⟨0, 0, 0, 0, 0, 0⟩).va
    sub := (fs.headD ⟨0, 0, 0, 0, 0, 0⟩).sub
    restart := some restart, next := some next }

def dropFaults (s : State) (u : Nat) (fs : List StFault) : State :=
  s.modStrand u fun st => { st with stFaults := st.stFaults.filter fun f => !fs.contains f }

/-- The region of a boundary that has closed its threads' regions and not yet taken effect (R162). -/
def ownRegion (st : Strand) (p : Site) : Option Nat :=
  (st.regions.find? fun r => r.id == (st.thread (st.lowest p.mask)).region && r.own && r.start == p.pc).map (·.id)

/-- A boundary closes its threads' regions and stands in its own (R162, R163); a second attempt finds that done.
DEDUCED: log entry 21, unsafe. -/
def enterBoundary (s : State) (p : Site) : State :=
  if (ownRegion (s.strand p.u) p).isSome then s
  else
    let (id, s) := s.newId
    openRegionAs (closeThreads s p.u p.mask id) p.u p.mask p.pc true id

/-- The stores that earlier boundaries closed are checked before a boundary closes anything or issues (R163, R167).
DEDUCED: log entry 21, unsafe. -/
def checkEarlier (s : State) (p : Site) : State :=
  let id := ownRegion (s.strand p.u) p
  commitPass s p.u fun e => some e.own != id

/-- What the checks before execution decide: the instruction executes, or it is over for now. -/
inductive Gate
  | go (cx : Cx) (s : State)
  | stop (s : State)

/-- Lanes, sources and codes of a trap frame (R334): for each lane its three source tags and the code of the chosen one.
DEDUCED: log entry 54, unsafe. -/
def frameSrcs (st : Strand) (m : BitVec 32) (op : Nat) (r : Raw) (us : List Use) (here : Tag) : List (Nat × Tag × Tag × Tag × Nat) :=
  let rule := ruleOf st op r.tr
  let tagOf (i k : Nat) : Option Tag :=
    (us.find? fun u => u.src == k && u.rd).map fun u =>
      match u.sp with
      | .s => (st.readS u.code u.n).tag
      | .v =>
        if 248 ≤ u.code then (((st.q.getD (u.code - 248) []).headD []).getD (st.thread i).lane {}).tag
        else ((st.thread i).readV u.code u.n).tag
      | _ => 0
  let entry (i : Nat) : Nat × Tag × Tag × Tag × Nat :=
    let ts := [tagOf i 1, tagOf i 2, tagOf i 3]
    let real := ts.filterMap id
    let t := tagPick here rule real
    let code :=
      if isTagged op r && st.tagEn && !real.isEmpty && (rule == 3 || isBirth t) then
        ((ts.findIdx? fun x => x == some t).map (· + 1)).getD 0
      else 0
    ((st.thread i).lane, (ts.getD 0 none).getD 0, (ts.getD 1 none).getD 0, (ts.getD 2 none).getD 0, code)
  if isUniform op then ((st.byLane m).take 1).map fun i => let e := entry i; (0, e.2)
  else
    (st.byLane m).flatMap fun i =>
      let e := entry i
      if st.prot then [e, (e.1 + 1, e.2)] else [e]

/-- A trap of an instruction, its frame's tags filled in for the trapping lanes.
DEDUCED: log entry 19, unsafe. DEDUCED: log entry 23, unsafe. -/
def trapAt (s : State) (p : Site) (op : Nat) (r : Raw) (us : List Use) (x : Exc) : State :=
  let st := s.strand p.u
  let here := siteTag s st p.pc
  let lanes := x.lanes.getD (st.laneMask (maskBits p.mask))
  let m := maskOf ((maskBits p.mask).filter fun i => lanes.getLsbD (st.thread i).lane)
  let x := { x with
    tags := frameSrcs st m op r us here
    uniform := isUniform op
    untagged := ruleOf st op r.tr == 5 }
  stopRun (takeTrap s p x)

/-- The checks of R69 that the strand's state decides: PRIV for SYS and for a system register outside system mode (R34),
ILL_REG. -/
def checkFault (st : Strand) (op : Nat) (r : Raw) (us : List Use) : Option (Nat × Nat) :=
  if op == 0x7D && !st.sys then some (0x04, 0)
  else if (op == 0x7B || op == 0x7C) && 0x40 ≤ r.a && r.a ≤ 0x4F && !st.sys then some (0x04, 1)
  else (regFault st.regs st.ctl.qmap us).map (0x03, ·)

/-- The checks before execution, in the order of the device.
DEDUCED: log entry 21, unsafe. -/
def gate (op : Nat) (r : Raw) (us : List Use) (p : Site) (s : State) : Gate :=
  let st := s.strand p.u
  match checkFault st op r us with
  | some (c, sub) =>
    .stop (trapAt s p op r us { cause := c, sub := sub, restart := some (byteOf (st.startOf (st.lowest p.mask))) })
  | none =>
    if (maskBits p.mask).any fun i => mustWait (st.thread i) (touched us) (waitsAll op us) then
      .stop (park s p.u p.mask .lookahead)
    else if peersDue st p.mask (touched us) (waitsAll op us) then .stop (park s p.u p.mask .peer)
    else
      let s := if p.boundary then checkEarlier s p else s
      let st := s.strand p.u
      let due := if p.boundary then dueFaults st p.mask (ownRegion st p) else []
      if !due.isEmpty then
        .stop (trapAt (dropFaults s p.u due) p op r us (storePerm due (byteOf p.pc) (byteOf p.pc)))
      else
        let s := if p.boundary then enterBoundary s p else s
        let st := s.strand p.u
        if converges op r && p.mask != st.liveMask then .stop (park s p.u p.mask .converge)
        else
          let act := activeThreads st op r p.mask
          if !act.isEmpty && !queuesReady st us then .stop (park s p.u p.mask .queue)
          else
            let use (sp : Space) (c : Nat) : Bool := us.any fun u => u.sp = sp && u.rd && u.code ≤ c && c < u.code + u.n
            let s := s.settleRegs p.u p.mask (use .v) (use .s)
            let st := s.strand p.u
            let pops := if act.isEmpty then [] else (popsOf us).map fun j => (j, (st.q.getD j []).headD [])
            .go { u := p.u, mask := p.mask, act := act, site := p, pops := pops, op := op, raw := r, rule := ruleOf st op r.tr
                  here := siteTag s st p.pc } s

/-! ### After execution -/

/-- The windows after an instruction (R66): each open one has an instruction fewer, or is closed by a taken branch; a
long-latency instruction opens one in its active threads. -/
def windows (s : State) (cx : Cx) (us : List Use) (taken : BitVec 32) : State :=
  let (id, s) := s.newId
  let long := isLong cx.op && !cx.act.isEmpty
  let o : Outst := { id := id, left := if cx.raw.la = 15 then none else some cx.raw.la
                     regs := touched (us.filter (·.wr)) }
  let mine : BitVec 32 := if isUniform cx.op then cx.mask else maskOf cx.act
  s.modStrand cx.u fun st =>
    { st with threads := st.threads.mapIdx fun i t =>
        if cx.mask.getLsbD i then
          let outs := t.outs.map fun w => { w with left := if taken.getLsbD i then some 0 else w.left.map (· - 1) }
          { t with outs := if long && mine.getLsbD i then outs ++ [o] else outs }
        else t }

/-- Threads of a set grouped by their pcs, in lane order. -/
def byPc (st : Strand) (m : BitVec 32) : List (BitVec 62 × BitVec 32) :=
  (st.byLane m).foldl (fun g i =>
    let pc := (st.thread i).pc
    if g.any fun e => e.1 == pc then g.map fun e => if e.1 == pc then (e.1, e.2 ||| BitVec.twoPow 32 i) else e
    else g ++ [(pc, BitVec.twoPow 32 i)]) []

/-- A boundary has taken effect: each thread is in a new region that starts at its next instruction (R161, R162). -/
def leaveBoundary (s : State) (u : Nat) (m : BitVec 32) : State :=
  let (id, s) := s.newId
  let s := closeThreads s u m id
  (byPc (s.strand u) (m &&& (s.strand u).liveMask)).foldl (fun s g => openRegion s u g.2 g.1 false) s

/-- The instruction is complete: pcs, windows, regions, the run (R57). -/
def complete (s : State) (cx : Cx) (us : List Use) (jumped : Bool) (taken : BitVec 32) : State :=
  let s := s.modStrand cx.u fun st =>
    dropHeads (if jumped then st else st.modThreads cx.mask fun t => { t with pc := cx.next }) (cx.pops.map (·.1))
  let s := windows s cx us taken
  let s := if cx.site.boundary then leaveBoundary s cx.u cx.mask else s
  if cx.site.boundary || taken != 0 then stopRun s else s

/-- Poison consumed by a vector-class or uniform-class instruction (R346, R347): inside a span with P it unwinds the strand
in place of completing, from the state before; otherwise CHKI records it.
DEDUCED: log entry 51, unsafe. -/
def consume (before after : State) (u : Nat) : State × Bool :=
  match unwind (before.modStrand u fun st => st.chkiEvent 1) u 0x40 with
  | some s => (s, true)
  | none => (after.modStrand u fun st => st.chkiEvent 1, false)

/-- What an execution's end does to the fragment. -/
def finish (before : State) (cx : Cx) (us : List Use) (e : Eff) : State :=
  match e with
  | .done s false => complete s cx us false 0
  | .done s true =>
    match consume before s cx.u with
    | (s, true) => stopRun s
    | (s, false) => complete s cx us false 0
  | .jump s taken => complete s cx us true taken
  | .trap x s => trapAt s cx.site cx.op cx.raw us x
  | .wait w s => park s cx.u cx.mask w
  | .gone s => stopRun s

/-- The site of the instruction at a fragment's pc. -/
def siteOf (s : State) (u : Nat) (m : BitVec 32) (i : Instr) (op : Nat) (r : Raw) : Site :=
  let st := s.strand u
  { u := u, mask := m, pc := (st.thread (st.lowest m)).pc, words := r.form.words, word0 := encode i % 2 ^ 32
    boundary := isBoundary op (usesOf op r) }

/-- One fragment executes an instruction. `body` is its effect in the active threads; with none of them active it has none.
DEDUCED: log entry 21, unsafe. -/
def issueAt (i : Instr) (op : Nat) (r : Raw) (u : Nat) (m : BitVec 32) (s : State) (body : Cx → State → Eff) : State :=
  let us := usesOf op r
  match gate op r us (siteOf s u m i op r) s with
  | .stop s => s
  | .go cx s => finish s cx us (if cx.act.isEmpty then .ok s else body cx s)

/-- The fragment of the run that executes next (R57): its live threads. -/
def issuing (s : State) : Option (Nat × BitVec 32) :=
  s.cur.bind fun r => r.frags[r.j]?.bind fun f =>
    let m := f.2 &&& (s.strand f.1).liveMask
    if m = 0 then none else some (f.1, m)

/-- An instruction executes for the issuing fragment. -/
def issue (i : Instr) (s : State) (body : Cx → State → Eff) : Host.Outcome State Fault Refusal :=
  match toRaw i, issuing s with
  | some (op, r), some (u, m) => .next (issueAt i op r u m s body)
  | _, _ => .fault .noFragment

end Sys2Proof.Machine
end

