-- ==== Sys2Proof/Machine/Settle.lean ====
section
/-!
DEFINITION. Waiting for stores and for the engines, and the faults such a wait reports: DRAIN (R169), releases (R185, R237)
and the final EXIT (R160).
-/

namespace Sys2Proof.Machine

/-- An entry counts for threads `m`: it holds a store of one of them, or belongs to no thread (R110). -/
def countsFor (m : BitVec 32) (e : BufStore) : Bool := entryThreads e == 0 || (entryThreads e &&& m) != 0

/-- Closed stores of threads `m`, and stores to peers (R383), that are not yet performed and checked. -/
def storesOwed (st : Strand) (m : BitVec 32) : Bool := st.cq.any (countsFor m) || !st.unacked.isEmpty

/-- The store faults that a wait for the stores of `m` reports, whichever boundary closed them (R167). -/
def nowFaults (st : Strand) (m : BitVec 32) : List StFault :=
  st.stFaults.filter fun f => (f.threads == 0 || (f.threads &&& m) != 0) && (st.trap.all fun t => t.since ≤ f.seq)

/-- Wait until the closed stores of `m` are performed and checked; a fault found is reported, otherwise `k` follows.
DEDUCED: log entry 22, unsafe. -/
def settleStores (s : State) (u : Nat) (m : BitVec 32) (restart next : Nat) (k : State → Eff) : Eff :=
  let s := commitPass s u (countsFor m)
  let st := s.strand u
  if storesOwed st m then .wait .stores s
  else
    match nowFaults st m with
    | [] => k s
    | fs => .trap (storePerm fs restart next) (dropFaults s u fs)

/-- The trap of a deferred engine fault; the weight stream's own causes mint WS_ERROR (R106). -/
def engExc (f : EngFault) (restart next : Nat) : Exc :=
  { cause := f.cause, sub := f.sub, addr := f.addr, restart := some restart, next := some next
    expected := f.expected, computed := f.computed
    birth := if 0x50 ≤ f.cause ∧ f.cause ≤ 0x52 then
        some { kind := 8, a := f.tag, result := BitVec.ofNat 32 f.addr }
      else none }

/-- The fault of smallest issue number. -/
def oldestFault (l : List EngFault) : Option EngFault :=
  l.foldl (fun a f => match a with
    | none => some f
    | some g => if f.seq < g.seq then some f else some g) none

/-- A strand's work in the engines whose writes a release waits for: ACCST, and blocks to the scratchpad (R237). -/
def releaseOwed (s : State) (u : Nat) : Bool :=
  let st := s.strand u
  st.mops.any (fun o => o.kind == .accst) ||
    (s.core st.core).wsu.any fun c => c.1.strand == u && c.1.dst == 1

/-- Peer atomics, and peer writes of copies that a CWAIT has covered, not yet acknowledged (R383). -/
def peersOwed (st : Strand) : Bool := st.peers.any (·.atomic) || st.copyUnacked.any fun c => c.2.1 == 0

/-- A release by threads `m` of the instruction at `pc` (R185, R237): RESTART and NEXT name the instruction. -/
def release (s : State) (u : Nat) (pc : BitVec 62) (m : BitVec 32) (scope : Nat) (k : State → Eff) : Eff :=
  settleStores s u m (byteOf pc) (byteOf pc) fun s =>
    if 4 ≤ scope && peersOwed (s.strand u) then .wait .peer s
    else if releaseOwed s u then .wait .engine s
    else
      let st := s.strand u
      match oldestFault ((st.mtFaults ++ st.wsFaults).filter (·.rel)) with
      | none => k s
      | some f =>
        .trap (engExc f (byteOf pc) (byteOf pc)) (s.modStrand u fun st =>
          { st with mtFaults := st.mtFaults.filter (· ≠ f), wsFaults := st.wsFaults.filter (· ≠ f) })

/-- A strand's copies, matrix operations and weight commands that have neither completed nor stopped (R160). -/
def enginesOwed (s : State) (u : Nat) : Bool :=
  let st := s.strand u
  let c := s.core st.core
  c.copies.any (fun x => x.strand == u) || !st.mops.isEmpty ||
    c.wsu.any (fun x => x.1.strand == u) || !st.copyUnacked.isEmpty ||
    st.peers.any (·.atomic)

/-- Every thread of a strand that has not ended. -/
def Strand.allMask (st : Strand) : BitVec 32 :=
  maskOf ((List.range st.threads.length).filter fun i => (st.thread i).live || (st.thread i).exited)

/-- Every open region of a strand is closed, and the threads stand in the own region of the instruction at `pc` (R160). -/
def closeAll (s : State) (p : Site) : State :=
  let st := s.strand p.u
  let i := st.lowest p.mask
  if st.buf.isEmpty && st.regions.any (fun r => r.id == (st.thread i).region && r.own && r.start == p.pc) then s
  else
    let (id, s) := s.newId
    let m := (s.strand p.u).allMask
    openRegionAs (closeThreads s p.u m id) p.u ((s.strand p.u).liveMask) p.pc true id

/-- The end of a strand by EXIT or SYS.HALT (R160).
DEDUCED: log entry 22, unsafe. -/
def finalExit (s : State) (p : Site) (k : State → Eff) : Eff :=
  let st := s.strand p.u
  let at_ := byteOf p.pc
  if st.threads.any fun t => t.live && !t.outs.isEmpty then .wait .lookahead s
  else
    let s := closeAll s p
    let s := commitPass s p.u fun _ => true
    let st := s.strand p.u
    if !st.cq.isEmpty || !st.unacked.isEmpty then .wait .stores s
    else if enginesOwed s p.u then .wait .engine s
    else
      match st.stFaults, oldestFault st.cpFaults, oldestFault st.mtFaults, oldestFault st.wsFaults with
      | f :: fs, _, _, _ => .trap (storePerm (f :: fs) at_ at_) (dropFaults s p.u (f :: fs))
      | [], some f, _, _ =>
        .trap (engExc f at_ at_) (s.modStrand p.u fun st => { st with cpFaults := st.cpFaults.filter (· ≠ f) })
      | [], none, some f, _ =>
        .trap (engExc f at_ at_) (s.modStrand p.u fun st => { st with mtFaults := st.mtFaults.filter (· ≠ f) })
      | [], none, none, some f =>
        .trap (engExc f at_ at_) (s.modStrand p.u fun st => { st with wsFaults := st.wsFaults.filter (· ≠ f) })
      | [], none, none, none => k (endStrand s p.u .ended)

end Sys2Proof.Machine
end

