-- ==== Sys2Proof/Machine/Flags.lean ====
section
/-!
DEFINITION. Floating-point flags, traps, events and the writing of results: the frame of R122 with R85, R88, R100 to R102.
-/

namespace Sys2Proof.Machine

/-- rm_eff (R80): RM, or FCTL.RND where RM is 0. -/
def Strand.rmEff (st : Strand) (rm : Nat) : Nat := if rm = 0 then cfld st.ctl.fctl 0 3 else rm

/-- The random bits of the j-th rounding in a lane (R83). -/
def Strand.srBits (st : Strand) (lane j : Nat) : Nat := gen st.ctl.genk st.ctl.genc lane / 2 ^ (16 * j) % 2 ^ 16

/-- How the j-th rounding in a lane is made: mode, random bits, FTZ, F8SAT. -/
def Strand.rnd (st : Strand) (rm lane j : Nat) : Rnd :=
  let m := st.rmEff rm
  { rm := m, r := if m = 6 then st.srBits lane j else 0, ftz := st.ftz, f8sat := st.f8sat }

/-- The lowest enabled flag of a gathered set (R85). -/
def Strand.fpTrap (st : Strand) (gathered : Nat) : Option Nat :=
  (List.range 5).find? fun j => gathered / 2 ^ j % 2 = 1 && cfld st.ctl.fctl (3 + j) 1 = 1

/-- The gathered flags ORed into FCTL.FLAGS (R85). -/
def Strand.raise (st : Strand) (gathered : Nat) : Strand :=
  { st with ctl := { st.ctl with fctl := st.ctl.fctl ||| BitVec.ofNat 64 (gathered % 32 * 256) } }

/-- C advanced by one (R88). -/
def Strand.advance (st : Strand) : Strand := { st with ctl := { st.ctl with genc := st.ctl.genc + 1 } }

/-- The union of flag sets. -/
def gather (l : List Nat) : Nat := l.foldl Nat.lor 0

/-- A pattern of a format is ±∞ or NaN (R100). -/
def Fmt.special (f : Fmt) (pat : Nat) : Bool := f.maxPat < pat % f.signBit

/-- The floating-point trap of a gathered set, or the continuation (R85).
DEDUCED: log entry 51, unsafe. -/
def orFpTrap (s : State) (u : Nat) (gathered : Nat) (go : Eff) : Eff :=
  match (s.strand u).fpTrap gathered with
  | some j => .trap { cause := 0x10 + j, flags := gathered } s
  | none => go

/-- Flags raised and, where the instruction drew on the generator, C advanced.
DEDUCED: log entry 51, unsafe. -/
def settleFp (s : State) (u gathered : Nat) (draw : Bool) : State :=
  s.modStrand u fun st => let st := st.raise gathered; if draw then st.advance else st

/-- Lane results written to a vector destination in the frame of R122. -/
def finishLanes (s : State) (cx : Cx) (d fmt : Nat) (draw : Bool) (rs : List (Nat × LaneRes)) : Eff :=
  let gathered := gather (rs.map (·.2.flags))
  orFpTrap s cx.u gathered <|
    let (s, ws) := tagLanes s cx fmt rs
    .done (settleFp (writeD s cx d ws) cx.u gathered draw) (rs.any (·.2.poison))

/-- A uniform result written in the frame of R122, its birth a uniform one (R103). -/
def finishUniform (s : State) (cx : Cx) (d fmt : Nat) (draw : Bool) (r : LaneRes) : Eff :=
  orFpTrap s cx.u r.flags <|
    let (t, s) := resultTag s cx (cx.threads (s.strand cx.u)) true 0 r.srcs r.listed r.event fmt r.pat
    .done (settleFp (writeU s cx d r.words t) cx.u r.flags draw) r.poison

/-- Predicates written; compares have no tagged result and raise no flag (R122, R128). -/
def finishPreds (s : State) (cx : Cx) (d : Nat) (rs : List (Nat × Bool)) (poison : Bool) : Eff :=
  .done (writeP s cx d rs) poison

/-! ### One rounded result -/

/-- Pattern, flags and event of a rounding: `nanIn` some input is NaN, `finIn` all are finite, `dz` the division event. -/
structure FpOut where
  pat : Nat
  flags : Nat
  ev : Event
  deriving DecidableEq, Repr, Inhabited

/-- The event of a result (R100) from its flags: invalid, division, overflow. -/
def fpEvent (f : Fmt) (pat flags : Nat) (nanIn : Bool) : Event :=
  if !f.special pat then none
  else if flags % 2 = 1 && !nanIn then some 2
  else if flags / 2 % 2 = 1 then some 3
  else if flags / 4 % 2 = 1 then some 1
  else none

/-- An exact result rounded, with invalid where a NaN comes of inputs that are not (R85), and divide by zero where `dz`. -/
def fpOut (f : Fmt) (c : Rnd) (nanIn inv dz : Bool) (x : Ex) : FpOut :=
  let (pat, fl) := roundTo f c x
  let flags := Nat.lor fl (bit (inv || (x.isNan && !nanIn)) + 2 * bit dz)
  { pat := pat, flags := flags, ev := fpEvent f pat flags nanIn }

end Sys2Proof.Machine
end

