-- ==== Sys2Proof/Machine/IntVec.lean ====
section
/-!
DEFINITION. Integer arithmetic and logic, LEA, ICMP, SEL, the moves, SHFL, SCAN and SREAD (R125 to R133).
-/

namespace Sys2Proof.Machine

/-! ### The operations of R126 -/

/-- An operand read as Z directs. -/
def intOf (z : Bool) {w : Nat} (x : BitVec w) : Int := if z then (x.toNat : Int) else x.toInt

/-- e mod 2^w, or e clamped with SAT. -/
def intResult (w : Nat) (z sat : Bool) (e : Int) : BitVec w :=
  let lo : Int := if z then 0 else -(2 ^ (w - 1))
  let hi : Int := if z then 2 ^ w - 1 else 2 ^ (w - 1) - 1
  BitVec.ofInt w (if sat then (if e < lo then lo else if hi < e then hi else e) else e)

def opAdd {w : Nat} (z sat : Bool) (a b : BitVec w) : BitVec w := intResult w z sat (intOf z a + intOf z b)
def opSub {w : Nat} (z sat : Bool) (a b : BitVec w) : BitVec w := intResult w z sat (intOf z a - intOf z b)
def opMul {w : Nat} (z sat : Bool) (a b : BitVec w) : BitVec w := intResult w z sat (intOf z a * intOf z b)
def opMad {w : Nat} (z sat : Bool) (a b c : BitVec w) : BitVec w := intResult w z sat (intOf z a * intOf z b + intOf z c)

/-- Bits [63:32] of the 64-bit product. -/
def opMulh (z : Bool) (a b : Word) : Word := BitVec.ofInt 32 ((intOf z a * intOf z b) / 2 ^ 32)
def opMin {w : Nat} (z : Bool) (a b : BitVec w) : BitVec w := if intOf z b < intOf z a then b else a
def opMax {w : Nat} (z : Bool) (a b : BitVec w) : BitVec w := if intOf z a < intOf z b then b else a

/-- Shifts by n, the value of b read as unsigned. -/
def opShl {w : Nat} (a : BitVec w) (n : Nat) : BitVec w := if w ≤ n then 0 else a <<< n
def opShr {w : Nat} (a : BitVec w) (n : Nat) : BitVec w := if w ≤ n then 0 else a >>> n
def opSar {w : Nat} (a : BitVec w) (n : Nat) : BitVec w := if w ≤ n then (if a.msb then -1 else 0) else a.sshiftRight n
def opRot (a : Word) (n : Nat) : Word := a.rotateLeft (n % 32)
def opPopc (a : Word) : Word := BitVec.ofNat 32 ((List.range 32).countP fun i => a.getLsbD i)
def opClz (a : Word) : Word := BitVec.ofNat 32 (((List.range 32).takeWhile fun i => !a.getLsbD (31 - i)).length)
def opBrev (a : Word) : Word := (List.range 32).foldl (fun r i => if a.getLsbD i then r ||| BitVec.twoPow 32 (31 - i) else r) 0

/-! ### Lane by lane -/

/-- A vector operation on a and b in each active lane. -/
def alu2 (o : Alu) (f : Word → Word → Word) (cx : Cx) (s : State) : Eff :=
  let st := s.strand cx.u
  finishLanes s cx o.d 0 false <| cx.act.map fun i =>
    let a := cx.v st i o.a 1
    let b := cx.src st i o.b 1
    (i, laneRes [f a.w b.w] 0 none [a, b])

/-- A vector operation on a, b and c. -/
def alu3 (o : Alu) (f : Word → Word → Word → Word) (cx : Cx) (s : State) : Eff :=
  let st := s.strand cx.u
  finishLanes s cx o.d 0 false <| cx.act.map fun i =>
    let a := cx.v st i o.a 1
    let b := cx.src st i o.b 1
    let c := cx.v st i o.c 1
    (i, laneRes [f a.w b.w c.w] 0 none [a, b, c])

/-- A vector operation on one source. -/
def alu1 (o : Un) (f : Word → Word) (cx : Cx) (s : State) : Eff :=
  let st := s.strand cx.u
  finishLanes s cx o.d 0 false <| cx.act.map fun i => let a := cx.v st i o.a 1; (i, laneRes [f a.w] 0 none [a])

def execNop (bnd : Bool) (s : State) : Host.Outcome State Fault Refusal := issue (.nop bnd) s fun _ s => .ok s
def execIadd (o : Alu) (s : State) : Host.Outcome State Fault Refusal := issue (.iadd o) s (alu2 o (opAdd o.z o.sat))
def execIsub (o : Alu) (s : State) : Host.Outcome State Fault Refusal := issue (.isub o) s (alu2 o (opSub o.z o.sat))
def execImul (o : Alu) (s : State) : Host.Outcome State Fault Refusal := issue (.imul o) s (alu2 o (opMul o.z o.sat))
def execImulh (o : Alu) (s : State) : Host.Outcome State Fault Refusal := issue (.imulh o) s (alu2 o (opMulh o.z))
def execImad (o : Alu) (s : State) : Host.Outcome State Fault Refusal := issue (.imad o) s (alu3 o (opMad o.z o.sat))
def execImin (o : Alu) (s : State) : Host.Outcome State Fault Refusal := issue (.imin o) s (alu2 o (opMin o.z))
def execImax (o : Alu) (s : State) : Host.Outcome State Fault Refusal := issue (.imax o) s (alu2 o (opMax o.z))
def execAnd (o : Alu) (s : State) : Host.Outcome State Fault Refusal := issue (.and o) s (alu2 o (· &&& ·))
def execOr (o : Alu) (s : State) : Host.Outcome State Fault Refusal := issue (.or o) s (alu2 o (· ||| ·))
def execXor (o : Alu) (s : State) : Host.Outcome State Fault Refusal := issue (.xor o) s (alu2 o (· ^^^ ·))
def execAndn (o : Alu) (s : State) : Host.Outcome State Fault Refusal := issue (.andn o) s (alu2 o fun a b => a &&& ~~~b)
def execShl (o : Alu) (s : State) : Host.Outcome State Fault Refusal := issue (.shl o) s (alu2 o fun a b => opShl a b.toNat)
def execShr (o : Alu) (s : State) : Host.Outcome State Fault Refusal := issue (.shr o) s (alu2 o fun a b => opShr a b.toNat)
def execSar (o : Alu) (s : State) : Host.Outcome State Fault Refusal := issue (.sar o) s (alu2 o fun a b => opSar a b.toNat)
def execRot (o : Alu) (s : State) : Host.Outcome State Fault Refusal := issue (.rot o) s (alu2 o fun a b => opRot a b.toNat)
def execPopc (o : Un) (s : State) : Host.Outcome State Fault Refusal := issue (.popc o) s (alu1 o opPopc)
def execClz (o : Un) (s : State) : Host.Outcome State Fault Refusal := issue (.clz o) s (alu1 o opClz)
def execBrev (o : Un) (s : State) : Host.Outcome State Fault Refusal := issue (.brev o) s (alu1 o opBrev)
def execIaddi (o : Alu) (s : State) : Host.Outcome State Fault Refusal := issue (.iaddi o) s (alu2 o (opAdd false false))
def execAndi (o : Alu) (s : State) : Host.Outcome State Fault Refusal := issue (.andi o) s (alu2 o (· &&& ·))
def execShli (o : Alu) (s : State) : Host.Outcome State Fault Refusal := issue (.shli o) s (alu2 o fun a b => opShl a b.toNat)
def execShri (o : Alu) (s : State) : Host.Outcome State Fault Refusal := issue (.shri o) s (alu2 o fun a b => opShr a b.toNat)

/-- base + zext(a) × scale + disp (R127). -/
def leaOf (base : BitVec 64) (a : Word) (sc : Nat) (disp : BitVec 64) : BitVec 64 :=
  base + BitVec.ofNat 64 (a.toNat * 2 ^ sc) + disp

def execLea (o : LeaOp) (s : State) : Host.Outcome State Fault Refusal :=
  issue (.lea o) s fun cx s =>
    let st := s.strand cx.u
    finishLanes s cx o.d 1 false <| cx.act.map fun i =>
      let a := cx.v st i o.a 1
      let b := st.readS o.b 2
      (i, laneRes (wordsOfNat 2 (leaOf b.d a.w o.sc o.disp).toNat) 0 none [a, b])

/-- The conditions of ICMP (R128). -/
def icmp (cond : Nat) (a b : Word) : Bool :=
  match cond with
  | 0 => a == b
  | 1 => a != b
  | 2 => decide (a.toInt < b.toInt)
  | 3 => decide (a.toInt ≤ b.toInt)
  | 4 => decide (b.toInt < a.toInt)
  | 5 => decide (b.toInt ≤ a.toInt)
  | 6 => decide (a.toNat < b.toNat)
  | 7 => decide (a.toNat ≤ b.toNat)
  | 8 => decide (b.toNat < a.toNat)
  | _ => decide (b.toNat ≤ a.toNat)

def execIcmp (o : CmpOp) (s : State) : Host.Outcome State Fault Refusal :=
  issue (.icmp o) s fun cx s =>
    let st := s.strand cx.u
    let rs := cx.act.map fun i =>
      let a := cx.v st i o.a 1
      let b := cx.src st i o.b 1
      (i, icmp o.cond a.w b.w, a.poison || b.poison)
    finishPreds s cx o.d (rs.map fun r => (r.1, r.2.1)) (rs.any (·.2.2))

/-- SEL: srcs is the chosen operand alone, and so is what it reads (R129).
DEDUCED: log entry 52, unsafe. -/
def execSel (o : SelOp) (s : State) : Host.Outcome State Fault Refusal :=
  issue (.sel o) s fun cx s =>
    let st := s.strand cx.u
    finishLanes s cx o.d 0 false <| cx.act.map fun i =>
      let a := cx.v st i o.a 1
      let b := cx.src st i o.b 1
      let x := if predBit (st.thread i).p o.p then a else b
      (i, laneRes [x.w] 0 none [x])

def execMov (o : Un) (s : State) : Host.Outcome State Fault Refusal := issue (.mov o) s (alu1 o id)

def execMovl (o : MovlOp) (s : State) : Host.Outcome State Fault Refusal :=
  issue (.movl o) s fun cx s =>
    let ws := wordsOfNat (if o.wide then 2 else 1) o.lit.toNat
    finishLanes s cx o.d 0 false <| cx.act.map fun i => (i, laneRes ws 0 none [{ words := ws }])

def execMovs (o : MovsOp) (s : State) : Host.Outcome State Fault Refusal :=
  issue (.movs o) s fun cx s =>
    let b := (s.strand cx.u).readS o.b 1
    finishLanes s cx o.d 0 false <| cx.act.map fun i => (i, laneRes [b.w] 0 none [b])

/-! ### Across lanes -/

/-- The number by which SHFL counts a thread's place: its lane, or its lane pair (R131). -/
def place (st : Strand) (i : Nat) : Nat := if st.prot then (st.thread i).lane / 2 else (st.thread i).lane

/-- The place SHFL reads from; none outside 0 to 31. -/
def shflFrom (mode i n : Nat) : Option Nat :=
  match mode with
  | 0 => some n
  | 1 => if n ≤ i then some (i - n) else none
  | 2 => if i + n < 32 then some (i + n) else none
  | _ => some (Nat.xor i n)

def execShfl (o : ShflOp) (s : State) : Host.Outcome State Fault Refusal :=
  issue (.shfl o) s fun cx s =>
    let st := s.strand cx.u
    let live := st.byLane st.liveMask
    finishLanes s cx o.d 0 false <| cx.act.map fun i =>
      let amt := cx.src st i o.amt 1
      let j := ((shflFrom o.mode (place st i) (amt.w.toNat % 32)).bind fun k => live.find? fun t => place st t == k).getD i
      let a := cx.v st j o.a 1
      (i, { laneRes [a.w] 0 none [a] with listed := recordTags [a, amt], poison := a.poison || amt.poison })

/-- FMIN and FMAX on FP32 patterns (R134), inputs flushed under FTZ: −0 < +0; a NaN yields to the other operand. -/
def fminmax (max ftz : Bool) (a b : Nat) : Nat :=
  let fl (x : Nat) : Nat := if ftz && Fmt.f32.isSubnormal x then x / 2 ^ 31 * 2 ^ 31 else x
  let a := fl a
  let b := fl b
  let x := Fmt.f32.value a
  let y := Fmt.f32.value b
  if x.isNan && y.isNan then Fmt.f32.nan
  else if x.isNan then b
  else if y.isNan then a
  else
    let less := x.lt y || (x.eq y && x.sign && !y.sign)
    if less != max then a else b

/-- One FP32 addition of a reduction (R152): pattern, flags, event; the first term is only read and rounded. -/
def fpStep (c : Rnd) (acc : Option Nat) (x : Nat) : FpOut :=
  let v := Fmt.f32.input c.ftz x
  match acc with
  | none => fpOut .f32 c v.isNan false false v
  | some p =>
    let a := Fmt.f32.value p
    fpOut .f32 c (a.isNan || v.isNan) false false (a.add (c.rm == 4) v)

/-- The integer and bitwise combinations of SCAN (R132). -/
def scanComb (op : Nat) (ftz : Bool) (a b : Word) : Word :=
  match op with
  | 0 => a + b
  | 2 => opMin false a b
  | 3 => opMax false a b
  | 4 => opMin true a b
  | 5 => opMax true a b
  | 6 => BitVec.ofNat 32 (fminmax false ftz a.toNat b.toNat)
  | 7 => BitVec.ofNat 32 (fminmax true ftz a.toNat b.toNat)
  | 8 => a &&& b
  | 9 => a ||| b
  | _ => a ^^^ b

def scanIdentity (op : Nat) : Word :=
  match op with
  | 1 => 0x80000000
  | 2 => 0x7FFFFFFF
  | 3 => 0x80000000
  | 4 => 0xFFFFFFFF
  | 6 => 0x7F800000
  | 7 => 0xFF800000
  | 8 => 0xFFFFFFFF
  | _ => 0

/-- One term of a prefix: FP32 words are flushed as inputs are. -/
def scanFirst (op : Nat) (ftz : Bool) (a : Word) : Word :=
  if (op = 6 ∨ op = 7) ∧ ftz ∧ Fmt.f32.isSubnormal a.toNat then a &&& 0x80000000 else a

/-- The prefix so far: its value, the step's flags and event, whether poison entered, tags in lane order. -/
structure Prefix where
  val : Option Word := none
  flags : Nat := 0
  ev : Event := none
  poison : Bool := false
  poisonNew : Bool := false
  tags : List Tag := []
  deriving DecidableEq, Repr, Inhabited

def scanStep (op : Nat) (c : Rnd) (p : Prefix) (a : Opd) : Prefix :=
  let tags := p.tags ++ [a.tag]
  let bad := p.poison || a.poison
  if op = 1 then
    let r := fpStep c (p.val.map (·.toNat)) a.w.toNat
    { val := some (BitVec.ofNat 32 r.pat), flags := r.flags, ev := r.ev, poison := bad, poisonNew := a.poison, tags := tags }
  else
    let v := match p.val with
      | none => scanFirst op c.ftz a.w
      | some x => scanComb op c.ftz x a.w
    { val := some v, poison := bad, poisonNew := a.poison, tags := tags }

/-- The result of a lane from its prefix. SRCA is the tag chosen across the lanes; the birth is minted in the lane where the
result first turns special, and an overflow only where no lane carries a birth (R101, R105, R112). -/
def prefixRes (cx : Cx) (op : Nat) (p : Prefix) (first : Bool) : LaneRes :=
  let v := p.val.getD (scanIdentity op)
  let ev : Event := if p.poisonNew then some 5 else if p.ev = some 2 || !p.tags.any isBirth then p.ev else none
  { words := [v], flags := p.flags, ev := if first then ev else none, pat := v, srcs := [tagPick cx.here cx.rule p.tags] }

/-- Results of a scan in ascending lane order; `born`: some earlier lane's result was special. -/
def scanLanes (cx : Cx) (op : Nat) (excl : Bool) (c : Rnd) (st : Strand) (a : Nat) : List Nat → Prefix → Bool → List (Nat × LaneRes)
  | [], _, _ => []
  | i :: is, p, born =>
    let q := if excl && is.isEmpty then p else scanStep op c p (cx.v st i a 1)
    let mine := if excl then p else q
    let special := mine.poison || (op == 1 && mine.val.any fun v => Fmt.f32.special v.toNat)
    (i, prefixRes cx op mine (!born)) :: scanLanes cx op excl c st a is q (born || special)

/-- Stochastic rounding of an instruction that makes more than two roundings per lane (R83, R132, R152): ILL_FIELD at RM.
DEDUCED: log entry 53, unsafe. -/
def srRefused (s : State) : Eff := .trap { cause := 0x02, sub := 59 } s

/-- Poison that the scan's lanes read is consumed whichever lane it reaches (R346). -/
def execScan (o : ScanOp) (s : State) : Host.Outcome State Fault Refusal :=
  issue (.scan o) s fun cx s =>
    let st := s.strand cx.u
    if o.op = 1 ∧ st.rmEff o.rm = 6 then srRefused s else
    let rs := scanLanes cx o.op o.excl (st.rnd o.rm 0 0) st o.a cx.act {} false
    match finishLanes s cx o.d (if o.op = 1 then 2 else 0) false rs with
    | .done s _ => .done s (cx.act.any fun i => (cx.v st i o.a 1).poison)
    | e => e

/-! ### Identity values -/

/-- The linear index of a strand's skein in its grid (R51, R315). -/
def skeinIndex (s : State) (st : Strand) : Nat := ((sfind s.skeins st.skein).map (·.index)).getD 0

/-- The identity values of R51 for thread i of a fragment. -/
def identity (s : State) (cx : Cx) (i sel : Nat) : Nat :=
  let st := s.strand cx.u
  let l := s.launch st.launch
  let idx := skeinIndex s st
  let cont := gridSkeins l ≤ idx
  let gang := l.msg.gang != 0
  match sel with
  | 0x00 => i
  | 0x01 => (st.thread i).lane
  | 0x02 => st.slot
  | 0x03 => st.part
  | 0x04 => st.core % 8
  | 0x05 => st.core / 8 % 4
  | 0x06 => st.core / 32
  | 0x07 => st.idx
  | 0x08 => st.sid
  | 0x09 => if cont then idx else idx % l.msg.gridx
  | 0x0A => if cont then 0 else idx / l.msg.gridx
  | 0x0B => l.msg.gridx
  | 0x0C => l.msg.gridy
  | 0x0D => rankOf l idx
  | 0x0E => hankOf l idx
  | 0x0F => l.num
  | 0x10 => l.msg.params
  | 0x11 => l.msg.code
  | 0x12 => l.msg.skewpri % 32
  | 0x13 => l.msg.nstrand
  | 0x14 => if gang then l.msg.grank % 2 ^ 14 else 0
  | 0x15 => l.msg.gang
  | 0x16 => st.liveMask.toNat
  | _ => (cx.mask &&& st.liveMask).toNat

def identityWords (sel : Nat) : Nat := if sel = 0x10 ∨ sel = 0x11 then 2 else 1

def execSread (o : SreadOp) (s : State) : Host.Outcome State Fault Refusal :=
  issue (.sread o) s fun cx s =>
    let n := identityWords o.sel
    if o.u then .ok (writeU s cx o.d (wordsOfNat n (identity s cx 0 o.sel)) 0)
    else .ok (writeD s cx o.d (cx.act.map fun i => (i, wordsOfNat n (identity s cx i o.sel), 0)))

end Sys2Proof.Machine
end

