-- ==== Sys2Proof/Machine/Trans.lean ====
section
/-!
DEFINITION. The transcendental functions of R134 and R227, exact to far more bits than any rounding looks at.

Arguments are exact dyadic numbers. Results are fixed-point numbers with 320 fraction bits, truncated by less than 256
units, from which the top bits are kept with the sticky bit set: an irrational result never lies on a rounding boundary.
The exact results (2^x for an integer x, log₂ of a power of two, the functions at zero) are given exactly.
-/

namespace Sys2Proof.Machine

/-- Fraction bits of the fixed-point results.
DEDUCED: log entry 11, unsafe. -/
def fracBits : Nat := 320

/-- Σ z^(2k+1)/(2k+1) from term k on, with p = z^(2k+1) and z2 = z² in fixed point of n fraction bits; alternating signs
give arctan, equal signs artanh. -/
def oddSeries (n z2 : Nat) (alt : Bool) : Nat → Nat → Nat → Int → Int
  | 0, _, _, s => s
  | fuel + 1, k, p, s =>
    let t : Int := (p / (2 * k + 1) : Nat)
    oddSeries n z2 alt fuel (k + 1) (p * z2 / 2 ^ n) (if alt && k % 2 == 1 then s - t else s + t)

/-- artanh of z, at most 1/3, in fixed point. -/
def artanhFix (n z : Nat) : Nat := (oddSeries n (z * z / 2 ^ n) false (n / 3 + 8) 0 z 0).toNat

/-- arctan of 1/d in fixed point. -/
def arctanInv (n d fuel : Nat) : Nat := (oddSeries n (2 ^ n / (d * d)) true fuel 0 (2 ^ n / d) 0).toNat

/-- ln 2 = 2 artanh(1/3). -/
def ln2Fix (n : Nat) : Nat := 2 * artanhFix n (2 ^ n / 3)

/-- π = 16 arctan(1/5) − 4 arctan(1/239) in fixed point. -/
def piFix (n : Nat) : Nat := 16 * arctanInv n 5 (n / 4 + 8) - 4 * arctanInv n 239 (n / 15 + 8)

/-- Σ t^k/k! from term k on, p = t^k/k!. -/
def expSeries (t : Nat) : Nat → Nat → Nat → Nat → Nat
  | 0, _, _, s => s
  | fuel + 1, k, p, s => let p' := p * t / 2 ^ fracBits / (k + 1); expSeries t fuel (k + 1) p' (s + p')

/-- The alternating series of sine (odd powers) or cosine (even powers), from power k on, p = t^k/k!. -/
def trigSeries (t2 : Nat) : Nat → Nat → Nat → Bool → Int → Int
  | 0, _, _, _, s => s
  | fuel + 1, k, p, neg, s =>
    let p' := p * t2 / 2 ^ fracBits / ((k + 1) * (k + 2))
    trigSeries t2 fuel (k + 2) p' (!neg) (if neg then s - p' else s + p')

/-- The top bits of a truncated fixed-point magnitude, with the sticky bit. -/
def fromFix (neg : Bool) (v : Nat) : Ex := .fin neg ((v - 256) / 2 ^ 64) (-256) true

/-- 2^x for a finite x.
DEDUCED: log entry 11, unsafe. -/
def exp2Fin (neg : Bool) (m : Nat) (e : Int) : Ex :=
  if m = 0 then .fin false 1 0 false
  else if 10 ≤ (bitLen m : Int) - 1 + e then (if neg then .fin false 1 (-2000) true else .fin false 1 2000 true)
  else
    let v := scaled neg m e (min e 0)
    let one : Int := 2 ^ (-(min e 0)).toNat
    let k := v / one
    let f := (v % one).toNat
    if f = 0 then .fin false 1 k false
    else
      let t := f * ln2Fix fracBits / 2 ^ (-(min e 0)).toNat
      let s := expSeries t 90 0 (2 ^ fracBits) (2 ^ fracBits)
      match fromFix false s with
      | .fin _ r q st => .fin false r (q + k) st
      | x => x

/-- 2^x (R134). -/
def Ex.exp2 : Ex → Ex
  | .nan => .nan
  | .inf neg => if neg then .fin false 0 0 false else .inf false
  | .fin neg m e _ => exp2Fin neg m e

/-- log₂ of a positive finite value.
DEDUCED: log entry 11, unsafe. -/
def log2Fin (m : Nat) (e : Int) : Ex :=
  let l := Nat.log2 m
  let k : Int := l + e
  if m = 2 ^ l then Ex.ofInt k
  else
    let z := (m - 2 ^ l) * 2 ^ fracBits / (m + 2 ^ l)
    let v := 2 * artanhFix fracBits z * 2 ^ fracBits / ln2Fix fracBits
    if 0 ≤ k then fromFix false (k.toNat * 2 ^ fracBits + v) else fromFix true (k.natAbs * 2 ^ fracBits - v)

/-- log₂ x (R134). -/
def Ex.log2 : Ex → Ex
  | .nan => .nan
  | .inf neg => if neg then .nan else .inf false
  | .fin neg m e _ => if m = 0 then .inf true else if neg then .nan else log2Fin m e

/-- Quadrant and remainder in [0, π/2) of a magnitude, in fixed point. -/
def reduceTrig (m : Nat) (e : Int) : Nat × Nat :=
  let x := scaled false m (e + 560) 0
  let x2 := if e + 560 < 0 then m / 2 ^ (-(e + 560)).toNat else x.toNat
  let p := piFix 560 / 2
  (x2 / p, x2 % p / 2 ^ 240)

/-- sin or cos of a reduced argument, by quadrant.
DEDUCED: log entry 11, unsafe. -/
def trigOf (q t : Nat) : Ex :=
  let t2 := t * t / 2 ^ fracBits
  let v := if q % 2 = 0 then trigSeries t2 45 1 t true t else trigSeries t2 45 0 (2 ^ fracBits) true (2 ^ fracBits)
  fromFix (q / 2 % 2 == 1) v.toNat

/-- sin x for a finite x: below 2^−60 in magnitude it lies just under x. -/
def Ex.sin : Ex → Ex
  | .nan => .nan
  | .inf _ => .nan
  | .fin neg m e _ =>
    if m = 0 then .fin neg 0 0 false
    else if (bitLen m : Int) + e ≤ -60 then .fin neg (m * 2 ^ 200 - 1) (e - 200) true
    else
      let (q, t) := reduceTrig m e
      let r := trigOf q t
      if neg then r.neg else r

/-- cos x for a finite x: below 2^−60 in magnitude it lies just under 1. -/
def Ex.cos : Ex → Ex
  | .nan => .nan
  | .inf _ => .nan
  | .fin _ m e _ =>
    if m = 0 then .fin false 1 0 false
    else if (bitLen m : Int) + e ≤ -60 then .fin false (2 ^ 200 - 1) (-200) true
    else let (q, t) := reduceTrig m e; trigOf (q + 1) t

end Sys2Proof.Machine
end

