-- ==== Sys2Proof/Machine/Float.lean ====
section
/-!
DEFINITION. FP32, FP64 and packed 16-bit arithmetic, FCMP and FCLASS (R128, R134 to R137).
-/

namespace Sys2Proof.Machine

/-- An operation on exact values: the exact result, an invalid operation, a division by zero (R85). `rd`: rounding is RD. -/
abbrev FpOp := Bool → List Ex → Ex × Bool × Bool

def opFadd : FpOp := fun rd l => ((l.getD 0 .nan).add rd (l.getD 1 .nan), false, false)
def opFsub : FpOp := fun rd l => ((l.getD 0 .nan).add rd (l.getD 1 .nan).neg, false, false)
def opFmul : FpOp := fun _ l => ((l.getD 0 .nan).mul (l.getD 1 .nan), false, false)

/-- a × b + c: 0 × ∞ is invalid even when c is NaN. -/
def opFfma : FpOp := fun rd l =>
  let a := l.getD 0 .nan
  let b := l.getD 1 .nan
  ((a.mul b).add rd (l.getD 2 .nan), (a.mul b).isNan && !a.isNan && !b.isNan, false)

def opFdiv : FpOp := fun _ l =>
  let a := l.getD 0 .nan
  let b := l.getD 1 .nan
  (a.div b, false, a.isFin && !a.isZero && b.isZero)

def opFsqrt : FpOp := fun _ l => ((l.getD 0 .nan).sqrt, false, false)
def opFrcp : FpOp := fun _ l => ((Ex.ofInt 1).div (l.getD 0 .nan), false, (l.getD 0 .nan).isZero)
def opFrsq : FpOp := fun _ l => ((l.getD 0 .nan).rsqrt, false, (l.getD 0 .nan).isZero)
def opFex2 : FpOp := fun _ l => ((l.getD 0 .nan).exp2, false, false)
def opFlg2 : FpOp := fun _ l => ((l.getD 0 .nan).log2, false, (l.getD 0 .nan).isZero)
def opFsin : FpOp := fun _ l => ((l.getD 0 .nan).sin, false, false)
def opFcos : FpOp := fun _ l => ((l.getD 0 .nan).cos, false, false)

/-- An operation applied to patterns of a format and rounded once. -/
def fpApply (f : Fmt) (c : Rnd) (op : FpOp) (pats : List Nat) : FpOut :=
  let xs := pats.map (f.input c.ftz)
  let (x, inv, dz) := op (c.rm == 4) xs
  fpOut f c (xs.any Ex.isNan) inv dz x

/-- A lane's scalar result, of one word or a pair. -/
def fpLane (f : Fmt) (st : Strand) (rm lane : Nat) (op : FpOp) (ops : List Opd) : LaneRes :=
  let r := fpApply f (st.rnd rm lane 0) op (ops.map (·.val))
  laneRes (wordsOfNat (f.width / 32) r.pat) r.flags r.ev ops

/-- The first of several events that applies (R102). -/
def firstEvent (es : List Event) : Event :=
  if es.contains (some 2) then some 2
  else if es.contains (some 3) then some 3
  else if es.contains (some 1) then some 1
  else none

/-- A lane's packed result: element j of each word (R76, R137). -/
def packedLane (f : Fmt) (st : Strand) (rm lane : Nat) (op : FpOp) (ops : List Opd) : LaneRes :=
  let el (j : Nat) : FpOut := fpApply f (st.rnd rm lane j) op (ops.map fun o => fld o.w.toNat (16 * j) 16)
  let w : Word := BitVec.ofNat 32 ((el 0).pat + 2 ^ 16 * (el 1).pat)
  laneRes [w] (Nat.lor (el 0).flags (el 1).flags) (firstEvent [(el 0).ev, (el 1).ev]) ops

/-- A floating-point instruction lane by lane: `lane` gives the result of the operands in a lane. -/
def fpLanes (d fmt rm : Nat) (ops : Cx → Strand → Nat → List Opd) (lane : Strand → Nat → List Opd → LaneRes) (cx : Cx)
    (s : State) : Eff :=
  let st := s.strand cx.u
  finishLanes s cx d fmt (st.rmEff rm == 6) <| cx.act.map fun i => (i, lane st (st.thread i).lane (ops cx st i))

def ops1 (o : Un) (cx : Cx) (st : Strand) (i : Nat) : List Opd := [cx.v st i o.a 1]
def ops2 (o : Alu) (n : Nat) (cx : Cx) (st : Strand) (i : Nat) : List Opd := [cx.v st i o.a n, cx.src st i o.b n]
def ops3 (o : Alu) (n : Nat) (cx : Cx) (st : Strand) (i : Nat) : List Opd := ops2 o n cx st i ++ [cx.v st i o.c n]

def fp1 (o : Un) (op : FpOp) : Cx → State → Eff := fpLanes o.d 2 o.rm (ops1 o) fun st l => fpLane .f32 st o.rm l op
def fp2 (o : Alu) (op : FpOp) : Cx → State → Eff := fpLanes o.d 2 o.rm (ops2 o 1) fun st l => fpLane .f32 st o.rm l op
def fp3 (o : Alu) (op : FpOp) : Cx → State → Eff := fpLanes o.d 2 o.rm (ops3 o 1) fun st l => fpLane .f32 st o.rm l op
def dp2 (o : Alu) (op : FpOp) : Cx → State → Eff := fpLanes o.d 3 o.rm (ops2 o 2) fun st l => fpLane .f64 st o.rm l op
def dp3 (o : Alu) (op : FpOp) : Cx → State → Eff := fpLanes o.d 3 o.rm (ops3 o 2) fun st l => fpLane .f64 st o.rm l op

/-- Packed instructions, FMT code 4 for FP16 and 5 for BF16 (R105). -/
def packed2 (f : Fmt) (o : Alu) (op : FpOp) : Cx → State → Eff :=
  fpLanes o.d (if f = .f16 then 4 else 5) o.rm (ops2 o 1) fun st l => packedLane f st o.rm l op
def packed3 (f : Fmt) (o : Alu) (op : FpOp) : Cx → State → Eff :=
  fpLanes o.d (if f = .f16 then 4 else 5) o.rm (ops3 o 1) fun st l => packedLane f st o.rm l op

def execFadd (o : Alu) (s : State) : Host.Outcome State Fault Refusal := issue (.fadd o) s (fp2 o opFadd)
def execFsub (o : Alu) (s : State) : Host.Outcome State Fault Refusal := issue (.fsub o) s (fp2 o opFsub)
def execFmul (o : Alu) (s : State) : Host.Outcome State Fault Refusal := issue (.fmul o) s (fp2 o opFmul)
def execFfma (o : Alu) (s : State) : Host.Outcome State Fault Refusal := issue (.ffma o) s (fp3 o opFfma)
def execFdiv (o : Alu) (s : State) : Host.Outcome State Fault Refusal := issue (.fdiv o) s (fp2 o opFdiv)
def execFsqrt (o : Un) (s : State) : Host.Outcome State Fault Refusal := issue (.fsqrt o) s (fp1 o opFsqrt)
def execFrcp (o : Un) (s : State) : Host.Outcome State Fault Refusal := issue (.frcp o) s (fp1 o opFrcp)
def execFrsq (o : Un) (s : State) : Host.Outcome State Fault Refusal := issue (.frsq o) s (fp1 o opFrsq)
def execFex2 (o : Un) (s : State) : Host.Outcome State Fault Refusal := issue (.fex2 o) s (fp1 o opFex2)
def execFlg2 (o : Un) (s : State) : Host.Outcome State Fault Refusal := issue (.flg2 o) s (fp1 o opFlg2)
def execFsin (o : Un) (s : State) : Host.Outcome State Fault Refusal := issue (.fsin o) s (fp1 o opFsin)
def execFcos (o : Un) (s : State) : Host.Outcome State Fault Refusal := issue (.fcos o) s (fp1 o opFcos)
def execDadd (o : Alu) (s : State) : Host.Outcome State Fault Refusal := issue (.dadd o) s (dp2 o opFadd)
def execDmul (o : Alu) (s : State) : Host.Outcome State Fault Refusal := issue (.dmul o) s (dp2 o opFmul)
def execDfma (o : Alu) (s : State) : Host.Outcome State Fault Refusal := issue (.dfma o) s (dp3 o opFfma)
def execHadd2 (o : Alu) (s : State) : Host.Outcome State Fault Refusal := issue (.hadd2 o) s (packed2 .f16 o opFadd)
def execHmul2 (o : Alu) (s : State) : Host.Outcome State Fault Refusal := issue (.hmul2 o) s (packed2 .f16 o opFmul)
def execHfma2 (o : Alu) (s : State) : Host.Outcome State Fault Refusal := issue (.hfma2 o) s (packed3 .f16 o opFfma)
def execBadd2 (o : Alu) (s : State) : Host.Outcome State Fault Refusal := issue (.badd2 o) s (packed2 .bf16 o opFadd)
def execBmul2 (o : Alu) (s : State) : Host.Outcome State Fault Refusal := issue (.bmul2 o) s (packed2 .bf16 o opFmul)
def execBfma2 (o : Alu) (s : State) : Host.Outcome State Fault Refusal := issue (.bfma2 o) s (packed3 .bf16 o opFfma)

/-- FMIN and FMAX do not round and raise no flag (R134). -/
def minmaxLanes (max : Bool) (o : Alu) (cx : Cx) (s : State) : Eff :=
  let st := s.strand cx.u
  finishLanes s cx o.d 2 false <| cx.act.map fun i =>
    let a := cx.v st i o.a 1
    let b := cx.src st i o.b 1
    (i, laneRes [BitVec.ofNat 32 (fminmax max st.ftz a.w.toNat b.w.toNat)] 0 none [a, b])

def execFmin (o : Alu) (s : State) : Host.Outcome State Fault Refusal := issue (.fmin o) s (minmaxLanes false o)
def execFmax (o : Alu) (s : State) : Host.Outcome State Fault Refusal := issue (.fmax o) s (minmaxLanes true o)

/-- a × 2^n (R134); beyond 2^±2000 every FP32 value has the same fate as at 2^±2000. -/
def fscl (n : Int) : Ex → Ex
  | .fin neg m e st => .fin neg m (e + max (-2000) (min n 2000)) st
  | x => x

def execFscl (o : Alu) (s : State) : Host.Outcome State Fault Refusal :=
  issue (.fscl o) s (fpLanes o.d 2 o.rm (ops2 o 1) fun st l ops =>
    let n := ((ops.getD 1 {}).w).toInt
    let r := fpApply .f32 (st.rnd o.rm l 0) (fun _ xs => (fscl n (xs.getD 0 .nan), false, false)) [(ops.getD 0 {}).val]
    laneRes [BitVec.ofNat 32 r.pat] r.flags r.ev ops)

/-- The integral value of x in a mode, and whether it differs (R134). -/
def frnd (c : Rnd) : Ex → Ex × Bool
  | .fin neg m e st => let r := roundMag c neg m e st 0; (.fin neg r.1 0 false, r.2)
  | x => (x, false)

def execFrnd (o : Un) (s : State) : Host.Outcome State Fault Refusal :=
  issue (.frnd o) s (fpLanes o.d 2 o.rm (ops1 o) fun st l ops =>
    let c := st.rnd o.rm l 0
    let x := Fmt.f32.input c.ftz (ops.getD 0 {}).val
    let r := frnd c x
    laneRes [BitVec.ofNat 32 (roundTo .f32 {} r.1).1] (16 * bit r.2) none ops)

/-- The conditions of FCMP (R128). -/
def fcmp (cond : Nat) (a b : Ex) : Bool :=
  let un := a.isNan || b.isNan
  match cond with
  | 0 => !un && a.eq b
  | 1 => un || !a.eq b
  | 2 => !un && a.lt b
  | 3 => !un && (a.lt b || a.eq b)
  | 4 => !un && b.lt a
  | 5 => !un && (b.lt a || a.eq b)
  | 6 => un
  | _ => !un

def execFcmp (o : CmpOp) (s : State) : Host.Outcome State Fault Refusal :=
  issue (.fcmp o) s fun cx s =>
    let st := s.strand cx.u
    let f : Fmt := if o.dbl then .f64 else .f32
    let n := if o.dbl then 2 else 1
    let rs := cx.act.map fun i =>
      let a := cx.v st i o.a n
      let b := cx.src st i o.b n
      (i, fcmp o.cond (f.input st.ftz a.val) (f.input st.ftz b.val), a.poison || b.poison)
    finishPreds s cx o.d (rs.map fun r => (r.1, r.2.1)) (rs.any (·.2.2))

/-- The class bits of a value and its tag (R135). -/
def classBits (f : Fmt) (ftz : Bool) (bits : Nat) (t : Tag) : Nat :=
  let neg := bits / f.signBit % 2 == 1
  let sub := f.isSubnormal bits && !(ftz && f.ftz)
  let k := match f.input ftz bits with
    | .nan => 8
    | .inf n => if n then 0 else 7
    | .fin _ m _ _ => if m = 0 then (if neg then 3 else 4) else if sub then (if neg then 2 else 5) else if neg then 1 else 6
  2 ^ k + (if isBirth t then 512 else 0)

def execFclass (o : FclassOp) (s : State) : Host.Outcome State Fault Refusal :=
  issue (.fclass o) s fun cx s =>
    let st := s.strand cx.u
    let f : Fmt := if o.dbl then .f64 else .f32
    let rs := cx.act.map fun i =>
      let a := cx.v st i o.a (if o.dbl then 2 else 1)
      (i, Nat.land (classBits f st.ftz a.val a.tag) o.mask != 0, a.poison)
    finishPreds s cx o.d (rs.map fun r => (r.1, r.2.1)) (rs.any (·.2.2))

end Sys2Proof.Machine
end

