-- ==== Sys2Proof/Machine/Convert.lean ====
section
/-!
DEFINITION. Conversions, the narrow dot products, the weight update and random numbers (R138 to R144).
-/

namespace Sys2Proof.Machine

/-! ### CVT (R138, R139) -/

/-- The floating-point format of a code. -/
def fmtOf : Nat → Option Fmt
  | 0 => some .f64 | 1 => some .f32 | 2 => some .f16 | 3 => some .bf16 | 4 => some .e4m3 | 5 => some .e5m2 | _ => none

/-- Width of a format code's element. -/
def fmtWidth : Nat → Nat
  | 0 | 12 | 13 => 64
  | 1 | 10 | 11 => 32
  | 2 | 3 | 8 | 9 => 16
  | 14 => 4
  | _ => 8

/-- Whether an integer format is signed. -/
def fmtSigned (f : Nat) : Bool := f % 2 == 0

/-- The FMT code of a birth whose result has a format (R105). -/
def birthFmt : Nat → Nat
  | 0 => 3 | 1 => 2 | 2 => 4 | 3 => 5 | 4 => 6 | 5 => 7 | 6 | 7 => 8 | 12 | 13 => 1 | 14 => 9 | _ => 0

/-- The integer that a pattern of an integer format stands for. -/
def fmtInt (f pat : Nat) : Int := if fmtSigned f then signedOf (fmtWidth f) pat else (pat : Int)

/-- The value of a source element; `scale` is the N4 scale byte. -/
def cvtValue (f pat scale : Nat) (ftz : Bool) : Ex :=
  match fmtOf f with
  | some g => g.input ftz pat
  | none => if f = 14 then n4Value scale pat else Ex.ofInt (fmtInt f pat)

/-- One element converted: pattern, flags, event. -/
def cvtElem (sf df pat scale : Nat) (sat : Bool) (c : Rnd) : FpOut :=
  let w := fmtWidth df
  if fmtIsInt sf && fmtIsInt df then
    let i := fmtInt sf pat
    let lo : Int := if fmtSigned df then -(2 ^ (w - 1)) else 0
    let hi : Int := if fmtSigned df then 2 ^ (w - 1) - 1 else 2 ^ w - 1
    { pat := patOf w (if sat then max lo (min i hi) else i), flags := 0, ev := none }
  else
    let x := cvtValue sf pat scale c.ftz
    match fmtOf df with
    | some g => fpOut g c x.isNan false false x
    | none =>
      let r := if df = 14 then n4Encode c scale x else toInt c w (fmtSigned df) x
      { pat := r.1, flags := r.2, ev := none }

/-- An N4 destination cannot round with SR (R79).
DEDUCED: log entry 53, unsafe. -/
def execCvt (o : CvtOp) (s : State) : Host.Outcome State Fault Refusal :=
  issue (.cvt o) s fun cx s =>
    let st := s.strand cx.u
    let sw := fmtWidth o.sf
    let dw := fmtWidth o.df
    let narrow := dw < 32
    let n4 := o.sf == 14 || o.df == 14
    let ii := fmtIsInt o.sf && fmtIsInt o.df
    let draw := st.rmEff o.rm == 6 && !ii
    if o.df = 14 ∧ draw then srRefused s
    else
      finishLanes s cx o.d (birthFmt o.df) draw <| cx.act.map fun i =>
        let a := cx.v st i o.a (if sw = 64 then 2 else 1)
        let c := if n4 then cx.v st i o.c 1 else {}
        let old := if narrow then (st.thread i).readV o.d 1 else {}
        let r := cvtElem o.sf o.df (fld a.val (sw * o.se) sw) (fld c.w.toNat (8 * o.sb) 8) o.sat
          (st.rnd o.rm (st.thread i).lane 0)
        let word := if narrow then old.w.toNat - fld old.w.toNat (dw * o.de) dw * 2 ^ (dw * o.de) + r.pat * 2 ^ (dw * o.de)
          else r.pat
        (i, { laneRes (wordsOfNat (if dw = 64 then 2 else 1) word) r.flags r.ev [a] with
              poison := a.poison || c.poison || old.poison })

/-! ### DOT4 and DOT8 (R140, R141) -/

/-- The register of the thread in lane 16h. -/
def scaleReg (st : Strand) (lane code : Nat) : Opd :=
  match st.threads.find? fun t => t.lane == lane / 16 * 16 with
  | some t => t.readV code 1
  | none => {}

/-- An element of DOT4 in format FA or FB, times 2^(X − 32). -/
def dot4Elem (f pat scale : Nat) (ftz : Bool) : Ex :=
  let v := match f with
    | 0 => Fmt.e4m3.input ftz pat
    | 1 => Fmt.e5m2.input ftz pat
    | _ => Ex.ofInt (signedOf 8 pat)
  if scale % 64 = 63 then .nan
  else match v with
    | .fin neg m e st => .fin neg m (e + (scale % 64 : Nat) - 32) st
    | x => x

/-- A lane's dot product: the elements' pairs, c, and the rounding. -/
def dotSum (c : Rnd) (pairs : List (Ex × Ex)) (acc : Nat) : FpOut :=
  let x := Fmt.f32.input c.ftz acc
  let nanIn := x.isNan || pairs.any fun p => p.1.isNan || p.2.isNan
  fpOut .f32 c nanIn false false (x.add (c.rm == 4) (groupSum (c.rm == 4) pairs))

def dotLanes (eight : Bool) (o : DotOp) (cx : Cx) (s : State) : Eff :=
  let st := s.strand cx.u
  finishLanes s cx o.d 2 (st.rmEff o.rm == 6) <| cx.act.map fun i =>
    let lane := (st.thread i).lane
    let a := cx.v st i o.a 1
    let b := cx.src st i o.b 1
    let c := cx.v st i o.c 1
    let ra := scaleReg st lane o.sra
    let rb := scaleReg st lane o.srb
    let sa := fld ra.w.toNat (8 * o.bsa) 8
    let sb := fld rb.w.toNat (8 * o.bsb) 8
    let pairs := if eight then
        (List.range 8).map fun e => (n4Value sa (fld a.w.toNat (4 * e) 4), n4Value sb (fld b.w.toNat (4 * e) 4))
      else
        (List.range 4).map fun e =>
          (dot4Elem o.fa (fld a.w.toNat (8 * e) 8) sa st.ftz, dot4Elem o.fb (fld b.w.toNat (8 * e) 8) sb st.ftz)
    let r := dotSum (st.rnd o.rm lane 0) pairs c.w.toNat
    let res := laneRes [BitVec.ofNat 32 r.pat] r.flags r.ev [a, b, c]
    (i, { res with poison := res.poison || ra.poison || rb.poison })

def execDot4 (o : DotOp) (s : State) : Host.Outcome State Fault Refusal := issue (.dot4 o) s (dotLanes false o)
def execDot8 (o : DotOp) (s : State) : Host.Outcome State Fault Refusal := issue (.dot8 o) s (dotLanes true o)

/-! ### WUPD (R142, R143) -/

/-- rn of R143 with the flags so far. -/
def rn (x : Ex) (flags : Nat) : Ex × Nat :=
  let r := roundTo .f32 {} x
  (Fmt.f32.value r.1, Nat.lor flags r.2)

/-- A product or sum rounded. -/
def rnMul (a b : Ex) (fl : Nat) : Ex × Nat := rn (a.mul b) fl
def rnAdd (a b : Ex) (fl : Nat) : Ex × Nat := rn (a.add false b) fl

/-- The update's results: patterns of w1, m1, v1, the two predicates, flags, whether the NaN case arose. -/
structure Update where
  w1 : Nat
  m1 : Nat
  v1 : Nat
  negv : Bool
  zden : Bool
  flags : Nat
  nan : Bool
  deriving DecidableEq, Repr, Inhabited

/-- The computation of R143; `h` the hyperparameters lr, b1, b2, c1, c2, eps, wd. -/
def update (w g m v : Nat) (h : List Nat) : Update :=
  let val (x : Nat) : Ex := Fmt.f32.value x
  let hp (j : Nat) : Ex := val (h.getD j 0)
  let one := Ex.ofInt 1
  let (b1m, fl) := rnMul (hp 1) (val m) 0
  let (c1b, fl) := rnAdd one (hp 1).neg fl
  let (gm, fl) := rnMul c1b (val g) fl
  let (m1, fl) := rnAdd b1m gm fl
  let (b2v, fl) := rnMul (hp 2) (val v) fl
  let (c2b, fl) := rnAdd one (hp 2).neg fl
  let (g1, fl) := rnMul c2b (val g) fl
  let (g2, fl) := rnMul g1 (val g) fl
  let (v1, fl) := rnAdd b2v g2 fl
  let (mh, fl) := rnMul m1 (hp 3) fl
  let (vh, fl) := rnMul v1 (hp 4) fl
  let negv := !vh.isNan && vh.sign
  let vp := if negv then Ex.fin false 0 0 false else vh
  let (sq, fl) := rn vp.sqrt fl
  let (dd, fl) := rnAdd sq (hp 5) fl
  let zden := dd.isZero
  let (u, fl) := if zden then (Ex.fin false 0 0 false, fl) else rn (mh.div dd) fl
  let (wdw, fl) := rnMul (hp 6) (val w) fl
  let (t1, fl) := rnAdd u wdw fl
  let (t2, fl) := rnMul (hp 0) t1 fl
  let (w1, fl) := rnAdd (val w) t2.neg fl
  let ins := [val w, val g, val m, val v] ++ (List.range 7).map hp
  let mids := [b1m, c1b, gm, m1, b2v, c2b, g1, g2, v1, mh, vh, sq, dd, u, wdw, t1, t2, w1]
  let pat (x : Ex) : Nat := (roundTo .f32 {} x).1
  if (ins ++ mids).any Ex.isNan then
    { w1 := Fmt.f32.nan, m1 := Fmt.f32.nan, v1 := Fmt.f32.nan, negv := false, zden := false, flags := Nat.lor fl 1, nan := true }
  else { w1 := pat w1, m1 := pat m1, v1 := pat v1, negv := negv, zden := zden, flags := fl, nan := false }

/-- The event of an update (R100): a NaN, or an overflow from finite inputs. -/
def updateEvent (r : Update) (ins : List Nat) : Event :=
  if r.nan then some 4
  else if r.flags / 4 % 2 = 1 && ins.all (fun x => (Fmt.f32.value x).isFin) && [r.w1, r.m1, r.v1].any Fmt.f32.special then some 1
  else none

/-- One lane of WUPD: its results and the two predicates. -/
def wupdLane (st : Strand) (o : WupdOp) (h : Opd) (i : Nat) : LaneRes × Bool × Bool :=
  let t := st.thread i
  let q (j : Nat) : Opd := t.readV (o.d + j) 1
  let g := t.readV o.a 1
  let w := fld (q 0).w.toNat 0 16 * 2 ^ 16 + fld (q 1).w.toNat 0 16
  let hs := h.words.map (·.toNat)
  let r := update w g.w.toNat (q 2).w.toNat (q 3).w.toNat hs
  let ops := [q 0, g, q 2, q 3]
  let res := laneRes (([r.w1 / 2 ^ 16, r.w1 % 2 ^ 16, r.m1, r.v1]).map (BitVec.ofNat 32)) r.flags
    (updateEvent r ([w, g.w.toNat, (q 2).w.toNat, (q 3).w.toNat] ++ hs)) ops
  ({ res with pat := BitVec.ofNat 32 r.w1, poison := res.poison || (q 1).poison || h.poison }, r.negv, r.zden)

def execWupd (o : WupdOp) (s : State) : Host.Outcome State Fault Refusal :=
  issue (.wupd o) s fun cx s =>
    let st := s.strand cx.u
    let h := st.readS (8 * o.g) 7
    let rs := cx.act.map fun i => (i, wupdLane st o h i)
    let put (s : State) : State :=
      writeP (writeP s cx o.negv (rs.map fun r => (r.1, r.2.2.1))) cx o.zden (rs.map fun r => (r.1, r.2.2.2))
    match finishLanes s cx o.d 2 false (rs.map fun r => (r.1, r.2.1)) with
    | .done s p => .done (put s) p
    | e => e

/-! ### RAND (R144) -/

/-- A generator value as an integer or as an FP32 fraction. -/
def randWord (f : Bool) (r : Nat) : Word :=
  BitVec.ofNat 32 (if f then (roundTo .f32 {} (.fin false (r / 256) (-24) false)).1 else r)

def execRand (o : RandOp) (s : State) : Host.Outcome State Fault Refusal :=
  issue (.rand o) s fun cx s =>
    let st := s.strand cx.u
    finishLanes s cx o.d (if o.f then 2 else 0) true <| cx.act.map fun i =>
      (i, laneRes [randWord o.f (gen st.ctl.genk st.ctl.genc (st.thread i).lane)] 0 none [])

end Sys2Proof.Machine
end

