-- ==== Sys2Proof/Machine/Uniform.lean ====
section
/-!
DEFINITION. The uniform path: arithmetic, moves, compares and selects on s-registers, the reductions from vector to uniform,
and predicate logic (R145 to R147, R151 to R154).
-/

namespace Sys2Proof.Machine

/-- A uniform source: a register or pair, or a literal sign-extended to the width (R145). -/
def uniSrc (st : Strand) (b : Src) (n : Nat) : Opd :=
  match b with
  | .v c | .s c => st.readS c n
  | .imm x => { words := if n = 2 then wordsOfNat 2 (x.signExtend 64).toNat else [x] }
  | .wide x => { words := wordsOfNat 2 x.toNat }

/-- Uniform arithmetic of 32 or 64 bits (R145). -/
def salu (o : SAlu) (f : (w : Nat) → BitVec w → BitVec w → BitVec w) (cx : Cx) (s : State) : Eff :=
  let st := s.strand cx.u
  let n := if o.b64 then 2 else 1
  let a := st.readS o.a n
  let b := uniSrc st o.b n
  let r := if o.b64 then wordsOfNat 2 (f 64 a.d b.d).toNat else [f 32 a.w b.w]
  finishUniform s cx o.d (if o.b64 then 1 else 0) false (laneRes r 0 none [a, b])

def execSadd (o : SAlu) (s : State) : Host.Outcome State Fault Refusal := issue (.sadd o) s (salu o fun _ => opAdd o.z o.sat)
def execSsub (o : SAlu) (s : State) : Host.Outcome State Fault Refusal := issue (.ssub o) s (salu o fun _ => opSub o.z o.sat)
def execSmul (o : SAlu) (s : State) : Host.Outcome State Fault Refusal := issue (.smul o) s (salu o fun _ => opMul o.z o.sat)
def execSand (o : SAlu) (s : State) : Host.Outcome State Fault Refusal := issue (.sand o) s (salu o fun _ a b => a &&& b)
def execSor (o : SAlu) (s : State) : Host.Outcome State Fault Refusal := issue (.sor o) s (salu o fun _ a b => a ||| b)
def execSxor (o : SAlu) (s : State) : Host.Outcome State Fault Refusal := issue (.sxor o) s (salu o fun _ a b => a ^^^ b)
def execSshl (o : SAlu) (s : State) : Host.Outcome State Fault Refusal := issue (.sshl o) s (salu o fun _ a b => opShl a b.toNat)
def execSshr (o : SAlu) (s : State) : Host.Outcome State Fault Refusal :=
  issue (.sshr o) s (salu o fun _ a b => if o.ar then opSar a b.toNat else opShr a b.toNat)

/-- SMOV adds its operand to s(A), in 32 or 64 bits (R146). -/
def execSmov (o : SmovOp) (s : State) : Host.Outcome State Fault Refusal :=
  issue (.smov o) s fun cx s =>
    let n := if o.wide then 2 else 1
    let a := (s.strand cx.u).readS o.a n
    let r := if o.wide then wordsOfNat 2 (a.d + o.x).toNat else [a.w + o.x.setWidth 32]
    finishUniform s cx o.d (if o.wide then 1 else 0) false (laneRes r 0 none [a])

/-- The conditions of SCMP (R147): those of ICMP, then those of FCMP on FP32. -/
def scmp (cond : Nat) (ftz : Bool) (a b : Word) : Bool :=
  if cond < 10 then icmp cond a b else fcmp (cond - 10) (Fmt.f32.input ftz a.toNat) (Fmt.f32.input ftz b.toNat)

def execScmp (o : ScmpOp) (s : State) : Host.Outcome State Fault Refusal :=
  issue (.scmp o) s fun cx s =>
    let st := s.strand cx.u
    let a := st.readS o.a 1
    let b := uniSrc st o.b 1
    .done (writeK s cx o.d (scmp o.cond st.ftz a.w b.w)) (a.poison || b.poison)

/-- DEDUCED: log entry 52, unsafe. -/
def execSsel (o : SselOp) (s : State) : Host.Outcome State Fault Refusal :=
  issue (.ssel o) s fun cx s =>
    let st := s.strand cx.u
    let x := if predBit st.k o.k then st.readS o.a 1 else uniSrc st o.b 1
    finishUniform s cx o.d 0 false (laneRes [x.w] 0 none [x])

/-! ### From vector to uniform (R151 to R153) -/

/-- The combinations of VTOS on words: OR, AND, MIN, MAX, integer ADD. -/
def vtosComb (mode ty : Nat) (ftz : Bool) (a b : Word) : Word :=
  match mode with
  | 2 => a ||| b
  | 3 => a &&& b
  | 4 | 5 =>
    let max := mode == 5
    if ty = 2 then BitVec.ofNat 32 (fminmax max ftz a.toNat b.toNat)
    else if max then opMax (ty == 1) a b else opMin (ty == 1) a b
  | _ => a + b

/-- The FP32 sum in ascending lane order: pattern and gathered flags (R152). -/
def vtosSum (c : Rnd) (xs : List Word) : Nat × Nat :=
  let r := xs.foldl (fun (p : Option Nat × Nat) x =>
    let o := fpStep c p.1 x.toNat
    (some o.pat, Nat.lor p.2 o.flags)) (none, 0)
  (r.1.getD 0, r.2)

/-- The event of the whole sum: invalid where no term is NaN, overflow where all are finite. -/
def sumEvent (pat flags : Nat) (xs : List Word) : Event :=
  let vs := xs.map fun x => Fmt.f32.value x.toNat
  if !Fmt.f32.special pat then none
  else if flags % 2 = 1 && !vs.any Ex.isNan then some 2
  else if flags / 4 % 2 = 1 && vs.all Ex.isFin then some 1
  else none

/-- A reduction over the contributing lanes' operands: its tag is chosen across the lanes (R112), a birth records that tag,
and an overflow is born only where no lane carries a birth (R101, R105).
DEDUCED: log entry 53, unsafe. -/
def vtosReduce (o : VtosOp) (cx : Cx) (st : Strand) (xs : List Opd) : LaneRes :=
  let ws := xs.map (·.w)
  let tags := xs.map (·.tag)
  let pick := [tagPick cx.here cx.rule tags]
  let bad := xs.any (·.poison)
  if o.mode = 6 ∧ o.ty = 2 then
    let r := vtosSum (st.rnd o.rm 0 0) ws
    let ev := sumEvent r.1 r.2 ws
    { words := [BitVec.ofNat 32 r.1], flags := r.2, ev := if ev = some 1 && tags.any isBirth then none else ev
      pat := BitVec.ofNat 32 r.1, srcs := pick, poison := bad }
  else
    let first := if o.ty = 2 && (o.mode == 4 || o.mode == 5) then scanFirst 6 st.ftz (ws.headD 0) else ws.headD 0
    let v := (ws.drop 1).foldl (vtosComb o.mode o.ty st.ftz) first
    { words := [v], pat := v, srcs := pick, poison := bad }

/-- FIRST and EQ keep the lowest lane's tag, COUNT takes site_tag(), unless TR names a rule (R98, R112). -/
def execVtos (o : VtosOp) (s : State) : Host.Outcome State Fault Refusal :=
  issue (.vtos o) s fun cx s =>
    let st := s.strand cx.u
    let xs := (cx.threads st).map fun i => cx.v st i o.a 1
    let low := xs.headD {}
    match o.mode with
    | 0 => finishUniform s { cx with rule := if o.tr = 0 then 3 else o.tr } o.d 0 false (laneRes [low.w] 0 none [low])
    | 1 =>
      let eq := xs.all fun x => x.w == low.w
      let cx := { cx with rule := if o.tr = 0 then 3 else o.tr }
      finishUniform (writeK s cx o.kf eq) cx o.d 0 false
        { laneRes [low.w] 0 none [low] with poison := xs.any (·.poison) }
    | 7 =>
      finishUniform s { cx with rule := if o.tr = 0 then 4 else o.tr } o.d 0 false
        (laneRes [BitVec.ofNat 32 xs.length] 0 none [])
    | m =>
      if m = 6 ∧ o.ty = 2 ∧ st.rmEff o.rm = 6 then srRefused s
      else finishUniform s cx o.d (if m = 6 ∧ o.ty = 2 then 2 else 0) false (vtosReduce o cx st xs)

def execVote (o : VoteOp) (s : State) : Host.Outcome State Fault Refusal :=
  issue (.vote o) s fun cx s =>
    let st := s.strand cx.u
    let ps := (cx.threads st).map fun i => predBit (st.thread i).p o.p
    let r := match o.mode with
      | 0 => ps.any id
      | 1 => ps.all id
      | _ => ps.all id || !ps.any id
    .ok (writeK s cx o.d r)

def execBallot (o : BallotOp) (s : State) : Host.Outcome State Fault Refusal :=
  issue (.ballot o) s fun cx s =>
    let st := s.strand cx.u
    let m := st.laneMask ((cx.threads st).filter fun i => predBit (st.thread i).p o.p)
    finishUniform s cx o.d 0 false (laneRes [m] 0 none [])

/-! ### Predicate logic (R154) -/

/-- FN[2a + b]. -/
def lop (fn : Nat) (a b : Bool) : Bool := fn / 2 ^ (2 * bit a + bit b) % 2 == 1

def execPlop (o : LopOp) (s : State) : Host.Outcome State Fault Refusal :=
  issue (.plop o) s fun cx s =>
    let st := s.strand cx.u
    .ok (writeP s cx o.d (cx.act.map fun i => let p := (st.thread i).p; (i, lop o.fn (predBit p o.a) (predBit p o.b))))

def execKlop (o : LopOp) (s : State) : Host.Outcome State Fault Refusal :=
  issue (.klop o) s fun cx s =>
    let k := (s.strand cx.u).k
    .ok (writeK s cx o.d (lop o.fn (predBit k o.a) (predBit k o.b)))

end Sys2Proof.Machine
end

