-- ==== Sys2Proof/Machine/Control.lean ====
section
/-!
DEFINITION. Control flow, regions, spans, traps and TAG: opcodes 0x52 to 0x5F (R156 to R177).
-/

namespace Sys2Proof.Machine

/-! ### Branches, calls and returns -/

/-- pcs after a branch: targets of the threads that take it, the next instruction for the others (R156). -/
def goTo (s : State) (cx : Cx) (targets : List (Nat × BitVec 62)) : Eff :=
  .jump (s.modStrand cx.u fun st =>
    { st with threads := st.threads.mapIdx fun i t =>
        if cx.mask.getLsbD i then { t with pc := (targets.lookup i).getD cx.next } else t }) (maskOf (targets.map (·.1)))

/-- A pc-relative target: OFF words from word0 (R156). -/
def relTarget (cx : Cx) (off : BitVec 32) : BitVec 62 := cx.site.pc + off.signExtend 62

def branch (o : BraOp) (cx : Cx) (s : State) : Eff := goTo s cx (cx.act.map fun i => (i, relTarget cx o.off))

def execBra (o : BraOp) (s : State) : Host.Outcome State Fault Refusal := issue (.bra o) s (branch o)
def execSbra (o : BraOp) (s : State) : Host.Outcome State Fault Refusal := issue (.sbra o) s (branch o)

/-- Entries of a return stack held in hardware (R26). -/
def Thread.inHardware (t : Thread) : Nat := t.stack.length - t.spilled

/-- Push a return address; with eight entries in hardware the oldest of them goes to the save slot (R26, R333). -/
def pushReturn (s : State) (u i : Nat) (pc : BitVec 62) : State :=
  let t := (s.strand u).thread i
  let full := t.inHardware = 8
  let oldest := t.stack.getD 7 0
  let s := if full then slotWrite s u (0x1000 + 512 * i + 8 * t.spilled) (toBytes 8 (byteOf oldest)) else s
  s.modStrand u fun st => st.modThreads (BitVec.twoPow 32 i) fun t =>
    { t with stack := pc :: t.stack, spilled := if full then t.spilled + 1 else t.spilled }

/-- Pop an entry; hardware that this empties is filled again from the save slot (R26). -/
def popReturn (t : Thread) : Thread :=
  let t := { t with stack := t.stack.drop 1 }
  if t.inHardware = 0 then { t with spilled := t.spilled - min 8 t.spilled } else t

/-- RETURN_STACK overflow in some calling thread. -/
def stackFull (st : Strand) (ts : List Nat) : Bool := ts.any fun i => 64 ≤ (st.thread i).stack.length

/-- A call to targets already checked (R26, R156, R158). -/
def callTo (s : State) (cx : Cx) (targets : List (Nat × BitVec 62)) : Eff :=
  if stackFull (s.strand cx.u) cx.act then .trap { cause := 0x37, sub := 0 } s
  else goTo (cx.act.foldl (fun s i => pushReturn s cx.u i cx.next) s) cx targets

def execCall (o : BraOp) (s : State) : Host.Outcome State Fault Refusal :=
  issue (.call o) s fun cx s => callTo s cx (cx.act.map fun i => (i, relTarget cx o.off))

/-- The targets of JMP and CALLR in the active lanes, checked in all of them before any effect (R158). A literal target is
checked as the instruction is decoded (R64). -/
def regTargets (target : Src) (cx : Cx) (s : State) (k : List (Nat × BitVec 62) → State → Eff) : Eff :=
  let st := s.strand cx.u
  let xs := cx.act.map fun i => (i, cx.src st i target 2)
  let fault (c : Nat) : Option (Nat × Opd) := xs.find? fun x => addrFault x.2.val 4 == some c
  let lit := match target with | .imm _ | .wide _ => true | _ => false
  match (if lit then none else fault 0x23), (if lit then none else fault 0x24) with
  | some x, _ => addrTrap 0x23 x.2.val (st.thread x.1).lane none x.2.tag 0 false s
  | none, some x => addrTrap 0x24 x.2.val (st.thread x.1).lane none x.2.tag 0 false s
  | none, none => k (xs.map fun x => (x.1, BitVec.ofNat 62 (x.2.val / 4))) s

def execJmp (o : JmpOp) (s : State) : Host.Outcome State Fault Refusal :=
  issue (.jmp o) s fun cx s => regTargets o.target cx s fun ts s => goTo s cx ts

def execCallr (o : JmpOp) (s : State) : Host.Outcome State Fault Refusal :=
  issue (.callr o) s fun cx s => regTargets o.target cx s fun ts s => callTo s cx ts

def execRet (o : NoOp) (s : State) : Host.Outcome State Fault Refusal :=
  issue (.ret o) s fun cx s =>
    let st := s.strand cx.u
    if cx.act.any fun i => (st.thread i).stack.isEmpty then .trap { cause := 0x37, sub := 1 } s
    else
      let ts := cx.act.map fun i => (i, (st.thread i).stack.headD 0)
      goTo (s.modStrand cx.u fun st => st.modThreads (maskOf cx.act) popReturn) cx ts

/-! ### Ending threads -/

/-- Threads exit while others of the strand stay live (R159): bound to the rest of their fragment, or closed at once. -/
def exitSome (s : State) (cx : Cx) : Eff :=
  let gone := maskOf cx.act
  let stay := cx.mask &&& ~~~gone
  let out (bound : BitVec 32) (s : State) : State :=
    s.modStrand cx.u fun st => st.modThreads gone fun t => { t with live := false, exited := true, bound := bound }
  if stay != 0 then .ok (out stay s)
  else if cx.act.any fun i => !((s.strand cx.u).thread i).outs.isEmpty then .wait .lookahead s
  else
    let (id, s) := s.newId
    .ok (closeThreads (out gone s) cx.u gone id)

def execExit (o : NoOp) (s : State) : Host.Outcome State Fault Refusal :=
  issue (.exit o) s fun cx s =>
    let st := s.strand cx.u
    if st.trap.isSome then .trap { cause := 0x61 } s
    else if st.liveMask &&& ~~~maskOf cx.act = 0 then finalExit s cx.site .gone
    else exitSome s cx

/-- RGN (R161): `issue` closes the region before it, as for every boundary, and opens the next after it. -/
def execRgn (o : NoOp) (s : State) : Host.Outcome State Fault Refusal := issue (.rgn o) s fun _ s => .ok s

/-! ### Spans -/

/-- The spans changed, with GSPAN's DEPTH and UNWP (R44, R171). -/
def setSpans (s : State) (u : Nat) (f : List Span → List Span) : State :=
  s.modStrand u fun st => Strand.setGspan { st with spans := f st.spans } (cfld st.ctl.gspan 8 8)

def execGuardOpen (o : GuardOp) (s : State) : Host.Outcome State Fault Refusal :=
  issue (.guardOpen o) s fun cx s =>
    let st := s.strand cx.u
    if 4 ≤ st.depth then .trap { cause := 0x32, sub := 0 } s
    else
      let sp : Span := { handler := relTarget cx o.off, p := o.p, depths := st.threads.map fun t => t.stack.length }
      .ok (setSpans s cx.u (· ++ [sp]))

def execGuardClose (o : NoOp) (s : State) : Host.Outcome State Fault Refusal :=
  issue (.guardClose o) s fun cx s =>
    if (s.strand cx.u).depth = 0 then .trap { cause := 0x32, sub := 1 } s else .ok (setSpans s cx.u List.dropLast)

/-! ### Traps -/

def execTrap (o : TrapOp) (s : State) : Host.Outcome State Fault Refusal :=
  issue (.trap o) s fun cx s =>
    .trap { cause := 0x60, sub := o.code, lanes := some ((s.strand cx.u).laneMask cx.act) } s

/-- TRET outside trap mode traps; in it, the handler's regions close, its stores settle, and `k` returns (R175).
DEDUCED: log entry 27, unsafe. -/
def tret (k : Site → TrapState → State → State) (cx : Cx) (s : State) : Eff :=
  match (s.strand cx.u).trap with
  | none => .trap { cause := 0x01, sub := 3 } s
  | some t =>
    let st := s.strand cx.u
    let others := maskOf ((List.range st.threads.length).filter fun i => (st.thread i).inTrap && !cx.mask.getLsbD i)
    let (id, s) := s.newId
    let s := closeThreads s cx.u others id
    let s := commitPass s cx.u fun _ => true
    let st := s.strand cx.u
    if st.cq.any (fun e => t.since ≤ e.seq) || !st.unacked.isEmpty then .wait .stores s
    else
      match st.stFaults.filter fun f => t.since ≤ f.seq with
      | [] => .gone (k cx.site t s)
      | fs => .trap (storePerm fs (byteOf cx.site.pc) (byteOf cx.site.pc)) (dropFaults s cx.u fs)

def execTretRestart (o : NoOp) (s : State) : Host.Outcome State Fault Refusal :=
  issue (.tretRestart o) s (tret fun p t s => tretRestart s p t)

def execTretNext (o : NoOp) (s : State) : Host.Outcome State Fault Refusal :=
  issue (.tretNext o) s (tret fun p t s => tretNext s p t)

def execTretKill (o : NoOp) (s : State) : Host.Outcome State Fault Refusal :=
  issue (.tretKill o) s (tret fun p t s => terminate s p.u t.cause)

/-! ### CHKERR and DRAIN -/

def execChkerr (o : ChkOp) (s : State) : Host.Outcome State Fault Refusal :=
  issue (.chkerr o) s fun cx s =>
    let h := cfld (s.strand cx.u).ctl.chki 0 4 &&& o.mask
    if h ≠ 0 ∧ o.t then .trap { cause := 0x40, sub := 0x10 + h } s
    else
      let s := writeK s cx o.k (h != 0)
      .ok (if o.clr then
          s.modStrand cx.u fun st => { st with ctl := { st.ctl with chki := st.ctl.chki &&& ~~~BitVec.ofNat 64 h } }
        else s)

/-- DRAIN (R169): a fault that its wait finds is reported with RESTART and NEXT after it.
DEDUCED: log entry 22, unsafe. -/
def execDrain (o : NoOp) (s : State) : Host.Outcome State Fault Refusal :=
  issue (.drain o) s fun cx s =>
    settleStores s cx.u (BitVec.allOnes 32) (byteOf cx.next) (byteOf cx.next) .ok

/-! ### TAG (R177) -/

def execTagGet (o : TagOp) (s : State) : Host.Outcome State Fault Refusal :=
  issue (.tagGet o) s fun cx s =>
    let st := s.strand cx.u
    let xs := cx.act.map fun i => (i, cx.v st i o.a 1)
    .done (writeD s cx o.d (xs.map fun x => (x.1, [x.2.tag.setWidth 32], 0))) (xs.any (·.2.poison))

def execTagSet (o : TagOp) (s : State) : Host.Outcome State Fault Refusal :=
  issue (.tagSet o) s fun cx s =>
    let st := s.strand cx.u
    let xs := cx.act.map fun i => (i, cx.v st i o.a 1, cx.src st i o.b 1)
    let tag (b : Opd) : Tag := b.w.setWidth 16
    if xs.any fun x => tagClass (tag x.2.2) = 0 ∧ tagIndex (tag x.2.2) ≠ 0 then
      .trap { cause := 0x02, sub := if cx.raw.form.isW3 then 32 else 24 } s
    else
      .done (writeD s cx o.d (xs.map fun x => (x.1, [x.2.1.w], if st.tagEn then tag x.2.2 else 0)))
        (xs.any fun x => x.2.1.poison || x.2.2.poison)

/-- A copy of `a` in each active lane, tagged with a SOFTWARE birth minted in ascending lane order. -/
def mintLanes (s : State) (cx : Cx) (xs : List (Nat × Opd)) : State × List (Nat × List Word × Tag) :=
  let st := s.strand cx.u
  xs.foldl (fun r x =>
    let b : Birth := { kind := 7, lane := (st.thread x.1).lane, flags := bit (isBirth x.2.tag), a := x.2.tag, result := x.2.w }
    let t := if st.tagEn && st.mintOn then mint r.1 cx.u cx.site.pc [x.1] false b else (x.2.tag, r.1)
    (t.2, r.2 ++ [(x.1, [x.2.w], t.1)])) (s, [])

def execTagMint (o : TagOp) (s : State) : Host.Outcome State Fault Refusal :=
  issue (.tagMint o) s fun cx s =>
    let st := s.strand cx.u
    let xs := cx.act.map fun i => (i, cx.v st i o.a 1)
    let (s, ws) := mintLanes s cx xs
    .done (writeD s cx o.d ws) (xs.any (·.2.poison))

end Sys2Proof.Machine
end

