-- ==== Sys2Proof/Machine/Access.lean ====
section
/-!
DEFINITION. Memory accesses of the lanes: addresses and their checks (R149, R180), translation of all lanes, loads with the
strand's own view (R114, R164, R182, R346), buffering stores (R164, R183), and parking under absent pages (R192).
-/

namespace Sys2Proof.Machine

/-! ### Addresses -/

/-- One lane's access: thread, lane, address, tags of base and index, whether an address register was poisoned. -/
structure Ea where
  thread : Nat
  lane : Nat
  va : Nat
  base : Tag
  idx : Tag
  poison : Bool := false
  deriving DecidableEq, Repr, Inhabited

/-- base + zext(index) × scale + sext(DISP), mod 2^64 (R149, R180). -/
def addrOf (base : BitVec 64) (idx : Word) (sc : Nat) (disp : BitVec 16) : Nat :=
  (leaOf base idx sc (disp.signExtend 64)).toNat

/-- The accesses of the active lanes: index in a vector register. -/
def vecAddrs (st : Strand) (cx : Cx) (a b sc : Nat) (disp : BitVec 16) : List Ea :=
  let base := st.readS b 2
  cx.act.map fun i =>
    let x := (st.thread i).readV a 1
    { thread := i, lane := (st.thread i).lane, va := addrOf base.d x.w sc disp, base := base.tag, idx := x.tag
      poison := base.poison || x.poison }

/-- A uniform access: index in an s-register. -/
def uniAddr (st : Strand) (cx : Cx) (a b sc : Nat) (disp : BitVec 16) : Ea :=
  let base := st.readS b 2
  let x := st.readS a 1
  { thread := st.lowest cx.mask, lane := 0, va := addrOf base.d x.w sc disp, base := base.tag, idx := x.tag
    poison := base.poison || x.poison }

/-- The first check of R180 that fails: every lane's upper bits, then every lane's alignment. -/
def badAddr (xs : List Ea) (align : Nat) : Option (Nat × Ea) :=
  match xs.find? fun x => 2 ^ 56 ≤ x.va with
  | some x => some (0x23, x)
  | none => (xs.find? fun x => x.va % align != 0).map (0x24, ·)

/-- The checks of R180, with the trap of the lowest failing lane. -/
def withAddrs (xs : List Ea) (align : Nat) (uniform : Bool) (s : State) (k : State → Eff) : Eff :=
  match badAddr xs align with
  | some (c, x) => addrTrap c x.va x.lane none x.base x.idx uniform s
  | none => k s

/-! ### Translation -/

/-- What translation makes of one lane: a target with its leaf, a page not present, or a fault. -/
inductive Fate
  | hit (t : Target) (leaf : Nat) | absent (page : Nat) | bad (f : XFault)
  deriving DecidableEq, Repr, Inhabited

/-- Translate one access; a peer slot without a peer fails as a world fault does (R279). -/
def fateOf (s : State) (w : Who) (k : Access) (va n : Nat) : Fate × State :=
  match translate s w k va n with
  | (.ok (.peer slot pa) leaf, s) =>
    match peerRank s w.ctx slot with
    | some _ => (.hit (.peer slot pa) leaf, s)
    | none => (.bad .world, s)
  | (.ok t leaf, s) => (.hit t leaf, s)
  | (.absent, s) => (.absent (va / 4096), s)
  | (.bad f, s) => (.bad f, s)

/-- Every access translated, in lane order. -/
def fates (s : State) (u : Nat) (uniform : Bool) (k : Access) (n : Nat) (xs : List Ea) : List (Ea × Fate) × State :=
  xs.foldl (fun r x =>
    let w := (r.2.strand u).who r.2 (if uniform then none else some x.lane)
    let f := fateOf r.2 w k x.va n
    (r.1 ++ [(x, f.1)], f.2)) ([], s)

def Fate.isHit : Fate → Bool
  | .hit _ _ => true
  | _ => false

/-- The pages that are not present, in lane order.
DEDUCED: log entry 20, unsafe. -/
def absentOf (fs : List (Ea × Fate)) : List Nat :=
  (fs.filterMap fun x => match x.2 with | .absent p => some p | _ => none).dedup

/-- The trap of a translation fault whose own PAGE_PERM sub-cause is `sub` (R180). -/
def permTrap (f : XFault) (sub va : Nat) (s : State) : Eff :=
  .trap { cause := (f.trap sub).1, sub := (f.trap sub).2, addr := va } s

/-- Park under pages; with no free wait-table entry, wait for one (R290). The instruction restarts itself (R192). -/
def parkUnder (s : State) (u : Nat) (ps : List Nat) (wr reenter : Bool) : Eff :=
  let st := s.strand u
  match waitPages s st.core (s.ctxOf st) (ps.map fun p => (p, wr, false)) with
  | some s => .wait (.pages ps reenter) s
  | none => .wait .tableFull s

/-- The lowest lane that does not hit decides: its fault traps; where its page is not present, `absent` follows.
DEDUCED: log entry 20, unsafe. -/
def withHits (fs : List (Ea × Fate)) (sub : Nat) (s : State) (absent : List Nat → State → Eff) (k : State → Eff) : Eff :=
  match fs.find? fun x => !x.2.isHit with
  | some (x, .bad f) => permTrap f sub x.va s
  | some (_, .absent _) => absent (absentOf fs) s
  | _ => k s

/-- Bytes performed in memory at once, with what the device notices of them (R301).
DESIGN CHOICE: log entry 2, unsafe. -/
def perform (s : State) (ps : List Piece) : State := noteSlots (s.storeAll ps) ps

/-- Bytes performed whose sectors keep their tags: barrier updates (R194). -/
def performUntagged (s : State) (ps : List Piece) : State :=
  let s := s.settleStore ps
  noteSlots { s.store ps with tags := s.tags } ps

/-- Some access overlaps a range in flight on the core (R182, R183). -/
def anyHeld (s : State) (u : Nat) (xs : List Ea) (n : Nat) : Bool :=
  let st := s.strand u
  xs.any fun x => rangeHeld s st.core (s.ctxOf st) x.va n s.uid

/-- Lines that the host may hold among the targets of a write: snooped, and waited for (R379). -/
def hostFree (s : State) (ls : List (Nat × Nat)) (k : State → Eff) : Eff :=
  match heldLines s (ls.map fun l => (l.1, List.replicate l.2 0, 0)) with
  | [] => k s
  | hs => .wait .snoop (s.snoop hs)

/-- An effect on ORD = 0b10 pages waits for the bobbin in a deterministic launch (R203). -/
def bobbinFree (s : State) (u : Nat) (fs : List Fate) : Bool :=
  let st := s.strand u
  let shared (f : Fate) : Bool := match f with | .hit _ leaf => leafOrd leaf == 2 | _ => false
  !(isDet (s.launch st.launch) && !holdsBobbin s st && fs.any shared)

/-- Locations among targets. -/
def localOf (fs : List Fate) (n : Nat) : List (Nat × Nat) :=
  fs.filterMap fun f => match f with | .hit (.loc l) _ => some (l, n) | _ => none

/-- Wait until the closed stores of threads are performed, without a report (R192). -/
def afterStores (s : State) (u : Nat) (m : BitVec 32) (k : State → Eff) : Eff :=
  let s := commitPass s u (countsFor m)
  if storesOwed (s.strand u) m then .wait .stores s else k s

/-! ### Loads -/

/-- What a load finds at a location: words, sector tag, poison. -/
structure Loaded where
  words : List Word
  tag : Tag
  poison : Bool
  deriving DecidableEq, Repr, Inhabited

/-- The words of n bytes, extended as SX directs (R182). -/
def extendWords (sx : Bool) (n x : Nat) : List Word :=
  if n < 4 then [if sx then BitVec.ofInt 32 (signedOf (8 * n) x) else BitVec.ofNat 32 x] else wordsOfNat (n / 4) x

/-- n bytes read at a location; each word with a byte in a poisoned unit reads as poison (R346).
DESIGN CHOICE: log entry 2, unsafe. -/
def loadAt (s : State) (loc n : Nat) (sx : Bool) : Loaded :=
  let ws := extendWords sx n (s.readNat loc n)
  let bad (j : Nat) : Bool := s.poisonedAt (loc + 4 * j) (min n 4)
  { words := ws.mapIdx fun j w => if bad j then poisonWord else w
    tag := s.tagOf loc n
    poison := s.poisonedAt loc n }

/-- The strand's view of memory, or memory itself where it has no store of its own outstanding (R164). -/
def viewOf (s : State) (u : Nat) : State :=
  let st := s.strand u
  if st.cq.isEmpty && st.buf.isEmpty then s else ownView s u none

/-- Locations hit are settled: raw check bits are looked at (R357). -/
def settleHits (s : State) (n : Nat) (fs : List (Ea × Fate)) : State :=
  fs.foldl (fun s x => match x.2 with | .hit (.loc l) _ => s.settle l n | _ => s) s

/-- The tag of a loaded result: the sector's tag, or by R101 where poison was read. -/
def loadTag (s : State) (cx : Cx) (own : List Nat) (uniform : Bool) (x : Ea) (r : Loaded) : Tag × State :=
  if r.poison then
    resultTag s cx own uniform x.lane [r.tag] [r.tag] (some 5) (if r.words.length = 1 then 0 else 1) (patWord r.words)
  else (if (s.strand cx.u).tagEn then r.tag else 0, s)

/-- A request to a peer for `size` bytes, and the note that its answer goes to registers from `code` (R328); a 17th waits
(R333). -/
def askPeer (s : State) (u : Nat) (rank pa type : Nat) (ops : BitVec 256) (w : PeerWait) : State :=
  let st := s.strand u
  let l := s.launch st.launch
  let (seq, s) := s.newId
  let full := 16 ≤ (st.peers.filter fun x => x.unsent.isNone).length
  let s := if full then s else s.sendPeer type 0 l.msg.gang rank l.msg.grank pa (respTag s st seq) ops []
  let w := { w with seq := seq, rank := rank, en := st.tagEn, unsent := if full then some (type, pa, ops) else none }
  s.modStrand u fun st => { st with peers := st.peers ++ [w] }

/-! ### Stores -/

/-- Store instructions of thread i in its current region (R164). -/
def storeCount (st : Strand) (i : Nat) : Nat :=
  (st.buf.filter fun e => (match e.kind with | .birth _ _ => false | _ => true) &&
    e.lanes.any fun l => l.thread == i && !l.closed && l.region == (st.thread i).region).length

/-- A 33rd store: the regions of the whole fragment are discarded, and REGION_OVERFLOW is taken (R164).
DEDUCED: log entry 58, unsafe. -/
def overflow (s : State) (cx : Cx) : Eff :=
  let det := isDet (s.launch (s.strand cx.u).launch)
  let (all, s) := discard s cx.u cx.mask fun a b => restoreCtl a b det
  .trap { cause := 0x30 } (s.modStrand cx.u fun st =>
    { st with threads := st.threads.mapIdx fun i t =>
        if all.getLsbD i && !cx.mask.getLsbD i then { t with pc := st.startOf i, wait := .ready } else t })

/-- One lane's part of a store. -/
def stLane (st : Strand) (i lane va size : Nat) (x : Opd) : StLane :=
  { thread := i, region := (st.thread i).region, lane := lane, addr := va, tag := if st.tagEn then x.tag else 0
    bytes := toBytes (2 ^ size) x.val }

/-- A store placed in the region store buffer (R164, R183). -/
def bufferStore (s : State) (cx : Cx) (kind : StKind) (size : Nat) (sc : Bool) (lanes : List StLane) : State :=
  let (seq, s) := s.newId
  let st := s.strand cx.u
  let e : BufStore := { seq := seq, kind := kind, pc := cx.site.pc, site := cx.here, size := size
                        rstart := st.startOf ((lanes.map (·.thread)).headD 0), lanes := lanes, sc := sc }
  s.modStrand cx.u fun st => { st with buf := st.buf ++ [e] }

end Sys2Proof.Machine
end

