-- ==== Sys2Proof/Machine/Atomic.lean ====
section
/-!
DEFINITION. ATOM, RED, CAS and FENCE (R189 to R193).
-/

namespace Sys2Proof.Machine

/-- The new value of ATOM and RED on w bits (R190). -/
def atomNew (op w old c : Nat) : Nat :=
  let less : Bool := signedOf w c < signedOf w old
  match op with
  | 0 => (old + c) % 2 ^ w
  | 1 => if less then c else old
  | 2 => if less then old else c
  | 3 => min old c
  | 4 => max old c
  | 5 => fminmax false false old c
  | 6 => fminmax true false old c
  | 7 => Nat.land old c
  | 8 => Nat.lor old c
  | 9 => Nat.xor old c
  | 10 => c
  | _ => (roundTo .f32 { rm := 1 } ((Fmt.f32.value old).add false (Fmt.f32.value c))).1

/-- The code in a peer packet's OPS that stands for CAS, BARV and BARW; smaller ones are the OP codes of R190.
DESIGN CHOICE: log entry 29, unsafe. -/
def opsCas : Nat := 64
/-- DESIGN CHOICE: log entry 29, unsafe. -/
def opsBarv : Nat := 65
/-- DESIGN CHOICE: log entry 29, unsafe. -/
def opsBarw : Nat := 66

/-- OPS of a peer atomic (R381): operands in the lower 128 bits, then the operation and the bytes of the access.
DESIGN CHOICE: log entry 29, unsafe. -/
def opsOf (op n operand : Nat) : BitVec 256 := BitVec.ofNat 256 (operand % 2 ^ 128 + op * 2 ^ 128 + n * 2 ^ 136)

/-- What one lane's atomic finds and leaves: words, tag of the result, poison, state. -/
structure AtomRes where
  words : List Word
  tag : Tag
  poison : Bool
  s : State

/-- One read-modify-write at a location (R191, R346): `new` gives the value to write, or none. -/
def rmw (s : State) (loc n : Nat) (tag : Tag) (new : Nat → Option Nat) : AtomRes :=
  let s := s.settle loc n
  let r := loadAt s loc n false
  if r.poison then { words := r.words.map fun _ => poisonWord, tag := r.tag, poison := true, s := s }
  else
    match new (s.readNat loc n) with
    | some v => { words := r.words, tag := r.tag, poison := false, s := perform s [(loc, toBytes n v, tag)] }
    | none => { words := r.words, tag := r.tag, poison := false, s := s }

/-- The kinds of atomic: whether it returns the old value, and whether it compares. -/
inductive AtomKind
  | atom | red | cas
  deriving DecidableEq, Repr

/-- The operand of a lane: the number to send, the new value from the old one, and the tag it contributes (R191). -/
def atomOperand (k : AtomKind) (o : AtomOp) (t : Thread) : Nat × Tag × (Nat → Option Nat) × Bool :=
  let n := 2 ^ o.size
  let words := n / 4
  match k with
  | .cas =>
    let cmp := t.readV o.c words
    let swap := t.readV (o.c + words) words
    (cmp.val + 2 ^ (8 * n) * swap.val, swap.tag, (fun old => if old = cmp.val then some swap.val else none), cmp.poison || swap.poison)
  | _ =>
    let c := t.readV o.c words
    (c.val, c.tag, (fun old => some (atomNew o.op (8 * n) old c.val)), c.poison)

/-- One lane's atomic. -/
def atomLane (k : AtomKind) (o : AtomOp) (cx : Cx) (x : Ea) (f : Fate) (s : State) : State × Bool :=
  let st := s.strand cx.u
  let n := 2 ^ o.size
  let (operand, tag, new, bad) := atomOperand k o (st.thread x.thread)
  match f with
  | .hit (.loc l) _ =>
    let r := rmw s l n (if st.tagEn then tag else 0) new
    let (t, s) := loadTag r.s cx [x.thread] false x { words := r.words, tag := r.tag, poison := r.poison }
    (if k = .red then s else writeD s cx o.d [(x.thread, r.words, t)], r.poison || bad || x.poison)
  | .hit (.peer slot pa) _ =>
    let w : PeerWait := { seq := 0, thread := x.thread, code := o.d, words := if k = .red then 0 else n / 4, sx := false, size := n
                          pred := false, rank := 0, uniform := false, atomic := true, pc := cx.site.pc, word0 := cx.site.word0 }
    (askPeer s cx.u ((peerRank s (s.ctxOf st) slot).getD 0) pa 3 (opsOf (if k = .cas then opsCas else o.op) n operand) w,
      bad || x.poison)
  | _ => (s, false)

/-- The lanes' atomics in ascending lane order (R191). -/
def atomAll (k : AtomKind) (o : AtomOp) (cx : Cx) (fs : List (Ea × Fate)) (s : State) : Eff :=
  if anyHeld s cx.u (fs.map (·.1)) (2 ^ o.size) then .wait .scoreboard s
  else if !bobbinFree s cx.u (fs.map (·.2)) then .wait .bobbin s
  else
    hostFree s (localOf (fs.map (·.2)) (2 ^ o.size)) fun s =>
      let r := fs.foldl (fun r x => let q := atomLane k o cx x.1 x.2 r.1; (q.1, r.2 || q.2)) (s, false)
      .done r.1 r.2

/-- ATOM, RED and CAS: checks (R192), the order they keep (R185, R192), the effect. -/
def atomic (k : AtomKind) (o : AtomOp) (cx : Cx) (s : State) : Eff :=
  let n := 2 ^ o.size
  let xs := vecAddrs (s.strand cx.u) cx o.a o.b o.sc o.disp
  withAddrs xs n false s fun s =>
    let (fs, s) := fates s cx.u false .atomic n xs
    withHits fs 2 s (fun ps s => parkUnder s cx.u ps true false) fun s =>
      if o.ord = 2 ∨ o.ord = 3 ∨ o.ord = 4 then
        release s cx.u cx.site.pc (maskOf cx.act) o.scope (atomAll k o cx fs)
      else afterStores s cx.u (maskOf cx.act) (atomAll k o cx fs)

def execAtom (o : AtomOp) (s : State) : Host.Outcome State Fault Refusal := issue (.atom o) s (atomic .atom o)
def execRed (o : AtomOp) (s : State) : Host.Outcome State Fault Refusal := issue (.red o) s (atomic .red o)
def execCas (o : AtomOp) (s : State) : Host.Outcome State Fault Refusal := issue (.cas o) s (atomic .cas o)

/-- FENCE (R193): REL, AR and SC release; an acquire waits for nothing here, where every access is performed at once. -/
def execFence (o : FenceOp) (s : State) : Host.Outcome State Fault Refusal :=
  issue (.fence o) s fun cx s =>
    if o.ord = 0 then .ok s else release s cx.u cx.site.pc (maskOf cx.act) o.scope .ok

end Sys2Proof.Machine
end

