-- ==== Sys2Proof/Machine/Barrier.lean ====
section
/-!
DEFINITION. Barrier objects (R194 to R197) and the bobbin (R202).
-/

namespace Sys2Proof.Machine

/-! ### The object -/

/-- Fields of a barrier object (R194). -/
def barArr (x : Nat) : Nat := fld x 0 16
def barExp (x : Nat) : Nat := fld x 16 16
def barPh (x : Nat) : Nat := fld x 32 4
def barWait (x : Nat) : Nat := fld x 40 8
def barPend (x : Nat) : Nat := fld x 48 16
def barTxb (x : Nat) : Nat := fld x 64 32

/-- Bits lo to lo + n − 1 of a number replaced. -/
def setFld (x lo n v : Nat) : Nat := x - fld x lo n * 2 ^ lo + v % 2 ^ n * 2 ^ lo

/-- Reserved bits nonzero, or EXP zero (R197). -/
def barBad (x : Nat) : Bool := fld x 37 3 != 0 || fld x 96 32 != 0 || barExp x == 0

/-- The phase completes where ARR = EXP, PEND = 0 and TXB = 0 (R194). -/
def barSettle (x : Nat) : Nat :=
  if barArr x = barExp x ∧ barPend x = 0 ∧ barTxb x = 0 then setFld (setFld x 0 16 0) 32 4 (barPh x + 1) else x

def barSetOvr (x : Nat) : Nat := setFld x 36 1 1

/-- The update of an arrival (R196). -/
def barArrive (x count tx : Nat) : Nat := barSettle (setFld (setFld x 64 32 (barTxb x + tx)) 0 16 (barArr x + count))

/-- The update of a copy's completion (R199). -/
def barComplete (x length : Nat) : Nat :=
  let y := setFld x 48 16 (barPend x - 1)
  barSettle (if length ≤ barTxb x then setFld y 64 32 (barTxb x - length) else barSetOvr (setFld y 64 32 0))

def barRead (s : State) (loc : Nat) : Nat := s.readNat loc 16

def barWrite (s : State) (loc x : Nat) : State := performUntagged s [(loc, toBytes 16 x, 0)]

/-- WAIT changed (R194: saturating at 255). -/
def barWaiters (s : State) (loc : Nat) (up : Bool) : State :=
  let x := barRead s loc
  barWrite s loc (setFld x 40 8 (if up then min 255 (barWait x + 1) else barWait x - 1))

/-! ### BARI, BARV, BARW -/

/-- The first fault of an arrival at an object (R197). -/
def arriveFault (x : Nat) (bad : Bool) (count tx : Nat) : Option (Nat × Nat) :=
  if barBad x then some (0x35, 0)
  else if bad then some (0x35, 1)
  else if 2 ^ 32 ≤ barTxb x + tx then some (0x35, 3)
  else if barExp x < barArr x + count then some (0x34, 0)
  else none

/-- The object of a barrier instruction: its address checked, translated as `k`, `body` given its target (R197). -/
def barObject (k : Access) (b : Nat) (disp : BitVec 16) (cx : Cx) (s : State) (body : Ea → Fate → State → Eff) : Eff :=
  let st := s.strand cx.u
  let base := st.readS b 2
  let x : Ea := { thread := st.lowest cx.mask, lane := 0, va := addrOf base.d 0 0 disp, base := base.tag, idx := 0, poison := base.poison }
  withAddrs [x] 16 true s fun s =>
    let (fs, s) := fates s cx.u true k 16 [x]
    withHits fs 2 s (fun ps s => parkUnder s cx.u ps k.writes false) fun s =>
      if anyHeld s cx.u [x] 16 then .wait .scoreboard s else body x (fs.headD (x, .absent 0)).2 s

/-- A request about a barrier object on another package; the answer goes to s(D) or k(D) where `words` or `pred` say so. -/
def askBarrier (s : State) (cx : Cx) (slot pa op operand : Nat) (d words : Nat) (pred : Bool) : State :=
  let st := s.strand cx.u
  askPeer s cx.u ((peerRank s (s.ctxOf st) slot).getD 0) pa 3 (opsOf op 16 operand)
    { seq := 0, thread := st.lowest cx.mask, code := d, words := words, sx := false, size := 4, pred := pred, rank := 0
      uniform := true, atomic := true, pc := cx.site.pc, word0 := cx.site.word0 }

/-- BARI (R196): a strong store of the whole object, performed at once, after the stores of earlier regions. -/
def execBari (o : BariOp) (s : State) : Host.Outcome State Fault Refusal :=
  issue (.bari o) s fun cx s =>
    barObject .atomic o.b o.disp cx s fun x f s =>
      let e := (s.strand cx.u).readS o.a 1
      let n := e.w.toNat
      if n = 0 ∨ 0x10000 ≤ n then .trap { cause := 0x35, sub := 1, addr := x.va } s
      else
        afterStores s cx.u cx.mask fun s =>
          if !bobbinFree s cx.u [f] then .wait .bobbin s
          else
            hostFree s (localOf [f] 16) fun s =>
              match f with
              | .hit (.loc l) _ => .done (barWrite s l (n * 2 ^ 16)) (e.poison || x.poison)
              | .hit (.peer slot pa) _ =>
                let st := s.strand cx.u
                let l := s.launch st.launch
                let (seq, s) := s.newId
                let s := s.sendPeer 2 0 l.msg.gang ((peerRank s l.ctx slot).getD 0) l.msg.grank pa (respTag s st seq) 0 (toBytes 16 (n * 2 ^ 16))
                let f : StFault := { threads := cx.mask, own := 0, lanes := st.laneMask (maskBits cx.mask), va := x.va, seq := seq, sub := 0x25 }
                .done (s.modStrand cx.u fun st => { st with unacked := st.unacked ++ [{ seq := seq, fault := f, record := [] }] })
                  (e.poison || x.poison)
              | _ => .ok s

/-- BARV's count: s(A), or ICOUNT where A is 0 and 1 where that is 0; the flag says that a register's count is out of range. -/
def barvCount (st : Strand) (o : BarvOp) : Nat × Bool :=
  if o.a = 0 then (max o.icount 1, false)
  else
    let n := (st.readS o.a 1).w.toNat
    (n, n == 0 || 0x10000 ≤ n)

/-- BARV (R196, R197): a release, then one update of the object. -/
def execBarv (o : BarvOp) (s : State) : Host.Outcome State Fault Refusal :=
  issue (.barv o) s fun cx s =>
    barObject .atomic o.b o.disp cx s fun ea f s =>
      release s cx.u cx.site.pc cx.mask o.scope fun s =>
        if !bobbinFree s cx.u [f] then .wait .bobbin s
        else
          hostFree s (localOf [f] 16) fun s =>
            let st := s.strand cx.u
            let (count, bad) := barvCount st o
            let tx := if o.tx then (st.readS o.c 1).w.toNat else 0
            let poison := ea.poison || (st.readS o.a 1).poison || (o.tx && (st.readS o.c 1).poison)
            match f with
            | .hit (.loc l) _ =>
              let x := barRead s l
              match arriveFault x bad count tx with
              | some (0x34, sub) => .trap { cause := 0x34, sub := sub, addr := ea.va } (barWrite s l (barSetOvr x))
              | some (c, sub) => .trap { cause := c, sub := sub, addr := ea.va } s
              | none =>
                .done (writeU (barWrite s l (barArrive x count tx)) cx o.d [BitVec.ofNat 32 (barPh x)] 0) poison
            | .hit (.peer slot pa) _ =>
              if bad then .trap { cause := 0x35, sub := 1, addr := ea.va } s
              else .done (askBarrier s cx slot pa opsBarv (count + 2 ^ 32 * tx) o.d 1 false) poison
            | _ => .ok s

/-- BARW (R196): true at once where the phase has gone by; a bound of 0 tests only; otherwise it parks, counted in WAIT. -/
def execBarw (o : BarwOp) (s : State) : Host.Outcome State Fault Refusal :=
  issue (.barw o) s fun cx s =>
    barObject .load o.b o.disp cx s fun ea f s =>
      let st := s.strand cx.u
      let ph := (st.readS o.a 1).w.toNat % 16
      let bound := (st.readS o.c 1).w.toNat
      let poison := ea.poison || (st.readS o.a 1).poison || (st.readS o.c 1).poison
      match f with
      | .hit (.loc l) _ =>
        let x := barRead s l
        if barBad x then .trap { cause := 0x35, sub := 0, addr := ea.va } s
        else if barPh x ≠ ph then .done (writeK s cx o.d true) poison
        else if bound = 0 then .done (writeK s cx o.d false) poison
        else if poison && st.poisonSpan then .done s true
        else
          hostFree s [(l, 16)] fun s =>
            let s := if poison then s.modStrand cx.u fun st => st.chkiEvent 1 else s
            let now := (s.dies.getD (dieOfCore st.core) {}).cycle
            .wait (.barw l ph now bound o.d cx.next) (barWaiters s l true)
      | .hit (.peer slot pa) _ => .done (askBarrier s cx slot pa opsBarw (ph + 2 ^ 32 * bound) o.d 0 true) poison
      | _ => .ok s

/-! ### The bobbin (R202) -/

/-- TOKW: a holder passes straight through, another strand waits. -/
def execTokw (o : NoOp) (s : State) : Host.Outcome State Fault Refusal :=
  issue (.tokw o) s fun cx s =>
    let st := s.strand cx.u
    if !isDet (s.launch st.launch) then .trap { cause := 0x36, sub := 0 } s
    else if holdsBobbin s st then .ok s
    else .wait .bobbin s

/-- A closed store may go to an ORD = 0b10 page: a lane's page says so, or is not present. -/
def mayOrder (s : State) (u : Nat) (e : BufStore) : Bool :=
  let ctx := s.context (s.ctxOf (s.strand u))
  e.lanes.any fun l =>
    l.addr < hankWindow &&
      match walk s ctx.ptroot l.addr with
      | .leaf _ bits _ => leafOrd bits == 2
      | .absent => true
      | .malformed => false

/-- TOKP: passes the bobbin on once the strand's stores to ORD = 0b10 pages are performed. -/
def execTokp (o : NoOp) (s : State) : Host.Outcome State Fault Refusal :=
  issue (.tokp o) s fun cx s =>
    let st := s.strand cx.u
    if !isDet (s.launch st.launch) then .trap { cause := 0x36, sub := 0 } s
    else if !holdsBobbin s st then .trap { cause := 0x36, sub := 1 } s
    else
      let s := commitPass s cx.u fun _ => true
      if (s.strand cx.u).cq.any (mayOrder s cx.u) then .wait .stores s
      else .ok (passBobbin s st.launch)

end Sys2Proof.Machine
end

