-- ==== Sys2Proof/Machine/Engine.lean ====
section
/-!
DEFINITION. How the engines reach memory for a strand: translation of a range, the strand's view (R214), reads with tags and
poison, and faults deferred to a later instruction (R200, R223, R235).
-/

namespace Sys2Proof.Machine

/-- Memory as the strand's stores numbered below `seq` leave it (R164, R214).
DEDUCED: log entry 49, unsafe. -/
def viewBefore (s : State) (u seq : Nat) : State :=
  let st := s.strand u
  if (st.cq ++ st.buf).any fun e => e.seq < seq then ownView s u (some seq) else s

/-- A range cut at 4 KiB boundaries: address and length of each part. -/
def rangeCuts (va n : Nat) : List (Nat × Nat) :=
  if n = 0 then []
  else
    (upFrom (va / 4096) ((va + n - 1) / 4096 - va / 4096 + 1)).map fun p =>
      let lo := max va (4096 * p)
      (lo, min (va + n) (4096 * p + 4096) - lo)

/-- A range translated: local parts as (location, length) with their leaves, or the first thing that prevents that. -/
inductive Ranged
  | ok (parts : List (Nat × Nat × Nat)) | absent (page : Nat) | bad (f : XFault) (va : Nat) | peer (rank pa n leaf : Nat)
  deriving DecidableEq, Repr, Inhabited

/-- Translate n bytes, part by part in ascending order. A range whose first part lies on a peer stops there; past the top of
the address space nothing is mapped.
DEDUCED: log entry 49, unsafe. -/
def rangeOf (s : State) (w : Who) (k : Access) (va n : Nat) : Ranged × State :=
  (rangeCuts va n).foldl (fun r p =>
    match r.1 with
    | .ok ps =>
      match (if 2 ^ 56 ≤ p.1 then (.bad .perm, r.2) else fateOf r.2 w k p.1 p.2 : Fate × State) with
      | (.hit (.loc l) leaf, s) => (.ok (ps ++ [(l, p.2, leaf)]), s)
      | (.hit (.peer slot pa) leaf, s) =>
        (if ps.isEmpty then .peer ((peerRank s w.ctx slot).getD 0) pa p.2 leaf else .ok ps, s)
      | (.absent page, s) => (.absent page, s)
      | (.bad f, s) => (.bad f p.1, s)
    | _ => r) (.ok [], s)

/-- Raw check bits of the parts looked at (R357). -/
def settleParts (s : State) (ps : List (Nat × Nat × Nat)) : State := ps.foldl (fun s p => s.settle p.1 p.2.1) s

/-- The leaf by which an address is reached now, if any. -/
def leafOf (s : State) (w : Who) (va : Nat) : Option Nat :=
  if hankWindow ≤ va then some windowLeaf
  else
    match cached (s.core w.core) w va with
    | some e => some e.leaf.toNat
    | none =>
      match walk s (s.context w.ctx).ptroot va with
      | .leaf _ bits _ => some bits
      | _ => none

/-- The bytes of parts. -/
def partBytes (s : State) (ps : List (Nat × Nat × Nat)) : List Byte := ps.flatMap fun p => s.read p.1 p.2.1

/-- The merged tag of the sectors that parts touch (R113). -/
def partTag (s : State) (ps : List (Nat × Nat × Nat)) : Tag := sectorMerge (ps.map fun p => s.tagOf p.1 p.2.1)

/-- Some byte of the parts is poisoned.
DEDUCED: log entry 60, unsafe. -/
def partPoison (s : State) (ps : List (Nat × Nat × Nat)) : Bool := ps.any fun p => s.poisonedAt p.1 p.2.1

/-- A fault as an engine defers it; a page fault's own PAGE_PERM sub-cause is `sub`.
DEDUCED: log entry 49, unsafe. -/
def engFault (f : XFault) (sub va batch seq : Nat) (rel : Bool) : EngFault :=
  { cause := (f.trap sub).1, sub := (f.trap sub).2, addr := va, batch := batch, rel := rel, seq := seq }

/-- Attach to the wait table of a core for one page; none while it is full (R290). -/
def parkPage (s : State) (core ctx page : Nat) (wr : Bool) : Option State := waitPages s core ctx [(page, wr, false)]

/-- An earlier store of the strand to the range is still to be performed: a write of the engine waits for it. -/
def ownStoreDue (s : State) (u seq va n : Nat) : Bool :=
  (s.strand u).cq.any fun e => e.seq < seq && e.lanes.any fun l => va < l.addr + l.bytes.length && l.addr < va + n

/-- What an attempt to fetch gives: a value, a page not present, a fault, or nothing yet. -/
inductive Got (α : Type)
  | ok (a : α) (s : State) | absent (page : Nat) (s : State) | bad (f : XFault) (va : Nat) (s : State) | later (s : State)

/-- What a peer has sent for an operation is no longer needed. -/
def dropPeerBytes (s : State) (u owner : Nat) : State :=
  s.modStrand u fun st => { st with peerBuf := st.peerBuf.filter fun b => b.owner != owner }

/-- n bytes at a peer, asked for in packets of up to 256 bytes (R381); nothing until all have come, OWNERSHIP where the peer
refused some (R279). -/
def peerBytes (s : State) (u owner rank pa n va : Nat) : Got (List Byte) :=
  let cuts := (List.range ((n + 255) / 256)).map fun i => (pa + 256 * i, min 256 (n - 256 * i))
  let found (s : State) (c : Nat × Nat) : Option PeerBuf :=
    (s.strand u).peerBuf.find? fun b => b.owner == owner && b.rank == rank && b.pa == c.1 && b.n == c.2
  let s := cuts.foldl (fun s c =>
    if (found s c).isSome then s
    else
      let st := s.strand u
      let l := s.launch st.launch
      let (seq, s) := s.newId
      let s := s.sendPeer 0 0 l.msg.gang rank l.msg.grank c.1 (respTag s st seq) (opsOf 0 c.2 0) []
      s.modStrand u fun st => { st with peerBuf := st.peerBuf ++ [{ seq := seq, owner := owner, rank := rank, pa := c.1, n := c.2 }] }) s
  let got := cuts.map fun c => (found s c).bind (·.data)
  if cuts.any fun c => (found s c).any (·.refused) then .bad .world va (dropPeerBytes s u owner)
  else if got.all (·.isSome) then .ok (got.flatMap fun b => b.getD []) s
  else .later s

def Got.bind {α β : Type} (x : Got α) (f : α → State → Got β) : Got β :=
  match x with
  | .ok a s => f a s
  | .absent p s => .absent p s
  | .bad e v s => .bad e v s
  | .later s => .later s

/-- A fetch for each item, in order. -/
def gotAll {α β : Type} (f : α → State → Got β) : List α → State → Got (List β)
  | [], s => .ok [] s
  | a :: as, s => (f a s).bind fun b s => (gotAll f as s).bind fun bs s => .ok (b :: bs) s

/-- A byte as fetched, with the tag of its sector or unit and whether its poison unit is poisoned. -/
structure Cell where
  byte : Byte
  tag : Tag
  poison : Bool
  deriving DecidableEq, Repr, Inhabited

/-- Bytes at a location. -/
def cellsAt (s : State) (l n : Nat) : List Cell :=
  (s.read l n).mapIdx fun i b => { byte := b, tag := s.tagOf (l + i) 1, poison := s.poisonedAt (l + i) 1 }

/-- n bytes of memory for a strand's engine work numbered `id` (R214). -/
def fetchCells (k : Access) (u id va n : Nat) (s : State) : Got (List Cell) :=
  let w := (s.strand u).who s none
  match rangeOf s w k va n with
  | (.absent p, s) => .absent p s
  | (.bad f a, s) => .bad f a s
  | (.ok ps, s) =>
    let s := settleParts s ps
    let v := viewBefore s u id
    .ok (ps.flatMap fun p => cellsAt v p.1 p.2.1) s
  | (.peer rank pa m _, s) =>
    (peerBytes s u id rank pa (min m n) va).bind fun bs s =>
      .ok (bs.map fun b => { byte := b, tag := BitVec.ofNat 16 (0xD000 + rank % 4096), poison := false }) s

/-- As `fetchCells` where the range may pass from a peer's page to another page. -/
def fetchRange (k : Access) (u id va n : Nat) (s : State) : Got (List Cell) :=
  (gotAll (fun p s => fetchCells k u id p.1 p.2 s) (rangeCuts va n) s).bind fun cs s => .ok cs.flatten s

/-- The queue that serves a port: the lowest-numbered one mapped to it (R45). -/
def portQueue (st : Strand) (port : Nat) : Option Nat := (List.range 8).find? fun j => cfld st.ctl.qmap (4 * j) 4 == port

/-- A queue entry of 128 bytes, byte j being byte j mod 4 of lane ⌊j/4⌋ (R199), each word with a tag. -/
def entryOf (bs : List Byte) (tag : Nat → Tag) : List TWord :=
  (List.range 32).map fun i => { val := BitVec.ofNat 32 (ofBytes ((bs.drop (4 * i)).take 4)), tag := tag i }

/-- The 128 bytes of a queue entry. -/
def entryBytes (e : List TWord) : List Byte := (List.range 32).flatMap fun i => toBytes 4 ((e.getD i {}).val.toNat)

def pushEntry (s : State) (u j : Nat) (e : List TWord) : State :=
  s.modStrand u fun st => { st with q := st.q.mapIdx fun k es => if k = j then es ++ [e] else es }

def popEntry (s : State) (u j : Nat) : State := s.modStrand u fun st => dropHeads st [j]

end Sys2Proof.Machine
end

