-- ==== Sys2Proof/Machine/Fetch.lean ====
section
/-!
DEFINITION. Fetching an instruction's words (R53, R55) and the traps of a fetch and of a decode (R55, R69).
-/

namespace Sys2Proof.Machine

/-- What a fetch gives: the words as one number, pages not present, a trap, or nothing until a peer answers. -/
inductive Fetched
  | words (w : Nat) | absent (pages : List Nat) | bad (cause sub addr : Nat) | later
  deriving DecidableEq, Repr, Inhabited

/-- The first fault of two results, pages added up. -/
def Fetched.add (a b : Fetched) (shift : Nat) : Fetched :=
  match a, b with
  | .words x, .words y => .words (x + y * 2 ^ shift)
  | .absent p, .absent q => .absent (p ++ q).dedup
  | .words _, r => r
  | r, _ => r

/-- The owner of bytes that a fetch asks of a peer. -/
def fetchOwner : Nat := 2 ^ 64

/-- One word of an instruction. -/
def fetchWord (s : State) (u va : Nat) : Fetched × State :=
  if 2 ^ 56 ≤ va then (.bad 0x23 1 va, s)
  else
    match fateOf s ((s.strand u).who s none) .fetch va 4 with
    | (.hit (.loc l) _, s) =>
      let s := s.settle l 4
      (.words (s.readNat l 4), s)
    | (.hit (.peer slot pa) _, s) =>
      match peerBytes s u fetchOwner ((peerRank s (s.ctxOf (s.strand u)) slot).getD 0) pa 4 va with
      | .ok bs s => (.words (ofBytes bs), s)
      | .absent p s => (.absent [p], s)
      | .bad f _ s => (.bad (f.trap 1).1 (f.trap 1).2 va, s)
      | .later s => (.later, s)
    | (.absent p, s) => (.absent [p], s)
    | (.bad .window, s) => (.bad 0x21 1 va, s)
    | (.bad f, s) => (.bad (f.trap 1).1 (f.trap 1).2 va, s)

/-- The words after the first, `k` of them, from word number `i` on. -/
def fetchRest (s : State) (u va : Nat) : Nat → Nat → Fetched × State
  | 0, _ => (.words 0, s)
  | k + 1, i =>
    let (a, s) := fetchWord s u (va + 4 * i)
    let (b, s) := fetchRest s u va k (i + 1)
    (a.add b 32, s)

/-- All the words of the instruction at a program counter. -/
def fetchAt (s : State) (u : Nat) (pc : BitVec 62) : Fetched × State :=
  let va := byteOf pc
  match fetchWord s u va with
  | (.words w, s) =>
    let (b, s) := fetchRest s u va (wordsOf w - 1) 1
    (Fetched.add (.words w) b 32, s)
  | r => r

/-- The site of an instruction that has not been decoded, or that failed to decode. -/
def bareSite (s : State) (u : Nat) (m : BitVec 32) (w : Nat) : Site :=
  let st := s.strand u
  { u := u, mask := m, pc := (st.thread (st.lowest m)).pc, words := wordsOf w, word0 := w % 2 ^ 32, boundary := false }

/-- A fetch or decode trap (R55, R69): RESTART is the region start, all lanes of the fragment, no tags. -/
def earlyTrap (s : State) (u : Nat) (m : BitVec 32) (w cause sub addr : Nat) : State :=
  stopRun (takeTrap s (bareSite s u m w) { cause := cause, sub := sub, addr := addr })

/-- The trap of an instruction that the checks of R69 refuse. -/
def rejectTrap (s : State) (u : Nat) (m : BitVec 32) (w : Nat) (r : Reject) : State :=
  match r with
  | .illOpcode sub => earlyTrap s u m w 0x01 sub 0
  | .illField pos => earlyTrap s u m w 0x02 pos 0
  | .priv sub => earlyTrap s u m w 0x04 sub 0

/-- A fragment parks under the pages of its instruction (R55, R290); it re-enters as after a load's fault. -/
def parkFetch (s : State) (u : Nat) (m : BitVec 32) (ps : List Nat) : State :=
  let st := s.strand u
  match waitPages s st.core (s.ctxOf st) (ps.map fun p => (p, false, true)) with
  | some s => park s u m (.pages ps true)
  | none => park s u m .tableFull

end Sys2Proof.Machine
end

