-- ==== Sys2Proof/Machine/Card.lean ====
section
/-!
DEFINITION. Carding (R318): fragments at rest in the entries and the spill list of their partition. A waiting or paused
thread is in no entry until it wakes.
-/

namespace Sys2Proof.Machine

/-- A partition of the package: core × 4 + partition. -/
def Strand.home (st : Strand) : Nat := st.core * 4 + st.part

/-- Threads that can issue: live, neither waiting nor paused. -/
def Strand.idle (st : Strand) : BitVec 32 :=
  if st.phase = .resident ∧ !st.held then
    maskOf ((List.range st.threads.length).filter fun i =>
      (st.thread i).live && (st.thread i).wait == .ready && !(st.thread i).paused)
  else 0

/-- The lanes of a fragment. -/
def fragLanes (s : State) (m : Nat × BitVec 32) : BitVec 32 := (s.strand m.1).laneMask (maskBits m.2)

def cardLanes (s : State) (e : Card) : BitVec 32 := e.members.foldl (fun l m => l ||| fragLanes s m) 0

/-- The entry takes a fragment that rests at `pc` (R318 step 1). -/
def Card.admits (s : State) (u : Nat) (mask : BitVec 32) (pc : BitVec 62) (e : Card) : Bool :=
  !e.running && e.pc == pc && e.skein == (s.strand u).skein && (e.members.any (·.1 == u) || e.members.length < 4) &&
    (cardLanes s e &&& fragLanes s (u, mask)) == 0

def Card.join (e : Card) (u : Nat) (mask : BitVec 32) : Card :=
  { e with members :=
      if e.members.any (·.1 == u) then e.members.map fun m => if m.1 = u then (u, m.2 ||| mask) else m
      else e.members ++ [(u, mask)] }

def State.cards (s : State) (part : Nat) : Carding := sget {} s.carding part

def State.setCards (s : State) (part : Nat) (c : Carding) : State := { s with carding := sput {} s.carding part c }

/-- A fragment comes to rest (R318): it joins an entry, takes a free one, or goes to the spill list. -/
def State.rest (s : State) (u : Nat) (mask : BitVec 32) (pc : BitVec 62) : State :=
  let st := s.strand u
  let c := s.cards st.home
  s.setCards st.home <|
    match c.entries.findIdx? (Card.admits s u mask pc) with
    | some j => { c with entries := c.entries.mapIdx fun i e => if i = j then e.join u mask else e }
    | none =>
      if c.entries.length < 64 then
        { c with entries := c.entries ++ [{ pc := pc, skein := st.skein, members := [(u, mask)] }] }
      else { c with spill := c.spill ++ [(u, mask)] }

/-- The part of a member that still rests where the entry says. -/
def stillThere (st : Strand) (u : Nat) (pc : BitVec 62) (m : Nat × BitVec 32) : Nat × BitVec 32 :=
  if m.1 = u then
    (u, maskOf ((maskBits (m.2 &&& st.idle)).filter fun i => (st.thread i).pc == pc))
  else m

/-- Freed entries go to the fragments of the spill list in their order (R318 step 3). -/
def State.unspill (s : State) (part : Nat) : State :=
  let c := s.cards part
  if c.spill.isEmpty || 64 ≤ c.entries.length then s
  else
    c.spill.foldl (fun s m =>
      if m.2 = 0 then s else s.rest m.1 m.2 ((s.strand m.1).thread ((s.strand m.1).lowest m.2)).pc)
      (s.setCards part { c with spill := [] })

/-- A strand's threads carded anew: those that no longer rest where they were leave their entries, and those that rest
uncarded are placed. -/
def State.recard (s : State) (u : Nat) : State :=
  let st := s.strand u
  let c := s.cards st.home
  let clean (e : Card) : Card := if e.running then e else { e with members := (e.members.map (stillThere st u e.pc)).filter (·.2 != 0) }
  let entries := (c.entries.map clean).filter fun e => !e.members.isEmpty
  let spill := (c.spill.map fun m => if m.1 = u then (u, m.2 &&& st.idle) else m).filter (·.2 != 0)
  let placed := (entries.flatMap (·.members) ++ spill).foldl (fun x m => if m.1 = u then x ||| m.2 else x) (0 : BitVec 32)
  let s := s.setCards st.home { entries := entries, spill := spill }
  let s := (byPc st (st.idle &&& ~~~placed)).foldl (fun s g => s.rest u g.2 g.1) s
  s.unspill st.home

/-- Threads of a strand that wait no longer, where `f` says so. -/
def State.wakeIf (s : State) (u : Nat) (f : Wait → Bool) : State :=
  let st := s.strand u
  let now := (s.dies.getD (dieOfCore st.core) {}).cycle
  if st.threads.any fun t => t.live && t.wait != .ready && f t.wait then
    let go (t : Thread) : Thread := if t.live && t.wait != .ready && f t.wait then { t with wait := .ready, since := now } else t
    (s.modStrand u fun st => { st with threads := st.threads.map go }).recard u
  else s

/-- Threads of every resident strand that `mine` selects. -/
def State.wakeAll (s : State) (mine : Nat → Strand → Bool) (f : Wait → Bool) : State :=
  (s.strands.filter fun x => mine x.1 x.2).foldl (fun s x => s.wakeIf x.1 f) s

/-- The run ends (R57): its entry is free, and its fragments come to rest. -/
def State.endRun (s : State) : State :=
  match s.cur with
  | none => s
  | some r =>
    let c := s.cards r.part
    let s := { s with cur := none }.setCards r.part { c with entries := c.entries.filter fun e => !e.running }
    r.frags.foldl (fun s f => s.recard f.1) s

end Sys2Proof.Machine
end

