-- ==== Sys2Proof/Machine/Copy.lean ====
section
/-!
DEFINITION. The copy engine: CPY, CSEAL, CWAIT, and the copies in flight (R118, R198 to R201, R348).
-/

namespace Sys2Proof.Machine

/-! ### Mailbox slots as a writer finds them (R301, R302) -/

/-- A 64-byte message for a bound mailbox whose slot lies at `loc`, from the writer with ticket `id`: stored in its turn once
the slot is free; until then the writer waits. -/
def slotTurn (s : State) (ctx n id loc : Nat) (bytes : List Byte) : Bool × State :=
  let c := s.context ctx
  let queue := c.writers.filter fun w => w.1 == n
  let mine := queue.any fun w => w.2.1 == some id
  let first := match queue with
    | [] => true
    | w :: _ => w.2.1 == some id
  if first && !isBusy s ctx n then
    (true, putSlot (s.modContext ctx fun c => { c with writers := c.writers.filter fun w => w.2.1 != some id }) ctx n bytes loc)
  else (false, if mine then s else s.modContext ctx fun c => { c with writers := c.writers ++ [(n, some id, bytes)] })

/-- A mailbox table entry names this slot address but is not bound (R301). -/
def unboundAt (s : State) (ctx va : Nat) : Bool :=
  let c := s.context ctx
  let page (j : Nat) : List Nat :=
    match devLoc s ctx (c.mbx * 64 / 4096 * 4096 + 4096 * j) 4096 false with
    | none => []
    | some r => (s.mem.filter fun x => r.1 ≤ x.1 && x.1 < r.1 + 4096).filterMap fun x =>
        let a := c.mbx * 64 / 4096 * 4096 + 4096 * j + (x.1 - r.1)
        if c.mbx * 64 ≤ a && (a - c.mbx * 64) % 32 < 8 then some ((a - c.mbx * 64) / 32) else none
  ((List.range 33).flatMap page).any fun n => n < 4096 && mbxKind s ctx n == 0 && mbxSlot s ctx n == va

/-! ### The copies of a core -/

def modCopy (s : State) (core id : Nat) (f : Copy → Copy) : State :=
  { s with cores := smod s.cores core fun c => { c with copies := c.copies.map fun x => if x.id = id then f x else x } }

/-- A copy retires: out of the engine and the scoreboard (R199). -/
def dropCopy (s : State) (core id : Nat) : State :=
  { s with cores := smod s.cores core fun c =>
      { c with copies := c.copies.filter fun x => x.id != id, score := c.score.filter fun e => e.1 != id } }

/-- The code in a peer packet's OPS for a copy's updates of a barrier object.
DESIGN CHOICE: log entry 29, unsafe. -/
def opsPendUp : Nat := 68
/-- DESIGN CHOICE: log entry 29, unsafe. -/
def opsCopyDone : Nat := 67

/-- The completion update of a copy's barrier object; none while its page is not present (R199). -/
def barrierDone (s : State) (c : Copy) : Option State :=
  let st := s.strand c.strand
  if c.bar = 0 then some s
  else
    match fateOf s (st.who s none) .load c.bar 16 with
    | (.hit (.loc l) _, s) => some (barWrite s l (barComplete (barRead s l) c.len))
    | (.hit (.peer slot pa) _, s) => some (askBarrier s { (default : Cx) with u := c.strand } slot pa opsCopyDone c.len 0 0 false)
    | (.absent _, _) => none
    | (.bad _, s) => some s

/-- A copy ends: its fault, if it stopped, waits for a CWAIT; its barrier counts it as complete (R199, R200). -/
def endCopy (s : State) (core : Nat) (c : Copy) (f : Option EngFault) : State :=
  match barrierDone s c with
  | none =>
    match parkPage s core (s.ctxOf (s.strand c.strand)) (c.bar / 4096) true with
    | some s => modCopy s core c.id fun c => { c with phase := .parked [c.bar / 4096] }
    | none => s
  | some s =>
    let s := dropCopy s core c.id
    match f with
    | some x => s.modStrand c.strand fun st => { st with cpFaults := st.cpFaults ++ [x] }
    | none => s

/-- A copy parks under a page (R200). -/
def parkCopy (s : State) (core : Nat) (c : Copy) (page : Nat) (wr : Bool) : State :=
  match parkPage s core (s.ctxOf (s.strand c.strand)) page wr with
  | some s => modCopy s core c.id fun c => { c with phase := .parked [page] }
  | none => s

def stopCopy (s : State) (core : Nat) (c : Copy) (f : XFault) (va : Nat) : State :=
  endCopy s core c (some (engFault f 4 va c.batch c.seq false))

/-! ### Data -/

/-- The source address of byte i. Where source and destination overlap, the byte may be any that this one held while the
copy ran (R199): the source byte some number of shifts further on. -/
def sourceOf (s : State) (c : Copy) (i : Nat) : Nat :=
  let d := if c.src < c.dst then c.dst - c.src else c.src - c.dst
  if c.dst = c.src ∨ c.len ≤ d then c.src + i
  else if c.src < c.dst then c.src + i - d * (Config.freeNat (s.fresh + (i - c.done)) % (i / d + 1))
  else c.src + i + d * (Config.freeNat (s.fresh + (i - c.done)) % ((c.len - 1 - i) / d + 1))

/-- The bytes of a copy from `done` on as its source gives them: `plain` where the ranges do not overlap. -/
def copyBytes (s : State) (w : Who) (c : Copy) (plain : List Byte) : List Byte :=
  let d := if c.src < c.dst then c.dst - c.src else c.src - c.dst
  if c.dst = c.src ∨ c.len ≤ d then plain
  else plain.mapIdx fun i b =>
    let a := sourceOf s c (c.done + i)
    if a = c.src + c.done + i then b
    else match locate s w a 1 with
      | some l => Memory.byte s.mem l
      | none => b

/-- The source lies on a host page, in part. -/
def fromHost (s : State) (w : Who) (va n : Nat) : Bool :=
  (rangeCuts va n).any fun p => ((leafOf s w p.1).map fun l => leafBit l 8).getD false

/-- The tag that copied bytes bring (R117, R118): host bytes carry the stream number; EN = 0 brings none (R97). -/
def copyTag (c : Copy) (host : Bool) (cs : List Cell) : Tag :=
  if !c.en then 0 else if host then BitVec.ofNat 16 (0xC000 + c.stream) else sectorMerge (cs.map (·.tag)).dedup

/-- Units of the destination that take a byte of a poisoned source unit are poisoned in their turn (R348). -/
def movePoison (s : State) (cs : List Cell) (loc : Nat) : State :=
  let bad := (cs.zipIdx.filter (·.1.poison)).map fun x => (loc + x.2) / unitSize loc * unitSize loc
  if isHost loc then s else bad.dedup.foldl State.poisonUnit s

/-- Bytes of a copy written at a local destination. -/
def copyWrite (s : State) (w : Who) (c : Copy) (host : Bool) (cs : List Cell) (loc : Nat) : State :=
  let bs := copyBytes (viewBefore s c.strand c.seq) w c (cs.map (·.byte))
  let s := movePoison (perform s [(loc, bs, copyTag c host cs)]) cs loc
  { s with fresh := s.fresh + cs.length }

/-- A write sent to a peer on the copies' channel (R328, R382, R383): it counts once the fabric has accepted it. -/
def copySend (s : State) (c : Copy) (rank pa : Nat) (bs : List Byte) : State :=
  let st := s.strand c.strand
  let l := s.launch st.launch
  let (seq, s) := s.newId
  (s.sendPeer 2 3 l.msg.gang rank l.msg.grank pa (respTag s st seq) 0 bs).modStrand c.strand fun st =>
    { st with copyUnacked := st.copyUnacked ++ [(seq, c.batch, c.dst + c.done)] }

def advanceCopy (s : State) (core : Nat) (c : Copy) (n : Nat) : State :=
  modCopy (dropPeerBytes s c.strand c.id) core c.id fun c => { c with done := c.done + n, phase := .run }

/-- Where an attempt to fetch does not give its value, the copy parks, stops or waits. -/
def onSource (s : State) (core : Nat) (c : Copy) (n : Nat) (both : Bool) (k : List Cell → State → State) : State :=
  match fetchRange (.copySrc both) c.strand c.id (c.src + c.done) n s with
  | .absent p s => parkCopy s core c p false
  | .bad f a s => stopCopy s core c f a
  | .later s => s
  | .ok cs s => k cs s

/-- A whole mailbox slot as destination: the copy delivers it as MAIL does, in its turn (R199, R301, R302). -/
def copySlot (s : State) (core : Nat) (c : Copy) (ctx n loc : Nat) : State :=
  onSource s core c 64 false fun cs s =>
    match slotTurn s ctx n c.id loc (cs.map (·.byte)) with
    | (true, s) => advanceCopy s core c 64
    | (false, s) => modCopy s core c.id fun c => { c with phase := .slot ctx n }

/-- Bytes for a translated sector: a peer's, a mailbox slot's, or this package's (R199, R301, R379). -/
def copyInto (s : State) (w : Who) (core : Nat) (c : Copy) (host : Bool) (cs : List Cell) (d : Ranged) : State :=
  let va := c.dst + c.done
  let n := cs.length
  match d with
  | .peer rank pa _ _ =>
    advanceCopy (copySend s c rank pa (copyBytes (viewBefore s c.strand c.seq) w c (cs.map (·.byte)))) core c n
  | .ok ds =>
    let loc := (ds.headD (0, 0, 0)).1
    let slot := leafOrd (ds.headD (0, 0, 0)).2.2 == 1 && va % 64 == 0 && c.done + 64 ≤ c.len
    let lines := heldLines s [(loc, List.replicate n 0, 0)]
    if ownStoreDue s c.strand c.seq va n then s
    else if !lines.isEmpty then s.snoop lines
    else if slot && unboundAt s w.ctx va then
      endCopy s core c (some { cause := 0x21, sub := 5, addr := va, batch := c.batch, seq := c.seq })
    else
      match (if slot then mailboxAt s w.ctx loc else none) with
      | some m => copySlot s core c w.ctx m loc
      | none => advanceCopy (copyWrite s w c host cs loc) core c n
  | _ => s

/-- One destination sector of a memory copy; the state as it was where the sector cannot be copied yet. -/
def copySector (s : State) (core : Nat) (c : Copy) : State :=
  let w := (s.strand c.strand).who s none
  let va := c.dst + c.done
  let sva := c.src + c.done
  let n := min (32 - va % 32) (c.len - c.done)
  let sealBit (a : Nat) : Option Bool := (leafOf s w a).map fun l => leafBit l 7
  let both := sealBit va == some true && sealBit sva == some true
  if (sealBit va).isSome && (sealBit sva).isSome && sealBit va != sealBit sva then
    stopCopy s core c .seal (if sealBit va == some true then va else sva)
  else
    onSource s core c n both fun cs s =>
      match rangeOf s w (.copyDst both) va n with
      | (.absent p, s) => parkCopy s core c p true
      | (.bad f a, s) => stopCopy s core c f a
      | (d, s) => copyInto s w core c (fromHost s w sva n) cs d

/-- The parts of a destination, each on one page. -/
def dstParts (w : Who) (va n : Nat) (s : State) : Got (List (Ranged × Nat)) :=
  gotAll (fun p s => match rangeOf s w (.copyDst false) p.1 p.2 with
    | (.absent q, s) => .absent q s
    | (.bad f a, s) => .bad f a s
    | (d, s) => .ok (d, p.2) s) (rangeCuts va n) s

/-- Bytes o to o + n − 1 of an entry, word by word, as pieces from a location on. -/
def entryPieces (en : Bool) (e : List TWord) (o loc n : Nat) : List Piece :=
  (List.range 32).filterMap fun k =>
    let lo := max (4 * k) o
    let hi := min (4 * k + 4) (o + n)
    let x := e.getD k {}
    if lo < hi then
      some (loc + lo - o, ((toBytes 4 x.val.toNat).drop (lo - 4 * k)).take (hi - lo), if en then x.tag else 0)
    else none

/-- One entry of a copy from the source port: popped and written (R199). -/
def copyFromEntry (s : State) (core : Nat) (c : Copy) : State :=
  let st := s.strand c.strand
  let w := st.who s none
  let n := min 128 (c.len - c.done)
  let va := c.dst + c.done
  match (portQueue st 4).bind fun j => (st.q.getD j []).head?.map fun e => (j, e) with
  | none => s
  | some (j, e) =>
    match dstParts w va n s with
    | .absent p s => parkCopy s core c p true
    | .bad f a s => stopCopy s core c f a
    | .later s => s
    | .ok ds s =>
      let put (r : State × Nat × List Piece) (d : Ranged × Nat) : State × Nat × List Piece :=
        match d.1 with
        | .peer rank pa _ _ => (copySend r.1 c rank pa (((entryBytes e).drop r.2.1).take d.2), r.2.1 + d.2, r.2.2)
        | .ok ls => (r.1, r.2.1 + d.2, r.2.2 ++ entryPieces c.en e r.2.1 (ls.headD (0, 0, 0)).1 d.2)
        | _ => r
      let ps := (ds.foldl put (s, 0, [])).2.2
      let lines := heldLines s ps
      if ownStoreDue s c.strand c.seq va n then s
      else if !lines.isEmpty then s.snoop lines
      else advanceCopy (perform (popEntry (ds.foldl put (s, 0, [])).1 c.strand j) ps) core c n

/-- One entry of a copy to the sink port: read and pushed; bytes past the length are zero with tag NONE (R199). -/
def copyToEntry (s : State) (core : Nat) (c : Copy) : State :=
  let st := s.strand c.strand
  let n := min 128 (c.len - c.done)
  match (portQueue st 5).filter fun j => (st.q.getD j []).length < 4 with
  | none => s
  | some j =>
    onSource s core c n false fun cs s =>
      let host := fromHost s (st.who s none) (c.src + c.done) n
      let tag (i : Nat) : Tag := if 4 * i < n then copyTag c host ((cs.drop (4 * i)).take 4) else 0
      advanceCopy (pushEntry s c.strand j (entryOf (cs.map (·.byte) ++ List.replicate (128 - n) 0) tag)) core c n

/-- Steps of a copy while it makes progress. -/
def copySteps (core id : Nat) : Nat → State → State
  | 0, s => s
  | fuel + 1, s =>
    match (s.core core).copies.find? fun c => c.id == id with
    | none => s
    | some c =>
      if c.len ≤ c.done then endCopy s core c none
      else
        let t := match c.mode with
          | 0 => copySector s core c
          | 1 => copyFromEntry s core c
          | _ => copyToEntry s core c
        match (t.core core).copies.find? fun c => c.id == id with
        | none => t
        | some d => if d.done = c.done then t else copySteps core id fuel t

/-- A copy runs as far as it can: to its end, or to what stops it (R199). -/
def copyRun (s : State) (core id : Nat) : State :=
  match (s.core core).copies.find? fun c => c.id == id with
  | none => s
  | some c => copySteps core id ((c.len - c.done) / 32 + 4) s

/-! ### CPY -/

/-- The number of the k-th sealed batch: 1, 2, …, 0xFFFF_FFFF, 1, … (R47). -/
def batchNumber (k : Nat) : Nat := (k - 1) % (2 ^ 32 - 1) + 1

/-- The open batch is sealed (R201). -/
def sealBatch (st : Strand) : Strand :=
  let k := st.sealed + 1
  { st with sealed := k, ctl := { st.ctl with batch := BitVec.ofNat 64 (batchNumber k) } }

def openCount (st : Strand) : Nat := cfld st.ctl.batch 32 7

/-- The copy joins the engine, its batch and the scoreboard (R199).
DEDUCED: log entry 39, unsafe. -/
def startCopy (s : State) (cx : Cx) (mode dst src len bar : Nat) (o : CpyOp) : State :=
  let (id, s) := s.newId
  let s := s.modStrand cx.u fun st =>
    let st := if openCount st = 64 then sealBatch st else st
    { st with ctl := { st.ctl with batch := cset st.ctl.batch 32 7 (openCount st + 1) } }
  let st := s.strand cx.u
  let c : Copy := { id := id, strand := cx.u, mode := mode, dst := dst, src := src, len := len, done := 0, bar := bar
                    batch := st.sealed + 1, scope := o.scope, stream := o.stream, seq := id, en := st.tagEn }
  let core := s.core st.core
  let score := if mode = 2 ∨ len = 0 then core.score else core.score ++ [(id, s.ctxOf st, dst, dst + len)]
  let s := s.setCore st.core { core with copies := core.copies ++ [c], score := score }
  if len = 0 then copyRun s st.core id else s

/-- The barrier object of a copy: PEND incremented at issue (R197, R199). -/
def pendUp (cx : Cx) (c : Nat) (s : State) (k : Nat → State → Eff) : Eff :=
  if c = 0 then k 0 s
  else
    barObject .atomic c 0 cx s fun x f s =>
      match f with
      | .hit (.loc l) _ =>
        let v := barRead s l
        if barPend v = 0xFFFF then .trap { cause := 0x35, sub := 2, addr := x.va } s
        else if !bobbinFree s cx.u [f] then .wait .bobbin s
        else hostFree s [(l, 16)] fun s => k x.va (barWrite s l (setFld v 48 16 (barPend v + 1)))
      | .hit (.peer slot pa) _ => k x.va (askBarrier s cx slot pa opsPendUp 0 0 0 false)
      | _ => k x.va s

/-- CPY (R198, R199): addresses checked, room in the engine, then the barrier and the copy.
DEDUCED: log entry 39, unsafe. -/
def cpy (mode : Nat) (o : CpyOp) (cx : Cx) (s : State) : Eff :=
  let st := s.strand cx.u
  let d := st.readS o.d 2
  let a := st.readS o.a 2
  let n := st.readS o.b 1
  let ea (x : Opd) : Ea := { thread := st.lowest cx.mask, lane := 0, va := x.val, base := x.tag, idx := 0 }
  let xs := (if mode = 2 then [] else [ea d]) ++ (if mode = 1 then [] else [ea a])
  withAddrs xs 1 true s fun s =>
    if 64 ≤ (s.core st.core).copies.length then .wait .copySlot s
    else
      pendUp cx o.c s fun bar s =>
        .done (startCopy s cx mode d.val a.val n.w.toNat bar o) (d.poison || a.poison || n.poison)

def execCpyMemory (o : CpyOp) (s : State) : Host.Outcome State Fault Refusal := issue (.cpyMemory o) s (cpy 0 o)
def execCpyFromPort (o : CpyOp) (s : State) : Host.Outcome State Fault Refusal := issue (.cpyFromPort o) s (cpy 1 o)
def execCpyToPort (o : CpyOp) (s : State) : Host.Outcome State Fault Refusal := issue (.cpyToPort o) s (cpy 2 o)

/-- CSEAL (R201). -/
def execCseal (o : SealOp) (s : State) : Host.Outcome State Fault Refusal :=
  issue (.cseal o) s fun cx s =>
    let s := s.modStrand cx.u sealBatch
    .ok (writeU s cx o.r [BitVec.ofNat 32 (batchNumber (s.strand cx.u).sealed)] 0)

/-- The batches that CWAIT n covers: up to the most recent one numbered n, or every sealed one (R201). -/
def coveredBatch (sealed n : Nat) : Nat :=
  if n = 0 then 0 else if sealed < n then sealed else sealed - (sealed - n) % (2 ^ 32 - 1)

/-- CWAIT (R201): waits for the copies of the batches covered, then reports a stopped one (R200). -/
def execCwait (o : SealOp) (s : State) : Host.Outcome State Fault Refusal :=
  issue (.cwait o) s fun cx s =>
    let st := s.strand cx.u
    let n := st.readS o.r 1
    let k := coveredBatch st.sealed n.w.toNat
    if (s.core st.core).copies.any fun c => c.strand == cx.u && c.batch ≤ k then .wait .batch s
    else
      match oldestFault (st.cpFaults.filter fun f => f.batch ≤ k) with
      | some f =>
        .trap (engExc f (byteOf cx.site.pc) (byteOf cx.next))
          (s.modStrand cx.u fun st => { st with cpFaults := st.cpFaults.filter (· ≠ f) })
      | none =>
        .done (s.modStrand cx.u fun st =>
          { st with copyUnacked := st.copyUnacked.map fun c => if c.2.1 ≤ k then (c.1, 0, c.2.2) else c }) n.poison

end Sys2Proof.Machine
end

