-- ==== Sys2Proof/Machine/Special.lean ====
section
/-!
DEFINITION. Control registers (R34 to R50, R206) and the system functions (R207, R288, R292, R356, R357, R368, R369).
-/

namespace Sys2Proof.Machine

/-! ### Reading control registers -/

/-- TOKS (R46): all zero where the launch is not deterministic. -/
def toksOf (s : State) (st : Strand) : BitVec 64 :=
  let l := s.launch st.launch
  if !isDet l then 0
  else BitVec.ofNat 64 (1 + 2 * bit (holdsBobbin s st) + 4 * bit (st.threads.any fun t => t.wait = .bobbin) + 2 ^ 32 * l.holder)

/-- BTNEXT (R49): outside deterministic launches the shared counter, or the first reserved index (R109), and 16,384. -/
def btnextOf (s : State) (st : Strand) : BitVec 64 :=
  let l := s.launch st.launch
  if isDet l then st.ctl.btnext else BitVec.ofNat 64 (st.reserved.headD l.btnext % 2 ^ 15 + 2 ^ 16 * 16384)

/-- SCRUB (R50). -/
def scrubOf (s : State) (core : Nat) : BitVec 64 :=
  let c := s.core core
  let n := ((s.cores.filter fun x => dieOfCore x.1 == dieOfCore core).map fun x => x.2.pend.length).sum
  BitVec.ofNat 64 (bit (!c.scrub.isEmpty) + 2 * bit (!c.pend.isEmpty) + 2 ^ 16 * (n % 2 ^ 16))

/-- A control register's value, by number (R34 to R50). -/
def ctlRead (s : State) (st : Strand) (n : Nat) : BitVec 64 :=
  let c := st.ctl
  let x := s.context (s.ctxOf st)
  match n with
  | 0x00 => c.fctl
  | 0x01 => c.tctl
  | 0x02 => c.rctl
  | 0x03 => c.chki
  | 0x04 => c.crew
  | 0x05 => c.genk
  | 0x06 => c.genc
  | 0x07 => c.tvec
  | 0x08 => c.tfp
  | 0x09 => c.gspan
  | 0x0A => c.qmap
  | 0x0B => toksOf s st
  | 0x0C => c.batch
  | 0x0E => c.stfq
  | 0x10 => c.btbase
  | 0x11 => btnextOf s st
  | 0x40 => BitVec.ofNat 64 (x.world % 16)
  | 0x41 => BitVec.ofNat 64 (x.ptroot % 2 ^ 44 * 4096)
  | 0x42 => BitVec.ofNat 64 (s.ctxOf st % 2 ^ 16)
  | 0x43 => BitVec.ofNat 64 (x.mbx % 2 ^ 50 * 64)
  | 0x44 => BitVec.ofNat 64 (x.deadline % 2 ^ 48)
  | 0x45 => scrubOf s st.core
  | _ => 0

/-- GETC (R206); a GETC of STFQ begins a new count of arrivals (R48). -/
def execGetc (o : GetcOp) (s : State) : Host.Outcome State Fault Refusal :=
  issue (.getc o) s fun cx s =>
    let x := ctlRead s (s.strand cx.u) o.n
    let s := if o.n = 0x0E then s.modStrand cx.u fun st => { st with arrivals := 0 } else s
    .ok (writeU s cx o.d (wordsOfNat 2 x.toNat) 0)

/-! ### Writing control registers -/

/-- The bits of a register that a SETC may change: RW and sticky fields (R37 to R50). -/
def ctlWritable (n : Nat) : BitVec 64 :=
  match n with
  | 0x00 => 0x7FFF
  | 0x01 => 0xFF
  | 0x02 => 0x1FF00
  | 0x03 => 0xFFFF000F
  | 0x04 => 0xFFFFFFFFFFFFFDFF
  | 0x05 => 0xFFFFFFFFFFFFFFFF
  | 0x06 => 0xFFFFFFFFFFFFFFFF
  | 0x07 => 0x00FFFFFFFFFFFFFC
  | 0x0A => 0xFFFFFFFF
  | 0x0E => 0x3FF
  | 0x40 => 0xF
  | 0x41 => 0x00FFFFFFFFFFF000
  | 0x43 => 0x00FFFFFFFFFFFFC0
  | 0x44 => 0x0000FFFFFFFFFFFF
  | _ => 0

/-- A field keeps its old value where the new one is a code it does not define. -/
def keepCode (old new : BitVec 64) (lo n : Nat) (ok : Nat → Bool) : BitVec 64 :=
  if ok (cfld new lo n) then new else cset new lo n (cfld old lo n)

/-- The value a SETC leaves: masked, then through each field's Access (R206). -/
def ctlMerge (n : Nat) (old src mask : BitVec 64) : BitVec 64 :=
  let m := mask &&& ctlWritable n
  let new := (old &&& ~~~m) ||| (src &&& m)
  match n with
  | 0x00 => keepCode old new 0 3 fun r => 1 ≤ r && r ≤ 6
  | 0x01 => keepCode old new 1 3 fun r => 1 ≤ r && r ≤ 5
  | 0x0E => keepCode old new 4 5 (· ≤ 16)
  | _ => new

/-- A register replaced; read-only registers have no case. -/
def ctlPut (c : Ctl) (n : Nat) (x : BitVec 64) : Ctl :=
  match n with
  | 0x00 => { c with fctl := x }
  | 0x01 => { c with tctl := x }
  | 0x02 => { c with rctl := x }
  | 0x03 => { c with chki := x }
  | 0x04 => { c with crew := x }
  | 0x05 => { c with genk := x }
  | 0x06 => { c with genc := x }
  | 0x07 => { c with tvec := x }
  | 0x0A => { c with qmap := x }
  | 0x0E => { c with stfq := x }
  | _ => c

/-- A system register of the context replaced (R50). -/
def ctxPut (c : Context) (n : Nat) (x : BitVec 64) : Context :=
  match n with
  | 0x40 => { c with world := cfld x 0 4 }
  | 0x41 => { c with ptroot := cfld x 12 44 }
  | 0x43 => { c with mbx := cfld x 6 50 }
  | 0x44 => { c with deadline := cfld x 0 48 }
  | _ => c

/-- Source, mask and poison of a SETC. -/
def setcArgs (st : Strand) (o : SetcOp) : BitVec 64 × BitVec 64 × Bool :=
  let b := st.readS o.b 2
  let c := st.readS o.c 2
  (b.d, if o.m then c.d else BitVec.allOnes 64, b.poison || (o.m && c.poison))

/-- The position of SETC's source field (R41, R45). -/
def setcPos (o : SetcOp) : Nat := o.h.form.at 10 32

/-- SETC of the registers whose write has no check of its own.
DESIGN CHOICE: log entry 8, safe. -/
def execSetc (o : SetcOp) (s : State) : Host.Outcome State Fault Refusal :=
  issue (.setc o) s fun cx s =>
    let st := s.strand cx.u
    let (src, mask, poison) := setcArgs st o
    if o.n = 0x40 ∧ ¬st.onSec then .trap { cause := 0x04, sub := 2 } s
    else
      let x := ctlMerge o.n (ctlRead s st o.n) src mask
      if 0x40 ≤ o.n then .done (s.modContext (s.ctxOf st) fun c => ctxPut c o.n x) poison
      else .done (s.modStrand cx.u fun st => { st with ctl := ctlPut st.ctl o.n x }) poison

/-- A member identifier of CREW (R41). -/
def crewMember (x : BitVec 64) (j : Nat) : Nat := cfld x (10 + 9 * j) 9

/-- A strand's own member identifier (R41). -/
def Strand.member (st : Strand) : Nat := st.core % 8 * 64 + st.part * 16 + st.slot

/-- A value CREW accepts (R41). -/
def crewOk (own : Nat) (x : BitVec 64) : Bool :=
  let count := cfld x 0 3
  let cores := (List.range count).map fun j => crewMember x j / 64
  count == 0 ||
    (2 ≤ count && count ≤ 6 && count == cfld x 3 2 * (cfld x 5 1 + 1) && cfld x 6 3 < count &&
      crewMember x (cfld x 6 3) == own && cores.dedup.length == count && x.toNat / 2 ^ (10 + 9 * count) == 0)

def execSetcCrew (o : SetcOp) (s : State) : Host.Outcome State Fault Refusal :=
  issue (.setcCrew o) s fun cx s =>
    let st := s.strand cx.u
    let (src, mask, poison) := setcArgs st o
    let x := ctlMerge 0x04 st.ctl.crew src mask
    if crewOk st.member x then .done (s.modStrand cx.u fun st => { st with ctl := { st.ctl with crew := x } }) poison
    else .trap { cause := 0x02, sub := setcPos o } s

/-- A value QMAP accepts: defined codes, no change at a queue that holds an entry (R45). -/
def qmapOk (st : Strand) (x : BitVec 64) : Bool :=
  (List.range 8).all fun j =>
    cfld x (4 * j) 4 < 6 && (cfld x (4 * j) 4 == cfld st.ctl.qmap (4 * j) 4 || (st.q.getD j []).isEmpty)

def execSetcQmap (o : SetcOp) (s : State) : Host.Outcome State Fault Refusal :=
  issue (.setcQmap o) s fun cx s =>
    let st := s.strand cx.u
    let (src, mask, poison) := setcArgs st o
    let x := ctlMerge 0x0A st.ctl.qmap src mask
    if qmapOk st x then .done (s.modStrand cx.u fun st => { st with ctl := { st.ctl with qmap := x } }) poison
    else .trap { cause := 0x02, sub := setcPos o } s

/-- STFQ as a SETC leaves it (R48): a COUNT written has the arrivals added, up to 16. -/
def stfqMerge (old src mask : BitVec 64) (arrivals : Nat) : BitVec 64 :=
  let x := ctlMerge 0x0E old src mask
  let wanted := cfld ((old &&& ~~~mask) ||| (src &&& mask)) 4 5
  if cfld mask 4 5 ≠ 0 ∧ wanted ≤ 16 then cset x 4 5 (min 16 (wanted + arrivals)) else x

def execSetcStfq (o : SetcOp) (s : State) : Host.Outcome State Fault Refusal :=
  issue (.setcStfq o) s fun cx s =>
    let (src, mask, poison) := setcArgs (s.strand cx.u) o
    .done (s.modStrand cx.u fun st =>
      { st with ctl := { st.ctl with stfq := stfqMerge st.ctl.stfq src mask st.arrivals }, arrivals := 0 }) poison

/-! ### REPLAY and TLBINV -/

def dropWait (page : Nat) : Wait → Wait
  | .pages ps r => .pages (dropPage page ps) r
  | w => w

/-- A page replayed on one core for a context: the waiters under it no longer wait for it (R292). -/
def State.replayOn (s : State) (core ctx page : Nat) : State :=
  let mine (st : Strand) : Bool := st.core == core && s.ctxOf st == ctx
  let fix (st : Strand) : Strand :=
    if mine st then
      { st with
        threads := st.threads.map fun t => { t with wait := dropWait page t.wait }
        cq := st.cq.map fun e => match e.phase with
          | .parked ps => { e with phase := .parked (dropPage page ps) }
          | _ => e
        mops := st.mops.map fun o => match o.phase with
          | .parked ps => { o with phase := .parked (dropPage page ps) }
          | _ => o }
    else st
  let unpark (c : Core) : Core :=
    { c with
      waits := c.waits.filter fun e => !(e.ctx == ctx && e.page == page)
      copies := c.copies.map fun x => match x.phase with
        | .parked ps => if mine (s.strand x.strand) then { x with phase := .parked (dropPage page ps) } else x
        | _ => x
      wsu := c.wsu.map fun x => match x.2 with
        | .parked ps => if x.1.ctx = ctx then (x.1, .parked (dropPage page ps)) else x
        | _ => x }
  let t : State := { s with strands := s.strands.map (fun x => (x.1, fix x.2)), cores := smod s.cores core unpark }
  t.wakeAll (fun _ st => mine st) fun w => w == .pages [] false || w == .tableFull

/-- SYS.REPLAY of a page address: every core's entry of the issuing context. -/
def execSysReplay (o : SysOp) (s : State) : Host.Outcome State Fault Refusal :=
  issue (.sysReplay o) s fun cx s =>
    let st := s.strand cx.u
    let a := st.readS o.a 2
    let page := a.val / 4096
    let ctx := s.ctxOf st
    let cores := (s.cores.filter fun c => c.2.waits.any fun e => e.ctx == ctx && e.page == page).map (·.1)
    .done (cores.foldl (fun s c => s.replayOn c ctx page) s) a.poison

/-- The entry that a token names, on its core (R292). -/
def tokenEntry (s : State) (ctx token : Nat) : Option (Nat × WaitEnt) :=
  let core := token / 2 ^ 29 * 32 + token / 2 ^ 24 % 32
  ((s.core core).waits.find? fun e => e.ctx == ctx && token == tokenOf core e.gen e.idx).map (core, ·)

/-- SYS.replay.tok: the one entry of the token; a stale token does nothing. -/
def execSysReplayTok (o : SysOp) (s : State) : Host.Outcome State Fault Refusal :=
  issue (.sysReplayTok o) s fun cx s =>
    let st := s.strand cx.u
    let a := st.readS o.a 2
    if 2 ^ 32 ≤ a.val then .trap { cause := 0x02, sub := 18 } s
    else
      match tokenEntry s (s.ctxOf st) a.val with
      | some (core, e) => .done (s.replayOn core e.ctx e.page) a.poison
      | none => .done s a.poison

/-- SYS.TLBINV (R288): invalidated on every core at once; no access is under way between steps, so each core acknowledges. -/
def execSysTlbinv (o : SysOp) (s : State) : Host.Outcome State Fault Refusal :=
  issue (.sysTlbinv o) s fun cx s =>
    let st := s.strand cx.u
    let ctx := s.ctxOf st
    match o.x % 4 with
    | 0 => let a := st.readS o.a 2; .done (s.shootDown (some ctx) (some (a.val / 4096))) a.poison
    | 1 => .ok (s.shootDown (some ctx) none)
    | _ => .ok (s.shootDown none none)

/-! ### DIAGST and DIAGLD (R356, R357) -/

/-- What a diagnostic access acts on: a unit of storage, or a register word of a thread. -/
inductive DiagAt
  | cell (loc : Nat) | reg (thread r : Nat)
  deriving DecidableEq, Repr

/-- The thread of a lane; a protected thread is in both lanes of its pair. -/
def Strand.threadIn (st : Strand) (lane : Nat) : Option Nat :=
  (List.range st.threads.length).find? fun i =>
    (st.thread i).lane == lane || (st.prot && (st.thread i).lane + 1 == lane)

/-- A local scratchpad window address, 8-aligned. -/
def diagScratch (s : State) (cx : Cx) (x : Ea) (k : Option DiagAt → State → Eff) : Eff :=
  withAddrs [x] 8 true s fun s =>
    if localWindow ≤ x.va then
      match windowAt s ((s.strand cx.u).who s none) .store x.va 8 with
      | .ok (.loc l) _ => k (some (.cell l)) s
      | _ => permTrap .window 8 x.va s
    else permTrap .window 8 x.va s

/-- A virtual address of an LPDDR sector, translated as a store.
DEDUCED: log entry 48, unsafe. -/
def diagDram (s : State) (cx : Cx) (x : Ea) (k : Option DiagAt → State → Eff) : Eff :=
  withAddrs [x] 32 true s fun s =>
    let (fs, s) := fates s cx.u true .store 32 [x]
    withHits fs 2 s (fun ps s => parkUnder s cx.u ps true false) fun s =>
      match (fs.map (·.2) : List Fate) with
      | [.hit (.loc l) _] => if l < 2 ^ 41 then k (some (.cell l)) s else permTrap .perm 2 x.va s
      | _ => permTrap .perm 2 x.va s

/-- A register word of the issuing strand; v0, and a lane without a thread, hold nothing. -/
def diagReg (s : State) (cx : Cx) (x : Nat) (k : Option DiagAt → State → Eff) : Eff :=
  let st := s.strand cx.u
  let r := x % 256
  if 2 ^ 13 ≤ x then .trap { cause := 0x02, sub := 18 } s
  else if st.regs ≤ r then .trap { cause := 0x03, sub := 2 } s
  else if r = 0 then k none s
  else k ((st.threadIn (x / 256)).map fun i => .reg i r) s

/-- The target of a diagnostic access, checked.
DEDUCED: log entry 48, unsafe. DEDUCED: log entry 60, unsafe. -/
def diagTarget (o : SysOp) (cx : Cx) (s : State) (k : Option DiagAt → State → Eff) : Eff :=
  let a := (s.strand cx.u).readS o.a 2
  let x : Ea := { thread := (s.strand cx.u).lowest cx.mask, lane := 0, va := a.val, base := a.tag, idx := 0 }
  match o.x % 4 with
  | 0 => diagScratch s cx x k
  | 1 => diagDram s cx x k
  | _ => diagReg s cx a.val k

/-- Eight bytes and raw check bits written into a unit. -/
def State.rawPut (s : State) (u : Nat) (data bits : Nat) : State :=
  { (s.clearPoison u).write u (toBytes 8 data) with raw := sset s.raw u bits }

/-- SYS.DIAGST: the unit holds exactly what is given, no code computed. -/
def execSysDiagst (o : SysOp) (s : State) : Host.Outcome State Fault Refusal :=
  issue (.sysDiagst o) s fun cx s =>
    let st := s.strand cx.u
    let b := st.readS o.b 2
    let c := st.readS o.c 1
    let bad := (st.readS o.a 2).poison || b.poison || c.poison
    diagTarget o cx s fun t s =>
      match t with
      | none => .done s bad
      | some (.cell l) => .done (s.rawPut l b.val c.w.toNat) bad
      | some (.reg i r) =>
        let w : TWord := { val := b.w, tag := c.w.setWidth 16, chk := .raw (c.w.toNat / 2 ^ 16 % 128) }
        .done (s.modStrand cx.u fun st => st.modThreads (BitVec.twoPow 32 i) fun t => { t with v := sput {} t.v r w }) bad

/-- The check bits a unit holds, in the layout of DIAGST's C. -/
def rawBits (s : State) (l : Nat) : Nat :=
  match sfind s.raw l with
  | some bits => bits
  | none =>
    let t := (s.tagAt (l / 32)).toNat
    let poison := s.poison.contains l
    if unitSize l = 8 then
      (if poison then 0xFF else (Config.checkWord (BitVec.ofNat 80 (t + 2 ^ 16 * s.readNat l 8))).toNat) + 2 ^ 16 * t
    else
      let w := s.readNat l 32 + 2 ^ 256 * t + 2 ^ 272 * bit poison
      t + 2 ^ 16 * (Config.checkSector (BitVec.ofNat 273 w)).toNat + 2 ^ 26 * bit poison

/-- The tag and check bits of a register word, in the layout of DIAGST's C. -/
def rawWord (w : TWord) : Nat :=
  let chk := match w.chk with
    | .ok => (Config.checkReg (BitVec.ofNat 48 (w.tag.toNat + 2 ^ 16 * w.val.toNat))).toNat
    | .poison => 0x7F
    | .raw bits => bits
  w.tag.toNat + 2 ^ 16 * chk

/-- SYS.DIAGLD: data, raw check bits, zero; nothing corrected, nothing counted.
DEDUCED: log entry 48, unsafe. -/
def execSysDiagld (o : SysOp) (s : State) : Host.Outcome State Fault Refusal :=
  issue (.sysDiagld o) s fun cx s =>
    let bad := ((s.strand cx.u).readS o.a 2).poison
    let put (s : State) (data bits : Nat) : Eff := .done (writeU s cx o.d (wordsOfNat 4 (data + 2 ^ 64 * bits)) 0) bad
    diagTarget o cx s fun t s =>
      match t with
      | none => put s 0 0
      | some (.cell l) => put s (s.readNat l 8) (rawBits s l)
      | some (.reg i r) =>
        let w := sget {} ((s.strand cx.u).thread i).v r
        put s w.val.toNat (rawWord w)

/-! ### SCRUB, WORLD, HALT -/

/-- The selector bits that a scrub class looks at (R368). -/
def scrubSelector (cls x : Nat) : Nat := if cls = 0 then x % 4 else if cls = 4 then x % 64 else 0

/-- SYS.SCRUB (R368): under way from issue; SCRUB_COMPLETE performs it once no resident skein uses the unit. -/
def execSysScrub (o : SysOp) (s : State) : Host.Outcome State Fault Refusal :=
  issue (.sysScrub o) s fun cx s =>
    let st := s.strand cx.u
    let a := st.readS o.a 1
    let c := s.core st.core
    .done (s.setCore st.core { c with scrub := c.scrub ++ [(o.x % 16, scrubSelector (o.x % 16) a.w.toNat)] }) a.poison

/-- SYS.WORLD (R369): on the security core alone. What its units hold of the context is gone already, since a unit is
erased as a skein leaves it.
DESIGN CHOICE: log entry 8, safe. -/
def execSysWorld (o : SysOp) (s : State) : Host.Outcome State Fault Refusal :=
  issue (.sysWorld o) s fun cx s =>
    let st := s.strand cx.u
    let a := st.readS o.a 1
    let x := a.w.toNat
    let ctx := x / 2 ^ 16
    if !st.onSec then .trap { cause := 0x04, sub := 2 } s
    else if x / 16 % 2 ^ 12 ≠ 0 then .trap { cause := 0x02, sub := 18 } s
    else
      let s := s.modContext ctx fun c => { c with mbxHeld := true }
      if s.launches.any fun l => l.2.ctx == ctx && l.2.phase ≠ .done then .wait (.quiet ctx) s
      else
        let s := s.modContext ctx fun c => { c with world := x % 16, mbxHeld := false }
        .done (s.shootDown (some ctx) none) a.poison

/-- A unit of a core (numbered as `State.serve` numbers them) is in use by a skein placed there. -/
def unitUsed (s : State) (core unit : Nat) : Bool :=
  s.skeins.any fun k => k.2.core == core && (k.2.phase == .resident || k.2.phase == .ended) &&
    (4 ≤ unit || s.strands.any fun x => x.2.skein == k.1 && x.2.part == unit)

/-- A core goes to sleep (R359); its units that served a protected world and serve none now are scrub-pending (R367). -/
def goToSleep (s : State) (core : Nat) : State :=
  let c := s.core core
  let due := c.served.filter fun e => e.2 != 0 && !unitUsed s core e.1
  s.setCore core { c with asleep := true, pend := due }

/-- The core goes to sleep where no strand is resident on it (R207, R359). -/
def sleepIfEmpty (s : State) (core : Nat) : State :=
  if s.strands.any fun x => x.2.core == core && x.2.phase = .resident then s else goToSleep s core

/-- SYS.HALT (R207): the strand ends as by a final EXIT.
DEDUCED: log entry 25, unsafe. -/
def execSysHalt (o : SysOp) (s : State) : Host.Outcome State Fault Refusal :=
  issue (.sysHalt o) s fun cx s =>
    let st := s.strand cx.u
    if st.trap.isSome then .trap { cause := 0x61 } s
    else finalExit s cx.site fun s => .gone (sleepIfEmpty s st.core)

end Sys2Proof.Machine
end

