-- ==== Sys2Proof/Machine/Sched.lean ====
section
/-!
DEFINITION. Issue events: arbitration (R57, R319), convergence (R29), returns (R66), queues (R32), the scoreboard (R182), and
re-entry of a region (R165, R350, R352).
-/

namespace Sys2Proof.Machine

/-- The cycle count of a core's die (R6).
DESIGN CHOICE: log entry 12, unsafe. -/
def State.cycleOf (s : State) (core : Nat) : Nat := (s.dies.getD (dieOfCore core) {}).cycle

/-! ### Arbitration -/

/-- The first difference decides. -/
def lexLess : List Nat → List Nat → Bool
  | [], _ => false
  | _, [] => false
  | a :: as, b :: bs => a < b || (a == b && lexLess as bs)

/-- The element whose key comes first; the earliest of equal ones. -/
def firstBy {α : Type} (key : α → List Nat) : List α → Option α
  | [] => none
  | a :: l =>
    match firstBy key l with
    | none => some a
    | some b => if lexLess (key b) (key a) then some b else some a

/-- The threads of an entry: how many, the cycle from which the oldest waits, the lowest slot. -/
def cardThreads (s : State) (e : Card) : List Thread :=
  e.members.flatMap fun m => (maskBits m.2).map (s.strand m.1).thread

def oldestSince (s : State) (e : Card) : Nat := (cardThreads s e).foldl (fun n t => min n t.since) (2 ^ 64)

def lowestSlot (s : State) (e : Card) : Nat := e.members.foldl (fun n m => min n (s.strand m.1).slot) 16

/-- The class of an entry's launch (R303). -/
def classOf (s : State) (e : Card) : Nat := ((e.members.head?.map fun m => (s.launch (s.strand m.1).launch).msg.mode % 4)).getD 0

/-- The order in which the arbiter prefers entries (R319). -/
def arbKey (s : State) (now : Nat) (e : Card) : List Nat :=
  let since := oldestSince s e
  let aged := classOf s e != 0 && since + 256 ≤ now
  [if aged then 0 else 1, if aged then since else 0, 1024 - (cardThreads s e).length, e.pc.toNat, lowestSlot s e]

/-- The arbiter of a partition starts a run: its entry, and the sliver's fragments (R57, R319). -/
def startRun (s : State) (part : Nat) : State :=
  let core := part / 4
  let c := s.cards part
  if s.cur.isSome || (s.core core).asleep || c.entries.any (·.running) then s
  else
    match firstBy (arbKey s (s.cycleOf core)) c.entries with
    | none => s
    | some e =>
      let s := s.setCards part { c with entries := c.entries.map fun x => if x = e then { x with running := true } else x }
      { s with cur := some { part := part, frags := e.members }, turn := part }

def execRunArbitration (part : Nat) (s : State) : Host.Outcome State Fault Refusal := .next (startRun s part)

/-! ### Waits that end -/

/-- Every live thread of the strand is held at one convergence point (R29).
DEDUCED: log entry 26, safe. -/
def converged (st : Strand) : Bool :=
  let ts := st.threads.filter (·.live)
  !ts.isEmpty && ts.all fun t => t.wait == .converge && t.pc == (ts.headD default).pc

def execConvergenceIssue (u : Nat) (s : State) : Host.Outcome State Fault Refusal :=
  .next (if converged (s.strand u) then s.wakeIf u (· == .converge) else s)

/-- The results of a long-latency instruction return (R66). -/
def longReturn (s : State) (u i : Nat) : State :=
  if (s.strand u).threads.any fun t => t.outs.any (·.id == i) then
    (s.modStrand u fun st =>
      { st with threads := st.threads.map fun t => { t with outs := t.outs.filter (·.id != i) } }).wakeIf u (· == .lookahead)
  else s

def execLongLatencyReturn (u i : Nat) (s : State) : Host.Outcome State Fault Refusal := .next (longReturn s u i)

def execQueueAccessResume (u : Nat) (s : State) : Host.Outcome State Fault Refusal := .next (s.wakeIf u (· == .queue))

/-- A number still in flight on a core: a copy's or a matrix operation's. -/
def inFlight (s : State) (core i : Nat) : Bool :=
  (s.core core).copies.any (·.id == i) ||
    s.strands.any fun x => x.2.core == core && x.2.mops.any (·.id == i)

/-- A range leaves the scoreboard once its owner is done; overlapping accesses go on (R182, R183, R199). -/
def scoreRelease (s : State) (core i : Nat) : State :=
  if inFlight s core i then s
  else
    let s := { s with cores := smod s.cores core fun c => { c with score := c.score.filter fun e => e.1 != i } }
    s.wakeAll (fun _ st => st.core == core) (· == .scoreboard)

def execScoreboardRelease (core i : Nat) (s : State) : Host.Outcome State Fault Refusal := .next (scoreRelease s core i)

/-! ### Re-entry -/

/-- A strand is out of the run being stepped. -/
def State.pull (s : State) (u : Nat) : State :=
  { s with cur := s.cur.map fun r => { r with frags := r.frags.map fun f => if f.1 = u then (u, 0) else f } }

/-- The site of the instruction where threads stand, as a trap of theirs reports it. -/
def standingSite (s : State) (u : Nat) (m : BitVec 32) : Site :=
  let st := s.strand u
  let w := match fetchWord s u (byteOf (st.thread (st.lowest m)).pc) with
    | (.words w, _) => w
    | _ => 0
  bareSite s u m w

/-- Threads re-enter their regions, counted (R165). -/
def reenterNow (s : State) (u : Nat) (m : BitVec 32) (err : Nat) (mismatch : Bool) : State :=
  ((reenter s (standingSite s u m) true err mismatch).pull u).recard u

/-- Threads that stand ready at one instruction. -/
def readyTogether (st : Strand) (m : BitVec 32) : Bool :=
  let pc := (st.thread (st.lowest m)).pc
  m != 0 && (m &&& ~~~st.idle) == 0 && (maskBits m).all fun i => (st.thread i).pc == pc

/-- REGION_REENTRY: of a fragment whose pages have all been replayed, or of a protected one whose lane pairs differ (R352). -/
def execRegionReentry (u : Nat) (threads : BitVec 32) (s : State) : Host.Outcome State Fault Refusal :=
  let st := s.strand u
  let m := threads &&& st.liveMask
  .next <|
    if st.phase ≠ .resident ∨ m = 0 then s
    else if (maskBits m).all fun i => (st.thread i).wait == .pages [] true then reenterNow s u m 0 false
    else if st.prot && readyTogether st m then reenterNow s u m 4 true
    else s

/-- A parity error on the operand path, or an uncorrectable error in a store buffer or queue entry (R350). -/
def execOperandParityError (u : Nat) (threads : BitVec 32) (s : State) : Host.Outcome State Fault Refusal :=
  let st := s.strand u
  let m := threads &&& st.liveMask
  .next (if st.phase = .resident ∧ readyTogether st m then reenterNow s u m 4 false else s)

end Sys2Proof.Machine
end

