-- ==== Sys2Proof/Machine/Commit.lean ====
section
/-!
DEFINITION. Events of the commit unit (R167, R168, R203), the bobbin (R202), waiting BARWs (R196), and the responses of peers
(R328).
-/

namespace Sys2Proof.Machine

/-! ### Commit -/

/-- Threads that wait for stores look again once an entry has been performed, or none is left. -/
def storesDone (before after : State) (u : Nat) : State :=
  let a := (before.strand u).cq.length
  let b := (after.strand u).cq.length
  if b < a || (b = 0 && (after.strand u).unacked.isEmpty) then after.wakeIf u (· == .stores) else after

def execCommitCheck (u : Nat) (s : State) : Host.Outcome State Fault Refusal :=
  .next (storesDone s (commitPass s u fun _ => true) u)

/-- A store whose pages have been replayed is tried again (R168). -/
def unparkStore (s : State) (u seq : Nat) : State :=
  match (s.strand u).cq.find? fun e => e.seq == seq with
  | some e =>
    if e.phase = .parked [] then storesDone s (commitTry (setEntry s u seq fun d => { d with phase := .pending }) u seq) u else s
  | none => s

def execParkedStorePerform (u seq : Nat) (s : State) : Host.Outcome State Fault Refusal := .next (unparkStore s u seq)

/-- The holder's stores to ORD = 0b10 pages (R203). -/
def execOrd10StorePerform (u : Nat) (s : State) : Host.Outcome State Fault Refusal :=
  let st := s.strand u
  .next (if holdsBobbin s st then storesDone s (commitPass s u fun e => e.phase == .bobbin) u else s)

/-- The bobbin arrives (R202). -/
def execTokwAcquire (u : Nat) (s : State) : Host.Outcome State Fault Refusal :=
  .next (if holdsBobbin s (s.strand u) then s.wakeIf u (· == .bobbin) else s)

/-! ### BARW -/

/-- Threads of a strand held by one BARW. -/
def barwThreads (st : Strand) (w : Wait) : BitVec 32 :=
  maskOf ((List.range st.threads.length).filter fun i => (st.thread i).live && (st.thread i).wait == w)

/-- A BARW completes with its result: WAIT decremented, the k written, a new region after it (R162, R196). -/
def endBarw (s : State) (u : Nat) (w : Wait) (v : Bool) : State :=
  match w with
  | .barw loc _ _ _ k next =>
    let m := barwThreads (s.strand u) w
    let s := barWaiters s loc false
    let s := s.modStrand u fun st =>
      { st.modThreads m fun t => { t with wait := .ready, pc := next } with k := setPred st.k k v }
    (leaveBoundary s u m).recard u
  | _ => s

/-- The BARWs that hold a strand's fragments, each once. -/
def barwsOf (st : Strand) : List Wait :=
  ((st.threads.filter (·.live)).map (·.wait)).dedup.filter fun w => match w with
    | .barw _ _ _ _ _ _ => true
    | _ => false

def barwChanged (s : State) : Wait → Bool
  | .barw loc ph _ _ _ _ => barPh (barRead s loc) != ph
  | _ => false

/-- The bound in cycles of the strand's die has passed; 0xFFFF_FFFF never does (R196).
DESIGN CHOICE: log entry 12, unsafe. -/
def barwLate (s : State) (core : Nat) : Wait → Bool
  | .barw _ _ start bound _ _ => bound != 0xFFFFFFFF && start + bound ≤ s.cycleOf core
  | _ => false

def execBarwWake (u : Nat) (s : State) : Host.Outcome State Fault Refusal :=
  .next (((barwsOf (s.strand u)).filter (barwChanged s)).foldl (fun s w => endBarw s u w true) s)

def execBarwTimeout (u : Nat) (s : State) : Host.Outcome State Fault Refusal :=
  let st := s.strand u
  .next (((barwsOf st).filter fun w => !barwChanged s w && barwLate s st.core w).foldl (fun s w => endBarw s u w false) s)

/-! ### Responses of peers -/

/-- The strand of a response tag that waits for this sequence number (R328). -/
def awaiting (s : State) (rtag : Nat) (f : Strand → Nat → Bool) : Option Nat :=
  let ctx := rtag / 2 ^ 48
  let sid := rtag / 2 ^ 16 % 2 ^ 32
  (s.strands.find? fun x => s.ctxOf x.2 == ctx && x.2.sid == sid && f x.2 (rtag % 2 ^ 16)).map (·.1)

/-- The tag of what a peer sent (R114, R117). -/
def peerTag (en : Bool) (rank : Nat) : Tag := if en then BitVec.ofNat 16 (0xD000 + rank % 4096) else 0

/-- Registers as the response leaves them: a value's words, extended as the load said, or a predicate (R182). -/
def putAnswer (st : Strand) (w : PeerWait) (bs : List Byte) : Strand :=
  let x := ofBytes (bs.take w.size)
  let ws := (extendWords w.sx w.size x).take w.words
  let tag := if w.uniform && w.atomic then 0 else peerTag w.en w.rank
  if w.pred then
    if w.uniform then { st with k := setPred st.k w.code (x != 0) }
    else st.modThreads (BitVec.twoPow 32 w.thread) fun t => { t with p := setPred t.p w.code (x != 0) }
  else if w.words = 0 then st
  else if w.uniform then st.writeS w.code ws tag
  else st.modThreads (BitVec.twoPow 32 w.thread) fun t => t.writeV w.code ws tag

/-- What of a saved strand's image an answer changes: offset in the slot and bytes (R328, R333). -/
def answerImage (st : Strand) (w : PeerWait) : List (Nat × List Byte) :=
  if w.pred then
    if w.uniform then [(0x590, [st.k])] else [(0x600 + 32 * w.thread + 17, [(st.thread w.thread).p])]
  else
    ((upFrom w.code w.words).filter (· != 0)).flatMap fun r =>
      if w.uniform then
        let x := sget {} st.s r
        [(0xB00 + 4 * r, toBytes 4 x.val.toNat), (0xC00 + 2 * r, toBytes 2 x.tag.toNat)]
      else
        let x := sget {} (st.thread w.thread).v r
        [(0x8000 + 128 * r + 4 * w.thread, toBytes 4 x.val.toNat), (0x10000 + 64 * r + 2 * w.thread, toBytes 2 x.tag.toNat)]

/-- The entry of R333 that names a sequence number. -/
def awaitedSlot (s : State) (st : Strand) (seq : Nat) : Option Nat :=
  (List.range 16).find? fun j =>
    ((devGet s (s.ctxOf st) (slotVA s st + 0x15400 + 16 * j) 4).map ofBytes).any fun n => n == seq % 2 ^ 32 && n != 0

/-- The saved image follows an answer that came after the save (R328). -/
def imageAnswer (s : State) (u : Nat) (w : PeerWait) : State :=
  let st := s.strand u
  let s := (answerImage st w).foldl (fun s x => slotWrite s u x.1 x.2) s
  match awaitedSlot s st w.seq with
  | some j => slotWrite s u (0x15400 + 16 * j) (List.replicate 16 0)
  | none => s

/-- A place is free among the 16 outstanding responses: the oldest request that waits is sent (R333). -/
def sendNext (s : State) (u : Nat) : State :=
  let st := s.strand u
  match st.peers.find? fun w => w.unsent.isSome with
  | none => s
  | some w =>
    let (type, pa, ops) := w.unsent.getD (0, 0, 0)
    let l := s.launch st.launch
    let s := s.sendPeer type 0 l.msg.gang w.rank l.msg.grank pa (respTag s st w.seq) ops []
    s.modStrand u fun st => { st with peers := st.peers.map fun x => if x.seq = w.seq then { x with unsent := none } else x }

/-- A peer has refused a load or an atomic (R279): its trap, in the threads that still stand together with the requesting one.
`code` gives cause and 256 times the sub-cause; OWNERSHIP's sub-cause is the access's own.
DEDUCED: log entry 28, unsafe. -/
def refuse (s : State) (u : Nat) (w : PeerWait) (code : Nat) : State :=
  let st := s.strand u
  let t := st.thread w.thread
  let m := maskOf ((maskBits st.liveMask).filter fun i =>
    (st.thread i).region == t.region && (st.thread i).pc == t.pc && (st.thread i).paused == t.paused)
  let cause := code % 256
  let sub := if cause = 0x25 then (if w.atomic then 2 else 0) else code / 256
  if !t.live || st.phase != .resident then s
  else
    takeTrap s { u := u, mask := m, pc := w.pc, words := wordsOf w.word0, word0 := w.word0, boundary := false }
      { cause := cause, sub := sub, lanes := some (if w.uniform then st.laneMask (maskBits m) else st.laneMask [w.thread]) }

/-- A response with its bytes: written to its register, or to the saved image; or bytes an engine, a fetch or a launch record
waits for (R328). One that nothing waits for is dropped; `code` is 0 but for a refusal.
DEDUCED: log entry 28, unsafe. -/
def answer (s : State) (rtag : Nat) (bs : List Byte) (code : Nat) : State :=
  match awaiting s rtag fun st n => st.peers.any fun w => w.unsent.isNone && w.seq % 2 ^ 16 == n with
  | some u =>
    let st := s.strand u
    match st.peers.find? fun w => w.unsent.isNone && w.seq % 2 ^ 16 == rtag % 2 ^ 16 with
    | none => s
    | some w =>
      let s := s.modStrand u fun st =>
        { (if code = 0 then putAnswer st w bs else st) with peers := st.peers.filter fun x => x.seq != w.seq }
      let s := if st.phase = .saved then imageAnswer s u w else s
      let s := sendNext s u
      (if code = 0 then s else refuse s u w code).wakeIf u (· == .peer)
  | none =>
    match awaiting s rtag fun st n => st.peerBuf.any fun b => b.data.isNone && !b.refused && b.seq % 2 ^ 16 == n with
    | some u =>
      let got (b : PeerBuf) : PeerBuf :=
        if b.data.isNone && b.seq % 2 ^ 16 == rtag % 2 ^ 16 then
          if code = 0 then { b with data := some ((bs ++ List.replicate b.n 0).take b.n) } else { b with refused := true }
        else b
      (s.modStrand u fun st => { st with peerBuf := st.peerBuf.map got }).wakeIf u (· == .peer)
    | none => s

/-- The response to an atomic of a peer arrives (R328). -/
def execPeerResponseArrival (rtag : Nat) (value : BitVec 64) (s : State) : Host.Outcome State Fault Refusal :=
  .next (answer s rtag (toBytes 8 value.toNat) 0)

/-- The first element that a test holds of, and the list without it. -/
def takeFirst {α : Type} (f : α → Bool) (l : List α) : Option (α × List α) :=
  (l.findIdx? f).bind fun i => l[i]?.map fun x => (x, l.eraseIdx i)

/-- A write, atomic or message has been performed at the peer (R383), or the peer has refused it with a code (R279): a store's
fault waits for its boundary and has its birth record (R167), a copy's waits for CWAIT (R200).
DEDUCED: log entry 28, unsafe. -/
def acknowledge (s : State) (rtag code : Nat) : State :=
  let n := rtag % 2 ^ 16
  let here (st : Strand) (n : Nat) : Bool :=
    st.unacked.any (fun q => q.seq % 2 ^ 16 == n) || st.copyUnacked.any (fun c => c.1 % 2 ^ 16 == n) ||
      st.peers.any fun w => w.unsent.isNone && w.atomic && w.words == 0 && !w.pred && w.seq % 2 ^ 16 == n
  match awaiting s rtag here with
  | none => s
  | some u =>
    let st := s.strand u
    let s : State :=
      match takeFirst (fun (q : PeerStore) => q.seq % 2 ^ 16 == n) st.unacked with
      | some (q, rest) =>
        let s := s.modStrand u fun st => { st with unacked := rest }
        if code = 0 then s
        else
          let s := if q.record.isEmpty then s else appendRecord s u q.record
          s.modStrand u fun st => { st with stFaults := st.stFaults ++ [q.fault] }
      | none =>
        match takeFirst (fun (c : Nat × Nat × Nat) => c.1 % 2 ^ 16 == n) st.copyUnacked with
        | some (c, rest) =>
          s.modStrand u fun st =>
            { st with
              copyUnacked := rest
              cpFaults := if code = 0 then st.cpFaults
                else st.cpFaults ++ [{ cause := 0x25, sub := 4, addr := c.2.2, batch := c.2.1, seq := c.1 }] }
        | none =>
          match takeFirst (fun (w : PeerWait) => w.atomic && w.words == 0 && !w.pred && w.seq % 2 ^ 16 == n) st.peers with
          | some (w, rest) =>
            let s := sendNext (s.modStrand u fun st => { st with peers := rest }) u
            if code = 0 then s else refuse s u w code
          | none => s
    s.wakeIf u fun w => w == .peer || w == .stores || w == .engine

end Sys2Proof.Machine
end

