-- ==== Sys2Proof/Machine/Crypto.lean ====
section
/-!
DEFINITION. The functions that the weight stream and the security core name: Adler-32 (R231), the prefix code (R233),
AES-256-GCM (R232; FIPS 197, SP 800-38D) and SHA-256 (R370, R372; FIPS 180-4). Bytes are numbers below 256 here.
-/

namespace Sys2Proof.Machine

/-! ### Adler-32 -/

/-- Adler-32 of bytes (R231). -/
def adler32 (bs : List Nat) : Nat :=
  let r := bs.foldl (fun r x => let a := (r.1 + x) % 65521; (a, (r.2 + a) % 65521)) (1, 0)
  r.2 * 65536 + r.1

/-! ### The prefix code -/

/-- The present symbols in the order (length, symbol). -/
def sortedSymbols (lens : List Nat) : List (Nat × Nat) :=
  ((List.range 15).map (· + 1)).flatMap fun n =>
    (lens.zipIdx.filter fun x => x.1 == n).map fun x => (n, x.2)

/-- Codes assigned in that order (R233), as (length, code, symbol). -/
def assignCodes : List (Nat × Nat) → Nat → Nat → List (Nat × Nat × Nat)
  | [], _, _ => []
  | (n, j) :: rest, code, last =>
    let c := code * 2 ^ (n - last)
    (n, c, j) :: assignCodes rest (c + 1) n

/-- The symbol whose term first makes the sum of 2^(−length) exceed 1; sums are held as multiples of 2^(−15). -/
def overfull : List (Nat × Nat) → Nat → Option Nat
  | [], _ => none
  | (n, j) :: rest, sum => if 2 ^ 15 < sum + 2 ^ (15 - n) then some j else overfull rest (sum + 2 ^ (15 - n))

/-- The bits of payload bytes, most significant first. -/
def payloadBits (bs : List Nat) : List Bool :=
  bs.flatMap fun b => (List.range 8).map fun i => b / 2 ^ (7 - i) % 2 == 1

/-- One symbol: the bits that follow it and its bits read, or the position of the failure, counted from its first bit. -/
def readSymbol (codes : List (Nat × Nat × Nat)) : Nat → List Bool → Nat → Nat → Except Nat (Nat × List Bool × Nat)
  | 0, _, n, _ => .error n
  | _, [], n, _ => .error n
  | fuel + 1, b :: bs, n, c =>
    let c := 2 * c + (if b then 1 else 0)
    let n := n + 1
    match codes.find? fun x => x.1 == n && x.2.1 == c with
    | some x => .ok (x.2.2, bs, n)
    | none =>
      if codes.any fun x => n < x.1 && x.2.1 / 2 ^ (x.1 - n) == c then readSymbol codes fuel bs n c
      else .error (n - 1)

/-- `k` symbols from position `p` on, or the position of the failure. -/
def readSymbols (codes : List (Nat × Nat × Nat)) : Nat → List Bool → Nat → Except Nat (List Nat × List Bool × Nat)
  | 0, bs, p => .ok ([], bs, p)
  | k + 1, bs, p =>
    match readSymbol codes 16 bs 0 0 with
    | .error n => .error (p + n)
    | .ok (j, bs, n) =>
      match readSymbols codes k bs (p + n) with
      | .error e => .error e
      | .ok (js, bs, q) => .ok (j :: js, bs, q)

/-- Bytes from symbols: the first of each two is the low nibble. -/
def pairNibbles : List Nat → List Nat
  | a :: b :: rest => (a + 16 * b) :: pairNibbles rest
  | _ => []

/-- A payload decoded to `dlen` bytes, or the bit position at which decoding failed (R233). -/
def decodePayload (lens : List Nat) (dlen : Nat) (payload : List Nat) : Except Nat (List Nat) :=
  match readSymbols (assignCodes (sortedSymbols lens) 0 ((sortedSymbols lens).headD (0, 0)).1) (2 * dlen) (payloadBits payload) 0 with
  | .error p => .error p
  | .ok (js, rest, p) =>
    match rest.findIdx? id with
    | some i => .error (p + i)
    | none => .ok (pairNibbles js)

/-! ### AES-256 -/

/-- Multiplication by x in AES's field. -/
def xtime (a : Nat) : Nat := if a < 128 then 2 * a else Nat.xor (2 * a - 256) 0x1B

/-- Product in AES's field, `b`'s bits from the lowest. -/
def gmulFrom : Nat → Nat → Nat → Nat
  | 0, _, _ => 0
  | k + 1, a, b => Nat.xor (if b % 2 = 1 then a else 0) (gmulFrom k (xtime a) (b / 2))

def gmul (a b : Nat) : Nat := gmulFrom 8 a b

/-- a^254, the inverse of a. -/
def ginv (a : Nat) : Nat :=
  let a2 := gmul a a
  let a4 := gmul a2 a2
  let a8 := gmul a4 a4
  let a16 := gmul a8 a8
  let a32 := gmul a16 a16
  let a64 := gmul a32 a32
  let a128 := gmul a64 a64
  gmul a128 (gmul a64 (gmul a32 (gmul a16 (gmul a8 (gmul a4 a2)))))

def rotl8 (x n : Nat) : Nat := (x * 2 ^ n + x / 2 ^ (8 - n)) % 256

/-- The S-box. -/
def sbox (a : Nat) : Nat :=
  let b := ginv a
  Nat.xor (Nat.xor (Nat.xor (Nat.xor (Nat.xor b (rotl8 b 1)) (rotl8 b 2)) (rotl8 b 3)) (rotl8 b 4)) 0x63

def sboxTable : List Nat := (List.range 256).map sbox

def xorBytes (a b : List Nat) : List Nat := (a.zip b).map fun x => Nat.xor x.1 x.2

/-- The key schedule: words of four bytes, the last first; `i` the number of the next. -/
def expandKey (sb : List Nat) : Nat → Nat → Nat → List (List Nat) → List (List Nat)
  | 0, _, _, ws => ws
  | k + 1, i, rcon, ws =>
    let t := ws.headD []
    let sub (w : List Nat) : List Nat := w.map fun b => sb.getD b 0
    let first := i % 8 == 0
    let t := if first then xorBytes (sub (t.drop 1 ++ t.take 1)) [rcon, 0, 0, 0] else if i % 8 = 4 then sub t else t
    expandKey sb k (i + 1) (if first then xtime rcon else rcon) (xorBytes (ws.getD 7 []) t :: ws)

/-- Four-byte words of a list. -/
def wordsOf4 : List Nat → List (List Nat)
  | a :: b :: c :: d :: rest => [a, b, c, d] :: wordsOf4 rest
  | _ => []

/-- The fifteen round keys of a 32-byte key. -/
def roundKeys (sb : List Nat) (key : List Nat) : List (List Nat) :=
  let ws := (expandKey sb 52 8 1 (wordsOf4 key).reverse).reverse
  (List.range 15).map fun r => ((ws.drop (4 * r)).take 4).flatten

/-- ShiftRows on 16 bytes, column by column. -/
def shiftRows (s : List Nat) : List Nat :=
  (List.range 16).map fun i => s.getD ((i + 4 * (i % 4)) % 16) 0

def mixColumn : List Nat → List Nat
  | [a, b, c, d] =>
    let x (p q r s : Nat) : Nat := Nat.xor (Nat.xor (xtime p) (Nat.xor (xtime q) q)) (Nat.xor r s)
    [x a b c d, x b c d a, x c d a b, x d a b c]
  | l => l

def aesRounds (sb : List Nat) : List (List Nat) → List Nat → List Nat
  | [], s => s
  | [k], s => xorBytes (shiftRows (s.map fun b => sb.getD b 0)) k
  | k :: ks, s =>
    aesRounds sb ks (xorBytes ((wordsOf4 (shiftRows (s.map fun b => sb.getD b 0))).flatMap mixColumn) k)

/-- One block enciphered under round keys. -/
def aesBlock (sb : List Nat) (ks : List (List Nat)) (s : List Nat) : List Nat :=
  match ks with
  | [] => s
  | k :: ks => aesRounds sb ks (xorBytes s k)

/-! ### GCM -/

/-- Bytes as a number, the first most significant. -/
def bigEndian (bs : List Nat) : Nat := bs.foldl (fun n b => 256 * n + b) 0

def toBigEndian (n x : Nat) : List Nat := (List.range n).map fun i => x / 256 ^ (n - 1 - i) % 256

/-- The product of GHASH; bit 127 of a number is the first bit. -/
def ghashMul : Nat → Nat → Nat → Nat
  | 0, _, _ => 0
  | k + 1, x, v =>
    let z := ghashMul k x (if v % 2 = 1 then Nat.xor (v / 2) (0xE1 * 2 ^ 120) else v / 2)
    if x / 2 ^ k % 2 = 1 then Nat.xor v z else z

/-- 16-byte blocks, the last filled with zeros. -/
def blocks16 : Nat → List Nat → List (List Nat)
  | 0, _ => []
  | fuel + 1, bs =>
    if bs.isEmpty then [] else ((bs.take 16) ++ List.replicate (16 - bs.length) 0) :: blocks16 fuel (bs.drop 16)

def ghash (h : Nat) (bls : List (List Nat)) : Nat :=
  bls.foldl (fun y b => ghashMul 128 (Nat.xor y (bigEndian b)) h) 0

/-- AES-256-GCM with a 12-byte IV: the plaintext and the computed tag, both as bytes. -/
def gcmOpen (key iv aad ct : List Nat) : List Nat × List Nat :=
  let sb := sboxTable
  let ks := roundKeys sb key
  let enc (b : List Nat) : List Nat := aesBlock sb ks b
  let h := bigEndian (enc (List.replicate 16 0))
  let ctr (i : Nat) : List Nat := iv ++ toBigEndian 4 i
  let cb := blocks16 (ct.length / 16 + 1) ct
  let plain := ((cb.zipIdx).flatMap fun b => xorBytes b.1 (enc (ctr (b.2 + 2)))).take ct.length
  let y := ghash h (blocks16 (aad.length / 16 + 1) aad ++ cb ++ [toBigEndian 8 (8 * aad.length) ++ toBigEndian 8 (8 * ct.length)])
  (plain, xorBytes (toBigEndian 16 y) (enc (ctr 1)))

/-! ### SHA-256 -/

def add32 (a b : Nat) : Nat := (a + b) % 2 ^ 32
def rotr32 (x n : Nat) : Nat := (x / 2 ^ n + x * 2 ^ (32 - n)) % 2 ^ 32

/-- The 64 constants of FIPS 180-4. -/
def shaK : List Nat :=
  [0x428a2f98, 0x71374491, 0xb5c0fbcf, 0xe9b5dba5, 0x3956c25b, 0x59f111f1, 0x923f82a4, 0xab1c5ed5, 0xd807aa98, 0x12835b01,
   0x243185be, 0x550c7dc3, 0x72be5d74, 0x80deb1fe, 0x9bdc06a7, 0xc19bf174, 0xe49b69c1, 0xefbe4786, 0x0fc19dc6, 0x240ca1cc,
   0x2de92c6f, 0x4a7484aa, 0x5cb0a9dc, 0x76f988da, 0x983e5152, 0xa831c66d, 0xb00327c8, 0xbf597fc7, 0xc6e00bf3, 0xd5a79147,
   0x06ca6351, 0x14292967] ++
  [0x27b70a85, 0x2e1b2138, 0x4d2c6dfc, 0x53380d13, 0x650a7354, 0x766a0abb, 0x81c2c92e, 0x92722c85, 0xa2bfe8a1, 0xa81a664b,
   0xc24b8b70, 0xc76c51a3, 0xd192e819, 0xd6990624, 0xf40e3585, 0x106aa070, 0x19a4c116, 0x1e376c08, 0x2748774c, 0x34b0bcb5,
   0x391c0cb3, 0x4ed8aa4a, 0x5b9cca4f, 0x682e6ff3, 0x748f82ee, 0x78a5636f, 0x84c87814, 0x8cc70208, 0x90befffa, 0xa4506ceb,
   0xbef9a3f7, 0xc67178f2]

def shaStart : List Nat :=
  [0x6a09e667, 0xbb67ae85, 0x3c6ef372, 0xa54ff53a, 0x510e527f, 0x9b05688c, 0x1f83d9ab, 0x5be0cd19]

/-- The message schedule, the latest word first. -/
def shaSchedule : Nat → List Nat → List Nat
  | 0, ws => ws
  | k + 1, ws =>
    let a := ws.getD 14 0
    let b := ws.getD 1 0
    let s0 := Nat.xor (Nat.xor (rotr32 a 7) (rotr32 a 18)) (a / 2 ^ 3)
    let s1 := Nat.xor (Nat.xor (rotr32 b 17) (rotr32 b 19)) (b / 2 ^ 10)
    shaSchedule k (add32 (add32 (ws.getD 15 0) s0) (add32 (ws.getD 6 0) s1) :: ws)

def shaRound : List Nat → Nat × Nat → List Nat
  | [a, b, c, d, e, f, g, h], (k, w) =>
    let s1 := Nat.xor (Nat.xor (rotr32 e 6) (rotr32 e 11)) (rotr32 e 25)
    let ch := Nat.xor (Nat.land e f) (Nat.land (2 ^ 32 - 1 - e) g)
    let t1 := add32 (add32 h s1) (add32 ch (add32 k w))
    let s0 := Nat.xor (Nat.xor (rotr32 a 2) (rotr32 a 13)) (rotr32 a 22)
    let maj := Nat.xor (Nat.xor (Nat.land a b) (Nat.land a c)) (Nat.land b c)
    [add32 t1 (add32 s0 maj), a, b, c, add32 d t1, e, f, g]
  | l, _ => l

def shaBlock (h : List Nat) (block : List Nat) : List Nat :=
  let ws := (shaSchedule 48 ((wordsOf4 block).map bigEndian).reverse).reverse
  (h.zip ((shaK.zip ws).foldl shaRound h)).map fun x => add32 x.1 x.2

/-- 64-byte blocks. -/
def blocks64 : Nat → List Nat → List (List Nat)
  | 0, _ => []
  | fuel + 1, bs => if bs.isEmpty then [] else bs.take 64 :: blocks64 fuel (bs.drop 64)

/-- SHA-256 of bytes, as a number whose most significant byte is the digest's first.
DEDUCED: log entry 35, unsafe. -/
def sha256 (bs : List Nat) : Nat :=
  let padded := bs ++ [0x80] ++ List.replicate ((119 - bs.length % 64) % 64) 0 ++ toBigEndian 8 (8 * bs.length)
  ((blocks64 (padded.length / 64) padded).foldl shaBlock shaStart).foldl (fun n w => 2 ^ 32 * n + w) 0

end Sys2Proof.Machine
end

