-- ==== Sys2Proof/Machine/Tile.lean ====
section
/-!
DEFINITION. Tiles, stationary windows and operand descriptors (R33, R209 to R213), and the operand elements that the matrix
engine reads (R90, R92, R211, R214).
-/

namespace Sys2Proof.Machine

/-! ### Tiles -/

/-- The first element of a tile in the strand's allocation (R33). -/
def tileBase (st : Strand) (t : Nat) : Nat := t * st.accn / 4

/-- A tile extent runs past the allocation, or there is none (R33). -/
def tileBad (st : Strand) (t rows width : Nat) : Bool := st.accn == 0 || st.accn < tileBase st t + rows * width

/-- An accumulator element as a computation reads it: a poisoned one is a canonical NaN (R346). -/
def accWord (st : Strand) (i : Nat) : Word :=
  let e := sget {} st.acc i
  if e.poison then poisonWord else e.val

def accTag (st : Strand) (i : Nat) : Tag := (sget {} st.acc i).tag

def accPoison (st : Strand) (i : Nat) : Bool := (sget {} st.acc i).poison

/-- Elements written one after another from index `i`, clean, with tag 0x0000 until the block's tag is set. -/
def accPut (st : Strand) (i : Nat) (ws : List Word) : Strand :=
  { st with acc := (ws.zipIdx i).foldl (fun m w => sput {} m w.2 { val := w.1 }) st.acc }

/-- The tag of the 8 × 8 block whose first row starts at element `i`, in a tile of some width (R119). -/
def blockTagPut (st : Strand) (i width : Nat) (t : Tag) : Strand :=
  let cells := (List.range 8).flatMap fun r => upFrom (i + r * width) 8
  { st with acc := cells.foldl (fun m c => sput {} m c { sget {} m c with tag := t }) st.acc }

/-- Side registers ROWMAX and ROWSUM of a tile's row (R33). -/
def sideIdx (t row : Nat) : Nat := 128 * t + row

/-- S: the bytes of a stationary window whose skein's strands hold e accumulator elements (R209). -/
def windowSize (e : Nat) : Nat := 16 * e / 5 / 1024 * 1024

/-! ### Descriptors -/

/-- A descriptor as read (R210). -/
structure Desc where
  base : Nat
  stride : Nat
  coff : Nat
  roff : Nat
  src : Nat
  trn : Bool
  fmt : Nat
  sbase : Nat
  sstride : Nat
  deriving DecidableEq, Repr, Inhabited

/-- The fields of the eight words. -/
def descOf (ws : List Word) : Desc :=
  let w (j : Nat) : Nat := (ws.getD j 0).toNat
  { base := w 0 + 2 ^ 32 * w 1, stride := w 2, coff := fld (w 3) 12 4, roff := fld (w 3) 8 4, src := fld (w 3) 5 2
    trn := fld (w 3) 4 1 == 1, fmt := fld (w 3) 0 4, sbase := w 4 + 2 ^ 32 * w 5, sstride := w 6 }

/-- The eight registers of a descriptor, and whether one was poisoned. -/
def readDesc (st : Strand) (g : Nat) : List Word × Bool :=
  let os := (upFrom g 8).map fun r => st.readS r 1
  (os.map Opd.w, os.any (·.poison))

/-- Bytes of an element; N4 codes are addressed by their byte (R211). -/
def elemSize : Nat → Nat
  | 1 => 4 | 2 => 2 | 3 => 2 | _ => 1

/-- The class of a format: 16, 8, 4 bits, or 32 for the synthesised one (R212). -/
def fmtClass : Nat → Nat
  | 1 => 32 | 2 => 16 | 3 => 16 | 14 => 4 | _ => 8

/-- Stored rows and columns of an operand of the given shape. -/
def Desc.stored (d : Desc) (rows cols : Nat) : Nat × Nat := if d.trn then (cols, rows) else (rows, cols)

/-- The address of the byte that holds stored element (r, c), and of its scale byte (R211). -/
def Desc.at (d : Desc) (r c : Nat) : Nat := d.base + r * d.stride + (if d.fmt = 14 then c / 2 else c * elemSize d.fmt)
def Desc.scaleAt (d : Desc) (r c : Nat) : Nat := d.sbase + (r + d.roff) / 16 * d.sstride + (c + d.coff) / 16

/-- Lowest byte and the byte after the highest of an operand, and of its scale bytes. -/
def Desc.span (d : Desc) (rows cols : Nat) : Nat × Nat :=
  let (r, c) := d.stored rows cols
  (d.base, d.at (r - 1) (c - 1) + elemSize d.fmt)

def Desc.scaleSpan (d : Desc) (rows cols : Nat) : Nat × Nat :=
  let (r, c) := d.stored rows cols
  (d.sbase, d.scaleAt (r - 1) (c - 1) + 1)

/-- What an operand is for: A of MMA, any other product operand, the source of ACCLD, the destination of ACCST. -/
inductive DescUse
  | prodA | prod | load | store
  deriving DecidableEq, Repr

/-- FMT, SRC and TRN allowed for a use (R210, R212, R225). -/
def DescUse.allows (k : DescUse) (d : Desc) (syn : Nat) : Bool :=
  let fmts := match k with
    | .prodA | .prod => [1, 2, 3, 4, 5, 6, 14]
    | .load => [1, 2, 3]
    | .store => [1, 2, 3, 4, 5]
  let srcs := match k with
    | .prodA => [0, 1, 2, 3]
    | .prod => [0, 3]
    | .load | .store => [0]
  let narrow := d.src == 1 || d.src == 2
  fmts.contains d.fmt && srcs.contains d.src && (!narrow || (d.fmt == 3 && !d.trn && syn == 0)) &&
    (k == .prodA || k == .prod || !d.trn)

/-- A descriptor to check: operand number, register, use, shape. -/
structure DescArg where
  o : Nat
  g : Nat
  use : DescUse
  rows : Nat
  cols : Nat
  deriving DecidableEq, Repr

/-- What the checks of one descriptor compare with: the class so far, SYN, the destination tile, S. -/
structure DescEnv where
  cls : Option Nat
  syn : Nat
  dest : Nat
  win : Nat

/-- A failed check, as a trap (R213). -/
def descTrap (o w : Nat) : Exc := { cause := 0x38, sub := 16 * o + w }

/-- A failed address check of a descriptor; the birth's source is the pair's tag (R106). -/
def descAddr (st : Strand) (cause g va : Nat) : Exc :=
  { cause := cause, addr := va, birth := some { kind := 6, a := (st.readS g 2).tag, result := BitVec.ofNat 32 va } }

/-- The checks of one descriptor in the order of R213. -/
def descFault (st : Strand) (a : DescArg) (e : DescEnv) : Option Exc :=
  let ws := (readDesc st a.g).1
  let d := descOf ws
  let w (j : Nat) : Nat := (ws.getD j 0).toNat
  let prod := a.use == .prodA || a.use == .prod
  let classOk := !prod || (e.cls.all (· == fmtClass d.fmt) && (fmtClass d.fmt == 32) == (e.syn != 0))
  let z := elemSize d.fmt
  if fld (w 3) 16 16 ≠ 0 ∨ fld (w 3) 7 1 ≠ 0 ∨ w 7 ≠ 0 ∨ ¬a.use.allows d e.syn ∨ ¬classOk then some (descTrap a.o 3)
  else if d.fmt ≠ 14 ∧ w 4 ≠ 0 then some (descTrap a.o 4)
  else if d.fmt ≠ 14 ∧ w 5 ≠ 0 then some (descTrap a.o 5)
  else if d.fmt ≠ 14 ∧ w 6 ≠ 0 then some (descTrap a.o 6)
  else if d.src = 0 ∧ 2 ^ 56 ≤ d.base then some (descAddr st 0x23 a.g d.base)
  else if d.src = 0 ∧ d.fmt = 14 ∧ 2 ^ 56 ≤ d.sbase then some (descAddr st 0x23 (a.g + 4) d.sbase)
  else if d.src = 0 ∧ d.base % z ≠ 0 then some (descAddr st 0x24 a.g d.base)
  else if d.stride % z ≠ 0 then some (descTrap a.o 2)
  else if d.src = 1 ∧ (4 ≤ d.base ∨ d.base = e.dest ∨ tileBad st d.base a.rows a.cols) then some (descTrap a.o 0)
  else if d.src = 3 ∧ e.win < (d.span a.rows a.cols).2 then some (descTrap a.o 0)
  else if d.src = 3 ∧ d.fmt = 14 ∧ e.win / 128 < (d.scaleSpan a.rows a.cols).2 then some (descTrap a.o 4)
  else none

/-- All descriptors in order; the class of the first product operand binds the later ones. -/
def descsFault (st : Strand) (syn dest win : Nat) (as : List DescArg) : Option Exc :=
  as.findSome? fun a =>
    let earlier := (as.takeWhile fun b => b.o < a.o)
    let cls := (earlier.map fun b => fmtClass (descOf (readDesc st b.g).1).fmt).head?
    descFault st a { cls := cls, syn := syn, dest := dest, win := win }

/-! ### Stationary units -/

/-- The units whose bytes or scale sides an SRC 3 operand touches (R234). -/
def unitsTouched (d : Desc) (rows cols : Nat) : List Nat :=
  if d.src ≠ 3 then []
  else
    let (r, c) := d.stored rows cols
    let data := (List.range r).flatMap fun i =>
      let lo := d.at i 0 / 4096
      upFrom lo ((d.at i (c - 1) + elemSize d.fmt - 1) / 4096 - lo + 1)
    let sides := if d.fmt ≠ 14 then [] else (List.range r).flatMap fun i =>
      let lo := d.scaleAt i 0 / 32
      upFrom lo (d.scaleAt i (c - 1) / 32 - lo + 1)
    (data ++ sides).dedup

/-! ### Reading operands -/

/-- n bytes of a stationary window, with the tags of their units (R111); `side` for the scale sides. -/
def fetchWindow (u o n : Nat) (side : Bool) (s : State) : Got (List Cell) :=
  let key := (s.strand u).skein
  let units := ((sfind s.skeins key).map (·.units)).getD []
  let l := windowLoc key (if side then 2 ^ 18 + o else o)
  let s := s.settle l n
  .ok ((s.read l n).mapIdx fun i b =>
    { byte := b, tag := (sget {} units ((o + i) / (if side then 32 else 4096))).tag, poison := s.poisonedAt (l + i) 1 }) s

/-- Bytes of an operand, wherever it lives. -/
def fetchSrc (src u id va n : Nat) (side : Bool) (s : State) : Got (List Cell) :=
  if src = 3 then fetchWindow u va n side s else fetchRange .matrix u id va n s

/-- An operand element: its value, tag, whether poisoned (then NaN, R346). -/
structure Elem where
  x : Ex
  tag : Tag
  poison : Bool
  deriving DecidableEq, Repr, Inhabited

/-- The element that bytes hold, with its scale byte. -/
def elemOf (fmt c : Nat) (cs : List Cell) (scale : Cell) : Elem :=
  let bits := ofBytes (cs.map (·.byte))
  let pat := if fmt = 14 then fld bits (4 * (c % 2)) 4 else bits
  let poison := cs.any (·.poison) || (fmt == 14 && scale.poison)
  { x := if poison then .nan else cvtValue fmt pat scale.byte.toNat false, tag := (cs.headD default).tag, poison := poison }

/-- Stored elements (r, c0) to (r, c0 + n − 1). -/
def fetchRow (d : Desc) (u id r c0 n : Nat) (s : State) : Got (List Elem) :=
  let z := elemSize d.fmt
  let lo := d.at r c0
  let hi := d.at r (c0 + n - 1) + z
  (fetchSrc d.src u id lo (hi - lo) false s).bind fun cs s =>
    if d.fmt = 14 then
      let slo := d.scaleAt r c0
      (fetchSrc d.src u id slo (d.scaleAt r (c0 + n - 1) + 1 - slo) true s).bind fun ss s =>
        .ok ((upFrom c0 n).map fun c => elemOf 14 c ((cs.drop (d.at r c - lo)).take 1) (ss.getD (d.scaleAt r c - slo) default)) s
    else .ok ((List.range n).map fun j => elemOf d.fmt j ((cs.drop (z * j)).take z) default) s

/-- Rows and columns exchanged, for rows of n elements. -/
def transposed {α : Type} (n : Nat) (rows : List (List α)) : List (List α) := (List.range n).map fun c => rows.filterMap (·[c]?)

/-- Operand elements (i0 .. i0 + ni − 1, j0 .. j0 + nj − 1), row by row; `cols` is the operand's number of columns. -/
def fetchBlock (d : Desc) (u id cols i0 ni j0 nj : Nat) (s : State) : Got (List (List Elem)) :=
  if d.src = 1 then
    let st := s.strand u
    let el (i j : Nat) : Elem :=
      let e := tileBase st d.base + i * cols + j
      { x := Fmt.bf16.value (bf16Of 1 (Fmt.f32.value (accWord st e).toNat)), tag := accTag st e, poison := accPoison st e }
    .ok ((upFrom i0 ni).map fun i => (upFrom j0 nj).map fun j => el i j) s
  else if d.trn then
    (gotAll (fun r s => fetchRow d u id r i0 ni s) (upFrom j0 nj) s).bind fun rows s => .ok (transposed ni rows) s
  else gotAll (fun r s => fetchRow d u id r j0 nj s) (upFrom i0 ni) s

/-! ### Groups and slices -/

/-- Lengths of the groups that a walk of `len` k is cut into (R90): the operands with the offset of k within a stored scale
block, where they are N4. -/
def groupLens (len : Nat) (offs : List (Option Nat)) : List Nat :=
  if offs.any (·.isNone) then (List.range ((len + 7) / 8)).map fun j => min 8 (len - 8 * j)
  else
    let cut (k : Nat) : Bool := k == 0 || offs.any fun o => (k + o.getD 0) % 16 == 0
    let starts := (List.range len).filter cut
    starts.mapIdx fun j a => starts.getD (j + 1) len - a

/-- The offset of an operand's rows or columns within its stored scale blocks, for `groupLens`. -/
def Desc.cutOff (d : Desc) (alongCols : Bool) : Option Nat :=
  if d.fmt = 14 then some (if alongCols != d.trn then d.coff else d.roff) else none

/-- A list cut into pieces of the given lengths. -/
def cutBy {α : Type} : List Nat → List α → List (List α)
  | [], _ => []
  | n :: ns, l => l.take n :: cutBy ns (l.drop n)

/-- The slice pairs of a synthesised operation's passes, 0 whole, 1 hi, 2 mid, 3 lo (R93). -/
def passesOf : Nat → List (Nat × Nat)
  | 0 => [(0, 0)]
  | 1 => [(2, 1), (1, 2), (1, 1)]
  | _ => [(3, 1), (1, 3), (2, 2), (2, 1), (1, 2), (1, 1)]

/-- A BF16 slice of an FP32 value (R92). -/
def sliceOf (syn which : Nat) (x : Ex) : Ex :=
  let bf (rm : Nat) (y : Ex) : Ex := Fmt.bf16.value (bf16Of rm y)
  if which = 0 then x
  else if ¬x.isFin then (if which = 1 then x else .fin false 0 0 false)
  else
    let hi := bf 2 x
    let rest := x.add false hi.neg
    if which = 1 then hi
    else if syn = 1 then bf 1 rest
    else
      let mid := bf 2 rest
      if which = 2 then mid else bf 1 (rest.add false mid.neg)

/-- One accumulator element over its groups (R89). -/
def walkAcc (acc : Word) (a b : List (List Ex)) : Word :=
  BitVec.ofNat 32 ((a.zip b).foldl (fun x g => accumulate x (groupSum false (g.1.zip g.2))) acc.toNat)

end Sys2Proof.Machine
end

