-- ==== Sys2Proof/Machine/Matrix.lean ====
section
/-!
DEFINITION. The matrix engine: operations in flight, the row-blocks they complete (R119, R214 to R227), and the instructions
that start and await them (R216 to R228, R391).
-/

namespace Sys2Proof.Machine

/-! ### What an operation touches -/

/-- The tiles an operation goes through: tile, width, rows. -/
def MOp.stages (o : MOp) : List (Nat × Nat × Nat) :=
  match o.kind with
  | .mmd => [(o.t1, o.k, o.m), (o.t2, o.n, o.k)]
  | .smx => [(o.t1, o.k, o.m)]
  | _ => [(o.t1, o.n, o.m)]

def MOp.geo (o : MOp) : Nat × Nat × Nat := o.stages.getD o.stage (0, 8, 0)

def MOp.passes (o : MOp) : Nat := (passesOf o.syn).length

def MOp.lastPass (o : MOp) : Bool := o.pass + 1 == o.passes

def MOp.desc (o : MOp) (j : Nat) : Desc := descOf (o.descs.getD j [])

/-- A is the staging stream (R211). -/
def MOp.staged (o : MOp) : Bool := (o.kind == .mma || o.kind == .mmas) && (o.desc 0).src == 2

/-- The shapes of the operands in memory. -/
def MOp.shapes (o : MOp) : List (Nat × Nat) :=
  match o.kind with
  | .mma | .mmas => [(o.rows, o.k), (o.k, o.cols)]
  | .mmd => [(o.rows, o.n), (o.k, o.n), (o.rows, o.k)]
  | _ => [(o.m, o.n)]

/-- Bytes of an MMAS bitmap (R217). -/
def MOp.bitmapLen (o : MOp) : Nat := (o.rows / 8 * (o.k / 8) + 7) / 8

/-- The ranges of memory of an operation (R215): first byte, byte after the last. -/
def MOp.memRanges (o : MOp) : List (Nat × Nat) :=
  let ds := (o.shapes.zip o.descs).flatMap fun x =>
    let d := descOf x.2
    if d.src ≠ 0 then []
    else d.span x.1.1 x.1.2 :: (if d.fmt = 14 then [d.scaleSpan x.1.1 x.1.2] else [])
  ds ++ (if o.kind = .mmas then [(o.bitmap, o.bitmap + o.bitmapLen)] else [])

/-- Side registers as indices above every element. -/
def sideRange (t lo hi : Nat) : Nat × Nat := (2 ^ 20 + sideIdx t lo, 2 ^ 20 + sideIdx t hi)

/-- Elements that row-blocks lo to hi − 1 of a stage write, and those they read. -/
def MOp.touches (o : MOp) (st : Strand) (stage lo hi : Nat) : List (Nat × Nat) × List (Nat × Nat) :=
  let (t, w, _) := o.stages.getD stage (0, 8, 0)
  let own := (tileBase st t + 8 * lo * w, tileBase st t + 8 * hi * w)
  let aTile := if (o.kind = .mma ∨ o.kind = .mmas) ∧ (o.desc 0).src = 1 then
      let b := tileBase st (o.desc 0).base
      [(b + 8 * lo * o.k, b + 8 * hi * o.k)]
    else []
  match o.kind with
  | .accst => ([], [own])
  | .smx => ([own, (tileBase st o.t2 + 8 * lo * o.n, tileBase st o.t2 + 8 * hi * o.n), sideRange o.t1 (8 * lo) (8 * hi)], [])
  | .accz => ((if o.side then [own, sideRange o.t1 (8 * lo) (8 * hi)] else [own]), [])
  | _ => ([own], aTile)

/-- Row-blocks of a stage still to do in it. -/
def MOp.stageTodo (o : MOp) (st : Strand) (j : Nat) : List (Nat × Nat) × List (Nat × Nat) :=
  let (_, _, rows) := o.stages.getD j (0, 8, 0)
  let lo := if j = o.stage && o.lastPass then o.prog else 0
  if j < o.stage then ([], []) else o.touches st j lo (rows / 8)

/-- Elements with which an operation has not finished: written and read. -/
def MOp.todo (o : MOp) (st : Strand) : List (Nat × Nat) × List (Nat × Nat) :=
  let parts := (List.range o.stages.length).map (o.stageTodo st)
  (parts.flatMap (·.1), parts.flatMap (·.2))

def overlaps (xs ys : List (Nat × Nat)) : Bool := xs.any fun x => ys.any fun y => x.1 < y.2 && y.1 < x.2

/-- An earlier operation has yet to finish with something that the next row-block of `o` touches (R214). -/
def MOp.blockedBy (o e : MOp) (st : Strand) : Bool :=
  let (nw, nr) := o.touches st o.stage o.prog (o.prog + 1)
  let (ew, er) := e.todo st
  overlaps ew (nw ++ nr) || overlaps er nw || (o.staged && e.staged) || (o.q && e.q) ||
    (((o.kind == .accst && !o.q) || (e.kind == .accst && !e.q)) && overlaps o.memRanges e.memRanges)

/-- The operations of a strand before this one. -/
def earlierOps (st : Strand) (id : Nat) : List MOp := st.mops.takeWhile fun e => e.id != id

def MOp.blocked (o : MOp) (st : Strand) : Bool := (earlierOps st o.id).any fun e => o.blockedBy e st

/-- An operation writes a tile by row-block, and sets its RPROG (R221).
DEDUCED: log entry 50, unsafe. -/
def MOp.counts (o : MOp) (t : Nat) : Bool := o.kind != .accst && o.stages.any fun g => g.1 == t

def modMop (s : State) (u id : Nat) (f : MOp → MOp) : State :=
  s.modStrand u fun st => { st with mops := st.mops.map fun o => if o.id = id then f o else o }

def setRprog (s : State) (u t n : Nat) : State :=
  s.modStrand u fun st => { st with rprog := st.rprog.mapIdx fun j x => if j = t then n else x }

/-- An operation is over: out of the engine and the scoreboard. -/
def dropMop (s : State) (u id : Nat) : State :=
  let core := (s.strand u).core
  let s := dropPeerBytes (s.modStrand u fun st => { st with mops := st.mops.filter fun o => o.id != id }) u id
  { s with cores := smod s.cores core fun c => { c with score := c.score.filter fun e => e.1 != id } }

/-- An operation takes effect (R221): in the engine and the scoreboard, the RPROG of its tiles zero. -/
def startMop (s : State) (u : Nat) (o : MOp) : State :=
  let (id, s) := s.newId
  let st := s.strand u
  let c := s.core st.core
  let s := s.setCore st.core { c with score := c.score ++ o.memRanges.map fun r => (id, s.ctxOf st, r.1, r.2) }
  s.modStrand u fun st =>
    { st with
      mops := st.mops ++ [{ o with id := id }]
      rprog := st.rprog.mapIdx fun t x => if o.counts t then 0 else x }

/-! ### Completing a row-block -/

/-- A row-block counts (R221): RPROG, where no later operation has set it anew, and the next row-block, pass or tile.
DEDUCED: log entry 50, unsafe. -/
def countBlock (s : State) (u : Nat) (o : MOp) : State :=
  let (t, _, rows) := o.geo
  let p := o.prog + 1
  let wrap := p = rows / 8
  let st := s.strand u
  let newest := ((st.mops.dropWhile fun e => e.id != o.id).drop 1).all fun e => !e.counts t
  let s := if newest && o.counts t then setRprog s u t (if wrap && !o.lastPass then 0 else p) else s
  let clean (o : MOp) : MOp :=
    { o with due := [], fails := 0, part := [], partRow := 0, partGroup := 0, partTags := [], partPois := [] }
  if !wrap then modMop s u o.id fun o => { clean o with prog := p }
  else if !o.lastPass then modMop s u o.id fun o => { clean o with prog := 0, pass := o.pass + 1 }
  else if o.stage + 1 < o.stages.length then modMop s u o.id fun o => { clean o with prog := 0, pass := 0, stage := o.stage + 1 }
  else dropMop s u o.id

/-- The engine consumes poison for a strand, once for each operation (R346, R347). -/
def engineConsumes (s : State) (u : Nat) (o : MOp) : State :=
  if o.poison then s
  else
    modMop (s.modStrand u fun st => { st.chkiEvent 1 with poisonDue := st.poisonDue || st.poisonSpan }) u o.id fun o =>
      { o with poison := true }

/-- A finished row-block: its words, the merged operand tags of its rows and columns, which elements poison reached. -/
structure BlockOut where
  rows : List (List Word)
  rowTags : List Tag := []
  colTags : List Tag := []
  pois : List (List Bool) := []

/-- The first non-finite element of block `bc`, in row-major order. -/
def BlockOut.firstBad (b : BlockOut) (bc : Nat) : Option (Nat × Nat × Word) :=
  ((List.range 8).flatMap fun r => (upFrom (8 * bc) 8).map fun c => (r, c, (b.rows.getD r []).getD c 0)).find? fun e =>
    !(Fmt.f32.value e.2.2.toNat).isFin

/-- The tag of a block after an operation (R119), with the number of a record still to be performed. -/
def blockTag (s : State) (u : Nat) (o : MOp) (b : BlockOut) (bc : Nat) (prev : Tag) : Tag × List Nat × State :=
  if !o.en then (0, [], s)
  else
    match b.firstBad bc with
    | none => (o.site, [], s)
    | some (r, c, w) =>
      let t := sectorMerge (b.rowTags ++ (b.colTags.drop (8 * bc)).take 8 ++ [prev])
      if isBirth t then (t, [], s)
      else if !o.mint then (o.site, [], s)
      else
        let kind := if (Fmt.f32.value w.toNat).isNan then (if (b.pois.getD r []).getD c false then 5 else 2) else 1
        let rec_ : Birth :=
          { kind := kind, lane := 8 * o.prog + r, fmt := 0x0A, flags := 8, a := b.rowTags.getD r 0, b := b.colTags.getD c 0
            c := prev, result := w, aux := c }
        let id := s.uid
        let (t, s) := mintNow s u o.pc 32 rec_
        (t, if (s.strand u).cq.any fun e => e.seq == id then [id] else [], s)

/-- Words and tags of a row-block written into a tile of width w at element i (R221): `prevs` the tags its blocks had. -/
def putBlock (s : State) (u : Nat) (o : MOp) (b : BlockOut) (i w : Nat) (prevs : List Tag) (tagged : Bool) : State × List Nat :=
  let s := s.modStrand u fun st => (List.range 8).foldl (fun st r => accPut st (i + r * w) (b.rows.getD r [])) st
  (List.range (w / 8)).foldl (fun x bc =>
    let prev := prevs.getD bc 0
    if tagged then
      let (t, due, s) := blockTag x.1 u o b bc prev
      (s.modStrand u fun st => blockTagPut st (i + 8 * bc) w t, x.2 ++ due)
    else (x.1.modStrand u fun st => blockTagPut st (i + 8 * bc) w prev, x.2)) (s, [])

/-- The tags of the blocks of a row-block at element i. -/
def prevTags (st : Strand) (i w : Nat) : List Tag := (List.range (w / 8)).map fun bc => accTag st (i + 8 * bc)

/-- A row-block is written and, once its records are performed, counted (R110, R221). -/
def endBlock (s : State) (u : Nat) (o : MOp) (due : List Nat) : State :=
  if due.isEmpty then countBlock s u o else modMop s u o.id fun o => { o with due := due }

/-- A product's row-block. `from_` is the strand whose tile the walk started from. -/
def endProduct (s : State) (u : Nat) (o : MOp) (b : BlockOut) (from_ : Strand) : State :=
  let (t, w, _) := o.geo
  let st := s.strand u
  let i := 8 * o.prog * w
  let fresh := o.kind = .mmd ∧ o.stage = 0
  let prevs := if fresh then [] else prevTags from_ (tileBase from_ t + i) w
  let s := if b.pois.any (·.any id) then engineConsumes s u o else s
  let (s, due) := putBlock s u o b (tileBase st t + i) w prevs o.lastPass
  endBlock s u o due

/-! ### Faults and parking -/

/-- An operation stops at a fault, which is deferred (R223); ACCST's falls due at a release too (R237). -/
def stopMop (s : State) (u : Nat) (o : MOp) (f : XFault) (va : Nat) : State :=
  dropMop (s.modStrand u fun st =>
    { st with mtFaults := st.mtFaults ++ [{ engFault f 7 va 0 o.id (o.kind == .accst) with words := o.words }] }) u o.id

/-- An operation parks under a page (R222). -/
def parkMop (s : State) (u : Nat) (o : MOp) (page : Nat) (wr : Bool) : State :=
  let st := s.strand u
  match parkPage s st.core (s.ctxOf st) page wr with
  | some s => modMop s u o.id fun o => { o with phase := .parked [page] }
  | none => s

/-- What follows a fetch. -/
def onFetch {α : Type} (s : State) (u : Nat) (o : MOp) (g : Got α) (wr : Bool) (k : α → State → State) : State :=
  match g with
  | .ok a s => k a s
  | .absent p s' => parkMop s' u o p wr
  | .bad f va s' => stopMop s' u o f va
  | .later s' => if s'.fabric.out.length = s.fabric.out.length then s else s'

/-! ### Products -/

/-- Words of a product's row-block (R89): rows of A, columns of B, start values. -/
def prodRows (lens : List Nat) (syn : Nat) (pass : Nat × Nat) (a b : List (List Elem)) (acc : List (List Word)) : List (List Word) :=
  let cut (which : Nat) (l : List Elem) : List (List Ex) := cutBy lens (l.map fun e => sliceOf syn which e.x)
  let ga := a.map (cut pass.1)
  let gb := b.map (cut pass.2)
  (ga.zip acc).map fun r => (gb.zip r.2).map fun c => walkAcc c.2 r.1 c.1

def mergeTags (es : List Elem) : Tag := sectorMerge (es.map (·.tag))

/-- The elements that poison reaches: through their row of A, their column of B, or their start value. -/
def reached (rows cols : List Bool) (start : List (List Bool)) : List (List Bool) :=
  rows.mapIdx fun r p => cols.mapIdx fun c q => p || q || (start.getD r []).getD c false

/-- Start values of the current row-block, from a strand's tile; MMD's dX starts at +0 (R218). -/
def startRows (st : Strand) (o : MOp) : List (List Word) × List (List Bool) :=
  let (t, w, _) := o.geo
  let i (r : Nat) : Nat := tileBase st t + (8 * o.prog + r) * w
  if o.kind = .mmd ∧ o.stage = 0 ∧ o.pass = 0 then (List.replicate 8 (List.replicate w 0), [])
  else
    ((List.range 8).map fun r => (upFrom (i r) w).map (accWord st), (List.range 8).map fun r => (upFrom (i r) w).map (accPoison st))

/-- The bits of an MMAS bitmap for the current row-block, one for each k-block; all clear for MMA.
DEDUCED: log entry 46, unsafe. -/
def skipBits (u : Nat) (o : MOp) (s : State) : Got (List Bool) :=
  let kb := o.k / 8
  if o.kind ≠ .mmas then .ok (List.replicate kb false) s
  else
    let b0 := (o.rowOff / 8 + o.prog) * kb
    (fetchRange .matrix u o.id (o.bitmap + b0 / 8) ((b0 + kb - 1) / 8 - b0 / 8 + 1) s).bind fun cs s =>
      let bits := ofBytes (cs.map (·.byte))
      .ok ((List.range kb).map fun j => bits / 2 ^ (b0 % 8 + j) % 2 == 1) s

/-- An element of a block that a bitmap marks (R217).
DEDUCED: log entry 46, unsafe. -/
def zeroElem : Elem := { x := .fin false 0 0 false, tag := 0, poison := false }

/-- The eight rows of A that the current row-block uses, with marked blocks as +0. -/
def rowsOfA (u : Nat) (o : MOp) (s : State) : Got (List (List Elem)) :=
  let d := o.desc 0
  let r0 := o.rowOff + 8 * o.prog
  if o.kind = .mma then fetchBlock d u o.id o.k r0 8 0 o.k s
  else
    (skipBits u o s).bind fun skips s =>
      let piece (x : Bool × Nat) (s : State) : Got (List (List Elem)) :=
        if x.1 then .ok (List.replicate 8 (List.replicate 8 zeroElem)) s else fetchBlock d u o.id o.k r0 8 (8 * x.2) 8 s
      (gotAll piece skips.zipIdx s).bind fun ps s => .ok ((List.range 8).map fun r => ps.flatMap fun p => p.getD r []) s

/-- Rows of the first factor, columns of the second, and the groups of the walk, for the current row-block of a product.
DEDUCED: log entry 46, unsafe. -/
def factors (u : Nat) (o : MOp) (s : State) : Got (List (List Elem) × List (List Elem) × List Nat) :=
  let d (j : Nat) : Desc := o.desc j
  match o.kind, o.stage with
  | .mmd, 0 =>
    (fetchBlock (d 0) u o.id o.n (o.rowOff + 8 * o.prog) 8 0 o.n s).bind fun a s =>
      (fetchBlock (d 1) u o.id o.n 0 o.k 0 o.n s).bind fun b s =>
        .ok (a, b, groupLens o.n [(d 0).cutOff true, (d 1).cutOff true]) s
  | .mmd, _ =>
    (fetchBlock (d 2) u o.id o.k 0 o.rows (8 * o.prog) 8 s).bind fun a s =>
      (fetchBlock (d 0) u o.id o.n 0 o.rows 0 o.n s).bind fun b s =>
        .ok (transposed 8 a, transposed o.n b, groupLens o.rows [(d 2).cutOff false, (d 0).cutOff false]) s
  | _, _ =>
    (rowsOfA u o s).bind fun a s =>
      (fetchBlock (d 1) u o.id o.cols 0 o.k o.colOff o.n s).bind fun b s =>
        .ok (a, transposed o.n b, groupLens o.k [(d 0).cutOff true, (d 1).cutOff false]) s

/-- The row-block from its factors and start values. -/
def prodBlock (o : MOp) (a b : List (List Elem)) (lens : List Nat) (start : List (List Word) × List (List Bool)) : BlockOut :=
  { rows := prodRows lens o.syn ((passesOf o.syn).getD o.pass (0, 0)) a b start.1
    rowTags := a.map mergeTags
    colTags := b.map mergeTags
    pois := reached (a.map (·.any (·.poison))) (b.map (·.any (·.poison))) start.2 }

/-- One row-block of MMA, MMAS or MMD. -/
def prodStep (s : State) (u : Nat) (o : MOp) : State :=
  onFetch s u o (factors u o s) false fun x s =>
    endProduct s u o (prodBlock o x.1 x.2.1 x.2.2 (startRows (s.strand u) o)) (s.strand u)

/-- The members of a crew operation still at work, as (strand, operation). -/
def crewOps (s : State) (o : MOp) : List (Nat × MOp) :=
  o.crew.filterMap fun m => ((s.strand m).mops.find? fun e => e.group == o.group).map (m, ·)

/-- One row-block of a crew's dW (R219): computed once by the first member at work, from member 0's tile, written to all. -/
def crewStep (s : State) (u : Nat) (o : MOp) : State :=
  let ms := crewOps s o
  let ready := ms.all fun m =>
    m.2.stage == 1 && m.2.pass == o.pass && m.2.prog == o.prog && m.2.due.isEmpty && m.2.phase = .run && !m.2.blocked (s.strand m.1)
  if (ms.map (·.1)).head? ≠ some u ∨ ¬ready then s
  else
    onFetch s u o (factors u o s) false fun x s =>
      let from_ := s.strand (if o.pass = 0 then o.crew.headD u else u)
      let b := prodBlock o x.1 x.2.1 x.2.2 (startRows from_ o)
      ms.foldl (fun s m => endProduct s m.1 m.2 b from_) s

/-! ### Products with A on the staging queue (R211) -/

/-- The entry under the current group: the one held, or the next of the queue. -/
def stagedEntry (s : State) (u : Nat) (o : MOp) (e : Nat) : Option (List TWord × State) :=
  if e % 64 ≠ 0 then some (o.qbuf, s)
  else
    let st := s.strand u
    match (portQueue st 2).bind fun j => (st.q.getD j []).head?.map fun x => (j, x) with
    | some (j, x) => some (x, popEntry s u j)
    | none => none

/-- The eight elements of A in a group. -/
def stagedElems (ent : List TWord) (e : Nat) : List Elem :=
  (List.range 8).map fun j =>
    let w := ent.getD ((e % 64 + j) / 2) {}
    { x := Fmt.bf16.value (fld w.val.toNat (16 * (j % 2)) 16), tag := w.tag, poison := false }

/-- The operation at the start of a row-block holds its start values. -/
def stagedInit (st : Strand) (o : MOp) : MOp :=
  if o.part.isEmpty then
    let (ws, ps) := startRows st o
    { o with part := ws, partTags := List.replicate (8 + o.n) 0, partPois := ps.flatMap id }
  else o

/-- One group of one row: the entry's elements by eight rows of B. -/
def stagedGroup (s : State) (u : Nat) (o : MOp) : Option (MOp × State) :=
  let o := stagedInit (s.strand u) o
  let e := (8 * o.prog + o.partRow) * o.k + 8 * o.partGroup
  match skipBits u o s with
  | .ok skips s =>
    match fetchBlock (o.desc 1) u o.id o.cols (8 * o.partGroup) 8 o.colOff o.n s with
    | .ok b s =>
      match stagedEntry s u o e with
      | none => none
      | some (ent, s) =>
        let a := if skips.getD o.partGroup false then List.replicate 8 zeroElem else stagedElems ent e
        let cols := transposed o.n b
        let row := ((o.part.getD o.partRow []).zip cols).map fun x => walkAcc x.1 [a.map (·.x)] [x.2.map (·.x)]
        let mergeAt (j : Nat) (old : Tag) : Tag :=
          if j < 8 then (if j = o.partRow then sectorMerge [old, mergeTags a] else old)
          else sectorMerge [old, mergeTags (cols.getD (j - 8) [])]
        let last := 8 * o.partGroup + 8 = o.k
        some ({ o with
          part := o.part.mapIdx fun r ws => if r = o.partRow then row else ws
          partTags := o.partTags.mapIdx mergeAt
          partPois := o.partPois.mapIdx fun i p => p || (cols.getD (i % o.n) []).any (·.poison)
          partRow := if last then o.partRow + 1 else o.partRow
          partGroup := if last then 0 else o.partGroup + 1
          qbuf := ent }, s)
    | _ => none
  | _ => none

/-- A staged row-block as far as entries and operands allow; it suspends at a group boundary (R211). -/
def stagedSteps (u id : Nat) : Nat → State → State
  | 0, s => s
  | fuel + 1, s =>
    match (s.strand u).mops.find? fun o => o.id == id with
    | none => s
    | some o =>
      match stagedGroup s u o with
      | some (o', s) =>
        let s := modMop s u id fun _ => o'
        if o'.partRow = 8 then
          let b : BlockOut :=
            { rows := o'.part, rowTags := o'.partTags.take 8, colTags := o'.partTags.drop 8
              pois := (List.range 8).map fun r => (o'.partPois.drop (r * o'.n)).take o'.n }
          endProduct s u o' b (s.strand u)
        else stagedSteps u id fuel s
      | none =>
        onFetch s u o ((skipBits u o s).bind fun _ s => fetchBlock (o.desc 1) u o.id o.cols (8 * o.partGroup) 8 o.colOff o.n s)
          false fun _ _ => s

/-! ### Moving tiles -/

/-- One row-block of ACCZ (R224). -/
def acczStep (s : State) (u : Nat) (o : MOp) : State :=
  let st := s.strand u
  let i := tileBase st o.t1 + 8 * o.prog * o.n
  let (s, _) := putBlock s u { o with en := false } { rows := List.replicate 8 (List.replicate o.n 0) } i o.n [] true
  let rows := (upFrom (8 * o.prog) 8).map (sideIdx o.t1)
  let s := if !o.side then s
    else s.modStrand u fun st =>
      { st with
        rowmax := rows.foldl (fun m r => sput 0 m r 0xFF800000) st.rowmax
        rowsum := rows.foldl (fun m r => sput 0 m r 0) st.rowsum }
  countBlock s u o

/-- One row-block of ACCLD (R225): exact values, the merged tags of the sectors read. -/
def accldStep (s : State) (u : Nat) (o : MOp) : State :=
  onFetch s u o (fetchBlock (o.desc 0) u o.id o.n (8 * o.prog) 8 0 o.n s) false fun es s =>
    let i := tileBase (s.strand u) o.t1 + 8 * o.prog * o.n
    let word (e : Elem) : Word := BitVec.ofNat 32 (roundTo .f32 {} e.x).1
    let tags := (List.range (o.n / 8)).map fun bc =>
      if o.en then sectorMerge (es.map fun r => mergeTags ((r.drop (8 * bc)).take 8)) else 0
    let s := if es.any (·.any (·.poison)) then engineConsumes s u o else s
    let (s, _) := putBlock s u o { rows := es.map (·.map word) } i o.n tags false
    countBlock s u o

/-- The POISON birth of a block that ACCST reads poisoned (R346), and the tag its sectors take. -/
def storePoisonTag (s : State) (u : Nat) (o : MOp) (st : Strand) (bc : Nat) : Tag × State :=
  let base := tileBase st o.t1
  let els := (List.range 8).flatMap fun r => (upFrom (8 * bc) 8).map fun c => (r, c, base + (8 * o.prog + r) * o.n + c)
  let t := accTag st (base + 8 * o.prog * o.n + 8 * bc)
  match els.find? fun e => accPoison st e.2.2 with
  | none => (if o.en then t else 0, s)
  | some (r, c, _) =>
    if !o.en then (0, s)
    else if !o.mint then (t, s)
    else
      let (b, s) := mintNow s u o.pc 32 { kind := 5, lane := 8 * o.prog + r, fmt := 0x0A, flags := 8, c := t, result := poisonWord, aux := c }
      (sectorMerge [t, b], s)

/-- One element's destination: a location, or an address at a peer. -/
def storeAtElem (u : Nat) (va z : Nat) (s : State) : Got (Nat ⊕ Nat × Nat) :=
  match rangeOf s ((s.strand u).who s none) .store va z with
  | (.absent p, s) => .absent p s
  | (.bad f a, s) => .bad f a s
  | (.ok ps, s) => .ok (.inl (ps.headD (0, 0, 0)).1) s
  | (.peer rank pa _ _, s) => .ok (.inr (rank, pa)) s

/-- One row-block of ACCST to memory (R225). -/
def accstStep (s : State) (u : Nat) (o : MOp) : State :=
  let d := o.desc 0
  let z := elemSize d.fmt
  let cells := (upFrom (8 * o.prog) 8).flatMap fun r => (List.range o.n).map fun c => (r, c)
  if cells.any fun x => ownStoreDue s u o.id (d.at x.1 x.2) z then s
  else
    onFetch s u o (gotAll (fun x s => storeAtElem u (d.at x.1 x.2) z s) cells s) true fun ts s =>
      let st := s.strand u
      let base := tileBase st o.t1
      let fmt := (fmtOf d.fmt).getD .f32
      let bytes (x : Nat × Nat) : List Byte :=
        toBytes z (roundTo fmt { rm := o.rm, f8sat := o.f8sat, sat := o.sat } (Fmt.f32.value (accWord st (base + x.1 * o.n + x.2)).toNat)).1
      let (tags, s') := (List.range (o.n / 8)).foldl (fun a bc =>
        let t := storePoisonTag a.2 u o st bc; (a.1 ++ [t.1], t.2)) (([] : List Tag), s)
      let ps : List Piece := (cells.zip ts).filterMap fun y => match y.2 with
        | .inl l => some (l, bytes y.1, tags.getD (y.1.2 / 8) 0)
        | .inr _ => none
      if !(heldLines s ps).isEmpty then s.snoop (heldLines s ps)
      else
        let s := perform s' ps
        let s := (cells.zip ts).foldl (fun s y => match y.2 with
          | .inl _ => s
          | .inr (rank, pa) =>
            let st := s.strand u
            let l := s.launch st.launch
            let (seq, s) := s.newId
            (s.sendPeer 2 0 l.msg.gang rank l.msg.grank pa (respTag s st seq) 0 (bytes y.1)).modStrand u fun st =>
              { st with unacked := st.unacked ++ [{ seq := seq, fault := ⟨0, 0, 0, d.at y.1.1 y.1.2, seq, 0x25⟩, record := [] }] }) s
        let s := if cells.any fun x => accPoison st (base + x.1 * o.n + x.2) then engineConsumes s u o else s
        countBlock s u o

/-- Entries of a row in ACCST.q. -/
def MOp.perRow (o : MOp) : Nat := (o.n + 31) / 32

/-- The entry with running number e (R225): 32 elements of a row, +0 with tag NONE past the width. -/
def rowEntry (st : Strand) (o : MOp) (e : Nat) : List TWord :=
  let row := e / o.perRow
  let c0 := e % o.perRow * 32
  (upFrom c0 32).map fun c =>
    let i := tileBase st o.t1 + row * o.n + c
    if c < o.n then { val := accWord st i, tag := if o.en then accTag st i else 0 } else {}

/-- ACCST.q pushes an entry where the queue has room; the last one of a row-block counts it. -/
def accstqStep (s : State) (u : Nat) (o : MOp) : State :=
  let st := s.strand u
  match (portQueue st 3).filter fun j => (st.q.getD j []).length < 4 with
  | none => s
  | some j =>
    let row := o.qpos / o.perRow
    let cells := upFrom (tileBase st o.t1 + row * o.n) o.n
    let s := if cells.any (accPoison st) then engineConsumes s u o else s
    let s := modMop (pushEntry s u j (rowEntry st o o.qpos)) u o.id fun o => { o with qpos := o.qpos + 1 }
    if o.qpos + 1 = 8 * (o.prog + 1) * o.perRow then countBlock s u o else s

/-! ### SMX (R227) -/

/-- One row: new S, O, ROWMAX and ROWSUM from S, O, ROWMAX and ROWSUM.
DEDUCED: log entry 46, unsafe. -/
def smxRow (srow orow : List Word) (mo rs : Word) : List Word × List Word × Word × Word :=
  let val (w : Word) : Ex := Fmt.f32.value w.toNat
  let rn (x : Ex) : Word := BitVec.ofNat 32 (roundTo .f32 {} x).1
  let anyNan := (val mo).isNan || srow.any fun w => (val w).isNan
  let mn := if anyNan then poisonWord else srow.foldl (fun m w => if (val m).lt (val w) then w else m) mo
  let ninf := val mn == .inf true
  let diff (w : Word) : Ex := (val w).add false (val mn).neg
  let alpha := if ninf then 0x3F800000 else rn (val (rn (diff mo))).exp2
  let p (w : Word) : Ex := if ninf then .fin false 0 0 false else Fmt.bf16.value (bf16Of 1 (val (rn (diff w))).exp2)
  let ps := srow.map p
  let total := ps.foldl (Ex.add false) (.fin false 0 0 false)
  (ps.map rn, orow.map fun w => rn ((val w).mul (val alpha)), mn, rn ((val (rn ((val rs).mul (val alpha)))).add false total))

/-- One row-block of SMX: S is the A operand of the blocks it feeds. -/
def smxStep (s : State) (u : Nat) (o : MOp) : State :=
  let st := s.strand u
  let rows := upFrom (8 * o.prog) 8
  let sIdx (r : Nat) : List Nat := upFrom (tileBase st o.t2 + r * o.n) o.n
  let oIdx (r : Nat) : List Nat := upFrom (tileBase st o.t1 + r * o.k) o.k
  let outs := rows.map fun r =>
    smxRow ((sIdx r).map (accWord st)) ((oIdx r).map (accWord st)) (sget 0 st.rowmax (sideIdx o.t1 r)) (sget 0 st.rowsum (sideIdx o.t1 r))
  let sTags := rows.map fun r => sectorMerge ((sIdx r).map (accTag st))
  let pRow (r : Nat) : Bool := (sIdx r).any (accPoison st)
  let pois (r : Nat) (is : List Nat) : List Bool := is.map fun i => pRow r || accPoison st i
  let side (m : Sparse Word) (f : List Word × List Word × Word × Word → Word) : Sparse Word :=
    (rows.zip outs).foldl (fun m x => sput 0 m (sideIdx o.t1 x.1) (f x.2)) m
  let s := s.modStrand u fun st => { st with rowmax := side st.rowmax (·.2.2.1), rowsum := side st.rowsum (·.2.2.2) }
  let s := if rows.any fun r => pRow r || (oIdx r).any (accPoison st) then engineConsumes s u o else s
  let oi := tileBase st o.t1 + 8 * o.prog * o.k
  let si := tileBase st o.t2 + 8 * o.prog * o.n
  let (s, d1) := putBlock s u o
    { rows := outs.map (·.2.1), rowTags := sTags, pois := rows.map fun r => pois r (oIdx r) } oi o.k (prevTags st oi o.k) true
  let (s, d2) := putBlock s u o
    { rows := outs.map (·.1), rowTags := sTags, pois := rows.map fun r => pois r (sIdx r) } si o.n (prevTags st si o.n) true
  endBlock s u o (d1 ++ d2)

/-! ### Steps of the engine -/

/-- A running operation does its next row-block; the state as it was where it cannot yet. -/
def mopStep (s : State) (u : Nat) (o : MOp) : State :=
  let st := s.strand u
  if o.due.any fun q => st.cq.any fun e => e.seq == q then s
  else if !o.due.isEmpty then countBlock s u o
  else if o.blocked st then s
  else
    match o.kind with
    | .accz => acczStep s u o
    | .accld => accldStep s u o
    | .accst => if o.q then accstqStep s u o else accstStep s u o
    | .smx => smxStep s u o
    | _ =>
      if o.staged then stagedSteps u o.id (o.k + 1) s
      else if o.kind = .mmd && o.stage = 1 && !o.crew.isEmpty then crewStep s u o
      else prodStep s u o

/-- A row-block fails its residue check (R351): it is built again, or, the limit reached, written as canonical NaN. -/
def blockFails (s : State) (u : Nat) (o : MOp) : State :=
  let s := s.modStrand u fun st => st.chkiEvent 4
  if o.fails + 1 < o.limit ∨ o.kind = .accst then modMop s u o.id fun o => { o with fails := o.fails + 1 }
  else
    let (t, w, _) := o.geo
    let st := s.strand u
    let i := tileBase st t + 8 * o.prog * w
    let b : BlockOut := { rows := List.replicate 8 (List.replicate w poisonWord), pois := List.replicate 8 (List.replicate w true) }
    let s := engineConsumes s u o
    let (s, due) := putBlock s u o b i w (prevTags st i w) true
    endBlock s u o due

/-! ### Issue (R391) -/

/-- Steps 2 and 3: a deferred fault is reported, a pending consumption unwinds. -/
def matrixPre (cx : Cx) (s : State) (k : State → Eff) : Eff :=
  let st := s.strand cx.u
  match oldestFault st.mtFaults with
  | some f =>
    .trap (engExc f (byteOf cx.site.pc) (byteOf cx.next))
      (s.modStrand cx.u fun st => { st with mtFaults := st.mtFaults.filter (· ≠ f) })
  | none =>
    if !st.poisonDue then k s
    else
      let s := s.modStrand cx.u fun st => { st with poisonDue := false }
      match unwind s cx.u 0x40 with
      | some s => .gone s
      | none => k s

/-- ILL_FIELD of a tile check (R33): the first bad tile in the order of its field. -/
def tilesOk (st : Strand) (ts : List (Nat × Nat × Nat × Nat)) (s : State) (k : State → Eff) : Eff :=
  match ts.find? fun t => tileBad st t.1 t.2.1 t.2.2.1 with
  | some t => .trap { cause := 0x02, sub := t.2.2.2 } s
  | none => k s

/-- Step 5: pending units are waited for, and a unit's error traps (R234, R235). -/
def unitsReady (s : State) (cx : Cx) (us : List Nat) (k : State → Eff) : Eff :=
  let units := ((sfind s.skeins (s.strand cx.u).skein).map (·.units)).getD []
  if us.any fun n => (sget {} units n).pending != 0 then .wait .unit s
  else
    match us.findSome? fun n => (sget {} units n).err with
    | some f => .trap (engExc f (byteOf cx.site.pc) (byteOf cx.next)) s
    | none => k s

/-- The engine has room for one more operation of the strand (R333). -/
def engineRoom (s : State) (u : Nat) (k : State → Eff) : Eff := if 4 ≤ (s.strand u).mops.length then .wait .engine s else k s

/-- What every operation takes from its issue. -/
def newOp (i : Instr) (cx : Cx) (st : Strand) (kind : MKind) : MOp :=
  { kind := kind, words := (List.range 3).map fun j => encode i / 2 ^ (32 * j) % 2 ^ 32, pc := cx.site.pc, site := cx.here
    en := st.tagEn, mint := st.mintOn, limit := if st.limit = 0 then 8 else st.limit }

/-- S of the strand's skein. -/
def winOf (s : State) (st : Strand) : Nat := ((sfind s.skeins st.skein).map (·.window)).getD 0

/-- Descriptors checked, the units they touch ready, a place in the engine. -/
def descsReady (s : State) (cx : Cx) (syn dest : Nat) (as : List DescArg) (bitmap : Option Opd) (own : Option Nat)
    (k : State → Eff) : Eff :=
  let st := s.strand cx.u
  match descsFault st syn dest (winOf s st) as with
  | some x => .trap { x with uniform := true } s
  | none =>
    match bitmap.filter fun b => 2 ^ 56 ≤ b.val with
    | some b => addrTrap 0x23 b.val 0 none b.tag 0 true s
    | none =>
      match own with
      | some p => .trap { cause := 0x02, sub := p } s
      | none =>
        let us := (as.flatMap fun a => unitsTouched (descOf (readDesc st a.g).1) a.rows a.cols).dedup
        unitsReady s cx (sortBy (fun a b => decide (a ≤ b)) us) fun s => engineRoom s cx.u k

/-! ### Crews (R219, R220) -/

/-- Rows and columns of a crew, and this member's row and column index. -/
def crewShape (x : BitVec 64) : Nat × Nat × Nat × Nat :=
  let c := cfld x 5 1 + 1
  (cfld x 3 2, c, cfld x 6 3 / c, cfld x 6 3 % c)

/-- A crew member's strand, where it is a live strand of the same launch. -/
def memberStrand (s : State) (st : Strand) (m : Nat) : Option Nat :=
  (s.strands.find? fun x =>
    x.2.core == st.core / 8 * 8 + m / 64 && x.2.part == m % 64 / 16 && x.2.slot == m % 16 && x.2.launch == st.launch &&
      x.2.phase = .resident && x.2.threads.any (·.live)).map (·.1)

/-- Two members' instructions agree (R220). -/
def Latch.agrees (a b : Latch) : Bool :=
  a.op.words == b.op.words && a.op.descs == b.op.descs && a.op.bitmap == b.op.bitmap && cset a.crew 6 3 0 == cset b.crew 6 3 0

/-- A verdict for members held at the latch, whose threads may issue again.
DEDUCED: log entry 47, unsafe. -/
def judge (s : State) (ms : List Nat) (v : Option Nat) : State :=
  ms.foldl (fun s m => s.modStrand m fun st =>
    match st.latch with
    | some l =>
      if l.verdict.isSome then st
      else
        { st with
          latch := some { l with verdict := some v }
          threads := st.threads.map fun t => if t.wait = .latch then { t with wait := .ready } else t }
    | none => st) s

/-- What the latch makes of the crew of a held member: nothing yet, broken, or the joint effect. -/
def crewMeet (s : State) (u : Nat) : State :=
  let st := s.strand u
  match st.latch.filter fun l => l.verdict.isNone with
  | none => s
  | some l =>
    let ids := (List.range (cfld l.crew 0 3)).map fun j => memberStrand s st (crewMember l.crew j)
    let ms := ids.filterMap id
    let held := ms.filterMap fun m => (s.strand m).latch.filter fun x => x.verdict.isNone
    if ids.any (·.isNone) ∨ ms.any (fun m => (s.strand m).trap.any fun t => l.since ≤ t.since) then judge s ms (some 0)
    else if held.any fun x => x.op.pc != l.op.pc then judge s ms (some 1)
    else if held.length < ms.length then s
    else if held.any fun x => !x.agrees l then judge s ms (some 1)
    else if ms.any fun m => 4 ≤ (s.strand m).mops.length then s
    else
      let (g, s) := s.newId
      let s := (ms.zip held).foldl (fun s x => startMop s x.1 { x.2.op with group := g, crew := ms }) s
      judge s ms none

/-- A crew instruction waits at the latch for its verdict. -/
def holdLatch (s : State) (u : Nat) (o : MOp) : Eff :=
  .wait .latch (s.modStrand u fun st =>
    match st.latch with
    | some _ => st
    | none => { st with latch := some { op := o, crew := st.ctl.crew, since := s.uid } })

/-- The verdict that a held instruction finds: it has taken effect, or CREW_BROKEN; without one, `k` follows.
DEDUCED: log entry 47, unsafe. -/
def latchVerdict (cx : Cx) (s : State) (k : State → Eff) : Eff :=
  match (s.strand cx.u).latch.bind (·.verdict) with
  | some v =>
    let s := s.modStrand cx.u fun st => { st with latch := none }
    match v with
    | none => .ok s
    | some sub => .trap { cause := 0x33, sub := sub } s
  | none => k s

/-! ### MMA, MMAS, MMD -/

/-- The operation of a product, with its place in the crew. -/
def prodOp (i : Instr) (cx : Cx) (st : Strand) (kind : MKind) (o : MmaOp) : MOp :=
  let m := 8 * (o.mb + 1)
  let n := 8 * (o.nb + 1)
  let (r, c, a, b) := if o.crew then crewShape st.ctl.crew else (1, 1, 0, 0)
  { newOp i cx st kind with
    t1 := o.d, t2 := o.t2, m := m, n := n, k := 8 * (o.kb + 1), rows := r * m, cols := c * n, rowOff := a * m, colOff := b * n
    syn := o.syn
    descs := ([o.a, o.b] ++ if kind = .mmd then [o.c] else []).map fun g => (readDesc st g).1
    bitmap := if kind = .mmas then (st.readS o.c 2).val else 0 }

/-- MMA, MMAS and MMD in the order of R391. -/
def product (i : Instr) (kind : MKind) (o : MmaOp) (cx : Cx) (s : State) : Eff :=
  latchVerdict cx s fun s => matrixPre cx s fun s =>
    let st := s.strand cx.u
    let p := prodOp i cx st kind o
    let tiles := if kind = .mmd then [(p.t1, p.m, p.k, 10), (p.t2, p.k, p.n, 26)] else [(p.t1, p.m, p.n, 10)]
    let args : List DescArg :=
      if kind = .mmd then
        [⟨0, o.a, .prod, p.rows, p.n⟩, ⟨1, o.b, .prod, p.k, p.n⟩, ⟨2, o.c, .prod, p.rows, p.k⟩]
      else [⟨0, o.a, .prodA, p.rows, p.k⟩, ⟨1, o.b, .prod, p.k, p.cols⟩]
    let gs := if kind = .mmd then [o.a, o.b, o.c] else [o.a, o.b]
    let bm := if kind = .mmas then some (st.readS o.c 2) else none
    let poison := gs.any (fun g => (readDesc st g).2) || bm.any (·.poison)
    let clash := kind = .mmd ∧ overlaps [(tileBase st p.t1, tileBase st p.t1 + p.m * p.k)] [(tileBase st p.t2, tileBase st p.t2 + p.k * p.n)]
    tilesOk st tiles s fun s =>
      if o.crew ∧ (cfld st.ctl.crew 0 3 = 0 ∨ (kind = .mmd ∧ cfld st.ctl.crew 5 1 ≠ 0)) then .trap { cause := 0x02, sub := 86 } s
      else
        descsReady s cx p.syn p.t1 args bm (if clash then some 26 else none) fun s =>
          if o.crew then holdLatch s cx.u p else .done (startMop s cx.u p) poison

def execMma (o : MmaOp) (s : State) : Host.Outcome State Fault Refusal := issue (.mma o) s (product (.mma o) .mma o)
def execMmas (o : MmaOp) (s : State) : Host.Outcome State Fault Refusal := issue (.mmas o) s (product (.mmas o) .mmas o)
def execMmd (o : MmaOp) (s : State) : Host.Outcome State Fault Refusal := issue (.mmd o) s (product (.mmd o) .mmd o)

/-! ### ACCZ, ACCLD, ACCST, SMX -/

def execAccz (o : AcczOp) (s : State) : Host.Outcome State Fault Refusal :=
  issue (.accz o) s fun cx s => matrixPre cx s fun s =>
    let st := s.strand cx.u
    let p : MOp := { newOp (.accz o) cx st .accz with t1 := o.t, m := 8 * (o.mb + 1), n := 8 * (o.nb + 1), side := o.side }
    tilesOk st [(p.t1, p.m, p.n, o.h.form.at 20 10)] s fun s => engineRoom s cx.u fun s => .ok (startMop s cx.u p)

def execAccld (o : AccldOp) (s : State) : Host.Outcome State Fault Refusal :=
  issue (.accld o) s fun cx s => matrixPre cx s fun s =>
    let st := s.strand cx.u
    let (d, poison) := readDesc st o.a
    let p : MOp := { newOp (.accld o) cx st .accld with t1 := o.d, m := 8 * (o.mb + 1), n := 8 * (o.nb + 1), descs := [d] }
    tilesOk st [(p.t1, p.m, p.n, 10)] s fun s =>
      descsReady s cx 0 4 [⟨0, o.a, .load, p.m, p.n⟩] none none fun s => .done (startMop s cx.u p) poison

/-- ACCST; SR through FCTL has no rounding here (R225).
DEDUCED: log entry 53, unsafe. -/
def execAccst (o : AccstOp) (s : State) : Host.Outcome State Fault Refusal :=
  issue (.accst o) s fun cx s => matrixPre cx s fun s =>
    let st := s.strand cx.u
    let (d, poison) := if o.q then ([], false) else readDesc st o.d
    let p : MOp := { newOp (.accst o) cx st .accst with
      t1 := o.a, m := 8 * (o.mb + 1), n := 8 * (o.nb + 1), q := o.q, sat := o.sat, rm := st.rmEff o.rm, f8sat := st.f8sat
      descs := if o.q then [] else [d] }
    tilesOk st [(p.t1, p.m, p.n, 18)] s fun s =>
      if o.q then engineRoom s cx.u fun s => .ok (startMop s cx.u p)
      else
        descsReady s cx 0 4 [⟨0, o.d, .store, p.m, p.n⟩] none (if p.rm = 6 then some 59 else none) fun s =>
          .done (startMop s cx.u p) poison

def execSmx (o : SmxOp) (s : State) : Host.Outcome State Fault Refusal :=
  issue (.smx o) s fun cx s => matrixPre cx s fun s =>
    let st := s.strand cx.u
    let p : MOp := { newOp (.smx o) cx st .smx with
      t1 := o.d, t2 := o.a, m := 8 * (o.mb + 1), n := 8 * (o.nb + 1), k := 8 * (o.db + 1) }
    let clash := overlaps [(tileBase st p.t1, tileBase st p.t1 + p.m * p.k)] [(tileBase st p.t2, tileBase st p.t2 + p.m * p.n)]
    tilesOk st [(p.t1, p.m, p.k, 10), (p.t2, p.m, p.n, 18)] s fun s =>
      if clash then .trap { cause := 0x02, sub := 10 } s else engineRoom s cx.u fun s => .ok (startMop s cx.u p)

/-! ### ACCRD (R226) -/

/-- Earlier operations still write some of these elements. -/
def stillWritten (st : Strand) (xs : List (Nat × Nat)) : Bool := st.mops.any fun o => overlaps (o.todo st).1 xs

/-- What a lane reads: word, tag, poison. -/
def accrdLane (st : Strand) (o : AccrdOp) (row col lane : Nat) : Word × Tag × Bool :=
  let n := 8 * (o.nb + 1)
  let i := tileBase st o.a + row * n + col + lane
  if o.sel = 0 then
    if n ≤ col + lane ∨ 128 ≤ row ∨ st.accn ≤ i then (0, 0, false)
    else (accWord st i, if st.tagEn then accTag st i else 0, accPoison st i)
  else if 128 ≤ row + lane then (0, 0, false)
  else (sget 0 (if o.sel = 1 then st.rowmax else st.rowsum) (sideIdx o.a (row + lane)), 0, false)

def execAccrd (o : AccrdOp) (s : State) : Host.Outcome State Fault Refusal :=
  issue (.accrd o) s fun cx s => matrixPre cx s fun s =>
    let st := s.strand cx.u
    if st.accn = 0 then .trap { cause := 0x02, sub := 18 } s
    else
      let b := st.readS o.b 1
      let row := b.w.toNat % 256
      let col := b.w.toNat / 2 ^ 16 % 512
      let n := 8 * (o.nb + 1)
      let i := tileBase st o.a + row * n
      let range := if o.sel = 0 then (i + min col n, i + min (col + 32) n) else sideRange o.a row (min 128 (row + 32))
      if stillWritten st [range] then .wait .engine s
      else
        let rs := cx.act.map fun t =>
          let x := accrdLane st o row col (st.thread t).lane
          (t, x)
        let (s, ws) := rs.foldl (fun a r =>
          let (w, tag, bad) := r.2
          if bad then
            let t := resultTag a.1 cx [r.1] false (st.thread r.1).lane [tag] [tag] (some 5) 0x0A w
            (t.2, a.2 ++ [(r.1, [w], t.1)])
          else (a.1, a.2 ++ [(r.1, [w], tag)])) (s, [])
        .done (writeD s cx o.d ws) (b.poison || rs.any (·.2.2.2))

/-! ### MSYNC (R228) -/

/-- A pending consumption unwinds the strand before its MSYNC takes effect (R347). -/
def poisonPre (cx : Cx) (s : State) (k : State → Eff) : Eff :=
  if !(s.strand cx.u).poisonDue then k s
  else
    let s := s.modStrand cx.u fun st => { st with poisonDue := false }
    match unwind s cx.u 0x40 with
    | some s => .gone s
    | none => k s

/-- MSYNC: every operation of the strand completed, then the deferred faults (R223, R225). -/
def execMsyncAll (o : MsyncOp) (s : State) : Host.Outcome State Fault Refusal :=
  issue (.msyncAll o) s fun cx s =>
    if (s.strand cx.u).mops.isEmpty then matrixPre cx s .ok else poisonPre cx s fun s => .wait .engine s

/-- MSYNC.prog's condition: RPROG counts in the last pass of the operation that set it; or nothing in progress writes T.
DEDUCED: log entry 50, unsafe. -/
def progReached (st : Strand) (t n : Nat) : Bool :=
  let setters := st.mops.filter fun o => o.counts t
  let writers := st.mops.filter fun o => o.counts t || (o.kind == .smx && o.t2 == t)
  writers.isEmpty || (n ≤ st.rprog.getD t 0 && setters.getLast?.all fun o => o.lastPass)

def execMsyncProg (o : MsyncOp) (s : State) : Host.Outcome State Fault Refusal :=
  issue (.msyncProg o) s fun cx s => poisonPre cx s fun s =>
    let st := s.strand cx.u
    if st.accn = 0 then .trap { cause := 0x02, sub := o.h.form.at 15 10 } s
    else if progReached st o.t o.n then .ok s
    else .wait .engine s

/-- MSYNC.ws: every WSL of the strand written or failed, then an error of destinations 1 and 2. -/
def execMsyncWs (o : MsyncOp) (s : State) : Host.Outcome State Fault Refusal :=
  issue (.msyncWs o) s fun cx s => poisonPre cx s fun s =>
    let st := s.strand cx.u
    if (s.core st.core).wsu.any fun c => c.1.strand == cx.u then .wait .engine s
    else
      match oldestFault st.wsFaults with
      | some f =>
        .trap (engExc f (byteOf cx.site.pc) (byteOf cx.next))
          (s.modStrand cx.u fun st => { st with wsFaults := st.wsFaults.filter (· ≠ f) })
      | none => .ok s

end Sys2Proof.Machine
end

