-- ==== Sys2Proof/Machine/Weight.lean ====
section
/-!
DEFINITION. The weight stream: WSL (R229), and a block fetched, checked, decoded and delivered (R230 to R236, R269, R348).
-/

namespace Sys2Proof.Machine

/-! ### Fetching -/

/-- A fetch for a block: cells, a page not present, a fault with its cause and sub-cause, or nothing yet. -/
inductive WsGot
  | ok (cs : List Cell) (s : State) | absent (page : Nat) (s : State) | fail (cause sub : Nat) (s : State) | later (s : State)

/-- n bytes fetched in ascending address; the first fault or poison ends it (R235, R348).
DEDUCED: log entry 60, unsafe. -/
def wsFetch (u id : Nat) : List (Nat × Nat) → State → WsGot
  | [], s => .ok [] s
  | (va, n) :: rest, s =>
    match fetchCells .wsu u id va n s with
    | .absent p s => .absent p s
    | .bad f _ s => let t := f.trap 3; .fail t.1 t.2 s
    | .later s => .later s
    | .ok cs s =>
      if cs.any (·.poison) then .fail 0x50 1 s
      else
        match wsFetch u id rest s with
        | .ok ds s => .ok (cs ++ ds) s
        | r => r

def wsRange (u id va n : Nat) (s : State) : WsGot := wsFetch u id (rangeCuts va n) s

/-- SEAL of the pages that a range touches. -/
def sealsOf (s : State) (u va n : Nat) : List Bool :=
  let w := (s.strand u).who s none
  (rangeCuts va n).map fun p => ((leafOf s w p.1).map fun l => leafBit l 7).getD false

/-- The tag of a block's first sector, where it can be read (R106). -/
def firstTag (s : State) (u id va : Nat) : Tag :=
  match fetchCells .wsu u id va 1 s with
  | .ok cs _ => (cs.headD default).tag
  | _ => 0

/-! ### Checking and decoding -/

/-- Cause, sub-cause, expected and computed value of a failure (R235). -/
structure WsFail where
  cause : Nat
  sub : Nat
  expected : Nat := 0
  computed : Nat := 0
  deriving DecidableEq, Repr, Inhabited

def natsOf (cs : List Cell) : List Nat := cs.map fun c => c.byte.toNat

/-- A little-endian number. -/
def leNat (bs : List Nat) : Nat := bs.foldr (fun b n => b + 256 * n) 0

/-- The header checks in order: MAGIC, VERSION, FLAGS, DLEN (R235).
DEDUCED: log entry 44, unsafe. -/
def headerFail (h : List Nat) : Option WsFail :=
  let magic := leNat (h.take 2)
  let dlen := leNat ((h.drop 4).take 2)
  let flags := h.getD 3 0
  if magic ≠ 0x5357 then some { cause := 0x51, sub := 0, expected := 0x5357, computed := magic }
  else if h.getD 2 0 ≠ 1 then some { cause := 0x51, sub := 1, expected := 1, computed := h.getD 2 0 }
  else if 8 ≤ flags then some { cause := 0x51, sub := 2, computed := flags }
  else if dlen = 0 ∨ 4096 < dlen then some { cause := 0x51, sub := 3, expected := 4096, computed := dlen }
  else none

def hdrSealed (h : List Nat) : Bool := h.getD 3 0 % 2 == 1
def hdrPacked (h : List Nat) : Bool := h.getD 3 0 / 2 % 2 == 1
def hdrDlen (h : List Nat) : Nat := leNat ((h.drop 4).take 2)
def hdrPlen (h : List Nat) : Nat := leNat ((h.drop 6).take 2)

/-- The sixteen code lengths. -/
def codeLens (h : List Nat) : List Nat := ((h.drop 8).take 8).flatMap fun b => [b % 16, b / 16]

/-- Bytes of the block after its header of 20 (R231). -/
def bodyLen (h : List Nat) : Nat := if hdrSealed h then 12 + 4 * ((hdrPlen h + 3) / 4) + 16 else hdrPlen h

/-- The key of a slot of a world (R370). -/
def keyOf (s : State) (world slot : Nat) : Option (BitVec 256) := sget none s.sec.keys (16 * world + slot)

/-- The code lengths' fault (R233, R235). -/
def lensFail (h : List Nat) : Option WsFail :=
  let bad (i : Nat) : Option WsFail := some { cause := 0x51, sub := 5, computed := i }
  if hdrPacked h then
    let sy := sortedSymbols (codeLens h)
    if sy.isEmpty then bad 8
    else match overfull sy 0 with
      | some j => bad (8 + j / 2)
      | none => none
  else
    match ((h.drop 8).take 8).findIdx? (· != 0) with
    | some i => bad (8 + i)
    | none => none

/-- The data of a payload (R233), checked against Adler-32.
DEDUCED: log entry 44, unsafe. -/
def payloadData (h payload : List Nat) : Except WsFail (List Nat) :=
  match lensFail h with
  | some f => .error f
  | none =>
    let data : Except WsFail (List Nat) :=
      if hdrPacked h then
        match decodePayload (codeLens h) (hdrDlen h) payload with
        | .ok d => .ok d
        | .error p => .error { cause := 0x51, sub := 6, expected := hdrPlen h, computed := p }
      else if hdrPlen h ≠ hdrDlen h then .error { cause := 0x51, sub := 6, expected := hdrDlen h, computed := hdrPlen h }
      else .ok payload
    match data with
    | .error f => .error f
    | .ok d =>
      let want := leNat ((h.drop 16).take 4)
      if adler32 d = want then .ok d else .error { cause := 0x50, sub := 0, expected := want, computed := adler32 d }

/-- The block's data from its header, body and pages' SEAL bits, in the order of R235 from step 3 on. -/
def blockData (s : State) (world key dst : Nat) (h body : List Nat) (seals : List Bool) : Except WsFail (List Nat) :=
  let page := seals.headD false
  if page != hdrSealed h || seals.any (· != page) then
    .error { cause := 0x51, sub := 4, expected := bit page, computed := bit (hdrSealed h) }
  else if !hdrSealed h then payloadData h body
  else if dst ≠ 0 then .error { cause := 0x52, sub := 2, expected := dst }
  else
    match keyOf s world key with
    | none => .error { cause := 0x52, sub := 1, expected := key }
    | some k =>
      let n := hdrPlen h
      let want := (body.drop (12 + 4 * ((n + 3) / 4))).take 16
      let (plain, got) := gcmOpen (toBigEndian 32 k.toNat) (body.take 12) (h.take 20) ((body.drop 12).take n)
      if want = got then payloadData h plain
      else .error { cause := 0x52, sub := 0, expected := leNat (want.take 4), computed := leNat (got.take 4) }

/-! ### A block from fetch to data -/

/-- What an attempt at a command gives: data with scale bytes and tag, a failure with the DLEN fetched, or no end yet. -/
inductive WsBlock
  | data (bs scales : List Nat) (tag : Tag) (s : State)
  | failed (f : WsFail) (dlen : Nat) (s : State)
  | absent (page : Nat) (s : State)
  | later (s : State)

/-- The scale bytes of a command that has a scale plane (R234). -/
def wsScales (c : WslCmd) (dlen : Nat) (s : State) : WsGot :=
  match c.scale with
  | none => .ok [] s
  | some va => wsRange c.strand c.seq va ((dlen + 127) / 128) s

/-- A block and its scale bytes fetched, checked and decoded (R230 steps 1 to 5, R235). -/
def wsBlock (c : WslCmd) (s : State) : WsBlock :=
  let u := c.strand
  match wsRange u c.seq c.blk 20 s with
  | .absent p s => .absent p s
  | .later s => .later s
  | .fail a b s =>
    let dlen := match wsRange u c.seq (c.blk + 4) 2 s with
      | .ok cs _ => leNat (natsOf cs)
      | _ => 0
    .failed { cause := a, sub := b } dlen s
  | .ok hc s =>
    let h := natsOf hc
    match headerFail h with
    | some f => .failed f (hdrDlen h) s
    | none =>
      match wsRange u c.seq (c.blk + 20) (bodyLen h) s with
      | .absent p s => .absent p s
      | .later s => .later s
      | .fail a b s => .failed { cause := a, sub := b } (hdrDlen h) s
      | .ok bc s =>
        match wsScales c (hdrDlen h) s with
        | .absent p s => .absent p s
        | .later s => .later s
        | .fail a b s => .failed { cause := a, sub := b } (hdrDlen h) s
        | .ok sc s =>
          match blockData s (s.context c.ctx).world c.key c.dst h (natsOf bc) (sealsOf s u c.blk (20 + bodyLen h)) with
          | .error f => .failed f (hdrDlen h) s
          | .ok d => .data d (natsOf sc) (sectorMerge ((hc ++ bc).map (·.tag))) s

/-! ### The unit's queue -/

def setWsu (s : State) (core : Nat) (f : List (WslCmd × WsPhase) → List (WslCmd × WsPhase)) : State :=
  { s with cores := smod s.cores core fun c => { c with wsu := f c.wsu } }

def modUnit (s : State) (skein n : Nat) (f : UnitInfo → UnitInfo) : State :=
  { s with skeins := smod s.skeins skein fun k => { k with units := sput {} k.units n (f (sget {} k.units n)) } }

/-- Strands of a restored hank issue once its repeated commands are done, or wait only for a queue (R236, R337). -/
def releaseHeld (s : State) (core : Nat) : State :=
  let wsu := (s.core core).wsu
  let pushing := match wsu with
    | (_, .pushing _ _) :: _ => true
    | _ => false
  if wsu.any (fun c => c.1.redo) && !pushing then s
  else
    let leaving (x : Strand) : Bool :=
      (s.context (s.ctxOf x)).pre.any fun p => p.hanks.any fun h => (sfind s.skeins x.skein).any fun k => h == (k.launch, k.hank)
    let ids := (s.strands.filter fun x => x.2.held && x.2.core == core && x.2.phase == .resident && !leaving x.2).map (·.1)
    ids.foldl (fun s u =>
      let st := s.strand u
      let hank := ((sfind s.skeins st.skein).map fun k => (k.launch, k.hank)).getD (0, 0)
      let others := s.strands.filter fun x =>
        x.2.held && ((sfind s.skeins x.2.skein).map fun k => (k.launch, k.hank)) == some hank
      let busy := others.any fun x => x.2.core != core && (s.core x.2.core).wsu.any fun c => c.1.redo
      if busy then s
      else others.foldl (fun s x => (s.modStrand x.1 fun st => { st with held := false }).recard x.1) s) s

/-- The head command is done: its entry frees (R269). -/
def finishWsl (s : State) (core : Nat) (c : WslCmd) : State :=
  let s := dropPeerBytes (setWsu s core (List.drop 1)) c.strand c.seq
  let s := releaseHeld s core
  s.wakeAll (fun _ st => st.core == core) fun w => w == .wsuQueue || w == .unit || w == .engine

/-- Entries of 128 bytes for port 0x1 (R234): zero past the data. -/
def wsEntries (bs : List Nat) : List (List Byte) :=
  (List.range ((bs.length + 127) / 128)).map fun e =>
    ((bs.drop (128 * e)).take 128).map (BitVec.ofNat 8)

/-- Push entries while the queue has room; each word within the data carries the tag (R234). -/
def wsPush (s : State) (core : Nat) : State :=
  match (s.core core).wsu with
  | (c, .pushing es t) :: _ =>
    let room := 4 - ((s.strand c.strand).q.getD c.q []).length
    let (s, k) := (es.take room).foldl (fun r e =>
      (pushEntry r.1 c.strand c.q (entryOf (e ++ List.replicate (128 - e.length) 0) fun i => if 4 * i < e.length then t else 0), r.2 + 1)) (s, 0)
    let s := if k = 0 then s else s.wakeAll (fun u _ => u == c.strand) fun w => w == .queue
    if es.length ≤ k then finishWsl s core c
    else setWsu s core fun l => ({ c with pushed := c.pushed + k }, .pushing (es.drop k) t) :: l.drop 1
  | _ => s

/-- The failure as MSYNC.ws, a matrix instruction or a release reports it.
DEDUCED: log entry 44, unsafe. -/
def wsFault (c : WslCmd) (f : WsFail) (tag : Tag) : EngFault :=
  { cause := f.cause, sub := f.sub, addr := c.blk, expected := f.expected, computed := f.computed, tag := tag
    rel := c.dst == 1, seq := c.seq }

/-- A failed block (R235): an error on its unit, or a report due, and zero entries for DST 2. A terminated strand hears nothing
(R392).
DEDUCED: log entry 44, unsafe. -/
def wsFailed (s : State) (core : Nat) (c : WslCmd) (f : WsFail) (dlen : Nat) : State :=
  let x := wsFault c f (firstTag s c.strand c.seq c.blk)
  let note (s : State) : State :=
    if (s.strand c.strand).phase = .resident then s.modStrand c.strand fun st => { st with wsFaults := st.wsFaults ++ [x] } else s
  match c.dst with
  | 0 =>
    finishWsl (modUnit s c.skein (c.off / 4096) fun i =>
      { i with pending := i.pending - 1, err := some x, cmd := some { c with redo := false } }) core c
  | 1 => finishWsl (note s) core c
  | _ =>
    let n := if 1 ≤ dlen ∧ dlen ≤ 4096 then (dlen + 127) / 128 else 32
    let es : List (List Byte) := List.replicate (n - c.pushed) []
    wsPush (setWsu (note s) core fun l => (c, .pushing es 0) :: l.drop 1) core

/-- A delivered block (R234). -/
def wsDeliver (s : State) (core : Nat) (c : WslCmd) (bs scales : List Nat) (tag : Tag) : State :=
  let tag : Tag := if c.en then tag else 0
  let bytes (l : List Nat) : List Byte := l.map (BitVec.ofNat 8)
  match c.dst with
  | 0 =>
    let n := c.off / 4096
    let s := (s.wipe (windowLoc c.skein c.off) 4096).write (windowLoc c.skein c.off) (bytes bs)
    let side := windowLoc c.skein (2 ^ 18 + 32 * n)
    let s := (s.wipe side 32).write side (bytes scales)
    finishWsl (modUnit s c.skein n fun i =>
      { tag := tag, pending := i.pending - 1, err := none, cmd := some { c with redo := false } }) core c
  | 1 =>
    let va := localWindow + c.off
    match sfind s.skeins c.skein with
    | none => finishWsl s core c
    | some k =>
      if ownStoreDue s c.strand c.seq va bs.length then s
      else finishWsl (perform s [(scratchLoc k.core (k.base + c.off), bytes bs, tag)]) core c
  | _ => wsPush (setWsu s core fun l => (c, .pushing ((wsEntries bs).drop c.pushed) tag) :: l.drop 1) core

/-- The WSU works at its head command (R230, R269). -/
def wsWork (s : State) (core : Nat) : State :=
  match (s.core core).wsu with
  | (c, .run) :: _ =>
    match wsBlock c s with
    | .later s => s
    | .absent p s =>
      match parkPage s core c.ctx p false with
      | some s => setWsu s core fun l => (c, .parked [p]) :: l.drop 1
      | none => s
    | .failed f dlen s => wsFailed s core c f dlen
    | .data bs scales tag s => wsDeliver s core c bs scales tag
  | _ => s

/-! ### WSL -/

/-- The state checks of R229 and R269 on the destination: an ILL_FIELD position. -/
def wslFault (s : State) (st : Strand) (o : WslOp) (off : Nat) : Option Nat :=
  match o.dst with
  | 0 => if off % 4096 ≠ 0 ∨ winOf s st < off + 4096 then some 10 else none
  | 1 =>
    let scratch := ((sfind s.skeins st.skein).map (·.scratch)).getD 0
    if off % 32 ≠ 0 ∨ scratch < off + 4096 then some 10 else none
  | _ => if (portQueue st 1).isNone then some 64 else none

/-- WSL (R229): its command enters the queue of the core's WSU. -/
def execWsl (o : WslOp) (s : State) : Host.Outcome State Fault Refusal :=
  issue (.wsl o) s fun cx s =>
    let st := s.strand cx.u
    let b := st.readS o.b 2
    let d := st.readS o.d 1
    let plane := o.dst == 0 && o.c != 0
    let sc := st.readS o.c 2
    let off := if o.dst = 2 then 0 else d.w.toNat
    let x : Ea := { thread := st.lowest cx.mask, lane := 0, va := b.val, base := b.tag, idx := 0 }
    withAddrs [x] 4 true s fun s =>
      match wslFault s st o off with
      | some p => .trap { cause := 0x02, sub := p } s
      | none =>
        if 8 ≤ (s.core st.core).wsu.length then .wait .wsuQueue s
        else
          let (id, s) := s.newId
          let c : WslCmd :=
            { strand := cx.u, sid := st.sid, skein := st.skein, ctx := s.ctxOf st, blk := b.val, scale := if plane then some sc.val else none, off := off
              dst := o.dst, key := o.key, q := (portQueue st 1).getD 0, en := st.tagEn, seq := id }
          let k := s.core st.core
          let s := s.setCore st.core { k with wsu := k.wsu ++ [(c, .run)] }
          let s := if o.dst = 0 then modUnit s st.skein (off / 4096) fun i => { i with pending := i.pending + 1 } else s
          .done s (b.poison || (plane && sc.poison) || (o.dst != 2 && d.poison))

end Sys2Proof.Machine
end

