-- ==== Sys2Proof/Machine/Engines.lean ====
section
/-!
DEFINITION. Events of the copy engine (R199, R200), the matrix engine (R220 to R222, R351) and the weight stream unit (R230,
R234).
-/

namespace Sys2Proof.Machine

/-! ### Copies -/

def findCopy (s : State) (core i : Nat) : Option Copy := (s.core core).copies.find? fun c => c.id == i

/-- What may go on once a copy has moved, or retired: its strand's queues and batches, the core's CPYs and accesses. -/
def copyMoved (before after : State) (core i : Nat) : State :=
  match findCopy before core i with
  | none => after
  | some c =>
    if findCopy after core i = some c then after
    else
      (after.wakeAll (fun _ st => st.core == core) fun w => w == .scoreboard || w == .copySlot).wakeIf c.strand
        fun w => w == .queue || w == .batch || w == .engine

/-- A copy at work goes as far as it can (R199). -/
def copyGo (s : State) (core i : Nat) : State :=
  match findCopy s core i with
  | some c => if c.phase = .run then copyMoved s (copyRun s core i) core i else s
  | none => s

def execCopyComplete (core i : Nat) (s : State) : Host.Outcome State Fault Refusal := .next (copyGo s core i)

/-- A copy whose page has been replayed resumes where it stopped (R200). -/
def execCopyResume (core i : Nat) (s : State) : Host.Outcome State Fault Refusal :=
  .next <|
    match findCopy s core i with
    | some c => if c.phase = .parked [] then modCopy s core i fun c => { c with phase := .run } else s
    | none => s

/-! ### The matrix engine -/

/-- A matrix instruction looks again whether the engine takes it (R214, R228, R234, R333). -/
def execMatrixAccept (u : Nat) (s : State) : Host.Outcome State Fault Refusal :=
  .next (s.wakeIf u fun w => w == .engine || w == .unit)

/-- The crew's verdict, and its threads back in the carding table (R220). -/
def execCrewRendezvous (u : Nat) (s : State) : Host.Outcome State Fault Refusal :=
  let t := crewMeet s u
  let ids := (t.strands.filter fun x => x.2.latch ≠ (s.strand x.1).latch).map (·.1)
  .next (ids.foldl State.recard t)

/-- What may go on once an operation has moved: its strand, and accesses that its destination held. -/
def mopMoved (before after : State) (u : Nat) : State :=
  let a := before.strand u
  let b := after.strand u
  let t := if a.mops = b.mops then after
    else (after.wakeIf u (· == .engine)).wakeAll (fun _ st => st.core == b.core) (· == .scoreboard)
  if a.q = b.q then t else t.wakeIf u (· == .queue)

/-- A running operation does its next row-block, or that row-block fails its check (R222, R351). -/
def rowBlock (s : State) (u i : Nat) (failed : Bool) : State :=
  match (s.strand u).mops.find? fun o => o.id == i with
  | none => s
  | some o =>
    if o.phase ≠ .run ∨ (s.strand u).phase ≠ .resident then s
    else if failed then
      if o.blocked (s.strand u) ∨ !o.due.isEmpty then s else mopMoved s (blockFails s u o) u
    else
      let t := mopStep s u o
      let others := if o.crew.isEmpty then [] else o.crew.filter (· != u)
      others.foldl (fun t m => mopMoved s t m) (mopMoved s t u)

def execRowBlockComplete (u i : Nat) (failed : Bool) (s : State) : Host.Outcome State Fault Refusal :=
  .next (rowBlock s u i failed)

/-- A suspended operation resumes once its page has been replayed (R222). -/
def execMatrixResume (u i : Nat) (s : State) : Host.Outcome State Fault Refusal :=
  .next <|
    match (s.strand u).mops.find? fun o => o.id == i with
    | some o => if o.phase = .parked [] then modMop s u i fun o => { o with phase := .run } else s
    | none => s

/-! ### The weight stream unit -/

def execWsuBlockDelivery (core : Nat) (s : State) : Host.Outcome State Fault Refusal :=
  .next (releaseHeld (wsWork s core) core)

def execWsuQueuePush (core : Nat) (s : State) : Host.Outcome State Fault Refusal := .next (wsPush s core)

def execWsuResume (core : Nat) (s : State) : Host.Outcome State Fault Refusal :=
  .next <|
    match (s.core core).wsu with
    | (_, .parked []) :: _ => setWsu s core fun l => l.mapIdx fun i x => if i = 0 then (x.1, .run) else x
    | _ => s

end Sys2Proof.Machine
end

