-- ==== Sys2Proof/Machine/Place.lean ====
section
/-!
DEFINITION. Placement: what fits a core and a cluster (R309, R310), the curve (R313, R314), the start of skeins and strands
(R22, R27, R331, R332), and the end of skeins and hanks (R274, R314).
-/

namespace Sys2Proof.Machine

/-! ### Room -/

/-- What a skein of a launch needs: scratchpad bytes rounded up, accumulator elements of a strand, strands, registers. -/
structure Shape where
  scr : Nat
  acc : Nat
  strands : Nat
  regs : Nat
  deriving DecidableEq, Repr, Inhabited

def shapeOf (l : Launch) (cont : Bool) : Shape :=
  let x := skeinShape l cont
  { scr := roundScratch x.1, acc := x.2.1, strands := x.2.2, regs := l.msg.regs }

/-- What a core has left: by partition the free slots and registers, free scratchpad ranges, accumulator elements. -/
structure Room where
  parts : List (List Nat × Nat)
  free : List (Nat × Nat)
  acc : Nat
  deriving DecidableEq, Repr, Inhabited

/-- Bytes of scratchpad in use (R274).
DEDUCED: log entry 33, unsafe. -/
def usableScratch (c : Core) : Nat := 786432 - 8192 * c.retiredBanks.length

def unitOut (s : State) (u : UnitName) : Bool := s.sec.outUnits.contains u

/-- A core takes skeins: in service, as is its cluster. -/
def coreServes (s : State) (core : Nat) : Bool := !unitOut s (.core core) && !unitOut s (.l2 (core / 8))

/-- A skein holds its place on its core. -/
def Skein.placed (k : Skein) : Bool := k.phase == .resident || k.phase == .ended

/-- The gaps that (base, length) pieces leave in `n` bytes. -/
def gaps (n : Nat) (used : List (Nat × Nat)) : List (Nat × Nat) :=
  let us := sortBy (fun a b => decide (a.1 ≤ b.1)) (used.filter (·.2 != 0))
  let r := us.foldl (fun r u => (r.1 ++ [(r.2, u.1 - r.2)], max r.2 (u.1 + u.2))) (([] : List (Nat × Nat)), 0)
  (r.1 ++ [(r.2, n - r.2)]).filter (·.2 != 0)

/-- The room of a core that holds nothing. -/
def emptyRoom (s : State) (core : Nat) (sys : Bool) : Room :=
  let c := s.core core
  let part (p : Nat) : List Nat × Nat :=
    if !coreServes s core || c.retiredParts.contains p then ([], 0)
    else if sys then ([16], 32) else (List.range 16, 1024)
  { parts := (List.range 4).map part, free := gaps (usableScratch c) [], acc := 81920 }

/-- The room of a core as it stands; none while a bank waits to retire, a scrub runs, or a unit is scrub-pending for another
world (R355, R367, R368). -/
def roomOf (s : State) (core world : Nat) (sys : Bool) : Room :=
  let c := s.core core
  let e := emptyRoom s core sys
  let ks := s.skeins.filter fun k => k.2.core == core && k.2.placed
  let sts := s.strands.filter fun x => x.2.core == core && ks.any fun k => k.1 == x.2.skein
  let shut := !c.marked.isEmpty || !c.scrub.isEmpty || c.pend.any fun p => p.2 != world
  let part (p : Nat) (r : List Nat × Nat) : List Nat × Nat :=
    let mine := sts.filter fun x => x.2.part == p && (x.2.slot == 16) == sys
    if shut then ([], 0)
    else (r.1.filter fun n => !mine.any fun x => x.2.slot == n, r.2 - (mine.map fun x => x.2.regs).sum)
  { parts := e.parts.mapIdx part
    free := gaps (usableScratch c) (ks.map fun k => (k.2.base, roundScratch k.2.scratch))
    acc := e.acc - (sts.map fun x => x.2.accn).sum }

/-- Strands of `regs` registers that a partition can still take. -/
def partRoom (regs : Nat) (p : List Nat × Nat) : Nat := min p.1.length (p.2 / max regs 1)

/-- One strand: the partition with most room, its lowest free slot (R309). -/
def takeSlot (regs : Nat) (r : Room) : Option ((Nat × Nat) × Room) :=
  let best := (List.range r.parts.length).foldl (fun b p =>
    if partRoom regs (r.parts.getD b ([], 0)) < partRoom regs (r.parts.getD p ([], 0)) then p else b) 0
  let p := r.parts.getD best ([], 0)
  if partRoom regs p = 0 then none
  else
    some ((best, p.1.headD 0), { r with parts := r.parts.mapIdx fun i x => if i = best then (x.1.drop 1, x.2 - regs) else x })

/-- DESIGN CHOICE: log entry 18, unsafe. -/
def takeSlots (regs : Nat) : Nat → Room → Option (List (Nat × Nat) × Room)
  | 0, r => some ([], r)
  | n + 1, r =>
    match takeSlot regs r with
    | none => none
    | some (x, r) => (takeSlots regs n r).map fun y => (x :: y.1, y.2)

/-- A contiguous range of scratchpad: the first that is large enough. -/
def takeRange (n : Nat) (r : Room) : Option (Nat × Room) :=
  if n = 0 then some (0, r)
  else
    match r.free.find? fun g => n ≤ g.2 with
    | none => none
    | some g => some (g.1, { r with free := r.free.map fun x => if x = g then (g.1 + n, g.2 - n) else x })

/-- One skein on a core: slice base and its strands' slots. -/
def takeSkein (sh : Shape) (r : Room) : Option ((Nat × List (Nat × Nat)) × Room) :=
  if r.acc < sh.strands * sh.acc then none
  else
    (takeRange sh.scr r).bind fun b =>
      (takeSlots sh.regs sh.strands b.2).map fun y => ((b.1, y.1), { y.2 with acc := y.2.acc - sh.strands * sh.acc })

/-- A place for a skein: core, slice base, (partition, slot) of each strand. -/
abbrev Seat := Nat × Nat × List (Nat × Nat)

/-- Skeins of one hank on the cores of a cluster, given with the number each has taken: the emptiest first.
DESIGN CHOICE: log entry 18, unsafe. -/
def takeHank (sh : Shape) : Nat → List (Nat × Nat × Room) → Option (List Seat × List (Nat × Nat × Room))
  | 0, rs => some ([], rs)
  | n + 1, rs =>
    let fits := rs.filter fun r => (takeSkein sh r.2.2).isSome
    let best := fits.foldl (fun (b : Option (Nat × Nat × Room)) r => match b with
      | none => some r
      | some x => if r.2.1 < x.2.1 then some r else some x) none
    match best with
    | none => none
    | some b =>
      match takeSkein sh b.2.2 with
      | none => none
      | some (x, room) =>
        (takeHank sh n (rs.map fun r => if r.1 = b.1 then (r.1, r.2.1 + 1, room) else r)).map fun y =>
          ((b.1, x.1, x.2) :: y.1, y.2)

/-- The rooms of a cluster's cores: as they stand, or empty. -/
def clusterRooms (s : State) (cluster world : Nat) (sys empty : Bool) : List (Nat × Nat × Room) :=
  (upFrom (8 * cluster) 8).map fun k => (k, 0, if empty then emptyRoom s k sys else roomOf s k world sys)

def hankSize (l : Launch) : Nat := l.msg.hankx * l.msg.hanky

/-- A hank of the launch fits an empty cluster of the package (R309). -/
def fitsSomewhere (s : State) (l : Launch) : Bool :=
  (List.range 32).any fun c => (takeHank (shapeOf l false) (hankSize l) (clusterRooms s c 0 l.sys true)).isSome

/-! ### The curve -/

/-- The cell that the Hilbert curve visits at step d of an n × n square (R313); `fuel` bounds the doublings of s. -/
def hposFrom (n : Nat) : Nat → Nat → Nat → Nat → Nat → Nat × Nat
  | 0, _, _, x, y => (x, y)
  | fuel + 1, s, t, x, y =>
    if n ≤ s then (x, y)
    else
      let rx := t / 2 % 2
      let ry := Nat.xor t rx % 2
      let (x, y) := if ry = 0 then (if rx = 1 then (s - 1 - y, s - 1 - x) else (y, x)) else (x, y)
      hposFrom n fuel (2 * s) (t / 4) (x + s * rx) (y + s * ry)

def hpos (n d : Nat) : Nat × Nat := hposFrom n 17 1 d 0 0

def hankCols (l : Launch) : Nat := l.msg.gridx / max l.msg.hankx 1
def hankRows (l : Launch) : Nat := l.msg.gridy / max l.msg.hanky 1

/-- The smallest power of two not below m, among 2^k and its next `fuel` doublings. -/
def powerAbove (m : Nat) : Nat → Nat → Nat
  | 0, p => p
  | fuel + 1, p => if m ≤ p then p else powerAbove m fuel (2 * p)

/-- The hanks in curve order (R313). -/
def curve (l : Launch) : List Nat :=
  let n := powerAbove (max (hankCols l) (hankRows l)) 16 1
  ((List.range (n * n)).map (hpos n)).filterMap fun c =>
    if c.1 < hankCols l ∧ c.2 < hankRows l then some (c.1 + c.2 * hankCols l) else none

/-- The die that receives position p of H on the curve, of the dies `ds` in ascending order (R314). -/
def stretchDie (ds : List Nat) (total p : Nat) : Option Nat :=
  let n := ds.length
  ((List.range n).find? fun j => j * total / n ≤ p && p < (j + 1) * total / n).bind fun j => ds[j]?

/-- Dies with a cluster in service. -/
def diesInService (s : State) : List Nat :=
  (List.range 8).filter fun d => (upFrom (32 * d) 32).any (coreServes s)

/-- The dies that may place hank h. -/
def hankDies (l : Launch) (h : Nat) : List Nat :=
  if isDet l then
    match (curve l).findIdx? (· == h) with
    | some p => (stretchDie l.dies (curve l).length p).toList
    | none => []
  else l.dies

/-! ### Headers in the save area -/

/-- BLKCOUNT (R331). -/
def blkCount (s : State) (ctx : Nat) : Nat := ((devGet s ctx ((s.context ctx).area + 4) 4).map ofBytes).getD 0

/-- The bytes that a skein's block needs (R332). -/
def blockNeed (l : Launch) : Nat :=
  slotsStart l.msg.scratch (l.msg.acc * 256) l.msg.nstrand + 0x20000 * l.msg.nstrand

/-- The 256 bytes of a skein header (R332): STATE, queued WSL count, UNITS as given. -/
def skeinHeader (l : Launch) (k : Skein) (cont : Bool) (state wsl unitMap : Nat) : List Byte :=
  let (scr, n, ns) := skeinShape l cont
  let r := roundScratch scr
  let a0 := 4096 * ((0x2000 + r + r / 16 + 4095) / 4096)
  let accb := 4096 * ((4 * n + 4112 + n / 32 + 4095) / 4096) + 12288
  toBytes 4 l.num ++ toBytes 4 k.index ++ toBytes 1 state ++ toBytes 1 ns ++ toBytes 2 (rankOf l k.index) ++ toBytes 4 r ++
    toBytes 4 n ++ toBytes 4 (windowSize (n * ns)) ++ toBytes 4 a0 ++ toBytes 4 (slotsStart scr n ns) ++ toBytes 4 accb ++
    toBytes 4 wsl ++ toBytes 8 unitMap ++ List.replicate 16 0 ++ l.msg.bytes ++ List.replicate 128 0

def Skein.isCont (l : Launch) (k : Skein) : Bool := gridSkeins l ≤ k.index

/-- The headers of a skein and of its save area written (R331, R332, R390). -/
def writeHeaders (s : State) (key state : Nat) : State :=
  match sfind s.skeins key with
  | none => s
  | some k =>
    let l := s.launch k.launch
    let die := dieOfCore k.core
    let s := devWrite s l.ctx die (blockVA s l.ctx k.block) (skeinHeader l k (Skein.isCont l k) state 0 0)
    if (sfind s.skeins key).isNone then s else (headerPut s l.ctx).getD (forceReset s l.ctx die 1)

/-! ### Strands and skeins begin -/

/-- The lane of thread i in slot n (R27). -/
def laneAt (prot : Bool) (skew i n : Nat) : Nat := if prot then 2 * ((i + skew * n) % 16) else (i + skew * n) % 32

/-- Control registers at strand start (R37 to R49). -/
def startCtl (l : Launch) (sid slotAddr : Nat) : Ctl :=
  let t := l.msg.tagdef
  let next := min (sid * l.msg.btpart) 16384
  let limit := min ((sid + 1) * l.msg.btpart) 16384
  { tctl := BitVec.ofNat 64 (t % 2 + 2 * (t / 16 % 8) + 16 * (t / 2 % 2) + 32 * (t / 4 % 4))
    genk := BitVec.ofNat 64 (sid % 2 ^ 32)
    stfq := BitVec.ofNat 64 slotAddr
    btbase := BitVec.ofNat 64 (l.msg.btbase % 2 ^ 56 / 32 * 32)
    btnext := if isDet l then BitVec.ofNat 64 (next + 2 ^ 16 * limit) else 0 }

/-- A thread at strand start; one of a partial continuation strand that has no record does not exist (R315). -/
def startThread (l : Launch) (pc : BitVec 62) (slot i : Nat) (cont : Option (List EmitRec)) : Thread :=
  let prot := l.msg.mode / 8 % 2 == 1
  let t : Thread := { lane := laneAt prot (l.msg.skewpri % 32) i slot, live := true, pc := pc }
  match cont with
  | none => t
  | some rs =>
    match rs[i]? with
    | none => { t with live := false, ended := true }
    | some r =>
      { t with v := (r.words.zipIdx 1).foldl (fun m w => sput {} m w.2 { val := w.1.1, tag := w.1.2 }) [] }

/-- One strand, with its threads in their first region (R22, R161). -/
def addStrand (s : State) (sk j : Nat) (core : Nat) (p : Nat × Nat) (entry : Nat) (cont : Option (List EmitRec)) : State :=
  match sfind s.skeins sk with
  | none => s
  | some k =>
    let l := s.launch k.launch
    let (u, s) := s.newId
    let prot := l.msg.mode / 8 % 2 == 1
    let sid := (k.index * l.msg.nstrand + j) % 2 ^ 32
    let pc := BitVec.ofNat 62 (entry / 4)
    let (_, accn, _) := skeinShape l cont.isSome
    let st : Strand :=
      { launch := k.launch, skein := sk, idx := j, sid := sid, core := core, part := p.1, slot := p.2, sys := l.sys
        prot := prot, onSec := l.sec, cont := cont.isSome, regs := l.msg.regs, accn := accn
        threads := (List.range (if prot then 16 else 32)).map fun i => startThread l pc p.2 i cont }
    let s := { s with strands := sset s.strands u st }
    let s := s.modStrand u fun st => { st with ctl := startCtl l sid (slotVA s st) }
    (openRegion s u (s.strand u).liveMask pc false).recard u

/-- A core's units serve a skein of a context (R366): register banks of partitions 0 to 3, scratchpad, accumulators,
stationary buffer, queues (4 to 7), translations (8). Translations of another, protected world that it served are dropped. -/
def State.serve (s : State) (core ctx : Nat) (parts : List Nat) : State :=
  let c := s.core core
  let w := (s.context ctx).world
  let old := sget 0 c.served 8
  let gone (e : TlbEntry) : Bool := old != 0 && old != w && (s.context e.ctx).world == old
  s.setCore core
    { c with
      served := (parts.dedup ++ [4, 5, 6, 7, 8]).foldl (fun m u => sput 0 m u w) c.served
      tlb := c.tlb.filter fun e => !gone e
      last := c.last.filter fun e => !gone e.2 }

/-- A skein begins on its core (R309, R331). -/
def addSkein (s : State) (key idx hank : Nat) (seat : Seat) (entry : Nat) (cont : Option (List EmitRec)) : State :=
  let l := s.launch key
  let (scr, n, ns) := skeinShape l cont.isSome
  match firstFree (s.context l.ctx).blocks (blkCount s l.ctx) 0 with
  | none => s
  | some b =>
    let (sk, s) := s.newId
    let k : Skein := { launch := key, index := idx, hank := hank, rank := rankOf l idx, core := seat.1, base := seat.2.1
                       scratch := scr, block := b, window := windowSize (n * ns), phase := .resident }
    let s := { s with skeins := sset s.skeins sk k }
    let s := s.modContext l.ctx fun c => { c with blocks := c.blocks ++ [b] }
    let s := s.serve seat.1 l.ctx (seat.2.2.map (·.1))
    let s := writeHeaders s sk 1
    (seat.2.2.zipIdx).foldl (fun s p => addStrand s sk p.2 seat.1 p.1 entry cont) s

/-- The skeins of hank h in rank order, by linear index (R312). -/
def hankSkeins (l : Launch) (h : Nat) : List Nat :=
  let x0 := h % max (hankCols l) 1 * l.msg.hankx
  let y0 := h / max (hankCols l) 1 * l.msg.hanky
  (List.range (hankSize l)).map fun r => x0 + r % l.msg.hankx + (y0 + r / l.msg.hankx) * l.msg.gridx

/-- A context becomes the most recent of a die; a 65th displaces the oldest (R323). -/
def touchDie (s : State) (die ctx : Nat) : State :=
  { s with dies := s.dies.mapIdx fun i d =>
      if i = die then { d with contexts := ((d.contexts.filter (· != ctx)) ++ [ctx]).drop ((d.contexts.filter (· != ctx)).length - 63) }
      else d }

/-- A hank begins. -/
def startHank (s : State) (key h : Nat) (seats : List Seat) : State :=
  let l := s.launch key
  let cluster := (seats.headD (0, 0, [])).1 / 8
  let s := ((hankSkeins l h).zip seats).foldl (fun s x => addSkein s key x.1 h x.2 l.msg.code none) s
  touchDie (s.modLaunch key fun l => { l with unplaced := l.unplaced.filter (· != h), placedAt := l.placedAt ++ [(h, cluster)] })
    (cluster / 4) l.ctx

/-- A continuation strand begins, in a hank and skein of its own (R315). -/
def startCont (s : State) (key : Nat) (c : Nat × Nat × List EmitRec) (seats : List Seat) : State :=
  let l := s.launch key
  let idx := gridSkeins l + c.1
  let s := seats.foldl (fun s x => addSkein s key idx (2 ^ 32 + idx) x c.2.1 (some c.2.2)) s
  s.modLaunch key fun l =>
    { l with conts := l.conts.filter fun x => x.1 != c.1
             placedAt := l.placedAt ++ [(2 ^ 32 + idx, (seats.headD (0, 0, [])).1 / 8)] }

/-! ### Skeins and hanks end -/

/-- A strand is over: ended, its stores performed and acknowledged, its copies and commands done (R160, R392). -/
def strandOver (s : State) (u : Nat) (st : Strand) : Bool :=
  (st.phase == .ended || st.phase == .terminated) && st.cq.isEmpty && st.unacked.isEmpty && st.copyUnacked.isEmpty &&
    !((s.core st.core).copies.any fun c => c.strand == u) && !((s.core st.core).wsu.any fun c => c.1.strand == u)

def skeinOver (s : State) (sk : Nat) : Bool :=
  (s.strands.filter fun x => x.2.skein == sk).all fun x => strandOver s x.1 x.2

/-- A skein whose strands are over ends: its slice is cleared and its block freed (R274, R331). -/
def endSkein (s : State) (sk : Nat) : State :=
  match sfind s.skeins sk with
  | none => s
  | some k =>
    if k.phase ≠ .resident ∨ !skeinOver s sk then s
    else
      let ctx := (s.launch k.launch).ctx
      let s := s.wipe (scratchLoc k.core k.base) (roundScratch k.scratch)
      let s := { s with skeins := smod s.skeins sk fun k => { k with phase := .ended } }
      writeHeaders (s.modContext ctx fun c => { c with blocks := c.blocks.filter (· != k.block) }) sk 0

/-- A hank is placed and all its skeins have ended. -/
def hankOver (s : State) (key h : Nat) : Bool :=
  let ks := s.skeins.filter fun k => k.2.launch == key && k.2.hank == h
  !ks.isEmpty && ks.all fun k => k.2.phase == .ended

/-- A hank retires: its cores are free (R314). -/
def retireHank (s : State) (key h : Nat) : State :=
  let ks := (s.skeins.filter fun k => k.2.launch == key && k.2.hank == h).map (·.1)
  (ks.foldl State.dropSkein s).modLaunch key fun l => { l with retired := l.retired ++ [h] }

/-- Hanks retire in curve order in a deterministic launch, each by itself otherwise (R314). -/
def retireLaunch (s : State) (key : Nat) : State :=
  let l := s.launch key
  let due := if isDet l then (curve l).filter fun h => !l.retired.contains h else l.placedAt.map (·.1)
  let ready (s : State) : List Nat := if isDet l then due.takeWhile (hankOver s key) else due.filter (hankOver s key)
  let conts := (l.placedAt.map (·.1)).filter fun h => isDet l && 2 ^ 32 ≤ h && hankOver s key h
  (ready s ++ conts).foldl (fun s h => retireHank s key h) s

/-- What the dispatchers do about strands that are over. -/
def State.tidy (s : State) : State :=
  let s := ((s.skeins.filter fun k => k.2.phase == .resident).map (·.1)).foldl endSkein s
  if s.skeins.any fun k => k.2.phase == .ended then
    ((s.launches.filter fun l => l.2.phase != .done).map (·.1)).foldl retireLaunch s
  else s

end Sys2Proof.Machine
end

