-- ==== Sys2Proof/Machine/Launch.lean ====
section
/-!
DEFINITION. Launch messages: their fields and checks (R303, R304), launch numbers and waits (R305, R306), the order of the
checks (R307), die queues (R308), and taking a launch.
-/

namespace Sys2Proof.Machine

/-- The fields of a launch message (R303). -/
def parseMsg (b : List Byte) : Msg :=
  { code := field b 0 8, params := field b 8 8, btbase := field b 16 8, gridx := field b 24 2, gridy := field b 26 2
    nstrand := field b 28 1, regs := field b 29 1, hankx := field b 30 1, hanky := field b 31 1, scratch := field b 32 4
    acc := field b 36 2, pbytes := field b 38 2, btpart := field b 40 2, mode := field b 42 1, tagdef := field b 43 1
    skewpri := field b 44 1, cmbx := field b 46 2, wait0 := field b 48 4, wait1 := field b 52 4, gang := field b 56 2
    grank := field b 58 2, bytes := b }

/-- The fields with their limits in byte order (R303): offset, and whether the field breaks them. A tie to a later field is
tested only where that one keeps its own limits (R304).
DEDUCED: log entry 40, unsafe. -/
def fieldTests (m : Msg) : List (Nat × Bool) :=
  let hx := m.hankx
  let hy := m.hanky
  let modeOk := m.mode % 4 != 3 && m.mode / 16 == 0
  let hyOk := 1 ≤ hy && hy ≤ 64 && hx * hy ≤ 64
  [(0, 2 ^ 56 ≤ m.code || m.code % 4 != 0),
   (16, m.btbase % 32 != 0),
   (24, m.gridx == 0 || (1 ≤ hx && hx ≤ 64 && m.gridx % hx != 0)),
   (26, m.gridy == 0 || (hyOk && m.gridy % hy != 0)),
   (28, !(1 ≤ m.nstrand && m.nstrand ≤ 64)),
   (29, !(8 ≤ m.regs && m.regs ≤ 248 && m.regs % 8 == 0)),
   (30, !(1 ≤ hx && hx ≤ 64)),
   (31, !hyOk),
   (32, 786432 < m.scratch),
   (36, 320 < m.acc),
   (38, 4096 < m.pbytes),
   (40, 16384 < m.btpart || (modeOk && (if m.mode / 4 % 2 = 1 then m.btpart == 0 else m.btpart != 0))),
   (42, !modeOk),
   (43, 128 ≤ m.tagdef || !(1 ≤ m.tagdef / 16 % 8 && m.tagdef / 16 % 8 ≤ 5)),
   (45, field m.bytes 45 1 != 0),
   (46, !(m.cmbx < 4096 || m.cmbx == 0xFFFF)),
   (58, 2 ^ 14 ≤ m.grank),
   (60, field m.bytes 60 4 != 0)]

/-- The offset of the first field that breaks R303.
DEDUCED: log entry 40, unsafe. -/
def badField (m : Msg) : Option Nat := ((fieldTests m).find? (·.2)).map (·.1)

/-! ### Numbers and waits -/

/-- The k-th number of a counter, 1, 2, … without 0 and 0x8000_0000 (R305). -/
def launchNumber (child : Bool) (k : Nat) : Nat := (k - 1) % (2 ^ 31 - 1) + 1 + (if child then 2 ^ 31 else 0)

/-- How many numbers a counter of a context has given. -/
def numbersGiven (c : Context) (child : Bool) : Nat := if child then c.numB else c.numA

/-- What a named launch means for a wait (R306). -/
inductive Named
  | done | pending (key : Nat) | unassigned
  deriving DecidableEq, Repr, Inhabited

/-- A named number as of a context's counters (R306). -/
def namedLaunch (s : State) (ctx n : Nat) : Named :=
  let child := 2 ^ 31 ≤ n
  let v := n % 2 ^ 31
  let c := numbersGiven (s.context ctx) child
  let back := (c + (2 ^ 31 - 1) - v) % (2 ^ 31 - 1)
  if v = 0 ∨ c ≤ back then .unassigned
  else if 65536 < back then .done
  else
    match (s.launches.filter fun l => l.2.ctx == ctx && l.2.num == n && l.2.phase != .done).getLast? with
    | some l => .pending l.1
    | none => .done

/-- A wait keeps the launch from being accepted: it names a number not assigned, or the launch itself. -/
def badWait (s : State) (ctx own n : Nat) : Bool := n != 0 && (n == own || namedLaunch s ctx n == .unassigned)

/-- The waits of a launch are over. -/
def waitsDone (s : State) (l : Launch) : Bool :=
  let free (n : Nat) : Bool := n == 0 || match namedLaunch s l.ctx n with
    | .pending _ => false
    | _ => true
  free l.msg.wait0 && free l.msg.wait1

/-! ### Acceptance -/

def isConcurrent (l : Launch) : Bool := l.msg.mode % 4 == 2

/-- The priority of a launch (R303). -/
def priority (l : Launch) : Nat := l.msg.skewpri / 32

/-- Every hank of a launch placed at once (R311), each on the first cluster of its dies that takes it; the clusters' rooms are
given by number.
DESIGN CHOICE: log entry 18, unsafe. -/
def placeAll (l : Launch) (sh : Shape) : List Nat → List (Nat × List (Nat × Nat × Room)) → Option (List (Nat × List Seat))
  | [], _ => some []
  | h :: hs, rooms =>
    let try_ (c : Nat × List (Nat × Nat × Room)) : Option (Nat × List Seat × List (Nat × Nat × Room)) :=
      if (hankDies l h).contains (c.1 / 4) then
        (takeHank sh (hankSize l) (c.2.map fun r => (r.1, 0, r.2.2))).map fun y => (c.1, y)
      else none
    match rooms.findSome? try_ with
    | none => none
    | some (c, seats, rs) =>
      (placeAll l sh hs (rooms.map fun r => if r.1 = c then (c, rs) else r)).map fun y => (h, seats) :: y

def allRooms (s : State) (world : Nat) (sys empty : Bool) : List (Nat × List (Nat × Nat × Room)) :=
  (List.range 32).map fun c => (c, clusterRooms s c world sys empty)

/-- The dispatcher's checks after those of R304, in the order of R307. -/
def vet (s : State) (l : Launch) : Option Nat :=
  if badWait s l.ctx l.num l.msg.wait0 || badWait s l.ctx l.num l.msg.wait1 then some 0x13
  else if blkSize s l.ctx < blockNeed l || !fitsSomewhere s l then some 0x11
  else
    let l' : Launch := { l with dies := diesInService s }
    if isConcurrent l && (placeAll l' (shapeOf l false) (curve l') (allRooms s 0 l.sys true)).isNone then some 0x12 else none

/-- The dies to whose queues a launch goes: those with room for its priority, of which a deterministic launch needs each that
its stretches name (R308, R314). -/
def roomyDies (s : State) (pri : Nat) : List Nat :=
  (diesInService s).filter fun d =>
    ((((s.dies.getD d {}).queue.filter fun k => priority (s.launch k) == pri)).length) < 256

/-- The dispatcher can accept a launch of a priority (R308). -/
def canAccept (s : State) (m : Msg) : Bool :=
  if m.mode / 4 % 2 = 1 then (roomyDies s (m.skewpri / 32)).length == (diesInService s).length
  else !(roomyDies s (m.skewpri / 32)).isEmpty

/-- An accepted launch enters the die queues. -/
def enqueue (s : State) (key : Nat) : State :=
  let l := s.launch key
  let ds := if isDet l then diesInService s else roomyDies s (priority l)
  let l' : Launch := { l with dies := ds }
  let s := s.modLaunch key fun l =>
    { l with dies := ds, unplaced := curve l', phase := if waitsDone s l then .queued else .waiting }
  { s with dies := s.dies.mapIdx fun i d => if ds.contains i then { d with queue := d.queue ++ [key] } else d }

/-- A launch message taken by the dispatcher: numbered (R305), checked (R304, R307), queued or rejected. `proto` gives what its
source decides: context, system mode, parent, order, and the mailbox whose slot it holds. The key comes back with the state.
DEDUCED: log entry 7, unsafe. -/
def takeLaunch (s : State) (bytes : List Byte) (child : Bool) (proto : Launch) : Nat × State :=
  let ctx := proto.ctx
  let s := s.modContext ctx fun c => if child then { c with numB := c.numB + 1 } else { c with numA := c.numA + 1 }
  let (key, s) := s.newId
  let l : Launch := { proto with num := launchNumber child (numbersGiven (s.context ctx) child), msg := parseMsg bytes }
  let s := { s with launches := sset s.launches key l }
  let reject (status offset : Nat) : State :=
    let r := finishLaunch (s.modLaunch key fun l => { l with status := status, offset := offset }) key
    orReset r ctx 0
  match badField l.msg with
  | some o => (key, reject 0x10 o)
  | none =>
    match vet s l with
    | some st => (key, reject st 0)
    | none => (key, enqueue s key)

/-! ### Messages for the launch and handler mailboxes -/

/-- The handler mailboxes whose launches run in system mode: the fault and error mailboxes (R293, R310).
DEDUCED: log entry 7, unsafe. -/
def systemBox (n : Nat) : Bool := n == 1 || n == 2

/-- The launch record of a mailbox's message, where the dispatcher has one to take: the message itself, or the template with
PARAMS replaced by the slot address (R301).
DEDUCED: log entry 7, unsafe. -/
def recordFor (s : State) (ctx n : Nat) (bytes : List Byte) : Option (List Byte) :=
  match mbxKind s ctx n with
  | 1 => some bytes
  | 2 => (devGet s ctx (mbxTemplate s ctx n) 64).map fun t => patch t 8 (toBytes 8 (mbxSlot s ctx n))
  | _ => none

/-- A message in a busy slot whose launch the dispatcher has not taken. -/
def slotPending (s : State) (ctx n : Nat) : Option (List Byte) :=
  if s.launches.any fun l => l.2.ctx == ctx && l.2.slot == some n && l.2.phase != .done then none
  else ((s.context ctx).busy.find? fun b => b.1 == n).map (·.2)

/-- The dispatcher takes the message of mailbox n (R301, R304): a launch message frees the slot, a handler's launch keeps it
until it completes. Held mailboxes and full queues leave it where it is (R308, R369). -/
def intake (s : State) (ctx n : Nat) : State :=
  match slotPending s ctx n with
  | none => s
  | some bytes =>
    match mbxKind s ctx n, recordFor s ctx n bytes with
    | 1, some b =>
      if (s.context ctx).mbxHeld || !canAccept s (parseMsg b) then s
      else
        orReset (freeSlot (takeLaunch s b (n != 0) { num := 0, ctx := ctx, msg := {} }).2 ctx n) ctx 0
    | 2, some b =>
      if !canAccept s (parseMsg b) then s
      else (takeLaunch s b true { num := 0, ctx := ctx, msg := {}, sys := systemBox n, slot := some n }).2
    | _, _ => s

/-! ### The queues of a die -/

/-- Children of one deterministic parent stand in (parent sid, call index) order (R317). -/
def orderChildren (s : State) (q : List Nat) : List Nat :=
  let detParent (k : Nat) : Option Nat := (s.launch k).parent.filter fun p => isDet (s.launch p)
  let before (a b : Nat) : Bool :=
    let x := (s.launch a).order
    let y := (s.launch b).order
    decide (x.1 < y.1 ∨ (x.1 = y.1 ∧ x.2 ≤ y.2))
  q.mapIdx fun i k =>
    match detParent k with
    | none => k
    | some p =>
      let group := q.filter fun j => detParent j == some p
      let rank := ((q.take i).filter fun j => detParent j == some p).length
      (sortBy before group).getD rank k

/-- Launches of a die's queues in the order the die considers them (R308): those whose waits are over, by priority. -/
def dieOrder (s : State) (die : Nat) : List Nat :=
  let q := (s.dies.getD die {}).queue.filter fun k => (s.launch k).phase == .queued
  (List.range 8).reverse.flatMap fun p => orderChildren s (q.filter fun k => priority (s.launch k) == p)

/-- A gang that is not ACTIVE keeps its launches out (R341). -/
def gangActive (s : State) (g : Nat) : Bool :=
  g == 0 || match sfind s.fabric.gangs g with
    | some x => !(x.swept || x.sweeping)
    | none => true

/-- The context's launches may be placed or restored (R325, R341). -/
def mayPlace (s : State) (l : Launch) : Bool := !(s.context l.ctx).hold && gangActive s l.msg.gang

/-- What of a launch a cluster would take next: a continuation strand, or its next hank of that die. -/
inductive Next
  | cont (c : Nat × Nat × List EmitRec) | hank (h : Nat)
  deriving DecidableEq, Repr, Inhabited

def nextOf (l : Launch) (die : Nat) : Option Next :=
  match l.conts with
  | c :: _ => some (.cont c)
  | [] => (l.unplaced.find? fun h => (hankDies l h).contains die).map Next.hank

/-- The free blocks of a context's save area suffice for n skeins (R331). -/
def blocksFor (s : State) (ctx n : Nat) : Bool := (s.context ctx).blocks.length + n ≤ blkCount s ctx

/-- Seats for what is next of a launch on a cluster; a hank of a CONCURRENT launch needs all of them placed (R311).
DESIGN CHOICE: log entry 18, unsafe. -/
def seatsOn (s : State) (key cluster : Nat) (x : Next) : Option (List Seat) :=
  let l := s.launch key
  let rooms := clusterRooms s cluster (s.context l.ctx).world l.sys false
  match x with
  | .cont _ => if blocksFor s l.ctx 1 then (takeHank (shapeOf l true) 1 rooms).map (·.1) else none
  | .hank _ => if blocksFor s l.ctx (hankSize l) then (takeHank (shapeOf l false) (hankSize l) rooms).map (·.1) else none

/-- All hanks of a CONCURRENT launch as the package stands. -/
def seatsAll (s : State) (l : Launch) : Option (List (Nat × List Seat)) :=
  if blocksFor s l.ctx (hankSize l * l.unplaced.length) then
    placeAll l (shapeOf l false) l.unplaced (allRooms s (s.context l.ctx).world l.sys false)
  else none

/-- The launch would put something on the die now. Saved hanks come first, and are another event's (R337). -/
def wouldPlace (s : State) (key die : Nat) : Bool :=
  let l := s.launch key
  if !mayPlace s l || !l.held.isEmpty then false
  else
    match nextOf l die with
    | none => false
    | some (.cont c) => (upFrom (4 * die) 4).any fun k => (seatsOn s key k (.cont c)).isSome
    | some (.hank h) =>
      if isConcurrent l then (seatsAll s l).isSome
      else (upFrom (4 * die) 4).any fun k => (seatsOn s key k (.hank h)).isSome

/-- A launch with nothing left to place leaves the queues. -/
def leaveQueues (s : State) (key : Nat) : State :=
  let l := s.launch key
  if l.unplaced.isEmpty && l.held.isEmpty then
    { s with dies := s.dies.map fun d => { d with queue := d.queue.filter (· != key) } }
  else s

end Sys2Proof.Machine
end

