-- ==== Sys2Proof/Machine/Message.lean ====
section
/-!
DEFINITION. MAIL (R204), EMIT (R205) and LAUNCH (R238).
-/

namespace Sys2Proof.Machine

/-! ### MAIL -/

/-- The message in 16 uniform registers: its bytes, and whether a word of it is poisoned. -/
def mailBytes (st : Strand) (a : Nat) : List Byte × Bool :=
  let ws := (upFrom a 16).map fun r => st.readS r 1
  (ws.flatMap fun w => toBytes 4 w.w.toNat, ws.any (·.poison))

/-- A message for a mailbox on a peer (R381): the number of the mailbox behind the address is the peer's to know.
DESIGN CHOICE: log entry 29, unsafe. -/
def mailPeer (s : State) (u rank : Nat) (bytes : List Byte) : State :=
  let st := s.strand u
  let l := s.launch st.launch
  let (seq, s) := s.newId
  let n := Config.freeNat s.fresh % 4096
  { s with fresh := s.fresh + 1 }.sendPeer 5 2 l.msg.gang rank l.msg.grank n (respTag s st seq) 0 bytes

/-- The slot at the target, checked (R204): a page with ORD = 0b01 and a bound slot. -/
def mailTarget (s : State) (ctx : Nat) (f : Fate) : Option (Option Nat) :=
  match f with
  | .hit (.loc l) leaf => if leafOrd leaf = 1 then (mailboxAt s ctx l).map some else none
  | .hit (.peer _ _) leaf => if leafOrd leaf = 1 then some none else none
  | _ => none

/-- The message stored in its turn, as one strong store (R204, R302). -/
def mailPut (cx : Cx) (f : Fate) (n : Option Nat) (s : State) : Eff :=
  let st := s.strand cx.u
  let ctx := s.ctxOf st
  let (bytes, poison) := mailBytes st cx.raw.a
  match f, n with
  | .hit (.loc l) _, some n =>
    hostFree s [(l, 64)] fun s =>
      match slotTurn s ctx n cx.u l bytes with
      | (true, s) => .done s poison
      | (false, s) => .wait (.slot n) s
  | .hit (.peer slot _) _, _ => .done (mailPeer s cx.u ((peerRank s ctx slot).getD 0) bytes) poison
  | _, _ => .done s poison

/-- MAIL (R204). -/
def execMail (o : MailOp) (s : State) : Host.Outcome State Fault Refusal :=
  issue (.mail o) s fun cx s =>
    let st := s.strand cx.u
    let b := st.readS o.b 2
    let x : Ea := { thread := st.lowest cx.mask, lane := 0, va := b.val, base := b.tag, idx := 0, poison := b.poison }
    withAddrs [x] 64 true s fun s =>
      let (fs, s) := fates s cx.u true .atomic 64 [x]
      withHits fs 2 s (fun ps s => parkUnder s cx.u ps true false) fun s =>
        let f := (fs.headD (x, .absent 0)).2
        match mailTarget s (s.ctxOf st) f with
        | none => .trap { cause := 0x21, sub := 5, addr := x.va } s
        | some n =>
          if anyHeld s cx.u [x] 64 then .wait .scoreboard s
          else
            release s cx.u cx.site.pc cx.mask o.scope fun s =>
              match mailPut cx f n s with
              | .done s p => .done s (p || b.poison)
              | e => e

/-! ### EMIT -/

/-- The generation of a strand: 0 for the grid, or that in which its continuation was formed (R316). -/
def generationOf (l : Launch) (st : Strand) (idx : Nat) : Nat :=
  if st.cont then (l.gens.lookup (idx - gridSkeins l)).getD 0 else 0

/-- The continuation record of one active lane (R205). -/
def emitRec (s : State) (cx : Cx) (entry i : Nat) : EmitRec × Bool :=
  let st := s.strand cx.u
  let l := s.launch st.launch
  let idx := ((sfind s.skeins st.skein).map (·.index)).getD 0
  let ws := (upFrom cx.raw.a 14).map fun r => (st.thread i).readV r 1
  ({ launch := st.launch, sid := st.sid, call := st.emits, lane := (st.thread i).lane, gen := generationOf l st idx
     entry := entry, words := ws.map fun w => (w.w, if st.tagEn then w.tag else 0)
     arrived := (s.dies.getD (dieOfCore st.core) {}).cycle }, ws.any (·.poison))

/-- EMIT (R205, R315): one record for each active lane, to the dispatcher of the strand's die. -/
def execEmit (o : EmitOp) (s : State) : Host.Outcome State Fault Refusal :=
  issue (.emit o) s fun cx s =>
    let st := s.strand cx.u
    let b := st.readS o.b 2
    let lane := (st.thread (cx.act.headD 0)).lane
    match addrFault b.val 4 with
    | some c => addrTrap c b.val lane (some (st.laneMask cx.act)) b.tag 0 false s
    | none =>
      let die := dieOfCore st.core
      if 256 < (s.dies.getD die {}).intake.length + cx.act.length then .wait .dispatcher s
      else
        let rs := cx.act.map (emitRec s cx b.val)
        let s := s.modStrand cx.u fun st => { st with emits := st.emits + 1 }
        .done { s with dies := s.dies.mapIdx fun i d => if i = die then { d with intake := d.intake ++ rs.map (·.1) } else d }
          (b.poison || rs.any (·.2))

/-! ### LAUNCH -/

/-- The record read as a strong load; a record on a peer comes in a response. -/
def readRecord (cx : Cx) (f : Fate) (va : Nat) (s : State) (k : List Byte → Bool → State → Eff) : Eff :=
  match f with
  | .hit (.loc l) _ =>
    let s := s.settle l 64
    let r := loadAt (viewOf s cx.u) l 64 false
    k (r.words.flatMap fun w => toBytes 4 w.toNat) r.poison s
  | .hit (.peer slot pa) _ =>
    match peerBytes s cx.u 0 ((peerRank s (s.ctxOf (s.strand cx.u)) slot).getD 0) pa 64 va with
    | .ok bs s => k bs false s
    | .bad f a s => let t := f.trap 0; .trap { cause := t.1, sub := t.2, addr := a } s
    | .absent _ s | .later s => .wait .peer s
  | _ => k [] false s

/-- The launch handed over (R238, R305).
DEDUCED: log entry 40, unsafe. -/
def handOver (o : LaunchOp) (cx : Cx) (bytes : List Byte) (poison : Bool) (s : State) : Eff :=
  let st := s.strand cx.u
  let bytes := if o.h.form.isLit then patch bytes 0 (toBytes 8 o.lit.toNat) else bytes
  if !canAccept s (parseMsg bytes) then .wait .dispatcher s
  else
    let s := dropPeerBytes s cx.u 0
    let (key, s) := takeLaunch s bytes true
      { num := 0, ctx := s.ctxOf st, msg := {}, parent := some st.launch, order := (st.sid, st.launches) }
    let n := (s.launch key).num
    .done (writeU (s.modStrand cx.u fun st => { st with launches := st.launches + 1 }) cx o.d [BitVec.ofNat 32 n] 0) poison

/-- LAUNCH (R238). -/
def execLaunch (o : LaunchOp) (s : State) : Host.Outcome State Fault Refusal :=
  issue (.launch o) s fun cx s =>
    let st := s.strand cx.u
    let b := st.readS o.b 2
    let x : Ea := { thread := st.lowest cx.mask, lane := 0, va := b.val, base := b.tag, idx := 0, poison := b.poison }
    withAddrs [x] 64 true s fun s =>
      let (fs, s) := fates s cx.u true .load 64 [x]
      withHits fs 0 s (fun ps s => parkUnder s cx.u ps false false) fun s =>
        if anyHeld s cx.u [x] 64 then .wait .scoreboard s
        else
          release s cx.u cx.site.pc cx.mask 3 fun s =>
            readRecord cx (fs.headD (x, .absent 0)).2 x.va s fun bytes poison s => handOver o cx bytes (poison || b.poison) s

end Sys2Proof.Machine
end

