-- ==== Sys2Proof/Machine/Boxes.lean ====
section
/-!
DEFINITION. Events at mailboxes: arrival (R301), host writes and waiting writers (R302), and the dispatcher's intake (R304).
-/

namespace Sys2Proof.Machine

/-- A message of 64 bytes. -/
def wholeMessage (bs : List Byte) : List Byte := (bs ++ List.replicate 64 0).take 64

/-- A message sent to mailbox n, and what its kind does with it (R301). -/
def messageArrives (s : State) (ctx n : Nat) (bytes : List Byte) : State := intake (deliver s ctx 0 n (wholeMessage bytes)) ctx n

def execMailboxMessageArrival (m : MailMsg) (s : State) : Host.Outcome State Fault Refusal :=
  .next (if (sfind s.contexts m.ctx).isSome && m.n < 4096 then messageArrives s m.ctx m.n m.bytes else s)

/-- A host write discarded (R302, R307): counted, and the error mailbox hears of it, unless the slot is unbound (R301).
DEDUCED: log entry 37, unsafe. -/
def hostDiscard (s : State) (ctx n : Nat) : State :=
  match bumpCount s ctx n 24 true with
  | none => forceReset s ctx 0 1
  | some s =>
    if mbxKind s ctx n = 0 then s
    else deliver s ctx 0 2 (message [(0, 1, 3), (1, 1, 0xF0), (16, 8, mbxSlot s ctx n)])

/-- A host write at a mailbox slot: it takes a free slot whole, or is discarded.
DEDUCED: log entry 37, unsafe. -/
def hostMail (s : State) (ctx n off : Nat) (bytes : List Byte) : State :=
  match slotLoc s ctx n with
  | some loc =>
    if mbxKind s ctx n = 0 ∨ off ≠ 0 ∨ bytes.length ≠ 64 ∨ isBusy s ctx n then hostDiscard s ctx n
    else putSlot s ctx n bytes loc
  | none => hostDiscard s ctx n

def execHostMailboxWrite (m : HostMail) (s : State) : Host.Outcome State Fault Refusal :=
  .next <|
    if (sfind s.contexts m.ctx).isSome && m.n < 4096 && s.link.ready && !s.link.stopped then hostMail s m.ctx m.n m.off m.bytes
    else s

/-- The writer at the head of a slot's queue. -/
def firstWriter (s : State) (ctx n : Nat) : Option (Option Nat × List Byte) :=
  ((s.context ctx).writers.find? fun w => w.1 == n).map (·.2)

/-- The first writer of a slot's queue leaves it. -/
def dropWriter (s : State) (ctx n : Nat) : State :=
  s.modContext ctx fun c => { c with writers := c.writers.eraseP fun w => w.1 == n }

/-- A strand that waits with a MAIL tries again; a copy goes on at its slot. -/
def writerTurn (s : State) (ctx n id : Nat) : State :=
  match sfind s.strands id with
  | some st =>
    if st.threads.any fun t => t.wait == .slot n then s.wakeIf id (· == .slot n) else dropWriter s ctx n
  | none =>
    match s.cores.find? fun c => c.2.copies.any (·.id == id) with
    | some c => copyGo (modCopy s c.1 id fun x => { x with phase := .run }) c.1 id
    | none => dropWriter s ctx n

/-- A free slot's next writer delivers (R302): the device's own message at once, a strand or a copy in its turn. -/
def mailTurn (s : State) (ctx n : Nat) : State :=
  if isBusy s ctx n then s
  else
    match firstWriter s ctx n with
    | none => s
    | some (none, bytes) =>
      let s := dropWriter s ctx n
      match mbxKind s ctx n, slotLoc s ctx n with
      | 0, _ | _, none => deliver s ctx 0 n bytes
      | _, some loc => putSlot s ctx n bytes loc
    | some (some id, _) => writerTurn s ctx n id

def execMailDelivery (ctx n : Nat) (s : State) : Host.Outcome State Fault Refusal := .next (mailTurn s ctx n)

/-- LAUNCH_INTAKE; a slot that it frees may take the next message, and a rejection may be all a LAUNCH waited for (R301, R305). -/
def execLaunchIntake (ctx n : Nat) (s : State) : Host.Outcome State Fault Refusal := .next (intake s ctx n)

end Sys2Proof.Machine
end

