-- ==== Sys2Proof/Machine/Save.lean ====
section
/-!
DEFINITION. A hank saved and restored (R326 to R328, R331 to R337): stopping its strands, the images of skeins and strands in
the save area, the records of the engines, and the way back.

Software may read an image and change it. What R332 and R333 call the device's own stays in State; the rest is read back from
memory.
-/

namespace Sys2Proof.Machine

/-! ### Stopping (R326 steps 1, 2 and 4) -/

/-- The regions of threads, newest first. -/
def regionIds (st : Strand) (m : BitVec 32) : List Nat :=
  sortBy (fun a b => decide (b ≤ a)) ((maskBits m).map fun i => (st.thread i).region).dedup

/-- The current regions of threads discarded, the oldest last, and the threads that go back with them.
DEDUCED: log entry 42, unsafe. -/
def discardAll (s : State) (u : Nat) (m : BitVec 32) : BitVec 32 × State :=
  let det := isDet (s.launch (s.strand u).launch)
  (regionIds (s.strand u) m).foldl (fun r id =>
    let st := r.2.strand u
    let mine := maskOf ((maskBits m).filter fun i => (st.thread i).region == id)
    let (all, s) := discard r.2 u mine fun a b => restoreCtl a b det
    (r.1 ||| all, s)) (0, s)

/-- Threads whose regions a save discards: in trap mode only the handler's (R326 step 2). -/
def discardable (st : Strand) : BitVec 32 :=
  match st.trap with
  | none => st.liveMask
  | some _ => maskOf ((maskBits st.liveMask).filter fun i => (st.thread i).inTrap)

/-- Reserved birth indices beyond 4,095, given up as empty records (R333). -/
def giveUpIndices (s : State) (u : Nat) : State :=
  let st := s.strand u
  let late := st.reserved.drop 4095
  if late.isEmpty then s
  else
    let lanes (n : Nat) : List StLane :=
      [{ thread := 0, region := 0, lane := 32, addr := birthVA st n, tag := 0, bytes := List.replicate 32 0, closed := true }]
    let es : List BufStore := late.mapIdx fun j n =>
      { seq := s.uid + j, kind := .birth n true, pc := 0, site := 0, size := 0, rstart := 0, lanes := lanes n }
    { s with uid := s.uid + es.length }.modStrand u fun st => { st with reserved := st.reserved.take 4095, cq := st.cq ++ es }

/-- A strand stops for a save: out of the run and the carding table, its regions discarded, its threads at their region starts;
what it waited for restarts (R326, R327).
DEDUCED: log entry 42, unsafe. -/
def stopStrand (s : State) (u : Nat) : State :=
  let st := s.strand u
  if st.phase ≠ .resident then s
  else
    let s := (barwsOf st).foldl (fun s w => match w with
      | .barw loc _ _ _ _ _ => barWaiters s loc false
      | _ => s) ((s.pull u).uncard u)
    let (all, s) := discardAll s u (discardable st)
    let s := giveUpIndices s u
    let s := s.modContext (s.ctxOf st) fun c => { c with writers := c.writers.filter fun w => w.2.1 != some u }
    s.modStrand u fun st =>
      { st with
        held := true, latch := none, peerBuf := []
        threads := st.threads.mapIdx fun i t =>
          let t := { t with wait := .ready, outs := [] }
          if all.getLsbD i then { t with pc := st.startOf i } else t }

/-- Step 3 is complete for a strand: its closed stores are performed, its requests accepted (R263, R328). -/
def strandDrained (st : Strand) : Bool := st.cq.isEmpty && st.peers.all fun w => w.unsent.isNone

/-! ### The images -/

/-- Bytes at an offset. -/
abbrev Img := List (Nat × List Byte)

/-- The control registers as the slot holds them; 0x0D and 0x0F are zero. -/
def imgCtl (s : State) (st : Strand) : Img :=
  (List.range 18).map fun n => (0x500 + 8 * n, toBytes 8 (ctlRead s st n).toNat)

def imgThread (st : Strand) (i : Nat) : Img :=
  let t := st.thread i
  let flags := bit t.live + 2 * bit t.exited + 4 * bit t.inTrap + 8 * bit t.ended
  [(0x600 + 32 * i, toBytes 8 (byteOf t.pc) ++ toBytes 8 (byteOf (st.startOf i)) ++ toBytes 1 t.lane ++ [t.p] ++
      toBytes 1 t.stack.length ++ toBytes 1 flags ++ List.replicate 12 0)] ++
    t.stack.reverse.mapIdx fun j pc => (0x1000 + 512 * i + 8 * j, toBytes 8 (byteOf pc))

def imgSpan (d : Nat) (sp : Span) : Img :=
  [(0xA00 + 64 * d, toBytes 8 (byteOf sp.handler) ++ toBytes 1 (bit sp.p) ++ List.replicate 7 0 ++
      (List.range 32).flatMap (fun t => toBytes 1 (sp.depths.getD t 0)) ++ List.replicate 16 0)]

def imgUniform (st : Strand) : Img :=
  [(0xB00, (List.range 64).flatMap fun r => toBytes 4 (sget {} st.s r).val.toNat),
   (0xC00, (List.range 64).flatMap fun r => toBytes 2 (sget {} st.s r).tag.toNat)]

def imgQueues (st : Strand) : Img :=
  ((List.range 8).flatMap fun j =>
    ((st.q.getD j []).mapIdx fun e ws =>
      [(0x5000 + 512 * j + 128 * e, (List.range 32).flatMap fun l => toBytes 4 (ws.getD l {}).val.toNat),
       (0x6000 + 256 * j + 64 * e, (List.range 32).flatMap fun l => toBytes 2 (ws.getD l {}).tag.toNat)]).flatten)

/-- The vector registers of every thread. -/
def imgVector (st : Strand) : Img :=
  (List.range st.regs).flatMap fun r =>
    let ws := (List.range 32).map fun t => sget {} (st.thread t).v r
    [(0x8000 + 128 * r, ws.flatMap fun w => toBytes 4 w.val.toNat), (0x10000 + 64 * r, ws.flatMap fun w => toBytes 2 w.tag.toNat)]

/-- What of a copy remains: bytes, or entries. -/
def Copy.left (c : Copy) : Nat := if c.mode = 0 then c.len - c.done else (c.len - c.done + 127) / 128

/-- A copy's record; a stopped one is left by its fault (R336). -/
def copyRecord (c : Copy) : List Byte :=
  let parked := match c.phase with | .parked _ => 2 | _ => 0
  toBytes 8 (c.dst + c.done) ++ toBytes 8 (c.src + c.done) ++ toBytes 4 c.left ++ toBytes 1 c.mode ++ toBytes 1 parked ++
    [0, 0] ++ toBytes 8 c.bar ++ toBytes 4 (batchNumber c.batch) ++ toBytes 1 c.scope ++ [0, 0, 0] ++ toBytes 2 c.stream ++
    List.replicate 22 0

def stoppedCopy (f : EngFault) : List Byte :=
  List.replicate 21 0 ++ [1] ++ List.replicate 10 0 ++ toBytes 4 (batchNumber f.batch) ++ List.replicate 12 0 ++
    toBytes 8 f.addr ++ toBytes 1 f.cause ++ toBytes 1 f.sub ++ List.replicate 6 0

/-- RPROG of an operation's tile, and of the dW tile. -/
def MOp.progs (o : MOp) : Nat × Nat :=
  if o.kind = .mmd ∧ o.stage = 1 then ((o.stages.getD 0 (0, 8, 8)).2.2 / 8, o.prog) else (o.prog, 0)

def mopRecord (o : MOp) : List Byte :=
  (o.words ++ [0, 0, 0]).take 3 |>.flatMap (toBytes 4) |>.append <|
    [1] ++ toBytes 1 o.pass ++ toBytes 1 o.progs.1 ++ toBytes 1 o.progs.2 ++
    ((List.range 3).flatMap fun j => (List.range 8).flatMap fun w => toBytes 4 (((o.descs.getD j []).getD w 0).toNat)) ++
    toBytes 8 o.bitmap ++ List.replicate 10 0 ++ toBytes 1 o.partRow ++ [0] ++ toBytes 4 o.partGroup ++ List.replicate 120 0

def stoppedMop (f : EngFault) : List Byte :=
  (f.words ++ [0, 0, 0]).take 3 |>.flatMap (toBytes 4) |>.append <|
    [2] ++ List.replicate 107 0 ++ toBytes 8 f.addr ++ toBytes 1 f.cause ++ toBytes 1 f.sub ++ List.replicate 126 0

def wslRecord (c : WslCmd) : List Byte :=
  toBytes 8 c.blk ++ toBytes 8 (c.scale.getD 0) ++ toBytes 4 c.off ++ toBytes 1 c.dst ++ toBytes 1 c.key ++ toBytes 1 c.pushed ++
    toBytes 1 (bit c.en) ++ toBytes 4 c.sid ++ List.replicate 4 0

/-- Records in an area of n bytes, zero past them. -/
def area (n : Nat) (rs : List (List Byte)) : List Byte := (rs.flatten ++ List.replicate n 0).take n

def imgEngines (st : Strand) : Img :=
  [(0x14000, area 0x1000 (st.copies.map copyRecord ++ st.cpFaults.map stoppedCopy)),
   (0x15000, area 0x400 (st.mops.map mopRecord ++ st.mtFaults.map stoppedMop)),
   (0x15400, area 0x100 (st.peers.map fun w => toBytes 4 w.seq ++ toBytes 1 w.code ++ toBytes 1 w.size ++ List.replicate 10 0)),
   (0x16000, area 0x2000 (st.reserved.map fun n => toBytes 2 n))]

/-- A strand's slot (R333), without the device's working storage.
DEDUCED: log entry 15, safe. -/
def slotImage (s : State) (st : Strand) : Img :=
  imgCtl s st ++
    [(0x590, [st.k] ++ toBytes 1 (bit st.trap.isSome) ++ ((List.range 8).flatMap fun j => toBytes 1 (st.q.getD j []).length)),
     (0x5A0, toBytes 4 st.sid)] ++
    ((List.range st.threads.length).flatMap (imgThread st)) ++ (st.spans.mapIdx imgSpan).flatten ++ imgUniform st ++ imgQueues st ++
    imgVector st ++ imgEngines st

/-- Offsets of a skein block (R332). -/
structure Block where
  scr : Nat
  n : Nat
  ns : Nat
  a0 : Nat
  s0 : Nat
  accb : Nat
  deriving DecidableEq, Repr, Inhabited

def blockOf (l : Launch) (cont : Bool) : Block :=
  let (scratch, n, ns) := skeinShape l cont
  let r := roundScratch scratch
  { scr := r, n := n, ns := ns, a0 := 4096 * ((0x2000 + r + r / 16 + 4095) / 4096), s0 := slotsStart scratch n ns
    accb := 4096 * ((4 * n + 4112 + n / 32 + 4095) / 4096) + 12288 }

/-- A strand's accumulators, side registers, RPROG, and the row-block in progress of an SRC 2 operand; the block tag image is
the device's own: `free` gives its bytes (R332). -/
def imgAcc (b : Block) (st : Strand) (free : Nat → Byte) : Img :=
  let base := b.a0 + st.idx * b.accb
  let side (m : Sparse Word) (t : Nat) : List Byte := (List.range 128).flatMap fun r => toBytes 4 (sget 0 m (sideIdx t r)).toNat
  [(base, (List.range st.accn).flatMap fun i => toBytes 4 (accWord st i).toNat)] ++
    ((List.range 4).flatMap fun t =>
      [(base + 4 * b.n + 512 * t, side st.rowmax t), (base + 4 * b.n + 2048 + 512 * t, side st.rowsum t),
       (base + 4 * b.n + 4096 + 4 * t, toBytes 4 (st.rprog.getD t 0))]) ++
    [(base + 4 * b.n + 4112, (List.range (b.n / 32)).map free)] ++
    match st.mops.find? fun o => !o.part.isEmpty with
    | some o =>
      [(base + b.accb - 12288, ((o.part.flatten).flatMap fun w => toBytes 4 w.toNat) ++ (o.partTags.flatMap fun t => toBytes 2 t.toNat))]
    | none => []

/-- The skein's units with a command, as a map. -/
def unitMap (k : Skein) : Nat := (k.units.filter fun x => x.2.cmd.isSome).foldl (fun n x => n + 2 ^ x.1) 0

/-- Header, commands and scratchpad of a skein block (R332).
DEDUCED: log entry 15, safe. -/
def imgSkein (s : State) (k : Skein) : Img :=
  let l := s.launch k.launch
  let cont := Skein.isCont l k
  let b := blockOf l cont
  let loc := scratchLoc k.core k.base
  [(0, skeinHeader l k cont 2 k.wsl.length (unitMap k)),
   (0x900, area 0x100 (k.wsl.map wslRecord)),
   (0x2000, s.read loc b.scr ++ (List.range (b.scr / 32)).flatMap fun j => toBytes 2 (s.tagAt (loc / 32 + j)).toNat)] ++
    k.units.filterMap fun x => x.2.cmd.map fun c => (0x100 + 32 * x.1, wslRecord c)

/-- Device writes at offsets from an address. -/
def putImage (s : State) (ctx va : Nat) (img : Img) : Option State := img.foldlM (fun s x => devPut s ctx (va + x.1) x.2) s

/-! ### Saving (R326 steps 4 to 6) -/

/-- The engines' work of a strand leaves its core: copies at their sectors, operations at their row-blocks (R326 step 4). -/
def liftEngines (s : State) (u : Nat) : State :=
  let st := s.strand u
  let s := (st.mops.filter fun o => !o.due.isEmpty).foldl (fun s o => countBlock s u o) s
  let cs := (s.core st.core).copies.filter fun c => c.strand == u
  let s := s.modContext (s.ctxOf st) fun c => { c with writers := c.writers.filter fun w => !cs.any fun x => w.2.1 == some x.id }
  let ids := cs.map (·.id) ++ st.mops.map (·.id)
  let s := { s with cores := smod s.cores st.core fun c =>
    { c with copies := c.copies.filter fun x => x.strand != u, score := c.score.filter fun e => !ids.contains e.1 } }
  s.modStrand u fun st => { st with copies := cs }

/-- The WSU commands of a skein leave its core's queue; one in progress is abandoned, what it has pushed counted (R326, R336). -/
def liftWsl (s : State) (sk : Nat) : State :=
  match sfind s.skeins sk with
  | none => s
  | some k =>
    let mine := (s.core k.core).wsu.filter fun c => c.1.skein == sk
    let repeated (c : WslCmd) : Bool := c.redo && c.dst == 0 && ((sget {} k.units (c.off / 4096)).cmd.any fun d => d.seq == c.seq)
    let s := setWsu s k.core fun l => l.filter fun c => c.1.skein != sk
    let keep := (mine.map (·.1)).filter fun c => !repeated c
    { s with skeins := smod s.skeins sk fun k => { k with wsl := keep.map fun c => { c with redo := false } } }

/-- The strands of a skein, ended ones too. -/
def skeinStrands (s : State) (sk : Nat) : List Nat := (s.strands.filter fun x => x.2.skein == sk).map (·.1)

/-- Offsets of poisoned units of a slice. -/
def slicePoison (s : State) (k : Skein) (scr : Nat) : List Nat :=
  let loc := scratchLoc k.core k.base
  (s.poison.filter fun p => loc ≤ p && p < loc + scr).map (· - loc)

/-- A skein is saved: its image written, its slice cleared, its place free; none where a write is refused (R330). -/
def saveSkein (s : State) (sk : Nat) : Option State :=
  match sfind s.skeins sk with
  | none => some s
  | some k0 =>
    if k0.phase = .ended then
      some { s with skeins := smod s.skeins sk fun k => { k with phase := .terminated } }
    else
      let s := liftWsl ((skeinStrands s sk).foldl liftEngines s) sk
      let k := (sfind s.skeins sk).getD k0
      let l := s.launch k.launch
      let b := blockOf l (Skein.isCont l k)
      let va := blockVA s l.ctx k.block
      let us := skeinStrands s sk
      let accs := (us.map fun u => imgAcc b (s.strand u) fun i => Config.freeByte (s.fresh + i)).flatten
      let slots := (us.map fun u => (slotImage s (s.strand u)).map fun x => (b.s0 + 0x20000 * (s.strand u).idx + x.1, x.2)).flatten
      (putImage { s with fresh := s.fresh + b.n } l.ctx va (imgSkein s k ++ accs ++ slots)).map fun s =>
        let s := { s with skeins := smod s.skeins sk fun k => { k with poisoned := slicePoison s k b.scr } }
        let s := s.vacate sk
        let s := us.foldl (fun s u => s.modStrand u fun st => if st.phase = .resident then { st with phase := .saved } else st) s
        { s with skeins := smod s.skeins sk fun k => { k with phase := .saved } }

/-- Skeins of a hank. -/
def hankKeys (s : State) (key h : Nat) : List Nat :=
  (s.skeins.filter fun k => k.2.launch == key && k.2.hank == h).map (·.1)

/-- A launch in its die queues, in the order of acceptance (R308, R325). -/
def requeue (s : State) (key : Nat) : State :=
  let ds := (s.launch key).dies
  { s with dies := s.dies.mapIdx fun i d =>
      if ds.contains i && !d.queue.contains key then
        { d with queue := d.queue.filter (· < key) ++ [key] ++ d.queue.filter (key < ·) }
      else d }

/-- A hank saved whole, and back in its launch's queues. -/
def saveHank (s : State) (key h : Nat) : Option State :=
  ((hankKeys s key h).foldlM saveSkein s).map fun s =>
    requeue (s.modLaunch key fun l => { l with held := l.held ++ [h] }) key

/-! ### The way back (R337) -/

/-- A device read of n bytes over several pages. -/
def devGetAll (s : State) (ctx va n : Nat) : Option (List Byte) :=
  ((pageCuts va (List.replicate n 0) (n / 4096 + 2)).mapM fun p => devGet s ctx p.1 p.2.length).map List.flatten

/-- The bytes of an image that are not zero, by offset. -/
abbrev Read := Sparse Byte

def readImage (s : State) (ctx va n : Nat) : Option Read :=
  (devGetAll s ctx va n).map fun bs => (bs.zipIdx.filter fun x => x.1 != 0).map fun x => (x.2, x.1)

/-- A number of n bytes at an offset. -/
def Read.num (m : Read) (off n : Nat) : Nat :=
  let near := m.filter fun c => off ≤ c.1 && c.1 < off + n
  near.foldl (fun x c => x + c.2.toNat * 256 ^ (c.1 - off)) 0

def Read.pcAt (m : Read) (off : Nat) : BitVec 62 := BitVec.ofNat 62 (m.num off 8 / 4)

/-- A word and tag read back; its check state stays where neither has changed. -/
def wordBack (old : TWord) (val tag : Nat) : TWord :=
  let w : TWord := { val := BitVec.ofNat 32 val, tag := BitVec.ofNat 16 tag }
  if old.val = w.val ∧ old.tag = w.tag then old else w

/-- Words of a file read back: values at `at_`, tags at `tagAt`, by register. -/
def fileBack (m : Read) (old : Sparse TWord) (n : Nat) (at_ tagAt : Nat → Nat) : Sparse TWord :=
  (upFrom 1 (n - 1)).foldl (fun f r => sput {} f r (wordBack (sget {} old r) (m.num (at_ r) 4) (m.num (tagAt r) 2))) []

/-- Control registers read back; TOKS follows the launch. -/
def ctlBack (m : Read) (c : Ctl) (det : Bool) : Ctl :=
  let x (n : Nat) : BitVec 64 := BitVec.ofNat 64 (m.num (0x500 + 8 * n) 8)
  { fctl := ctlMerge 0x00 c.fctl (x 0) (BitVec.allOnes 64), tctl := x 1, rctl := x 2, chki := x 3, crew := x 4, genk := x 5
    genc := x 6, tvec := x 7, tfp := x 8, gspan := x 9, qmap := x 0x0A, batch := x 0x0C
    stfq := keepCode c.stfq (x 0x0E) 4 5 (· ≤ 16), btbase := x 0x10, btnext := if det then x 0x11 else c.btnext }

def spansBack (m : Read) (n threads : Nat) : List Span :=
  (List.range n).map fun d =>
    { handler := m.pcAt (0xA00 + 64 * d), p := m.num (0xA08 + 64 * d) 1 != 0
      depths := (List.range threads).map fun t => m.num (0xA10 + 64 * d + t) 1 }

def queuesBack (m : Read) (old : List (List (List TWord))) : List (List (List TWord)) :=
  (List.range 8).map fun j => (List.range (min 4 (m.num (0x592 + j) 1))).map fun e => (List.range 32).map fun l =>
    wordBack (((old.getD j []).getD e []).getD l {}) (m.num (0x5000 + 512 * j + 128 * e + 4 * l) 4) (m.num (0x6000 + 256 * j + 64 * e + 2 * l) 2)

/-- One thread read back. -/
def threadBack (m : Read) (regs i : Nat) (t : Thread) : Thread :=
  let b := 0x600 + 32 * i
  let flags := m.num (b + 19) 1
  let depth := min 64 (m.num (b + 18) 1)
  { t with
    pc := m.pcAt b, lane := m.num (b + 16) 1 % 32, p := BitVec.ofNat 8 (m.num (b + 17) 1), live := flags % 2 == 1
    exited := flags / 2 % 2 == 1, inTrap := flags / 4 % 2 == 1, ended := flags / 8 % 2 == 1
    stack := ((List.range depth).map fun j => m.pcAt (0x1000 + 512 * i + 8 * j)).reverse
    spilled := min t.spilled depth
    v := fileBack m t.v regs (fun r => 0x8000 + 128 * r + 4 * i) fun r => 0x10000 + 64 * r + 2 * i }

/-- A copy read back from record j. -/
def copyBack (m : Read) (c : Copy) (j : Nat) : Copy :=
  let b := 0x14000 + 64 * j
  let left := m.num (b + 16) 4
  let dst := m.num b 8
  let src := m.num (b + 8) 8
  let len := if left = c.left then c.len - c.done else if c.mode = 0 then left else 128 * left
  let batch := m.num (b + 32) 4
  { c with
    dst := dst, src := src, len := len, done := 0, bar := m.num (b + 24) 8, scope := m.num (b + 36) 1, stream := m.num (b + 40) 2
    batch := if batch = batchNumber c.batch then c.batch else batch, phase := .run }

/-- A matrix operation read back from record j. -/
def mopBack (m : Read) (o : MOp) (j : Nat) : MOp :=
  let b := 0x15000 + 256 * j
  let prog := if o.kind = .mmd ∧ o.stage = 1 then m.num (b + 15) 1 else m.num (b + 14) 1
  { o with
    phase := .run, pass := m.num (b + 13) 1, prog := prog, bitmap := m.num (b + 112) 8, partRow := m.num (b + 130) 1
    partGroup := m.num (b + 132) 4
    descs := o.descs.mapIdx fun d ws => ws.mapIdx fun w _ => BitVec.ofNat 32 (m.num (b + 16 + 32 * d + 4 * w) 4) }

/-- A WSL command read back at an offset. -/
def wslBack (m : Read) (c : WslCmd) (b : Nat) : WslCmd :=
  { c with
    blk := m.num b 8, scale := if m.num (b + 8) 8 = 0 then none else some (m.num (b + 8) 8), off := m.num (b + 16) 4
    dst := m.num (b + 20) 1 % 4, key := m.num (b + 21) 1 % 16, pushed := m.num (b + 22) 1, en := m.num (b + 23) 1 % 2 == 1 }

/-- Regions of threads whose region start software has moved (R337): one for each new start. -/
def movedRegions (s : State) (u : Nat) (m : Read) : State :=
  let st := s.strand u
  let moved := maskOf ((maskBits st.liveMask).filter fun i => m.pcAt (0x608 + 32 * i) != st.startOf i)
  (maskBits moved).foldl (fun s i => openRegion s u (BitVec.twoPow 32 i) (m.pcAt (0x608 + 32 * i)) false) s

/-- The regions that a save has discarded begin again with the control registers as restored. -/
def freshRegions (st : Strand) : Strand :=
  let kept (r : Region) : Bool := st.trap.isSome && st.threads.any fun t => t.intr == some r.id || (t.paused && t.region == r.id)
  { st with regions := st.regions.map fun r => if kept r then r else { r with ctl := st.ctl } }

/-- A strand read back into its slot (R337 steps 2, 4 and 6); `b` is its block.
DEDUCED: log entry 15, safe. -/
def strandBack (s : State) (u : Nat) (b : Block) (m a : Read) : State :=
  let st := s.strand u
  let det := isDet (s.launch st.launch)
  let part := st.mops.map fun o =>
    if o.part.isEmpty then o
    else { o with part := o.part.mapIdx fun r ws => ws.mapIdx fun c _ => BitVec.ofNat 32 (a.num (b.accb - 12288 + 4 * (r * ws.length + c)) 4) }
  let s := s.modStrand u fun st =>
    let ctl := ctlBack m st.ctl det
    let st := { st with
      ctl := ctl
      k := BitVec.ofNat 8 (m.num 0x590 1)
      s := fileBack m st.s 64 (fun r => 0xB00 + 4 * r) fun r => 0xC00 + 2 * r
      q := queuesBack m st.q
      spans := spansBack m (min 4 (cfld ctl.gspan 0 3)) st.threads.length
      threads := st.threads.mapIdx fun i t => threadBack m st.regs i t
      mops := part.mapIdx fun j o => mopBack m o j
      copies := st.copies.mapIdx fun j c => copyBack m c j
      acc := (List.range st.accn).foldl (fun f i =>
        let old := sget {} f i
        sput {} f i { old with val := BitVec.ofNat 32 (a.num (4 * i) 4) }) st.acc
      rprog := (List.range 4).map fun t => a.num (4 * b.n + 4096 + 4 * t) 4 }
    freshRegions st
  let sideBack (off : Nat) : Sparse Word :=
    (List.range 512).foldl (fun f i => sput 0 f (sideIdx (i / 128) (i % 128)) (BitVec.ofNat 32 (a.num (4 * b.n + off + 4 * i) 4))) []
  movedRegions (s.modStrand u fun st => { st with rowmax := sideBack 0, rowsum := sideBack 2048 }) u m

/-- The copies and operations of a restored strand are in flight on its core again (R337 step 6). -/
def engineBack (s : State) (u : Nat) : State :=
  let st := s.strand u
  let ctx := s.ctxOf st
  let cs := (st.copies.filter fun c => c.mode != 2 && c.len != 0).map fun c => (c.id, ctx, c.dst, c.dst + c.len)
  let ms := st.mops.flatMap fun o => o.memRanges.map fun r => (o.id, ctx, r.1, r.2)
  let c := s.core st.core
  let s := s.setCore st.core { c with copies := c.copies ++ st.copies, score := c.score ++ cs ++ ms }
  s.modStrand u fun st => { st with copies := [] }

/-- The header still names its launch and skein (R331).
DESIGN CHOICE: log entry 43, safe. -/
def headerMatches (l : Launch) (k : Skein) (bs : List Byte) : Bool :=
  let want := skeinHeader l k (Skein.isCont l k) 2 0 0
  bs.take 36 == want.take 36 && (bs.drop 64).take 64 == (want.drop 64).take 64

/-- The unit commands and the queued commands of a skein at the head of the WSU's queue, to be performed again (R236). -/
def wslAgain (s : State) (sk : Nat) (m : Read) : State :=
  match sfind s.skeins sk with
  | none => s
  | some k =>
    let units := k.units.filterMap fun x => x.2.cmd.map fun c => { wslBack m c (0x100 + 32 * x.1) with off := 4096 * x.1, dst := 0 }
    let queued := k.wsl.mapIdx fun j c => wslBack m c (0x900 + 32 * j)
    let all := (units ++ queued).map fun c => { c with redo := true }
    let pend (n : Nat) : Nat := (all.filter fun c => c.dst == 0 && c.off / 4096 == n).length
    let ns := ((all.filter fun c => c.dst == 0).map fun c => c.off / 4096).dedup
    let fresh : Sparse UnitInfo := ns.foldl (fun f n => sput {} f n { pending := pend n, cmd := (sget {} k.units n).cmd }) []
    let s := { s with skeins := smod s.skeins sk fun k => { k with units := fresh, wsl := [] } }
    setWsu s k.core fun l => all.map (fun c => (c, WsPhase.run)) ++ l

/-- A skein put back on a core (R337 steps 1 to 4 and 6); none where its block cannot be read, or its header does not match.
DEDUCED: log entry 15, safe. -/
def skeinBack (s : State) (sk : Nat) (seat : Seat) : Option State :=
  match sfind s.skeins sk with
  | none => some s
  | some k =>
    let l := s.launch k.launch
    let cont := Skein.isCont l k
    let place (st : Strand) : Strand :=
      let p := seat.2.2.getD st.idx (0, 0)
      { st with core := seat.1, part := p.1, slot := p.2 }
    let us := skeinStrands s sk
    if k.phase = .terminated then
      let s := us.foldl (fun s u => s.modStrand u place) s
      some { s with skeins := smod s.skeins sk fun k => { k with phase := .ended, core := seat.1, base := seat.2.1 } }
    else
      let b := blockOf l cont
      let va := blockVA s l.ctx k.block
      match devGetAll s l.ctx va 256, readImage s l.ctx va 0x2000, devGetAll s l.ctx (va + 0x2000) b.scr,
          devGetAll s l.ctx (va + 0x2000 + b.scr) (b.scr / 16) with
      | some h, some cmds, some img, some tags =>
        if !headerMatches l k h then none
        else
          let loc := scratchLoc seat.1 seat.2.1
          let s := s.write loc img
          let s := (List.range (b.scr / 32)).foldl (fun s j => s.setTag (loc / 32 + j) (BitVec.ofNat 16 (ofBytes ((tags.drop (2 * j)).take 2)))) s
          let s := k.poisoned.foldl (fun s o => s.poisonUnit (loc + o)) s
          let s := { s with skeins := smod s.skeins sk fun k =>
            { k with phase := .resident, core := seat.1, base := seat.2.1, poisoned := [] } }
          let s := s.serve seat.1 l.ctx (seat.2.2.map (·.1))
          let s := us.foldl (fun s u => s.modStrand u place) s
          us.foldlM (fun s u =>
            let st := s.strand u
            match readImage s l.ctx (va + b.s0 + 0x20000 * st.idx) 0x15500, readImage s l.ctx (va + b.a0 + b.accb * st.idx) b.accb with
            | some m, some a =>
              some (engineBack ((strandBack s u b m a).modStrand u fun st =>
                if st.phase = .saved then { st with phase := .resident } else st) u)
            | _, _ => none) (wslAgain s sk cmds)
      | _, _, _, _ => none

/-- New member identifiers in the CREW registers of a restored hank (R266): `olds` gives each strand's identifier before. -/
def crewBack (s : State) (olds : List (Nat × Nat)) : State :=
  olds.foldl (fun s o =>
    s.modStrand o.1 fun st =>
      let n := cfld st.ctl.crew 0 3
      let new (m : Nat) : Nat :=
        match olds.find? fun x => x.2 == m with
        | some x => (s.strand x.1).member
        | none => m
      { st with ctl := { st.ctl with crew := (List.range n).foldl (fun c j => cset c (10 + 9 * j) 9 (new (crewMember c j))) st.ctl.crew } }) s

/-- Seats for a saved hank on a cluster (R337). -/
def seatsBack (s : State) (key h cluster : Nat) : Option (List Seat) :=
  let l := s.launch key
  (takeHank (shapeOf l (2 ^ 32 ≤ h)) (hankKeys s key h).length (clusterRooms s cluster (s.context l.ctx).world l.sys false)).map (·.1)

/-- The headers of a restored hank say resident again. -/
def headersBack (s : State) (ks : List Nat) : State := ks.foldl (fun s k => if (sfind s.skeins k).isSome then writeHeaders s k 1 else s) s

/-- A hank restored on a cluster; its strands are held until its WSU commands are done (R337).
DEDUCED: log entry 41, unsafe. -/
def hankBack (s : State) (key h : Nat) (seats : List Seat) : State :=
  let l := s.launch key
  let cluster := (seats.headD (0, 0, [])).1 / 8
  let ks := hankKeys s key h
  let olds := (ks.flatMap (skeinStrands s)).map fun u => (u, (s.strand u).member)
  match (ks.zip seats).foldlM (fun s x => skeinBack s x.1 x.2) s with
  | none => forceReset { s with fresh := s.fresh + 1 } l.ctx (cluster / 4) (Config.freeByte s.fresh).toNat
  | some s =>
    let s := crewBack s olds
    let s := s.modLaunch key fun l =>
      { l with held := l.held.filter (· != h), placedAt := l.placedAt.map fun p => if p.1 = h then (h, cluster) else p }
    let s := headersBack (touchDie s (cluster / 4) l.ctx) (ks.filter fun k => (sfind s.skeins k).any fun x => x.phase == .resident)
    ((seats.map (·.1)).dedup).foldl releaseHeld s

/-- The launch would have a saved hank restored on the die now.
DEDUCED: log entry 41, unsafe. -/
def wouldRestore (s : State) (key die : Nat) : Bool :=
  mayPlace s (s.launch key) && (s.launch key).held.any fun h => (upFrom (4 * die) 4).any fun k => (seatsBack s key h k).isSome

end Sys2Proof.Machine
end

