-- ==== Sys2Proof/Machine/Work.lean ====
section
/-!
DEFINITION. Events of launches: waits (R306), placement (R308, R311, R314, R317), continuations (R315, R316), completion (R307).
-/

namespace Sys2Proof.Machine

/-- Strands that wait for the dispatchers try again (R205, R238, R308). -/
def State.wakeDispatch (s : State) : State := s.wakeAll (fun _ _ => true) (· == .dispatcher)

def isLaunch (s : State) (key : Nat) : Bool := (sfind s.launches key).any fun l => l.phase != .done

/-! ### Waits and placement -/

/-- The launches a launch waited for have completed (R306). -/
def waitOver (s : State) (key : Nat) : State :=
  let l := s.launch key
  if isLaunch s key && l.phase == .waiting && waitsDone s l then s.modLaunch key fun l => { l with phase := .queued } else s

def execLaunchWaitResolved (launch : Nat) (s : State) : Host.Outcome State Fault Refusal := .next (waitOver s launch)

/-- The launch's turn on a die: no launch considered before it has anything to put there (R308). -/
def isTurn (s : State) (key die : Nat) : Bool :=
  let order := dieOrder s die
  order.contains key && (order.takeWhile (· != key)).all fun k => !wouldPlace s k die && !wouldRestore s k die

/-- Something of a launch is placed on a cluster (R308, R311, R314, R315). -/
def placeNext (s : State) (key cluster : Nat) : State :=
  let l := s.launch key
  let die := cluster / 4
  if !(isLaunch s key && isTurn s key die && mayPlace s l && l.held.isEmpty) then s
  else
    let s' : State :=
      match nextOf l die with
      | none => s
      | some (.cont c) =>
        match seatsOn s key cluster (.cont c) with
        | some seats => startCont s key c seats
        | none => s
      | some (.hank h) =>
        if isConcurrent l then
          match seatsAll s l with
          | some all => all.foldl (fun s x => startHank s key x.1 x.2) s
          | none => s
        else
          match seatsOn s key cluster (.hank h) with
          | some seats => startHank s key h seats
          | none => s
    if (s'.launch key).placedAt.length = l.placedAt.length then s else (leaveQueues s' key).wakeDispatch

def execHankPlacement (launch cluster : Nat) (s : State) : Host.Outcome State Fault Refusal :=
  .next (if cluster < 32 then placeNext s launch cluster else s)

/-! ### Continuations -/

/-- Threads of a continuation strand (R315). -/
def contSize (l : Launch) : Nat := if l.msg.mode / 8 % 2 = 1 then 16 else 32

/-- A continuation strand of records formed, to be placed (R315). -/
def formCont (s : State) (key entry gen : Nat) (rs : List EmitRec) : State :=
  let s := s.modLaunch key fun l =>
    { l with
      records := l.records.filter fun r => !rs.contains r
      conts := l.conts ++ [(l.contCount, entry, rs)]
      gens := l.gens ++ [(l.contCount, gen)]
      contCount := l.contCount + 1 }
  requeue s key

/-- Full strands of one entry formed as records arrive, outside deterministic launches (R316). -/
def formFull (key entry : Nat) : Nat → State → State
  | 0, s => s
  | fuel + 1, s =>
    let l := s.launch key
    let rs := (l.records.filter fun r => r.entry == entry).take (contSize l)
    if isDet l || rs.length < contSize l then s else formFull key entry fuel (formCont s key entry 0 rs)

/-- The dispatcher of a die takes the records of its intake (R315). -/
def drainIntake (s : State) (die : Nat) : State :=
  let rs := (s.dies.getD die {}).intake
  if rs.isEmpty then s
  else
    let s := { s with dies := s.dies.mapIdx fun i d => if i = die then { d with intake := [] } else d }
    let s := rs.foldl (fun s r =>
      if isLaunch s r.launch then
        formFull r.launch r.entry 1 (s.modLaunch r.launch fun l => { l with records := l.records ++ [r] })
      else s) s
    s.wakeDispatch

def execEmitRecordIntake (die : Nat) (s : State) : Host.Outcome State Fault Refusal := .next (drainIntake s die)

/-- Strands of a launch that have not ended. -/
def launchLive (s : State) (key : Nat) : Bool :=
  s.strands.any fun x => x.2.launch == key && (x.2.phase == .resident || x.2.phase == .saved)

/-- A partial strand forms: its oldest record has waited 4,096 cycles, or no strand of the launch is live (R316).
DESIGN CHOICE: log entry 12, unsafe. -/
def contLate (s : State) (key entry : Nat) : Bool :=
  let l := s.launch key
  let rs := l.records.filter fun r => r.entry == entry
  let now := (s.dies.getD (l.dies.headD 0) {}).cycle
  isLaunch s key && !isDet l && !rs.isEmpty && (!launchLive s key || rs.any fun r => r.arrived + 4096 ≤ now)

def execContinuationTimeout (launch entry : Nat) (s : State) : Host.Outcome State Fault Refusal :=
  .next <|
    if contLate s launch entry then
      formCont s launch entry 0 ((s.launch launch).records.filter fun r => r.entry == entry)
    else s

/-- Nothing of a launch is left that could still run or emit. -/
def launchIdle (s : State) (key : Nat) : Bool :=
  let l := s.launch key
  l.phase == .queued && l.unplaced.isEmpty && l.held.isEmpty && l.conts.isEmpty && !launchLive s key &&
    !s.dies.any fun d => d.intake.any fun r => r.launch == key

/-- Records in the order of R316. -/
def recordLess (a b : EmitRec) : Bool :=
  decide (a.sid < b.sid ∨ (a.sid = b.sid ∧ (a.call < b.call ∨ (a.call = b.call ∧ a.lane ≤ b.lane))))

/-- Pieces of n. -/
def chunks {α : Type} (n : Nat) : Nat → List α → List (List α)
  | 0, _ => []
  | fuel + 1, l => if l.isEmpty then [] else l.take n :: chunks n fuel (l.drop n)

/-- The next generation of a deterministic launch (R316): entries in order of their first record, records packed. -/
def formGeneration (s : State) (key : Nat) : State :=
  let l := s.launch key
  if !(isLaunch s key && isDet l && launchIdle s key) || l.records.isEmpty then s
  else
    let rs := sortBy recordLess l.records
    let packs := ((rs.map (·.entry)).dedup).flatMap fun e =>
      (chunks (contSize l) rs.length (rs.filter fun r => r.entry == e)).map fun c => (e, c)
    let s := s.modLaunch key fun l => { l with gen := l.gen + 1 }
    packs.foldl (fun s p => formCont s key p.1 (l.gen + 1) p.2) s

def execGenerationFormation (launch : Nat) (s : State) : Host.Outcome State Fault Refusal := .next (formGeneration s launch)

/-! ### Completion -/

/-- Every child launch has completed (R238). -/
def childrenDone (s : State) (key : Nat) : Bool := s.launches.all fun l => l.2.parent != some key || l.2.phase == .done

/-- A launch whose last strand has ended, with its children's and continuations', completes (R307). -/
def launchDone (s : State) (key : Nat) : State :=
  let l := s.launch key
  if !(isLaunch s key && launchIdle s key && l.records.isEmpty && childrenDone s key) || s.skeins.any fun k => k.2.launch == key then s
  else
    let s := s.modLaunch key fun l => { l with status := bit (l.nterm != 0) }
    let s := orReset (finishLaunch s key) l.ctx (l.dies.headD 0)
    (s.wakeAll (fun _ _ => true) fun w => w == .quiet l.ctx).wakeDispatch

def execLaunchCompletion (launch : Nat) (s : State) : Host.Outcome State Fault Refusal := .next (launchDone s launch)

end Sys2Proof.Machine
end

