-- ==== Sys2Proof/Machine/Preempt.lean ====
section
/-!
DEFINITION. Pre-emption (R325 to R330), the context control page (R380), restore (R337), and the dispatcher's own pre-emption
for the bobbin (R322).
-/

namespace Sys2Proof.Machine

/-! ### Requests -/

/-- Every hank of a context that has a skein on a named die; a CONCURRENT launch loses all its hanks together (R325).
DEDUCED: log entry 41, unsafe. -/
def hanksTaken (s : State) (mine : Skein → Bool) : List (Nat × Nat) :=
  let here := (s.skeins.filter fun k => k.2.phase == .resident && mine k.2).map fun k => (k.2.launch, k.2.hank)
  let all := (s.skeins.filter fun k =>
    k.2.phase == .resident && isConcurrent (s.launch k.2.launch) && here.any fun h => h.1 == k.2.launch).map fun k => (k.2.launch, k.2.hank)
  (here ++ all).dedup

/-- Hanks taken by a context's pre-emption: their strands stop (R326 steps 1 and 2). -/
def takeHanks (s : State) (ctx : Nat) (hs : List (Nat × Nat)) : State :=
  let old := ((s.context ctx).pre.map (·.hanks)).getD []
  let new := hs.filter fun h => !old.contains h
  let s := s.modContext ctx fun c => { c with pre := c.pre.map fun p => { p with hanks := p.hanks ++ new } }
  (new.flatMap fun h => (hankKeys s h.1 h.2).flatMap (skeinStrands s)).foldl stopStrand s

/-- A request: it starts a pre-emption, or joins the one in progress (R325, R330). -/
def request (s : State) (ctx : Nat) (dies : List Nat) (hold control gang : Bool) (hs : List (Nat × Nat)) : State :=
  let s := s.modContext ctx fun c =>
    let p := c.pre.getD { dies := [], hanks := [], control := false, gang := false }
    let new := dies.filter fun d => !p.dies.any fun x => x.1 == d
    { c with
      hold := c.hold || hold
      pre := some { p with
        dies := p.dies ++ new.map fun d => (d, (s.dies.getD d {}).cycle)
        control := p.control || control, gang := p.gang || gang } }
  takeHanks s ctx hs

def ctxOfSkein (s : State) (k : Skein) : Nat := (s.launch k.launch).ctx

/-- The hanks of a context on dies. -/
def contextHanks (s : State) (ctx : Nat) (dies : List Nat) : List (Nat × Nat) :=
  hanksTaken s fun k => ctxOfSkein s k == ctx && dies.contains (dieOfCore k.core)

/-! ### The context control page (R380) -/

/-- Fields of the page as the host's write leaves them, with a STATUS. -/
def putControl (s : State) (ctx cmd status : Nat) (hold : Bool) (dies : Nat) : State :=
  let page := (s.context ctx).control
  if page = 0 then s else s.write page (toBytes 8 (cmd % 8 + 8 * bit hold + 256 * status + 2 ^ 40 * dies))

/-- The context has a control page, and the host can reach it. -/
def hasControl (s : State) (ctx : Nat) : Bool :=
  (sfind s.contexts ctx).any (fun c => c.control != 0) && s.link.ready && !s.link.stopped

/-- STATUS of the page. -/
def statusOf (s : State) (ctx : Nat) : Nat := s.readNat ((s.context ctx).control + 1) 1

/-- PREEMPT: a new pre-emption, or one joined; without a named die it is refused. -/
def hostPreempt (s : State) (ctx : Nat) (dies : BitVec 8) (hold : Bool) : State :=
  let ds := (List.range 8).filter fun d => dies.getLsbD d
  if !hasControl s ctx then s
  else if statusOf s ctx = 1 then
    let old := s.readNat ((s.context ctx).control + 5) 1
    let s := s.write ((s.context ctx).control + 5) (toBytes 1 (Nat.lor old dies.toNat))
    request s ctx ds hold true false (contextHanks s ctx ds)
  else if ds.isEmpty then putControl s ctx 1 3 hold 0
  else request (putControl s ctx 1 1 hold dies.toNat) ctx ds hold true false (contextHanks s ctx ds)

def execPreempt (ctx : Nat) (dies : BitVec 8) (hold : Bool) (s : State) : Host.Outcome State Fault Refusal :=
  .next (hostPreempt s ctx dies hold)

/-- CMD 2: the hold ends. The STATUS that follows is not given: 0 or 2.
DESIGN CHOICE: log entry 43, safe. -/
def execReleaseHold (ctx : Nat) (s : State) : Host.Outcome State Fault Refusal :=
  .next <|
    if !hasControl s ctx || statusOf s ctx == 1 then s
    else
      let v := 2 * (Config.freeNat s.fresh % 2)
      putControl ({ s with fresh := s.fresh + 1 }.modContext ctx fun c => { c with hold := false }) ctx 2 v false 0

/-- A CMD that names no command is refused. -/
def execControlCmdInvalid (ctx cmd : Nat) (s : State) : Host.Outcome State Fault Refusal :=
  .next <|
    if !hasControl s ctx || statusOf s ctx == 1 || cmd % 8 == 1 || cmd % 8 == 2 then s else putControl s ctx cmd 3 false 0

/-! ### The save -/

/-- The strands of hanks. -/
def hankStrands (s : State) (hs : List (Nat × Nat)) : List Nat := hs.flatMap fun h => (hankKeys s h.1 h.2).flatMap (skeinStrands s)

/-- A context's pre-emption goes on: closed stores commit, and once all have, the hanks are saved and the requester hears of it
(R326 steps 3 to 6). -/
def saveContext (s : State) (ctx : Nat) : State :=
  match (s.context ctx).pre with
  | none => s
  | some p =>
    let us := hankStrands s p.hanks
    let s := us.foldl (fun s u => commitPass s u fun _ => true) s
    if (s.context ctx).pre.isNone || us.any fun u => !strandDrained (s.strand u) then s
    else
      let hs := p.hanks.filter fun h => (hankKeys s h.1 h.2).any fun k => (sfind s.skeins k).any fun x => x.phase == .resident
      match hs.foldlM (fun s h => saveHank s h.1 h.2) s with
      | none => forceReset s ctx ((p.dies.headD (0, 0)).1) 0
      | some s =>
        match headerPut s ctx with
        | none => forceReset s ctx ((p.dies.headD (0, 0)).1) 0
        | some s =>
          let s := if p.control then s.setStatus ctx 2 else s
          s.modContext ctx fun c => { c with pre := none }

/-- A die's save has missed DEADLINE (R330).
DESIGN CHOICE: log entry 12, unsafe. DEDUCED: log entry 63, unsafe. -/
def saveLate (s : State) (ctx die : Nat) : Bool :=
  (s.context ctx).pre.any fun p => p.dies.any fun d => d.1 == die && d.2 + (s.context ctx).deadline < (s.dies.getD die {}).cycle

/-- DEDUCED: log entry 63, unsafe. -/
def execSaveDeadlineExpiry (ctx die : Nat) (s : State) : Host.Outcome State Fault Refusal :=
  .next (if saveLate s ctx die then forceReset s ctx die 0 else s)

/-! ### Restore -/

/-- A saved hank, named by the key of one of its skeins, is restored on a cluster when its launch's turn comes (R337).
DEDUCED: log entry 41, unsafe. -/
def restore (s : State) (skein cluster : Nat) : State :=
  match sfind s.skeins skein with
  | none => s
  | some k =>
    let die := cluster / 4
    let order := dieOrder s die
    let first := order.contains k.launch && (order.takeWhile (· != k.launch)).all fun l => !wouldPlace s l die && !wouldRestore s l die
    if 32 ≤ cluster || !first || !mayPlace s (s.launch k.launch) || !(s.launch k.launch).held.contains k.hank then s
    else
      match seatsBack s k.launch k.hank cluster with
      | none => s
      | some seats => leaveQueues (hankBack s k.launch k.hank seats) k.launch

def execContextRestore (hank cluster : Nat) (s : State) : Host.Outcome State Fault Refusal := .next (restore s hank cluster)

/-! ### The bobbin's strand (R322) -/

/-- The identifier of the skein of a strand: its index in the launch. -/
def bobbinSkein (l : Launch) : Nat := l.holder / max l.msg.nstrand 1

/-- The skein the bobbin waits for is resident. -/
def bobbinResident (s : State) (key : Nat) : Bool :=
  s.skeins.any fun k => k.2.launch == key && k.2.index == bobbinSkein (s.launch key) && k.2.placed

/-- The resident skein of a launch with the highest identifier. -/
def highestSkein (s : State) (key : Nat) : Option Skein :=
  (s.skeins.filter fun k => k.2.launch == key && k.2.phase == .resident).foldl (fun b k => match b with
    | none => some k.2
    | some x => if x.index < k.2.index then some k.2 else some x) none

/-- What the bobbin waits for, as a cluster would take it: a saved hank, a continuation strand, or a hank not yet placed. -/
inductive Awaited
  | saved (h : Nat) (seats : List Seat) | cont (c : Nat × Nat × List EmitRec) (seats : List Seat) | hank (h : Nat) (seats : List Seat)
  deriving DecidableEq, Repr, Inhabited

def awaitedOn (s : State) (key cluster : Nat) : Option Awaited :=
  let l := s.launch key
  let idx := bobbinSkein l
  match s.skeins.find? fun k => k.2.launch == key && k.2.index == idx && k.2.phase == .saved with
  | some k => (seatsBack s key k.2.hank cluster).map (Awaited.saved k.2.hank)
  | none =>
    match l.conts.find? fun c => gridSkeins l + c.1 == idx with
    | some c => (seatsOn s key cluster (.cont c)).map (Awaited.cont c)
    | none =>
      let h := hankOf l idx
      if l.unplaced.contains h then (seatsOn s key cluster (.hank h)).map (Awaited.hank h) else none

/-- The awaited skein takes the cluster that a pre-emption has freed. -/
def placeAwaited (s : State) (key cluster : Nat) : State :=
  match awaitedOn s key cluster with
  | some (.saved h seats) => hankBack s key h seats
  | some (.cont c seats) => startCont s key c seats
  | some (.hank h seats) => startHank s key h seats
  | none => s

/-- The dispatcher pre-empts the resident skein of highest identifier, its hank with it, and puts the awaited skein in its
place (R322, R325). The save is done at once where it can be, and goes on as any other where stores are still parked. -/
def bobbinTurn (s : State) (key : Nat) : State :=
  let l := s.launch key
  if !(isLaunch s key && l.phase == .queued && isDet l) || bobbinResident s key || !mayPlace s l ||
      (List.range 32).any fun c => (awaitedOn s key c).isSome then s
  else
    match highestSkein s key with
    | none => s
    | some k =>
      let cluster := k.core / 8
      let s := request s l.ctx [cluster / 4] false false false [(key, k.hank)]
      let s := saveContext s l.ctx
      if (s.context l.ctx).pre.isSome then s else leaveQueues (placeAwaited s key cluster) key

def execBobbinPreempt (launch : Nat) (s : State) : Host.Outcome State Fault Refusal := .next (bobbinTurn s launch)

end Sys2Proof.Machine
end

