-- ==== Sys2Proof/Machine/Fabric.lean ====
section
/-!
DEFINITION. The fabric's packets: what a package performs for another one (R191, R262, R279, R381 to R383), and packets of
gangs being switched (R339, R340, R342).
-/

namespace Sys2Proof.Machine

/-! ### Flows -/

/-- The next SEQ a flow expects (R340). -/
def nextSeq (l : List (Nat × Nat × Nat × Nat × Nat)) (gang srank drank vc : Nat) : Nat :=
  ((l.find? fun e => e.1 == gang && e.2.1 == srank && e.2.2.1 == drank && e.2.2.2.1 == vc).map (·.2.2.2.2)).getD 0

/-- A flow's counter set. -/
def putSeq (l : List (Nat × Nat × Nat × Nat × Nat)) (gang srank drank vc n : Nat) : List (Nat × Nat × Nat × Nat × Nat) :=
  l.filter (fun e => !(e.1 == gang && e.2.1 == srank && e.2.2.1 == drank && e.2.2.2.1 == vc)) ++
    [(gang, srank, drank, vc, n % 2 ^ 32)]

def State.modFabric (s : State) (f : Fabric → Fabric) : State := { s with fabric := f s.fabric }

def State.gang (s : State) (g : Nat) : Gang := sget {} s.fabric.gangs g

def State.modGang (s : State) (g : Nat) (f : Gang → Gang) : State :=
  s.modFabric fun x => { x with gangs := sput {} x.gangs g (f (sget {} x.gangs g)) }

/-- The context here that holds a gang rank (R279). -/
def rankContext (s : State) (gang rank : Nat) : Option Nat :=
  (s.launches.find? fun l => l.2.phase != .done && l.2.msg.gang == gang && l.2.msg.grank == rank).map (·.2.ctx)

/-- The route table sends a rank's packets to another chip (R382). -/
def elsewhere (s : State) (gang rank : Nat) : Bool :=
  ((s.gang gang).routes.lookup rank).any (· != 0) && (rankContext s gang rank).isNone

/-! ### A packet performed -/

/-- Bytes at an address of this package that a context's world may use (R279, R361). -/
def peerMay (s : State) (ctx pa n : Nat) : Bool :=
  n != 0 && pa + n ≤ 2 ^ 41 && potRange s (s.context ctx).world false pa n && !inFirmware pa n

/-- A response or acknowledgement to a packet's source: `code` is 0, or a cause and 256 times its sub-cause.
DEDUCED: log entry 28, unsafe. -/
def respond (s : State) (q : Packet) (type code : Nat) (bs : List Byte) : State :=
  s.sendPeer type 1 q.gang q.srank q.drank 0 q.rtag (BitVec.ofNat 256 code) bs

/-- Fields of OPS (`opsOf`): operand, operation, bytes. -/
def opsOperand (q : Packet) : Nat := fld q.ops.toNat 0 128
def opsCode (q : Packet) : Nat := fld q.ops.toNat 128 8
def opsBytes (q : Packet) : Nat := fld q.ops.toNat 136 16

/-- The tag of what another package writes here (R117). -/
def peerWriteTag (q : Packet) : Tag := BitVec.ofNat 16 (0xD000 + q.srank % 4096)

/-- The host may hold a line of the range: the packet waits for the answer to its back-invalidation (R379). -/
def lineFree (s : State) (pa n : Nat) (k : State → Option State × State) : Option State × State :=
  match heldLines s [(pa, List.replicate n 0, 0)] with
  | [] => k s
  | hs => (none, s.snoop hs)

/-- A barrier operation of a peer (R196, R197, R199). -/
def peerBarrier (s : State) (p : HeldPacket) : State :=
  let q := p.pkt
  let x := barRead s q.addr
  let v := opsOperand q
  let word (n : Nat) : List Byte := toBytes 4 n
  if opsCode q = opsBarv then
    match arriveFault x false (v % 2 ^ 32) (v / 2 ^ 32 % 2 ^ 32) with
    | some (c, sub) => respond (if c = 0x34 then barWrite s q.addr (barSetOvr x) else s) q 4 (c + 256 * sub) []
    | none => respond (barWrite s q.addr (barArrive x (v % 2 ^ 32) (v / 2 ^ 32 % 2 ^ 32))) q 4 0 (word (barPh x))
  else if opsCode q = opsBarw then
    if barBad x then respond s q 4 0x35 []
    else if barPh x ≠ v % 16 then respond s q 4 0 (word 1)
    else if v / 2 ^ 32 % 2 ^ 32 = 0 then respond s q 4 0 (word 0)
    else
      let now := (s.dies.getD (q.addr / 2 ^ 38) {}).cycle
      (barWaiters s q.addr true).modFabric fun f => { f with waiting := f.waiting ++ [(p, now)] }
  else if opsCode q = opsPendUp then
    if barPend x = 0xFFFF then respond s q 4 0x235 [] else respond (barWrite s q.addr (setFld x 48 16 (barPend x + 1))) q 4 0 []
  else respond (barWrite s q.addr (barComplete x v)) q 4 0 []

/-- An atomic of a peer (R190, R191): the old value goes back. -/
def peerAtom (s : State) (q : Packet) : State :=
  let n := if opsBytes q = 8 then 8 else 4
  let new (old : Nat) : Option Nat :=
    if opsCode q = opsCas then
      if old = opsOperand q % 2 ^ (8 * n) then some (opsOperand q / 2 ^ (8 * n) % 2 ^ (8 * n)) else none
    else some (atomNew (opsCode q) (8 * n) old (opsOperand q % 2 ^ (8 * n)))
  let r := rmw s q.addr n (peerWriteTag q) new
  respond r.s q 4 0 (r.words.flatMap fun w => toBytes 4 w.toNat)

/-- A packet performed here (R262, R383). Without a new state it waits: for the host to answer a back-invalidation, or for a
mailbox's slot (R302). -/
def performPacket (s : State) (p : HeldPacket) : Option State × State :=
  let q := p.pkt
  let ctx := rankContext s q.gang q.drank
  match p.type with
  | 1 | 4 => (some (answer s q.rtag q.payload (q.ops.toNat % 2 ^ 16)), s)
  | 6 => (some (acknowledge s q.rtag (q.ops.toNat % 2 ^ 16)), s)
  | 5 =>
    match ctx with
    | none => (some (respond s q 6 0x25 []), s)
    | some c =>
      if isBusy s c q.addr || (s.context c).writers.any (fun w => w.1 == q.addr) then (none, s)
      else (some (respond (messageArrives s c (q.addr % 4096) q.payload) q 6 0 []), s)
  | 0 =>
    let n := opsBytes q
    if ctx.any fun c => peerMay s c q.addr n then
      let s := s.settle q.addr n
      (some (respond s q 1 0 (s.read q.addr n)), s)
    else (some (respond s q 1 0x25 []), s)
  | 2 =>
    if ctx.any fun c => peerMay s c q.addr q.payload.length then
      lineFree s q.addr q.payload.length fun s => (some (respond (perform s [(q.addr, q.payload, peerWriteTag q)]) q 6 0 []), s)
    else (some (respond s q 6 0x25 []), s)
  | _ =>
    let barrier := opsBarv ≤ opsCode q && opsCode q ≤ opsPendUp
    let n := if barrier then 16 else if opsBytes q = 8 then 8 else 4
    if q.addr % n == 0 && ctx.any fun c => peerMay s c q.addr n then
      lineFree s q.addr n fun s => (some (if barrier then peerBarrier s p else peerAtom s q), s)
    else (some (respond s q 4 0x25 []), s)

/-- The next packet of its flow (R340).
DEDUCED: log entry 30, safe. -/
def inTurn (s : State) (p : HeldPacket) : Bool :=
  p.pkt.seq == nextSeq s.fabric.recv p.pkt.gang p.pkt.srank p.pkt.drank p.pkt.vc

/-- One packet delivered, if it can be: its flow's counter goes on. -/
def deliverOne (s : State) (p : HeldPacket) : State :=
  let g := s.gang p.pkt.gang
  if !inTurn s p || elsewhere s p.pkt.gang p.pkt.drank || g.sent then s
  else
    match performPacket s p with
    | (none, s) => s
    | (some s, _) =>
      let q := p.pkt
      s.modFabric fun f =>
        { f with
          buffers := f.buffers.erase p
          recv := putSeq f.recv q.gang q.srank q.drank q.vc (q.seq + 1) }

/-- Packets held are delivered as far as their turns have come; `fuel` bounds the rounds.
DEDUCED: log entry 30, safe. -/
def deliverHeld (s : State) : Nat → State
  | 0 => s
  | fuel + 1 =>
    let t := s.fabric.buffers.foldl deliverOne s
    if t.fabric.buffers.length = s.fabric.buffers.length then t else deliverHeld t fuel

/-- A packet forwarded as it came (R382).
DESIGN CHOICE: log entry 32, safe. -/
def forward (s : State) (p : HeldPacket) : State :=
  let q := p.pkt
  s.modFabric fun f =>
    { f with
      out := f.out ++ [{ type := p.type, vc := q.vc, gang := q.gang, drank := q.drank, srank := q.srank, seq := q.seq
                         addr := q.addr, rtag := q.rtag, ops := q.ops, payload := q.payload }] }

/-- A packet for a rank of this chip, or of another to which it is forwarded. A second packet with a number delivered before
is dropped: each is performed exactly once (R263). -/
def inject (s : State) (p : HeldPacket) : State :=
  let q := p.pkt
  let next := nextSeq s.fabric.recv q.gang q.srank q.drank q.vc
  if elsewhere s q.gang q.drank then forward s p
  else if 2 ^ 31 ≤ (q.seq + 2 ^ 32 - next) % 2 ^ 32 || s.fabric.buffers.contains p then s
  else
    let s := s.modFabric fun f => { f with buffers := f.buffers ++ [p] }
    deliverHeld s (s.fabric.buffers.length + 1)

/-! ### Arrival -/

/-- The bytes of a packet, in flits of 64 (R381). -/
def packetBytes (p : HeldPacket) : List Byte :=
  let q := p.pkt
  let flits := 1 + (q.payload.length + 63) / 64
  toBytes 1 p.type ++ toBytes 1 q.vc ++ toBytes 2 q.gang ++ toBytes 2 q.drank ++ toBytes 2 q.srank ++ toBytes 4 q.seq ++
    toBytes 1 flits ++ [0, 0, 0] ++ toBytes 8 q.addr ++ toBytes 8 q.rtag ++ toBytes 32 q.ops.toNat ++
    (q.payload ++ List.replicate 64 0).take (64 * (flits - 1))

/-- A sweep's save record (R340). -/
def recordOf (p : HeldPacket) (origin : Nat) : List Byte :=
  let q := p.pkt
  let bs := packetBytes p
  toBytes 1 q.port ++ toBytes 1 q.vc ++ toBytes 1 origin ++ [0] ++ toBytes 4 q.seq ++ toBytes 2 bs.length ++ toBytes 2 q.gang ++
    toBytes 2 q.drank ++ toBytes 2 q.srank ++ bs

/-- The first byte of the sweep area that no gang uses. -/
def sweepTop (s : State) : Nat := s.fabric.gangs.foldl (fun m g => max m g.2.top) 0

/-- Bytes appended to the sweep area for a gang; none where the area overflows (R339). -/
def sweepAppend (s : State) (g : Nat) (bs : List Byte) : Option State :=
  let a := sweepTop s
  if s.sec.sweepSize < a + bs.length then none
  else some ((s.write (s.sec.sweepArea + a) bs).modGang g fun x => { x with top := a + bs.length })

/-- One packet recorded. -/
def sweepRecord (s : State) (p : HeldPacket) (origin : Nat) : Option State :=
  (sweepAppend s p.pkt.gang (recordOf p origin)).map fun s =>
    s.modGang p.pkt.gang fun x => { x with records := x.records ++ [(p, origin)] }

/-- A failed sweep, or a reset that the coordinator orders (R339): the contexts of the gang are reset, its packets discarded.
The reason in their messages is not given.
DEDUCED: log entry 31, unsafe. -/
def gangReset (s : State) (g : Nat) : State :=
  let cs := ((s.launches.filter fun l => l.2.msg.gang == g && l.2.phase != .done).map (·.2.ctx)).dedup
  let s := cs.foldl (fun s c => forceReset { s with fresh := s.fresh + 1 } c 0 (Config.freeNat s.fresh % 2)) s
  s.modFabric fun f =>
    { f with
      gangs := sdel f.gangs g
      buffers := f.buffers.filter fun p => p.pkt.gang != g
      waiting := f.waiting.filter fun p => p.1.pkt.gang != g }

/-- The outcome in the command slot (R338): the first 64 bytes of device register space. -/
def slotOutcome (s : State) (v : Nat) : State := s.write devBase (toBytes 1 0x11 ++ toBytes 1 v)

/-- This chip's sweep has failed (R339): the coordinator hears of it and resets the gang everywhere. -/
def sweepFailed (s : State) (g : Nat) : State :=
  let s := if s.fabric.command = some g then slotOutcome (s.modFabric fun f => { f with command := none }) 1 else s
  let s := s.modFabric fun f => { f with control := f.control ++ [.failed g, .reset g] }
  gangReset s g

/-- A packet arrives (R339, R342, R381).
DEDUCED: log entry 30, safe. -/
def arrive (s : State) (type : Nat) (q : Packet) : State :=
  let p : HeldPacket := { type := type, pkt := q }
  let g := s.gang q.gang
  if s.fabric.portsOut.contains q.port || 24 ≤ q.port || 4 ≤ q.vc || q.gang == 0xFFFF then s
  else if (g.swept && !g.resumed) || (g.sent && !g.swept && g.markers.contains (q.port, q.vc)) then
    s.modGang q.gang fun g =>
      { g with
        late := g.late + 1
        lateHdrs := if g.lateHdrs.length < 16 then g.lateHdrs ++ [(q.srank, q.seq)] else g.lateHdrs }
  else if g.sweeping && g.sent then (sweepRecord s p 1).getD (sweepFailed s q.gang)
  else if g.sweeping && elsewhere s q.gang q.drank then s.modFabric fun f => { f with buffers := f.buffers ++ [p] }
  else inject s p

def execPeerRead (p : Packet) (s : State) : Host.Outcome State Fault Refusal := .next (arrive s 0 p)
def execPeerReadResponse (p : Packet) (s : State) : Host.Outcome State Fault Refusal := .next (arrive s 1 p)
def execPeerWrite (p : Packet) (s : State) : Host.Outcome State Fault Refusal := .next (arrive s 2 p)
def execPeerAtomic (p : Packet) (s : State) : Host.Outcome State Fault Refusal := .next (arrive s 3 p)
def execPeerAtomicResponse (p : Packet) (s : State) : Host.Outcome State Fault Refusal := .next (arrive s 4 p)
def execPeerMailboxMessage (p : Packet) (s : State) : Host.Outcome State Fault Refusal := .next (arrive s 5 p)
def execWriteAcknowledgement (p : Packet) (s : State) : Host.Outcome State Fault Refusal := .next (arrive s 6 p)

/-- A BARW of another package ends: its phase has gone by, or its bound has passed (R196). -/
def waiterTurn (s : State) (w : HeldPacket × Nat) : State :=
  let q := w.1.pkt
  let v := opsOperand q
  let bound := v / 2 ^ 32 % 2 ^ 32
  let changed := barPh (barRead s q.addr) != v % 16
  let late := bound != 0xFFFFFFFF && w.2 + bound ≤ (s.dies.getD (q.addr / 2 ^ 38) {}).cycle
  if changed || late then
    let s := (barWaiters s q.addr false).modFabric fun f => { f with waiting := f.waiting.erase w }
    respond s q 4 0 (toBytes 4 (bit changed))
  else s

/-- What the fabric holds goes on where it can. -/
def fabricTurn (s : State) : State :=
  let s := s.fabric.waiting.foldl waiterTurn s
  deliverHeld s (s.fabric.buffers.length + 1)

/-- A flit has failed 16 retries in a row: its port is out of service (R358, R381). -/
def execFlitRetryExhausted (port : Nat) (s : State) : Host.Outcome State Fault Refusal :=
  .next <|
    if 24 ≤ port || s.fabric.portsOut.contains port then s
    else
      let u := UnitName.port port
      let s := s.modFabric fun f => { f with portsOut := f.portsOut ++ [port] }
      { s with sec := { s.sec with outUnits := if s.sec.outUnits.contains u then s.sec.outUnits else s.sec.outUnits ++ [u] } }

end Sys2Proof.Machine
end

