-- ==== Sys2Proof/Machine/Gang.lean ====
section
/-!
DEFINITION. Gang switches (R338 to R342): command, sweep, markers, completion, resume and run. Chip 0 is this chip.
-/

namespace Sys2Proof.Machine

/-- The hanks of a gang's launches on the chip, by context. -/
def gangHanks (s : State) (g : Nat) : List (Nat × List Nat × List (Nat × Nat)) :=
  let mine (k : Skein) : Bool := (s.launch k.launch).msg.gang == g
  let cs := ((s.skeins.filter fun k => k.2.phase == .resident && mine k.2).map fun k => ctxOfSkein s k.2).dedup
  cs.map fun c =>
    let own (k : Skein) : Bool := mine k && ctxOfSkein s k == c
    (c, ((s.skeins.filter fun k => k.2.phase == .resident && own k.2).map fun k => dieOfCore k.2.core).dedup, hanksTaken s own)

/-- The entries of the flow table to save: flows of the ranks held here whose counters are not zero (R340). -/
def flowTable (s : State) (g : Nat) : List (Nat × Nat × Nat × Nat × Nat) :=
  (s.fabric.send.filter fun e => e.1 == g && e.2.2.2.2 != 0).map (fun e => (e.2.1, e.2.2.1, e.2.2.2.1, 0, e.2.2.2.2)) ++
    (s.fabric.recv.filter fun e => e.1 == g && e.2.2.2.2 != 0).map fun e => (e.2.2.1, e.2.1, e.2.2.2.1, 1, e.2.2.2.2)

/-- The chip has finished its sweep: the flow table is saved, and DONE goes to the coordinator (R339 step 6, R340). -/
def sweepEnd (s : State) (g : Nat) : State :=
  let fs := flowTable s g
  match sweepAppend s g (fs.flatMap fun e => toBytes 2 e.2.1 ++ toBytes 1 e.2.2.1 ++ toBytes 1 e.2.2.2.1 ++ toBytes 4 e.2.2.2.2) with
  | none => sweepFailed s g
  | some s =>
    let s := s.modGang g fun x => { x with sweeping := false, swept := true, flows := fs }
    let s := s.modFabric fun f =>
      { f with
        send := f.send.filter fun e => e.1 != g
        recv := f.recv.filter fun e => e.1 != g
        control := f.control ++ [.done g] }
    { s with agenda := s.agenda ++ [.sweepDone g 0] }

/-- The packets of a gang that the chip holds, in the order of step 4 (R339). -/
def heldOf (s : State) (g : Nat) : List HeldPacket :=
  let mine := s.fabric.buffers.filter fun p => p.pkt.gang == g
  (List.range 24).flatMap fun port => (List.range 4).flatMap fun vc => mine.filter fun p => p.pkt.port == port && p.pkt.vc == vc

/-- A sweep goes on (R339 steps 1 to 6): once the gang's hanks are saved, the markers go out and the held packets are
recorded; once all markers are in, it ends. -/
def sweepGo (s : State) (g : Nat) : State :=
  let x := s.gang g
  let saving := !(gangHanks s g).isEmpty || s.contexts.any fun c => c.2.pre.any fun p =>
    p.hanks.any fun h => (s.launch h.1).msg.gang == g
  if !x.sweeping || saving then s
  else
    let s? : Option State :=
      if x.sent then some s
      else
        let marks := (List.range 24).flatMap fun port => (List.range 4).map fun vc => Control.marker g port vc
        let held := heldOf s g
        let s := s.modFabric fun f =>
          { f with
            control := f.control ++ marks
            buffers := f.buffers.filter fun p => p.pkt.gang != g }
        held.foldlM (fun s p => sweepRecord s p 0) (s.modGang g fun x => { x with sent := true })
    match s? with
    | none => sweepFailed s g
    | some s => if (s.gang g).markers.length = 96 then sweepEnd s g else s

/-- A chip sweeps (R339); one that sweeps already, or has swept, does not again. -/
def sweepStart (s : State) (g deadline : Nat) : State :=
  let x := s.gang g
  if x.sweeping || x.swept || g == 0xFFFF then s
  else
    let s := s.modGang g fun x => { x with sweeping := true, deadline := deadline, start := s.sec.cycle }
    sweepGo ((gangHanks s g).foldl (fun s c => request s c.1 c.2.1 false false true c.2.2) s) g

/-- The command reaches the coordinator's command slot (R338). A slot whose command is not complete takes no other. -/
def execGangSwitchCommand (gang deadline : Nat) (s : State) : Host.Outcome State Fault Refusal :=
  .next <|
    if s.fabric.command.isSome || gang == 0xFFFF || 2 ^ 16 ≤ gang || !s.link.ready then s
    else
      let d := if deadline = 0 then s.sec.sweepDefault else deadline
      let s := s.write devBase (message [(0, 1, 0x13), (2, 2, gang), (4, 4, deadline)])
      let s := s.modGang gang fun x => { x with coordinating := true, done := [], resuming := false }
      let s := s.modFabric fun f => { f with command := some gang, control := f.control ++ [.sweep gang d] }
      { s with agenda := s.agenda ++ [.sweep gang d] }

def execSweep (gang deadline : Nat) (s : State) : Host.Outcome State Fault Refusal := .next (sweepStart s gang deadline)

/-- A marker on an input port's channel (R339 step 5). -/
def execSweepMarkerArrival (gang port vc : Nat) (s : State) : Host.Outcome State Fault Refusal :=
  .next <|
    if 24 ≤ port || 4 ≤ vc || (s.gang gang).swept || (s.gang gang).markers.contains (port, vc) then s
    else sweepGo (s.modGang gang fun x => { x with markers := x.markers ++ [(port, vc)] }) gang

/-- The coordinator hears DONE of a chip: the switch is complete, or after RESUME the gang may run (R339, R341). -/
def chipDone (s : State) (g chip : Nat) : State :=
  let x := s.gang g
  if !x.coordinating || !s.fabric.chips.contains chip || x.done.contains chip then s
  else
    let s := s.modGang g fun x => { x with done := x.done ++ [chip] }
    if s.fabric.chips.any fun c => !(s.gang g).done.contains c then s
    else if x.resuming then
      { s.modFabric fun f => { f with control := f.control ++ [.run g] } with agenda := s.agenda ++ [.run g] }
    else if s.fabric.command = some g then slotOutcome (s.modFabric fun f => { f with command := none }) 0
    else s

def execSweepDone (gang chip : Nat) (s : State) : Host.Outcome State Fault Refusal := .next (chipDone s gang chip)

/-- The sweep of this chip has missed its deadline (R339). -/
def sweepLate (s : State) (g : Nat) : Bool := (s.gang g).sweeping && (s.gang g).start + (s.gang g).deadline < s.sec.cycle

def execSweepDeadlineExpiry (gang : Nat) (s : State) : Host.Outcome State Fault Refusal :=
  .next (if sweepLate s gang then sweepFailed s gang else s)

/-- The gang is switched out on every chip, as far as the coordinator has heard. -/
def allSwept (s : State) (g : Nat) : Bool :=
  (s.gang g).coordinating && !(s.gang g).resuming && (s.gang g).swept && s.fabric.chips.all (s.gang g).done.contains

/-- A resume is accepted where every chip holds the gang switched out (R341). -/
def execGangResumeRequest (gang : Nat) (map : List (Nat × Nat)) (s : State) : Host.Outcome State Fault Refusal :=
  .next <|
    if !allSwept s gang then s
    else
      let s := s.modGang gang fun x => { x with resuming := true, done := [] }
      let s := s.modFabric fun f => { f with control := f.control ++ [.resume gang map] }
      { s with agenda := s.agenda ++ [.resume gang map] }

/-- The flow tables of the ranks that this chip now holds (R340, R341).
DESIGN CHOICE: log entry 32, safe. -/
def loadFlows (s : State) (g : Nat) (map : List (Nat × Nat)) : State :=
  (s.gang g).flows.foldl (fun s e =>
    if (map.lookup e.1).any (· != 0) then s
    else if e.2.2.2.1 = 0 then s.modFabric fun f => { f with send := putSeq f.send g e.1 e.2.1 e.2.2.1 e.2.2.2.2 }
    else s.modFabric fun f => { f with recv := putSeq f.recv g e.2.1 e.1 e.2.2.1 e.2.2.2.2 }) s

/-- A chip resumes a gang (R341 step 2): routes, flow tables, the records re-injected in order, DONE. -/
def resumeGang (s : State) (g : Nat) (map : List (Nat × Nat)) : State :=
  let x := s.gang g
  if !x.swept || x.resumed then s
  else
    let s := loadFlows (s.modGang g fun x => { x with routes := map, resumed := true, sent := false }) g map
    let s := x.records.foldl (fun s r => inject s r.1) s
    let s := s.modGang g fun x => { x with records := [], top := 0, flows := [] }
    { s.modFabric fun f => { f with control := f.control ++ [.resumed g] } with agenda := s.agenda ++ [.sweepDone g 0] }

def execResume (gang : Nat) (map : List (Nat × Nat)) (s : State) : Host.Outcome State Fault Refusal := .next (resumeGang s gang map)

/-- The gang runs (R341 step 3): its hanks are placeable, and its contexts hear of quarantined packets (R342). No message is
sent where there are none.
DEDUCED: log entry 31, unsafe. -/
def runGang (s : State) (g : Nat) : State :=
  let x := s.gang g
  if !x.swept || !x.resumed then s
  else
    let cs := ((s.launches.filter fun l => l.2.msg.gang == g && l.2.phase != .done).map (·.2.ctx)).dedup
    let h := x.lateHdrs.headD (0, 0)
    let s := s.modGang g fun x => { routes := x.routes }
    if x.late = 0 then s
    else cs.foldl (fun s c =>
      deliver s c 0 2 (message [(0, 1, 3), (1, 1, 0xF2), (12, 4, x.late), (16, 4, h.1), (20, 4, h.2)])) s

def execRun (gang : Nat) (s : State) : Host.Outcome State Fault Refusal := .next (runGang s gang)

/-- A context's pre-emption goes on, and with it the sweeps that wait for it (R326, R339). -/
def saveAndSweep (s : State) (ctx : Nat) : State :=
  (saveContext s ctx).fabric.gangs.foldl (fun s g => sweepGo s g.1) (saveContext s ctx)

/-- DEDUCED: log entry 63, unsafe. -/
def execPreemptionSave (ctx : Nat) (s : State) : Host.Outcome State Fault Refusal := .next (saveAndSweep s ctx)

end Sys2Proof.Machine
end

