-- ==== Sys2Proof/Machine/Reliab.lean ====
section
/-!
DEFINITION. Repair and containment: units out of service (R358), lasting faults (R354, R355), sleep and waking (R359), scrubs
(R366 to R368).
-/

namespace Sys2Proof.Machine

def State.modSec (s : State) (f : Sec → Sec) : State := { s with sec := f s.sec }

/-- A line in the package health log (R355). -/
def State.log (s : State) (l : LogLine) : State := s.modSec fun x => { x with log := x.log ++ [l] }

/-! ### Units out of service -/

/-- The cores that a unit takes with it (R358).
DEDUCED: log entry 33, unsafe. -/
def coresOf : UnitName → List Nat
  | .core k => [k]
  | .l2 c => upFrom (8 * c) 8
  | _ => []

def unitExists : UnitName → Bool
  | .core k => k < 256
  | .l2 c => c < 32
  | .channel d c => d < 8 && c < 32
  | .port p => p < 24

/-- The hanks on cores are pre-empted, by context (R325, R358). -/
def evict (s : State) (cores : List Nat) : State :=
  let here (k : Skein) : Bool := cores.contains k.core
  let cs := ((s.skeins.filter fun k => k.2.phase == .resident && here k.2).map fun k => ctxOfSkein s k.2).dedup
  cs.foldl (fun s c =>
    request s c ((cores.map dieOfCore).dedup) false false false (hanksTaken s fun k => here k && ctxOfSkein s k == c)) s

/-- A unit is taken out (R358). Accesses to a channel taken out wait, which is a matter of time alone. -/
def takeOut (s : State) (u : UnitName) : State :=
  if !unitExists u || s.sec.outUnits.contains u then s
  else
    let s := s.modSec fun x => { x with outUnits := x.outUnits ++ [u] }
    let s := match u with
      | .port p => s.modFabric fun f => { f with portsOut := if f.portsOut.contains p then f.portsOut else f.portsOut ++ [p] }
      | _ => s
    evict s (coresOf u)

def execOutOfServiceRequest (u : UnitName) (s : State) : Host.Outcome State Fault Refusal :=
  .next (if s.link.ready && !s.link.stopped then takeOut s u else s)

/-- The test of a unit that is out has ended: it serves again, or stays out and is reported (R358). -/
def unitBack (s : State) (u : UnitName) (good : Bool) : State :=
  if !s.sec.outUnits.contains u then s
  else if good then
    let s := s.modSec fun x => { x with outUnits := x.outUnits.filter (· ≠ u) }
    match u with
    | .port p => s.modFabric fun f => { f with portsOut := f.portsOut.filter (· ≠ p) }
    | _ => s
  else if s.sec.reduced.contains u then s
  else (s.modSec fun x => { x with reduced := x.reduced ++ [u] }).log (.testFailed u)

def execUnitReturnedToService (u : UnitName) (good : Bool) (s : State) : Host.Outcome State Fault Refusal :=
  .next (unitBack s u good)

/-! ### Lasting faults -/

/-- The die of a row (R6). -/
def rowDie : RowName → Nat
  | .scratch c _ _ | .acc c _ _ | .stationary c _ _ | .regs c _ _ => dieOfCore c
  | .l2 c _ _ => c / 4
  | .lpddr d _ _ _ => d

/-- What owns the spares of a row: its bank, its partition, its channel. -/
def spareOwner : RowName → RowName
  | .scratch c b _ => .scratch c b 0
  | .acc c b _ => .acc c b 0
  | .stationary c b _ => .stationary c b 0
  | .l2 c b _ => .l2 c b 0
  | .regs c p _ => .regs c p 0
  | .lpddr d ch _ _ => .lpddr d ch 0 0

/-- Repairs available there: four spare rows, or the channel's post-package repairs (R355). -/
def spareLimit : RowName → Nat
  | .lpddr _ _ _ _ => Config.lpddrRepairs
  | _ => 4

/-- The cores that stop taking skeins while a bank or partition waits to retire. -/
def rowCores : RowName → List Nat
  | .scratch c _ _ | .acc c _ _ | .stationary c _ _ | .regs c _ _ => [c]
  | .l2 c _ _ => upFrom (8 * c) 8
  | .lpddr _ _ _ _ => []

/-- The 64 KiB pages that hold part of a row group (R355). -/
def groupPages (s : State) : RowName → List Nat
  | .lpddr d ch b row =>
    (upFrom (d * 2 ^ 22) (2 ^ 22)).filter fun p =>
      (List.range 2048).any fun j => rowOf s (p * 2 ^ 16 + 32 * j) = .lpddr d ch b row
  | _ => []

/-- A page is marked retired; the contexts of its owner hear of it (R355). -/
def retirePage (s : State) (p : Nat) : State :=
  let e := sget s.sec.potDefault s.sec.pot p
  let s := s.modSec fun x => { x with pot := sput x.potDefault x.pot p (e ||| 0x80) }
  let s := s.log (.pageRetired p (s.dies.getD (p / 2 ^ 22) {}).cycle)
  let st := fld e.toNat 4 2
  let owners := s.contexts.filter fun c => (st == 1 || st == 2) && c.2.world == fld e.toNat 0 4
  owners.foldl (fun s c => deliver s c.1 0 2 (message [(0, 1, 3), (1, 1, 0xF3), (16, 8, p * 2 ^ 16)])) s

/-- A row with a lasting fault is repaired (R355): a spare takes its place and counts afresh; without a spare its bank or
partition is marked, or its pages retire. -/
def repairRow (s : State) (r : RowName) : State :=
  if !s.sec.lasting.contains r then s
  else
    let now := (s.dies.getD (rowDie r) {}).cycle
    let owner := spareOwner r
    let used := (s.sec.spares.lookup owner).getD 0
    let s := s.modSec fun x =>
      { x with
        lasting := x.lasting.filter (· ≠ r)
        rows := x.rows.filter fun e => e.1 ≠ r }
    if used < spareLimit r then
      (s.modSec fun x => { x with spares := x.spares.filter (fun e => e.1 ≠ owner) ++ [(owner, used + 1)] }).log (.repair r now)
    else
      match r with
      | .lpddr _ _ _ _ => (groupPages s r).foldl retirePage s
      | _ =>
        let mark (c : Core) : Core := { c with marked := if c.marked.contains owner then c.marked else c.marked ++ [owner] }
        ((rowCores r).foldl (fun s k => s.setCore k (mark (s.core k))) s).log (.bankMarked owner now)

def execLastingFaultRepair (r : RowName) (s : State) : Host.Outcome State Fault Refusal := .next (repairRow s r)

/-- The counts of a die return to 0 at each multiple of 2^31 cycles (R354).
DESIGN CHOICE: log entry 12, unsafe. -/
def windowTurn (s : State) (d : Nat) : State :=
  let w := (s.dies.getD d {}).cycle / 2 ^ 31
  if (s.dies.getD d {}).window = w then s
  else
    { s.modSec fun x => { x with rows := x.rows.filter fun e => rowDie e.1 ≠ d } with
      dies := s.dies.mapIdx fun i x => if i = d then { x with window := w } else x }

def execErrorWindowExpiry (die : Nat) (s : State) : Host.Outcome State Fault Refusal := .next (windowTurn s die)

/-- No skein is resident on a core. -/
def coreEmpty (s : State) (k : Nat) : Bool := !s.skeins.any fun x => x.2.core == k && x.2.placed

/-- A core's marked bank or partition retires (R355): a scratchpad bank shrinks the scratchpad, a partition takes no strand.
DEDUCED: log entry 33, unsafe. -/
def retireOn (s : State) (r : RowName) (k : Nat) : State :=
  let c := s.core k
  let c := { c with marked := c.marked.filter (· ≠ r) }
  s.setCore k (match r with
    | .scratch _ b _ => { c with retiredBanks := c.retiredBanks ++ [b] }
    | .regs _ p _ => { c with retiredParts := c.retiredParts ++ [p] }
    | _ => c)

/-- BANK_RETIREMENT: once no skein is resident on any core that the mark closes.
DEDUCED: log entry 33, unsafe. -/
def bankTurn (s : State) (r : RowName) : State :=
  let r := spareOwner r
  let ks := (rowCores r).filter fun k => (s.core k).marked.contains r
  if ks.all (coreEmpty s) then ks.foldl (fun s k => retireOn s r k) s else s

def execBankRetirement (r : RowName) (s : State) : Host.Outcome State Fault Refusal := .next (bankTurn s r)

/-! ### Sleep -/

/-- Every thread of a strand that could issue has waited for 2^16 cycles (R359). -/
def longParked (st : Strand) (now : Nat) : Bool :=
  (st.threads.filter fun t => t.live && !t.paused).all fun t => t.wait != .ready && t.since + 2 ^ 16 ≤ now

/-- CORE_SLEEP: strands are resident, and all of them have been parked long enough. -/
def sleepTurn (s : State) (k : Nat) : State :=
  let us := s.strands.filter fun x => x.2.core == k && x.2.phase == .resident
  if (s.core k).asleep || us.isEmpty || !us.all fun x => longParked x.2 (s.cycleOf k) then s else goToSleep s k

def execCoreSleep (core : Nat) (s : State) : Host.Outcome State Fault Refusal := .next (sleepTurn s core)

/-- Units of a core scrubbed (R366): what they held is erased already as skeins leave them, so the world last served goes. -/
def scrubUnits (s : State) (k : Nat) (us : List Nat) : State :=
  let c := s.core k
  let c := { c with
    served := c.served.filter fun e => !us.contains e.1
    pend := c.pend.filter fun e => !us.contains e.1
    tlb := if us.contains 8 then [] else c.tlb
    last := if us.contains 8 then [] else c.last }
  s.setCore k c

/-- CORE_WAKE_SWEEP: every register word is read, then the pending scrubs run (R359, R367). -/
def wakeCore (s : State) (k : Nat) : State :=
  if !(s.core k).asleep then s
  else
    let us := s.strands.filter fun x => x.2.core == k && x.2.phase == .resident
    let s := us.foldl (fun s x => s.settleRegs x.1 (-1) (fun _ => true) fun _ => true) s
    let s := s.setCore k { s.core k with asleep := false }
    let due := ((s.core k).pend.map (·.1)).filter fun u => !unitUsed s k u
    let s := scrubUnits s k due
    s.setCore k { s.core k with pend := [] }

def execCoreWakeSweep (core : Nat) (s : State) : Host.Outcome State Fault Refusal := .next (wakeCore s core)

/-! ### Scrubs that SYS.SCRUB started -/

/-- A resident skein uses the unit of a class (R368). -/
def classUsed (s : State) (k : Nat) (x : Nat × Nat) : Bool :=
  let ks := s.skeins.filter fun y => y.2.core == k && y.2.placed
  let sts := s.strands.filter fun y => ks.any fun z => z.1 == y.2.skein
  match x.1 with
  | 0 => sts.any fun y => y.2.part == x.2 && y.2.slot != 16
  | 1 => ks.any fun y => y.2.scratch != 0
  | 2 => sts.any fun y => y.2.accn != 0
  | 3 => (ks.any fun y => y.2.window != 0) || !(s.core k).wsu.isEmpty
  | 4 => sts.any fun y => y.2.part == x.2 / 16 && y.2.slot == x.2 % 16
  | _ => (sts.any fun y => y.2.slot != 16 || y.2.accn != 0) || ks.any fun y => y.2.scratch != 0 || y.2.window != 0

/-- The units of a class, as `State.serve` numbers them; one slot's queues are not the whole of unit 7. -/
def classUnits (x : Nat × Nat) : List Nat :=
  match x.1 with
  | 0 => [x.2]
  | 1 => [4]
  | 2 => [5]
  | 3 => [6]
  | 4 => []
  | _ => [0, 1, 2, 3, 4, 5, 6, 7]

/-- A scrub runs once the unit is free, and is complete (R368). -/
def scrubOne (s : State) (k : Nat) (x : Nat × Nat) : State :=
  if classUsed s k x then s
  else
    let s := if x.1 = 1 ∨ x.1 = 5 then s.wipe (scratchLoc k 0) (2 ^ 20) else s
    let s := scrubUnits s k (classUnits x)
    s.setCore k { s.core k with scrub := (s.core k).scrub.erase x }

def scrubTurn (s : State) (k : Nat) : State := (s.core k).scrub.foldl (fun s x => scrubOne s k x) s

def execScrubComplete (core : Nat) (s : State) : Host.Outcome State Fault Refusal := .next (scrubTurn s core)

end Sys2Proof.Machine
end

