-- ==== Sys2Proof/Machine/Security.lean ====
section
/-!
DEFINITION. The security core: proposals for mappings and page ownership (R363 to R365), measurement (R372), the SPDM responder
(R373), key slots (R370) and allow-lists (R376).

The command slot is the first 64 bytes of device register space.
-/

namespace Sys2Proof.Machine

/-! ### Proposals -/

/-- The module is ready, and has not stopped. -/
def State.works (s : State) : Bool := s.link.ready && !s.link.stopped

/-- Address of entry j of a proposal page.
DESIGN CHOICE: log entry 16, unsafe. -/
def entryAt (page j : Nat) : Nat := page + 64 + 32 * j

/-- A page on which the host may put a proposal: 4 KiB of world-0 memory (R363). -/
def proposalPage (s : State) (page j : Nat) : Bool :=
  page % 4096 == 0 && page + 4096 ≤ 2 ^ 41 && !inFirmware page 4096 && potRange s 0 false page 4096 &&
    j < s.readNat (page + 2) 2 && s.readNat (page + 2) 2 ≤ 126

/-- The address of the entry at `level` on a virtual address's path; none where a table on the way is missing (R281). -/
def pathEntry (s : State) (va level : Nat) : Nat → Nat → Option Nat
  | 0, table => if level = 0 then some (table + 8 * fld va 12 9) else none
  | l + 1, table =>
    let a := table + 8 * fld va (12 + 9 * (l + 1)) 9
    if level = l + 1 then some a
    else
      let e := s.readNat a 8
      if leafBit e 0 && !leafBit e 1 && fld e 2 10 == 0 && fld e 52 12 == 0 && leafPA e < 2 ^ 41 then pathEntry s va level l (leafPA e)
      else none

/-- A page ASSIGNED to a world, for the tables of its contexts (R363).
DEDUCED: log entry 34, unsafe. -/
def tablePage (s : State) (world pa : Nat) : Bool :=
  let e := potEntry s (pa / 2 ^ 16)
  fld e 4 2 == 1 && fld e 0 4 == world && !inFirmware pa 4096

/-- An entry that MAP may install at a level: a leaf that passes R283 and R361, or the entry of a table (R281, R363).
DEDUCED: log entry 34, unsafe. -/
def mapOk (s : State) (ctx : Context) (level e : Nat) : Bool :=
  leafBit e 0 &&
    if leafBit e 1 then leafOk level e && fillOk s ctx e (sizeShift (fld e 56 3))
    else level != 0 && fld e 2 10 == 0 && fld e 52 12 == 0 && leafPA e < 2 ^ 41 && tablePage s ctx.world (leafPA e)

/-- The page table entry where a walk ends, if it is present. -/
def presentLeaf (s : State) (root va : Nat) : Option (Nat × Nat) :=
  match walk s root va with
  | .leaf a e _ => some (a, e)
  | _ => none

/-- An entry of the Page Ownership Table written. -/
def State.setPot (s : State) (page e : Nat) : State :=
  s.modSec fun x => { x with pot := sput x.potDefault x.pot page (BitVec.ofNat 16 e) }

/-- The page of an operation on ownership: 64 KiB of LPDDR outside the firmware region. -/
def ownable (pa : Nat) : Bool := pa % 2 ^ 16 == 0 && pa < 2 ^ 41 && !inFirmware pa (2 ^ 16)

/-- What an operation of R364 does: its STATUS and the state; nothing while the host may hold lines that it overwrites.
DEDUCED: log entry 34, unsafe. -/
def propose (s : State) (op ctx w level addr leaf : Nat) : Option (Nat × State) :=
  let c := s.context ctx
  let known := (sfind s.contexts ctx).isSome
  let page := addr / 2 ^ 16
  let e := potEntry s page
  let st := fld e 4 2
  match op with
  | 0 =>
    if 2 < level ∨ 2 ^ 56 ≤ addr then some (1, s)
    else if !known then some (2, s)
    else
      match pathEntry s addr level 4 (c.ptroot * 4096) with
      | none => some (4, s)
      | some a => if mapOk s c level leaf then some (0, s.write a (toBytes 8 leaf)) else some (3, s)
  | 1 =>
    if 2 ^ 56 ≤ addr then some (1, s)
    else if !known then some (2, s)
    else
      let s := match presentLeaf s c.ptroot addr with
        | some (a, e) => s.write a (toBytes 8 (e - 1))
        | none => s
      some (0, s.shootDown (some ctx) (some (addr / 4096)))
  | _ =>
    if addr % 2 ^ 16 ≠ 0 ∨ 2 ^ 41 ≤ addr ∨ (op = 2 ∧ 16 ≤ w) then some (1, s)
    else if !ownable addr then some (2, s)
    else
      match op with
      | 2 => if st = 0 ∧ fld e 7 1 = 0 then some (0, s.setPot page (2 ^ 4 + w)) else some (2, s)
      | 3 => if st = 1 then some (0, s.setPot page (e + 2 ^ 4)) else some (2, s)
      | 4 =>
        if st = 1 ∨ st = 2 then
          if s.link.lines.any fun l => l / 1024 == page then none
          else
            let s := (s.setPot page (Nat.lor e 0x30)).shootDown none none
            some (0, (s.wipe addr (2 ^ 16)).setPot page (fld e 7 1 * 2 ^ 7))
        else some (2, s)
      | _ => if st = 1 then some (0, s.setPot page (Nat.lor e 0x40)) else some (2, s)

/-- Entry j of a proposal is taken (R363, R364): the event of `op` takes an entry with that code, or with none of the six. A
page whose lines the host may hold is not zeroed, and an entry not written, until the host has answered (R379).
DEDUCED: log entry 34, unsafe. -/
def takeEntry (s : State) (op page j : Nat) : State :=
  let a := entryAt page j
  let b := s.read a 32
  let code := field b 0 1
  if !s.works || !proposalPage s page j || !(code == op || 6 ≤ code) then s
  else if !(heldLines s [(a, List.replicate 32 0, 0)]).isEmpty then s.snoop (heldLines s [(a, List.replicate 32 0, 0)])
  else
    let bad := 6 ≤ code || field b 6 2 != 0 || field b 24 8 != 0
    let r := if bad then some (1, s) else propose s code (field b 2 2) (field b 4 1) (field b 5 1) (field b 8 8) (field b 16 8)
    match r with
    | none => s.snoop (s.link.lines.filter fun l => l / 1024 == field b 8 8 / 2 ^ 16)
    | some (status, s) =>
      let s := s.write (a + 1) (toBytes 1 status)
      if j + 1 = s.readNat (page + 2) 2 then s.write devBase [0x11] else s

def execMap (page j : Nat) (s : State) : Host.Outcome State Fault Refusal := .next (takeEntry s 0 page j)
def execUnmap (page j : Nat) (s : State) : Host.Outcome State Fault Refusal := .next (takeEntry s 1 page j)
def execAssign (page j : Nat) (s : State) : Host.Outcome State Fault Refusal := .next (takeEntry s 2 page j)
def execShare (page j : Nat) (s : State) : Host.Outcome State Fault Refusal := .next (takeEntry s 3 page j)
def execRelease (page j : Nat) (s : State) : Host.Outcome State Fault Refusal := .next (takeEntry s 4 page j)
def execSealok (page j : Nat) (s : State) : Host.Outcome State Fault Refusal := .next (takeEntry s 5 page j)

/-! ### Measurement -/

/-- The 32 bytes of a digest, first byte first; a digest is held as the number whose most significant byte is the first.
DEDUCED: log entry 35, unsafe. -/
def digestBytes (d : BitVec 256) : List Nat := toBigEndian 32 d.toNat

/-- MEAS := SHA-256(MEAS ‖ digest) (R372).
DEDUCED: log entry 35, unsafe. -/
def extend (s : State) (i : Nat) (d : BitVec 256) : State :=
  s.modSec fun x =>
    { x with meas := x.meas.mapIdx fun k m => if k = i then BitVec.ofNat 256 (sha256 (digestBytes m ++ digestBytes d)) else m }

/-- Command TYPE 0x12: the host driver extends MEAS8 to MEAS15. -/
def execMeasurementExtend (i : Nat) (digest : BitVec 256) (s : State) : Host.Outcome State Fault Refusal :=
  .next (if s.works && 8 ≤ i && i < 16 then extend s i digest else s)

/-! ### The SPDM responder -/

def transportNo : Transport → Nat
  | .mctp => 0
  | .doe => 1

def State.spdm (s : State) (t : Transport) : Spdm := (s.sec.spdm.getD (transportNo t) (.start, .none)).1

/-- A response sent on a transport, and the connection state after it. -/
def reply (s : State) (t : Transport) (st : Spdm) (r : SpdmReply) : State :=
  s.modSec fun x => { x with spdm := x.spdm.mapIdx fun i y => if i = transportNo t then (st, r) else y }

/-- The responder is at work: the security core runs from boot on. -/
def State.responds (s : State) : Bool := s.works

/-- A request of this code in one of the states that take it, answered with a payload; elsewhere UnexpectedRequest, the
connection state unchanged. Bytes that the spec does not give are free.
PRESUMED: log entry 14, unsafe. -/
def spdmRequest (s : State) (t : Transport) (code : Nat) (takes : List Spdm) (after : Spdm) (known : List Byte) : State :=
  if !s.responds then s
  else if takes.contains (s.spdm t) then
    reply { s with fresh := s.fresh + 1 } t after (.ok code (known ++ Config.spdmPayload s.fresh))
  else reply s t (s.spdm t) .unexpectedRequest

/-- PRESUMED: log entry 14, unsafe. -/
def everyState : List Spdm := [.start, .version, .capabilities, .algorithms, .session, .keyExchanged]

/-- GET_VERSION begins a connection anew. -/
def execGetVersion (t : Transport) (s : State) : Host.Outcome State Fault Refusal :=
  .next (spdmRequest s t 0x84 everyState .version [])

def execGetCapabilities (t : Transport) (s : State) : Host.Outcome State Fault Refusal :=
  .next (spdmRequest s t 0xE1 [.version] .capabilities [])

/-- NEGOTIATE_ALGORITHMS: `offered` says that the request offers the algorithms of R373. Without them nothing is agreed. -/
def execNegotiateAlgorithms (t : Transport) (offered : Bool) (s : State) : Host.Outcome State Fault Refusal :=
  .next (spdmRequest s t 0xE3 [.capabilities] (if offered then .algorithms else .capabilities) [])

/-- A request that any state from the negotiation on takes, the state unchanged. -/
def settled (s : State) (t : Transport) (code : Nat) (known : List Byte) : State :=
  spdmRequest s t code [.algorithms, .session, .keyExchanged] (s.spdm t) known

def execGetDigests (t : Transport) (s : State) : Host.Outcome State Fault Refusal := .next (settled s t 0x81 [])
def execGetCertificate (t : Transport) (s : State) : Host.Outcome State Fault Refusal := .next (settled s t 0x82 [])
def execChallenge (t : Transport) (s : State) : Host.Outcome State Fault Refusal := .next (settled s t 0x83 [])

/-- GET_MEASUREMENTS: block k + 1 is MEAS k; block 0 stands for the count of blocks, 255 for all of them. -/
def execGetMeasurements (t : Transport) (block : Nat) (s : State) : Host.Outcome State Fault Refusal :=
  let one (m : BitVec 256) : List Byte := (digestBytes m).map (BitVec.ofNat 8)
  let known : List Byte :=
    if block = 255 then s.sec.meas.flatMap one
    else if block = 0 then [16]
    else ((s.sec.meas[block - 1]?).map one).getD []
  .next (settled s t 0xE0 known)

def execKeyExchange (t : Transport) (s : State) : Host.Outcome State Fault Refusal :=
  .next (spdmRequest s t 0xE4 [.algorithms] .keyExchanged [])

def execFinish (t : Transport) (s : State) : Host.Outcome State Fault Refusal :=
  .next (spdmRequest s t 0xE5 [.keyExchanged] .session [])

def execEndSession (t : Transport) (s : State) : Host.Outcome State Fault Refusal :=
  .next (spdmRequest s t 0xEC [.session] .algorithms [])

/-- The request codes that the responder answers.
PRESUMED: log entry 14, unsafe. -/
def spdmCodes : List Nat := [0x84, 0xE1, 0xE3, 0x81, 0x82, 0x83, 0xE0, 0xE4, 0xE5, 0xEC, 0xFE]

def execSpdmUnsupportedRequest (t : Transport) (code : Nat) (s : State) : Host.Outcome State Fault Refusal :=
  .next (if s.responds && !spdmCodes.contains code then reply s t (s.spdm t) .unsupportedRequest else s)

/-- A vendor-defined request of a tenant, which needs a secured session. -/
def vendor (s : State) (t : Transport) (f : State → State) : State :=
  if !s.responds then s
  else if s.spdm t = .session then spdmRequest (f s) t 0xFE [.session] .session []
  else reply s t (s.spdm t) .unexpectedRequest

/-- SHA-256 over MEAS0 to MEAS7 (R370). -/
def policyDigest (s : State) : Nat := sha256 ((s.sec.meas.take 8).flatMap digestBytes)

/-- KEY_SLOT_LOAD (R370): the slot takes the key where the policy digest matches the measurements. -/
def execKeySlotLoad (t : Transport) (world slot : Nat) (key digest : BitVec 256) (s : State) : Host.Outcome State Fault Refusal :=
  .next <| vendor s t fun s =>
    if world < 16 ∧ slot < 16 ∧ digest.toNat = policyDigest s then
      s.modSec fun x => { x with keys := sput none x.keys (16 * world + slot) (some key) }
    else s

/-- ALLOW_LIST_WRITE (R376): bits 63 to 8 read zero. -/
def execAllowListWrite (t : Transport) (world : Nat) (list : BitVec 64) (s : State) : Host.Outcome State Fault Refusal :=
  .next <| vendor s t fun s =>
    if 1 ≤ world ∧ world < 16 then s.modSec fun x => { x with allow := sput 0 x.allow world (list &&& 0xFF) } else s

end Sys2Proof.Machine
end

