-- ==== Sys2Proof/Machine/HostLink.lean ====
section
/-!
DEFINITION. The host link: CXL.mem (R295, R349, R375), back-invalidation (R379), counters (R376, R377), TDIs (R374).
-/

namespace Sys2Proof.Machine

/-! ### CXL.mem -/

/-- A page allows a request for world h (R375). -/
def hostPasses (h e : Nat) : Bool :=
  let st := fld e 4 2
  let owner := fld e 0 4
  (st == 1 && owner == h) || (st == 2 && (owner == h || h == 0)) || fld e 6 1 == 1

/-- A request for n bytes of LPDDR is allowed. -/
def hostMay (s : State) (world pa n : Nat) : Bool :=
  n != 0 && pa + n ≤ 2 ^ 41 && !inFirmware pa n &&
    (upFrom (pa / 2 ^ 16) ((pa + n - 1) / 2 ^ 16 - pa / 2 ^ 16 + 1)).all fun p => hostPasses world (potEntry s p)

/-- The host may hold the lines of a range from now on (R379). -/
def holdLines (s : State) (pa n : Nat) : State :=
  let new := ((blocksOf 64 pa n).map (· / 64)).filter fun l => !s.link.lines.contains l
  { s with link := { s.link with lines := s.link.lines ++ new } }

/-- A host read (R295, R375): data alone; a poisoned sector's stored bytes, counted in the health log. -/
def hostRead (s : State) (world pa n : Nat) : State :=
  if hostMay s world pa n then
    let s := s.settle pa n
    let s := if s.poisonedAt pa n then s.log (.poisonRead pa) else s
    let s := holdLines s pa n
    { s with link := { s.link with data := s.read pa n, status := 0 } }
  else
    let s := s.log (.denied world pa)
    { s with link := { s.link with data := List.replicate n 0, status := 0 } }

def execCxlMemRead (world pa len : Nat) (s : State) : Host.Outcome State Fault Refusal :=
  .next (if s.works && world < 16 then hostRead s world pa len else s)

/-- A mailbox whose slot overlaps a line that the host writes: context, number. Bound slots come first. -/
def slotOn (s : State) (line : Nat) : Option (Nat × Nat) :=
  s.contexts.findSome? fun c => (mailboxAt s c.1 (64 * line)).map fun n => (c.1, n)

/-- The part of a host write that falls into one line: a message where a mailbox slot lies there (R301, R302), else a store
that the tag and poison rules of R115, R117 and R349 govern. -/
def hostLine (s : State) (pa : Nat) (bytes : List Byte) (line : Nat) : State :=
  let lo := max pa (64 * line)
  let hi := min (pa + bytes.length) (64 * line + 64)
  let part := (bytes.drop (lo - pa)).take (hi - lo)
  match slotOn s line with
  | some (ctx, n) => hostMail s ctx n (lo - 64 * line) part
  | none => s.storeAll [(lo, part, 0xCFFF)]

/-- A host write (R295, R375). -/
def hostWrite (s : State) (world pa : Nat) (bytes : List Byte) : State :=
  if hostMay s world pa bytes.length then
    let s := ((blocksOf 64 pa bytes.length).map (· / 64)).foldl (fun s l => hostLine s pa bytes l) s
    holdLines s pa bytes.length
  else s.log (.denied world pa)

/-- CXL_MEM_WRITE; the stream number plays no part in the tag, which is 0xCFFF for every host write (R117). -/
def execCxlMemWrite (world pa _stream : Nat) (bytes : List Byte) (s : State) : Host.Outcome State Fault Refusal :=
  .next (if s.works && world < 16 then hostWrite s world pa bytes else s)

/-- The host has given a line up: device writes that waited for it go on (R379). -/
def execBisnpResponse (line : Nat) (s : State) : Host.Outcome State Fault Refusal :=
  .next <|
    if !s.link.snoops.contains line then s
    else
      let s := { s with link := { s.link with
        snoops := s.link.snoops.filter (· != line)
        lines := s.link.lines.filter (· != line) } }
      fabricTurn (s.wakeAll (fun _ _ => true) (· == .snoop))

/-! ### Counters and sensors -/

/-- A context is resident (R323, R377). -/
def residentCtx (s : State) (ctx : Nat) : Bool :=
  (s.dies.any fun d => d.contexts.contains ctx) ||
    s.skeins.any fun k => k.2.phase == .resident && (s.launch k.2.launch).ctx == ctx

/-- The worlds that a group of counters belongs to: of the context `owner`, or every protected world with a resident context. -/
def ownersOf (s : State) (group owner : Nat) : List Nat :=
  if group < 5 then [(s.context owner).world]
  else (upFrom 1 15).filter fun w => s.contexts.any fun c => c.2.world == w && residentCtx s c.1

/-- A host read of a counter or sensor whose value is given (R377). -/
def counterRead (s : State) (group owner : Nat) (value : BitVec 64) : State :=
  let deny := (ownersOf s group owner).filter fun w => w != 0 && !(sget (0 : BitVec 64) s.sec.allow w).getLsbD group
  let s := s.modSec fun x =>
    { x with denied := deny.foldl (fun m w => sput 0 m w (min (2 ^ 32 - 1) (sget 0 m w + 1))) x.denied }
  { s with link := { s.link with
    data := if deny.isEmpty then toBytes 8 value.toNat else toBytes 8 0
    status := if deny.isEmpty then 0 else 1 } }

def execCounterRead (group owner : Nat) (value : BitVec 64) (s : State) : Host.Outcome State Fault Refusal :=
  .next (if s.works && group < 8 then counterRead s group owner value else s)

/-! ### TDIs -/

/-- Every context of a world is reset, and the units that served it are scrubbed or, on a core that sleeps, scrub-pending
(R366, R367, R374). The reason in the messages is not given.
DEDUCED: log entry 31, unsafe. -/
def resetWorld (s : State) (w : Nat) : State :=
  let cs := (s.contexts.filter fun c => c.2.world == w).map (·.1)
  let s := cs.foldl (fun s c => forceReset { s with fresh := s.fresh + 1 } c 0 (Config.freeNat s.fresh % 2)) s
  s.cores.foldl (fun s c =>
    let us := (c.2.served.filter fun e => e.2 == w && !unitUsed s c.1 e.1).map (·.1)
    if c.2.asleep then s.setCore c.1 { s.core c.1 with pend := c.2.served.filter fun e => us.contains e.1 || c.2.pend.contains e }
    else scrubUnits s c.1 us) s

/-- TDI n, bound to world n, changes state.
PRESUMED: log entry 62, unsafe. -/
def execTdiStateChange (n : Nat) (next : TdiState) (s : State) : Host.Outcome State Fault Refusal :=
  .next <|
    if n = 0 ∨ 16 ≤ n then s
    else
      let old := sget TdiState.configUnlocked s.sec.tdi n
      let s := s.modSec fun x => { x with tdi := sput TdiState.configUnlocked x.tdi n next }
      if (next = .error ∧ old ≠ .error) ∨ (old = .run ∧ next = .configUnlocked) then resetWorld s n else s

end Sys2Proof.Machine
end

