-- ==== Sys2Proof/Machine/Load.lean ====
section
/-!
DEFINITION. What LD and SLD do in lanes whose addresses translate (R114, R149, R181, R182, R346), shared by the instructions
and by run-ahead.
-/

namespace Sys2Proof.Machine

/-- The accesses of a load or store (R149, R180). -/
def memAddrs (st : Strand) (cx : Cx) (o : MemOp) (uniform : Bool) : List Ea :=
  if uniform then [uniAddr st cx o.a o.b o.sc o.disp] else vecAddrs st cx o.a o.b o.sc o.disp

/-- A probe writes only v0, s0 or p7 (R181). -/
def isProbe (o : MemOp) (uniform : Bool) : Bool :=
  if !uniform && o.pd then o.d == 7 else o.d == 0 && o.size ≤ 2

/-- One lane loaded: words, tag, whether poison was consumed. -/
structure LaneLoad where
  thread : Nat
  words : List Word
  tag : Tag
  poison : Bool
  deriving DecidableEq, Repr, Inhabited

/-- A lane's load at a location of a view of memory; predicates carry no tag. -/
def loadLane (cx : Cx) (o : MemOp) (uniform : Bool) (view : State) (x : Ea) (l : Nat) (s : State) : LaneLoad × State :=
  let r := loadAt view l (2 ^ o.size) o.sx
  let own := if uniform then maskBits cx.mask else [x.thread]
  let (t, s) := if !uniform && o.pd then ((0 : Tag), s) else loadTag s cx own uniform x r
  ({ thread := x.thread, words := r.words, tag := t, poison := r.poison || x.poison }, s)

/-- A peer asked for a lane's bytes; nothing comes back into a probe (R181, R328). -/
def loadPeer (cx : Cx) (o : MemOp) (uniform : Bool) (x : Ea) (slot pa : Nat) (s : State) : State :=
  let n := 2 ^ o.size
  let words := if isProbe o uniform then 0 else if o.pd && !uniform then 0 else max 1 (n / 4)
  let w : PeerWait := { seq := 0, thread := x.thread, code := o.d, words := words, sx := o.sx, size := n
                        pred := o.pd && !uniform && !isProbe o uniform, rank := 0, uniform := uniform, atomic := false
                        pc := cx.site.pc, word0 := cx.site.word0 }
  askPeer s cx.u ((peerRank s (s.ctxOf (s.strand cx.u)) slot).getD 0) pa 0 (opsOf 0 n 0) w

/-- All lanes loaded, in lane order. -/
def loadLanes (cx : Cx) (o : MemOp) (uniform : Bool) (fs : List (Ea × Fate)) (s : State) : List LaneLoad × State :=
  let s := settleHits s (2 ^ o.size) fs
  let view := viewOf s cx.u
  fs.foldl (fun r x =>
    match x.2 with
    | .hit (.loc l) _ => let y := loadLane cx o uniform view x.1 l r.2; (r.1 ++ [y.1], y.2)
    | .hit (.peer slot pa) _ => (r.1, loadPeer cx o uniform x.1 slot pa r.2)
    | _ => r) (([] : List LaneLoad), s)

/-- The lanes' results written: to the destination, or to the predicate as value ≠ 0 (R182). -/
def putLoads (s : State) (cx : Cx) (o : MemOp) (uniform : Bool) (rs : List LaneLoad) : State :=
  if uniform then
    match rs with
    | r :: _ => writeU s cx o.d r.words r.tag
    | [] => s
  else if o.pd then writeP s cx o.d (rs.map fun r => (r.thread, r.words.any (· != 0)))
  else writeD s cx o.d (rs.map fun r => (r.thread, r.words, r.tag))

end Sys2Proof.Machine
end

