-- ==== Sys2Proof/Machine/RunAhead.lean ====
section
/-!
DEFINITION. Run-ahead after a load's fault (R166, R72): the rest of the region runs on a copy of the state, which is thrown
away; what comes back is the batch of pages. What the copy does not know is a set of registers and memory.
-/

namespace Sys2Proof.Machine

/-- The meanings of the instructions that run-ahead executes: none for a boundary, a load or a store. -/
def shadowExec (i : Instr) (s : State) : Option (Host.Outcome State Fault Refusal) :=
  match i with
  | .nop bnd => some (execNop bnd s)
  | .iadd o => some (execIadd o s)
  | .isub o => some (execIsub o s)
  | .imul o => some (execImul o s)
  | .imulh o => some (execImulh o s)
  | .imad o => some (execImad o s)
  | .imin o => some (execImin o s)
  | .imax o => some (execImax o s)
  | .and o => some (execAnd o s)
  | .or o => some (execOr o s)
  | .xor o => some (execXor o s)
  | .andn o => some (execAndn o s)
  | .shl o => some (execShl o s)
  | .shr o => some (execShr o s)
  | .sar o => some (execSar o s)
  | .rot o => some (execRot o s)
  | .popc o => some (execPopc o s)
  | .clz o => some (execClz o s)
  | .brev o => some (execBrev o s)
  | .iaddi o => some (execIaddi o s)
  | .andi o => some (execAndi o s)
  | .shli o => some (execShli o s)
  | .shri o => some (execShri o s)
  | .lea o => some (execLea o s)
  | .icmp o => some (execIcmp o s)
  | .sel o => some (execSel o s)
  | .mov o => some (execMov o s)
  | .movl o => some (execMovl o s)
  | .movs o => some (execMovs o s)
  | .shfl o => some (execShfl o s)
  | .scan o => some (execScan o s)
  | .sread o => some (execSread o s)
  | .fadd o => some (execFadd o s)
  | .fsub o => some (execFsub o s)
  | .fmul o => some (execFmul o s)
  | .ffma o => some (execFfma o s)
  | .fmin o => some (execFmin o s)
  | .fmax o => some (execFmax o s)
  | .fdiv o => some (execFdiv o s)
  | .fsqrt o => some (execFsqrt o s)
  | .frcp o => some (execFrcp o s)
  | .frsq o => some (execFrsq o s)
  | .fex2 o => some (execFex2 o s)
  | .flg2 o => some (execFlg2 o s)
  | .fsin o => some (execFsin o s)
  | .fcos o => some (execFcos o s)
  | .fcmp o => some (execFcmp o s)
  | .fclass o => some (execFclass o s)
  | .dadd o => some (execDadd o s)
  | .dmul o => some (execDmul o s)
  | .dfma o => some (execDfma o s)
  | .hadd2 o => some (execHadd2 o s)
  | .hmul2 o => some (execHmul2 o s)
  | .hfma2 o => some (execHfma2 o s)
  | .badd2 o => some (execBadd2 o s)
  | .bmul2 o => some (execBmul2 o s)
  | .bfma2 o => some (execBfma2 o s)
  | .cvt o => some (execCvt o s)
  | .dot4 o => some (execDot4 o s)
  | .dot8 o => some (execDot8 o s)
  | .wupd o => some (execWupd o s)
  | .rand o => some (execRand o s)
  | .fscl o => some (execFscl o s)
  | .frnd o => some (execFrnd o s)
  | .sadd o => some (execSadd o s)
  | .ssub o => some (execSsub o s)
  | .smul o => some (execSmul o s)
  | .sand o => some (execSand o s)
  | .sor o => some (execSor o s)
  | .sxor o => some (execSxor o s)
  | .sshl o => some (execSshl o s)
  | .sshr o => some (execSshr o s)
  | .smov o => some (execSmov o s)
  | .scmp o => some (execScmp o s)
  | .ssel o => some (execSsel o s)
  | .vtos o => some (execVtos o s)
  | .vote o => some (execVote o s)
  | .ballot o => some (execBallot o s)
  | .plop o => some (execPlop o s)
  | .klop o => some (execKlop o s)
  | .bra o => some (execBra o s)
  | .sbra o => some (execSbra o s)
  | .jmp o => some (execJmp o s)
  | .exit o => some (execExit o s)
  | .chkerr o => some (execChkerr o s)
  | .tagGet o => some (execTagGet o s)
  | .tagSet o => some (execTagSet o s)
  | .tagMint o => some (execTagMint o s)
  | .accz o => some (execAccz o s)
  | .accld o => some (execAccld o s)
  | .accst o => some (execAccst o s)
  | .accrd o => some (execAccrd o s)
  | .msyncAll o => some (execMsyncAll o s)
  | .msyncProg o => some (execMsyncProg o s)
  | .msyncWs o => some (execMsyncWs o s)
  | .getc o => some (execGetc o s)
  | .setc o => some (execSetc o s)
  | .setcCrew o => some (execSetcCrew o s)
  | .setcQmap o => some (execSetcQmap o s)
  | .setcStfq o => some (execSetcStfq o s)
  | .sysReplay o => some (execSysReplay o s)
  | .sysReplayTok o => some (execSysReplayTok o s)
  | .sysTlbinv o => some (execSysTlbinv o s)
  | .sysDiagst o => some (execSysDiagst o s)
  | .sysDiagld o => some (execSysDiagld o s)
  | .sysScrub o => some (execSysScrub o s)
  | .sysWorld o => some (execSysWorld o s)
  | .sysHalt o => some (execSysHalt o s)
  | _ => none

/-! ### What is not known -/

/-- A register whose value is not known: thread (32 for the strand's own files), space as in `Outst`, with 5 for control
registers, and code. -/
abbrev Unknown := Nat × Nat × Nat

/-- What run-ahead carries: the copy, the fragment, unknown registers, unknown memory as (address, bytes), whether a store
went to an unknown address, the pages so far. -/
structure Ahead where
  s : State
  u : Nat
  mask : BitVec 32
  unknown : List Unknown := []
  memory : List (Nat × Nat) := []
  blind : Bool := false
  pages : List Nat := []

/-- The registers of a use in thread i. -/
def unknownsOf (us : List Use) (i : Nat) : List Unknown :=
  (touched us).map fun r => (if r.1 = 0 ∨ r.1 = 1 then i else 32, r.1, r.2)

def Ahead.lacks (a : Ahead) (us : List Use) (i : Nat) : Bool := (unknownsOf us i).any a.unknown.contains

def Ahead.forget (a : Ahead) (xs : List Unknown) : Ahead := { a with unknown := (a.unknown ++ xs).dedup }

def Ahead.learn (a : Ahead) (xs : List Unknown) : Ahead := { a with unknown := a.unknown.filter fun x => !xs.contains x }

/-- The guard's predicate as a use. -/
def guardUse (op : Nat) (r : Raw) : Use := if guardIsK op r then useK r.pg true false else useP r.pg true false

/-- Bytes that run-ahead does not know. -/
def Ahead.memUnknown (a : Ahead) (va n : Nat) : Bool :=
  a.blind || a.memory.any fun m => m.1 < va + n && va < m.1 + m.2

/-- Instructions whose result in a thread depends on other threads. -/
def crossesLanes (op : Nat) : Bool := isUniform op || op == 0x1D || op == 0x1E

/-! ### One instruction -/

/-- The copy with the strand ready to go on: results returned, no span that unwinds on poison. -/
def calm (s : State) (u : Nat) : State :=
  s.modStrand u fun st =>
    { st with
      peers := [], spans := st.spans.map fun x => { x with p := false }
      threads := st.threads.map fun t => { t with outs := [] } }

/-- The fragment that the copy issues. -/
def withRun (s : State) (u : Nat) (m : BitVec 32) : State :=
  { s with cur := some { part := (s.strand u).home, frags := [(u, m)] } }

/-- The instruction trapped, ended the strand or waits: run-ahead is over. -/
def stuck (a b : Strand) : Bool :=
  a.trap != b.trap || a.phase != b.phase || b.threads.any fun t => t.wait != .ready && t.live

/-- The pcs of threads set to the next instruction. -/
def stepOver (s : State) (u : Nat) (m : BitVec 32) (next : BitVec 62) : State :=
  s.modStrand u fun st => st.modThreads m fun t => { t with pc := next }

/-- Control register that an instruction reads (GETC) or writes (SETC). -/
def ctlUse (i : Instr) : Option (Nat × Bool) :=
  match i with
  | .getc o => some (o.n, false)
  | .setc o => some (o.n, true)
  | .setcCrew o => some (o.n, true)
  | .setcQmap o => some (o.n, true)
  | .setcStfq o => some (o.n, true)
  | _ => none

/-- An instruction other than a load or store: executed in the threads whose sources and guard are known, its results unknown
in the others. None: run-ahead ends. -/
def aheadOther (a : Ahead) (i : Instr) (op : Nat) (r : Raw) (next : BitVec 62) : Option Ahead :=
  let us := usesOf op r
  let needs := guardUse op r :: us.filter (·.rd)
  let makes := us.filter (·.wr)
  let st := a.s.strand a.u
  let lanes := st.byLane a.mask
  let bad := lanes.filter (a.lacks needs)
  let ctl := ctlUse i
  let ctlBad := match ctl with
    | some (n, false) => a.unknown.contains (32, 5, n)
    | _ => false
  let jumps := op == 0x52 || op == 0x53 || op == 0x54 || op == 0x58
  if jumps && !bad.isEmpty then none
  else
    let skip := if ctlBad || (crossesLanes op && !bad.isEmpty) then lanes else bad
    let run := a.mask &&& ~~~maskOf skip
    let a := a.forget (skip.flatMap (unknownsOf makes))
    let a := match ctl with
      | some (n, true) => if skip.isEmpty then a.learn [(32, 5, n)] else a.forget [(32, 5, n)]
      | _ => a
    let past (s : State) : State := stepOver s a.u (maskOf skip) next
    if run = 0 then some { a with s := past a.s }
    else
      match shadowExec i (withRun (calm a.s a.u) a.u run) with
      | some (.next s) =>
        if stuck st (s.strand a.u) then none
        else
          let known := (st.byLane run).flatMap (unknownsOf makes)
          some { a.learn (known.filter fun x => x.1 != 32 || skip.isEmpty) with s := past s }
      | _ => none

/-- What run-ahead knows of a context for one instruction. -/
def aheadCx (a : Ahead) (act : List Nat) (op : Nat) (r : Raw) (pc : BitVec 62) : Cx :=
  let st := a.s.strand a.u
  { u := a.u, mask := a.mask, act := act, pops := [], op := op, raw := r, rule := ruleOf st op r.tr, here := siteTag a.s st pc
    site := { u := a.u, mask := a.mask, pc := pc, words := r.form.words, word0 := 0, boundary := false } }

/-- The address operands of a load or store. -/
def addrUses (op : Nat) (r : Raw) (uniform : Bool) : List Use :=
  [guardUse op r, useN (if uniform then .s else .v) r.a 1 true false 1, useN .s r.b 2 true false 2]

/-- Active threads whose addresses are known. -/
def aheadActive (a : Ahead) (op : Nat) (r : Raw) (uniform : Bool) : List Nat :=
  let st := a.s.strand a.u
  let ts := (activeThreads st op r a.mask).filter fun i => !a.lacks (addrUses op r uniform) i
  if uniform then (if ts.length = (st.byLane a.mask).length then ts else []) else ts

/-- A load: pages not present join the batch, and what they hold is unknown (R166). None: run-ahead ends at a fault. -/
def aheadLoad (a : Ahead) (o : MemOp) (uniform : Bool) (op : Nat) (r : Raw) (pc next : BitVec 62) : Option Ahead :=
  let us := usesOf op r
  let makes := us.filter (·.wr)
  let st := a.s.strand a.u
  let act := aheadActive a op r uniform
  let maybe := (st.byLane a.mask).filter fun i => guardOf st op r i || a.lacks [guardUse op r] i
  let cx := aheadCx a act op r pc
  let n := 2 ^ o.size
  let xs := if uniform && act.isEmpty then [] else memAddrs st cx o uniform
  let probe := isProbe o uniform
  if !probe && (badAddr xs n).isSome then none
  else
    let (fs, s) := fates a.s a.u uniform .load n (xs.filter fun x => x.va < 2 ^ 56 && x.va % n == 0)
    if probe then some { a with s := stepOver s a.u a.mask next }
    else if fs.any fun x => match x.2 with | .bad _ => true | _ => false then none
    else
      let pages := ((absentOf fs).filter fun p => !a.pages.contains p)
      let sure := fs.filter fun x => match x.2 with
        | .hit (.loc _) _ => !a.memUnknown x.1.va n
        | _ => false
      let (rs, s) := loadLanes cx o uniform sure s
      let known := if uniform then (if sure.isEmpty then [] else [32]) else sure.map (·.1.thread)
      let a := a.forget (maybe.flatMap (unknownsOf makes))
      let a := a.learn (known.flatMap fun i => (touched makes).map fun x => (i, x.1, x.2))
      some { a with s := stepOver (putLoads s cx o uniform rs) a.u a.mask next, pages := a.pages ++ pages }

/-- A store: buffered in the copy where all of it is known. None: it would trap (R180, R164). -/
def aheadStore (a : Ahead) (o : MemOp) (uniform : Bool) (op : Nat) (r : Raw) (pc next : BitVec 62) : Option Ahead :=
  let st := a.s.strand a.u
  let act := aheadActive a op r uniform
  let maybe := (st.byLane a.mask).filter fun i => guardOf st op r i || a.lacks [guardUse op r] i
  let blind := maybe.any fun i => a.lacks (addrUses op r uniform) i
  let cx := aheadCx a act op r pc
  let n := 2 ^ o.size
  let xs := if uniform && act.isEmpty then [] else memAddrs st cx o uniform
  let words := max 1 (n / 4)
  let data (i : Nat) : Opd := if uniform then st.readS o.d words else (st.thread i).readV o.d words
  let dataUse := useN (if uniform then .s else .v) o.d words true false 0
  let own := if uniform then st.byLane a.mask else act
  if (badAddr xs n).isSome || own.any fun i => 32 ≤ storeCount st i then none
  else
    let lost := xs.filter fun x => a.lacks [dataUse] x.thread
    let good := xs.filter fun x => !a.lacks [dataUse] x.thread
    let lanes := good.map fun x => stLane st x.thread x.lane x.va o.size (data x.thread)
    let s := if lanes.isEmpty then a.s else bufferStore a.s cx .st o.size false lanes
    let again := a.memory.filter fun m => !good.any fun x => x.va ≤ m.1 && m.1 + m.2 ≤ x.va + n
    some { a with s := stepOver s a.u a.mask next, blind := a.blind || blind, memory := again ++ lost.map fun x => (x.va, n) }

/-! ### The rest of the region -/

/-- The fragment goes on as the threads that stand with its lowest lane.
DEDUCED: log entry 17, unsafe. -/
def Ahead.regroup (a : Ahead) : Ahead :=
  let st := a.s.strand a.u
  match byPc st (a.mask &&& st.liveMask) with
  | g :: _ => { a with mask := g.2 }
  | [] => { a with mask := 0 }

/-- One instruction of run-ahead; none at its end (R166). -/
def aheadStep (a : Ahead) : Option Ahead :=
  let st := a.s.strand a.u
  if a.mask = 0 || 8 ≤ a.pages.length then none
  else
    let pc := (st.thread (st.lowest a.mask)).pc
    match fetchAt a.s a.u pc with
    | (.words w, s) =>
      match decode st.sys w with
      | .error _ => none
      | .ok i =>
        match toRaw i with
        | none => none
        | some (op, r) =>
          let a := { a with s := s }
          let us := usesOf op r
          let next := pc + BitVec.ofNat 62 r.form.words
          if isBoundary op us || (checkFault st op r us).isSome || (converges op r && a.mask != st.liveMask) then none
          else
            (match i with
             | .ld o => aheadLoad a o false op r pc next
             | .sld o => aheadLoad a o true op r pc next
             | .st o => aheadStore a o false op r pc next
             | .sst o => aheadStore a o true op r pc next
             | _ => aheadOther a i op r next).map Ahead.regroup
    | _ => none

/-- The most instructions that a run-ahead takes.
DEDUCED: log entry 17, unsafe. -/
def aheadFuel : Nat := 4096

/-- DEDUCED: log entry 17, unsafe. -/
def aheadRun : Nat → Ahead → Ahead
  | 0, a => a
  | fuel + 1, a =>
    match aheadStep a with
    | none => a
    | some b => aheadRun fuel b

/-- The batch of a load that meets pages `ps`, at most eight (R166): what run-ahead from it collects.
DEDUCED: log entry 17, unsafe. -/
def batchOf (s : State) (cx : Cx) (ps : List Nat) : List Nat :=
  let st := s.strand cx.u
  let us := (usesOf cx.op cx.raw).filter (·.wr)
  let peers : List Unknown := st.peers.flatMap fun w => (PeerWait.regs w).map fun r => (if r.1 = 0 ∨ r.1 = 1 then w.thread else 32, r.1, r.2)
  let a : Ahead :=
    { s := calm s cx.u, u := cx.u, mask := cx.mask, pages := ps.take 8
      unknown := (cx.act.flatMap (unknownsOf us) ++ peers).dedup }
  ((aheadRun aheadFuel (Ahead.regroup { a with s := stepOver a.s cx.u cx.mask cx.next })).pages).take 8

end Sys2Proof.Machine
end

