-- ==== Sys2Proof/Machine/LoadStore.lean ====
section
/-!
DEFINITION. LD, ST, SLD and SST (R148 to R150, R179 to R187).
-/

namespace Sys2Proof.Machine

/-! ### Loads -/

/-- An sc load waits for its threads' closed sc stores, so that all sc accesses fall in one order (R186).
DEDUCED: log entry 38, unsafe. -/
def afterScStores (s : State) (cx : Cx) (o : MemOp) (k : State → Eff) : Eff :=
  if o.sync && o.ord = 3 then
    let m := maskOf cx.act
    let s := commitPass s cx.u (countsFor m)
    if (s.strand cx.u).cq.any fun e => e.sc && countsFor m e then .wait .stores s else k s
  else k s

/-- Faults that a probe suppresses, counted for its core (R181).
DEDUCED: log entry 45, unsafe. -/
def countProbes (s : State) (core n : Nat) : State :=
  if n = 0 then s else s.setCore core { s.core core with probes := (s.core core).probes + n }

/-- A probe (R181): no trap, no birth, no result; the lanes that hit are performed.
DEDUCED: log entry 45, unsafe. -/
def probe (o : MemOp) (uniform : Bool) (cx : Cx) (xs : List Ea) (s : State) : Eff :=
  let n := 2 ^ o.size
  let good := xs.filter fun x => x.va < 2 ^ 56 && x.va % n == 0
  let (fs, s) := fates s cx.u uniform .load n good
  let hits := fs.filter (·.2.isHit)
  if anyHeld s cx.u (hits.map (·.1)) n then .wait .scoreboard s
  else
    let peers := hits.foldl (fun s x => match x.2 with
      | .hit (.peer slot pa) _ => loadPeer cx o uniform x.1 slot pa s
      | _ => s) s
    .ok (countProbes peers (s.strand cx.u).core (xs.length - hits.length))

/-- A load whose lowest missing lane's page is not present (R166): the batch of run-ahead, or the one page.
DEDUCED: log entry 19, unsafe. -/
def loadFault (cx : Cx) (ps : List Nat) (s : State) : Eff :=
  let st := s.strand cx.u
  parkUnder s cx.u (if cfld st.ctl.rctl 16 1 = 1 then batchOf s cx ps else ps.take 1) false true

/-- LD and SLD (R149, R180, R182). -/
def load (o : MemOp) (uniform : Bool) (cx : Cx) (s : State) : Eff :=
  let n := 2 ^ o.size
  let xs := memAddrs (s.strand cx.u) cx o uniform
  afterScStores s cx o fun s =>
    if isProbe o uniform then probe o uniform cx xs s
    else
      withAddrs xs n uniform s fun s =>
        let (fs, s) := fates s cx.u uniform .load n xs
        withHits fs 0 s (loadFault cx) fun s =>
          if anyHeld s cx.u xs n then .wait .scoreboard s
          else
            let (rs, s) := loadLanes cx o uniform fs s
            .done (putLoads s cx o uniform rs) (rs.any (·.poison))

def execLd (o : MemOp) (s : State) : Host.Outcome State Fault Refusal := issue (.ld o) s (load o false)
def execSld (o : MemOp) (s : State) : Host.Outcome State Fault Refusal := issue (.sld o) s (load o true)

/-! ### Stores -/

/-- A release store waits for its threads' earlier closed stores (R185). -/
def releaseFirst (s : State) (cx : Cx) (o : MemOp) (m : BitVec 32) (k : State → Eff) : Eff :=
  if o.sync && (o.ord = 2 ∨ o.ord = 3) then release s cx.u cx.site.pc m o.scope k else k s

/-- ST (R180, R183): one entry, with a lane for each active thread. -/
def store (o : MemOp) (cx : Cx) (s : State) : Eff :=
  let st := s.strand cx.u
  let n := 2 ^ o.size
  let xs := memAddrs st cx o false
  withAddrs xs n false s fun s =>
    if cx.act.any fun i => 32 ≤ storeCount st i then overflow s cx
    else
      releaseFirst s cx o (maskOf cx.act) fun s =>
        let st := s.strand cx.u
        let data := xs.map fun x => (x, (st.thread x.thread).readV o.d (max 1 (n / 4)))
        let lanes := data.map fun d => stLane st d.1.thread d.1.lane d.1.va o.size d.2
        .done (bufferStore s cx .st o.size (o.sync && o.ord == 3) lanes) (data.any fun d => d.1.poison || d.2.poison)

def execSt (o : MemOp) (s : State) : Host.Outcome State Fault Refusal := issue (.st o) s (store o)

/-- SST (R149): one store of the fragment, counted for each of its threads; one lane carries the bytes. -/
def storeUniform (o : MemOp) (cx : Cx) (s : State) : Eff :=
  let st := s.strand cx.u
  let n := 2 ^ o.size
  let x := uniAddr st cx o.a o.b o.sc o.disp
  let ts := st.byLane cx.mask
  withAddrs [x] n true s fun s =>
    if ts.any fun i => 32 ≤ storeCount st i then overflow s cx
    else
      releaseFirst s cx o cx.mask fun s =>
        let st := s.strand cx.u
        let d := st.readS o.d (max 1 (n / 4))
        let lanes := ts.map fun i => stLane st i (st.thread i).lane x.va o.size d
        .done (bufferStore s cx .sst o.size (o.sync && o.ord == 3) lanes) (x.poison || d.poison)

def execSst (o : MemOp) (s : State) : Host.Outcome State Fault Refusal := issue (.sst o) s (storeUniform o)

end Sys2Proof.Machine
end

