-- ==== Sys2Proof/Machine/Module.lean ====
section
/-!
DEFINITION. The module: boot (R384), firmware (R385), temperature (R387), and the creation of contexts (R50, R279, R300, R331,
R362, R376, R380).
-/

namespace Sys2Proof.Machine

/-- The state from which the module boots: as at power-on, but for the flash, the bank that a verified update makes active,
and the health log.
DESIGN CHOICE: log entry 36, unsafe. -/
def State.powerOn (s : State) : State :=
  { State.reset with
    sec := {
      flash := s.sec.flash
      active := if s.sec.verified then 1 - s.sec.active else s.sec.active
      log := s.sec.log }
    agenda := s.agenda
    fresh := s.fresh
    uid := s.uid }

/-- Boot (R384): the stages measured (R372), the configuration record read, LPDDR scrubbed, the Page Ownership Table built
(R360), ready. A module that runs already does not boot.
DESIGN CHOICE: log entry 36, unsafe. -/
def boot (s : State) (o : BootOp) : State :=
  if s.works then s
  else
    let s := s.powerOn
    let digests := (List.range 8).map fun i => if i < 5 then o.digests.getD i 0 else 0
    let s := (digests.zipIdx).foldl (fun s d => extend s d.2 d.1) s
    let s := s.modSec fun x =>
      { x with
        potDefault := 0x0010
        sweepDefault := o.sweepDefault
        sweepArea := o.sweepArea
        sweepSize := o.sweepSize }
    { s with link := { s.link with ready := true } }

def execBoot (o : BootOp) (s : State) : Host.Outcome State Fault Refusal := .next (boot s o)

/-- An image written to the inactive bank, and whether its signature is good (R385). -/
def execFirmwareUpdate (digest : BitVec 256) (good : Bool) (s : State) : Host.Outcome State Fault Refusal :=
  .next <|
    if !s.works then s
    else s.modSec fun x =>
      { x with
        flash := x.flash.mapIdx fun i d => if i = 1 - x.active then digest else d
        verified := good }

/-- A die throttles (R387): idle issue cycles, which change timing alone. -/
def execThermalThrottle (die : Nat) (s : State) : Host.Outcome State Fault Refusal :=
  .next { s with dies := s.dies.mapIdx fun i d => if i = die then { d with throttled := true } else d }

/-- Shutdown (R387): the module stops, and the log names die and cycle. -/
def execThermalShutdown (die : Nat) (s : State) : Host.Outcome State Fault Refusal :=
  .next <|
    if 8 ≤ die || s.link.stopped then s
    else
      let s := s.log (.shutdown die (s.dies.getD die {}).cycle)
      { s with link := { s.link with stopped := true }, cur := none }

/-- The tenant's key slots and allow-list of a world are empty as its first context is created (R370, R376). -/
def firstOfWorld (s : State) (w : Nat) : State :=
  if s.contexts.any fun c => c.2.world == w then s
  else s.modSec fun x =>
    { x with
      allow := sdel x.allow w
      keys := x.keys.filter fun k => k.1 / 16 != w }

/-- What firmware writes into the context's own memory: the mailbox table, and the head of the save area (R300, R331). -/
def contextMemory (s : State) (p : CtxParams) : State :=
  let s := p.boxes.foldl (fun s b =>
    if b.1 < 4096 then devPutQuiet s p.ctx (p.mbx * 64 + 32 * b.1) ((b.2 ++ List.replicate 32 0).take 32) else s) s
  devPutQuiet s p.ctx p.area (toBytes 4 p.blkSize ++ toBytes 4 p.blkCount ++ List.replicate 1016 0)

/-- A peer slot as the table holds it: bits 13 to 0 and 31 (R279). -/
def peerSlots (p : CtxParams) : Sparse (BitVec 32) :=
  (p.peers.filter fun e => e.1 < 2048).foldl (fun m e => sput 0 m e.1 (e.2 &&& 0x80003FFF)) []

/-- Fields that fit their registers (R50, R331, R380). -/
def paramsOk (p : CtxParams) : Bool :=
  p.ctx < 2 ^ 16 && p.world < 16 && p.ptroot < 2 ^ 44 && p.mbx < 2 ^ 50 && p.deadline < 2 ^ 48 &&
    p.area % 2 ^ 17 == 0 && p.blkSize % 2 ^ 17 == 0 && 1 ≤ p.blkCount && p.blkCount ≤ 4096 &&
    (p.control == 0 || (p.control % 4096 == 0 && devBase + 4096 ≤ p.control && p.control < devBase + 2 ^ 32))

/-- CONTEXT_CREATION: not before the module is ready, and not for an identifier in use.
DEDUCED: log entry 37, unsafe. -/
def createContext (s : State) (p : CtxParams) : State :=
  if !s.works || !paramsOk p || (sfind s.contexts p.ctx).isSome then s
  else
    let s := firstOfWorld s p.world
    let c : Context := {
      world := p.world
      ptroot := p.ptroot
      mbx := p.mbx
      deadline := p.deadline
      area := p.area
      peers := peerSlots p
      pages := p.pages
      control := p.control }
    let s := { s with contexts := sset s.contexts p.ctx c }
    let s := if p.control = 0 then s else s.write p.control (List.replicate 8 0)
    contextMemory s p

def execContextCreation (p : CtxParams) (s : State) : Host.Outcome State Fault Refusal := .next (createContext s p)

end Sys2Proof.Machine
end

