-- ==== Sys2Proof/Machine/Dispatch.lean ====
section
/-!
DEFINITION. The dispatch of instructions and events to their meanings.
-/

namespace Sys2Proof.Machine

/-- The meaning of an instruction or event. -/
def exec (i : Instr) (s : State) : Host.Outcome State Fault Refusal :=
  match i with
  | .nop bnd => Sys2Proof.Machine.execNop bnd s
  | .iadd o => Sys2Proof.Machine.execIadd o s
  | .isub o => Sys2Proof.Machine.execIsub o s
  | .imul o => Sys2Proof.Machine.execImul o s
  | .imulh o => Sys2Proof.Machine.execImulh o s
  | .imad o => Sys2Proof.Machine.execImad o s
  | .imin o => Sys2Proof.Machine.execImin o s
  | .imax o => Sys2Proof.Machine.execImax o s
  | .and o => Sys2Proof.Machine.execAnd o s
  | .or o => Sys2Proof.Machine.execOr o s
  | .xor o => Sys2Proof.Machine.execXor o s
  | .andn o => Sys2Proof.Machine.execAndn o s
  | .shl o => Sys2Proof.Machine.execShl o s
  | .shr o => Sys2Proof.Machine.execShr o s
  | .sar o => Sys2Proof.Machine.execSar o s
  | .rot o => Sys2Proof.Machine.execRot o s
  | .popc o => Sys2Proof.Machine.execPopc o s
  | .clz o => Sys2Proof.Machine.execClz o s
  | .brev o => Sys2Proof.Machine.execBrev o s
  | .iaddi o => Sys2Proof.Machine.execIaddi o s
  | .andi o => Sys2Proof.Machine.execAndi o s
  | .shli o => Sys2Proof.Machine.execShli o s
  | .shri o => Sys2Proof.Machine.execShri o s
  | .lea o => Sys2Proof.Machine.execLea o s
  | .icmp o => Sys2Proof.Machine.execIcmp o s
  | .sel o => Sys2Proof.Machine.execSel o s
  | .mov o => Sys2Proof.Machine.execMov o s
  | .movl o => Sys2Proof.Machine.execMovl o s
  | .movs o => Sys2Proof.Machine.execMovs o s
  | .shfl o => Sys2Proof.Machine.execShfl o s
  | .scan o => Sys2Proof.Machine.execScan o s
  | .sread o => Sys2Proof.Machine.execSread o s
  | .fadd o => Sys2Proof.Machine.execFadd o s
  | .fsub o => Sys2Proof.Machine.execFsub o s
  | .fmul o => Sys2Proof.Machine.execFmul o s
  | .ffma o => Sys2Proof.Machine.execFfma o s
  | .fmin o => Sys2Proof.Machine.execFmin o s
  | .fmax o => Sys2Proof.Machine.execFmax o s
  | .fdiv o => Sys2Proof.Machine.execFdiv o s
  | .fsqrt o => Sys2Proof.Machine.execFsqrt o s
  | .frcp o => Sys2Proof.Machine.execFrcp o s
  | .frsq o => Sys2Proof.Machine.execFrsq o s
  | .fex2 o => Sys2Proof.Machine.execFex2 o s
  | .flg2 o => Sys2Proof.Machine.execFlg2 o s
  | .fsin o => Sys2Proof.Machine.execFsin o s
  | .fcos o => Sys2Proof.Machine.execFcos o s
  | .fcmp o => Sys2Proof.Machine.execFcmp o s
  | .fclass o => Sys2Proof.Machine.execFclass o s
  | .dadd o => Sys2Proof.Machine.execDadd o s
  | .dmul o => Sys2Proof.Machine.execDmul o s
  | .dfma o => Sys2Proof.Machine.execDfma o s
  | .hadd2 o => Sys2Proof.Machine.execHadd2 o s
  | .hmul2 o => Sys2Proof.Machine.execHmul2 o s
  | .hfma2 o => Sys2Proof.Machine.execHfma2 o s
  | .badd2 o => Sys2Proof.Machine.execBadd2 o s
  | .bmul2 o => Sys2Proof.Machine.execBmul2 o s
  | .bfma2 o => Sys2Proof.Machine.execBfma2 o s
  | .cvt o => Sys2Proof.Machine.execCvt o s
  | .dot4 o => Sys2Proof.Machine.execDot4 o s
  | .dot8 o => Sys2Proof.Machine.execDot8 o s
  | .wupd o => Sys2Proof.Machine.execWupd o s
  | .rand o => Sys2Proof.Machine.execRand o s
  | .fscl o => Sys2Proof.Machine.execFscl o s
  | .frnd o => Sys2Proof.Machine.execFrnd o s
  | .sadd o => Sys2Proof.Machine.execSadd o s
  | .ssub o => Sys2Proof.Machine.execSsub o s
  | .smul o => Sys2Proof.Machine.execSmul o s
  | .sand o => Sys2Proof.Machine.execSand o s
  | .sor o => Sys2Proof.Machine.execSor o s
  | .sxor o => Sys2Proof.Machine.execSxor o s
  | .sshl o => Sys2Proof.Machine.execSshl o s
  | .sshr o => Sys2Proof.Machine.execSshr o s
  | .smov o => Sys2Proof.Machine.execSmov o s
  | .scmp o => Sys2Proof.Machine.execScmp o s
  | .ssel o => Sys2Proof.Machine.execSsel o s
  | .sld o => Sys2Proof.Machine.execSld o s
  | .sst o => Sys2Proof.Machine.execSst o s
  | .vtos o => Sys2Proof.Machine.execVtos o s
  | .vote o => Sys2Proof.Machine.execVote o s
  | .ballot o => Sys2Proof.Machine.execBallot o s
  | .plop o => Sys2Proof.Machine.execPlop o s
  | .klop o => Sys2Proof.Machine.execKlop o s
  | .bra o => Sys2Proof.Machine.execBra o s
  | .sbra o => Sys2Proof.Machine.execSbra o s
  | .jmp o => Sys2Proof.Machine.execJmp o s
  | .call o => Sys2Proof.Machine.execCall o s
  | .callr o => Sys2Proof.Machine.execCallr o s
  | .ret o => Sys2Proof.Machine.execRet o s
  | .exit o => Sys2Proof.Machine.execExit o s
  | .rgn o => Sys2Proof.Machine.execRgn o s
  | .guardOpen o => Sys2Proof.Machine.execGuardOpen o s
  | .guardClose o => Sys2Proof.Machine.execGuardClose o s
  | .trap o => Sys2Proof.Machine.execTrap o s
  | .tretRestart o => Sys2Proof.Machine.execTretRestart o s
  | .tretNext o => Sys2Proof.Machine.execTretNext o s
  | .tretKill o => Sys2Proof.Machine.execTretKill o s
  | .chkerr o => Sys2Proof.Machine.execChkerr o s
  | .drain o => Sys2Proof.Machine.execDrain o s
  | .tagGet o => Sys2Proof.Machine.execTagGet o s
  | .tagSet o => Sys2Proof.Machine.execTagSet o s
  | .tagMint o => Sys2Proof.Machine.execTagMint o s
  | .ld o => Sys2Proof.Machine.execLd o s
  | .st o => Sys2Proof.Machine.execSt o s
  | .atom o => Sys2Proof.Machine.execAtom o s
  | .red o => Sys2Proof.Machine.execRed o s
  | .cas o => Sys2Proof.Machine.execCas o s
  | .fence o => Sys2Proof.Machine.execFence o s
  | .bari o => Sys2Proof.Machine.execBari o s
  | .barv o => Sys2Proof.Machine.execBarv o s
  | .barw o => Sys2Proof.Machine.execBarw o s
  | .cpyMemory o => Sys2Proof.Machine.execCpyMemory o s
  | .cpyFromPort o => Sys2Proof.Machine.execCpyFromPort o s
  | .cpyToPort o => Sys2Proof.Machine.execCpyToPort o s
  | .cseal o => Sys2Proof.Machine.execCseal o s
  | .cwait o => Sys2Proof.Machine.execCwait o s
  | .tokw o => Sys2Proof.Machine.execTokw o s
  | .tokp o => Sys2Proof.Machine.execTokp o s
  | .mail o => Sys2Proof.Machine.execMail o s
  | .emit o => Sys2Proof.Machine.execEmit o s
  | .mma o => Sys2Proof.Machine.execMma o s
  | .mmas o => Sys2Proof.Machine.execMmas o s
  | .mmd o => Sys2Proof.Machine.execMmd o s
  | .accz o => Sys2Proof.Machine.execAccz o s
  | .accld o => Sys2Proof.Machine.execAccld o s
  | .accst o => Sys2Proof.Machine.execAccst o s
  | .accrd o => Sys2Proof.Machine.execAccrd o s
  | .smx o => Sys2Proof.Machine.execSmx o s
  | .wsl o => Sys2Proof.Machine.execWsl o s
  | .msyncAll o => Sys2Proof.Machine.execMsyncAll o s
  | .msyncProg o => Sys2Proof.Machine.execMsyncProg o s
  | .msyncWs o => Sys2Proof.Machine.execMsyncWs o s
  | .launch o => Sys2Proof.Machine.execLaunch o s
  | .getc o => Sys2Proof.Machine.execGetc o s
  | .setc o => Sys2Proof.Machine.execSetc o s
  | .setcCrew o => Sys2Proof.Machine.execSetcCrew o s
  | .setcQmap o => Sys2Proof.Machine.execSetcQmap o s
  | .setcStfq o => Sys2Proof.Machine.execSetcStfq o s
  | .sysReplay o => Sys2Proof.Machine.execSysReplay o s
  | .sysReplayTok o => Sys2Proof.Machine.execSysReplayTok o s
  | .sysTlbinv o => Sys2Proof.Machine.execSysTlbinv o s
  | .sysDiagst o => Sys2Proof.Machine.execSysDiagst o s
  | .sysDiagld o => Sys2Proof.Machine.execSysDiagld o s
  | .sysScrub o => Sys2Proof.Machine.execSysScrub o s
  | .sysWorld o => Sys2Proof.Machine.execSysWorld o s
  | .sysHalt o => Sys2Proof.Machine.execSysHalt o s
  | .runArbitration part => Sys2Proof.Machine.execRunArbitration part s
  | .convergenceIssue st => Sys2Proof.Machine.execConvergenceIssue st s
  | .longLatencyReturn st id => Sys2Proof.Machine.execLongLatencyReturn st id s
  | .queueAccessResume st => Sys2Proof.Machine.execQueueAccessResume st s
  | .scoreboardRelease core id => Sys2Proof.Machine.execScoreboardRelease core id s
  | .regionReentry st threads => Sys2Proof.Machine.execRegionReentry st threads s
  | .operandParityError st threads => Sys2Proof.Machine.execOperandParityError st threads s
  | .commitCheck st => Sys2Proof.Machine.execCommitCheck st s
  | .parkedStorePerform st seq => Sys2Proof.Machine.execParkedStorePerform st seq s
  | .ord10StorePerform st => Sys2Proof.Machine.execOrd10StorePerform st s
  | .tokwAcquire st => Sys2Proof.Machine.execTokwAcquire st s
  | .copyComplete core id => Sys2Proof.Machine.execCopyComplete core id s
  | .copyResume core id => Sys2Proof.Machine.execCopyResume core id s
  | .barwWake st => Sys2Proof.Machine.execBarwWake st s
  | .barwTimeout st => Sys2Proof.Machine.execBarwTimeout st s
  | .matrixAccept st => Sys2Proof.Machine.execMatrixAccept st s
  | .crewRendezvous st => Sys2Proof.Machine.execCrewRendezvous st s
  | .rowBlockComplete st id failed => Sys2Proof.Machine.execRowBlockComplete st id failed s
  | .matrixResume st id => Sys2Proof.Machine.execMatrixResume st id s
  | .wsuBlockDelivery core => Sys2Proof.Machine.execWsuBlockDelivery core s
  | .wsuQueuePush core => Sys2Proof.Machine.execWsuQueuePush core s
  | .wsuResume core => Sys2Proof.Machine.execWsuResume core s
  | .peerResponseArrival rtag value => Sys2Proof.Machine.execPeerResponseArrival rtag value s
  | .mailboxMessageArrival m => Sys2Proof.Machine.execMailboxMessageArrival m s
  | .hostMailboxWrite m => Sys2Proof.Machine.execHostMailboxWrite m s
  | .mailDelivery ctx n => Sys2Proof.Machine.execMailDelivery ctx n s
  | .launchIntake ctx n => Sys2Proof.Machine.execLaunchIntake ctx n s
  | .launchWaitResolved launch => Sys2Proof.Machine.execLaunchWaitResolved launch s
  | .hankPlacement launch cluster => Sys2Proof.Machine.execHankPlacement launch cluster s
  | .launchCompletion launch => Sys2Proof.Machine.execLaunchCompletion launch s
  | .emitRecordIntake die => Sys2Proof.Machine.execEmitRecordIntake die s
  | .continuationTimeout launch entry => Sys2Proof.Machine.execContinuationTimeout launch entry s
  | .generationFormation launch => Sys2Proof.Machine.execGenerationFormation launch s
  | .bobbinPreempt launch => Sys2Proof.Machine.execBobbinPreempt launch s
  | .preempt ctx dies hold => Sys2Proof.Machine.execPreempt ctx dies hold s
  | .releaseHold ctx => Sys2Proof.Machine.execReleaseHold ctx s
  | .controlCmdInvalid ctx cmd => Sys2Proof.Machine.execControlCmdInvalid ctx cmd s
  | .preemptionSave ctx => Sys2Proof.Machine.execPreemptionSave ctx s
  | .saveDeadlineExpiry ctx die => Sys2Proof.Machine.execSaveDeadlineExpiry ctx die s
  | .contextRestore hank cluster => Sys2Proof.Machine.execContextRestore hank cluster s
  | .gangSwitchCommand gang deadline => Sys2Proof.Machine.execGangSwitchCommand gang deadline s
  | .sweep gang deadline => Sys2Proof.Machine.execSweep gang deadline s
  | .sweepMarkerArrival gang port vc => Sys2Proof.Machine.execSweepMarkerArrival gang port vc s
  | .sweepDone gang chip => Sys2Proof.Machine.execSweepDone gang chip s
  | .sweepDeadlineExpiry gang => Sys2Proof.Machine.execSweepDeadlineExpiry gang s
  | .gangResumeRequest gang map => Sys2Proof.Machine.execGangResumeRequest gang map s
  | .resume gang map => Sys2Proof.Machine.execResume gang map s
  | .run gang => Sys2Proof.Machine.execRun gang s
  | .peerRead p => Sys2Proof.Machine.execPeerRead p s
  | .peerReadResponse p => Sys2Proof.Machine.execPeerReadResponse p s
  | .peerWrite p => Sys2Proof.Machine.execPeerWrite p s
  | .peerAtomic p => Sys2Proof.Machine.execPeerAtomic p s
  | .peerAtomicResponse p => Sys2Proof.Machine.execPeerAtomicResponse p s
  | .peerMailboxMessage p => Sys2Proof.Machine.execPeerMailboxMessage p s
  | .writeAcknowledgement p => Sys2Proof.Machine.execWriteAcknowledgement p s
  | .flitRetryExhausted port => Sys2Proof.Machine.execFlitRetryExhausted port s
  | .outOfServiceRequest u => Sys2Proof.Machine.execOutOfServiceRequest u s
  | .lastingFaultRepair r => Sys2Proof.Machine.execLastingFaultRepair r s
  | .errorWindowExpiry die => Sys2Proof.Machine.execErrorWindowExpiry die s
  | .bankRetirement r => Sys2Proof.Machine.execBankRetirement r s
  | .coreSleep core => Sys2Proof.Machine.execCoreSleep core s
  | .coreWakeSweep core => Sys2Proof.Machine.execCoreWakeSweep core s
  | .scrubComplete core => Sys2Proof.Machine.execScrubComplete core s
  | .map page j => Sys2Proof.Machine.execMap page j s
  | .unmap page j => Sys2Proof.Machine.execUnmap page j s
  | .assign page j => Sys2Proof.Machine.execAssign page j s
  | .share page j => Sys2Proof.Machine.execShare page j s
  | .release page j => Sys2Proof.Machine.execRelease page j s
  | .sealok page j => Sys2Proof.Machine.execSealok page j s
  | .measurementExtend id digest => Sys2Proof.Machine.execMeasurementExtend id digest s
  | .getVersion t => Sys2Proof.Machine.execGetVersion t s
  | .getCapabilities t => Sys2Proof.Machine.execGetCapabilities t s
  | .negotiateAlgorithms t offered => Sys2Proof.Machine.execNegotiateAlgorithms t offered s
  | .getDigests t => Sys2Proof.Machine.execGetDigests t s
  | .getCertificate t => Sys2Proof.Machine.execGetCertificate t s
  | .challenge t => Sys2Proof.Machine.execChallenge t s
  | .getMeasurements t block => Sys2Proof.Machine.execGetMeasurements t block s
  | .keyExchange t => Sys2Proof.Machine.execKeyExchange t s
  | .finish t => Sys2Proof.Machine.execFinish t s
  | .endSession t => Sys2Proof.Machine.execEndSession t s
  | .keySlotLoad t world slot key digest => Sys2Proof.Machine.execKeySlotLoad t world slot key digest s
  | .allowListWrite t world list => Sys2Proof.Machine.execAllowListWrite t world list s
  | .spdmUnsupportedRequest t code => Sys2Proof.Machine.execSpdmUnsupportedRequest t code s
  | .counterRead group owner value => Sys2Proof.Machine.execCounterRead group owner value s
  | .cxlMemRead world pa len => Sys2Proof.Machine.execCxlMemRead world pa len s
  | .cxlMemWrite world pa stream bytes => Sys2Proof.Machine.execCxlMemWrite world pa stream bytes s
  | .bisnpResponse line => Sys2Proof.Machine.execBisnpResponse line s
  | .tdiStateChange n next => Sys2Proof.Machine.execTdiStateChange n next s
  | .boot o => Sys2Proof.Machine.execBoot o s
  | .firmwareUpdate digest good => Sys2Proof.Machine.execFirmwareUpdate digest good s
  | .thermalThrottle die => Sys2Proof.Machine.execThermalThrottle die s
  | .thermalShutdown die => Sys2Proof.Machine.execThermalShutdown die s
  | .contextCreation p => Sys2Proof.Machine.execContextCreation p s
  | .unitReturnedToService u good => Sys2Proof.Machine.execUnitReturnedToService u good s

end Sys2Proof.Machine
end

