-- ==== Sys2Proof/Machine/Auto.lean ====
section
/-!
DEFINITION. What one step does: the next instruction of the run being stepped (R53 to R57, R69), or else the next event of the
device. Where the spec leaves the order of events open, the order here is the model's.
-/

namespace Sys2Proof.Machine

/-! ### Runs -/

/-- One cycle passes on every die and in the security core.
DESIGN CHOICE: log entry 1, unsafe. DESIGN CHOICE: log entry 12, unsafe. -/
def State.tick (s : State) : State :=
  { s with
    dies := s.dies.map fun d => { d with cycle := d.cycle + 1 }
    sec := { s.sec with cycle := s.sec.cycle + 1 } }

/-- The first fragment from number j on that still has live threads. -/
def nextFrag (s : State) (r : Run) (j : Nat) : Option Nat :=
  (List.range r.frags.length).find? fun k =>
    j ≤ k && ((r.frags.getD k (0, 0)).2 &&& (s.strand (r.frags.getD k (0, 0)).1).liveMask) != 0

/-- After a fragment: the sliver's next one, or the run's next instruction, of 24 at most (R57). -/
def afterFrag (s : State) : State :=
  match s.cur with
  | none => s
  | some r =>
    match nextFrag s r (r.j + 1), nextFrag s r 0 with
    | some k, _ => { s with cur := some { r with j := k } }
    | none, some k =>
      let s := s.tick
      if r.stop || 24 ≤ r.n + 1 then s.endRun else { s with cur := some { r with j := k, n := r.n + 1 } }
    | none, none => s.tick.endRun

/-- The words of the next instruction of a fragment fetched: those words, or what becomes of the fragment instead. -/
def fetchFor (s : State) (u : Nat) (m : BitVec 32) : Option Nat × State :=
  let st := s.strand u
  match fetchAt s u (st.thread (st.lowest m)).pc with
  | (.words w, s) => (some w, dropPeerBytes s u fetchOwner)
  | (.absent ps, s) => (none, parkFetch s u m ps)
  | (.bad cause sub addr, s) => (none, earlyTrap s u m 0 cause sub addr)
  | (.later, s) => (none, park s u m .peer)

/-- The fragment is about to issue: its threads have last issued now (R319), and BND ends the run after it (R57). -/
def issuesNow (s : State) (u : Nat) (m : BitVec 32) (w : Nat) : State :=
  let now := s.cycleOf (s.strand u).core
  let s := s.modStrand u fun st => st.modThreads m fun t => { t with since := now }
  if fld w 2 1 = 1 then stopRun s else s

/-- What follows an event or an instruction: strands that are over leave. -/
def thenDo (o : Host.Outcome State Fault Refusal) (f : State → State) : Host.Outcome State Fault Refusal :=
  match o with
  | .next s => .next (f s)
  | .fault x => .fault x
  | .refused x => .refused x

/-- A fragment of the run executes its next instruction. -/
def stepFrag (s : State) (u : Nat) (m : BitVec 32) : Host.Outcome State Fault Refusal :=
  match fetchFor s u m with
  | (none, s) => .next (afterFrag s).tidy
  | (some w, s) =>
    match decode (s.strand u).sys w with
    | .ok i => thenDo (exec i (issuesNow s u m w)) fun s => (afterFrag s).tidy
    | .error r => .next (afterFrag (rejectTrap (issuesNow s u m w) u m w r)).tidy

/-! ### Events of the device -/

/-- Events of a strand. -/
def strandEvents (u : Nat) (st : Strand) : List Instr :=
  if st.phase = .saved then []
  else
    [.commitCheck u, .ord10StorePerform u, .tokwAcquire u, .barwWake u, .barwTimeout u, .crewRendezvous u, .convergenceIssue u] ++
      (st.cq.map fun e => Instr.parkedStorePerform u e.seq) ++
      (((st.threads.flatMap fun t => t.outs.map (·.id)).dedup).map fun i => Instr.longLatencyReturn u i) ++
      (st.mops.flatMap fun o => [Instr.matrixResume u o.id, Instr.rowBlockComplete u o.id false]) ++
      (((byPc st (maskOf ((List.range st.threads.length).filter fun i =>
        (st.thread i).live && (st.thread i).wait == .pages [] true))).map fun g => Instr.regionReentry u g.2))

/-- Events of a core. -/
def coreEvents (k : Nat) (c : Core) : List Instr :=
  (c.copies.flatMap fun x => [Instr.copyResume k x.id, Instr.copyComplete k x.id]) ++
    (if c.wsu.isEmpty then [] else [.wsuResume k, .wsuQueuePush k, .wsuBlockDelivery k]) ++
    (((c.score.map (·.1)).dedup).map fun i => Instr.scoreboardRelease k i) ++
    (if c.scrub.isEmpty then [] else [.scrubComplete k]) ++ c.marked.map Instr.bankRetirement

/-- Events at mailboxes and in contexts. -/
def contextEvents (k : Nat) (c : Context) : List Instr :=
  ((c.writers.map (·.1)).dedup.map fun n => Instr.mailDelivery k n) ++ (c.busy.map fun b => Instr.launchIntake k b.1) ++
    (match c.pre with
      | none => []
      | some p => Instr.preemptionSave k :: p.dies.map fun d => Instr.saveDeadlineExpiry k d.1)

/-- Events of a launch. -/
def launchEvents (s : State) (k : Nat) (l : Launch) : List Instr :=
  if l.phase = .done then []
  else
    [.launchWaitResolved k] ++
      (if l.held.isEmpty then [] else
        (s.skeins.filter fun x => x.2.launch == k && x.2.phase == .saved).flatMap fun x =>
          (List.range 32).map fun c => Instr.contextRestore x.1 c) ++
      (if l.unplaced.isEmpty && l.conts.isEmpty then [] else (List.range 32).map fun c => Instr.hankPlacement k c) ++
      (if l.records.isEmpty then []
       else .generationFormation k :: ((l.records.map (·.entry)).dedup).map fun e => Instr.continuationTimeout k e) ++
      [.bobbinPreempt k, .launchCompletion k]

/-- Events of dies, gangs and the security core. -/
def packageEvents (s : State) : List Instr :=
  ((List.range 8).filter fun d => !(s.dies.getD d {}).intake.isEmpty).map Instr.emitRecordIntake ++
    (List.range 8).map Instr.errorWindowExpiry ++ s.sec.lasting.map Instr.lastingFaultRepair ++
    s.fabric.gangs.map fun g => Instr.sweepDeadlineExpiry g.1

/-- Partitions with something to issue: those after the one that ran last, then the others. -/
def arbitrations (s : State) : List Instr :=
  let ps := (s.carding.filter fun c => !c.2.entries.isEmpty).map (·.1)
  ((ps.filter (s.turn < ·)) ++ ps.filter (· ≤ s.turn)).map Instr.runArbitration

/-- Cores that sleep, or could: a core wakes once a strand of it can issue. -/
def sleepEvents (s : State) : List Instr :=
  (s.cores.filter fun c => c.2.asleep && (List.range 4).any fun p => !(s.cards (4 * c.1 + p)).entries.isEmpty).map
      (fun c => Instr.coreWakeSweep c.1) ++
    ((s.cores.filter fun c => !c.2.asleep).map fun c => Instr.coreSleep c.1)

/-- All events that may be due, in the order in which the model looks at them.
DESIGN CHOICE: log entry 1, unsafe. -/
def dueEvents (s : State) : List Instr :=
  (s.strands.flatMap fun x => strandEvents x.1 x.2) ++ (s.cores.flatMap fun x => coreEvents x.1 x.2) ++
    (s.contexts.flatMap fun x => contextEvents x.1 x.2) ++ packageEvents s ++
    (s.launches.flatMap fun x => launchEvents s x.1 x.2) ++ sleepEvents s ++ arbitrations s

/-- The first event of a list that changes anything.
DESIGN CHOICE: log entry 1, unsafe. -/
def firstChange (s : State) : List Instr → Option State
  | [] => none
  | e :: es =>
    match exec e s with
    | .next t => if t = s then firstChange s es else some t
    | _ => firstChange s es

/-- Waits that are looked at again when nothing else happens.
DESIGN CHOICE: log entry 1, unsafe. -/
def mayRetry : Wait → Bool
  | .queue | .stores | .copySlot | .batch | .dispatcher | .wsuQueue | .scoreboard | .engine | .unit | .peer | .quiet _ | .slot _
  | .tableFull => true
  | _ => false

/-- One event of the device, or a cycle in which nothing happens but that waiting instructions try again. -/
def eventTurn (s : State) : State :=
  if !s.works then s.tick
  else
    match firstChange s (dueEvents s) with
    | some t => t.tidy
    | none =>
      let t := fabricTurn s
      if t = s then (s.wakeAll (fun _ st => st.phase == .resident) mayRetry).tick else t

/-- A step without an instruction to issue: a run whose fragment at issue is gone goes on to its next one.
DESIGN CHOICE: log entry 1, unsafe. -/
def idleTurn (s : State) : State := if s.cur.isSome then (afterFrag s).tidy else eventTurn s

/-! ### The next instruction placed for a test of one step -/

/-- The bytes of an instruction given as the opcode table numbers its bits, zeros above. -/
def tableBytes (nbits w : Nat) : List Byte := toBytes 20 (w % 2 ^ nbits)

/-- Where the next instruction of the run lies. -/
def nextCode (s : State) : Option Nat :=
  (issuing s).bind fun f =>
    let st := s.strand f.1
    locate s (st.who s none) (byteOf (st.thread (st.lowest f.2)).pc) 4

/-- An address space of one 1 GiB page at 0, every access allowed, its tables at 0x3000_0000.
DESIGN CHOICE: log entry 6, safe. -/
def benchTables : List (Nat × Nat) :=
  [(0x30000000, 0x30001001), (0x30001000, 0x30002001), (0x30002000, 0x1F + 3 * 2 ^ 56)]

/-- A launch of one strand, with all that its placement takes.
DESIGN CHOICE: log entry 6, safe. -/
def benchLaunch : Launch :=
  { num := 0, ctx := 1, sys := true, phase := .queued, dies := [0, 1, 2, 3, 4, 5, 6, 7], unplaced := [0]
    msg := { code := 0x400000, gridx := 1, gridy := 1, nstrand := 1, regs := 248, hankx := 1, hanky := 1, scratch := 0x3000
             acc := 16, btpart := 64, tagdef := 0 } }

/-- One strand of a launch of one, in system mode, about to issue at 0x40_0000.
DESIGN CHOICE: log entry 6, safe. -/
def bench (s : State) : State :=
  let s : State := { s with
    link := { s.link with ready := true, stopped := false }
    sec := { s.sec with potDefault := 0x0010, pot := [] }
    strands := [], skeins := [], carding := [], cur := none, cores := []
    contexts := sset s.contexts 1 { ptroot := 0x30000, mbx := 0x20000000 / 64, deadline := 2 ^ 48 - 1, area := 0x10000000 }
    launches := sset s.launches 1 benchLaunch }
  let s := benchTables.foldl (fun s e => s.write e.1 (toBytes 8 e.2)) s
  let s := s.write 0x10000000 (toBytes 4 0x100000 ++ toBytes 4 4)
  startRun (startHank s 1 0 [(0, 0, [(0, 0)])]) 0

/-- The next step fetches and runs the instruction: its bytes lie where the fragment at issue fetches, on the bench where no
fragment is at issue.
DESIGN CHOICE: log entry 6, safe. -/
def placeCode (s : State) (bytes : List Byte) : State :=
  let s := { s with agenda := [] }
  match nextCode s with
  | some l => s.write l bytes
  | none => (bench s).write 0x400000 bytes

end Sys2Proof.Machine
end

