-- ==== Sys2Proof/Machine/Step.lean ====
section
/-!
DEFINITION. One step of the machine.
-/

namespace Sys2Proof.Machine

/-- One step: the first event of the agenda; or the next instruction of the run at issue; or an event of the device.
DESIGN CHOICE: log entry 1, unsafe. -/
def step (s : State) : Host.Outcome State Fault Refusal :=
  match s.agenda, issuing s with
  | e :: es, _ => thenDo (exec e { s with agenda := es }) State.tidy
  | [], some (u, m) => stepFrag s u m
  | [], none => .next (idleTurn s)

/-- The state with an instruction, given as the opcode table numbers its bits, where the next step fetches.
DESIGN CHOICE: log entry 6, safe. -/
def State.withFetchWord (s : State) (nbits w : Nat) : State := placeCode s (tableBytes nbits w)

end Sys2Proof.Machine
end

