-- ==== Sys2Proof/Safety.lean ====
section
/-!
DEFINITION. What counts as a safe run, and the terms in which statements speak of one instruction: what its registers hold,
when nothing holds it back, and what it may change.
-/

namespace Sys2Proof

/-- A step that gives a next state. -/
def Continues (s : Machine.State) : Prop := ∃ t, Machine.step s = .next t

/-- A run of `n` steps, each of which gives a next state. -/
def Safe : Nat → Machine.State → Prop
  | 0, _ => True
  | n + 1, s => ∃ t, Machine.step s = .next t ∧ Safe n t

/-- The opcode of an instruction; 0 for an event. -/
def Instr.op (i : Instr) : Nat := ((toRaw i).map (·.1)).getD 0

/-- The fields of an instruction. -/
def Instr.fields (i : Instr) : Raw := ((toRaw i).map (·.2)).getD {}

/-- The registers an instruction names. -/
def Instr.uses (i : Instr) : List Machine.Use := Machine.usesOf i.op i.fields

namespace Machine

/-! ### What a program can see of a state -/

/-- A word of a thread's vector register file; v0 is the constant (R24). -/
def State.vreg (s : State) (u i c : Nat) : TWord := if c = 0 then {} else sget {} ((s.strand u).thread i).v c

/-- A word of a strand's uniform register file; s0 is the constant (R24). -/
def State.sreg (s : State) (u c : Nat) : TWord := if c = 0 then {} else sget {} (s.strand u).s c

/-- A predicate of a thread (R24). -/
def State.pred (s : State) (u i c : Nat) : Bool := predBit ((s.strand u).thread i).p c

/-- A uniform predicate (R24). -/
def State.kpred (s : State) (u c : Nat) : Bool := predBit (s.strand u).k c

def State.pcOf (s : State) (u i : Nat) : BitVec 62 := ((s.strand u).thread i).pc

/-- A control register of a strand by its number (R34). -/
def State.creg (s : State) (u n : Nat) : BitVec 64 := ctlRead s (s.strand u) n

def State.byteAt (s : State) (loc : Nat) : Byte := Memory.byte s.mem loc

/-- The entries of a queue, oldest first (R32). -/
def State.queue (s : State) (u j : Nat) : List (List TWord) := (s.strand u).q.getD j []

/-! ### An instruction at issue -/

/-- No register word of the strand has check bits that were written raw (R357). -/
def Strand.sound (st : Strand) : Bool :=
  let raw (f : Sparse TWord) : Bool := f.any fun e => match e.2.chk with | .raw _ => true | _ => false
  !(raw st.s || st.threads.any fun t => raw t.v)

/-- No register word of the strand is poisoned. -/
def Strand.clean (st : Strand) : Bool :=
  st.s.all (fun e => e.2.chk == .ok) && st.threads.all fun t => t.v.all fun e => e.2.chk == .ok

/-- Nothing holds the well-formed instruction `i` back in the fragment `m` of strand `u`, which is at issue: the register checks pass (R69), no
result is outstanding (R66), the strand owes nothing to a boundary (R167), its threads are together where they must be (R29),
and the queues named have entries and room (R32). -/
structure Ready (i : Instr) (s : State) (u : Nat) (m : BitVec 32) : Prop where
  known : toRaw i = some (i.op, i.fields)
  wf : i.WF
  atIssue : issuing s = some (u, m)
  allowed : checkFault (s.strand u) i.op i.fields i.uses = none
  running : ∀ j, m.getLsbD j → ((s.strand u).thread j).exited = false
  returned : ∀ j, m.getLsbD j → ((s.strand u).thread j).outs = []
  noPeers : (s.strand u).peers = []
  settled : isBoundary i.op i.uses → (s.strand u).cq = [] ∧ (s.strand u).stFaults = []
  together : converges i.op i.fields → m = (s.strand u).liveMask
  queues : queuesReady (s.strand u) i.uses
  sound : (s.strand u).sound

/-- The state in which the instruction executes: a boundary has closed the regions of its threads (R162). -/
def entered (i : Instr) (s : State) (u : Nat) (m : BitVec 32) : State :=
  let p := siteOf s u m i i.op i.fields
  if p.boundary then enterBoundary s p else s

/-- The threads in which the instruction acts (R65). -/
def acting (i : Instr) (s : State) (u : Nat) (m : BitVec 32) : List Nat := activeThreads (s.strand u) i.op i.fields m

/-- What the instruction's meaning is given. -/
def contextOf (i : Instr) (s : State) (u : Nat) (m : BitVec 32) : Cx :=
  let st := s.strand u
  { u := u, mask := m, act := acting i s u m, site := siteOf s u m i i.op i.fields
    pops := if (acting i s u m).isEmpty then [] else (popsOf i.uses).map fun j => (j, (st.q.getD j []).headD [])
    op := i.op, raw := i.fields, rule := ruleOf st i.op i.fields.tr, here := siteTag s st (siteOf s u m i i.op i.fields).pc }

/-- The pc of the instruction after it. -/
def nextPc (i : Instr) (s : State) (u : Nat) (m : BitVec 32) : BitVec 62 := (contextOf i s u m).next

/-! ### What an instruction may change -/

/-- What an instruction may write: memory locations, vector words and predicates by thread, uniform words and predicates,
control registers, queues, the accumulator, launches, the control flow (return stacks, which threads live, open spans). -/
structure Touch where
  mem : Nat → Bool := fun _ => false
  v : Nat → Nat → Bool := fun _ _ => false
  p : Nat → Nat → Bool := fun _ _ => false
  s : Nat → Bool := fun _ => false
  k : Nat → Bool := fun _ => false
  ctl : Nat → Bool := fun _ => false
  q : Nat → Bool := fun _ => false
  acc : Bool := false
  launches : Bool := false
  flow : Bool := false

/-- Of memory, tags, poison, the registers and the other strands, a step of strand `u` changes only what `w` names. -/
structure Only (w : Touch) (s t : State) (u : Nat) : Prop where
  bytes : ∀ l, w.mem l = false → t.byteAt l = s.byteAt l
  tags : ∀ k, (∀ j, j < 32 → w.mem (32 * k + j) = false) → t.tagAt k = s.tagAt k
  poison : ∀ l, w.mem l = false → t.poison.contains l = s.poison.contains l
  others : ∀ x, x ≠ u → t.strand x = s.strand x
  vregs : ∀ i c, w.v i c = false → t.vreg u i c = s.vreg u i c
  preds : ∀ i c, w.p i c = false → t.pred u i c = s.pred u i c
  sregs : ∀ c, w.s c = false → t.sreg u c = s.sreg u c
  kpreds : ∀ c, w.k c = false → t.kpred u c = s.kpred u c
  cregs : ∀ n, n < 0x12 → n ≠ 0x0B → w.ctl n = false → t.creg u n = s.creg u n
  queues : ∀ j, w.q j = false → t.queue u j = s.queue u j
  acc : w.acc = false → (t.strand u).acc = (s.strand u).acc ∧ (t.strand u).rowmax = (s.strand u).rowmax ∧
    (t.strand u).rowsum = (s.strand u).rowsum
  launches : w.launches = false → t.launches = s.launches
  flow : w.flow = false → (∀ i, ((t.strand u).thread i).live = ((s.strand u).thread i).live) ∧
    (∀ i, ((s.strand u).thread i).exited = false →
      ((t.strand u).thread i).exited = false ∧ ((t.strand u).thread i).stack = ((s.strand u).thread i).stack) ∧
    (t.strand u).spans = (s.strand u).spans

/-- What closing a region changes of the control registers: RCTL.REENT, after a recovered mismatch CHKI, and BTNEXT where
reserved indices are given up (R109, R163, R352). -/
def closes (i : Instr) (n : Nat) : Bool := isBoundary i.op i.uses && (n == 2 || n == 3 || n == 0x11)

/-- The queues the instruction pops (R32). -/
def popsQ (i : Instr) (j : Nat) : Bool := (popsOf i.uses).contains j

/-- The threads of the fragment go on at `pc`; no other thread moves. -/
def Advances (s t : State) (u : Nat) (m : BitVec 32) (pc : BitVec 62) : Prop :=
  ∀ i, i < (s.strand u).threads.length → t.pcOf u i = if m.getLsbD i then pc else s.pcOf u i

/-! ### Operands and results -/

/-- n vector words of thread j as the instruction reads them: a queue gives its oldest entry (R32). -/
def vOpd (i : Instr) (s : State) (u : Nat) (m : BitVec 32) (j code n : Nat) : Opd :=
  (contextOf i s u m).v (s.strand u) j code n

/-- Source b of thread j as the instruction reads it (R31, R64). -/
def srcOpd (i : Instr) (s : State) (u : Nat) (m : BitVec 32) (j : Nat) (b : Src) (n : Nat) : Opd :=
  (contextOf i s u m).src (s.strand u) j b n

/-- The tag of a result without a birth (R99, R101): none while TCTL.EN is 0. -/
def plainTag (i : Instr) (s : State) (u : Nat) (m : BitVec 32) (srcs : List Tag) : Tag :=
  if (s.strand u).tagEn then tagPick (contextOf i s u m).here (contextOf i s u m).rule srcs else 0

/-- The entry that a result makes in a queue: the words of the acting threads in their lanes, a protected thread's in both
lanes of its pair, zero with tag NONE elsewhere (R32). -/
def queueEntry (st : Strand) (act : List Nat) (word : Nat → TWord) : List TWord :=
  (List.range 32).map fun l =>
    match act.find? fun j => (st.thread j).lane == l || (st.prot && (st.thread j).lane + 1 == l) with
    | some j => word j
    | none => {}

/-- The vector destination d holds, in the acting threads, n words each: registers from d on (v0 discards), or one new entry at
the end of a queue (R22, R24, R32). -/
def Gives (i : Instr) (s t : State) (u : Nat) (m : BitVec 32) (d n : Nat) (word : Nat → Nat → TWord) : Prop :=
  if 248 ≤ d then
    acting i s u m ≠ [] → d - 248 < (s.strand u).q.length →
      t.queue u (d - 248) = (if popsQ i (d - 248) then (s.queue u (d - 248)).drop 1 else s.queue u (d - 248)) ++
        [queueEntry (s.strand u) (acting i s u m) fun j => word j 0]
  else ∀ j ∈ acting i s u m, ∀ k, k < n → d + k ≠ 0 → t.vreg u j (d + k) = word j k

/-- `w`, with what every instruction's completion may touch: queues popped, and at a boundary what closing regions changes. -/
def Touch.of (w : Touch) (i : Instr) : Touch :=
  { w with
    ctl := fun n => w.ctl n || closes i n
    q := fun j => w.q j || popsQ i j }

/-- The instruction completes: a next state of which `P` holds, in which nothing differs but what `w` names, the fragment's
threads at the next instruction. -/
def Completes (i : Instr) (s : State) (u : Nat) (m : BitVec 32) (w : Touch) (P : State → Prop) : Prop :=
  ∃ t, exec i s = .next t ∧ P t ∧ Only (w.of i) s t u ∧ Advances s t u m (nextPc i s u m)

/-- A vector destination: registers of the acting threads from d on, or a queue. -/
def Touch.vec (i : Instr) (s : State) (u : Nat) (m : BitVec 32) (d n : Nat) : Touch :=
  { v := fun j c => decide (d < 248) && (acting i s u m).contains j && decide (d ≤ c ∧ c < d + n)
    q := fun j => decide (248 ≤ d) && j == d - 248 }

/-- A vector instruction completes with words and a tag in each acting thread. -/
def VecResult (i : Instr) (s : State) (u : Nat) (m : BitVec 32) (d n : Nat) (words : Nat → List Word) (tag : Nat → Tag) : Prop :=
  Completes i s u m (Touch.vec i s u m d n) fun t =>
    Gives i s t u m d n fun j k => { val := (words j).getD k 0, tag := tag j }

/-- A predicate destination of the acting threads; p7 is not written (R24). -/
def Touch.preds (i : Instr) (s : State) (u : Nat) (m : BitVec 32) (d : Nat) : Touch :=
  { p := fun j c => (acting i s u m).contains j && c == d && d != 7 }

/-- A vector instruction completes with a predicate in each acting thread. -/
def PredResult (i : Instr) (s : State) (u : Nat) (m : BitVec 32) (d : Nat) (f : Nat → Bool) : Prop :=
  Completes i s u m (Touch.preds i s u m d) fun t => d < 7 → ∀ j ∈ acting i s u m, t.pred u j d = f j

/-- A uniform instruction completes with n words and a tag from s(d) on; s0 discards (R24). It has no effect where no thread
acts. -/
def UniResult (i : Instr) (s : State) (u : Nat) (m : BitVec 32) (d n : Nat) (words : List Word) (tag : Tag) : Prop :=
  Completes i s u m { s := fun c => decide (acting i s u m ≠ [] ∧ d ≤ c ∧ c < d + n) } fun t =>
    acting i s u m ≠ [] → ∀ k, k < n → d + k ≠ 0 → t.sreg u (d + k) = { val := words.getD k 0, tag := tag }

/-- A uniform instruction completes with a uniform predicate; k7 is not written (R24). -/
def KResult (i : Instr) (s : State) (u : Nat) (m : BitVec 32) (d : Nat) (b : Bool) : Prop :=
  Completes i s u m { k := fun c => decide (acting i s u m ≠ [] ∧ c = d ∧ d ≠ 7) } fun t =>
    acting i s u m ≠ [] → d < 7 → t.kpred u d = b

/-- The strand mints births (R101). -/
def State.mints (s : State) (u : Nat) : Bool := (s.strand u).tagEn && (s.strand u).mintOn

/-- A floating-point instruction completes where no flag that its acting threads gather is enabled to trap (R85): words in each
acting thread, the flags in FCTL, C advanced by one where the instruction draws random bits (R88). Where no birth is minted the tag is the one
the rule picks; where births are minted, BTFULL and the birth index may change (R104, R108). -/
def FpResult (i : Instr) (s : State) (u : Nat) (m : BitVec 32) (d n : Nat) (draw : Bool) (words : Nat → List Word)
    (flags : Nat → Nat) (tag : Nat → Tag) : Prop :=
  (s.strand u).fpTrap (gather ((acting i s u m).map flags)) = none →
    Completes i s u m
      { Touch.vec i s u m d n with
        ctl := fun c => c == 0 || (draw && c == 6) || (s.mints u && (c == 1 || c == 0x11))
        launches := s.mints u } fun t =>
      (∃ tags : Nat → Tag, (s.mints u = false → ∀ j ∈ acting i s u m, tags j = tag j) ∧
        Gives i s t u m d n fun j k => { val := (words j).getD k 0, tag := tags j }) ∧
      (acting i s u m ≠ [] →
        t.creg u 0 = s.creg u 0 ||| BitVec.ofNat 64 (gather ((acting i s u m).map flags) % 32 * 256) ∧
        t.creg u 6 = s.creg u 6 + if draw then 1 else 0)

/-- Registers of w bits read as Z directs (R125). -/
def reading (z : Bool) {w : Nat} (x : BitVec w) : Int := if z then (x.toNat : Int) else x.toInt

/-- An exact result as w bits: modulo 2^w, or clamped to the range that Z gives (R126, R145). -/
def clamped (z sat : Bool) (w : Nat) (e : Int) : BitVec w :=
  BitVec.ofInt w (if sat then max (if z then 0 else -2 ^ (w - 1)) (min e (if z then 2 ^ w - 1 else 2 ^ (w - 1) - 1)) else e)

/-- A vector instruction on a and b gives `f` of their words, tagged by its rule from the tags of a and b. -/
def Binary (i : Instr) (o : Alu) (f : Word → Word → Word) : Prop :=
  ∀ s u m, Ready i s u m → (s.strand u).clean →
    VecResult i s u m o.d 1 (fun j => [f (vOpd i s u m j o.a 1).w (srcOpd i s u m j o.b 1).w])
      fun j => plainTag i s u m [(vOpd i s u m j o.a 1).tag, (srcOpd i s u m j o.b 1).tag]

/-- A vector instruction on a. -/
def Unary (i : Instr) (o : Un) (f : Word → Word) : Prop :=
  ∀ s u m, Ready i s u m → (s.strand u).clean →
    VecResult i s u m o.d 1 (fun j => [f (vOpd i s u m j o.a 1).w]) fun j => plainTag i s u m [(vOpd i s u m j o.a 1).tag]

/-- A vector instruction on a, b and c. -/
def Ternary (i : Instr) (o : Alu) (f : Word → Word → Word → Word) : Prop :=
  ∀ s u m, Ready i s u m → (s.strand u).clean →
    VecResult i s u m o.d 1 (fun j => [f (vOpd i s u m j o.a 1).w (srcOpd i s u m j o.b 1).w (vOpd i s u m j o.c 1).w])
      fun j => plainTag i s u m [(vOpd i s u m j o.a 1).tag, (srcOpd i s u m j o.b 1).tag, (vOpd i s u m j o.c 1).tag]

/-- How an instruction's j-th thread rounds its k-th element (R80, R83). -/
def roundOf (s : State) (u j rm k : Nat) : Rnd := (s.strand u).rnd rm ((s.strand u).thread j).lane k

/-- The instruction draws random bits: its rounding mode in force is SR (R83, R88). -/
def draws (s : State) (u rm : Nat) : Bool := (s.strand u).rmEff rm == 6

/-- The tag of a result without a birth under a rule that the instruction itself fixes (R98, R99). -/
def tagBy (i : Instr) (s : State) (u : Nat) (m : BitVec 32) (rule : Nat) (srcs : List Tag) : Tag :=
  if (s.strand u).tagEn then tagPick (contextOf i s u m).here rule srcs else 0

/-- A uniform instruction on s(A) and b gives `f` of them, in 32 bits or on pairs (R145). -/
def UniBinary (i : Instr) (o : SAlu) (f : (w : Nat) → BitVec w → BitVec w → BitVec w) : Prop :=
  ∀ s u m, Ready i s u m → (s.strand u).clean →
    let n := if o.b64 then 2 else 1
    let a := (s.strand u).readS o.a n
    let b := uniSrc (s.strand u) o.b n
    UniResult i s u m o.d n (if o.b64 then [(f 64 a.d b.d).setWidth 32, (f 64 a.d b.d >>> 32).setWidth 32] else [f 32 a.w b.w])
      (plainTag i s u m [a.tag, b.tag])

/-- A uniform floating-point result, as `FpResult` has it. -/
def UniFpResult (i : Instr) (s : State) (u : Nat) (m : BitVec 32) (d : Nat) (word : Word) (flags : Nat) (tag : Tag) : Prop :=
  (s.strand u).fpTrap flags = none →
    Completes i s u m
      { s := fun c => decide (acting i s u m ≠ [] ∧ c = d)
        ctl := fun c => c == 0 || (s.mints u && (c == 1 || c == 0x11))
        launches := s.mints u } fun t =>
      acting i s u m ≠ [] →
        (∃ tag' : Tag, (s.mints u = false → tag' = tag) ∧ (d ≠ 0 → t.sreg u d = { val := word, tag := tag' })) ∧
        t.creg u 0 = s.creg u 0 ||| BitVec.ofNat 64 (flags % 32 * 256)

/-- An arithmetic instruction rounds, in each acting thread, the exact result of `op` on its operands' patterns once to format `f`,
which fills `n` words (R81, R134, R136). -/
def Rounds (i : Instr) (f : Fmt) (n d rm : Nat) (op : FpOp) (ops : State → Nat → BitVec 32 → Nat → List Opd) : Prop :=
  ∀ s u m, Ready i s u m → (s.strand u).clean →
    let r (j : Nat) : FpOut := fpApply f (roundOf s u j rm 0) op ((ops s u m j).map (·.val))
    FpResult i s u m d n (draws s u rm) (fun j => wordsOfNat n (r j).pat) (fun j => (r j).flags)
      fun j => plainTag i s u m ((ops s u m j).map (·.tag))

/-- A packed instruction rounds each element of the words on its own (R76, R137). -/
def RoundsPacked (i : Instr) (f : Fmt) (d rm : Nat) (op : FpOp) (ops : State → Nat → BitVec 32 → Nat → List Opd) : Prop :=
  ∀ s u m, Ready i s u m → (s.strand u).clean →
    let r (j k : Nat) : FpOut := fpApply f (roundOf s u j rm k) op ((ops s u m j).map fun o => o.w.toNat / 2 ^ (16 * k) % 2 ^ 16)
    FpResult i s u m d 1 (draws s u rm) (fun j => [BitVec.ofNat 32 ((r j 0).pat + 2 ^ 16 * (r j 1).pat)])
      (fun j => Nat.lor (r j 0).flags (r j 1).flags) fun j => plainTag i s u m ((ops s u m j).map (·.tag))

/-- Operands a; a and b; a, b and c, of n words each. -/
def opdsA (i : Instr) (o : Un) (s : State) (u : Nat) (m : BitVec 32) (j : Nat) : List Opd := [vOpd i s u m j o.a 1]
def opdsAB (i : Instr) (o : Alu) (n : Nat) (s : State) (u : Nat) (m : BitVec 32) (j : Nat) : List Opd :=
  [vOpd i s u m j o.a n, srcOpd i s u m j o.b n]
def opdsABC (i : Instr) (o : Alu) (n : Nat) (s : State) (u : Nat) (m : BitVec 32) (j : Nat) : List Opd :=
  [vOpd i s u m j o.a n, srcOpd i s u m j o.b n, vOpd i s u m j o.c n]

/-- The acting threads whose operands enter a prefix (R132): those up to thread j, or strictly before it. -/
def prefixOf (act : List Nat) (excl : Bool) (j : Nat) : List Nat :=
  act.takeWhile (· != j) ++ if excl then [] else [j]

/-- The prefix of SCAN at thread j (R132), by folding the steps over the operands that enter it. -/
def scanPrefix (i : Instr) (o : ScanOp) (s : State) (u : Nat) (m : BitVec 32) (j : Nat) : Prefix :=
  ((prefixOf (acting i s u m) o.excl j).map fun k => vOpd i s u m k o.a 1).foldl (scanStep o.op ((s.strand u).rnd o.rm 0 0)) {}

/-! ### Control flow and traps -/

/-- The pc of the fragment. -/
def herePc (i : Instr) (s : State) (u : Nat) (m : BitVec 32) : BitVec 62 := (contextOf i s u m).site.pc

/-- The instruction completes and moves the pcs itself: a next state of which `P` holds, in which nothing differs from `base` but
what `w` names. `base` is the state before, with what the instruction's translations and device writes leave in it. -/
def GoesFrom (base : State) (i : Instr) (s : State) (u : Nat) (m : BitVec 32) (w : Touch) (pc : Nat → BitVec 62) (P : State → Prop) : Prop :=
  ∃ t, exec i s = .next t ∧ P t ∧ Only (w.of i) base t u ∧
    ∀ j, j < (s.strand u).threads.length → t.pcOf u j = if m.getLsbD j then pc j else s.pcOf u j

def Goes (i : Instr) (s : State) (u : Nat) (m : BitVec 32) (w : Touch) (pc : Nat → BitVec 62) (P : State → Prop) : Prop :=
  GoesFrom s i s u m w pc P

/-- The save slot takes the oldest entry of each full hardware return stack (R26, R333); none where a page refuses it. -/
def spilledStacks (s : State) (u : Nat) (act : List Nat) : Option State :=
  let st := s.strand u
  act.foldlM (fun s j =>
    let t := st.thread j
    if t.inHardware = 8 then
      devPut s (s.ctxOf st) (slotVA s st + (0x1000 + 512 * j + 8 * t.spilled)) (toBytes 8 (byteOf (t.stack.getD 7 0)))
    else some s) s

/-- The device accepts a write of n bytes into the strand's save slot (R390). -/
def SlotOpen (s : State) (u off n : Nat) : Prop :=
  ∀ bs : List Byte, bs.length = n → (devPut s (s.ctxOf (s.strand u)) (slotVA s (s.strand u) + off) bs).isSome

/-- RESTART of a trap by default: the boundary itself, or the start of the region of the fragment's lowest thread (R174). -/
def restartOf (i : Instr) (s : State) (u : Nat) (m : BitVec 32) : Nat :=
  if isBoundary i.op i.uses then byteOf (herePc i s u m) else byteOf ((s.strand u).startOf ((s.strand u).lowest m))

/-- The instruction takes a trap into the strand's handler (R174): the frame of R334 in the save slot with the given cause,
sub-cause, lanes and address, s62:s63 and TFP at the frame, the fragment at TVEC.HANDLER in trap mode, the other fragments paused.
The registers are as they were before the instruction; `base` is the state in which it traps. `born`: the cause mints a birth
(R106), which the statement leaves out. -/
def TrapsFrom (base : State) (i : Instr) (s : State) (u : Nat) (m : BitVec 32) (born : Bool) (cause sub : Nat) (lanes : BitVec 32) (addr : Nat) : Prop :=
  let frame := slotVA base (base.strand u) + 0x400
  (s.strand u).trap = none → (s.strand u).ctl.tvec ≠ 0 → (born = true → s.mints u = false) → SlotOpen base u 0x400 256 →
  ∃ t bytes k, exec i s = .next t ∧
    (bytes.length = 256 ∧ field bytes 0 1 = cause ∧ field bytes 2 2 = sub ∧ field bytes 4 4 = lanes.toNat ∧ field bytes 24 8 = addr ∧
      field bytes 8 8 = byteOf (herePc i s u m) ∧ field bytes 16 4 = encode i % 2 ^ 32 ∧ field bytes 32 8 = restartOf i s u m ∧ field bytes 40 8 = byteOf (nextPc i s u m) ∧
      field bytes 48 4 = ((s.strand u).readS 62 1).w.toNat ∧ field bytes 52 4 = ((s.strand u).readS 63 1).w.toNat) ∧
    Only (Touch.of { s := fun c => c == 62 || c == 63, ctl := fun c => c == 8 } i) (slotWrite base u 0x400 bytes) t u ∧
    t.sreg u 62 = { val := BitVec.ofNat 32 frame, tag := 0 } ∧ t.sreg u 63 = { val := BitVec.ofNat 32 (frame / 2 ^ 32), tag := 0 } ∧
    t.creg u 8 = BitVec.ofNat 64 frame ∧
    (t.strand u).trap = some k ∧ k.frag = m ∧ k.cause = cause ∧ k.restart = BitVec.ofNat 64 (restartOf i s u m) ∧
    ∀ j, j < (s.strand u).threads.length →
      (t.pcOf u j = if m.getLsbD j then BitVec.ofNat 62 ((s.strand u).ctl.tvec.toNat / 4) else s.pcOf u j) ∧
      (m.getLsbD j → ((t.strand u).thread j).inTrap = true) ∧
      (m.getLsbD j = false → ((s.strand u).thread j).live = true → ((t.strand u).thread j).paused = true)

def Traps (i : Instr) (s : State) (u : Nat) (m : BitVec 32) (born : Bool) (cause sub : Nat) (lanes : BitVec 32) (addr : Nat) : Prop :=
  TrapsFrom (entered i s u m) i s u m born cause sub lanes addr

/-- The device's message of an error reaches the context's mailbox 2 (R390). -/
def ErrorTold (s : State) (u : Nat) : Prop :=
  ∀ bs : List Byte, field bs 0 1 = 3 → (deliverQuiet s (s.ctxOf (s.strand u)) 2 bs).2 = true

/-- The instruction terminates the strand with a cause (R43, R176); registers, memory and the other strands are as they are in
`base`. -/
def Terminates (base : State) (i : Instr) (s : State) (u cause : Nat) : Prop :=
  ∃ t, exec i s = .next t ∧ (t.strand u).phase = .terminated ∧ (t.strand u).cause = cause ∧
    (∀ j, ((t.strand u).thread j).live = false) ∧ (∀ x, x ≠ u → t.strand x = s.strand x) ∧
    t.mem = base.mem ∧ t.tags = base.tags ∧ t.contexts = base.contexts

/-- The instruction's trap terminates the strand, and the error mailbox is told (R43, R176, R307). -/
def Dies (i : Instr) (s : State) (u : Nat) (m : BitVec 32) (cause : Nat) : Prop :=
  let e := entered i s u m
  let st := s.strand u
  ErrorTold e u →
    Terminates (errorLog e (s.ctxOf st) (dieOfCore st.core) cause (s.launch st.launch).num st.sid (byteOf (herePc i s u m))) i s u cause

/-! ### Memory -/

/-- The strand owes memory nothing: no store is buffered, closed, unacknowledged or refused. -/
def Strand.owesNothing (st : Strand) : Prop :=
  st.buf = [] ∧ st.redraw = [] ∧ st.cq = [] ∧ st.unacked = [] ∧ st.stFaults = []

/-- Nothing that a release by the strand would wait for or report (R185). -/
def Released (s : State) (u : Nat) : Prop :=
  (s.strand u).cq = [] ∧ (s.strand u).unacked = [] ∧ (s.strand u).stFaults = [] ∧ releaseOwed s u = false ∧
    peersOwed (s.strand u) = false ∧ (s.strand u).mtFaults = [] ∧ (s.strand u).wsFaults = []

/-- As `Completes`, from `base`: the state that the instruction entered, with what its translations leave in it (R282, R287). -/
def CompletesFrom (base : State) (i : Instr) (s : State) (u : Nat) (m : BitVec 32) (w : Touch) (P : State → Prop) : Prop :=
  ∃ t, exec i s = .next t ∧ P t ∧ Only (w.of i) base t u ∧ Advances s t u m (nextPc i s u m)

/-- The accesses `xs`, of n bytes each, are canonical and aligned, and each translates to a location of this card or the host's memory
that nothing holds: `loc` by thread, through a page with the leaf `leaf`. Translation leaves the machine in `base` (R180, R280). -/
def Finds (i : Instr) (s : State) (u : Nat) (m : BitVec 32) (uniform : Bool) (k : Access) (n : Nat) (xs : List Ea) (base : State)
    (loc leaf : Nat → Nat) : Prop :=
  badAddr xs n = none ∧ anyHeld base u xs n = false ∧
    fates (entered i s u m) u uniform k n xs = (xs.map fun x => (x, Fate.hit (.loc (loc x.thread)) (leaf x.thread)), base)

/-- No byte of n from a location lies in a poisoned unit. -/
def State.cleanAt (s : State) (l n : Nat) : Prop :=
  s.poisonedAt l n = false ∧ ∀ k, 4 * k + 4 ≤ n → s.poisonedAt (l + 4 * k) 4 = false

/-- The accesses of a memory instruction's acting threads, or the one of a uniform instruction (R149). -/
def accesses (i : Instr) (o : MemOp) (uniform : Bool) (s : State) (u : Nat) (m : BitVec 32) : List Ea :=
  memAddrs (s.strand u) (contextOf i s u m) o uniform

/-- Read-modify-writes of n bytes in the order of their list, each of a thread at a location: the value each finds, and the memory they
leave. `new j old` is what thread j writes where it finds `old`; none where it writes nothing (R191). -/
def atomically (n : Nat) (new : Nat → Nat → Option Nat) : List (Nat × Nat) → Memory → List (Nat × Nat) × Memory
  | [], mem => ([], mem)
  | (j, l) :: rest, mem =>
    let old := ofBytes (Memory.read mem l n)
    let r := atomically n new rest (match new j old with | some v => Memory.write mem l (toBytes n v) | none => mem)
    ((j, old) :: r.1, r.2)

/-- A write of n bytes at each of the threads' locations needs nobody's leave: no line is the host's (R379), no mailbox slot is watched
(R301), a deterministic launch holds its bobbin (R203), nothing is poisoned or written raw. -/
def Writable (s : State) (u : Nat) (act : List Nat) (n : Nat) (loc leaf : Nat → Nat) : Prop :=
  s.raw = [] ∧ (∀ j ∈ act, s.cleanAt (loc j) n ∧ ∀ x ∈ unitsOf (loc j) n, s.poison.contains x = false) ∧ (∀ c ∈ s.contexts, c.2.busy = []) ∧
    heldLines s (act.map fun j => (loc j, List.replicate n 0, 0)) = [] ∧
    bobbinFree s u (act.map fun j => Fate.hit (.loc (loc j)) (leaf j)) = true

/-! ### Waiting and single targets -/

/-- The instruction does not complete yet: the threads of the fragment wait at it, and nothing but what a boundary closes differs from
`base`. -/
def WaitsFor (base : State) (i : Instr) (s : State) (u : Nat) (m : BitVec 32) (w : Wait) : Prop :=
  ∃ t, exec i s = .next t ∧ Only (Touch.of {} i) base t u ∧
    ∀ j, j < (s.strand u).threads.length → t.pcOf u j = s.pcOf u j ∧ (m.getLsbD j → ((t.strand u).thread j).wait = w)

/-- The one target of an instruction that addresses memory through a uniform pair: s(B:B+1) plus a displacement (R152, R194, R204). -/
def targetOf (s : State) (u : Nat) (m : BitVec 32) (b : Nat) (disp : BitVec 16) : Ea :=
  let st := s.strand u
  let base := st.readS b 2
  { thread := st.lowest m, lane := 0, va := addrOf base.d 0 0 disp, base := base.tag, idx := 0, poison := base.poison }

/-- Such a target of n bytes is found at location `l` of this card or the host, and the strand owes nothing that the instruction would
wait for (R185). -/
def Reaches (i : Instr) (s : State) (u : Nat) (m : BitVec 32) (k : Access) (n b : Nat) (disp : BitVec 16) (base : State) (l leaf : Nat) : Prop :=
  Finds i s u m true k n [targetOf s u m b disp] base (fun _ => l) (fun _ => leaf) ∧ Released base u ∧ acting i s u m ≠ [] ∧ (s.strand u).clean

end Machine

end Sys2Proof
end

