-- ==== Sys2Proof/Certificates/Slice0/Obligations.lean ====
section
/-!
DEFINITION. The statements for the provers.
-/

open Sys2Proof Sys2Proof.Machine

/-- R126: the exact result of the operands read as Z directs, modulo 2^32 or clamped with SAT; logic, shifts and bit counts. -/
def Obligations.IntegerInstructionsGiveTheirResults : Prop :=
  (∀ o : Alu,
    Binary (.iadd o) o (fun a b => clamped o.z o.sat 32 (reading o.z a + reading o.z b)) ∧
    Binary (.isub o) o (fun a b => clamped o.z o.sat 32 (reading o.z a - reading o.z b)) ∧
    Binary (.imul o) o (fun a b => clamped o.z o.sat 32 (reading o.z a * reading o.z b)) ∧
    Ternary (.imad o) o (fun a b c => clamped o.z o.sat 32 (reading o.z a * reading o.z b + reading o.z c)) ∧
    Binary (.imulh o) o (fun a b => BitVec.ofInt 32 (reading o.z a * reading o.z b / 2 ^ 32)) ∧
    Binary (.imin o) o (fun a b => if reading o.z a ≤ reading o.z b then a else b) ∧
    Binary (.imax o) o (fun a b => if reading o.z b ≤ reading o.z a then a else b) ∧
    Binary (.iaddi o) o (fun a b => a + b)) ∧
  (∀ o : Alu,
    (Binary (.and o) o (fun a b => a &&& b) ∧ Binary (.or o) o (fun a b => a ||| b) ∧ Binary (.xor o) o (fun a b => a ^^^ b) ∧
      Binary (.andn o) o (fun a b => a &&& ~~~b) ∧ Binary (.andi o) o (fun a b => a &&& b) ∧
      Binary (.shl o) o (fun a b => a <<< b.toNat) ∧ Binary (.shr o) o (fun a b => a >>> b.toNat) ∧
      Binary (.sar o) o (fun a b => a.sshiftRight b.toNat) ∧ Binary (.rot o) o (fun a b => a.rotateLeft (b.toNat % 32)) ∧
      Binary (.shli o) o (fun a b => a <<< b.toNat) ∧ Binary (.shri o) o (fun a b => a >>> b.toNat)) ∧
    ∀ q : Un, ∃ ones zeros back : Word → Word, Unary (.popc q) q ones ∧ Unary (.clz q) q zeros ∧ Unary (.brev q) q back ∧ ∀ a,
      (ones a).toNat = ((List.range 32).filter fun k => a.getLsbD k).length ∧
      (∀ k, k < (zeros a).toNat → a.getLsbD (31 - k) = false) ∧ (zeros a).toNat ≤ 32 ∧
      ((zeros a).toNat < 32 → a.getLsbD (31 - (zeros a).toNat) = true) ∧
      ∀ k, k < 32 → (back a).getLsbD (31 - k) = a.getLsbD k)

/-- R127, R129, R130: moves, selection and address formation. MOVL's tag has no source. -/
def Obligations.MovesSelectAndLea : Prop :=
  (∀ o : Un, Unary (.mov o) o id) ∧
  (∀ o : MovsOp, ∀ s u m, Ready (.movs o) s u m → (s.strand u).clean →
    VecResult (.movs o) s u m o.d 1 (fun _ => [(s.sreg u o.b).val]) fun _ => plainTag (.movs o) s u m [(s.sreg u o.b).tag]) ∧
  (∀ o : MovlOp, ∀ s u m, Ready (.movl o) s u m → (s.strand u).clean →
    VecResult (.movl o) s u m o.d (if o.wide then 2 else 1) (fun _ => if o.wide then [o.lit.setWidth 32, (o.lit >>> 32).setWidth 32]
      else [o.lit.setWidth 32]) fun _ => plainTag (.movl o) s u m [0]) ∧
  (∀ o : SelOp, ∀ s u m, Ready (.sel o) s u m → (s.strand u).clean →
    VecResult (.sel o) s u m o.d 1
      (fun j => [if s.pred u j o.p then (vOpd (.sel o) s u m j o.a 1).w else (srcOpd (.sel o) s u m j o.b 1).w])
      fun j => plainTag (.sel o) s u m
        [if s.pred u j o.p then (vOpd (.sel o) s u m j o.a 1).tag else (srcOpd (.sel o) s u m j o.b 1).tag]) ∧
  ∀ o : LeaOp, ∀ s u m, Ready (.lea o) s u m → (s.strand u).clean →
    let va (j : Nat) : BitVec 64 :=
      ((s.strand u).readS o.b 2).d + (vOpd (.lea o) s u m j o.a 1).w.setWidth 64 * BitVec.ofNat 64 (2 ^ o.sc) + o.disp
    VecResult (.lea o) s u m o.d 2 (fun j => [(va j).setWidth 32, ((va j) >>> 32).setWidth 32])
      fun j => plainTag (.lea o) s u m [(vOpd (.lea o) s u m j o.a 1).tag, ((s.strand u).readS o.b 2).tag]

/-- R128, R135, R154: the vector instructions that write a predicate in each acting thread. -/
def Obligations.ComparesWritePredicates : Prop :=
  (∀ o : CmpOp, ∀ s u m, Ready (.icmp o) s u m → (s.strand u).clean →
    PredResult (.icmp o) s u m o.d fun j =>
      let a := (vOpd (.icmp o) s u m j o.a 1).w
      let b := (srcOpd (.icmp o) s u m j o.b 1).w
      match o.cond with
      | 0 => a == b
      | 1 => a != b
      | 2 => a.slt b
      | 3 => a.sle b
      | 4 => b.slt a
      | 5 => b.sle a
      | 6 => a.ult b
      | 7 => a.ule b
      | 8 => b.ult a
      | _ => b.ule a) ∧
  (∀ o : CmpOp, ∀ s u m, Ready (.fcmp o) s u m → (s.strand u).clean →
    PredResult (.fcmp o) s u m o.d fun j =>
      let f : Fmt := if o.dbl then .f64 else .f32
      let a := f.input (s.strand u).ftz (vOpd (.fcmp o) s u m j o.a (if o.dbl then 2 else 1)).val
      let b := f.input (s.strand u).ftz (srcOpd (.fcmp o) s u m j o.b (if o.dbl then 2 else 1)).val
      let unordered := a.isNan || b.isNan
      match o.cond with
      | 0 => !unordered && a.eq b
      | 1 => unordered || !a.eq b
      | 2 => !unordered && a.lt b
      | 3 => !unordered && (a.lt b || a.eq b)
      | 4 => !unordered && b.lt a
      | 5 => !unordered && (b.lt a || a.eq b)
      | 6 => unordered
      | _ => !unordered) ∧
  (∀ o : FclassOp, ∀ s u m, Ready (.fclass o) s u m → (s.strand u).clean →
    PredResult (.fclass o) s u m o.d fun j =>
      let a := vOpd (.fclass o) s u m j o.a (if o.dbl then 2 else 1)
      Nat.land (classBits (if o.dbl then .f64 else .f32) (s.strand u).ftz a.val a.tag) o.mask != 0) ∧
  ∀ o : LopOp, ∀ s u m, Ready (.plop o) s u m →
    PredResult (.plop o) s u m o.d fun j => o.fn.testBit (2 * bit (s.pred u j o.a) + bit (s.pred u j o.b))

/-- R131: SHFL gives each acting thread the word, with its tag, of the live thread at the place that its mode and amount name,
or its own where there is none. R132: SCAN gives each acting thread the combination of the operands that enter its prefix, the
identity for none; flags arise only from the FP32 sum. -/
def Obligations.ShuffleAndScan : Prop :=
  (∀ o : ShflOp, ∀ s u m, Ready (.shfl o) s u m → (s.strand u).clean →
    let st := s.strand u
    let live := st.byLane st.liveMask
    let number (j : Nat) : Nat := if st.prot then (st.thread j).lane / 2 else (st.thread j).lane
    let source (j : Nat) : Nat :=
      let n := (srcOpd (.shfl o) s u m j o.amt 1).w.toNat % 32
      let k := match o.mode with
        | 0 => some n
        | 1 => if n ≤ number j then some (number j - n) else none
        | 2 => if number j + n < 32 then some (number j + n) else none
        | _ => some (Nat.xor (number j) n)
      (k.bind fun k => live.find? fun t => number t == k).getD j
    VecResult (.shfl o) s u m o.d 1 (fun j => [(vOpd (.shfl o) s u m (source j) o.a 1).w])
      fun j => plainTag (.shfl o) s u m [(vOpd (.shfl o) s u m (source j) o.a 1).tag]) ∧
  (∀ o : ScanOp, ∀ s u m, Ready (.scan o) s u m → (s.strand u).clean →
    ¬(o.op = 1 ∧ draws s u o.rm) →
    let p := scanPrefix (.scan o) o s u m
    FpResult (.scan o) s u m o.d 1 false (fun j => [(p j).val.getD (scanIdentity o.op)]) (fun j => (p j).flags)
      fun j => plainTag (.scan o) s u m (p j).tags)

/-- R133: SREAD gives the identity values of R51 with tag NONE, in the acting threads or once in s-registers. R144: RAND writes the
generator's value for each acting thread's lane, or the FP32 fraction of its upper 24 bits, and advances GENC once. -/
def Obligations.IdentityAndGeneratorReads : Prop :=
  (∀ o : SreadOp, ∀ s u m, Ready (.sread o) s u m →
    let n := if o.sel = 0x10 ∨ o.sel = 0x11 then 2 else 1
    let words (j : Nat) : List Word := wordsOfNat n (identity s (contextOf (.sread o) s u m) j o.sel)
    (o.u = false → VecResult (.sread o) s u m o.d n words fun _ => 0) ∧
    (o.u = true → UniResult (.sread o) s u m o.d n (words 0) 0)) ∧
  (∀ o : RandOp, ∀ s u m, Ready (.rand o) s u m →
    let r (j : Nat) : Nat := gen (s.creg u 5) (s.creg u 6) ((s.strand u).thread j).lane
    FpResult (.rand o) s u m o.d 1 true
      (fun j => [BitVec.ofNat 32 (if o.f then (roundTo .f32 {} (.fin false (r j / 2 ^ 8) (-24) false)).1 else r j)]) (fun _ => 0)
      fun _ => plainTag (.rand o) s u m [])

/-- R134: FP32 arithmetic rounds the exact result once. FMIN and FMAX choose, FSCL scales, FRND rounds to an integral value. -/
def Obligations.SinglePrecision : Prop :=
  ((∀ o : Alu, Rounds (.fadd o) .f32 1 o.d o.rm opFadd (opdsAB (.fadd o) o 1) ∧ Rounds (.fsub o) .f32 1 o.d o.rm opFsub (opdsAB (.fsub o) o 1) ∧
      Rounds (.fmul o) .f32 1 o.d o.rm opFmul (opdsAB (.fmul o) o 1) ∧ Rounds (.ffma o) .f32 1 o.d o.rm opFfma (opdsABC (.ffma o) o 1) ∧
      Rounds (.fdiv o) .f32 1 o.d o.rm opFdiv (opdsAB (.fdiv o) o 1)) ∧
    ∀ o : Un, Rounds (.fsqrt o) .f32 1 o.d o.rm opFsqrt (opdsA (.fsqrt o) o) ∧ Rounds (.frcp o) .f32 1 o.d o.rm opFrcp (opdsA (.frcp o) o) ∧
      Rounds (.frsq o) .f32 1 o.d o.rm opFrsq (opdsA (.frsq o) o) ∧ Rounds (.fex2 o) .f32 1 o.d o.rm opFex2 (opdsA (.fex2 o) o) ∧
      Rounds (.flg2 o) .f32 1 o.d o.rm opFlg2 (opdsA (.flg2 o) o) ∧ Rounds (.fsin o) .f32 1 o.d o.rm opFsin (opdsA (.fsin o) o) ∧
      Rounds (.fcos o) .f32 1 o.d o.rm opFcos (opdsA (.fcos o) o)) ∧
  ((∀ o : Alu, ∀ max : Bool, ∀ s u m, Ready (if max then .fmax o else .fmin o) s u m → (s.strand u).clean →
      let i : Instr := if max then .fmax o else .fmin o
      let a (j : Nat) := vOpd i s u m j o.a 1
      let b (j : Nat) := srcOpd i s u m j o.b 1
      VecResult i s u m o.d 1 (fun j => [BitVec.ofNat 32 (fminmax max (s.strand u).ftz (a j).w.toNat (b j).w.toNat)])
        fun j => plainTag i s u m [(a j).tag, (b j).tag]) ∧
    (∀ o : Alu, ∀ s u m, Ready (.fscl o) s u m → (s.strand u).clean →
      let a (j : Nat) := vOpd (.fscl o) s u m j o.a 1
      let b (j : Nat) := srcOpd (.fscl o) s u m j o.b 1
      let r (j : Nat) : FpOut := fpApply .f32 (roundOf s u j o.rm 0) (fun _ xs => (fscl (b j).w.toInt (xs.getD 0 .nan), false, false)) [(a j).val]
      FpResult (.fscl o) s u m o.d 1 (draws s u o.rm) (fun j => [BitVec.ofNat 32 (r j).pat]) (fun j => (r j).flags)
        fun j => plainTag (.fscl o) s u m [(a j).tag, (b j).tag]) ∧
    ∀ o : Un, ∀ s u m, Ready (.frnd o) s u m → (s.strand u).clean →
      let a (j : Nat) := vOpd (.frnd o) s u m j o.a 1
      let r (j : Nat) : Ex × Bool := frnd (roundOf s u j o.rm 0) (Fmt.f32.input (s.strand u).ftz (a j).val)
      FpResult (.frnd o) s u m o.d 1 (draws s u o.rm) (fun j => [BitVec.ofNat 32 (roundTo .f32 {} (r j).1).1])
        (fun j => if (r j).2 then 16 else 0) fun j => plainTag (.frnd o) s u m [(a j).tag])

/-- R136, R137: FP64 arithmetic on pairs, and packed FP16 and BF16 arithmetic element by element. -/
def Obligations.DoubleAndPackedArithmetic : Prop := ∀ o : Alu,
  (Rounds (.dadd o) .f64 2 o.d o.rm opFadd (opdsAB (.dadd o) o 2) ∧ Rounds (.dmul o) .f64 2 o.d o.rm opFmul (opdsAB (.dmul o) o 2) ∧
    Rounds (.dfma o) .f64 2 o.d o.rm opFfma (opdsABC (.dfma o) o 2)) ∧
  (RoundsPacked (.hadd2 o) .f16 o.d o.rm opFadd (opdsAB (.hadd2 o) o 1) ∧ RoundsPacked (.hmul2 o) .f16 o.d o.rm opFmul (opdsAB (.hmul2 o) o 1) ∧
    RoundsPacked (.hfma2 o) .f16 o.d o.rm opFfma (opdsABC (.hfma2 o) o 1)) ∧
  RoundsPacked (.badd2 o) .bf16 o.d o.rm opFadd (opdsAB (.badd2 o) o 1) ∧ RoundsPacked (.bmul2 o) .bf16 o.d o.rm opFmul (opdsAB (.bmul2 o) o 1) ∧
    RoundsPacked (.bfma2 o) .bf16 o.d o.rm opFfma (opdsABC (.bfma2 o) o 1)

/-- R138, R139: CVT converts one element; a narrow one replaces element DE of the destination's old word, whose other elements stay. -/
def Obligations.CvtConvertsOneElement : Prop := ∀ o : CvtOp, ∀ s u m, Ready (.cvt o) s u m → (s.strand u).clean →
  ¬(o.df = 14 ∧ draws s u o.rm) →
  let sw := fmtWidth o.sf
  let dw := fmtWidth o.df
  let whole := fmtIsInt o.sf && fmtIsInt o.df
  let a (j : Nat) := vOpd (.cvt o) s u m j o.a (if sw = 64 then 2 else 1)
  let scale (j : Nat) : Nat := if o.sf = 14 ∨ o.df = 14 then (vOpd (.cvt o) s u m j o.c 1).w.toNat / 2 ^ (8 * o.sb) % 2 ^ 8 else 0
  let r (j : Nat) : FpOut := cvtElem o.sf o.df ((a j).val / 2 ^ (sw * o.se) % 2 ^ sw) (scale j) o.sat (roundOf s u j o.rm 0)
  ∃ words : Nat → List Word,
    FpResult (.cvt o) s u m o.d (if dw = 64 then 2 else 1) (draws s u o.rm && !whole) words (fun j => (r j).flags)
      (fun j => plainTag (.cvt o) s u m [(a j).tag]) ∧
    ∀ j ∈ acting (.cvt o) s u m,
      (32 ≤ dw → words j = wordsOfNat (if dw = 64 then 2 else 1) (r j).pat) ∧
      (dw < 32 → ∃ x : Word, words j = [x] ∧ ∀ k, k < 32 →
        x.getLsbD k = if dw * o.de ≤ k ∧ k < dw * o.de + dw then (r j).pat.testBit (k - dw * o.de) else (s.vreg u j o.d).val.getLsbD k)

/-- R140, R141: DOT4 and DOT8 round once the sum of c and the exact products of the scaled elements. -/
def Obligations.NarrowDotProductsRoundOnce : Prop := ∀ o : DotOp, ∀ eight : Bool, ∀ s u m,
  let i : Instr := if eight then .dot8 o else .dot4 o
  Ready i s u m → (s.strand u).clean →
  let st := s.strand u
  let a (j : Nat) := vOpd i s u m j o.a 1
  let b (j : Nat) := srcOpd i s u m j o.b 1
  let c (j : Nat) := vOpd i s u m j o.c 1
  let scale (j code sel : Nat) : Nat := (scaleReg st (st.thread j).lane code).w.toNat / 2 ^ (8 * sel) % 2 ^ 8
  let pair (j e : Nat) : Ex × Ex :=
    if eight then (n4Value (scale j o.sra o.bsa) ((a j).w.toNat / 2 ^ (4 * e) % 2 ^ 4), n4Value (scale j o.srb o.bsb) ((b j).w.toNat / 2 ^ (4 * e) % 2 ^ 4))
    else (dot4Elem o.fa ((a j).w.toNat / 2 ^ (8 * e) % 2 ^ 8) (scale j o.sra o.bsa) st.ftz,
      dot4Elem o.fb ((b j).w.toNat / 2 ^ (8 * e) % 2 ^ 8) (scale j o.srb o.bsb) st.ftz)
  let r (j : Nat) : FpOut := dotSum (roundOf s u j o.rm 0) ((List.range (if eight then 8 else 4)).map (pair j)) (c j).w.toNat
  FpResult i s u m o.d 1 (draws s u o.rm) (fun j => [BitVec.ofNat 32 (r j).pat]) (fun j => (r j).flags)
    fun j => plainTag i s u m [(a j).tag, (b j).tag, (c j).tag]

/-- R142, R143: WUPD writes the weight's two halves, m and v, and its two predicates. -/
def Obligations.WupdUpdatesTheQuad : Prop := ∀ o : WupdOp, ∀ s u m, Ready (.wupd o) s u m → (s.strand u).clean →
  let q (j k : Nat) : Nat := (s.vreg u j (o.d + k)).val.toNat
  let g (j : Nat) : Nat := (s.vreg u j o.a).val.toNat
  let r (j : Nat) : Update := update (q j 0 % 2 ^ 16 * 2 ^ 16 + q j 1 % 2 ^ 16) (g j) (q j 2) (q j 3)
    ((List.range 7).map fun k => (s.sreg u (8 * o.g + k)).val.toNat)
  let act := acting (.wupd o) s u m
  let flags := gather (act.map fun j => (r j).flags)
  (s.strand u).fpTrap flags = none →
    Completes (.wupd o) s u m
      { Touch.vec (.wupd o) s u m o.d 4 with
        p := fun j c => act.contains j && c != 7 && (c == o.negv || c == o.zden)
        ctl := fun c => c == 0 || (s.mints u && (c == 1 || c == 0x11))
        launches := s.mints u } fun t =>
      (∃ tags : Nat → Tag,
        (s.mints u = false → ∀ j ∈ act, tags j =
          plainTag (.wupd o) s u m [(s.vreg u j o.d).tag, (s.vreg u j o.a).tag, (s.vreg u j (o.d + 2)).tag, (s.vreg u j (o.d + 3)).tag]) ∧
        Gives (.wupd o) s t u m o.d 4 fun j k =>
          { val := BitVec.ofNat 32 ([(r j).w1 / 2 ^ 16, (r j).w1 % 2 ^ 16, (r j).m1, (r j).v1].getD k 0), tag := tags j }) ∧
      (∀ j ∈ act, (o.zden < 7 → t.pred u j o.zden = (r j).zden) ∧ (o.negv < 7 → o.negv ≠ o.zden → t.pred u j o.negv = (r j).negv)) ∧
      (act ≠ [] → t.creg u 0 = s.creg u 0 ||| BitVec.ofNat 64 (flags % 32 * 256))

/-- R145: uniform arithmetic computes as the vector instructions do, in 32 bits or on pairs. R146, R147: SMOV adds to s(A), SSEL selects, SCMP
compares into a k register. -/
def Obligations.UniformInstructions : Prop :=
  (∀ o : SAlu,
    UniBinary (.sadd o) o (fun w a b => clamped o.z o.sat w (reading o.z a + reading o.z b)) ∧
    UniBinary (.ssub o) o (fun w a b => clamped o.z o.sat w (reading o.z a - reading o.z b)) ∧
    UniBinary (.smul o) o (fun w a b => clamped o.z o.sat w (reading o.z a * reading o.z b)) ∧
    UniBinary (.sand o) o (fun _ a b => a &&& b) ∧ UniBinary (.sor o) o (fun _ a b => a ||| b) ∧ UniBinary (.sxor o) o (fun _ a b => a ^^^ b) ∧
    UniBinary (.sshl o) o (fun _ a b => a <<< b.toNat) ∧
    UniBinary (.sshr o) o (fun _ a b => if o.ar then a.sshiftRight b.toNat else a >>> b.toNat)) ∧
  ((∀ o : SmovOp, ∀ s u m, Ready (.smov o) s u m → (s.strand u).clean →
      let a := (s.strand u).readS o.a (if o.wide then 2 else 1)
      UniResult (.smov o) s u m o.d (if o.wide then 2 else 1)
        (if o.wide then [(a.d + o.x).setWidth 32, ((a.d + o.x) >>> 32).setWidth 32] else [a.w + o.x.setWidth 32]) (plainTag (.smov o) s u m [a.tag])) ∧
    (∀ o : SselOp, ∀ s u m, Ready (.ssel o) s u m → (s.strand u).clean →
      let x := if s.kpred u o.k then (s.strand u).readS o.a 1 else uniSrc (s.strand u) o.b 1
      UniResult (.ssel o) s u m o.d 1 [x.w] (plainTag (.ssel o) s u m [x.tag])) ∧
    ∀ o : ScmpOp, ∀ s u m, Ready (.scmp o) s u m → (s.strand u).clean →
      let a := ((s.strand u).readS o.a 1).w
      let b := (uniSrc (s.strand u) o.b 1).w
      KResult (.scmp o) s u m o.d <|
        if o.cond < 10 then icmp o.cond a b
        else fcmp (o.cond - 10) (Fmt.f32.input (s.strand u).ftz a.toNat) (Fmt.f32.input (s.strand u).ftz b.toNat))

/-- R151, R152, R112: VTOS reduces over the fragment's threads in lane order; with CV the fragment holds every live thread. -/
def Obligations.VtosReduces : Prop := ∀ o : VtosOp, ∀ s u m, Ready (.vtos o) s u m → (s.strand u).clean →
  let xs := ((s.strand u).byLane m).map fun j => vOpd (.vtos o) s u m j o.a 1
  let ws := xs.map (·.w)
  let low := xs.headD {}
  let keep := tagBy (.vtos o) s u m (if o.tr = 0 then 3 else o.tr) [low.tag]
  let all := plainTag (.vtos o) s u m (xs.map (·.tag))
  let one (w : Word) (t : Tag) : Prop := UniResult (.vtos o) s u m o.d 1 [w] t
  (o.mode = 0 → one low.w keep) ∧
  (o.mode = 1 → Completes (.vtos o) s u m
    { s := fun c => decide (acting (.vtos o) s u m ≠ [] ∧ c = o.d)
      k := fun c => decide (acting (.vtos o) s u m ≠ [] ∧ c = o.kf ∧ o.kf ≠ 7) } fun t =>
    acting (.vtos o) s u m ≠ [] →
      (o.d ≠ 0 → t.sreg u o.d = { val := low.w, tag := keep }) ∧ (o.kf < 7 → t.kpred u o.kf = ws.all (· == low.w))) ∧
  (o.mode = 2 → one (ws.foldl (· ||| ·) 0) all) ∧
  (o.mode = 3 → one ((ws.drop 1).foldl (· &&& ·) low.w) all) ∧
  (o.mode = 4 → o.ty < 2 → one ((ws.drop 1).foldl (fun a b => if reading (o.ty == 1) b < reading (o.ty == 1) a then b else a) low.w) all) ∧
  (o.mode = 5 → o.ty < 2 → one ((ws.drop 1).foldl (fun a b => if reading (o.ty == 1) a < reading (o.ty == 1) b then b else a) low.w) all) ∧
  (o.mode = 4 ∨ o.mode = 5 → o.ty = 2 →
    one ((ws.drop 1).foldl (fun a b => BitVec.ofNat 32 (fminmax (o.mode == 5) (s.strand u).ftz a.toNat b.toNat))
      (scanFirst 6 (s.strand u).ftz low.w)) all) ∧
  (o.mode = 6 → o.ty < 2 → one (ws.foldl (· + ·) 0) all) ∧
  (o.mode = 6 → o.ty = 2 → draws s u o.rm = false →
    let r := vtosSum ((s.strand u).rnd o.rm 0 0) ws
    UniFpResult (.vtos o) s u m o.d (BitVec.ofNat 32 r.1) r.2 all) ∧
  (o.mode = 7 → one (BitVec.ofNat 32 xs.length) (tagBy (.vtos o) s u m (if o.tr = 0 then 4 else o.tr) []))

/-- R153, R154: VOTE and BALLOT reduce a predicate over the fragment's threads, KLOP combines uniform predicates. -/
def Obligations.VotesBallotsAndKlop : Prop :=
  (∀ o : VoteOp, ∀ s u m, Ready (.vote o) s u m →
    let ps := ((s.strand u).byLane m).map fun j => s.pred u j o.p
    KResult (.vote o) s u m o.d <|
      match o.mode with
      | 0 => ps.any id
      | 1 => ps.all id
      | _ => ps.all id || !ps.any id) ∧
  (∀ o : BallotOp, ∀ s u m, Ready (.ballot o) s u m →
    ∃ w : Word, UniResult (.ballot o) s u m o.d 1 [w] (plainTag (.ballot o) s u m []) ∧
      ∀ l, l < 32 → w.getLsbD l = ((s.strand u).byLane m).any fun j =>
        s.pred u j o.p && (((s.strand u).thread j).lane == l || ((s.strand u).prot && ((s.strand u).thread j).lane + 1 == l))) ∧
  ∀ o : LopOp, ∀ s u m, Ready (.klop o) s u m →
    KResult (.klop o) s u m o.d (o.fn.testBit (2 * bit (s.kpred u o.a) + bit (s.kpred u o.b)))

/-- R156, R157: BRA and SBRA take their acting threads OFF words from word0, JMP to the address of each; the other threads of
the fragment go on. -/
def Obligations.BranchesMoveTheirThreads : Prop :=
  (∀ o : BraOp, ∀ s u m, Ready (.bra o) s u m →
    Goes (.bra o) s u m {} (fun j => if j ∈ acting (.bra o) s u m then herePc (.bra o) s u m + o.off.signExtend 62 else nextPc (.bra o) s u m)
      fun _ => True) ∧
  (∀ o : BraOp, ∀ s u m, Ready (.sbra o) s u m →
    Goes (.sbra o) s u m {} (fun j => if j ∈ acting (.sbra o) s u m then herePc (.sbra o) s u m + o.off.signExtend 62 else nextPc (.sbra o) s u m)
      fun _ => True) ∧
  ∀ o : JmpOp, ∀ s u m, Ready (.jmp o) s u m →
    ((match o.target with | .v _ | .s _ => true | _ => false) = true →
      ∀ j ∈ acting (.jmp o) s u m, addrFault (srcOpd (.jmp o) s u m j o.target 2).val 4 = none) →
    Goes (.jmp o) s u m {} (fun j => if j ∈ acting (.jmp o) s u m then BitVec.ofNat 62 ((srcOpd (.jmp o) s u m j o.target 2).val / 4)
      else nextPc (.jmp o) s u m) fun _ => True

/-- R26, R156, R157: a call pushes the next pc of each acting thread, a return pops it; a ninth entry in hardware moves the
oldest to the save slot. A full or an empty stack traps. -/
def Obligations.CallsAndReturnsUseTheStack : Prop :=
  (∀ (i : Instr) (target : Nat → BitVec 62) (s : State) (u : Nat) (m : BitVec 32),
    ((∃ o, i = .call o ∧ ∀ j, target j = herePc i s u m + o.off.signExtend 62) ∨
      ∃ o, i = .callr o ∧ (∀ j, target j = BitVec.ofNat 62 ((srcOpd i s u m j o.target 2).val / 4)) ∧
        ((match o.target with | .v _ | .s _ => true | _ => false) = true →
          ∀ j ∈ acting i s u m, addrFault (srcOpd i s u m j o.target 2).val 4 = none)) →
    Ready i s u m →
    ((∀ j ∈ acting i s u m, ((s.strand u).thread j).stack.length < 64) →
      ∀ base, spilledStacks (entered i s u m) u (acting i s u m) = some base →
      GoesFrom base i s u m { flow := true } (fun j => if j ∈ acting i s u m then target j else nextPc i s u m) fun t =>
        (t.strand u).spans = (s.strand u).spans ∧
        ∀ j, j < (s.strand u).threads.length → ((s.strand u).thread j).exited = false →
          ((t.strand u).thread j).live = ((s.strand u).thread j).live ∧
          ((t.strand u).thread j).stack =
            if j ∈ acting i s u m then nextPc i s u m :: ((s.strand u).thread j).stack else ((s.strand u).thread j).stack) ∧
    ((∃ j ∈ acting i s u m, 64 ≤ ((s.strand u).thread j).stack.length) →
      Traps i s u m false 0x37 0 ((s.strand u).laneMask (maskBits m)) 0)) ∧
  ∀ o : NoOp, ∀ s u m, Ready (.ret o) s u m →
    ((∀ j ∈ acting (.ret o) s u m, ((s.strand u).thread j).stack ≠ []) →
      Goes (.ret o) s u m { flow := true }
        (fun j => if j ∈ acting (.ret o) s u m then ((s.strand u).thread j).stack.headD 0 else nextPc (.ret o) s u m) fun t =>
        (t.strand u).spans = (s.strand u).spans ∧
        ∀ j, j < (s.strand u).threads.length → ((s.strand u).thread j).exited = false →
          ((t.strand u).thread j).live = ((s.strand u).thread j).live ∧
          ((t.strand u).thread j).stack =
            if j ∈ acting (.ret o) s u m then ((s.strand u).thread j).stack.drop 1 else ((s.strand u).thread j).stack) ∧
    ((∃ j ∈ acting (.ret o) s u m, ((s.strand u).thread j).stack = []) →
      Traps (.ret o) s u m false 0x37 1 ((s.strand u).laneMask (maskBits m)) 0)

/-- R159, R160, R176: EXIT ends its acting threads; with no live thread left, and nothing owed to the strand's regions or
engines, the strand ends; in a trap handler it is a DOUBLE_TRAP. -/
def Obligations.ExitEndsThreads : Prop := ∀ o : NoOp, ∀ s u m, Ready (.exit o) s u m →
  let st := s.strand u
  let act := acting (.exit o) s u m
  (st.trap = none → (∃ j, st.liveMask.getLsbD j ∧ j ∉ act) →
    Completes (.exit o) s u m { flow := true, ctl := fun n => n == 2 || n == 3 || n == 0x11 } fun t =>
      ∀ j, ((t.strand u).thread j).live = ((st.thread j).live && !act.contains j)) ∧
  (st.trap = none → act ≠ [] → (∀ j, st.liveMask.getLsbD j → j ∈ act) → (∀ j, (st.thread j).live = true → (st.thread j).outs = []) →
    st.buf = [] → st.redraw = [] → st.cq = [] → st.unacked = [] → enginesOwed s u = false → st.stFaults = [] → st.cpFaults = [] → st.mtFaults = [] →
    st.wsFaults = [] → isDet (s.launch st.launch) = false →
    ∃ t, exec (.exit o) s = .next t ∧ (t.strand u).phase = .ended ∧ (∀ j, ((t.strand u).thread j).live = false) ∧
      Only (Touch.of { flow := true, launches := true, ctl := fun n => n == 2 || n == 3 || n == 0x11 } (.exit o)) s t u) ∧
  (st.trap ≠ none → act ≠ [] → Dies (.exit o) s u m 0x61)

/-- R123, R161, R171: NOP; RGN starts a region at the next instruction in each thread of its fragment; GUARD.O and GUARD.C
open and close spans, four at most. -/
def Obligations.RegionsAndSpans : Prop :=
  (∀ b s u m, Ready (.nop b) s u m → Completes (.nop b) s u m {} fun _ => True) ∧
  (∀ o : NoOp, ∀ s u m, Ready (.rgn o) s u m → Completes (.rgn o) s u m {} fun t =>
    ∀ j ∈ (s.strand u).byLane m,
      (t.strand u).startOf j = nextPc (.rgn o) s u m ∧
      ∀ e ∈ (t.strand u).buf, ∀ l ∈ e.lanes, l.thread = j → l.region = ((s.strand u).thread j).region → l.closed = true) ∧
  (∀ o : GuardOp, ∀ s u m, Ready (.guardOpen o) s u m → acting (.guardOpen o) s u m ≠ [] →
    ((s.strand u).spans.length < 4 → Completes (.guardOpen o) s u m { flow := true, ctl := fun n => n == 9 } fun t =>
      (t.strand u).spans = (s.strand u).spans ++ [Span.mk (herePc (.guardOpen o) s u m + o.off.signExtend 62) o.p
        (((entered (.guardOpen o) s u m).strand u).threads.map fun t => t.stack.length)] ∧
      cfld (t.creg u 9) 0 3 = (s.strand u).spans.length + 1) ∧
    (4 ≤ (s.strand u).spans.length → Traps (.guardOpen o) s u m false 0x32 0 ((s.strand u).laneMask (maskBits m)) 0)) ∧
  ∀ o : NoOp, ∀ s u m, Ready (.guardClose o) s u m → acting (.guardClose o) s u m ≠ [] →
    ((s.strand u).spans ≠ [] → Completes (.guardClose o) s u m { flow := true, ctl := fun n => n == 9 } fun t =>
      (t.strand u).spans = (s.strand u).spans.dropLast ∧ cfld (t.creg u 9) 0 3 = ((s.strand u).spans.length - 1) % 8) ∧
    ((s.strand u).spans = [] → Traps (.guardClose o) s u m false 0x32 1 ((s.strand u).laneMask (maskBits m)) 0)

/-- R169, R170: CHKERR tests CHKI under its mask, and clears or traps as it is told; DRAIN completes once the strand owes no
store. -/
def Obligations.ChkerrAndDrain : Prop :=
  (∀ o : ChkOp, ∀ s u m, Ready (.chkerr o) s u m → acting (.chkerr o) s u m ≠ [] →
    let h : Nat := (s.creg u 3).toNat % 16 &&& o.mask
    (h = 0 ∨ o.t = false → Completes (.chkerr o) s u m { k := fun c => decide (c = o.k ∧ o.k ≠ 7), ctl := fun n => n == 3 } fun t =>
      (o.k < 7 → t.kpred u o.k = (h != 0)) ∧
      t.creg u 3 = if o.clr then s.creg u 3 &&& ~~~BitVec.ofNat 64 h else s.creg u 3) ∧
    (h ≠ 0 → o.t = true → Traps (.chkerr o) s u m false 0x40 (0x10 + h) ((s.strand u).laneMask (maskBits m)) 0)) ∧
  ∀ o : NoOp, ∀ s u m, Ready (.drain o) s u m → (s.strand u).buf = [] → (s.strand u).redraw = [] → (s.strand u).unacked = [] →
    Completes (.drain o) s u m {} fun _ => True

/-- R177: TAG.GET reads a tag, TAG.SET writes one, TAG.MINT copies its operand and tags it with a birth where births are minted. -/
def Obligations.TagOperations : Prop :=
  (∀ o : TagOp, ∀ s u m, Ready (.tagGet o) s u m → (s.strand u).clean →
    VecResult (.tagGet o) s u m o.d 1 (fun j => [(vOpd (.tagGet o) s u m j o.a 1).tag.setWidth 32]) fun _ => 0) ∧
  (∀ o : TagOp, ∀ s u m, Ready (.tagSet o) s u m → (s.strand u).clean →
    let tag (j : Nat) : Tag := (srcOpd (.tagSet o) s u m j o.b 1).w.setWidth 16
    let bad (j : Nat) : Prop := (tag j).toNat / 2 ^ 14 = 0 ∧ (tag j).toNat % 2 ^ 14 ≠ 0
    ((∀ j ∈ acting (.tagSet o) s u m, ¬bad j) →
      VecResult (.tagSet o) s u m o.d 1 (fun j => [(vOpd (.tagSet o) s u m j o.a 1).w]) fun j => if (s.strand u).tagEn then tag j else 0) ∧
    ((∃ j ∈ acting (.tagSet o) s u m, bad j) →
      Traps (.tagSet o) s u m false 0x02 (if o.h.form.isW3 then 32 else 24) ((s.strand u).laneMask (maskBits m)) 0)) ∧
  ∀ o : TagOp, ∀ s u m, Ready (.tagMint o) s u m → (s.strand u).clean →
    let a (j : Nat) := vOpd (.tagMint o) s u m j o.a 1
    (s.mints u = false → VecResult (.tagMint o) s u m o.d 1 (fun j => [(a j).w]) fun j => (a j).tag) ∧
    (s.mints u = true → Completes (.tagMint o) s u m
      { Touch.vec (.tagMint o) s u m o.d 1 with ctl := fun n => n == 1 || n == 0x11, launches := true } fun t =>
      ∃ tags : Nat → Tag, (∀ j ∈ acting (.tagMint o) s u m, isBirth (tags j) = true) ∧
        Gives (.tagMint o) s t u m o.d 1 fun j k => { val := [(a j).w].getD k 0, tag := tags j })

/-- R173, R174, R43, R176: TRAP takes the trap of its acting lanes; where TVEC is zero or the strand is already in its handler, the
strand is terminated. -/
def Obligations.TrapEntersTheHandler : Prop := ∀ o : TrapOp, ∀ s u m, Ready (.trap o) s u m → acting (.trap o) s u m ≠ [] →
  Traps (.trap o) s u m false 0x60 o.code ((s.strand u).laneMask (acting (.trap o) s u m)) 0 ∧
  ((s.strand u).trap = none → (s.strand u).ctl.tvec = 0 → Dies (.trap o) s u m 0x60) ∧
  ((s.strand u).trap ≠ none → Dies (.trap o) s u m 0x61)

/-- R175, R176: the returns from a trap. Outside a handler they are illegal. -/
def Obligations.TretLeavesTheHandler : Prop := ∀ (i : Instr) (o : NoOp) (s : State) (u : Nat) (m : BitVec 32),
  i = .tretRestart o ∨ i = .tretNext o ∨ i = .tretKill o → Ready i s u m → acting i s u m ≠ [] →
  let st := s.strand u
  (st.trap = none → Traps i s u m false 0x01 3 (st.laneMask (maskBits m)) 0) ∧
  ∀ k, st.trap = some k → st.buf = [] → st.redraw = [] → st.cq = [] → st.unacked = [] → st.stFaults = [] →
    (i = .tretKill o → Terminates s i s u k.cause) ∧
    ((i = .tretNext o ∨ (i = .tretRestart o ∧ (BitVec.ofNat 64 (frameField s st 32 8) ≠ k.restart ∨ k.regional = false))) →
      (∀ j, (st.thread j).exited = false) →
      ∃ t, exec i s = .next t ∧ (t.strand u).trap = none ∧ t.creg u 8 = 0 ∧
        t.sreg u 62 = { val := BitVec.ofNat 32 (frameField s st 48 4), tag := k.tag62 } ∧
        t.sreg u 63 = { val := BitVec.ofNat 32 (frameField s st 52 4), tag := k.tag63 } ∧
        Only (Touch.of { s := fun c => c == 62 || c == 63, flow := true
                         ctl := fun n => n == 8 || (decide (i = .tretRestart o) && (n == 2 || n == 6 || n == 0x11)) } i) s t u ∧
        ∀ j, j < st.threads.length →
          ((t.strand u).thread j).inTrap = false ∧ ((t.strand u).thread j).paused = false ∧
          ((t.strand u).thread j).live = (st.thread j).live ∧
          (k.frag.getLsbD j → (st.thread j).live = true →
            t.pcOf u j = BitVec.ofNat 62 (frameField s st (if i = .tretNext o then 40 else 32) 8 / 4)) ∧
          (k.frag.getLsbD j = false → t.pcOf u j = s.pcOf u j))

/-- R114, R149, R182: LD and SLD give the bytes that memory holds at their addresses, narrow ones extended as SX directs, with the merged
tag of their sectors; with PD, LD writes the predicate value ≠ 0. -/
def Obligations.LoadsGiveMemory : Prop := ∀ (o : MemOp) (s base : State) (u : Nat) (m : BitVec 32) (loc leaf : Nat → Nat),
  let n := 2 ^ o.size
  let count := max 1 (n / 4)
  let words (j : Nat) : List Word :=
    let x := base.readNat (loc j) n
    if n < 4 then [if o.sx then (BitVec.ofNat (8 * n) x).signExtend 32 else BitVec.ofNat 32 x] else wordsOfNat (n / 4) x
  let tag (j : Nat) : Tag := if (s.strand u).tagEn then base.tagOf (loc j) n else 0
  (s.strand u).clean → s.raw = [] → (s.strand u).owesNothing →
  (Ready (.ld o) s u m → acting (.ld o) s u m ≠ [] → isProbe o false = false →
    Finds (.ld o) s u m false .load n (accesses (.ld o) o false s u m) base loc leaf → (∀ j ∈ acting (.ld o) s u m, base.cleanAt (loc j) n) →
    (o.pd = false → CompletesFrom base (.ld o) s u m (Touch.vec (.ld o) s u m o.d count) fun t =>
      Gives (.ld o) s t u m o.d count fun j k => { val := (words j).getD k 0, tag := tag j }) ∧
    (o.pd = true → CompletesFrom base (.ld o) s u m (Touch.preds (.ld o) s u m o.d) fun t =>
      o.d < 7 → ∀ j ∈ acting (.ld o) s u m, t.pred u j o.d = (words j).any (· != 0))) ∧
  (Ready (.sld o) s u m → acting (.sld o) s u m ≠ [] → isProbe o true = false →
    let j := (s.strand u).lowest m
    Finds (.sld o) s u m true .load n (accesses (.sld o) o true s u m) base loc leaf → base.cleanAt (loc j) n →
    CompletesFrom base (.sld o) s u m { s := fun c => decide (o.d ≤ c ∧ c < o.d + count) } fun t =>
      ∀ k, k < count → o.d + k ≠ 0 → t.sreg u (o.d + k) = { val := (words j).getD k 0, tag := tag j })

/-- R180, R284, R174: an access whose address is not canonical, or not aligned to its size, traps NONCANON or ALIGN before anything is
translated; a load whose lowest missing access is refused by its translation traps as the refusal directs. -/
def Obligations.RefusedAccessesTrap : Prop := ∀ (i : Instr) (o : MemOp) (uniform : Bool) (s : State) (u : Nat) (m : BitVec 32),
  (i = .ld o ∧ uniform = false ∧ isProbe o false = false) ∨ (i = .sld o ∧ uniform = true ∧ isProbe o true = false) ∨
    (i = .st o ∧ uniform = false) ∨ (i = .sst o ∧ uniform = true) →
  Ready i s u m → acting i s u m ≠ [] → (s.strand u).owesNothing →
  let xs := accesses i o uniform s u m
  let lanes := (s.strand u).laneMask (maskBits m)
  (∀ c x, badAddr xs (2 ^ o.size) = some (c, x) →
    x ∈ xs ∧ ((c = 0x23 ∧ 2 ^ 56 ≤ x.va) ∨ (c = 0x24 ∧ x.va % 2 ^ o.size ≠ 0 ∧ ∀ y ∈ xs, y.va < 2 ^ 56)) ∧ Traps i s u m true c 0 lanes x.va) ∧
  ∀ fs base x f, i = .ld o ∨ i = .sld o → badAddr xs (2 ^ o.size) = none →
    fates (entered i s u m) u uniform .load (2 ^ o.size) xs = (fs, base) → fs.find? (fun y => !y.2.isHit) = some (x, .bad f) →
    TrapsFrom base i s u m false (f.trap 0).1 (f.trap 0).2 lanes x.va

/-- R149, R164, R183: ST and SST place one entry in the region store buffer, with the address, bytes and tag of each thread; memory does
not change. A 33rd store of a thread's region discards the region and traps REGION_OVERFLOW. -/
def Obligations.StoresAreBuffered : Prop := ∀ (i : Instr) (o : MemOp) (uniform : Bool) (s : State) (u : Nat) (m : BitVec 32),
  (i = .st o ∧ uniform = false) ∨ (i = .sst o ∧ uniform = true) →
  Ready i s u m → acting i s u m ≠ [] → (s.strand u).clean →
  let st := s.strand u
  let n := 2 ^ o.size
  let xs := accesses i o uniform s u m
  let threads := if uniform then st.byLane m else acting i s u m
  let va (j : Nat) : Nat := if uniform then ((xs.map (·.va)).headD 0) else ((xs.find? fun x => x.thread == j).map (·.va)).getD 0
  let data (j : Nat) : Opd := if uniform then st.readS o.d (max 1 (n / 4)) else (st.thread j).readV o.d (max 1 (n / 4))
  badAddr xs n = none →
  ((o.sync = true → 2 ≤ o.ord → Released s u) → (∀ j ∈ threads, storeCount st j < 32) →
    Completes i s u m {} fun t => ∃ e : BufStore, (t.strand u).buf = st.buf ++ [e] ∧ e.kind = (if uniform then .sst else .st) ∧
      e.lanes.map (fun l => (l.thread, l.region, l.addr, l.bytes, l.tag, l.closed)) =
        threads.map fun j => (j, (st.thread j).region, va j, toBytes n (data j).val, (if st.tagEn then (data j).tag else 0), false)) ∧
  ((∃ j ∈ threads, 32 ≤ storeCount st j) → st.trap = none → st.ctl.tvec ≠ 0 → (∀ r ∈ st.regions, r.ctl.tvec ≠ 0) → SlotOpen s u 0x400 256 →
    ∃ t k, exec i s = .next t ∧ (t.strand u).trap = some k ∧ k.cause = 0x30 ∧ k.frag = m ∧
      ∀ e ∈ (t.strand u).buf, ∀ l ∈ e.lanes, m.getLsbD l.thread → l.region = (st.thread l.thread).region → l.closed = true)

/-- R65: an instruction whose guard holds in no thread of its fragment has no effect but to go on. -/
def Obligations.GuardedOffDoesNothing : Prop := ∀ (i : Instr) (s : State) (u : Nat) (m : BitVec 32),
  Ready i s u m → acting i s u m = [] → Completes i s u m {} fun _ => True

/-- R189 to R191: ATOM, RED and CAS read, compute and write in the order of the lanes; ATOM and CAS give each thread the value it found. -/
def Obligations.AtomicsReadModifyWrite : Prop := ∀ (i : Instr) (k : AtomKind) (o : AtomOp) (s base : State) (u : Nat) (m : BitVec 32) (loc leaf : Nat → Nat),
  (i = .atom o ∧ k = .atom) ∨ (i = .red o ∧ k = .red) ∨ (i = .cas o ∧ k = .cas) →
  Ready i s u m → acting i s u m ≠ [] → (s.strand u).clean → (s.strand u).owesNothing → Released base u →
  let st := s.strand u
  let n := 2 ^ o.size
  let c (j : Nat) : Opd := (st.thread j).readV o.c (n / 4)
  let swap (j : Nat) : Opd := (st.thread j).readV (o.c + n / 4) (n / 4)
  let less (x y : Nat) : Bool := (BitVec.ofNat (8 * n) x).slt (BitVec.ofNat (8 * n) y)
  let new (j old : Nat) : Option Nat :=
    match k with
    | .cas => if old = (c j).val then some (swap j).val else none
    | _ => some <| match o.op with
      | 0 => (old + (c j).val) % 2 ^ (8 * n)
      | 1 => if less (c j).val old then (c j).val else old
      | 2 => if less (c j).val old then old else (c j).val
      | 3 => min old (c j).val
      | 4 => max old (c j).val
      | 5 => fminmax false false old (c j).val
      | 6 => fminmax true false old (c j).val
      | 7 => old &&& (c j).val
      | 8 => old ||| (c j).val
      | 9 => old ^^^ (c j).val
      | 10 => (c j).val
      | _ => (roundTo .f32 { rm := 1 } ((Fmt.f32.value old).add false (Fmt.f32.value (c j).val))).1
  let act := acting i s u m
  Finds i s u m false .atomic n (vecAddrs st (contextOf i s u m) o.a o.b o.sc o.disp) base loc leaf → Writable base u act n loc leaf →
  let r := atomically n new (act.map fun j => (j, loc j)) base.mem
  CompletesFrom base i s u m
    { if k = .red then {} else Touch.vec i s u m o.d (n / 4) with
      mem := fun l => act.any fun j => decide (32 * (loc j / 32) ≤ l ∧ l < 32 * ((loc j + n + 31) / 32)) } fun t =>
    t.mem = r.2 ∧ (∀ l, (∀ j ∈ act, ¬(loc j ≤ l ∧ l < loc j + n)) → t.byteAt l = base.byteAt l) ∧
    (k ≠ .red → ∀ e ∈ r.1, ∀ w, w < n / 4 → o.d + w ≠ 0 → (t.vreg u e.1 (o.d + w)).val = (wordsOfNat (n / 4) e.2).getD w 0)

/-- R206: GETC gives the register as it stands, with tag NONE. R37 to R44, R49, R50, R206: SETC writes (old and not mask) or (source and mask)
into the bits that the register's map lets it write; a field given a code that its map does not define keeps its value. WORLD is written
on the security core alone. -/
def Obligations.ControlRegisters : Prop :=
  (∀ o : GetcOp, ∀ s u m, Ready (.getc o) s u m →
    UniResult (.getc o) s u m o.d 2 [(s.creg u o.n).setWidth 32, ((s.creg u o.n) >>> 32).setWidth 32] 0) ∧
  (∀ o : SetcOp, ∀ s u m, Ready (.setc o) s u m → acting (.setc o) s u m ≠ [] → (s.strand u).clean →
    let st := s.strand u
    let mask : BitVec 64 := if o.m then (st.readS o.c 2).d else BitVec.allOnes 64
    let old := s.creg u o.n
    let merged := (old &&& ~~~mask) ||| ((st.readS o.b 2).d &&& mask)
    let writable (k : Nat) : Bool :=
      match o.n with
      | 0x00 => decide (k < 15)
      | 0x01 => decide (k < 8)
      | 0x02 => decide (8 ≤ k ∧ k < 17)
      | 0x03 => decide (k < 4 ∨ (16 ≤ k ∧ k < 32))
      | 0x05 => true
      | 0x06 => true
      | 0x07 => decide (2 ≤ k ∧ k < 56)
      | 0x40 => decide (k < 4)
      | 0x41 => decide (12 ≤ k ∧ k < 56)
      | 0x43 => decide (6 ≤ k ∧ k < 56)
      | 0x44 => decide (k < 48)
      | _ => false
    let undefined (k : Nat) : Bool :=
      (o.n == 0 && decide (k < 3) && [0, 7].contains (merged.toNat % 8)) ||
        (o.n == 1 && decide (1 ≤ k ∧ k < 4) && [0, 6, 7].contains (merged.toNat / 2 % 8))
    let written (t : State) : Prop :=
      o.n ≠ 0x0B → ∀ k, k < 64 → (t.creg u o.n).getLsbD k = if writable k && !undefined k then merged.getLsbD k else old.getLsbD k
    (o.n < 0x40 → Completes (.setc o) s u m { ctl := fun n => n == o.n } written) ∧
    (0x40 ≤ o.n → (o.n = 0x40 → st.onSec = true) → (sfind s.contexts (s.ctxOf st)).isSome →
      Completes (.setc o) s u m {} fun t => written t ∧ ∀ c, c ≠ s.ctxOf st → t.context c = s.context c) ∧
    (o.n = 0x40 → st.onSec = false → Traps (.setc o) s u m false 0x04 2 (st.laneMask (maskBits m)) 0))

/-- R41, R45, R48: SETC to CREW and to QMAP takes effect where the value keeps their rules and traps ILL_FIELD otherwise; SETC to STFQ adds
the records that have arrived to a COUNT that it writes. -/
def Obligations.SetcChecksCrewAndQmap : Prop :=
  (∀ o : SetcOp, ∀ crew : Bool, ∀ s u m, let i : Instr := if crew then .setcCrew o else .setcQmap o
    Ready i s u m → acting i s u m ≠ [] → (s.strand u).clean →
    let st := s.strand u
    let mask : BitVec 64 := if o.m then (st.readS o.c 2).d else BitVec.allOnes 64
    let src := (st.readS o.b 2).d
    let old := s.creg u (if crew then 4 else 0x0A)
    let merged := (old &&& ~~~mask) ||| (src &&& mask)
    let new : BitVec 64 := if crew then merged &&& ~~~(0x200 : BitVec 64) ||| (old &&& 0x200) else (merged.setWidth 32).setWidth 64 ||| (old >>> 32 <<< 32)
    let member (j : Nat) : Nat := new.toNat / 2 ^ (10 + 9 * j) % 2 ^ 9
    let count := new.toNat % 8
    let good : Prop :=
      if crew then
        count = 0 ∨ (2 ≤ count ∧ count ≤ 6 ∧ count = new.toNat / 8 % 4 * (new.toNat / 32 % 2 + 1) ∧ new.toNat / 64 % 8 < count ∧
          member (new.toNat / 64 % 8) = st.core % 8 * 64 + st.part * 16 + st.slot ∧
          (∀ a b, a < b → b < count → member a / 64 ≠ member b / 64) ∧ new.toNat / 2 ^ (10 + 9 * count) = 0)
      else ∀ j, j < 8 → new.toNat / 2 ^ (4 * j) % 16 < 6 ∧
        (new.toNat / 2 ^ (4 * j) % 16 = old.toNat / 2 ^ (4 * j) % 16 ∨ s.queue u j = [])
    (good → Completes i s u m { ctl := fun n => n == if crew then 4 else 0x0A } fun t => t.creg u (if crew then 4 else 0x0A) = new) ∧
    (¬good → Traps i s u m false 0x02 (if o.h.form.isW3 then 32 else 10) (st.laneMask (maskBits m)) 0)) ∧
  ∀ o : SetcOp, ∀ s u m, Ready (.setcStfq o) s u m → acting (.setcStfq o) s u m ≠ [] → (s.strand u).clean →
    let st := s.strand u
    let mask : BitVec 64 := if o.m then (st.readS o.c 2).d else BitVec.allOnes 64
    let old := s.creg u 0x0E
    let merged := (old &&& ~~~mask) ||| ((st.readS o.b 2).d &&& mask)
    let count (x : BitVec 64) : Nat := x.toNat / 16 % 32
    Completes (.setcStfq o) s u m { ctl := fun n => n == 0x0E } fun t =>
      (∀ k, k < 64 → ¬(4 ≤ k ∧ k < 9) → (t.creg u 0x0E).getLsbD k = if k < 10 then merged.getLsbD k else old.getLsbD k) ∧
      count (t.creg u 0x0E) = if 16 < count merged then count old else if count mask = 0 then count merged else min 16 (count merged + st.arrivals)

/-- R192: FENCE completes where the strand's stores are performed and checked, and waits for the stores on their way to a peer. -/
def Obligations.FenceOrdersStores : Prop := ∀ o : FenceOp, ∀ s u m, let i : Instr := .fence o
  Ready i s u m → acting i s u m ≠ [] →
  (((s.strand u).owesNothing ∧ Released (entered i s u m) u) ∨ o.ord = 0 → Completes i s u m {} fun t => t.mem = s.mem) ∧
  (o.ord ≠ 0 → (s.strand u).buf = [] → (s.strand u).redraw = [] → (s.strand u).cq = [] → (s.strand u).unacked ≠ [] →
    WaitsFor (entered i s u m) i s u m .stores)

/-- R194 to R196: BARI gives the object EXP and clears the rest; a number out of range traps. -/
def Obligations.BariInitializes : Prop := ∀ o : BariOp, ∀ (s base : State) (u : Nat) (m : BitVec 32) (l leaf : Nat), let i : Instr := .bari o
  let n := ((s.strand u).readS o.a 1).w.toNat
  let ea := targetOf s u m o.b o.disp
  Ready i s u m → Reaches i s u m .atomic 16 o.b o.disp base l leaf →
  (1 ≤ n → n < 65536 → Writable base u [0] 16 (fun _ => l) (fun _ => leaf) →
    CompletesFrom base i s u m { mem := fun x => decide (l ≤ x ∧ x < l + 16) } fun t => t.readNat l 16 = n * 2 ^ 16) ∧
  (n = 0 ∨ 65536 ≤ n → TrapsFrom base i s u m false 0x35 1 ((s.strand u).laneMask (maskBits m)) ea.va)

/-- R194 to R197: BARV adds its count and its bytes to the object and gives the phase it found; the last arrival of a phase turns
it over. Bad objects and counts, and an arrival beyond EXP, trap. -/
def Obligations.BarvArrives : Prop := ∀ o : BarvOp, ∀ (s base : State) (u : Nat) (m : BitVec 32) (l leaf : Nat), let i : Instr := .barv o
  let st := s.strand u
  let x := base.readNat l 16
  let reg := (st.readS o.a 1).w.toNat
  let count := if o.a = 0 then max o.icount 1 else reg
  let tx := if o.tx then (st.readS o.c 1).w.toNat else 0
  let arr := x % 2 ^ 16
  let exp := x / 2 ^ 16 % 2 ^ 16
  let bad := x / 2 ^ 37 % 8 ≠ 0 ∨ x / 2 ^ 96 % 2 ^ 32 ≠ 0 ∨ exp = 0
  let range := o.a ≠ 0 ∧ (reg = 0 ∨ 65536 ≤ reg)
  let stop (base : State) (cause sub : Nat) : Prop := TrapsFrom base i s u m false cause sub (st.laneMask (maskBits m)) (targetOf s u m o.b o.disp).va
  Ready i s u m → Reaches i s u m .atomic 16 o.b o.disp base l leaf → Writable base u [0] 16 (fun _ => l) (fun _ => leaf) →
  (bad → stop base 0x35 0) ∧ (¬bad → range → stop base 0x35 1) ∧
  (¬bad → ¬range → 2 ^ 32 ≤ x / 2 ^ 64 % 2 ^ 32 + tx → stop base 0x35 3) ∧
  (¬bad → ¬range → x / 2 ^ 64 % 2 ^ 32 + tx < 2 ^ 32 →
    (exp < arr + count → ∃ b, b.readNat l 16 = x + (1 - x / 2 ^ 36 % 2) * 2 ^ 36 ∧ (∀ a, ¬(l ≤ a ∧ a < l + 16) → b.byteAt a = base.byteAt a) ∧ stop b 0x34 0) ∧
    (arr + count ≤ exp →
      CompletesFrom base i s u m { mem := fun a => decide (l ≤ a ∧ a < l + 16), s := fun c => c == o.d } fun t =>
        let y := t.readNat l 16
        let turn : Prop := arr + count = exp ∧ x / 2 ^ 48 % 2 ^ 16 = 0 ∧ x / 2 ^ 64 % 2 ^ 32 + tx = 0
        (o.d ≠ 0 → t.sreg u o.d = { val := BitVec.ofNat 32 (x / 2 ^ 32 % 16), tag := 0 }) ∧
        y / 2 ^ 16 % 2 ^ 16 = exp ∧ y / 2 ^ 36 % 2 ^ 28 = x / 2 ^ 36 % 2 ^ 28 ∧ y / 2 ^ 64 = x / 2 ^ 64 % 2 ^ 32 + tx ∧
        (turn → y % 2 ^ 16 = 0 ∧ y / 2 ^ 32 % 16 = (x / 2 ^ 32 % 16 + 1) % 16) ∧
        (¬turn → y % 2 ^ 16 = arr + count ∧ y / 2 ^ 32 % 16 = x / 2 ^ 32 % 16)))

/-- R196: BARW writes true at once where the phase has gone by, false where its bound is 0, and waits otherwise, counted in WAIT. -/
def Obligations.BarwTestsThePhase : Prop := ∀ o : BarwOp, ∀ (s base : State) (u : Nat) (m : BitVec 32) (l leaf : Nat), let i : Instr := .barw o
  let st := s.strand u
  let x := base.readNat l 16
  let bad := x / 2 ^ 37 % 8 ≠ 0 ∨ x / 2 ^ 96 % 2 ^ 32 ≠ 0 ∨ x / 2 ^ 16 % 2 ^ 16 = 0
  let same := x / 2 ^ 32 % 16 = (st.readS o.a 1).w.toNat % 16
  let bound := (st.readS o.c 1).w.toNat
  Ready i s u m → Reaches i s u m .load 16 o.b o.disp base l leaf →
  (bad → TrapsFrom base i s u m false 0x35 0 (st.laneMask (maskBits m)) (targetOf s u m o.b o.disp).va) ∧
  (¬bad → (¬same → CompletesFrom base i s u m { k := fun c => c == o.d } fun t => o.d < 7 → t.kpred u o.d = true) ∧
    (same → bound = 0 → CompletesFrom base i s u m { k := fun c => c == o.d } fun t => o.d < 7 → t.kpred u o.d = false) ∧
    (same → bound ≠ 0 → Writable base u [0] 16 (fun _ => l) (fun _ => leaf) →
      ∃ t, exec i s = .next t ∧ t.readNat l 16 = x + (if x / 2 ^ 40 % 256 = 255 then 0 else 2 ^ 40) ∧
        (∀ a, ¬(l ≤ a ∧ a < l + 16) → t.byteAt a = base.byteAt a) ∧
        ∀ j, j < st.threads.length → t.pcOf u j = s.pcOf u j ∧ (m.getLsbD j → ∃ since,
          ((t.strand u).thread j).wait = .barw l (x / 2 ^ 32 % 16) since bound o.d (nextPc i s u m))))

/-- R202: TOKW passes the holder of the bobbin and holds the others back; TOKP passes it on. Outside deterministic launches, and TOKP in
a strand that does not hold it, they trap. -/
def Obligations.TokensOrderStrands : Prop := ∀ o : NoOp, ∀ pass : Bool, ∀ s u m, let i : Instr := if pass then .tokp o else .tokw o
  let st := s.strand u
  let l := s.launch st.launch
  Ready i s u m → acting i s u m ≠ [] → st.owesNothing →
  (isDet l = false → Traps i s u m false 0x36 0 (st.laneMask (maskBits m)) 0) ∧
  (isDet l = true → holdsBobbin s st = true →
    (pass = false → Completes i s u m {} fun _ => True) ∧
    (pass = true → Completes i s u m { launches := true } fun t => ∀ k, t.launch k = (passBobbin (entered i s u m) st.launch).launch k)) ∧
  (isDet l = true → holdsBobbin s st = false →
    (pass = false → WaitsFor (entered i s u m) i s u m .bobbin) ∧
    (pass = true → Traps i s u m false 0x36 1 (st.laneMask (maskBits m)) 0))

/-- R201: CSEAL gives the open batch its number; CWAIT waits for the copies of the batches it covers and reports one that has stopped. -/
def Obligations.BatchesAreSealedAndAwaited : Prop := ∀ o : SealOp, ∀ s u m,
  (Ready (.cseal o) s u m → acting (.cseal o) s u m ≠ [] →
    let number := BitVec.ofNat 32 ((s.strand u).sealed % (2 ^ 32 - 1) + 1)
    Completes (.cseal o) s u m { s := fun c => c == o.r, ctl := fun n => n == 0x0C } fun t =>
      (o.r ≠ 0 → t.sreg u o.r = { val := number, tag := 0 }) ∧ t.creg u 0x0C = number.setWidth 64) ∧
  (Ready (.cwait o) s u m → acting (.cwait o) s u m ≠ [] → (s.strand u).clean →
    let st := s.strand u
    let covered (b : Nat) : Bool := decide (b ≤ coveredBatch st.sealed (st.readS o.r 1).w.toNat)
    let running := (s.core st.core).copies.any fun c => c.strand == u && covered c.batch
    (running = true → WaitsFor (entered (.cwait o) s u m) (.cwait o) s u m .batch) ∧
    (running = false → (∀ f ∈ st.cpFaults, covered f.batch = false) → Completes (.cwait o) s u m {} fun _ => True))

/-- R194, R197 to R199, R201: CPY joins its copy to the engine and to the open batch, which is sealed first where it holds 64 copies, and counts it in the barrier object's
PEND where it names one; a full PEND traps. -/
def Obligations.CopiesJoinTheEngine : Prop := ∀ (o : CpyOp) (mode : Nat) (s base : State) (u : Nat) (m : BitVec 32) (l leaf : Nat),
  mode < 3 → let i : Instr := match mode with | 0 => .cpyMemory o | 1 => .cpyFromPort o | _ => .cpyToPort o
  let st := s.strand u
  let dst := (st.readS o.d 2).val
  let src := (st.readS o.a 2).val
  let len := (st.readS o.b 1).w.toNat
  let full := st.ctl.batch.toNat / 2 ^ 32 % 128 = 64
  let joined (base t : State) (bar : Nat) : Prop :=
    (∃ c : Copy, (t.core st.core).copies = (base.core st.core).copies ++ [c] ∧ c.strand = u ∧ c.mode = mode ∧ c.dst = dst ∧ c.src = src ∧ c.len = len ∧ c.done = 0 ∧
      c.bar = bar ∧ c.scope = o.scope ∧ c.stream = o.stream ∧ c.batch = st.sealed + (if full then 2 else 1)) ∧
    (t.creg u 0x0C).toNat / 2 ^ 32 % 128 = if full then 1 else (st.ctl.batch.toNat / 2 ^ 32 % 128 + 1) % 128
  Ready i s u m → acting i s u m ≠ [] → st.clean → (mode ≠ 2 → dst < 2 ^ 56) → (mode ≠ 1 → src < 2 ^ 56) → (s.core st.core).copies.length < 64 → len ≠ 0 →
  (o.c = 0 → Completes i s u m { ctl := fun n => n == 0x0C } fun t => joined s t 0) ∧
  (o.c ≠ 0 → Reaches i s u m .atomic 16 o.c 0 base l leaf → Writable base u [0] 16 (fun _ => l) (fun _ => leaf) →
    let x := base.readNat l 16
    (x / 2 ^ 48 % 2 ^ 16 < 65535 →
      CompletesFrom base i s u m { ctl := fun n => n == 0x0C, mem := fun a => decide (l ≤ a ∧ a < l + 16) } fun t =>
        joined base t (targetOf s u m o.c 0).va ∧ t.readNat l 16 = x + 2 ^ 48) ∧
    (x / 2 ^ 48 % 2 ^ 16 = 65535 → TrapsFrom base i s u m false 0x35 2 (st.laneMask (maskBits m)) (targetOf s u m o.c 0).va))

/-- R204: MAIL stores its 16 registers in the free slot of a bound mailbox, in one piece, and the slot is busy with them; a page that is not of mailboxes,
or a slot that none is bound to, is refused. -/
def Obligations.MailFillsAFreeSlot : Prop := ∀ (o : MailOp) (s base : State) (u : Nat) (m : BitVec 32) (l leaf : Nat), let i : Instr := .mail o
  let st := s.strand u
  let ctx := s.ctxOf st
  Ready i s u m → Reaches i s u m .atomic 64 o.b 0 base l leaf →
  let box := if leaf / 2 ^ 5 % 4 = 1 then mailboxAt base ctx l else none
  (box = none → TrapsFrom base i s u m false 0x21 5 (st.laneMask (maskBits m)) (targetOf s u m o.b 0).va) ∧
  ∀ n, box = some n → heldLines base [(l, List.replicate 64 0, 0)] = [] → base.raw = [] → (∀ x ∈ unitsOf l 64, base.poison.contains x = false) →
    (sfind base.contexts ctx).isSome → ((base.context ctx).writers.all fun w => w.1 != n) → isBusy base ctx n = false →
    let bytes := (List.range 16).flatMap fun k => toBytes 4 ((st.readS (o.a + k) 1).w.toNat)
    CompletesFrom base i s u m { mem := fun a => decide (32 * (l / 32) ≤ a ∧ a < 32 * ((l + 64 + 31) / 32)) } fun t =>
      t.read l 64 = bytes ∧ (t.context ctx).busy = (base.context ctx).busy ++ [(n, bytes)]

/-- R205: EMIT gives the dispatcher of the strand's die a record for each acting thread, in lane order, with the 14 words; it waits while
the dispatcher has no room for them. -/
def Obligations.EmitSendsRecords : Prop := ∀ (o : EmitOp) (s : State) (u : Nat) (m : BitVec 32), let i : Instr := .emit o
  let st := s.strand u
  let entry := (st.readS o.b 2).val
  let room (s : State) : Nat := ((s.dies.getD (st.core / 32) {}).intake).length
  Ready i s u m → acting i s u m ≠ [] → st.clean → entry < 2 ^ 56 → entry % 4 = 0 → st.core / 32 < s.dies.length →
  (256 < room s + (acting i s u m).length → WaitsFor (entered i s u m) i s u m .dispatcher) ∧
  (room s + (acting i s u m).length ≤ 256 → Completes i s u m {} fun t => ∃ rs : List EmitRec,
    (t.dies.getD (st.core / 32) {}).intake = (s.dies.getD (st.core / 32) {}).intake ++ rs ∧ rs.length = (acting i s u m).length ∧
    ∀ k, k < rs.length →
      let r := rs.getD k default
      let j := (acting i s u m).getD k 0
      r.launch = st.launch ∧ r.sid = st.sid ∧ r.call = st.emits ∧ r.lane = (st.thread j).lane ∧ r.entry = entry ∧
        r.words.map (·.1) = (List.range 14).map fun c => ((st.thread j).readV (o.a + c) 1).w)

/-- R238, R305: LAUNCH hands the record to the dispatcher, which numbers it among the context's child launches; D takes the number. A launch that the dispatcher
finds nothing against enters the queues; LAUNCH waits while they are full. -/
def Obligations.LaunchHandsOver : Prop := ∀ (o : LaunchOp) (s base : State) (u : Nat) (m : BitVec 32) (l leaf : Nat), let i : Instr := .launch o
  let st := s.strand u
  let ctx := s.ctxOf st
  Ready i s u m → Reaches i s u m .load 64 o.b 0 base l leaf → base.raw = [] → base.cleanAt l 64 → st.owesNothing →
  let found := base.read l 64
  let record := if o.h.form.isLit then toBytes 8 o.lit.toNat ++ found.drop 8 else found
  let given := (base.context ctx).numB + 1
  let taken : Launch := { num := launchNumber true given, ctx := ctx, msg := parseMsg record, parent := some st.launch, order := (st.sid, st.launches) }
  let listed := { (dropPeerBytes base u 0).modContext ctx fun c => { c with numB := c.numB + 1 } with uid := base.uid + 1, launches := sset base.launches base.uid taken }
  (canAccept base taken.msg = false → WaitsFor base i s u m .dispatcher) ∧
  (canAccept base taken.msg = true → (sfind base.contexts ctx).isSome → badField taken.msg = none → vet listed taken = none →
    CompletesFrom base i s u m { s := fun c => c == o.d, ctl := fun n => n == 0x11 && base.uid == st.launch, launches := true } fun t =>
      (o.d ≠ 0 → t.sreg u o.d = { val := BitVec.ofNat 32 taken.num, tag := 0 }) ∧ (t.context ctx).numB = given ∧
      (t.launch base.uid).msg = taken.msg ∧ (t.launch base.uid).num = taken.num ∧ (t.launch base.uid).ctx = ctx ∧ (t.launch base.uid).parent = some st.launch ∧
      ∀ k, k ≠ base.uid → t.launch k = base.launch k)

/-- R292: REPLAY ends the waits under its page on every core; replay.tok ends the one that its token names, a stale token none, and a
value beyond 32 bits traps. -/
def Obligations.ReplayEndsWaits : Prop := ∀ o : SysOp, ∀ s u m,
  let a := ((s.strand u).readS o.a 2).val
  let ctx := s.ctxOf (s.strand u)
  let ends (i : Instr) (gone : Nat → WaitEnt → Bool) : Prop := ∃ t, exec i s = .next t ∧ Advances s t u m (nextPc i s u m) ∧
    t.mem = s.mem ∧ t.tags = s.tags ∧ t.contexts = s.contexts ∧ t.launches = s.launches ∧
    (∀ x c, t.sreg x c = s.sreg x c ∧ t.kpred x c = s.kpred x c) ∧ (∀ x j c, t.vreg x j c = s.vreg x j c ∧ t.pred x j c = s.pred x j c) ∧
    (∀ c, (t.core c).waits = (s.core c).waits.filter fun e => !gone c e)
  (Ready (.sysReplay o) s u m → acting (.sysReplay o) s u m ≠ [] → (s.strand u).clean → ends (.sysReplay o) fun _ e => e.ctx == ctx && e.page == a / 4096) ∧
  (Ready (.sysReplayTok o) s u m → acting (.sysReplayTok o) s u m ≠ [] → (s.strand u).clean →
    (2 ^ 32 ≤ a → Traps (.sysReplayTok o) s u m false 0x02 18 ((s.strand u).laneMask (maskBits m)) 0) ∧
    (a < 2 ^ 32 → ∀ core e, tokenEntry s ctx a = some (core, e) → ends (.sysReplayTok o) fun c x => c == core && x.ctx == e.ctx && x.page == e.page) ∧
    (a < 2 ^ 32 → tokenEntry s ctx a = none → ends (.sysReplayTok o) fun _ _ => false))

/-- R287, R288: TLBINV removes from every core the translations of its page in the context, of the context, or all of them, and every last-page
register. -/
def Obligations.TlbinvRemovesTranslations : Prop := ∀ o : SysOp, ∀ s u m, Ready (.sysTlbinv o) s u m → acting (.sysTlbinv o) s u m ≠ [] → (s.strand u).clean →
  let ctx := s.ctxOf (s.strand u)
  let page := ((s.strand u).readS o.a 2).val / 4096
  let gone (e : TlbEntry) : Bool :=
    match o.x % 4 with
    | 0 => e.ctx == ctx && page / 2 ^ (e.shift - 12) == e.page
    | 1 => e.ctx == ctx
    | _ => true
  Completes (.sysTlbinv o) s u m {} fun t => ∀ c, (t.core c).tlb = ((s.core c).tlb.filter fun e => !gone e) ∧ (t.core c).last = []

/-- R356, R357: DIAGST makes a unit of storage, or a register word, hold exactly its data, tag and check bits; DIAGLD gives data and check bits as they stand. -/
def Obligations.DiagnosticsReachStorage : Prop := ∀ o : SysOp, ∀ s u m,
  let st := s.strand u
  let a := st.readS o.a 2
  let x : Ea := { thread := st.lowest m, lane := 0, va := a.val, base := a.tag, idx := 0 }
  let finds (base : State) (l : Nat) : Prop :=
    (o.x % 4 = 0 ∧ base = s ∧ localWindow ≤ a.val ∧ a.val < 2 ^ 56 ∧ a.val % 8 = 0 ∧ ∃ leaf, windowAt s (st.who s none) .store a.val 8 = .ok (.loc l) leaf) ∨
    (o.x % 4 = 1 ∧ l < 2 ^ 41 ∧ badAddr [x] 32 = none ∧ ∃ leaf, fates s u true .store 32 [x] = ([(x, .hit (.loc l) leaf)], base))
  let reg := a.val % 256
  let thread := st.threadIn (a.val / 256)
  (Ready (.sysDiagst o) s u m → acting (.sysDiagst o) s u m ≠ [] → st.clean →
    (∀ base l, finds base l → CompletesFrom base (.sysDiagst o) s u m { mem := fun k => decide (32 * (l / 32) ≤ k ∧ k < 32 * ((l + 39) / 32)) } fun t =>
      t.readNat l 8 = (st.readS o.b 2).val ∧ sfind t.raw l = some (st.readS o.c 1).w.toNat ∧ ∀ k, ¬(l ≤ k ∧ k < l + 8) → t.byteAt k = base.byteAt k) ∧
    (2 ≤ o.x % 4 → a.val < 2 ^ 13 → 0 < reg → reg < st.regs → ∀ j, thread = some j → j < 32 →
      Completes (.sysDiagst o) s u m { v := fun i c => i == j && c == reg } fun t =>
        t.vreg u j reg = { val := (st.readS o.b 2).w, tag := (st.readS o.c 1).w.setWidth 16, chk := .raw ((st.readS o.c 1).w.toNat / 2 ^ 16 % 128) })) ∧
  (Ready (.sysDiagld o) s u m → acting (.sysDiagld o) s u m ≠ [] → st.clean →
    (∀ base l, finds base l → CompletesFrom base (.sysDiagld o) s u m { s := fun c => decide (o.d ≤ c ∧ c < o.d + 4) } fun t =>
      ∀ k, k < 4 → o.d + k ≠ 0 → t.sreg u (o.d + k) = { val := BitVec.ofNat 32 ((base.readNat l 8 + 2 ^ 64 * rawBits base l) / 2 ^ (32 * k)), tag := 0 }) ∧
    (2 ≤ o.x % 4 → a.val < 2 ^ 13 → 0 < reg → reg < st.regs → ∀ j, thread = some j → j < 32 →
      Completes (.sysDiagld o) s u m { s := fun c => decide (o.d ≤ c ∧ c < o.d + 4) } fun t => ∀ k, k < 4 → o.d + k ≠ 0 →
        t.sreg u (o.d + k) = { val := BitVec.ofNat 32 (((s.vreg u j reg).val.toNat + 2 ^ 64 * rawWord (s.vreg u j reg)) / 2 ^ (32 * k)), tag := 0 }))

/-- R368, R369, R207: SCRUB sets a scrub of the core's class of units going; WORLD, on the security core alone, gives a context without launches its
world; HALT ends the strand, and a core with no resident strand sleeps. -/
def Obligations.ScrubWorldAndHalt : Prop := ∀ o : SysOp, ∀ s u m,
  let st := s.strand u
  let x := (st.readS o.a 1).w.toNat
  let ctx := x / 2 ^ 16
  let i : Instr := .sysWorld o
  (Ready (.sysScrub o) s u m → acting (.sysScrub o) s u m ≠ [] → st.clean → Completes (.sysScrub o) s u m {} fun t =>
    (t.core st.core).scrub = (s.core st.core).scrub ++ [(o.x % 16, scrubSelector (o.x % 16) x)]) ∧
  (Ready i s u m → acting i s u m ≠ [] → st.clean →
    (st.onSec = false → Traps i s u m false 0x04 2 (st.laneMask (maskBits m)) 0) ∧
    (st.onSec = true → x / 16 % 2 ^ 12 ≠ 0 → Traps i s u m false 0x02 18 (st.laneMask (maskBits m)) 0) ∧
    (st.onSec = true → x / 16 % 2 ^ 12 = 0 → (∃ l ∈ s.launches, l.2.ctx = ctx ∧ l.2.phase ≠ .done) → WaitsFor s i s u m (.quiet ctx)) ∧
    (st.onSec = true → x / 16 % 2 ^ 12 = 0 → (∀ l ∈ s.launches, l.2.ctx = ctx → l.2.phase = .done) → (sfind s.contexts ctx).isSome →
      Completes i s u m {} fun t => (t.context ctx).world = x % 16 ∧ (t.context ctx).mbxHeld = false ∧ (∀ c, c ≠ ctx → t.context c = s.context c) ∧
        ∀ c, ∀ e ∈ (t.core c).tlb, e.ctx ≠ ctx)) ∧
  (Ready (.sysHalt o) s u m → acting (.sysHalt o) s u m ≠ [] →
    (st.trap ≠ none → Dies (.sysHalt o) s u m 0x61) ∧
    (st.trap = none → (∀ j, (st.thread j).live = true → (st.thread j).outs = []) → st.owesNothing → enginesOwed s u = false → st.cpFaults = [] → st.mtFaults = [] →
      st.wsFaults = [] →
      ∃ t, exec (.sysHalt o) s = .next t ∧ (t.strand u).phase = .ended ∧ (∀ j, ((t.strand u).thread j).live = false) ∧
        Only (Touch.of { flow := true, launches := true, ctl := fun n => n == 2 || n == 3 || n == 0x11 } (.sysHalt o)) s t u ∧
        ((∀ y ∈ s.strands, y.2.core = st.core → y.2.phase = .resident → y.1 = u) → (t.core st.core).asleep = true)))

/-- R69, R174: an instruction that the register checks refuse traps precisely: of its threads nothing has changed; the frame holds the cause, the
sub-cause, all lanes of the fragment and, as RESTART, the start of its region. SYS and a system register outside system mode are PRIV,
sub-causes 0 and 1; of the registers named, in the order D, A, B, C, the first that fails gives ILL_REG: 0 an odd pair, 1 an unaligned
quad, 2 past the launch's registers, 3 a queue not allowed, 4 a uniform code from 64 on, 5 a queue against its port. -/
def Obligations.RegisterChecksTrap : Prop :=
  (∀ (i : Instr) (s : State) (u : Nat) (m : BitVec 32) (cause sub : Nat),
    toRaw i = some (i.op, i.fields) → issuing s = some (u, m) → checkFault (s.strand u) i.op i.fields i.uses = some (cause, sub) →
    (s.strand u).trap = none → (s.strand u).ctl.tvec ≠ 0 → SlotOpen s u 0x400 256 →
    ∃ t bytes k, exec i s = .next t ∧
      (bytes.length = 256 ∧ field bytes 0 1 = cause ∧ field bytes 2 2 = sub ∧ field bytes 4 4 = ((s.strand u).laneMask (maskBits m)).toNat ∧
        field bytes 8 8 = byteOf (herePc i s u m) ∧ field bytes 32 8 = byteOf ((s.strand u).startOf ((s.strand u).lowest m))) ∧
      Only { s := fun c => c == 62 || c == 63, ctl := fun c => c == 8 } (slotWrite s u 0x400 bytes) t u ∧
      (t.strand u).trap = some k ∧ k.frag = m ∧ k.cause = cause ∧ k.restart = BitVec.ofNat 64 (byteOf ((s.strand u).startOf ((s.strand u).lowest m)))) ∧
  (∀ (st : Strand) (i : Instr), i.op = 0x7D → st.sys = false → checkFault st i.op i.fields i.uses = some (0x04, 0)) ∧
  (∀ (st : Strand) (i : Instr), (i.op = 0x7B ∨ i.op = 0x7C) → st.sys = false → 0x40 ≤ i.fields.a → i.fields.a ≤ 0x4F → checkFault st i.op i.fields i.uses = some (0x04, 1)) ∧
  (∀ st : Strand, ∀ i : Instr, (st.sys = true ∨ (i.op ≠ 0x7D ∧ i.op ≠ 0x7B ∧ i.op ≠ 0x7C)) → ∀ pre us f n, i.uses = pre ++ us :: f →
    (∀ x ∈ pre, useFault st.regs st.ctl.qmap x = none) → useFault st.regs st.ctl.qmap us = some n → checkFault st i.op i.fields i.uses = some (0x03, n)) ∧
  ∀ (regs : Nat) (q : BitVec 64) (x : Use),
    (x.sp = .s → 64 ≤ x.code → useFault regs q x = some 4) ∧
    (x.sp = .v → 248 ≤ x.code → x.q = false ∨ x.n ≠ 1 → useFault regs q x = some 3) ∧
    (x.sp = .v → 248 ≤ x.code → x.q = true → x.n = 1 →
      ((x.rd = true ∧ cfld q (4 * (x.code - 248)) 4 ∉ [1, 3, 5]) ∨ (x.wr = true ∧ cfld q (4 * (x.code - 248)) 4 ∉ [2, 4])) → useFault regs q x = some 5) ∧
    ((x.sp = .v ∧ x.code < 248) ∨ (x.sp = .s ∧ x.code < 64) →
      (x.al = 2 → x.code % 2 = 1 → useFault regs q x = some 0) ∧ (x.al = 4 → x.code % 4 ≠ 0 → useFault regs q x = some 1) ∧
      (x.al ≠ 2 ∨ x.code % 2 = 0 → x.al ≠ 4 ∨ x.code % 4 = 0 → useFault regs q x = if x.sp = .v ∧ regs < x.code + x.n then some 2 else none))

/-- R53, R55, R57, R69: where nothing stands on the agenda and a fragment is at issue, the step is the instruction that its words decode to, executed
by `exec`, and after it the run goes on (`afterFrag`) and strands that are over leave (`tidy`); words that decode to nothing trap. An
agenda's first event is the step. A word of code is the four bytes at the location that its address translates to. -/
def Obligations.StepRunsTheDecodedInstruction : Prop :=
  (∀ s u m w base i, s.agenda = [] → issuing s = some (u, m) → fetchFor s u m = (some w, base) → decode (base.strand u).sys w = .ok i →
    step s = thenDo (exec i (issuesNow base u m w)) fun t => (afterFrag t).tidy) ∧
  (∀ s u m w base r, s.agenda = [] → issuing s = some (u, m) → fetchFor s u m = (some w, base) → decode (base.strand u).sys w = .error r →
    step s = .next (afterFrag (rejectTrap (issuesNow base u m w) u m w r)).tidy) ∧
  (∀ s e es, s.agenda = e :: es → step s = thenDo (exec e { s with agenda := es }) State.tidy) ∧
  (∀ s u va l leaf base, va < 2 ^ 56 → fateOf s ((s.strand u).who s none) .fetch va 4 = (.hit (.loc l) leaf, base) → base.raw = [] →
    fetchWord s u va = (.words (base.readNat l 4), base)) ∧
  (∀ s u m w base, fetchFor s u m = (some w, base) → ∃ e, fetchAt s u ((s.strand u).thread ((s.strand u).lowest m)).pc = (.words w, e)) ∧
  ∀ s u pc w0 w1 base e, fetchWord s u (byteOf pc) = (.words w0, base) → fetchRest base u (byteOf pc) (wordsOf w0 - 1) 1 = (.words w1, e) →
    fetchAt s u pc = (.words (w0 + w1 * 2 ^ 32), e)

/-- Words that the spec spells out (R58, R65, R125, R128, R152, R156, R161, R170, R171, R179, R193, R195, R206, R207, R216, R224, R228, R229) decode to the instructions they stand for. -/
def Obligations.SpecWordsDecode : Prop :=
  let one : Hdr := { form := .w1, bnd := false, pn := false, pg := 7 }
  let three : Hdr := { one with form := .w3 }
  decode false 0x02020C08 = .ok (.iadd { h := one, z := false, sat := false, rm := 0, tr := 0, la := 0, d := 3, a := 1, b := .v 2, c := 0 }) ∧
  decode false 0x8C02C4C0 = .ok (.icmp { h := one, cond := 6, dbl := false, d := 1, a := 1, b := .s 12 }) ∧
  decode false 0x040A0F08 = .ok (.st { h := one, cv := false, la := 0, pd := false, d := 3, a := 5, b := 8, disp := 0, rmt := false, sx := false, scope := 0, ord := 0, sync := false, sc := 0, size := 2 }) ∧
  decode false (0x00040B01 + 2 ^ 32 * 0x80270004 + 2 ^ 64 * 0x12) = .ok (.ld { h := three, cv := false, la := 2, pd := false, d := 2, a := 1, b := 4, disp := 0, rmt := false, sx := false, scope := 0, ord := 0, sync := false, sc := 2, size := 2 }) ∧
  decode false 0xC3032A68 = .ok (.vtos { h := one, cv := true, rm := 0, tr := 0, ty := 2, mode := 6, kf := 0, d := 10, a := 3 }) ∧
  decode false 0x14080F38 = .ok (.barv { h := one, cv := false, scope := 1, tx := false, d := 3, a := 2, b := 8, c := 0, disp := 0, icount := 0 }) ∧
  decode false 0x40131F98 = .ok (.accz { h := one, cv := false, side := true, t := 1, mb := 3, nb := 7 }) ∧
  decode false 0x0003C6E8 = .ok (.chkerr { h := one, cv := false, clr := false, t := true, k := 7, mask := 1 }) ∧
  decode false 0x001442D0 = .ok (.guardOpen { h := one, p := true, off := 40 }) ∧
  decode false (0x00400781 + 2 ^ 32 * 0x00070018 + 2 ^ 64 * 0x3C73) = .ok (.mma { h := three, cv := false, d := 1, t2 := 0, a := 16, b := 24, c := 0, crew := false, syn := 0, kb := 15, nb := 7, mb := 3 }) ∧
  decode false 0x000153E0 = .ok (.setc { h := one, cv := false, n := 1, m := false, b := 20, c := 0 }) ∧
  decode true (0x041003E9 + 2 ^ 32 * 0x00070000 + 2 ^ 64 * 4) = .ok (.sysTlbinv { h := three, d := 0, a := 4, b := 0, c := 0, x := 4 }) ∧
  decode false (0x0FC1 + 2 ^ 32 * 0x00070C0A + 2 ^ 64 * 0x20) = .ok (.wsl { h := three, cv := false, key := 2, dst := 0, d := 3, b := 10, c := 12 }) ∧
  decode false 0xFFFD8A90 = .ok (.bra { h := { one with pg := 2 }, cv := false, k := false, off := 0xFFFFFFFB#32 })

/-- Decoding inverts encoding: every well-formed instruction that has an encoding is read back from its words, whatever bits follow them. -/
def Obligations.DecodingInvertsEncoding : Prop := ∀ (i : Instr) (f : Form) (rest : Nat), i.WF → i.form? = some f →
  decode true (encode i + 2 ^ (32 * f.words) * rest) = .ok i

/-- R60, R69: words that decode give a well-formed instruction, and the words are its encoding: no bit of them is dropped. The opcodes 0x7E
and 0x7F, SYS outside system mode, and a form that its opcode lacks are refused, in this order, whatever the other bits hold. -/
def Obligations.DecodedWordsAreTheEncoding : Prop := ∀ sys w,
  (∀ i, decode sys w = .ok i → i.WF ∧ encode i = w % 2 ^ (32 * (formOf (w % 4)).words)) ∧
  let op := w / 8 % 128
  (0x7E ≤ op → decode sys w = .error (.illOpcode 0)) ∧
  (op = 0x7D → sys = false → decode sys w = .error (.priv 0)) ∧
  (op < 0x7E → op ≠ 0x7D ∨ sys = true → formOk op (formOf (w % 4)) = false → decode sys w = .error (.illOpcode 2))

/-- A memory in canonical form is determined by its bytes; a write changes the bytes it names and no other, keeps the form, and is read back. -/
def Obligations.MemoryIsItsBytes : Prop :=
  (∀ m n : Memory, Memory.wf m = true → Memory.wf n = true → (∀ a, Memory.byte m a = Memory.byte n a) → m = n) ∧
  (∀ (m : Memory) (l : Nat) (bs : List Byte), Memory.wf m = true → Memory.wf (Memory.write m l bs) = true) ∧
  (∀ (m : Memory) (l : Nat) (bs : List Byte), Memory.read (Memory.write m l bs) l bs.length = bs) ∧
  ∀ (m : Memory) (l : Nat) (bs : List Byte) (a : Nat), ¬(l ≤ a ∧ a < l + bs.length) → Memory.byte (Memory.write m l bs) a = Memory.byte m a


/-- Every step keeps memory in its canonical form: equal memories are equal data after any run (R7: the bytes are all there is to memory). -/
def Obligations.EveryStepKeepsMemoryCanonical : Prop := ∀ s t, Memory.wf s.mem = true → step s = .next t → Memory.wf t.mem = true

/-- R214, R216 to R218, R221, R223 to R225, R227, R391: a matrix instruction whose tiles fit the allocation, whose descriptors pass the checks of R210 to R213,
whose stationary units are written and whole, and that owes no report, enters the engine as the strand's newest operation, with
its extents, its tiles and its descriptors as they are now: RPROG of the tiles that it writes is 0 and the ranges it reads stand in the
core's scoreboard; no register, element or byte changes. A tile that runs past the allocation is ILL_FIELD at its field's position. A crew's member waits at
the latch, and completes without more when the crew has met. -/
def Obligations.MatrixOperationsEnterTheEngine : Prop := ∀ (i : Instr) (s : State) (u : Nat) (m : BitVec 32),
  Ready i s u m → acting i s u m ≠ [] → (s.strand u).clean → (s.strand u).mtFaults = [] → (s.strand u).poisonDue = false →
  let st := s.strand u
  let ext (b : Nat) : Nat := 8 * (b + 1)
  let past (t rows width : Nat) : Prop := st.accn = 0 ∨ st.accn < t * st.accn / 4 + rows * width
  let desc (g : Nat) : List Word := (upFrom g 8).map fun r => (st.readS r 1).w
  let base (kind : MKind) (t1 mb nb : Nat) : MOp := { newOp i (contextOf i s u m) st kind with t1 := t1, m := ext mb, n := ext nb }
  let good (syn dest : Nat) (args : List DescArg) : Prop := descsFault st syn dest (winOf s st) args = none ∧
    ∀ a ∈ args, ∀ n ∈ unitsTouched (descOf (desc a.g)) a.rows a.cols,
      (sget {} (((sfind s.skeins st.skein).map Skein.units).getD []) n).pending = 0 ∧ (sget {} (((sfind s.skeins st.skein).map Skein.units).getD []) n).err = none
  let apart (a b : Nat × Nat) : Prop := ¬(a.1 * st.accn / 4 < b.1 * st.accn / 4 + b.2 ∧ b.1 * st.accn / 4 < a.1 * st.accn / 4 + a.2)
  let enters (p : MOp) : Prop := st.mops.length < 4 → Completes i s u m {} fun t => ∃ id lim,
    (t.strand u).mops = st.mops ++ [{ p with id := id, limit := lim }] ∧ (t.core st.core).score = (s.core st.core).score ++ p.memRanges.map (fun r => (id, s.ctxOf st, r.1, r.2)) ∧
    ∀ k, k < st.rprog.length → (t.strand u).rprog.getD k 0 = if p.counts k then 0 else st.rprog.getD k 0
  let illTile (pos : Nat) : Prop := Traps i s u m false 0x02 pos (st.laneMask (maskBits m)) 0
  let prod (o : MmaOp) (kind : MKind) (gs : List Nat) (bm : Nat) : MOp :=
    { base kind o.d o.mb o.nb with t2 := o.t2, k := ext o.kb, rows := ext o.mb, cols := ext o.nb, syn := o.syn, descs := gs.map desc, bitmap := bm }
  (∀ o, i = .mma o → st.latch = none →
    (past o.d (ext o.mb) (ext o.nb) → illTile 10) ∧
    (o.crew = false → ¬past o.d (ext o.mb) (ext o.nb) → good o.syn o.d [⟨0, o.a, .prodA, ext o.mb, ext o.kb⟩, ⟨1, o.b, .prod, ext o.kb, ext o.nb⟩] →
      enters (prod o .mma [o.a, o.b] 0))) ∧
  (∀ o, i = .mmas o → st.latch = none →
    (past o.d (ext o.mb) (ext o.nb) → illTile 10) ∧
    (o.crew = false → ¬past o.d (ext o.mb) (ext o.nb) → good o.syn o.d [⟨0, o.a, .prodA, ext o.mb, ext o.kb⟩, ⟨1, o.b, .prod, ext o.kb, ext o.nb⟩] →
      (st.readS o.c 2).val < 2 ^ 56 → enters (prod o .mmas [o.a, o.b] (st.readS o.c 2).val))) ∧
  (∀ o, i = .mmd o → st.latch = none →
    (past o.d (ext o.mb) (ext o.kb) → illTile 10) ∧ (¬past o.d (ext o.mb) (ext o.kb) → past o.t2 (ext o.kb) (ext o.nb) → illTile 26) ∧
    (o.crew = false → ¬past o.d (ext o.mb) (ext o.kb) → ¬past o.t2 (ext o.kb) (ext o.nb) → apart (o.d, ext o.mb * ext o.kb) (o.t2, ext o.kb * ext o.nb) →
      good o.syn o.d [⟨0, o.a, .prod, ext o.mb, ext o.nb⟩, ⟨1, o.b, .prod, ext o.kb, ext o.nb⟩, ⟨2, o.c, .prod, ext o.mb, ext o.kb⟩] →
      enters (prod o .mmd [o.a, o.b, o.c] 0))) ∧
  (∀ o, i = .accz o → (past o.t (ext o.mb) (ext o.nb) → illTile (o.h.form.at 20 10)) ∧
    (¬past o.t (ext o.mb) (ext o.nb) → enters { base .accz o.t o.mb o.nb with side := o.side })) ∧
  (∀ o, i = .accld o → (past o.d (ext o.mb) (ext o.nb) → illTile 10) ∧
    (¬past o.d (ext o.mb) (ext o.nb) → good 0 4 [⟨0, o.a, .load, ext o.mb, ext o.nb⟩] → enters { base .accld o.d o.mb o.nb with descs := [desc o.a] })) ∧
  (∀ o, i = .accst o →
    let p : MOp := { base .accst o.a o.mb o.nb with q := o.q, sat := o.sat, rm := st.rmEff o.rm, f8sat := st.f8sat }
    (past o.a (ext o.mb) (ext o.nb) → illTile 18) ∧ (¬past o.a (ext o.mb) (ext o.nb) → o.q = true → enters p) ∧
    (¬past o.a (ext o.mb) (ext o.nb) → o.q = false → good 0 4 [⟨0, o.d, .store, ext o.mb, ext o.nb⟩] → st.rmEff o.rm ≠ 6 → enters { p with descs := [desc o.d] })) ∧
  (∀ o, i = .smx o → (past o.d (ext o.mb) (ext o.db) → illTile 10) ∧ (¬past o.d (ext o.mb) (ext o.db) → past o.a (ext o.mb) (ext o.nb) → illTile 18) ∧
    (¬past o.d (ext o.mb) (ext o.db) → ¬past o.a (ext o.mb) (ext o.nb) → apart (o.d, ext o.mb * ext o.db) (o.a, ext o.mb * ext o.nb) →
      enters { base .smx o.d o.mb o.nb with t2 := o.a, k := ext o.db })) ∧
  ((∃ o, i = .mma o ∨ i = .mmas o ∨ i = .mmd o) → st.latch.bind (·.verdict) = some none → Completes i s u m {} fun t =>
    (t.strand u).latch = none ∧ (t.strand u).mops = st.mops)

/-- R226, R228, R229: reading the accumulator, waiting for matrix work, and starting a weight stream. ACCRD gives each lane i the element
(row0, column0 + i) with its block's tag, or ROWMAX or ROWSUM of row0 + i, and 0 past the tile's width, row 127 or the allocation; it waits
while an earlier operation has yet to write what it reads. MSYNC completes once its condition holds and nothing is to be reported, and waits until then.
WSL puts its command last in the queue of the core's weight stream unit, with room for it; for DST 0 its unit has one more command pending. -/
def Obligations.AccumulatorReadsAndWaits : Prop := ∀ (i : Instr) (s : State) (u : Nat) (m : BitVec 32), Ready i s u m → acting i s u m ≠ [] → (s.strand u).poisonDue = false →
  let st := s.strand u
  let waits (w : Wait) : Prop := WaitsFor (entered i s u m) i s u m w
  (∀ o, i = .accrd o → st.clean → st.mtFaults = [] → (st.accn = 0 → Traps i s u m false 0x02 18 (st.laneMask (maskBits m)) 0) ∧
    let b := (st.readS o.b 1).w
    let row := (b.extractLsb' 0 8).toNat
    let col := (b.extractLsb' 16 9).toNat
    let n := 8 * (o.nb + 1)
    let at_ (j : Nat) : Nat := o.a * st.accn / 4 + row * n + col + (st.thread j).lane
    let range := if o.sel = 0 then (o.a * st.accn / 4 + row * n + min col n, o.a * st.accn / 4 + row * n + min (col + 32) n) else sideRange o.a row (min 128 (row + 32))
    let due := st.mops.any fun p => (p.todo st).1.any fun x => x.1 < range.2 && range.1 < x.2
    let inside (j : Nat) : Prop := col + (st.thread j).lane < n ∧ row < 128 ∧ at_ j < st.accn
    st.accn ≠ 0 → (due = true → waits .engine) ∧
    (due = false → (∀ j ∈ acting i s u m, o.sel = 0 → (sget {} st.acc (at_ j)).poison = false) →
      ∃ (words : Nat → Word) (tags : Nat → Tag), VecResult i s u m o.d 1 (fun j => [words j]) tags ∧ ∀ j ∈ acting i s u m,
        (o.sel = 0 → inside j → words j = (sget {} st.acc (at_ j)).val ∧ tags j = if st.tagEn then (sget {} st.acc (at_ j)).tag else 0) ∧
        (o.sel = 0 → ¬inside j → words j = 0 ∧ tags j = 0) ∧
        (o.sel ≠ 0 → tags j = 0 ∧ words j = if row + (st.thread j).lane ≤ 127 then sget 0 (if o.sel = 1 then st.rowmax else st.rowsum) (128 * o.a + row + (st.thread j).lane) else 0))) ∧
  (∀ o, i = .msyncAll o → (st.mops ≠ [] → waits .engine) ∧ (st.mops = [] → st.mtFaults = [] → Completes i s u m {} fun _ => True)) ∧
  (∀ o, i = .msyncProg o → (st.accn = 0 → Traps i s u m false 0x02 (o.h.form.at 15 10) (st.laneMask (maskBits m)) 0) ∧
    let writes (p : MOp) : Prop := p.counts o.t ∨ (p.kind = .smx ∧ p.t2 = o.t)
    let reached := (∀ p ∈ st.mops, ¬writes p) ∨ (o.n ≤ st.rprog.getD o.t 0 ∧ ∀ p, (st.mops.filter fun p => p.counts o.t).getLast? = some p → p.lastPass)
    st.accn ≠ 0 → (reached → Completes i s u m {} fun _ => True) ∧ (¬reached → waits .engine)) ∧
  (∀ o, i = .msyncWs o →
    let mine := (s.core st.core).wsu.filter fun c => c.1.strand == u
    (mine ≠ [] → waits .engine) ∧ (mine = [] → st.wsFaults = [] → Completes i s u m {} fun _ => True)) ∧
  ∀ o, i = .wsl o → st.clean →
    let blk := (st.readS o.b 2).val
    let off := if o.dst = 2 then 0 else (st.readS o.d 1).w.toNat
    let fits : Prop := match o.dst with
      | 0 => off % 4096 = 0 ∧ off + 4096 ≤ winOf s st
      | 1 => off % 32 = 0 ∧ off + 4096 ≤ ((sfind s.skeins st.skein).map Skein.scratch).getD 0
      | _ => (portQueue st 1).isSome
    (2 ^ 56 ≤ blk → s.mints u = false → Traps i s u m true 0x23 0 (st.laneMask (maskBits m)) blk) ∧
    (blk < 2 ^ 56 → blk % 4 = 0 → ¬fits → Traps i s u m false 0x02 (if o.dst = 2 then 64 else 10) (st.laneMask (maskBits m)) 0) ∧
    (blk < 2 ^ 56 → blk % 4 = 0 → fits → 8 ≤ (s.core st.core).wsu.length → waits .wsuQueue) ∧
    (blk < 2 ^ 56 → blk % 4 = 0 → fits → (s.core st.core).wsu.length < 8 → Completes i s u m {} fun t =>
      (∃ c : WslCmd, (t.core st.core).wsu = (s.core st.core).wsu ++ [(c, .run)] ∧ c.strand = u ∧ c.skein = st.skein ∧ c.ctx = s.ctxOf st ∧ c.blk = blk ∧ c.off = off ∧
        c.dst = o.dst ∧ c.key = o.key ∧ c.scale = if o.dst = 0 ∧ o.c ≠ 0 then some (st.readS o.c 2).val else none) ∧
      ∀ (k : Skein), sfind s.skeins st.skein = some k → ∃ k', sfind t.skeins st.skein = some k' ∧ ∀ n, sget {} k'.units n =
        if o.dst = 0 ∧ n = off / 4096 then { sget {} k.units n with pending := (sget {} k.units n).pending + 1 } else sget {} k.units n)


/-- R71: the words with opcode 0. NOP changes nothing, is not a boundary, and with BND ends the run; other bits are ILL_FIELD, other forms
ILL_OPCODE sub-cause 2. The all-ones word is ILL_OPCODE. -/
def Obligations.NopChangesNothing : Prop :=
  (∀ sys w, w / 8 % 128 = 0 →
    (w % 4 ≠ 0 → decode sys w = .error (.illOpcode 2)) ∧
    (w % 4 = 0 → w % 2 ^ 32 / 2 ^ 10 = 0 → decode sys w = .ok (.nop (decide (w / 4 % 2 = 1)))) ∧
    (w % 4 = 0 → w % 2 ^ 32 / 2 ^ 10 ≠ 0 → ∃ p, 10 ≤ p ∧ p < 32 ∧ decode sys w = .error (.illField p))) ∧
  (∀ sys w, w % 2 ^ 32 = 2 ^ 32 - 1 → decode sys w = .error (.illOpcode 0)) ∧
  (∀ b, isBoundary (Instr.nop b).op (Instr.nop b).uses = false ∧ ∀ s u m, Ready (.nop b) s u m → Completes (.nop b) s u m {} fun _ => True) ∧
  ∀ s u m w r, s.cur = some r → w / 4 % 2 = 1 → (issuesNow s u m w).cur.map (·.stop) = some true


/-- R372, R384, R387: right after power-on the measurement registers are zero, nothing is booted, and there is no context, launch or strand; no context
is made before the device reports ready. That memory reads as zero and that every die's count starts at 0 is the model's choice (log entry 3). -/
def Obligations.ResetLeavesNothingRunning : Prop :=
  (State.reset.sec.meas.length = 16 ∧ ∀ k, State.reset.sec.meas.getD k 0 = 0) ∧ State.reset.link.ready = false ∧ State.reset.link.stopped = false ∧
  State.reset.contexts = [] ∧ State.reset.launches = [] ∧ State.reset.strands = [] ∧ State.reset.skeins = [] ∧ State.reset.cur = none ∧ State.reset.agenda = [] ∧
  State.reset.sec.keys = [] ∧ State.reset.poison = [] ∧ Memory.wf State.reset.mem = true ∧ (∀ a, State.reset.byteAt a = 0) ∧
  State.reset.dies.length = 8 ∧ (∀ d ∈ State.reset.dies, d.cycle = 0) ∧
  ∀ p s, s.link.ready = false → ∃ t, exec (.contextCreation p) s = .next t ∧ t.contexts = s.contexts
end

