-- ==== Sys2Proof/Laws/State.lean ====
section
/-!
SUPPORT. The fields of the state after each update of one part of it.
-/

namespace Sys2Proof.Machine

@[simp] theorem State.modStrand_mem (s : State) (u : Nat) (f : Strand → Strand) : (s.modStrand u f).mem = s.mem := rfl
@[simp] theorem State.modStrand_tags (s : State) (u : Nat) (f : Strand → Strand) : (s.modStrand u f).tags = s.tags := rfl
@[simp] theorem State.modStrand_poison (s : State) (u : Nat) (f : Strand → Strand) : (s.modStrand u f).poison = s.poison := rfl
@[simp] theorem State.modStrand_raw (s : State) (u : Nat) (f : Strand → Strand) : (s.modStrand u f).raw = s.raw := rfl
@[simp] theorem State.modStrand_strands (s : State) (u : Nat) (f : Strand → Strand) : (s.modStrand u f).strands = smod s.strands u f := rfl
@[simp] theorem State.modStrand_skeins (s : State) (u : Nat) (f : Strand → Strand) : (s.modStrand u f).skeins = s.skeins := rfl
@[simp] theorem State.modStrand_launches (s : State) (u : Nat) (f : Strand → Strand) : (s.modStrand u f).launches = s.launches := rfl
@[simp] theorem State.modStrand_contexts (s : State) (u : Nat) (f : Strand → Strand) : (s.modStrand u f).contexts = s.contexts := rfl
@[simp] theorem State.modStrand_cores (s : State) (u : Nat) (f : Strand → Strand) : (s.modStrand u f).cores = s.cores := rfl
@[simp] theorem State.modStrand_carding (s : State) (u : Nat) (f : Strand → Strand) : (s.modStrand u f).carding = s.carding := rfl
@[simp] theorem State.modStrand_dies (s : State) (u : Nat) (f : Strand → Strand) : (s.modStrand u f).dies = s.dies := rfl
@[simp] theorem State.modStrand_sec (s : State) (u : Nat) (f : Strand → Strand) : (s.modStrand u f).sec = s.sec := rfl
@[simp] theorem State.modStrand_fabric (s : State) (u : Nat) (f : Strand → Strand) : (s.modStrand u f).fabric = s.fabric := rfl
@[simp] theorem State.modStrand_link (s : State) (u : Nat) (f : Strand → Strand) : (s.modStrand u f).link = s.link := rfl
@[simp] theorem State.modStrand_agenda (s : State) (u : Nat) (f : Strand → Strand) : (s.modStrand u f).agenda = s.agenda := rfl
@[simp] theorem State.modStrand_cur (s : State) (u : Nat) (f : Strand → Strand) : (s.modStrand u f).cur = s.cur := rfl
@[simp] theorem State.modStrand_turn (s : State) (u : Nat) (f : Strand → Strand) : (s.modStrand u f).turn = s.turn := rfl
@[simp] theorem State.modStrand_fresh (s : State) (u : Nat) (f : Strand → Strand) : (s.modStrand u f).fresh = s.fresh := rfl
@[simp] theorem State.modStrand_uid (s : State) (u : Nat) (f : Strand → Strand) : (s.modStrand u f).uid = s.uid := rfl

@[simp] theorem State.modLaunch_mem (s : State) (l : Nat) (f : Launch → Launch) : (s.modLaunch l f).mem = s.mem := rfl
@[simp] theorem State.modLaunch_tags (s : State) (l : Nat) (f : Launch → Launch) : (s.modLaunch l f).tags = s.tags := rfl
@[simp] theorem State.modLaunch_poison (s : State) (l : Nat) (f : Launch → Launch) : (s.modLaunch l f).poison = s.poison := rfl
@[simp] theorem State.modLaunch_raw (s : State) (l : Nat) (f : Launch → Launch) : (s.modLaunch l f).raw = s.raw := rfl
@[simp] theorem State.modLaunch_strands (s : State) (l : Nat) (f : Launch → Launch) : (s.modLaunch l f).strands = s.strands := rfl
@[simp] theorem State.modLaunch_skeins (s : State) (l : Nat) (f : Launch → Launch) : (s.modLaunch l f).skeins = s.skeins := rfl
@[simp] theorem State.modLaunch_launches (s : State) (l : Nat) (f : Launch → Launch) : (s.modLaunch l f).launches = smod s.launches l f := rfl
@[simp] theorem State.modLaunch_contexts (s : State) (l : Nat) (f : Launch → Launch) : (s.modLaunch l f).contexts = s.contexts := rfl
@[simp] theorem State.modLaunch_cores (s : State) (l : Nat) (f : Launch → Launch) : (s.modLaunch l f).cores = s.cores := rfl
@[simp] theorem State.modLaunch_carding (s : State) (l : Nat) (f : Launch → Launch) : (s.modLaunch l f).carding = s.carding := rfl
@[simp] theorem State.modLaunch_dies (s : State) (l : Nat) (f : Launch → Launch) : (s.modLaunch l f).dies = s.dies := rfl
@[simp] theorem State.modLaunch_sec (s : State) (l : Nat) (f : Launch → Launch) : (s.modLaunch l f).sec = s.sec := rfl
@[simp] theorem State.modLaunch_fabric (s : State) (l : Nat) (f : Launch → Launch) : (s.modLaunch l f).fabric = s.fabric := rfl
@[simp] theorem State.modLaunch_link (s : State) (l : Nat) (f : Launch → Launch) : (s.modLaunch l f).link = s.link := rfl
@[simp] theorem State.modLaunch_agenda (s : State) (l : Nat) (f : Launch → Launch) : (s.modLaunch l f).agenda = s.agenda := rfl
@[simp] theorem State.modLaunch_cur (s : State) (l : Nat) (f : Launch → Launch) : (s.modLaunch l f).cur = s.cur := rfl
@[simp] theorem State.modLaunch_turn (s : State) (l : Nat) (f : Launch → Launch) : (s.modLaunch l f).turn = s.turn := rfl
@[simp] theorem State.modLaunch_fresh (s : State) (l : Nat) (f : Launch → Launch) : (s.modLaunch l f).fresh = s.fresh := rfl
@[simp] theorem State.modLaunch_uid (s : State) (l : Nat) (f : Launch → Launch) : (s.modLaunch l f).uid = s.uid := rfl

@[simp] theorem State.modContext_mem (s : State) (c : Nat) (f : Context → Context) : (s.modContext c f).mem = s.mem := rfl
@[simp] theorem State.modContext_tags (s : State) (c : Nat) (f : Context → Context) : (s.modContext c f).tags = s.tags := rfl
@[simp] theorem State.modContext_poison (s : State) (c : Nat) (f : Context → Context) : (s.modContext c f).poison = s.poison := rfl
@[simp] theorem State.modContext_raw (s : State) (c : Nat) (f : Context → Context) : (s.modContext c f).raw = s.raw := rfl
@[simp] theorem State.modContext_strands (s : State) (c : Nat) (f : Context → Context) : (s.modContext c f).strands = s.strands := rfl
@[simp] theorem State.modContext_skeins (s : State) (c : Nat) (f : Context → Context) : (s.modContext c f).skeins = s.skeins := rfl
@[simp] theorem State.modContext_launches (s : State) (c : Nat) (f : Context → Context) : (s.modContext c f).launches = s.launches := rfl
@[simp] theorem State.modContext_contexts (s : State) (c : Nat) (f : Context → Context) : (s.modContext c f).contexts = smod s.contexts c f := rfl
@[simp] theorem State.modContext_cores (s : State) (c : Nat) (f : Context → Context) : (s.modContext c f).cores = s.cores := rfl
@[simp] theorem State.modContext_carding (s : State) (c : Nat) (f : Context → Context) : (s.modContext c f).carding = s.carding := rfl
@[simp] theorem State.modContext_dies (s : State) (c : Nat) (f : Context → Context) : (s.modContext c f).dies = s.dies := rfl
@[simp] theorem State.modContext_sec (s : State) (c : Nat) (f : Context → Context) : (s.modContext c f).sec = s.sec := rfl
@[simp] theorem State.modContext_fabric (s : State) (c : Nat) (f : Context → Context) : (s.modContext c f).fabric = s.fabric := rfl
@[simp] theorem State.modContext_link (s : State) (c : Nat) (f : Context → Context) : (s.modContext c f).link = s.link := rfl
@[simp] theorem State.modContext_agenda (s : State) (c : Nat) (f : Context → Context) : (s.modContext c f).agenda = s.agenda := rfl
@[simp] theorem State.modContext_cur (s : State) (c : Nat) (f : Context → Context) : (s.modContext c f).cur = s.cur := rfl
@[simp] theorem State.modContext_turn (s : State) (c : Nat) (f : Context → Context) : (s.modContext c f).turn = s.turn := rfl
@[simp] theorem State.modContext_fresh (s : State) (c : Nat) (f : Context → Context) : (s.modContext c f).fresh = s.fresh := rfl
@[simp] theorem State.modContext_uid (s : State) (c : Nat) (f : Context → Context) : (s.modContext c f).uid = s.uid := rfl

@[simp] theorem State.setCore_mem (s : State) (c : Nat) (x : Core) : (s.setCore c x).mem = s.mem := rfl
@[simp] theorem State.setCore_tags (s : State) (c : Nat) (x : Core) : (s.setCore c x).tags = s.tags := rfl
@[simp] theorem State.setCore_poison (s : State) (c : Nat) (x : Core) : (s.setCore c x).poison = s.poison := rfl
@[simp] theorem State.setCore_raw (s : State) (c : Nat) (x : Core) : (s.setCore c x).raw = s.raw := rfl
@[simp] theorem State.setCore_strands (s : State) (c : Nat) (x : Core) : (s.setCore c x).strands = s.strands := rfl
@[simp] theorem State.setCore_skeins (s : State) (c : Nat) (x : Core) : (s.setCore c x).skeins = s.skeins := rfl
@[simp] theorem State.setCore_launches (s : State) (c : Nat) (x : Core) : (s.setCore c x).launches = s.launches := rfl
@[simp] theorem State.setCore_contexts (s : State) (c : Nat) (x : Core) : (s.setCore c x).contexts = s.contexts := rfl
@[simp] theorem State.setCore_cores (s : State) (c : Nat) (x : Core) : (s.setCore c x).cores = sset s.cores c x := rfl
@[simp] theorem State.setCore_carding (s : State) (c : Nat) (x : Core) : (s.setCore c x).carding = s.carding := rfl
@[simp] theorem State.setCore_dies (s : State) (c : Nat) (x : Core) : (s.setCore c x).dies = s.dies := rfl
@[simp] theorem State.setCore_sec (s : State) (c : Nat) (x : Core) : (s.setCore c x).sec = s.sec := rfl
@[simp] theorem State.setCore_fabric (s : State) (c : Nat) (x : Core) : (s.setCore c x).fabric = s.fabric := rfl
@[simp] theorem State.setCore_link (s : State) (c : Nat) (x : Core) : (s.setCore c x).link = s.link := rfl
@[simp] theorem State.setCore_agenda (s : State) (c : Nat) (x : Core) : (s.setCore c x).agenda = s.agenda := rfl
@[simp] theorem State.setCore_cur (s : State) (c : Nat) (x : Core) : (s.setCore c x).cur = s.cur := rfl
@[simp] theorem State.setCore_turn (s : State) (c : Nat) (x : Core) : (s.setCore c x).turn = s.turn := rfl
@[simp] theorem State.setCore_fresh (s : State) (c : Nat) (x : Core) : (s.setCore c x).fresh = s.fresh := rfl
@[simp] theorem State.setCore_uid (s : State) (c : Nat) (x : Core) : (s.setCore c x).uid = s.uid := rfl

@[simp] theorem State.setCards_mem (s : State) (p : Nat) (c : Carding) : (s.setCards p c).mem = s.mem := rfl
@[simp] theorem State.setCards_tags (s : State) (p : Nat) (c : Carding) : (s.setCards p c).tags = s.tags := rfl
@[simp] theorem State.setCards_poison (s : State) (p : Nat) (c : Carding) : (s.setCards p c).poison = s.poison := rfl
@[simp] theorem State.setCards_raw (s : State) (p : Nat) (c : Carding) : (s.setCards p c).raw = s.raw := rfl
@[simp] theorem State.setCards_strands (s : State) (p : Nat) (c : Carding) : (s.setCards p c).strands = s.strands := rfl
@[simp] theorem State.setCards_skeins (s : State) (p : Nat) (c : Carding) : (s.setCards p c).skeins = s.skeins := rfl
@[simp] theorem State.setCards_launches (s : State) (p : Nat) (c : Carding) : (s.setCards p c).launches = s.launches := rfl
@[simp] theorem State.setCards_contexts (s : State) (p : Nat) (c : Carding) : (s.setCards p c).contexts = s.contexts := rfl
@[simp] theorem State.setCards_cores (s : State) (p : Nat) (c : Carding) : (s.setCards p c).cores = s.cores := rfl
@[simp] theorem State.setCards_carding (s : State) (p : Nat) (c : Carding) : (s.setCards p c).carding = sput {} s.carding p c := rfl
@[simp] theorem State.setCards_dies (s : State) (p : Nat) (c : Carding) : (s.setCards p c).dies = s.dies := rfl
@[simp] theorem State.setCards_sec (s : State) (p : Nat) (c : Carding) : (s.setCards p c).sec = s.sec := rfl
@[simp] theorem State.setCards_fabric (s : State) (p : Nat) (c : Carding) : (s.setCards p c).fabric = s.fabric := rfl
@[simp] theorem State.setCards_link (s : State) (p : Nat) (c : Carding) : (s.setCards p c).link = s.link := rfl
@[simp] theorem State.setCards_agenda (s : State) (p : Nat) (c : Carding) : (s.setCards p c).agenda = s.agenda := rfl
@[simp] theorem State.setCards_cur (s : State) (p : Nat) (c : Carding) : (s.setCards p c).cur = s.cur := rfl
@[simp] theorem State.setCards_turn (s : State) (p : Nat) (c : Carding) : (s.setCards p c).turn = s.turn := rfl
@[simp] theorem State.setCards_fresh (s : State) (p : Nat) (c : Carding) : (s.setCards p c).fresh = s.fresh := rfl
@[simp] theorem State.setCards_uid (s : State) (p : Nat) (c : Carding) : (s.setCards p c).uid = s.uid := rfl

@[simp] theorem State.modFabric_mem (s : State) (f : Fabric → Fabric) : (s.modFabric f).mem = s.mem := rfl
@[simp] theorem State.modFabric_tags (s : State) (f : Fabric → Fabric) : (s.modFabric f).tags = s.tags := rfl
@[simp] theorem State.modFabric_poison (s : State) (f : Fabric → Fabric) : (s.modFabric f).poison = s.poison := rfl
@[simp] theorem State.modFabric_raw (s : State) (f : Fabric → Fabric) : (s.modFabric f).raw = s.raw := rfl
@[simp] theorem State.modFabric_strands (s : State) (f : Fabric → Fabric) : (s.modFabric f).strands = s.strands := rfl
@[simp] theorem State.modFabric_skeins (s : State) (f : Fabric → Fabric) : (s.modFabric f).skeins = s.skeins := rfl
@[simp] theorem State.modFabric_launches (s : State) (f : Fabric → Fabric) : (s.modFabric f).launches = s.launches := rfl
@[simp] theorem State.modFabric_contexts (s : State) (f : Fabric → Fabric) : (s.modFabric f).contexts = s.contexts := rfl
@[simp] theorem State.modFabric_cores (s : State) (f : Fabric → Fabric) : (s.modFabric f).cores = s.cores := rfl
@[simp] theorem State.modFabric_carding (s : State) (f : Fabric → Fabric) : (s.modFabric f).carding = s.carding := rfl
@[simp] theorem State.modFabric_dies (s : State) (f : Fabric → Fabric) : (s.modFabric f).dies = s.dies := rfl
@[simp] theorem State.modFabric_sec (s : State) (f : Fabric → Fabric) : (s.modFabric f).sec = s.sec := rfl
@[simp] theorem State.modFabric_fabric (s : State) (f : Fabric → Fabric) : (s.modFabric f).fabric = f s.fabric := rfl
@[simp] theorem State.modFabric_link (s : State) (f : Fabric → Fabric) : (s.modFabric f).link = s.link := rfl
@[simp] theorem State.modFabric_agenda (s : State) (f : Fabric → Fabric) : (s.modFabric f).agenda = s.agenda := rfl
@[simp] theorem State.modFabric_cur (s : State) (f : Fabric → Fabric) : (s.modFabric f).cur = s.cur := rfl
@[simp] theorem State.modFabric_turn (s : State) (f : Fabric → Fabric) : (s.modFabric f).turn = s.turn := rfl
@[simp] theorem State.modFabric_fresh (s : State) (f : Fabric → Fabric) : (s.modFabric f).fresh = s.fresh := rfl
@[simp] theorem State.modFabric_uid (s : State) (f : Fabric → Fabric) : (s.modFabric f).uid = s.uid := rfl

@[simp] theorem State.modSec_mem (s : State) (f : Sec → Sec) : (s.modSec f).mem = s.mem := rfl
@[simp] theorem State.modSec_tags (s : State) (f : Sec → Sec) : (s.modSec f).tags = s.tags := rfl
@[simp] theorem State.modSec_poison (s : State) (f : Sec → Sec) : (s.modSec f).poison = s.poison := rfl
@[simp] theorem State.modSec_raw (s : State) (f : Sec → Sec) : (s.modSec f).raw = s.raw := rfl
@[simp] theorem State.modSec_strands (s : State) (f : Sec → Sec) : (s.modSec f).strands = s.strands := rfl
@[simp] theorem State.modSec_skeins (s : State) (f : Sec → Sec) : (s.modSec f).skeins = s.skeins := rfl
@[simp] theorem State.modSec_launches (s : State) (f : Sec → Sec) : (s.modSec f).launches = s.launches := rfl
@[simp] theorem State.modSec_contexts (s : State) (f : Sec → Sec) : (s.modSec f).contexts = s.contexts := rfl
@[simp] theorem State.modSec_cores (s : State) (f : Sec → Sec) : (s.modSec f).cores = s.cores := rfl
@[simp] theorem State.modSec_carding (s : State) (f : Sec → Sec) : (s.modSec f).carding = s.carding := rfl
@[simp] theorem State.modSec_dies (s : State) (f : Sec → Sec) : (s.modSec f).dies = s.dies := rfl
@[simp] theorem State.modSec_sec (s : State) (f : Sec → Sec) : (s.modSec f).sec = f s.sec := rfl
@[simp] theorem State.modSec_fabric (s : State) (f : Sec → Sec) : (s.modSec f).fabric = s.fabric := rfl
@[simp] theorem State.modSec_link (s : State) (f : Sec → Sec) : (s.modSec f).link = s.link := rfl
@[simp] theorem State.modSec_agenda (s : State) (f : Sec → Sec) : (s.modSec f).agenda = s.agenda := rfl
@[simp] theorem State.modSec_cur (s : State) (f : Sec → Sec) : (s.modSec f).cur = s.cur := rfl
@[simp] theorem State.modSec_turn (s : State) (f : Sec → Sec) : (s.modSec f).turn = s.turn := rfl
@[simp] theorem State.modSec_fresh (s : State) (f : Sec → Sec) : (s.modSec f).fresh = s.fresh := rfl
@[simp] theorem State.modSec_uid (s : State) (f : Sec → Sec) : (s.modSec f).uid = s.uid := rfl

@[simp] theorem State.write_mem (s : State) (l : Nat) (bs : List Byte) : (s.write l bs).mem = Memory.write s.mem l bs := rfl
@[simp] theorem State.write_tags (s : State) (l : Nat) (bs : List Byte) : (s.write l bs).tags = s.tags := rfl
@[simp] theorem State.write_poison (s : State) (l : Nat) (bs : List Byte) : (s.write l bs).poison = s.poison := rfl
@[simp] theorem State.write_raw (s : State) (l : Nat) (bs : List Byte) : (s.write l bs).raw = s.raw := rfl
@[simp] theorem State.write_strands (s : State) (l : Nat) (bs : List Byte) : (s.write l bs).strands = s.strands := rfl
@[simp] theorem State.write_skeins (s : State) (l : Nat) (bs : List Byte) : (s.write l bs).skeins = s.skeins := rfl
@[simp] theorem State.write_launches (s : State) (l : Nat) (bs : List Byte) : (s.write l bs).launches = s.launches := rfl
@[simp] theorem State.write_contexts (s : State) (l : Nat) (bs : List Byte) : (s.write l bs).contexts = s.contexts := rfl
@[simp] theorem State.write_cores (s : State) (l : Nat) (bs : List Byte) : (s.write l bs).cores = s.cores := rfl
@[simp] theorem State.write_carding (s : State) (l : Nat) (bs : List Byte) : (s.write l bs).carding = s.carding := rfl
@[simp] theorem State.write_dies (s : State) (l : Nat) (bs : List Byte) : (s.write l bs).dies = s.dies := rfl
@[simp] theorem State.write_sec (s : State) (l : Nat) (bs : List Byte) : (s.write l bs).sec = s.sec := rfl
@[simp] theorem State.write_fabric (s : State) (l : Nat) (bs : List Byte) : (s.write l bs).fabric = s.fabric := rfl
@[simp] theorem State.write_link (s : State) (l : Nat) (bs : List Byte) : (s.write l bs).link = s.link := rfl
@[simp] theorem State.write_agenda (s : State) (l : Nat) (bs : List Byte) : (s.write l bs).agenda = s.agenda := rfl
@[simp] theorem State.write_cur (s : State) (l : Nat) (bs : List Byte) : (s.write l bs).cur = s.cur := rfl
@[simp] theorem State.write_turn (s : State) (l : Nat) (bs : List Byte) : (s.write l bs).turn = s.turn := rfl
@[simp] theorem State.write_fresh (s : State) (l : Nat) (bs : List Byte) : (s.write l bs).fresh = s.fresh := rfl
@[simp] theorem State.write_uid (s : State) (l : Nat) (bs : List Byte) : (s.write l bs).uid = s.uid := rfl

@[simp] theorem State.setTag_mem (s : State) (k : Nat) (t : Tag) : (s.setTag k t).mem = s.mem := rfl
@[simp] theorem State.setTag_tags (s : State) (k : Nat) (t : Tag) : (s.setTag k t).tags = sput 0 s.tags k t := rfl
@[simp] theorem State.setTag_poison (s : State) (k : Nat) (t : Tag) : (s.setTag k t).poison = s.poison := rfl
@[simp] theorem State.setTag_raw (s : State) (k : Nat) (t : Tag) : (s.setTag k t).raw = s.raw := rfl
@[simp] theorem State.setTag_strands (s : State) (k : Nat) (t : Tag) : (s.setTag k t).strands = s.strands := rfl
@[simp] theorem State.setTag_skeins (s : State) (k : Nat) (t : Tag) : (s.setTag k t).skeins = s.skeins := rfl
@[simp] theorem State.setTag_launches (s : State) (k : Nat) (t : Tag) : (s.setTag k t).launches = s.launches := rfl
@[simp] theorem State.setTag_contexts (s : State) (k : Nat) (t : Tag) : (s.setTag k t).contexts = s.contexts := rfl
@[simp] theorem State.setTag_cores (s : State) (k : Nat) (t : Tag) : (s.setTag k t).cores = s.cores := rfl
@[simp] theorem State.setTag_carding (s : State) (k : Nat) (t : Tag) : (s.setTag k t).carding = s.carding := rfl
@[simp] theorem State.setTag_dies (s : State) (k : Nat) (t : Tag) : (s.setTag k t).dies = s.dies := rfl
@[simp] theorem State.setTag_sec (s : State) (k : Nat) (t : Tag) : (s.setTag k t).sec = s.sec := rfl
@[simp] theorem State.setTag_fabric (s : State) (k : Nat) (t : Tag) : (s.setTag k t).fabric = s.fabric := rfl
@[simp] theorem State.setTag_link (s : State) (k : Nat) (t : Tag) : (s.setTag k t).link = s.link := rfl
@[simp] theorem State.setTag_agenda (s : State) (k : Nat) (t : Tag) : (s.setTag k t).agenda = s.agenda := rfl
@[simp] theorem State.setTag_cur (s : State) (k : Nat) (t : Tag) : (s.setTag k t).cur = s.cur := rfl
@[simp] theorem State.setTag_turn (s : State) (k : Nat) (t : Tag) : (s.setTag k t).turn = s.turn := rfl
@[simp] theorem State.setTag_fresh (s : State) (k : Nat) (t : Tag) : (s.setTag k t).fresh = s.fresh := rfl
@[simp] theorem State.setTag_uid (s : State) (k : Nat) (t : Tag) : (s.setTag k t).uid = s.uid := rfl

@[simp] theorem State.clearPoison_mem (s : State) (u : Nat) : (s.clearPoison u).mem = s.mem := rfl
@[simp] theorem State.clearPoison_tags (s : State) (u : Nat) : (s.clearPoison u).tags = s.tags := rfl
@[simp] theorem State.clearPoison_poison (s : State) (u : Nat) : (s.clearPoison u).poison = s.poison.filter (· != u) := rfl
@[simp] theorem State.clearPoison_raw (s : State) (u : Nat) : (s.clearPoison u).raw = sdel s.raw u := rfl
@[simp] theorem State.clearPoison_strands (s : State) (u : Nat) : (s.clearPoison u).strands = s.strands := rfl
@[simp] theorem State.clearPoison_skeins (s : State) (u : Nat) : (s.clearPoison u).skeins = s.skeins := rfl
@[simp] theorem State.clearPoison_launches (s : State) (u : Nat) : (s.clearPoison u).launches = s.launches := rfl
@[simp] theorem State.clearPoison_contexts (s : State) (u : Nat) : (s.clearPoison u).contexts = s.contexts := rfl
@[simp] theorem State.clearPoison_cores (s : State) (u : Nat) : (s.clearPoison u).cores = s.cores := rfl
@[simp] theorem State.clearPoison_carding (s : State) (u : Nat) : (s.clearPoison u).carding = s.carding := rfl
@[simp] theorem State.clearPoison_dies (s : State) (u : Nat) : (s.clearPoison u).dies = s.dies := rfl
@[simp] theorem State.clearPoison_sec (s : State) (u : Nat) : (s.clearPoison u).sec = s.sec := rfl
@[simp] theorem State.clearPoison_fabric (s : State) (u : Nat) : (s.clearPoison u).fabric = s.fabric := rfl
@[simp] theorem State.clearPoison_link (s : State) (u : Nat) : (s.clearPoison u).link = s.link := rfl
@[simp] theorem State.clearPoison_agenda (s : State) (u : Nat) : (s.clearPoison u).agenda = s.agenda := rfl
@[simp] theorem State.clearPoison_cur (s : State) (u : Nat) : (s.clearPoison u).cur = s.cur := rfl
@[simp] theorem State.clearPoison_turn (s : State) (u : Nat) : (s.clearPoison u).turn = s.turn := rfl
@[simp] theorem State.clearPoison_fresh (s : State) (u : Nat) : (s.clearPoison u).fresh = s.fresh := rfl
@[simp] theorem State.clearPoison_uid (s : State) (u : Nat) : (s.clearPoison u).uid = s.uid := rfl

@[simp] theorem State.tick_mem (s : State) : (s.tick).mem = s.mem := rfl
@[simp] theorem State.tick_tags (s : State) : (s.tick).tags = s.tags := rfl
@[simp] theorem State.tick_poison (s : State) : (s.tick).poison = s.poison := rfl
@[simp] theorem State.tick_raw (s : State) : (s.tick).raw = s.raw := rfl
@[simp] theorem State.tick_strands (s : State) : (s.tick).strands = s.strands := rfl
@[simp] theorem State.tick_skeins (s : State) : (s.tick).skeins = s.skeins := rfl
@[simp] theorem State.tick_launches (s : State) : (s.tick).launches = s.launches := rfl
@[simp] theorem State.tick_contexts (s : State) : (s.tick).contexts = s.contexts := rfl
@[simp] theorem State.tick_cores (s : State) : (s.tick).cores = s.cores := rfl
@[simp] theorem State.tick_carding (s : State) : (s.tick).carding = s.carding := rfl
@[simp] theorem State.tick_fabric (s : State) : (s.tick).fabric = s.fabric := rfl
@[simp] theorem State.tick_link (s : State) : (s.tick).link = s.link := rfl
@[simp] theorem State.tick_agenda (s : State) : (s.tick).agenda = s.agenda := rfl
@[simp] theorem State.tick_cur (s : State) : (s.tick).cur = s.cur := rfl
@[simp] theorem State.tick_turn (s : State) : (s.tick).turn = s.turn := rfl
@[simp] theorem State.tick_fresh (s : State) : (s.tick).fresh = s.fresh := rfl
@[simp] theorem State.tick_uid (s : State) : (s.tick).uid = s.uid := rfl

@[simp] theorem State.newId_mem (s : State) : (s.newId.2).mem = s.mem := rfl
@[simp] theorem State.newId_tags (s : State) : (s.newId.2).tags = s.tags := rfl
@[simp] theorem State.newId_poison (s : State) : (s.newId.2).poison = s.poison := rfl
@[simp] theorem State.newId_raw (s : State) : (s.newId.2).raw = s.raw := rfl
@[simp] theorem State.newId_strands (s : State) : (s.newId.2).strands = s.strands := rfl
@[simp] theorem State.newId_skeins (s : State) : (s.newId.2).skeins = s.skeins := rfl
@[simp] theorem State.newId_launches (s : State) : (s.newId.2).launches = s.launches := rfl
@[simp] theorem State.newId_contexts (s : State) : (s.newId.2).contexts = s.contexts := rfl
@[simp] theorem State.newId_cores (s : State) : (s.newId.2).cores = s.cores := rfl
@[simp] theorem State.newId_carding (s : State) : (s.newId.2).carding = s.carding := rfl
@[simp] theorem State.newId_dies (s : State) : (s.newId.2).dies = s.dies := rfl
@[simp] theorem State.newId_sec (s : State) : (s.newId.2).sec = s.sec := rfl
@[simp] theorem State.newId_fabric (s : State) : (s.newId.2).fabric = s.fabric := rfl
@[simp] theorem State.newId_link (s : State) : (s.newId.2).link = s.link := rfl
@[simp] theorem State.newId_agenda (s : State) : (s.newId.2).agenda = s.agenda := rfl
@[simp] theorem State.newId_cur (s : State) : (s.newId.2).cur = s.cur := rfl
@[simp] theorem State.newId_turn (s : State) : (s.newId.2).turn = s.turn := rfl
@[simp] theorem State.newId_fresh (s : State) : (s.newId.2).fresh = s.fresh := rfl
@[simp] theorem State.newId_uid (s : State) : (s.newId.2).uid = s.uid + 1 := rfl

@[simp] theorem stopRun_mem (s : State) : (stopRun s).mem = s.mem := rfl
@[simp] theorem stopRun_tags (s : State) : (stopRun s).tags = s.tags := rfl
@[simp] theorem stopRun_poison (s : State) : (stopRun s).poison = s.poison := rfl
@[simp] theorem stopRun_raw (s : State) : (stopRun s).raw = s.raw := rfl
@[simp] theorem stopRun_strands (s : State) : (stopRun s).strands = s.strands := rfl
@[simp] theorem stopRun_skeins (s : State) : (stopRun s).skeins = s.skeins := rfl
@[simp] theorem stopRun_launches (s : State) : (stopRun s).launches = s.launches := rfl
@[simp] theorem stopRun_contexts (s : State) : (stopRun s).contexts = s.contexts := rfl
@[simp] theorem stopRun_cores (s : State) : (stopRun s).cores = s.cores := rfl
@[simp] theorem stopRun_carding (s : State) : (stopRun s).carding = s.carding := rfl
@[simp] theorem stopRun_dies (s : State) : (stopRun s).dies = s.dies := rfl
@[simp] theorem stopRun_sec (s : State) : (stopRun s).sec = s.sec := rfl
@[simp] theorem stopRun_fabric (s : State) : (stopRun s).fabric = s.fabric := rfl
@[simp] theorem stopRun_link (s : State) : (stopRun s).link = s.link := rfl
@[simp] theorem stopRun_agenda (s : State) : (stopRun s).agenda = s.agenda := rfl
@[simp] theorem stopRun_cur (s : State) : (stopRun s).cur = s.cur.map fun r => { r with stop := true } := rfl
@[simp] theorem stopRun_turn (s : State) : (stopRun s).turn = s.turn := rfl
@[simp] theorem stopRun_fresh (s : State) : (stopRun s).fresh = s.fresh := rfl
@[simp] theorem stopRun_uid (s : State) : (stopRun s).uid = s.uid := rfl

end Sys2Proof.Machine
end

