-- ==== Sys2Proof/Laws/Sparse.lean ====
section
/-!
SUPPORT. Tables keyed by numbers: what a change leaves, and the canonical form.
-/

namespace Sys2Proof.Machine

variable {β : Type}

theorem lookup_filter (m : Sparse β) (j : Nat) (p : Nat → Bool) :
    (m.filter fun c => p c.1).lookup j = if p j then m.lookup j else none := by
  induction m with
  | nil => simp
  | cons c m ih =>
    obtain ⟨a, b⟩ := c
    by_cases hc : j = a
    · subst hc
      cases hp : p j
      · simpa [List.filter_cons, hp] using ih
      · simp [List.filter_cons, hp]
    · have hb : (j == a) = false := by simpa using hc
      cases hpc : p a <;> simp [List.filter_cons, hpc, List.lookup_cons, hb, ih]

theorem lookup_append (m n : Sparse β) (j : Nat) : (m ++ n).lookup j = (m.lookup j).or (n.lookup j) := by
  induction m with
  | nil => simp
  | cons c m ih =>
    obtain ⟨a, b⟩ := c
    cases hb : (j == a) <;> simp [List.lookup_cons, hb, ih]

theorem sget_sput [DecidableEq β] (d : β) (m : Sparse β) (k j : Nat) (v : β) :
    sget d (sput d m k v) j = if j = k then v else sget d m j := by
  unfold sget sput
  rw [lookup_append, lookup_append, lookup_filter m j (fun x => decide (x < k)), lookup_filter m j (fun x => decide (k < x))]
  by_cases hj : j = k
  · subst hj
    by_cases hv : v = d <;> simp [hv, List.lookup_cons]
  · rcases Nat.lt_or_gt_of_ne hj with h | h
    · have h' : ¬ k < j := by omega
      have hb : (j == k) = false := by simpa using hj
      by_cases hv : v = d <;> simp [hv, h, h', hj, hb, List.lookup_cons]
    · have h' : ¬ j < k := by omega
      have hb : (j == k) = false := by simpa using hj
      by_cases hv : v = d <;> simp [hv, h, h', hj, hb, List.lookup_cons]

theorem sfind_sset (m : Sparse β) (k j : Nat) (v : β) : sfind (sset m k v) j = if j = k then some v else sfind m j := by
  unfold sfind sset
  rw [lookup_append, lookup_append, lookup_filter m j (fun x => decide (x < k)), lookup_filter m j (fun x => decide (k < x))]
  by_cases hj : j = k
  · subst hj; simp [List.lookup_cons]
  · rcases Nat.lt_or_gt_of_ne hj with h | h
    · have h' : ¬ k < j := by omega
      have hb : (j == k) = false := by simpa using hj
      simp [h, h', hj, hb, List.lookup_cons]
    · have h' : ¬ j < k := by omega
      have hb : (j == k) = false := by simpa using hj
      simp [h, h', hj, hb, List.lookup_cons]

theorem sfind_smod (m : Sparse β) (k j : Nat) (f : β → β) :
    sfind (smod m k f) j = if j = k then (sfind m j).map f else sfind m j := by
  unfold sfind smod
  induction m with
  | nil => simp
  | cons c m ih =>
    obtain ⟨a, b⟩ := c
    by_cases hj : j = a <;> by_cases hc : a = k
    · subst hj hc; simp
    · subst hj; simp [hc]
    · subst hc
      have hb : (j == a) = false := by simpa using hj
      simpa [List.lookup_cons, hb, hj] using ih
    · have hb : (j == a) = false := by simpa using hj
      simpa [List.lookup_cons, hb, hc] using ih

theorem sget_smod (d : β) (m : Sparse β) (k j : Nat) (f : β → β) :
    sget d (smod m k f) j = if j = k ∧ (sfind m k).isSome then f (sget d m k) else sget d m j := by
  have h := sfind_smod m k j f
  unfold sfind at h
  unfold sget
  rw [h]
  by_cases hj : j = k
  · subst hj
    cases hm : m.lookup j <;> simp [sfind, hm]
  · simp [hj]

theorem sget_smod_ne (d : β) (m : Sparse β) (k j : Nat) (f : β → β) (h : j ≠ k) :
    sget d (smod m k f) j = sget d m j := by rw [sget_smod]; simp [h]

/-! ### The canonical form -/

theorem ascending_cons (a : Nat) (l : List Nat) :
    ascending (a :: l) = true ↔ (∀ b ∈ l, a < b) ∧ ascending l = true := by
  induction l generalizing a with
  | nil => simp [ascending]
  | cons b l ih =>
    simp only [ascending, Bool.and_eq_true, decide_eq_true_eq, List.mem_cons, forall_eq_or_imp]
    constructor
    · rintro ⟨hab, h⟩
      exact ⟨⟨hab, fun c hc => lt_trans hab (((ih b).1 h).1 c hc)⟩, h⟩
    · rintro ⟨⟨hab, _⟩, h⟩
      exact ⟨hab, h⟩

theorem ascending_iff (l : List Nat) : ascending l = true ↔ l.Pairwise (· < ·) := by
  induction l with
  | nil => simp [ascending]
  | cons a l ih => rw [ascending_cons, List.pairwise_cons, ih]

theorem scanon_iff [DecidableEq β] (d : β) (m : Sparse β) :
    scanon d m = true ↔ m.Pairwise (fun a b => a.1 < b.1) ∧ ∀ c ∈ m, c.2 ≠ d := by
  simp [scanon, ascending_iff, List.pairwise_map]

theorem scanon_filter [DecidableEq β] (d : β) (m : Sparse β) (p : Nat × β → Bool) (h : scanon d m = true) :
    scanon d (m.filter p) = true := by
  rw [scanon_iff] at *
  exact ⟨h.1.filter _, fun c hc => h.2 c (List.mem_of_mem_filter hc)⟩

theorem scanon_append [DecidableEq β] (d : β) (m n : Sparse β) (hm : scanon d m = true) (hn : scanon d n = true)
    (h : ∀ a ∈ m, ∀ b ∈ n, a.1 < b.1) : scanon d (m ++ n) = true := by
  rw [scanon_iff] at *
  refine ⟨List.pairwise_append.2 ⟨hm.1, hn.1, h⟩, ?_⟩
  intro c hc
  rcases List.mem_append.1 hc with hc | hc
  · exact hm.2 c hc
  · exact hn.2 c hc

theorem scanon_sput [DecidableEq β] (d : β) (m : Sparse β) (k : Nat) (v : β) (h : scanon d m = true) :
    scanon d (sput d m k v) = true := by
  unfold sput
  have hmid : scanon d (if v = d then [] else [(k, v)] : Sparse β) = true := by
    split <;> simp_all [scanon, ascending]
  refine scanon_append d _ _ (scanon_append d _ _ (scanon_filter d m _ h) hmid ?_) (scanon_filter d m _ h) ?_
  · intro a ha b hb
    have := (List.mem_filter.1 ha).2
    split at hb <;> simp_all
  · intro a ha b hb
    have hb' := (List.mem_filter.1 hb).2
    rcases List.mem_append.1 ha with ha | ha
    · have := (List.mem_filter.1 ha).2
      simp only [decide_eq_true_eq] at *
      omega
    · split at ha <;> simp_all

end Sys2Proof.Machine
end

