-- ==== Sys2Proof/Laws/Memory.lean ====
section
/-!
SUPPORT. Memory: reading back what was written, and the canonical form that every operation over memory keeps.
-/

namespace Sys2Proof.Machine

theorem lookup_cellsOf (bs : List Byte) (loc a : Nat) :
    sget 0 (cellsOf loc bs) a = if loc ≤ a then bs.getD (a - loc) 0 else 0 := by
  induction bs generalizing loc with
  | nil => simp [cellsOf, sget]
  | cons b bs ih =>
    have ih' := ih (loc + 1)
    unfold cellsOf
    by_cases hb : b = 0
    · rw [if_pos hb, ih']
      rcases Nat.lt_trichotomy a loc with h | h | h
      · have : ¬ loc + 1 ≤ a := by omega
        have : ¬ loc ≤ a := by omega
        simp [*]
      · subst h; simp [hb]
      · have h1 : loc + 1 ≤ a := h
        have h2 : loc ≤ a := by omega
        have h3 : a - loc = (a - (loc + 1)) + 1 := by omega
        simp [h1, h2, h3]
    · rw [if_neg hb]
      rcases Nat.lt_trichotomy a loc with h | h | h
      · have h1 : ¬ loc + 1 ≤ a := by omega
        have h2 : ¬ loc ≤ a := by omega
        have hb' : (a == loc) = false := by simp; omega
        rw [if_neg h2]
        rw [if_neg h1] at ih'
        simpa [sget, List.lookup_cons, hb'] using ih'
      · subst h; simp [sget]
      · have h1 : loc + 1 ≤ a := h
        have h2 : loc ≤ a := by omega
        have h3 : a - loc = (a - (loc + 1)) + 1 := by omega
        have hb' : (a == loc) = false := by simp; omega
        rw [if_pos h2, h3, List.getD_cons_succ]
        rw [if_pos h1] at ih'
        simpa [sget, List.lookup_cons, hb'] using ih'

theorem mem_cellsOf (bs : List Byte) (loc : Nat) : ∀ c ∈ cellsOf loc bs, loc ≤ c.1 ∧ c.1 < loc + bs.length ∧ c.2 ≠ 0 := by
  induction bs generalizing loc with
  | nil => simp [cellsOf]
  | cons b bs ih =>
    intro c hc
    unfold cellsOf at hc
    split at hc
    · have := ih (loc + 1) c hc
      simp only [List.length_cons]
      exact ⟨by omega, by omega, this.2.2⟩
    · rcases List.mem_cons.1 hc with rfl | hc
      · simp_all
      · have := ih (loc + 1) c hc
        simp only [List.length_cons]
        exact ⟨by omega, by omega, this.2.2⟩

theorem cellsOf_canon (bs : List Byte) (loc : Nat) : scanon 0 (cellsOf loc bs) = true := by
  induction bs generalizing loc with
  | nil => simp [cellsOf, scanon, ascending]
  | cons b bs ih =>
    unfold cellsOf
    split
    · exact ih _
    · next hb =>
      have h := ih (loc + 1)
      rw [scanon_iff] at *
      refine ⟨List.pairwise_cons.2 ⟨?_, h.1⟩, ?_⟩
      · intro c hc
        have := mem_cellsOf bs (loc + 1) c hc
        simp only
        omega
      · intro c hc
        rcases List.mem_cons.1 hc with rfl | hc
        · exact hb
        · exact h.2 c hc

theorem byte_none (m : Memory) (p : Nat → Bool) (a : Nat) :
    sget 0 (m.filter fun c => p c.1) a = if p a then Memory.byte m a else 0 := by
  unfold Memory.byte sget
  rw [lookup_filter m a p]
  split <;> rfl

/-- A byte after a write: the byte written, or what was there. -/
theorem byte_write (m : Memory) (loc : Nat) (bs : List Byte) (a : Nat) :
    Memory.byte (Memory.write m loc bs) a =
      if loc ≤ a ∧ a < loc + bs.length then bs.getD (a - loc) 0 else Memory.byte m a := by
  have h1 := lookup_filter m a (fun x => decide (x < loc))
  have h2 := lookup_filter m a (fun x => decide (loc + bs.length ≤ x))
  have hc := lookup_cellsOf bs loc a
  have hn : ∀ x, (cellsOf loc bs).lookup a = some x → loc ≤ a ∧ a < loc + bs.length := by
    intro x hx
    have hmem : (a, x) ∈ cellsOf loc bs := by
      clear h1 h2 hc
      generalize cellsOf loc bs = l at hx
      induction l with
      | nil => simp at hx
      | cons c l ih =>
        obtain ⟨k, v⟩ := c
        cases hb : (a == k)
        · simp [List.lookup_cons, hb] at hx; exact List.mem_cons_of_mem _ (ih hx)
        · simp [List.lookup_cons, hb] at hx
          have : a = k := by simpa using hb
          subst this; subst hx; simp
    exact ⟨(mem_cellsOf bs loc _ hmem).1, (mem_cellsOf bs loc _ hmem).2.1⟩
  unfold Memory.byte Memory.write sget at *
  rw [lookup_append, lookup_append, h1, h2]
  by_cases hin : loc ≤ a ∧ a < loc + bs.length
  · have e1 : ¬ a < loc := by omega
    have e2 : ¬ loc + bs.length ≤ a := by omega
    rw [if_pos hin.1] at hc
    rw [if_pos hin, ← hc]
    simp [e1, e2]
  · rw [if_neg hin]
    cases hl : (cellsOf loc bs).lookup a with
    | some x => exact absurd (hn x hl) hin
    | none =>
      by_cases e1 : a < loc
      · have e2 : ¬ loc + bs.length ≤ a := by omega
        simp [e1, e2]
      · have e2 : loc + bs.length ≤ a := by omega
        simp [e1, e2]

/-- Bytes read are the bytes at the locations. -/
theorem read_eq (m : Memory) (loc n : Nat) : Memory.read m loc n = (List.range n).map fun i => Memory.byte m (loc + i) := by
  unfold Memory.read
  apply List.map_congr_left
  intro i hi
  have hi' := List.mem_range.1 hi
  rw [byte_none m (fun x => decide (loc ≤ x) && decide (x < loc + n))]
  simp [hi']

/-! ### The canonical form -/

theorem wf_write (m : Memory) (loc : Nat) (bs : List Byte) (h : Memory.wf m = true) : Memory.wf (Memory.write m loc bs) = true := by
  unfold Memory.wf Memory.write at *
  refine scanon_append 0 _ _ (scanon_append 0 _ _ (scanon_filter 0 m _ h) (cellsOf_canon bs loc) ?_) (scanon_filter 0 m _ h) ?_
  · intro a ha b hb
    have h1 := (List.mem_filter.1 ha).2
    have h2 := mem_cellsOf bs loc b hb
    simp only [decide_eq_true_eq] at h1
    omega
  · intro a ha b hb
    have h2 := (List.mem_filter.1 hb).2
    simp only [decide_eq_true_eq] at h2
    rcases List.mem_append.1 ha with ha | ha
    · have h1 := (List.mem_filter.1 ha).2
      simp only [decide_eq_true_eq] at h1
      omega
    · have h1 := mem_cellsOf bs loc a ha
      omega

theorem wf_filter (m : Memory) (p : Host.Cell → Bool) (h : Memory.wf m = true) : Memory.wf (m.filter p) = true :=
  scanon_filter 0 m p h

theorem State.write_wf (s : State) (loc : Nat) (bs : List Byte) (h : Memory.wf s.mem = true) :
    Memory.wf (s.write loc bs).mem = true := wf_write _ _ _ h

theorem State.poisonUnit_wf (s : State) (u : Nat) (h : Memory.wf s.mem = true) : Memory.wf (s.poisonUnit u).mem = true :=
  wf_write _ _ _ h

@[simp] theorem State.countError_mem (s : State) (r : RowName) (f : Bool) : (s.countError r f).mem = s.mem := rfl
@[simp] theorem State.dropRaw_mem (s : State) (ps : List Piece) : (s.dropRaw ps).mem = s.mem := rfl

/-- A fold keeps what each step keeps. -/
theorem foldl_keeps {α : Type} (P : State → Prop) (f : State → α → State) (h : ∀ s a, P s → P (f s a)) (l : List α) (s : State)
    (hs : P s) : P (l.foldl f s) := by
  induction l generalizing s with
  | nil => exact hs
  | cons a l ih => exact ih _ (h s a hs)

theorem State.settleUnit_wf (s : State) (u : Nat) (h : Memory.wf s.mem = true) : Memory.wf (s.settleUnit u).mem = true := by
  unfold State.settleUnit
  split
  · exact h
  · split
    · dsimp only
      split
      · exact State.poisonUnit_wf s u h
      · split
        · split <;> simpa using wf_write _ _ _ h
        · simpa using State.poisonUnit_wf s u h
    · dsimp only
      split
      · split <;> split <;> first
          | exact wf_write _ _ _ h
          | exact wf_write _ _ _ (wf_write _ _ _ h)
      · simpa using State.poisonUnit_wf s u h

theorem State.settle_wf (s : State) (loc n : Nat) (h : Memory.wf s.mem = true) : Memory.wf (s.settle loc n).mem = true := by
  unfold State.settle
  split
  · exact h
  · exact foldl_keeps (fun t => Memory.wf t.mem = true) _ (fun t a ht => State.settleUnit_wf t a ht) _ _ h

theorem storeTag_mem (ps : List Piece) (s : State) (k : Nat) : (storeTag ps s k).mem = s.mem := by
  unfold storeTag
  dsimp only
  split <;> rfl

theorem writePiece_wf (kept : List Nat) (s : State) (p : Piece) (h : Memory.wf s.mem = true) :
    Memory.wf (writePiece kept s p).mem = true := by
  unfold writePiece
  split
  · exact wf_write _ _ _ h
  · refine foldl_keeps (fun t => Memory.wf t.mem = true) _ ?_ _ _ h
    intro t b ht
    dsimp only
    split
    · exact ht
    · exact wf_write _ _ _ ht

theorem State.store_wf (s : State) (ps : List Piece) (h : Memory.wf s.mem = true) : Memory.wf (s.store ps).mem = true := by
  unfold State.store
  refine foldl_keeps (fun t => Memory.wf t.mem = true) _ (fun t k ht => by rw [storeTag_mem]; exact ht) _ _ ?_
  refine foldl_keeps (fun t => Memory.wf t.mem = true) _ (fun t p ht => writePiece_wf _ t p ht) _ _ ?_
  exact foldl_keeps (fun t => Memory.wf t.mem = true) State.clearPoison (fun t k ht => ht) _ _ h

/-- A store keeps the canonical form. -/
theorem State.storeAll_wf (s : State) (ps : List Piece) (h : Memory.wf s.mem = true) : Memory.wf (s.storeAll ps).mem = true := by
  unfold State.storeAll State.settleStore
  refine State.store_wf _ _ ?_
  split
  · exact h
  · exact foldl_keeps (fun t => Memory.wf t.mem = true) _ (fun t k ht => State.settleUnit_wf t k ht) _ _ h

/-- Wiping keeps the canonical form. -/
theorem State.wipe_wf (s : State) (loc n : Nat) (h : Memory.wf s.mem = true) : Memory.wf (s.wipe loc n).mem = true :=
  wf_filter _ _ h

end Sys2Proof.Machine
end

