-- ==== Sys2Proof/Laws/Registers.lean ====
section
/-!
SUPPORT. Strands, threads and registers: what each update leaves.
-/

namespace Sys2Proof.Machine

/-! ### Strands -/

/-- The strand is listed. -/
def State.has (s : State) (u : Nat) : Prop := (sfind s.strands u).isSome

theorem strand_modStrand (s : State) (u x : Nat) (f : Strand → Strand) :
    (s.modStrand u f).strand x = if x = u ∧ (sfind s.strands u).isSome then f (s.strand u) else s.strand x := by
  simp [State.strand, sget_smod]

@[simp] theorem strand_modStrand_ne (s : State) (u x : Nat) (f : Strand → Strand) (h : x ≠ u) :
    (s.modStrand u f).strand x = s.strand x := by simp [strand_modStrand, h]

theorem strand_modStrand_self (s : State) (u : Nat) (f : Strand → Strand) (h : s.has u) :
    (s.modStrand u f).strand u = f (s.strand u) := by
  unfold State.has at h
  simp [strand_modStrand, h]

theorem has_modStrand (s : State) (u x : Nat) (f : Strand → Strand) : (s.modStrand u f).has x ↔ s.has x := by
  unfold State.has
  rw [State.modStrand_strands, sfind_smod]
  split <;> simp_all

@[simp] theorem strand_newId (s : State) (x : Nat) : s.newId.2.strand x = s.strand x := rfl
@[simp] theorem strand_stopRun (s : State) (x : Nat) : (stopRun s).strand x = s.strand x := rfl
@[simp] theorem strand_modLaunch (s : State) (l x : Nat) (f : Launch → Launch) : (s.modLaunch l f).strand x = s.strand x := rfl
@[simp] theorem strand_modContext (s : State) (c x : Nat) (f : Context → Context) : (s.modContext c f).strand x = s.strand x := rfl
@[simp] theorem strand_setCore (s : State) (c x : Nat) (k : Core) : (s.setCore c k).strand x = s.strand x := rfl
@[simp] theorem strand_write (s : State) (l : Nat) (bs : List Byte) (x : Nat) : (s.write l bs).strand x = s.strand x := rfl

/-! ### Threads -/

theorem thread_mapIdx (st : Strand) (f : Nat → Thread → Thread) (i : Nat) (h : i < st.threads.length) :
    ({ st with threads := st.threads.mapIdx f } : Strand).thread i = f i (st.thread i) := by
  simp [Strand.thread, List.getD_eq_getElem?_getD, List.getElem?_mapIdx, h]

theorem thread_out (st : Strand) (i : Nat) (h : ¬ i < st.threads.length) : st.thread i = default := by
  simp [Strand.thread, List.getD_eq_getElem?_getD, h]

theorem thread_modThreads (st : Strand) (m : BitVec 32) (f : Thread → Thread) (i : Nat) :
    (st.modThreads m f).thread i = if i < st.threads.length ∧ m.getLsbD i then f (st.thread i) else st.thread i := by
  unfold Strand.modThreads
  by_cases h : i < st.threads.length
  · rw [thread_mapIdx _ _ _ h]; simp [h]
  · rw [if_neg (by simp [h]), thread_out st i h]
    simp [Strand.thread, List.getD_eq_getElem?_getD, h]

@[simp] theorem modThreads_length (st : Strand) (m : BitVec 32) (f : Thread → Thread) :
    (st.modThreads m f).threads.length = st.threads.length := by simp [Strand.modThreads]

theorem modThreads_s (st : Strand) (m : BitVec 32) (f : Thread → Thread) : (st.modThreads m f).s = st.s := rfl

/-- A thread that is live stands in the list. -/
theorem lt_of_live (st : Strand) (i : Nat) (h : (st.thread i).live = true) : i < st.threads.length := by
  by_contra hn
  rw [thread_out st i hn] at h
  exact absurd h (by decide)

/-! ### Masks -/

theorem mem_maskBits (m : BitVec 32) (i : Nat) : i ∈ maskBits m ↔ m.getLsbD i = true := by
  constructor
  · intro h; exact (List.mem_filter.1 h).2
  · intro h
    refine List.mem_filter.2 ⟨List.mem_range.2 ?_, h⟩
    by_contra hn
    rw [BitVec.getLsbD_of_ge m i (by omega)] at h
    exact absurd h (by decide)

theorem getLsbD_maskOf (l : List Nat) (i : Nat) : (maskOf l).getLsbD i = (decide (i < 32) && l.contains i) := by
  have key : ∀ (l : List Nat) (m : BitVec 32),
      (l.foldl (fun m i => m ||| BitVec.twoPow 32 i) m).getLsbD i = (m.getLsbD i || (decide (i < 32) && l.contains i)) := by
    intro l
    induction l with
    | nil => simp
    | cons a l ih =>
      intro m
      rw [List.foldl_cons, ih]
      have e : (decide (a < 32) && decide (a = i)) = (decide (i < 32) && (i == a)) := by
        by_cases ha : a = i
        · subst ha; simp
        · simp [ha, Ne.symm ha]
      simp only [BitVec.getLsbD_or, BitVec.getLsbD_twoPow, List.contains_cons, e, Bool.or_assoc, Bool.and_or_distrib_left]
  unfold maskOf
  rw [key]
  simp

theorem getLsbD_liveMask (st : Strand) (i : Nat) :
    st.liveMask.getLsbD i = (decide (i < 32) && (st.thread i).live) := by
  unfold Strand.liveMask
  rw [getLsbD_maskOf]
  by_cases h : i < 32
  · cases hl : (st.thread i).live
    · simp [h, hl]
    · have := lt_of_live st i hl
      simp [h, hl, this]
  · simp [h]

theorem mem_byLane (st : Strand) (m : BitVec 32) (i : Nat) (h : i ∈ st.byLane m) :
    m.getLsbD i = true ∧ i < st.threads.length := by
  unfold Strand.byLane at h
  obtain ⟨l, _, hf⟩ := List.mem_filterMap.1 h
  have h1 := List.find?_some hf
  have h2 := List.mem_of_find?_eq_some hf
  simp only [Bool.and_eq_true, decide_eq_true_eq] at h1
  exact ⟨(mem_maskBits m i).1 h2, h1.2⟩

/-! ### Register words -/

theorem writeWords_get (m : Sparse TWord) (d : Nat) (ws : List Word) (tag : Tag) (c : Nat) (hc : c ≠ 0) :
    sget {} (writeWords m d ws tag) c =
      if h : d ≤ c ∧ c < d + ws.length then { val := ws[c - d]'(by omega), tag := tag } else sget {} m c := by
  unfold writeWords
  induction ws generalizing d m with
  | nil => simp
  | cons w ws ih =>
    rw [List.zipIdx_cons, List.foldl_cons, ih]
    by_cases h1 : d + 1 ≤ c ∧ c < d + 1 + ws.length
    · have h2 : d ≤ c ∧ c < d + (w :: ws).length := by simp; omega
      have h3 : c - d = (c - (d + 1)) + 1 := by omega
      rw [dif_pos h1, dif_pos h2]
      simp [h3]
    · rw [dif_neg h1]
      by_cases hd : c = d
      · subst hd
        have h2 : c ≤ c ∧ c < c + (w :: ws).length := by simp
        rw [dif_pos h2]
        simp [hc, sget_sput]
      · have h2 : ¬ (d ≤ c ∧ c < d + (w :: ws).length) := by simp; omega
        rw [dif_neg h2]
        split
        · rfl
        · rw [sget_sput]; simp [hd]

theorem predBit_setPred (p : BitVec 8) (d c : Nat) (b : Bool) (hc : c < 8) :
    predBit (setPred p d b) c = if c = d ∧ d ≠ 7 then b else predBit p c := by
  unfold predBit setPred
  by_cases hd : d = 7
  · subst hd
    simp
  · by_cases h7 : c = 7
    · subst h7
      have : ¬ (7 = d) := by omega
      simp [hd, this]
    · cases b <;> by_cases hcd : c = d <;>
        simp_all [BitVec.getLsbD_twoPow, BitVec.getLsbD_not]

end Sys2Proof.Machine
end

