-- ==== Sys2Proof/Laws/Issue.lean ====
section
/-!
SUPPORT. Issuing: what the checks before execution leave of a state in which nothing holds the instruction back, and what
completing an instruction leaves.
-/

namespace Sys2Proof.Machine

/-! ### Strands that agree but for their regions, pcs and windows -/

/-- The registers and the flow of two strands agree. -/
structure Agree (a b : Strand) : Prop where
  s : b.s = a.s
  k : b.k = a.k
  q : b.q = a.q
  acc : b.acc = a.acc ∧ b.rowmax = a.rowmax ∧ b.rowsum = a.rowsum
  launch : b.launch = a.launch
  regs : b.regs = a.regs
  prot : b.prot = a.prot
  sys : b.sys = a.sys
  peers : b.peers = a.peers
  spans : b.spans = a.spans
  trap : b.trap = a.trap
  ctl : b.ctl = { a.ctl with rctl := b.ctl.rctl, chki := b.ctl.chki }
  ids : b.skein = a.skein ∧ b.idx = a.idx ∧ b.sid = a.sid ∧ b.core = a.core ∧ b.part = a.part ∧ b.slot = a.slot ∧ b.cont = a.cont
  len : b.threads.length = a.threads.length
  v : ∀ i, (b.thread i).v = (a.thread i).v
  p : ∀ i, (b.thread i).p = (a.thread i).p
  lane : ∀ i, (b.thread i).lane = (a.thread i).lane
  live : ∀ i, (b.thread i).live = (a.thread i).live
  exited : ∀ i, (a.thread i).exited = false → (b.thread i).exited = false
  stack : ∀ i, (a.thread i).exited = false → (b.thread i).stack = (a.thread i).stack

theorem Agree.refl (a : Strand) : Agree a a := by constructor <;> simp

theorem Agree.trans {a b c : Strand} (h : Agree a b) (g : Agree b c) : Agree a c where
  s := g.s.trans h.s
  k := g.k.trans h.k
  q := g.q.trans h.q
  acc := ⟨g.acc.1.trans h.acc.1, g.acc.2.1.trans h.acc.2.1, g.acc.2.2.trans h.acc.2.2⟩
  launch := g.launch.trans h.launch
  regs := g.regs.trans h.regs
  prot := g.prot.trans h.prot
  sys := g.sys.trans h.sys
  peers := g.peers.trans h.peers
  spans := g.spans.trans h.spans
  trap := g.trap.trans h.trap
  ctl := by rw [g.ctl, h.ctl]
  ids := by simp only [g.ids, h.ids, and_self]
  len := g.len.trans h.len
  v := fun i => (g.v i).trans (h.v i)
  p := fun i => (g.p i).trans (h.p i)
  lane := fun i => (g.lane i).trans (h.lane i)
  live := fun i => (g.live i).trans (h.live i)
  exited := fun i hl => g.exited i (h.exited i hl)
  stack := fun i hl => (g.stack i (h.exited i hl)).trans (h.stack i hl)

theorem Agree.liveMask {a b : Strand} (h : Agree a b) : b.liveMask = a.liveMask := by
  apply BitVec.eq_of_getLsbD_eq
  intro i _
  rw [getLsbD_liveMask, getLsbD_liveMask, h.live]

theorem Agree.byLane {a b : Strand} (h : Agree a b) (m : BitVec 32) : b.byLane m = a.byLane m := by
  unfold Strand.byLane
  simp only [h.lane, h.len]

theorem Agree.laneMask {a b : Strand} (h : Agree a b) (l : List Nat) : b.laneMask l = a.laneMask l := by
  unfold Strand.laneMask
  simp only [h.lane, h.prot]

theorem Agree.active {a b : Strand} (h : Agree a b) (op : Nat) (r : Raw) (m : BitVec 32) :
    activeThreads b op r m = activeThreads a op r m := by
  have hg : guardOf b op r = guardOf a op r := by
    funext i
    unfold guardOf
    rw [h.k, h.p]
  unfold activeThreads
  rw [hg, h.byLane]

theorem Agree.queues {a b : Strand} (h : Agree a b) (us : List Use) : queuesReady b us = queuesReady a us := by
  unfold queuesReady
  rw [h.q]

/-- Threads changed only in what `Agree` does not see. -/
theorem agree_modThreads (st : Strand) (m : BitVec 32) (f : Thread → Thread) (hv : ∀ t, (f t).v = t.v) (hp : ∀ t, (f t).p = t.p)
    (hl : ∀ t, (f t).lane = t.lane) (hi : ∀ t, (f t).live = t.live)
    (hs : ∀ i, m.getLsbD i → (st.thread i).exited = false →
      (f (st.thread i)).exited = false ∧ (f (st.thread i)).stack = (st.thread i).stack) :
    Agree st (st.modThreads m f) where
  s := rfl
  k := rfl
  q := rfl
  acc := ⟨rfl, rfl, rfl⟩
  launch := rfl
  regs := rfl
  prot := rfl
  sys := rfl
  peers := rfl
  spans := rfl
  trap := rfl
  ctl := rfl
  ids := ⟨rfl, rfl, rfl, rfl, rfl, rfl, rfl⟩
  len := by simp
  v := fun i => by rw [thread_modThreads]; split <;> simp [hv]
  p := fun i => by rw [thread_modThreads]; split <;> simp [hp]
  lane := fun i => by rw [thread_modThreads]; split <;> simp [hl]
  live := fun i => by rw [thread_modThreads]; split <;> simp [hi]
  exited := fun i h => by
    rw [thread_modThreads]
    split
    · next hc => exact (hs i hc.2 h).1
    · exact h
  stack := fun i h => by
    rw [thread_modThreads]
    split
    · next hc => exact (hs i hc.2 h).2
    · rfl

/-! ### Closing and opening regions -/

/-- Only exited threads close with others (R159). -/
theorem boundTo_exited (st : Strand) (m : BitVec 32) (i : Nat) (h : (st.boundTo m).getLsbD i = true) :
    (st.thread i).exited = true := by
  unfold Strand.boundTo at h
  dsimp only at h
  split at h
  · simp at h
  · next hne =>
    have key : ∀ b : BitVec 32, (maskOf ((maskBits (maskOf ((List.range st.threads.length).filter fun i => (st.thread i).exited))).filter
        fun i => ((st.thread i).bound &&& (maskOf ((maskBits m).filter fun i => (st.thread i).intr.isNone) ||| b)) != 0)).getLsbD i = true →
        (st.thread i).exited = true := by
      intro b hb
      rw [getLsbD_maskOf] at hb
      simp only [Bool.and_eq_true, decide_eq_true_eq, List.contains_eq_mem] at hb
      have := (mem_maskBits _ i).1 (List.mem_filter.1 hb.2).1
      rw [getLsbD_maskOf] at this
      simp only [Bool.and_eq_true, decide_eq_true_eq, List.contains_eq_mem] at this
      exact (List.mem_filter.1 this.2).2
    have fold : ∀ (l : List Nat) (b : BitVec 32), (b.getLsbD i = true → (st.thread i).exited = true) →
        (l.foldl (fun b _ => maskOf ((maskBits (maskOf ((List.range st.threads.length).filter fun i => (st.thread i).exited))).filter
        fun i => ((st.thread i).bound &&& (maskOf ((maskBits m).filter fun i => (st.thread i).intr.isNone) ||| b)) != 0)) b).getLsbD i = true →
        (st.thread i).exited = true := by
      intro l
      induction l with
      | nil => intro b hb; exact hb
      | cons a l ih => intro b _; exact ih _ (key b)
    exact fold _ _ (key 0) h

theorem agree_chki (st : Strand) (n : Nat) : Agree st (st.chkiEvent n) := by constructor <;> intros <;> first | trivial | exact ⟨rfl, rfl, rfl, rfl, rfl, rfl, rfl⟩

theorem agree_setReent (st : Strand) (n : Nat) : Agree st (st.setReent n) := by constructor <;> intros <;> first | trivial | exact ⟨rfl, rfl, rfl, rfl, rfl, rfl, rfl⟩

theorem agree_regions (st : Strand) (l : List Region) : Agree st { st with regions := l } := by
  constructor <;> intros <;> first | trivial | exact ⟨rfl, rfl, rfl, rfl, rfl, rfl, rfl⟩

theorem agree_stores (st : Strand) (b c : List BufStore) (r w : List Nat) :
    Agree st { st with buf := b, cq := c, reserved := r, redraw := w } := by
  constructor <;> intros <;> first | trivial | exact ⟨rfl, rfl, rfl, rfl, rfl, rfl, rfl⟩

theorem agree_ended (st : Strand) (m : BitVec 32) (h : ∀ i, m.getLsbD i = true → (st.thread i).exited = true) :
    Agree st (st.modThreads m fun t => { t with exited := false, ended := true, stack := [], bound := 0, region := 0 }) :=
  agree_modThreads _ _ _ (fun _ => rfl) (fun _ => rfl) (fun _ => rfl) (fun _ => rfl)
    fun i hb he => absurd (h i hb) (by simp [he])

theorem agree_recovered (st : Strand) (c : Bool) : Agree st (if c then st.chkiEvent 2 else st) := by
  cases c
  · exact Agree.refl st
  · exact agree_chki st 2

theorem thread_recovered (st : Strand) (c : Bool) (i : Nat) :
    ((if c then st.chkiEvent 2 else st).thread i) = st.thread i := by cases c <;> rfl

theorem closeThreads_agree (s : State) (u : Nat) (m : BitVec 32) (own : Nat) (h : s.has u) :
    Agree (s.strand u) ((closeThreads s u m own).strand u) := by
  unfold closeThreads
  dsimp only
  rw [strand_modStrand_self]
  · refine Agree.trans (b := Strand.setReent _ 0) ?_ (agree_stores _ _ _ _ _)
    refine Agree.trans ?_ (agree_setReent _ _)
    refine Agree.trans ?_ (agree_ended _ _ ?_)
    · exact Agree.trans (agree_recovered _ _) (agree_regions _ _)
    · intro i hb
      have := boundTo_exited _ _ i hb
      rw [← thread_recovered] at this
      exact this
  · exact h

theorem agree_prune (st : Strand) : Agree st st.pruneRegions := agree_regions _ _

theorem openRegionAs_agree (s : State) (u : Nat) (m : BitVec 32) (pc : BitVec 62) (own : Bool) (id : Nat) (h : s.has u) :
    Agree (s.strand u) ((openRegionAs s u m pc own id).strand u) := by
  unfold openRegionAs
  dsimp only
  rw [strand_modStrand_self _ _ _ h]
  refine Agree.trans ?_ (agree_prune _)
  refine Agree.trans ?_ (agree_regions _ _)
  exact agree_modThreads _ _ _ (fun _ => rfl) (fun _ => rfl) (fun _ => rfl) (fun _ => rfl) fun _ _ h => ⟨h, rfl⟩

theorem openRegion_agree (s : State) (u : Nat) (m : BitVec 32) (pc : BitVec 62) (own : Bool) (h : s.has u) :
    Agree (s.strand u) ((openRegion s u m pc own).strand u) :=
  openRegionAs_agree s.newId.2 u m pc own s.newId.1 h

/-! ### The rest of the state -/

/-- Nothing but strand `u` and the model's numbers differs. -/
structure Beside (u : Nat) (s t : State) : Prop where
  mem : t.mem = s.mem
  tags : t.tags = s.tags
  poison : t.poison = s.poison
  launches : t.launches = s.launches
  contexts : t.contexts = s.contexts
  others : ∀ x, x ≠ u → t.strand x = s.strand x
  cores : t.cores = s.cores
  skeins : t.skeins = s.skeins
  sec : t.sec = s.sec
  has : t.has u ↔ s.has u

theorem Beside.refl (u : Nat) (s : State) : Beside u s s := by constructor <;> simp

theorem Beside.trans {u : Nat} {s t r : State} (h : Beside u s t) (g : Beside u t r) : Beside u s r where
  mem := g.mem.trans h.mem
  tags := g.tags.trans h.tags
  poison := g.poison.trans h.poison
  launches := g.launches.trans h.launches
  contexts := g.contexts.trans h.contexts
  others := fun x hx => (g.others x hx).trans (h.others x hx)
  cores := g.cores.trans h.cores
  skeins := g.skeins.trans h.skeins
  sec := g.sec.trans h.sec
  has := g.has.trans h.has

theorem beside_modStrand (s : State) (u : Nat) (f : Strand → Strand) : Beside u s (s.modStrand u f) := by
  constructor <;> try rfl
  · exact fun x hx => strand_modStrand_ne s u x f hx
  · exact has_modStrand s u u f

theorem beside_uid (s : State) (u n : Nat) : Beside u s { s with uid := n } := by constructor <;> intros <;> rfl

theorem beside_cur (s : State) (u : Nat) (c : Option Run) : Beside u s { s with cur := c } := by
  constructor <;> intros <;> rfl

theorem closeThreads_beside (s : State) (u : Nat) (m : BitVec 32) (own : Nat) : Beside u s (closeThreads s u m own) :=
  (beside_uid s u _).trans (beside_modStrand _ _ _)

theorem openRegionAs_beside (s : State) (u : Nat) (m : BitVec 32) (pc : BitVec 62) (own : Bool) (id : Nat) :
    Beside u s (openRegionAs s u m pc own id) := beside_modStrand _ _ _

theorem openRegion_beside (s : State) (u : Nat) (m : BitVec 32) (pc : BitVec 62) (own : Bool) :
    Beside u s (openRegion s u m pc own) := (beside_uid s u _).trans (beside_modStrand _ _ _)

/-! ### Where threads stand -/

/-- No thread has moved. -/
def Stay (a b : Strand) : Prop := ∀ i, (b.thread i).pc = (a.thread i).pc

theorem stay_modThreads (st : Strand) (m : BitVec 32) (f : Thread → Thread) (h : ∀ t, (f t).pc = t.pc) : Stay st (st.modThreads m f) := by
  intro i
  rw [thread_modThreads]
  split <;> simp [h]

theorem stay_recovered (st : Strand) (c : Bool) : Stay st (if c then st.chkiEvent 2 else st) := by
  cases c <;> exact fun _ => rfl

theorem Stay.trans {a b c : Strand} (h : Stay a b) (g : Stay b c) : Stay a c := fun i => (g i).trans (h i)

theorem closeThreads_stay (s : State) (u : Nat) (m : BitVec 32) (own : Nat) (h : s.has u) :
    Stay (s.strand u) ((closeThreads s u m own).strand u) := by
  unfold closeThreads
  dsimp only
  rw [strand_modStrand_self]
  case h => exact h
  have h1 := fun (st : Strand) (l : List Region) (m : BitVec 32) =>
    stay_modThreads { st with regions := l } m
      (fun t => { t with exited := false, ended := true, stack := [], bound := 0, region := 0 }) fun _ => rfl
  intro i
  exact (h1 _ _ _ i).trans (stay_recovered (s.strand u) _ i)

theorem openRegionAs_stay (s : State) (u : Nat) (m : BitVec 32) (pc : BitVec 62) (own : Bool) (id : Nat) (h : s.has u) :
    Stay (s.strand u) ((openRegionAs s u m pc own id).strand u) := by
  unfold openRegionAs
  dsimp only
  rw [strand_modStrand_self _ _ _ h]
  exact fun i => stay_modThreads (s.strand u) m (fun t => { t with region := id }) (fun _ => rfl) i

/-! ### Entering and leaving a boundary -/

/-- Strand `u` keeps its registers and flow, its threads where they stand; nothing else of the machine changes. -/
structure Quiet (u : Nat) (s t : State) : Prop where
  agree : Agree (s.strand u) (t.strand u)
  stay : Stay (s.strand u) (t.strand u)
  beside : Beside u s t

theorem Quiet.refl (u : Nat) (s : State) : Quiet u s s := ⟨Agree.refl _, fun _ => rfl, Beside.refl u s⟩

theorem Quiet.trans {u : Nat} {s t r : State} (h : Quiet u s t) (g : Quiet u t r) : Quiet u s r :=
  ⟨h.agree.trans g.agree, h.stay.trans g.stay, h.beside.trans g.beside⟩

theorem closeThreads_quiet (s : State) (u : Nat) (m : BitVec 32) (own : Nat) (h : s.has u) : Quiet u s (closeThreads s u m own) :=
  ⟨closeThreads_agree s u m own h, closeThreads_stay s u m own h, closeThreads_beside s u m own⟩

theorem openRegionAs_quiet (s : State) (u : Nat) (m : BitVec 32) (pc : BitVec 62) (own : Bool) (id : Nat) (h : s.has u) :
    Quiet u s (openRegionAs s u m pc own id) :=
  ⟨openRegionAs_agree s u m pc own id h, openRegionAs_stay s u m pc own id h, openRegionAs_beside s u m pc own id⟩

theorem newId_quiet (s : State) (u : Nat) : Quiet u s s.newId.2 := ⟨Agree.refl _, fun _ => rfl, beside_uid s u _⟩

theorem openRegion_quiet (s : State) (u : Nat) (m : BitVec 32) (pc : BitVec 62) (own : Bool) (h : s.has u) :
    Quiet u s (openRegion s u m pc own) := (newId_quiet s u).trans (openRegionAs_quiet s.newId.2 u m pc own _ h)

theorem enterBoundary_quiet (s : State) (p : Site) (h : s.has p.u) : Quiet p.u s (enterBoundary s p) := by
  unfold enterBoundary
  split
  · exact Quiet.refl _ _
  · have h1 := (newId_quiet s p.u).trans (closeThreads_quiet s.newId.2 p.u p.mask s.newId.1 h)
    exact h1.trans (openRegionAs_quiet _ _ _ _ _ _ (h1.beside.has.2 h))

theorem opened_quiet (u : Nat) (l : List (BitVec 62 × BitVec 32)) (s : State) (h : s.has u) :
    Quiet u s (l.foldl (fun s g => openRegion s u g.2 g.1 false) s) := by
  induction l generalizing s with
  | nil => exact Quiet.refl _ _
  | cons g l ih =>
    have hq := openRegion_quiet s u g.2 g.1 false h
    exact hq.trans (ih _ (hq.beside.has.2 h))

theorem leaveBoundary_quiet (s : State) (u : Nat) (m : BitVec 32) (h : s.has u) : Quiet u s (leaveBoundary s u m) := by
  have h1 := (newId_quiet s u).trans (closeThreads_quiet s.newId.2 u m s.newId.1 h)
  exact h1.trans (opened_quiet u _ _ (h1.beside.has.2 h))

theorem stopRun_quiet (s : State) (u : Nat) : Quiet u s (stopRun s) := ⟨Agree.refl _, fun _ => rfl, beside_cur s u _⟩

theorem thread_mapped (st : Strand) (f : Nat → Thread → Thread) (i : Nat) :
    Strand.thread { st with threads := st.threads.mapIdx f } i = if i < st.threads.length then f i (st.thread i) else default := by
  split
  · next h => exact thread_mapIdx st f i h
  · next h => exact thread_out _ _ (by simpa using h)

/-- Threads changed in their windows alone. -/
theorem quiet_outs (s : State) (u : Nat) (f : Nat → Thread → List Outst) (h : s.has u) :
    Quiet u s (s.modStrand u fun st => { st with threads := st.threads.mapIdx fun i t => { t with outs := f i t } }) := by
  have key : ∀ i, ∃ o, Strand.thread { s.strand u with threads := (s.strand u).threads.mapIdx fun i t => { t with outs := f i t } } i =
      { (s.strand u).thread i with outs := o } := by
    intro i
    rw [thread_mapped]
    split
    · exact ⟨_, rfl⟩
    · next hn => exact ⟨[], by rw [thread_out _ _ hn]; rfl⟩
  refine ⟨?_, ?_, beside_modStrand _ _ _⟩
  · rw [strand_modStrand_self _ _ _ h]
    constructor <;> intros <;> first | trivial | exact List.length_mapIdx | exact ⟨rfl, rfl, rfl, rfl, rfl, rfl, rfl⟩ | skip
    all_goals (obtain ⟨o, ho⟩ := key ‹Nat›; rw [ho]; try trivial)
  · rw [strand_modStrand_self _ _ _ h]
    intro i
    obtain ⟨o, ho⟩ := key i
    rw [ho]

theorem windows_quiet (s : State) (cx : Cx) (us : List Use) (taken : BitVec 32) (h : s.has cx.u) : Quiet cx.u s (windows s cx us taken) := by
  have := quiet_outs s.newId.2 cx.u (fun i t =>
    if cx.mask.getLsbD i then
      if (isLong cx.op && !cx.act.isEmpty) && (if isUniform cx.op then cx.mask else maskOf cx.act).getLsbD i then
        (t.outs.map fun w => { w with left := if taken.getLsbD i then some 0 else w.left.map (· - 1) }) ++
          [{ id := s.newId.1, left := if cx.raw.la = 15 then none else some cx.raw.la, regs := touched (us.filter (·.wr)) }]
      else t.outs.map fun w => { w with left := if taken.getLsbD i then some 0 else w.left.map (· - 1) }
    else t.outs) h
  refine (newId_quiet s cx.u).trans ?_
  convert this using 2
  unfold windows
  dsimp only
  congr 1
  funext st
  congr 2
  funext i t
  split <;> [split <;> rfl; rfl]

/-! ### Nothing holds the instruction back -/

/-- Reading registers that hold no raw check bits changes nothing (R357). -/
theorem settleRegs_sound (s : State) (u : Nat) (m : BitVec 32) (f g : Nat → Bool) (h : (s.strand u).sound = true) :
    s.settleRegs u m f g = s := by
  unfold State.settleRegs
  unfold Strand.sound at h
  dsimp only at h ⊢
  exact if_pos h

theorem threads_of_thread (st : Strand) (t : Thread) (h : t ∈ st.threads) : ∃ i, i < st.threads.length ∧ st.thread i = t := by
  obtain ⟨i, hi, rfl⟩ := List.getElem_of_mem h
  exact ⟨i, hi, by simp [Strand.thread, List.getD, hi]⟩

theorem Agree.sound {a b : Strand} (h : Agree a b) (hs : a.sound = true) : b.sound = true := by
  unfold Strand.sound at hs ⊢
  dsimp only at hs ⊢
  rw [h.s]
  simp only [Bool.not_eq_true', Bool.or_eq_false_iff, List.any_eq_false] at hs ⊢
  refine ⟨hs.1, fun t ht => ?_⟩
  obtain ⟨i, hi, rfl⟩ := threads_of_thread b t ht
  rw [h.len] at hi
  rw [h.v]
  exact hs.2 (a.thread i) (by simp [Strand.thread, List.getD, hi])

/-- What a fragment at issue is (R57): some of its strand's live threads. -/
theorem issuing_spec (s : State) (u : Nat) (m : BitVec 32) (h : issuing s = some (u, m)) :
    m ≠ 0 ∧ ∀ i, m.getLsbD i = true → ((s.strand u).thread i).live = true := by
  unfold issuing at h
  cases hc : s.cur with
  | none => simp [hc] at h
  | some r =>
    simp only [hc, Option.bind_some] at h
    cases hf : r.frags[r.j]? with
    | none => simp [hf] at h
    | some f =>
      simp only [hf, Option.bind_some] at h
      split at h
      · simp at h
      · next hne =>
        simp only [Option.some.injEq, Prod.mk.injEq] at h
        obtain ⟨rfl, rfl⟩ := h
        refine ⟨hne, fun i hi => ?_⟩
        simp only [BitVec.getLsbD_and, Bool.and_eq_true] at hi
        have := hi.2
        rw [getLsbD_liveMask] at this
        simp only [Bool.and_eq_true] at this
        exact this.2

theorem issuing_has (s : State) (u : Nat) (m : BitVec 32) (h : issuing s = some (u, m)) : s.has u := by
  obtain ⟨hne, hl⟩ := issuing_spec s u m h
  by_contra hn
  apply hne
  apply BitVec.eq_of_getLsbD_eq
  intro i hi
  by_contra hb
  have hb : m.getLsbD i = true := by simpa using hb
  have := hl i hb
  have hd : s.strand u = default := by
    unfold State.has sfind at hn
    unfold State.strand sget
    cases hh : s.strands.lookup u with
    | none => rfl
    | some x => simp [hh] at hn
  rw [hd] at this
  simp [Strand.thread, default, instInhabitedStrand.default, instInhabitedThread.default] at this

theorem mustWait_nil (t : Thread) (rs : List (Nat × Nat)) (all : Bool) (h : t.outs = []) : mustWait t rs all = false := by
  simp [mustWait, h]

theorem checkEarlier_nil (s : State) (p : Site) (h : (s.strand p.u).cq = []) : checkEarlier s p = s := by
  simp [checkEarlier, commitPass, h]

theorem dueFaults_nil (st : Strand) (m : BitVec 32) (id : Option Nat) (h : st.stFaults = []) : dueFaults st m id = [] := by
  simp [dueFaults, h]

theorem entered_quiet (i : Instr) (s : State) (u : Nat) (m : BitVec 32) (h : s.has u) : Quiet u s (entered i s u m) := by
  unfold entered
  dsimp only
  split
  · exact enterBoundary_quiet s (siteOf s u m i i.op i.fields) h
  · exact Quiet.refl u s

theorem Agree.tctl {a b : Strand} (h : Agree a b) : b.ctl.tctl = a.ctl.tctl := by rw [h.ctl]

theorem Agree.fctl {a b : Strand} (h : Agree a b) : b.ctl.fctl = a.ctl.fctl := by rw [h.ctl]

theorem Agree.ruleOf {a b : Strand} (h : Agree a b) (op tr : Nat) : Machine.ruleOf b op tr = Machine.ruleOf a op tr := by
  unfold Machine.ruleOf
  rw [h.tctl]

theorem Agree.siteTag {s t : State} {a b : Strand} (h : Agree a b) (hl : t.launches = s.launches) (pc : BitVec 62) :
    Machine.siteTag t b pc = Machine.siteTag s a pc := by
  unfold Machine.siteTag Strand.shift State.launch
  rw [h.tctl, h.launch, hl]

/-- The gate is open where nothing holds the instruction back. -/
theorem gate_ready (i : Instr) (s : State) (u : Nat) (m : BitVec 32) (h : Ready i s u m) :
    gate i.op i.fields i.uses (siteOf s u m i i.op i.fields) s =
      .go (contextOf i s u m) (entered i s u m) := by
  have hu : (siteOf s u m i i.op i.fields).u = u := rfl
  have hm : (siteOf s u m i i.op i.fields).mask = m := rfl
  have hb : (siteOf s u m i i.op i.fields).boundary = isBoundary i.op i.uses := rfl
  have hq := entered_quiet i s u m (issuing_has s u m h.atIssue)
  have hw : ((maskBits m).any fun j => mustWait ((s.strand u).thread j) (touched i.uses) (waitsAll i.op i.uses)) = false := by
    rw [List.any_eq_false]
    intro j hj
    rw [mustWait_nil _ _ _ (h.returned j ((mem_maskBits m j).1 hj))]
    simp
  have hp : peersDue (s.strand u) m (touched i.uses) (waitsAll i.op i.uses) = false := by simp [peersDue, h.noPeers]
  unfold gate
  dsimp only
  rw [hu, hm, hb, h.allowed]
  dsimp only
  rw [hw, hp]
  simp only [Bool.false_eq_true, ↓reduceIte]
  have he : (if isBoundary i.op i.uses then checkEarlier s (siteOf s u m i i.op i.fields) else s) = s := by
    split
    · next hB => exact checkEarlier_nil s _ (h.settled hB).1
    · rfl
  rw [he]
  have hd : (if isBoundary i.op i.uses then dueFaults (s.strand u) m (ownRegion (s.strand u) (siteOf s u m i i.op i.fields)) else []) = [] := by
    split
    · next hB => exact dueFaults_nil _ _ _ (h.settled hB).2
    · rfl
  rw [hd]
  have hn : (if isBoundary i.op i.uses then enterBoundary s (siteOf s u m i i.op i.fields) else s) = entered i s u m := rfl
  rw [hn]
  have hc : (converges i.op i.fields && m != ((entered i s u m).strand u).liveMask) = false := by
    rw [hq.agree.liveMask]
    by_cases hcv : converges i.op i.fields = true
    · simp [h.together hcv]
    · simp [hcv]
  have ha : activeThreads ((entered i s u m).strand u) i.op i.fields m = acting i s u m := hq.agree.active _ _ _
  have hqs : queuesReady ((entered i s u m).strand u) i.uses = true := (hq.agree.queues _).trans h.queues
  rw [hc, ha, hqs, settleRegs_sound _ _ _ _ _ (hq.agree.sound h.sound)]
  simp only [List.isEmpty_nil, Bool.not_true, Bool.false_eq_true, ↓reduceIte, Bool.and_false]
  unfold contextOf
  dsimp only
  rw [hq.agree.q, hq.agree.ruleOf, hq.agree.siteTag hq.beside.launches]

/-- An instruction that nothing holds back executes: its meaning is applied, and what follows is `finish`. -/
theorem issue_ready (i : Instr) (s : State) (u : Nat) (m : BitVec 32) (body : Cx → State → Eff) (h : Ready i s u m) :
    issue i s body = .next (finish (entered i s u m) (contextOf i s u m) i.uses
      (if (acting i s u m).isEmpty then .ok (entered i s u m) else body (contextOf i s u m) (entered i s u m))) := by
  unfold issue
  rw [h.known, h.atIssue]
  dsimp only
  unfold issueAt
  have hg := gate_ready i s u m h
  unfold Instr.uses at hg
  dsimp only
  rw [hg]
  rfl

/-! ### Completion -/

/-- The strand as its instruction's completion leaves it, regions and windows apart: entries popped, the pcs moved on unless
the instruction has moved them. -/
def movedOn (st : Strand) (cx : Cx) (jumped : Bool) : Strand :=
  dropHeads (if jumped then st else st.modThreads cx.mask fun t => { t with pc := cx.next }) (cx.pops.map (·.1))

theorem quiet_stopRun_ite (s : State) (u : Nat) (c : Bool) : Quiet u s (if c then stopRun s else s) := by
  cases c
  · exact Quiet.refl _ _
  · exact stopRun_quiet _ _

theorem complete_spec (s : State) (cx : Cx) (us : List Use) (jumped : Bool) (taken : BitVec 32) (h : s.has cx.u) :
    Agree (movedOn (s.strand cx.u) cx jumped) ((complete s cx us jumped taken).strand cx.u) ∧
      Stay (movedOn (s.strand cx.u) cx jumped) ((complete s cx us jumped taken).strand cx.u) ∧
      Beside cx.u s (complete s cx us jumped taken) := by
  have h0 : (s.modStrand cx.u fun st => movedOn st cx jumped).has cx.u := (has_modStrand _ _ _ _).2 h
  have hb := beside_modStrand s cx.u fun st => movedOn st cx jumped
  have hs := strand_modStrand_self s cx.u (fun st => movedOn st cx jumped) h
  have q1 := windows_quiet _ cx us taken h0
  have h1 := q1.beside.has.2 h0
  have q2 : Quiet cx.u (windows (s.modStrand cx.u fun st => movedOn st cx jumped) cx us taken)
      (if cx.site.boundary then leaveBoundary (windows (s.modStrand cx.u fun st => movedOn st cx jumped) cx us taken) cx.u cx.mask
        else windows (s.modStrand cx.u fun st => movedOn st cx jumped) cx us taken) := by
    split
    · exact leaveBoundary_quiet _ _ _ h1
    · exact Quiet.refl _ _
  have q : Quiet cx.u (s.modStrand cx.u fun st => movedOn st cx jumped) (complete s cx us jumped taken) := by
    refine q1.trans (q2.trans ?_)
    exact quiet_stopRun_ite _ _ _
  rw [← hs]
  exact ⟨q.agree, q.stay, hb.trans q.beside⟩

/-! ### What completion leaves alone -/

theorem State.creg_eq {s t : State} {u n : Nat} (hl : t.launches = s.launches)
    (hc : (t.strand u).launch = (s.strand u).launch) (hr : (t.strand u).reserved = (s.strand u).reserved)
    (h : (t.strand u).ctl = (s.strand u).ctl) (hn : n < 0x12) (hb : n ≠ 0x0B) : t.creg u n = s.creg u n := by
  unfold State.creg ctlRead btnextOf
  simp only [h, hc, hr, State.launch, hl]
  interval_cases n <;> first | rfl | contradiction

/-- Completion changes control registers only at a boundary. -/
theorem complete_ctl (s : State) (cx : Cx) (us : List Use) (jumped : Bool) (taken : BitVec 32) (h : s.has cx.u)
    (hb : cx.site.boundary = false) :
    ((complete s cx us jumped taken).strand cx.u).ctl = (s.strand cx.u).ctl ∧
      ((complete s cx us jumped taken).strand cx.u).reserved = (s.strand cx.u).reserved := by
  unfold complete
  dsimp only
  rw [hb]
  have h0 := (has_modStrand s cx.u cx.u fun st => movedOn st cx jumped).2 h
  have key : ∀ c : Bool, (if c then stopRun (windows (s.modStrand cx.u fun st => movedOn st cx jumped) cx us taken)
      else windows (s.modStrand cx.u fun st => movedOn st cx jumped) cx us taken).strand cx.u =
      (windows (s.modStrand cx.u fun st => movedOn st cx jumped) cx us taken).strand cx.u := by
    intro c; cases c <;> rfl
  have hw : ((windows (s.modStrand cx.u fun st => movedOn st cx jumped) cx us taken).strand cx.u).ctl = (s.strand cx.u).ctl ∧
      ((windows (s.modStrand cx.u fun st => movedOn st cx jumped) cx us taken).strand cx.u).reserved = (s.strand cx.u).reserved := by
    unfold windows
    dsimp only
    rw [strand_modStrand_self]
    case h => exact h0
    have := strand_modStrand_self s cx.u (fun st => movedOn st cx jumped) h
    constructor
    · change ((s.modStrand cx.u fun st => movedOn st cx jumped).strand cx.u).ctl = _
      rw [this]
      cases jumped <;> rfl
    · change ((s.modStrand cx.u fun st => movedOn st cx jumped).strand cx.u).reserved = _
      rw [this]
      cases jumped <;> rfl
  have := key (false || taken != 0)
  exact ⟨(congrArg Strand.ctl this).trans hw.1, (congrArg Strand.reserved this).trans hw.2⟩

/-! ### What changes, composed -/

theorem Only.refl (w : Touch) (s : State) (u : Nat) : Only w s s u := by
  constructor <;> intros <;> first | rfl | exact ⟨rfl, rfl, rfl⟩ | exact ⟨fun _ => rfl, fun _ h => ⟨h, rfl⟩, rfl⟩

theorem Only.trans {w : Touch} {s t r : State} {u : Nat} (h : Only w s t u) (g : Only w t r u) : Only w s r u where
  bytes := fun l hl => (g.bytes l hl).trans (h.bytes l hl)
  tags := fun k hk => (g.tags k hk).trans (h.tags k hk)
  poison := fun l hl => (g.poison l hl).trans (h.poison l hl)
  others := fun x hx => (g.others x hx).trans (h.others x hx)
  vregs := fun i c hc => (g.vregs i c hc).trans (h.vregs i c hc)
  preds := fun i c hc => (g.preds i c hc).trans (h.preds i c hc)
  sregs := fun c hc => (g.sregs c hc).trans (h.sregs c hc)
  kpreds := fun c hc => (g.kpreds c hc).trans (h.kpreds c hc)
  cregs := fun n h1 h2 hc => (g.cregs n h1 h2 hc).trans (h.cregs n h1 h2 hc)
  queues := fun j hj => (g.queues j hj).trans (h.queues j hj)
  acc := fun ha => ⟨(g.acc ha).1.trans (h.acc ha).1, (g.acc ha).2.1.trans (h.acc ha).2.1, (g.acc ha).2.2.trans (h.acc ha).2.2⟩
  launches := fun hl => (g.launches hl).trans (h.launches hl)
  flow := fun hf => ⟨fun i => ((g.flow hf).1 i).trans ((h.flow hf).1 i),
    fun i he => ⟨((g.flow hf).2.1 i ((h.flow hf).2.1 i he).1).1,
      ((g.flow hf).2.1 i ((h.flow hf).2.1 i he).1).2.trans ((h.flow hf).2.1 i he).2⟩,
    (g.flow hf).2.2.trans (h.flow hf).2.2⟩

/-- What one touches, another touches too. -/
structure Touch.le (w x : Touch) : Prop where
  mem : ∀ l, w.mem l = true → x.mem l = true
  v : ∀ i c, w.v i c = true → x.v i c = true
  p : ∀ i c, w.p i c = true → x.p i c = true
  s : ∀ c, w.s c = true → x.s c = true
  k : ∀ c, w.k c = true → x.k c = true
  ctl : ∀ n, w.ctl n = true → x.ctl n = true
  q : ∀ j, w.q j = true → x.q j = true
  acc : w.acc = true → x.acc = true
  launches : w.launches = true → x.launches = true
  flow : w.flow = true → x.flow = true

theorem Only.mono {w x : Touch} {s t : State} {u : Nat} (h : Only w s t u) (hw : Touch.le w x) : Only x s t u := by
  have no : ∀ {a b : Bool}, (a = true → b = true) → b = false → a = false := by
    intro a b hab hb; cases a <;> simp_all
  exact ⟨fun l hl => h.bytes l (no (hw.mem l) hl), fun k hk => h.tags k fun j hj => no (hw.mem _) (hk j hj),
    fun l hl => h.poison l (no (hw.mem l) hl), h.others, fun i c hc => h.vregs i c (no (hw.v i c) hc),
    fun i c hc => h.preds i c (no (hw.p i c) hc), fun c hc => h.sregs c (no (hw.s c) hc),
    fun c hc => h.kpreds c (no (hw.k c) hc), fun n h1 h2 hc => h.cregs n h1 h2 (no (hw.ctl n) hc),
    fun j hj => h.queues j (no (hw.q j) hj), fun ha => h.acc (no hw.acc ha), fun hl => h.launches (no hw.launches hl),
    fun hf => h.flow (no hw.flow hf)⟩

/-- A strand's registers and flow kept, and its control registers but for those that `w` names. -/
theorem only_of {w : Touch} {s t : State} {u : Nat} (hb : Beside u s t) (ha : Agree (s.strand u) (t.strand u))
    (hc : ∀ n, n < 0x12 → n ≠ 0x0B → w.ctl n = false → t.creg u n = s.creg u n) : Only w s t u where
  bytes := fun l _ => by unfold State.byteAt; rw [hb.mem]
  tags := fun k _ => by unfold State.tagAt; rw [hb.tags]
  poison := fun l _ => by rw [hb.poison]
  others := hb.others
  vregs := fun i c _ => by unfold State.vreg; rw [ha.v]
  preds := fun i c _ => by unfold State.pred; rw [ha.p]
  sregs := fun c _ => by unfold State.sreg; rw [ha.s]
  kpreds := fun c _ => by unfold State.kpred; rw [ha.k]
  cregs := hc
  queues := fun j _ => by unfold State.queue; rw [ha.q]
  acc := fun _ => ha.acc
  launches := fun _ => hb.launches
  flow := fun _ => ⟨ha.live, fun i he => ⟨ha.exited i he, ha.stack i he⟩, ha.spans⟩

/-- The control registers that closing a region leaves. -/
theorem Agree.ctls {a b : Strand} (h : Agree a b) :
    b.ctl.fctl = a.ctl.fctl ∧ b.ctl.tctl = a.ctl.tctl ∧ b.ctl.crew = a.ctl.crew ∧ b.ctl.genk = a.ctl.genk ∧
      b.ctl.genc = a.ctl.genc ∧ b.ctl.tvec = a.ctl.tvec ∧ b.ctl.tfp = a.ctl.tfp ∧ b.ctl.gspan = a.ctl.gspan ∧
      b.ctl.qmap = a.ctl.qmap ∧ b.ctl.batch = a.ctl.batch ∧ b.ctl.stfq = a.ctl.stfq ∧ b.ctl.btbase = a.ctl.btbase := by
  have := h.ctl
  cases hb : b.ctl
  rw [hb] at this
  cases ha : a.ctl
  rw [ha] at this
  simp only [Ctl.mk.injEq] at this
  simp only [this, and_self]

theorem creg_agree {s t : State} {u n : Nat} (ha : Agree (s.strand u) (t.strand u)) (hn : n < 0x12)
    (h0 : n ≠ 0x0B) (h2 : n ≠ 2) (h3 : n ≠ 3) (h11 : n ≠ 0x11) : t.creg u n = s.creg u n := by
  obtain ⟨c0, c1, c4, c5, c6, c7, c8, c9, ca, cc, ce, c10⟩ := ha.ctls
  unfold State.creg ctlRead
  interval_cases n <;> first | contradiction | (dsimp only; assumption) | simp only

/-- Entering a boundary, where there is one. -/
theorem entered_only (i : Instr) (s : State) (u : Nat) (m : BitVec 32) (w : Touch) (h : s.has u)
    (hw : ∀ n, closes i n = true → w.ctl n = true) : Only w s (entered i s u m) u := by
  have hq := entered_quiet i s u m h
  refine only_of hq.beside hq.agree fun n hn h0 hc => ?_
  by_cases hb : isBoundary i.op i.uses = true
  · have hcl : ¬ closes i n = true := fun hcl => by simp [hw n hcl] at hc
    simp only [closes, hb, Bool.true_and, Bool.or_eq_true, beq_iff_eq, not_or] at hcl
    exact creg_agree hq.agree hn h0 hcl.1.1 hcl.1.2 hcl.2
  · have : entered i s u m = s := by
      unfold entered
      exact if_neg hb
    rw [this]

/-! ### An instruction from its readiness to its completion -/

/-- What a meaning has done to the state it was given: it has touched only what `w` names and has moved no thread. -/
structure Body (w : Touch) (s t : State) (u : Nat) : Prop where
  only : Only w s t u
  stay : Stay (s.strand u) (t.strand u)
  len : (t.strand u).threads.length = (s.strand u).threads.length
  has : s.has u → t.has u
  shape : (t.strand u).prot = (s.strand u).prot ∧ (t.strand u).q.length = (s.strand u).q.length ∧
    ∀ i, ((t.strand u).thread i).lane = ((s.strand u).thread i).lane

theorem Body.refl (w : Touch) (s : State) (u : Nat) : Body w s s u := ⟨Only.refl w s u, fun _ => rfl, rfl, id, rfl, rfl, fun _ => rfl⟩

theorem Body.trans {w : Touch} {s t r : State} {u : Nat} (h : Body w s t u) (g : Body w t r u) : Body w s r u :=
  ⟨h.only.trans g.only, h.stay.trans g.stay, g.len.trans h.len, fun x => g.has (h.has x), g.shape.1.trans h.shape.1,
    g.shape.2.1.trans h.shape.2.1, fun i => (g.shape.2.2 i).trans (h.shape.2.2 i)⟩

theorem Body.mono {w x : Touch} {s t : State} {u : Nat} (h : Body w s t u) (hw : Touch.le w x) : Body x s t u :=
  ⟨h.only.mono hw, h.stay, h.len, h.has, h.shape⟩

theorem queue_dropHeads (st : Strand) (js : List Nat) (j : Nat) (h : js.contains j = false) :
    (dropHeads st js).q.getD j [] = st.q.getD j [] := by
  unfold dropHeads
  simp only [List.getD_eq_getElem?_getD, List.getElem?_mapIdx]
  cases st.q[j]? with
  | none => rfl
  | some e => simp only [Option.map_some, h, Bool.false_eq_true, ↓reduceIte, Option.getD_some]

theorem movedOn_thread (st : Strand) (cx : Cx) (j : Bool) (i : Nat) :
    (movedOn st cx j).thread i =
      if !j ∧ i < st.threads.length ∧ cx.mask.getLsbD i then { st.thread i with pc := cx.next } else st.thread i := by
  cases j
  · refine (thread_modThreads st cx.mask (fun t => { t with pc := cx.next }) i).trans ?_
    simp only [Bool.not_false, true_and]
  · rw [if_neg (by simp)]
    rfl

/-- Moving on touches the queues that were popped. -/
theorem movedOn_only (s : State) (cx : Cx) (jumped : Bool) (w : Touch) (h : s.has cx.u)
    (hq : ∀ j, (cx.pops.map (·.1)).contains j = true → w.q j = true) :
    Only w s (s.modStrand cx.u fun st => movedOn st cx jumped) cx.u := by
  have hs := strand_modStrand_self s cx.u (fun st => movedOn st cx jumped) h
  have ht := movedOn_thread (s.strand cx.u) cx jumped
  refine ⟨fun _ _ => rfl, fun _ _ => rfl, fun _ _ => rfl, fun x hx => strand_modStrand_ne s cx.u x _ hx, ?_, ?_, ?_, ?_, ?_, ?_, ?_,
    fun _ => rfl, ?_⟩
  · intro i c _
    unfold State.vreg
    rw [hs, ht]
    split <;> [rfl; split <;> rfl]
  · intro i c _
    unfold State.pred
    rw [hs, ht]
    split <;> rfl
  · intro c _
    unfold State.sreg
    rw [hs]
    cases jumped <;> rfl
  · intro c _
    unfold State.kpred
    rw [hs]
    cases jumped <;> rfl
  · intro n hn h0 _
    exact State.creg_eq rfl (by rw [hs]; cases jumped <;> rfl) (by rw [hs]; cases jumped <;> rfl)
      (by rw [hs]; cases jumped <;> rfl) hn h0
  · intro j hj
    unfold State.queue
    rw [hs]
    refine (queue_dropHeads _ _ _ ?_).trans (by cases jumped <;> rfl)
    exact (by
      cases hc : (cx.pops.map (·.1)).contains j with
      | false => rfl
      | true => simp [hq j hc] at hj)
  · intro _
    rw [hs]
    cases jumped <;> exact ⟨rfl, rfl, rfl⟩
  · intro _
    rw [hs]
    refine ⟨fun i => ?_, fun i he => ?_, by cases jumped <;> rfl⟩
    · rw [ht]
      split <;> rfl
    · rw [ht]
      split <;> exact ⟨he, rfl⟩

theorem contextOf_pops (i : Instr) (s : State) (u : Nat) (m : BitVec 32) (j : Nat)
    (h : ((contextOf i s u m).pops.map (·.1)).contains j = true) : popsQ i j = true := by
  unfold contextOf at h
  dsimp only at h
  split at h
  · simp at h
  · simpa [popsQ, List.map_map, Function.comp_def] using h

/-- Completion touches the queues popped and, at a boundary, what closing regions changes. -/
theorem complete_only (s : State) (cx : Cx) (us : List Use) (jumped : Bool) (taken : BitVec 32) (w : Touch) (h : s.has cx.u)
    (hq : ∀ j, (cx.pops.map (·.1)).contains j = true → w.q j = true)
    (hc : cx.site.boundary = true → ∀ n, n = 2 ∨ n = 3 ∨ n = 0x11 → w.ctl n = true) :
    Only w s (complete s cx us jumped taken) cx.u := by
  have hm := movedOn_only s cx jumped w h hq
  obtain ⟨ha, _, hb⟩ := complete_spec s cx us jumped taken h
  have hs := strand_modStrand_self s cx.u (fun st => movedOn st cx jumped) h
  refine hm.trans (only_of ?_ (by rw [hs]; exact ha) fun n hn h0 hn0 => ?_)
  · refine ⟨hb.mem, hb.tags, hb.poison, hb.launches, hb.contexts, fun x hx => ?_, hb.cores, hb.skeins, hb.sec, ?_⟩
    · rw [hb.others x hx, strand_modStrand_ne _ _ _ _ hx]
    · rw [hb.has, has_modStrand]
  · by_cases hB : cx.site.boundary = true
    · have no : ∀ k, k = 2 ∨ k = 3 ∨ k = 0x11 → n ≠ k := by
        rintro k hk rfl
        simp [hc hB n hk] at hn0
      exact creg_agree (by rw [hs]; exact ha) hn h0 (no 2 (by simp)) (no 3 (by simp)) (no 0x11 (by simp))
    · obtain ⟨c1, c2⟩ := complete_ctl s cx us jumped taken h (by simpa using hB)
      refine State.creg_eq hb.launches ?_ ?_ ?_ hn h0
      · rw [hs]; exact ha.launch
      · rw [hs, c2]; cases jumped <;> rfl
      · rw [hs, c1]; cases jumped <;> rfl

/-- Where a meaning has done `w` and completed, the instruction as a whole has done it, and the fragment has moved on. -/
theorem ready_complete (i : Instr) (s : State) (u : Nat) (m : BitVec 32) (t : State) (w : Touch) (h : Ready i s u m)
    (hb : Body w (entered i s u m) t u) (hw : ∀ n, closes i n = true → w.ctl n = true) (hq : ∀ j, popsQ i j = true → w.q j = true) :
    Only w s (complete t (contextOf i s u m) i.uses false 0) u ∧
      Advances s (complete t (contextOf i s u m) i.uses false 0) u m (nextPc i s u m) := by
  have hs := issuing_has s u m h.atIssue
  have he := entered_quiet i s u m hs
  have ht : t.has u := hb.has (he.beside.has.2 hs)
  constructor
  · refine (entered_only i s u m w hs hw).trans (hb.only.trans ?_)
    exact complete_only t (contextOf i s u m) i.uses false 0 w ht (fun j hj => hq j (contextOf_pops i s u m j hj)) fun hB n hn => hw n (by
      have : isBoundary i.op i.uses = true := hB
      rcases hn with rfl | rfl | rfl <;> simp [closes, this])
  · obtain ⟨_, hst, _⟩ := complete_spec t (contextOf i s u m) i.uses false 0 ht
    intro j hj
    have hlen : j < (t.strand u).threads.length := by rw [hb.len, he.agree.len]; exact hj
    have := hst j
    unfold State.pcOf
    refine this.trans ?_
    have hmv := movedOn_thread (t.strand u) (contextOf i s u m) false j
    change ((movedOn (t.strand u) (contextOf i s u m) false).thread j).pc = _
    rw [hmv]
    have hmask : (contextOf i s u m).mask = m := rfl
    rw [hmask]
    by_cases hm : m.getLsbD j = true
    · simp only [Bool.not_false, true_and, hlen, hm, and_self, ↓reduceIte]
      rfl
    · simp only [hm, Bool.false_eq_true, and_false, ↓reduceIte]
      exact (hb.stay j).trans (he.stay j)

/-- The end state of a completed instruction holds the registers, queues and flow that its meaning has left. -/
theorem complete_agree (s : State) (cx : Cx) (us : List Use) (h : s.has cx.u) (hp : cx.pops = []) :
    Agree (s.strand cx.u) ((complete s cx us false 0).strand cx.u) := by
  obtain ⟨ha, _, _⟩ := complete_spec s cx us false 0 h
  refine Agree.trans ?_ ha
  unfold movedOn
  rw [hp]
  have : ∀ st : Strand, dropHeads st [] = st := by
    intro st
    have h1 : st.q.mapIdx (fun k e => if ([] : List Nat).contains k then e.drop 1 else e) = st.q := by
      apply List.ext_getElem?
      intro k
      rw [List.getElem?_mapIdx]
      cases st.q[k]? <;> simp
    unfold dropHeads
    rw [h1]
  simp only [List.map_nil, this]
  exact agree_modThreads _ _ _ (fun _ => rfl) (fun _ => rfl) (fun _ => rfl) (fun _ => rfl) fun _ _ he => ⟨he, rfl⟩

/-! ### What issue leaves of a strand alone -/

/-- Of a strand, nothing differs but its threads, regions, stores on their way, the control registers and queues. -/
def Moved (a b : Strand) : Prop :=
  ∃ T R B Q V W C q, b = { a with threads := T, regions := R, buf := B, cq := Q, reserved := V, redraw := W, ctl := C, q := q }

theorem Moved.refl (a : Strand) : Moved a a := ⟨a.threads, a.regions, a.buf, a.cq, a.reserved, a.redraw, a.ctl, a.q, rfl⟩

theorem Moved.trans {a b c : Strand} (h : Moved a b) (g : Moved b c) : Moved a c := by
  obtain ⟨T, R, B, Q, V, W, C, q, rfl⟩ := h
  obtain ⟨T', R', B', Q', V', W', C', q', rfl⟩ := g
  exact ⟨_, _, _, _, _, _, _, _, rfl⟩

theorem moved_chki (st : Strand) (n : Nat) : Moved st (st.chkiEvent n) := ⟨_, _, _, _, _, _, _, _, rfl⟩

theorem moved_modThreads (st : Strand) (m : BitVec 32) (f : Thread → Thread) : Moved st (st.modThreads m f) := ⟨_, _, _, _, _, _, _, _, rfl⟩

theorem moved_setReent (st : Strand) (n : Nat) : Moved st (st.setReent n) := ⟨_, _, _, _, _, _, _, _, rfl⟩

theorem moved_regions (st : Strand) (R : List Region) : Moved st { st with regions := R } := ⟨_, _, _, _, _, _, _, _, rfl⟩

theorem moved_stores (st : Strand) (B Q : List BufStore) (V W : List Nat) : Moved st { st with buf := B, cq := Q, reserved := V, redraw := W } :=
  ⟨_, _, _, _, _, _, _, _, rfl⟩

theorem moved_if (st : Strand) (c : Bool) : Moved st (if c then st.chkiEvent 2 else st) := by
  cases c
  · exact Moved.refl _
  · exact moved_chki _ _

/-- What closing regions makes of a strand. -/
theorem moved_closed (st : Strand) (c : Bool) (R : Strand → List Region) (m : BitVec 32) (f : Thread → Thread) (B : List BufStore) (Q : Strand → List BufStore) (V W : Strand → List Nat) :
    Moved st (
      let st := if c then st.chkiEvent 2 else st
      let st := { st with regions := R st }
      let st := st.modThreads m f
      { st.setReent 0 with buf := B, cq := Q st, reserved := V st, redraw := W st }) := by
  extract_lets a b d e
  exact (((moved_if st c).trans (moved_regions a _)).trans (moved_modThreads b m f)).trans ((moved_setReent d 0).trans (moved_stores e B _ _ _))

theorem closeThreads_moved (s : State) (u : Nat) (m : BitVec 32) (own : Nat) (h : s.has u) : Moved (s.strand u) ((closeThreads s u m own).strand u) := by
  unfold closeThreads
  extract_lets st late all shut buf isRec again empty s' mine
  split
  rename_i done rest hp
  rw [strand_modStrand_self s' u _ h]
  exact moved_closed st (st.regions.any fun r => r.mismatch && mine r) (fun st => st.regions.map fun r => if mine r then { r with mismatch := false } else r) late
    (fun t => { t with exited := false, ended := true, stack := [], bound := 0, region := 0 }) rest
    (fun st => st.cq ++ ((done.filter isRec ++ empty ++ done.filter fun e => !isRec e).map fun e => { e with own := own }))
    (fun st => if again then [] else st.reserved) (fun st => if again then [] else st.redraw)

theorem openRegionAs_moved (s : State) (u : Nat) (m : BitVec 32) (pc : BitVec 62) (own : Bool) (id : Nat) (h : s.has u) :
    Moved (s.strand u) ((openRegionAs s u m pc own id).strand u) := by
  unfold openRegionAs
  rw [strand_modStrand_self s u _ h]
  exact (moved_modThreads (s.strand u) m fun t => { t with region := id }).trans (moved_regions _ _)

theorem entered_moved (i : Instr) (s : State) (u : Nat) (m : BitVec 32) (h : s.has u) : Moved (s.strand u) ((entered i s u m).strand u) := by
  unfold entered
  extract_lets p
  split
  · unfold enterBoundary
    split
    · exact Moved.refl _
    · have hc : (closeThreads s.newId.2 u m s.newId.1).has u := (closeThreads_quiet s.newId.2 u m s.newId.1 h).beside.has.2 h
      exact (closeThreads_moved s.newId.2 u m s.newId.1 h).trans (openRegionAs_moved _ u m p.pc true s.newId.1 hc)
  · exact Moved.refl _

theorem opened_moved (u : Nat) (l : List (BitVec 62 × BitVec 32)) (s : State) (h : s.has u) :
    Moved (s.strand u) ((l.foldl (fun s g => openRegion s u g.2 g.1 false) s).strand u) := by
  induction l generalizing s with
  | nil => exact Moved.refl _
  | cons a l ih =>
    have h1 := openRegionAs_moved s.newId.2 u a.2 a.1 false s.newId.1 h
    exact h1.trans (ih _ ((openRegion_quiet s u a.2 a.1 false h).beside.has.2 h))

theorem leaveBoundary_moved (s : State) (u : Nat) (m : BitVec 32) (h : s.has u) : Moved (s.strand u) ((leaveBoundary s u m).strand u) := by
  have hc : (closeThreads s.newId.2 u m s.newId.1).has u := (closeThreads_quiet s.newId.2 u m s.newId.1 h).beside.has.2 h
  exact (closeThreads_moved s.newId.2 u m s.newId.1 h).trans (opened_moved u _ _ hc)

theorem complete_moved (s : State) (cx : Cx) (us : List Use) (jumped : Bool) (taken : BitVec 32) (h : s.has cx.u) :
    Moved (s.strand cx.u) ((complete s cx us jumped taken).strand cx.u) := by
  unfold complete
  extract_lets a b c
  have ha : Moved (s.strand cx.u) (a.strand cx.u) := by
    show Moved _ ((s.modStrand cx.u _).strand cx.u)
    rw [strand_modStrand_self s cx.u _ h]
    cases jumped
    · exact (moved_modThreads _ _ _).trans ⟨_, _, _, _, _, _, _, _, rfl⟩
    · exact ⟨_, _, _, _, _, _, _, _, rfl⟩
  have hah : a.has cx.u := (has_modStrand _ _ _ _).2 h
  have hb : Moved (a.strand cx.u) (b.strand cx.u) := by
    show Moved _ ((State.modStrand a.newId.2 cx.u _).strand cx.u)
    rw [strand_modStrand_self a.newId.2 cx.u _ hah]
    exact ⟨_, _, _, _, _, _, _, _, rfl⟩
  have hbh : b.has cx.u := (has_modStrand a.newId.2 _ _ _).2 hah
  have hc : Moved (b.strand cx.u) (c.strand cx.u) := by
    show Moved _ (State.strand (if _ then _ else _) cx.u)
    split
    · exact leaveBoundary_moved b cx.u cx.mask hbh
    · exact Moved.refl _
  have hd : ∀ d : Bool, Moved (c.strand cx.u) ((if d then stopRun c else c).strand cx.u) := by intro d; cases d <;> exact Moved.refl _
  exact ((ha.trans hb).trans hc).trans (hd _)

theorem moved_owes {a b : Strand} (h : Moved a b) : b.unacked = a.unacked ∧ b.stFaults = a.stFaults ∧ b.cpFaults = a.cpFaults ∧ b.mtFaults = a.mtFaults ∧
    b.wsFaults = a.wsFaults ∧ b.mops = a.mops ∧ b.copyUnacked = a.copyUnacked ∧ b.peers = a.peers := by
  obtain ⟨T, R, B, Q, V, W, C, q, rfl⟩ := h
  exact ⟨rfl, rfl, rfl, rfl, rfl, rfl, rfl, rfl⟩

theorem chki_if_cq (st : Strand) (c : Bool) : (if c then st.chkiEvent 2 else st).cq = st.cq ∧ (if c then st.chkiEvent 2 else st).redraw = st.redraw := by
  cases c <;> exact ⟨rfl, rfl⟩

theorem closeThreads_empty (s : State) (u : Nat) (m : BitVec 32) (own : Nat) (h : s.has u) (h1 : (s.strand u).buf = [])
    (h2 : (s.strand u).redraw = []) (h3 : (s.strand u).cq = []) : ((closeThreads s u m own).strand u).buf = [] ∧ ((closeThreads s u m own).strand u).redraw = [] ∧
      ((closeThreads s u m own).strand u).cq = [] := by
  unfold closeThreads
  extract_lets st late all shut buf isRec again empty s' mine
  split
  rename_i done rest hp
  rw [strand_modStrand_self s' u _ h]
  have hbuf : buf = [] := by show st.buf.map _ = []; rw [show st.buf = [] from h1]; rfl
  have ha : again = false := by show (!st.redraw.isEmpty && _) = false; rw [show st.redraw = [] from h2]; rfl
  have he : empty = [] := if_neg (by rw [ha]; simp)
  rw [hbuf] at hp
  obtain ⟨rfl, rfl⟩ : [] = done ∧ [] = rest := Prod.mk.inj hp
  extract_lets a b d e
  have hc := chki_if_cq st (st.regions.any fun r => r.mismatch && mine r)
  refine ⟨rfl, ?_, ?_⟩
  · show (if again then [] else d.redraw) = []
    rw [ha]
    exact hc.2.trans h2
  · show d.cq ++ List.map _ ([] ++ empty ++ []) = []
    rw [he]
    exact (List.append_nil _).trans (hc.1.trans h3)

end Sys2Proof.Machine
end

