-- ==== Sys2Proof/Laws/Lanes.lean ====
section
/-!
SUPPORT. Results of the vector and uniform classes: operands without poison, tags without births, and what writing a
destination changes.
-/

namespace Sys2Proof.Machine

/-! ### Operands -/

theorem lookup_mem {β : Type} (m : Sparse β) (k : Nat) (x : β) (h : m.lookup k = some x) : (k, x) ∈ m := by
  induction m with
  | nil => simp at h
  | cons c m ih =>
    obtain ⟨a, b⟩ := c
    rw [List.lookup_cons] at h
    split at h
    · next he => simp_all
    · exact List.mem_cons_of_mem _ (ih h)

theorem sget_clean (f : Sparse TWord) (h : f.all (fun e => e.2.chk == .ok) = true) (k : Nat) : (sget {} f k).chk = .ok := by
  unfold sget
  cases hl : f.lookup k with
  | none => rfl
  | some x =>
    have := List.all_eq_true.1 h _ (lookup_mem f k x hl)
    simpa using this

/-- Words without poison are read as they stand (R346). -/
theorem readWords_clean (f : Sparse TWord) (h : f.all (fun e => e.2.chk == .ok) = true) (c n : Nat) :
    readWords f c n = { words := (upFrom c n).map fun r => (if r = 0 then ({} : TWord) else sget {} f r).val
                        tag := if n = 1 then (((upFrom c n).map fun r => if r = 0 then ({} : TWord) else sget {} f r).headD {}).tag
                          else sectorMerge (((upFrom c n).map fun r => if r = 0 then ({} : TWord) else sget {} f r).map (·.tag))
                        poison := false } := by
  have hc : ∀ r, (if r = 0 then ({} : TWord) else sget {} f r).chk = .ok := by
    intro r
    split
    · rfl
    · exact sget_clean f h r
  have hb : ((upFrom c n).map fun r => if r = 0 then ({} : TWord) else sget {} f r).any (fun w => decide (w.chk = .poison)) = false := by
    rw [List.any_eq_false]
    intro w hw
    obtain ⟨r, _, rfl⟩ := List.mem_map.1 hw
    rw [hc r]
    decide
  unfold readWords
  dsimp only
  rw [hb]
  simp only [Bool.false_and, List.map_map, Opd.mk.injEq, and_true]
  refine List.map_congr_left fun r _ => ?_
  dsimp only [Function.comp]
  rw [hc r]
  rfl

theorem clean_thread (st : Strand) (h : st.clean = true) (i : Nat) : (st.thread i).v.all (fun e => e.2.chk == .ok) = true := by
  unfold Strand.clean at h
  simp only [Bool.and_eq_true, List.all_eq_true] at h
  by_cases hi : i < st.threads.length
  · exact List.all_eq_true.2 (h.2 _ (by simp [Strand.thread, List.getD, hi]))
  · rw [thread_out _ _ hi]
    rfl

theorem v_clean (cx : Cx) (st : Strand) (h : st.clean = true) (i c n : Nat) : (cx.v st i c n).poison = false := by
  unfold Cx.v
  split
  · rfl
  · unfold Thread.readV
    rw [readWords_clean _ (clean_thread st h i)]

theorem readS_clean (st : Strand) (h : st.clean = true) (c n : Nat) : (st.readS c n).poison = false := by
  unfold Strand.readS
  unfold Strand.clean at h
  simp only [Bool.and_eq_true] at h
  rw [readWords_clean _ h.1]

theorem src_clean (cx : Cx) (st : Strand) (h : st.clean = true) (i : Nat) (b : Src) (n : Nat) : (cx.src st i b n).poison = false := by
  cases b with
  | v c => exact v_clean cx st h i c n
  | s c => exact readS_clean st h c n
  | imm x => rfl
  | wide x => rfl

theorem Agree.readS {a b : Strand} (h : Agree a b) (c n : Nat) : b.readS c n = a.readS c n := by
  unfold Strand.readS
  rw [h.s]

theorem Agree.readV {a b : Strand} (h : Agree a b) (i c n : Nat) : (b.thread i).readV c n = (a.thread i).readV c n := by
  unfold Thread.readV
  rw [h.v]

theorem Agree.cxv {a b : Strand} (h : Agree a b) (cx : Cx) (i c n : Nat) : cx.v b i c n = cx.v a i c n := by
  unfold Cx.v
  rw [h.readV, h.lane]

theorem Agree.cxsrc {a b : Strand} (h : Agree a b) (cx : Cx) (i : Nat) (x : Src) (n : Nat) : cx.src b i x n = cx.src a i x n := by
  cases x with
  | v c => exact h.cxv cx i c n
  | s c => exact h.readS c n
  | imm x => rfl
  | wide x => rfl

theorem Agree.tagEn {a b : Strand} (h : Agree a b) : b.tagEn = a.tagEn := by unfold Strand.tagEn; rw [h.tctl]

theorem Agree.mintOn {a b : Strand} (h : Agree a b) : b.mintOn = a.mintOn := by unfold Strand.mintOn; rw [h.tctl]

theorem Agree.ftz {a b : Strand} (h : Agree a b) : b.ftz = a.ftz := by unfold Strand.ftz; rw [h.fctl]

theorem Agree.rnd {a b : Strand} (h : Agree a b) (rm lane j : Nat) : b.rnd rm lane j = a.rnd rm lane j := by
  obtain ⟨c0, c1, c4, c5, c6, _⟩ := h.ctls
  unfold Strand.rnd Strand.rmEff Strand.srBits Strand.ftz Strand.f8sat
  rw [c0, c5, c6]

theorem Agree.rmEff {a b : Strand} (h : Agree a b) (rm : Nat) : b.rmEff rm = a.rmEff rm := by
  unfold Strand.rmEff; rw [h.fctl]

/-! ### Tags of results without births -/

/-- A result without an event takes the tag its rule picks (R99, R101). -/
theorem resultTag_plain (s : State) (cx : Cx) (own : List Nat) (un : Bool) (lane : Nat) (srcs listed : List Tag) (fmt : Nat) (pat : Word) :
    resultTag s cx own un lane srcs listed none fmt pat =
      (if (s.strand cx.u).tagEn then tagPick cx.here cx.rule srcs else 0, s) := by
  unfold resultTag
  dsimp only
  cases (s.strand cx.u).tagEn <;> rfl

theorem tagLanes_plain (s : State) (cx : Cx) (fmt : Nat) (rs : List (Nat × LaneRes)) (h : ∀ r ∈ rs, r.2.event = none) :
    tagLanes s cx fmt rs =
      (s, rs.map fun r => (r.1, r.2.words, if (s.strand cx.u).tagEn then tagPick cx.here cx.rule r.2.srcs else 0)) := by
  have key : ∀ (l : List (Nat × LaneRes)) (acc : List (Nat × List Word × Tag)), (∀ r ∈ l, r.2.event = none) →
      l.foldl (fun a r =>
        let t := resultTag a.1 cx [r.1] false ((a.1.strand cx.u).thread r.1).lane r.2.srcs r.2.listed r.2.event fmt r.2.pat
        (t.2, a.2 ++ [(r.1, r.2.words, t.1)])) (s, acc) =
      (s, acc ++ l.map fun r => (r.1, r.2.words, if (s.strand cx.u).tagEn then tagPick cx.here cx.rule r.2.srcs else 0)) := by
    intro l
    induction l with
    | nil => intro acc _; simp
    | cons r l ih =>
      intro acc hl
      rw [List.foldl_cons]
      dsimp only
      rw [hl r (by simp), resultTag_plain]
      dsimp only
      rw [ih _ fun x hx => hl x (List.mem_cons_of_mem _ hx)]
      simp
  unfold tagLanes
  rw [key rs [] h]
  rfl

theorem smod_id {β : Type} (m : Sparse β) (k : Nat) (f : β → β) (h : ∀ x, f x = x) : smod m k f = m := by
  unfold smod
  conv => rhs; rw [← List.map_id m]
  refine List.map_congr_left fun c _ => ?_
  split
  · next hk => rw [h, ← hk]; rfl
  · rfl

theorem settleFp_zero (s : State) (u : Nat) : settleFp s u 0 false = s := by
  unfold settleFp State.modStrand
  rw [smod_id]
  intro st
  simp [Strand.raise]

theorem gather_zero (l : List Nat) (h : ∀ x ∈ l, x = 0) : gather l = 0 := by
  unfold gather
  have : ∀ (l : List Nat) (a : Nat), a = 0 → (∀ x ∈ l, x = 0) → l.foldl Nat.lor a = 0 := by
    intro l
    induction l with
    | nil => intro a ha _; exact ha
    | cons x l ih =>
      intro a ha hl
      refine ih _ ?_ fun y hy => hl y (List.mem_cons_of_mem _ hy)
      rw [ha, hl x (by simp)]
      rfl
  exact this l 0 rfl h

theorem fpTrap_zero (st : Strand) : st.fpTrap 0 = none := by
  unfold Strand.fpTrap
  rw [List.find?_eq_none]
  simp

/-- Results without flags and events: written with the tags their rule picks. -/
theorem finishLanes_plain (s : State) (cx : Cx) (d fmt : Nat) (rs : List (Nat × LaneRes))
    (h : ∀ r ∈ rs, r.2.event = none ∧ r.2.flags = 0 ∧ r.2.poison = false) :
    finishLanes s cx d fmt false rs = .done (writeD s cx d (rs.map fun r =>
      (r.1, r.2.words, if (s.strand cx.u).tagEn then tagPick cx.here cx.rule r.2.srcs else 0))) false := by
  have hg : gather (rs.map (·.2.flags)) = 0 := gather_zero _ fun x hx => by
    obtain ⟨r, hr, rfl⟩ := List.mem_map.1 hx
    exact (h r hr).2.1
  have hp : rs.any (·.2.poison) = false := List.any_eq_false.2 fun r hr => by simp [(h r hr).2.2]
  unfold finishLanes
  dsimp only
  rw [hg, tagLanes_plain _ _ _ _ fun r hr => (h r hr).1, hp]
  unfold orFpTrap
  rw [fpTrap_zero]
  dsimp only
  rw [settleFp_zero]

/-! ### Writing destinations -/

/-- An update of strand `u` that keeps control registers, accumulator and flow. -/
structure Keeps (w : Touch) (a b : Strand) : Prop where
  launch : b.launch = a.launch
  ctl : b.ctl = a.ctl
  reserved : b.reserved = a.reserved
  acc : b.acc = a.acc ∧ b.rowmax = a.rowmax ∧ b.rowsum = a.rowsum
  spans : b.spans = a.spans
  len : b.threads.length = a.threads.length
  s : ∀ c, w.s c = false → c ≠ 0 → sget {} b.s c = sget {} a.s c
  k : ∀ c, w.k c = false → predBit b.k c = predBit a.k c
  q : ∀ j, w.q j = false → b.q.getD j [] = a.q.getD j []
  v : ∀ i c, w.v i c = false → c ≠ 0 → sget {} (b.thread i).v c = sget {} (a.thread i).v c
  p : ∀ i c, w.p i c = false → predBit (b.thread i).p c = predBit (a.thread i).p c
  flow : ∀ i, (b.thread i).live = (a.thread i).live ∧ (b.thread i).exited = (a.thread i).exited ∧
    (b.thread i).stack = (a.thread i).stack ∧ (b.thread i).pc = (a.thread i).pc ∧ (b.thread i).lane = (a.thread i).lane
  shape : b.prot = a.prot ∧ b.q.length = a.q.length

theorem body_modStrand (s : State) (u : Nat) (f : Strand → Strand) (w : Touch) (h : s.has u) (hk : Keeps w (s.strand u) (f (s.strand u))) :
    Body w s (s.modStrand u f) u := by
  have hs := strand_modStrand_self s u f h
  refine ⟨⟨fun _ _ => rfl, fun _ _ => rfl, fun _ _ => rfl, fun x hx => strand_modStrand_ne s u x f hx, ?_, ?_, ?_, ?_, ?_, ?_, ?_,
    fun _ => rfl, ?_⟩, ?_, ?_, fun _ => (has_modStrand s u u f).2 h, ?_⟩
  · intro i c hc
    unfold State.vreg
    rw [hs]
    split
    · rfl
    · next h0 => exact hk.v i c hc h0
  · intro i c hc
    unfold State.pred
    rw [hs]
    exact hk.p i c hc
  · intro c hc
    unfold State.sreg
    rw [hs]
    split
    · rfl
    · next h0 => exact hk.s c hc h0
  · intro c hc
    unfold State.kpred
    rw [hs]
    exact hk.k c hc
  · intro n hn h0 _
    exact State.creg_eq rfl (by rw [hs, hk.launch]) (by rw [hs, hk.reserved]) (by rw [hs, hk.ctl]) hn h0
  · intro j hj
    unfold State.queue
    rw [hs]
    exact hk.q j hj
  · intro _
    rw [hs]
    exact hk.acc
  · intro _
    rw [hs]
    exact ⟨fun i => (hk.flow i).1, fun i he => ⟨(hk.flow i).2.1.trans he, (hk.flow i).2.2.1⟩, hk.spans⟩
  · intro i
    rw [hs]
    exact (hk.flow i).2.2.2.1
  · rw [hs]
    exact hk.len
  · rw [hs]
    exact ⟨hk.shape.1, hk.shape.2, fun i => (hk.flow i).2.2.2.2⟩

/-- The threads of a strand with results written to vector registers. -/
theorem thread_written (st : Strand) (d : Nat) (rs : List (Nat × List Word × Tag)) (i : Nat) :
    Strand.thread { st with
                    threads := st.threads.mapIdx fun i t =>
                                 match rs.find? (fun r => r.1 == i) with
                                 | some r => t.writeV d r.2.1 r.2.2
                                 | none => t } i =
    match rs.find? (fun r => r.1 == i) with
    | some r => if i < st.threads.length then (st.thread i).writeV d r.2.1 r.2.2 else st.thread i
    | none => st.thread i := by
  rw [thread_mapped]
  split
  · next hi => cases rs.find? fun r => r.1 == i <;> simp
  · next hi =>
    rw [thread_out _ _ hi]
    cases rs.find? fun r => r.1 == i <;> simp

theorem writeD_body (s : State) (cx : Cx) (d : Nat) (rs : List (Nat × List Word × Tag)) (w : Touch) (h : s.has cx.u)
    (hv : d < 248 → ∀ r ∈ rs, ∀ c, d ≤ c → c < d + r.2.1.length → w.v r.1 c = true) (hq : 248 ≤ d → w.q (d - 248) = true) :
    Body w s (writeD s cx d rs) cx.u := by
  unfold writeD
  refine body_modStrand s cx.u _ w h ?_
  by_cases hd : 248 ≤ d
  · rw [if_pos hd]
    refine ⟨rfl, rfl, rfl, ⟨rfl, rfl, rfl⟩, rfl, rfl, fun _ _ _ => rfl, fun _ _ => rfl, ?_, fun _ _ _ _ => rfl, fun _ _ _ => rfl,
      fun _ => ⟨rfl, rfl, rfl, rfl, rfl⟩, rfl, List.length_mapIdx⟩
    intro j hj
    have hne : j ≠ d - 248 := by
      intro he
      rw [he, hq hd] at hj
      exact absurd hj (by decide)
    unfold pushQueue
    simp only [List.getD_eq_getElem?_getD, List.getElem?_mapIdx]
    cases (s.strand cx.u).q[j]? with
    | none => rfl
    | some e => simp [hne]
  · rw [if_neg hd]
    have ht := thread_written (s.strand cx.u) d rs
    refine ⟨rfl, rfl, rfl, ⟨rfl, rfl, rfl⟩, rfl, List.length_mapIdx, fun _ _ _ => rfl, fun _ _ => rfl, fun _ _ => rfl, ?_, ?_, ?_, rfl, rfl⟩
    · intro i c hc h0
      refine (congrArg (fun t : Thread => sget {} t.v c) (ht i)).trans ?_
      split
      · next r hr =>
        split
        · unfold Thread.writeV
          dsimp only
          rw [writeWords_get _ _ _ _ _ h0]
          have hi : r.1 = i := by simpa using List.find?_some hr
          have := hv (by omega) r (List.mem_of_find?_eq_some hr) c
          rw [dif_neg]
          intro hcd
          rw [hi] at this
          simp [this hcd.1 hcd.2] at hc
        · rfl
      · rfl
    · intro i c _
      refine (congrArg (fun t : Thread => predBit t.p c) (ht i)).trans ?_
      split <;> [(split <;> rfl); rfl]
    · intro i
      have hi := ht i
      revert hi
      generalize (rs.find? fun r => r.1 == i) = o
      intro hi
      have : ∀ t t' : Thread, t = t' → t'.live = ((s.strand cx.u).thread i).live ∧ t'.exited = ((s.strand cx.u).thread i).exited ∧
          t'.stack = ((s.strand cx.u).thread i).stack ∧ t'.pc = ((s.strand cx.u).thread i).pc ∧
          t'.lane = ((s.strand cx.u).thread i).lane →
          t.live = ((s.strand cx.u).thread i).live ∧ t.exited = ((s.strand cx.u).thread i).exited ∧
          t.stack = ((s.strand cx.u).thread i).stack ∧ t.pc = ((s.strand cx.u).thread i).pc ∧
          t.lane = ((s.strand cx.u).thread i).lane := by
        rintro t _ rfl h; exact h
      refine this _ _ hi ?_
      cases o with
      | none => exact ⟨rfl, rfl, rfl, rfl, rfl⟩
      | some r => dsimp only; split <;> exact ⟨rfl, rfl, rfl, rfl, rfl⟩

/-- What completion leaves of registers: all of them; of queues: those not popped. -/
theorem complete_kept (s : State) (cx : Cx) (us : List Use) (h : s.has cx.u) :
    Only { q := fun _ => true, ctl := fun _ => true } s (complete s cx us false 0) cx.u :=
  complete_only s cx us false 0 _ h (fun _ _ => rfl) fun _ _ _ => rfl

theorem acting_lt (i : Instr) (s : State) (u : Nat) (m : BitVec 32) (j : Nat) (h : j ∈ acting i s u m) :
    j < (s.strand u).threads.length ∧ m.getLsbD j = true := by
  unfold acting activeThreads at h
  have := mem_byLane _ _ _ (List.mem_filter.1 h).1
  exact ⟨this.2, this.1⟩

/-- Registers written by a vector instruction. -/
theorem writeD_vreg (s : State) (cx : Cx) (d : Nat) (act : List Nat) (f : Nat → List Word × Tag) (h : s.has cx.u) (hd : ¬ 248 ≤ d)
    (j : Nat) (hj : j ∈ act) (hl : j < (s.strand cx.u).threads.length) (k : Nat) (hk : k < (f j).1.length) (h0 : d + k ≠ 0) :
    (writeD s cx d (act.map fun j => (j, f j))).vreg cx.u j (d + k) = { val := (f j).1.getD k 0, tag := (f j).2 } := by
  have hs : (writeD s cx d (act.map fun j => (j, f j))).strand cx.u = _ := strand_modStrand_self s cx.u _ h
  unfold State.vreg
  rw [if_neg h0, hs, if_neg hd]
  refine (congrArg (fun t : Thread => sget {} t.v (d + k)) (thread_written _ d _ j)).trans ?_
  have hfind : ((act.map fun j => (j, f j)).find? fun r => r.1 == j) = some (j, f j) := by
    clear hs
    induction act with
    | nil => simp at hj
    | cons a l ih =>
      rw [List.map_cons, List.find?_cons]
      by_cases haj : a = j
      · subst haj; simp
      · have : (a == j) = false := by simp [haj]
        dsimp only
        rw [this]
        exact ih (by simpa [Ne.symm haj] using hj)
  rw [hfind]
  dsimp only
  rw [if_pos hl]
  unfold Thread.writeV
  dsimp only
  rw [writeWords_get _ _ _ _ _ h0, dif_pos ⟨by omega, by omega⟩]
  have : d + k - d = k := by omega
  simp only [this]
  rw [List.getD_eq_getElem?_getD, List.getElem?_eq_getElem hk]
  rfl

/-- The entry that a vector instruction pushes. -/
theorem writeD_queue (s : State) (cx : Cx) (d : Nat) (act : List Nat) (f : Nat → List Word × Tag) (h : s.has cx.u) (hd : 248 ≤ d)
    (hl : d - 248 < (s.strand cx.u).q.length) :
    (writeD s cx d (act.map fun j => (j, f j))).queue cx.u (d - 248) =
      s.queue cx.u (d - 248) ++ [queueEntry (s.strand cx.u) act fun j => { val := (f j).1.getD 0 0, tag := (f j).2 }] := by
  have hs : (writeD s cx d (act.map fun j => (j, f j))).strand cx.u = _ := strand_modStrand_self s cx.u _ h
  unfold State.queue
  rw [hs, if_pos hd]
  unfold pushQueue
  simp only [List.getD_eq_getElem?_getD, List.getElem?_mapIdx, List.getElem?_eq_getElem hl, Option.map_some, Option.getD_some,
    ↓reduceIte]
  congr 2
  unfold queueEntry
  refine List.map_congr_left fun l _ => ?_
  clear hs hl
  induction act with
  | nil => rfl
  | cons a t ih =>
    rw [List.map_cons, List.flatMap_cons, List.find?_append, List.find?_cons]
    cases hp : (s.strand cx.u).prot
    · rw [hp] at ih
      simp only [Bool.false_eq_true, ↓reduceIte, Bool.false_and, Bool.or_false, List.find?_cons, List.find?_nil] at ih ⊢
      cases hal : ((s.strand cx.u).thread a).lane == l
      · simpa using ih
      · simp [List.headD_eq_head?_getD, List.head?_eq_getElem?]
    · rw [hp] at ih
      simp only [↓reduceIte, Bool.true_and, List.find?_cons, List.find?_nil] at ih ⊢
      cases hal : ((s.strand cx.u).thread a).lane == l
      · cases hal' : ((s.strand cx.u).thread a).lane + 1 == l
        · simpa using ih
        · simp [List.headD_eq_head?_getD, List.head?_eq_getElem?]
      · simp [List.headD_eq_head?_getD, List.head?_eq_getElem?]

theorem movedOn_queue (st : Strand) (cx : Cx) (j : Nat) :
    (movedOn st cx false).q.getD j [] =
      if (cx.pops.map (·.1)).contains j then (st.q.getD j []).drop 1 else st.q.getD j [] := by
  unfold movedOn dropHeads
  simp only [List.getD_eq_getElem?_getD, List.getElem?_mapIdx, Bool.false_eq_true, ↓reduceIte]
  change (Option.map _ st.q[j]?).getD [] = _
  cases st.q[j]? with
  | none => split <;> rfl
  | some e => rfl

theorem complete_queue (s : State) (cx : Cx) (us : List Use) (h : s.has cx.u) (j : Nat) :
    (complete s cx us false 0).queue cx.u j =
      if (cx.pops.map (·.1)).contains j then (s.queue cx.u j).drop 1 else s.queue cx.u j := by
  obtain ⟨ha, _, _⟩ := complete_spec s cx us false 0 h
  unfold State.queue
  rw [ha.q]
  exact movedOn_queue _ _ _

theorem Agree.queueEntry {a b : Strand} (h : Agree a b) (act : List Nat) (f : Nat → TWord) :
    Machine.queueEntry b act f = Machine.queueEntry a act f := by
  unfold Machine.queueEntry
  simp only [h.lane, h.prot]

theorem Ready.quiet {i : Instr} {s : State} {u : Nat} {m : BitVec 32} (h : Ready i s u m) : Quiet u s (entered i s u m) :=
  entered_quiet i s u m (issuing_has s u m h.atIssue)

theorem Ready.agree {i : Instr} {s : State} {u : Nat} {m : BitVec 32} (h : Ready i s u m) :
    Agree (s.strand u) ((entered i s u m).strand u) := h.quiet.agree

theorem Ready.has {i : Instr} {s : State} {u : Nat} {m : BitVec 32} (h : Ready i s u m) : (entered i s u m).has u :=
  h.quiet.beside.has.2 (issuing_has s u m h.atIssue)

@[simp] theorem contextOf_u (i : Instr) (s : State) (u : Nat) (m : BitVec 32) : (contextOf i s u m).u = u := rfl

@[simp] theorem contextOf_act (i : Instr) (s : State) (u : Nat) (m : BitVec 32) : (contextOf i s u m).act = acting i s u m := rfl

@[simp] theorem contextOf_mask (i : Instr) (s : State) (u : Nat) (m : BitVec 32) : (contextOf i s u m).mask = m := rfl

/-- An instruction whose meaning completes normally. `t1` is the state that the meaning leaves where a thread acts. -/
theorem completes_of (i : Instr) (s : State) (u : Nat) (m : BitVec 32) (w : Touch) (P : State → Prop) (body : Cx → State → Eff) (t1 : State)
    (h : Ready i s u m) (hx : exec i s = issue i s body)
    (hb : acting i s u m ≠ [] → body (contextOf i s u m) (entered i s u m) = .ok t1)
    (hB : acting i s u m ≠ [] → Body w (entered i s u m) t1 u)
    (hP : ∀ t0, t0 = (if acting i s u m = [] then entered i s u m else t1) → t0.has u →
      P (complete t0 (contextOf i s u m) i.uses false 0)) :
    Completes i s u m w P := by
  have hs := issuing_has s u m h.atIssue
  have he := entered_quiet i s u m hs
  have hes := he.beside.has.2 hs
  by_cases ha : acting i s u m = []
  · have hbody : Body (w.of i) (entered i s u m) (entered i s u m) u := Body.refl _ _ _
    obtain ⟨hO, hA⟩ := ready_complete i s u m _ (w.of i) h hbody (fun n hc => by simp [Touch.of, hc]) fun j hj => by simp [Touch.of, hj]
    refine ⟨_, ?_, hP (entered i s u m) (by rw [if_pos ha]) hes, hO, hA⟩
    rw [hx, issue_ready i s u m body h]
    simp only [ha, List.isEmpty_nil, ↓reduceIte]
    rfl
  · have hbody : Body (w.of i) (entered i s u m) t1 u := (hB ha).mono
      ⟨fun _ h => h, fun _ _ h => h, fun _ _ h => h, fun _ h => h, fun _ h => h, fun _ h => by simp [Touch.of, h],
        fun _ h => by simp [Touch.of, h], id, id, id⟩
    obtain ⟨hO, hA⟩ := ready_complete i s u m _ (w.of i) h hbody (fun n hc => by simp [Touch.of, hc]) fun j hj => by simp [Touch.of, hj]
    refine ⟨_, ?_, hP t1 (by rw [if_neg ha]) (hbody.has hes), hO, hA⟩
    have hem : (acting i s u m).isEmpty = false := by simpa using ha
    rw [hx, issue_ready i s u m body h, hb ha, hem]
    rfl

/-- What the end state of a completed instruction gives, from the registers and queues that its meaning has left. -/
theorem Gives_core (i : Instr) (s : State) (u : Nat) (m : BitVec 32) (d n : Nat) (word : Nat → Nat → TWord) (t0 : State)
    (h : Ready i s u m) (hh : t0.has u)
    (hq : 248 ≤ d → acting i s u m ≠ [] → d - 248 < (s.strand u).q.length →
      t0.queue u (d - 248) = s.queue u (d - 248) ++ [queueEntry (s.strand u) (acting i s u m) fun j => word j 0])
    (hv : ¬ 248 ≤ d → ∀ j ∈ acting i s u m, ∀ k, k < n → d + k ≠ 0 → t0.vreg u j (d + k) = word j k) :
    Gives i s (complete t0 (contextOf i s u m) i.uses false 0) u m d n word := by
  unfold Gives
  split
  · next hd =>
    intro hne hql
    have hem : (acting i s u m).isEmpty = false := by simpa using hne
    have hpop : ((contextOf i s u m).pops.map (·.1)).contains (d - 248) = popsQ i (d - 248) := by
      unfold contextOf
      dsimp only
      rw [hem]
      simp [popsQ, List.map_map, Function.comp_def]
    refine (complete_queue t0 (contextOf i s u m) i.uses hh (d - 248)).trans ?_
    rw [hpop, contextOf_u, hq hd hne hql]
    split
    · next hp =>
      have hr := h.queues
      unfold queuesReady at hr
      simp only [Bool.and_eq_true, List.all_eq_true] at hr
      have hne : ((s.strand u).q.getD (d - 248) []).isEmpty = false := by
        have := hr.1 (d - 248) (by simpa [popsQ] using hp)
        simpa using this
      unfold State.queue
      cases hq : (s.strand u).q.getD (d - 248) [] with
      | nil => rw [hq] at hne; exact absurd hne (by decide)
      | cons e l => rfl
    · rfl
  · next hd =>
    intro j hj k hk h0
    exact ((complete_kept t0 (contextOf i s u m) i.uses hh).vregs j (d + k) rfl).trans (hv hd j hj k hk h0)

theorem Gives_of (i : Instr) (s : State) (u : Nat) (m : BitVec 32) (d n : Nat) (ws : Nat → List Word × Tag) (t0 : State)
    (h : Ready i s u m) (hlen : ∀ j ∈ acting i s u m, (ws j).1.length = n)
    (ht0 : t0 = (if acting i s u m = [] then entered i s u m
      else writeD (entered i s u m) (contextOf i s u m) d ((acting i s u m).map fun j => (j, ws j)))) (hh : t0.has u) :
    Gives i s (complete t0 (contextOf i s u m) i.uses false 0) u m d n fun j k => { val := (ws j).1.getD k 0, tag := (ws j).2 } := by
  have hs := issuing_has s u m h.atIssue
  have he := entered_quiet i s u m hs
  have hes := he.beside.has.2 hs
  refine Gives_core i s u m d n _ t0 h hh (fun hd hne hql => ?_) fun hd j hj k hk h0 => ?_
  · rw [if_neg hne] at ht0
    rw [ht0]
    refine (writeD_queue (entered i s u m) (contextOf i s u m) d (acting i s u m) ws hes hd
      (by rw [contextOf_u, he.agree.q]; exact hql)).trans ?_
    rw [contextOf_u, he.agree.queueEntry]
    unfold State.queue
    rw [he.agree.q]
  · rw [if_neg (List.ne_nil_of_mem hj)] at ht0
    rw [ht0]
    exact writeD_vreg (entered i s u m) (contextOf i s u m) d (acting i s u m) ws hes hd j hj
      (by rw [contextOf_u, he.agree.len]; exact (acting_lt i s u m j hj).1) k (by rw [hlen j hj]; exact hk) h0

theorem writeD_touch (i : Instr) (s : State) (u : Nat) (m : BitVec 32) (d n : Nat) (ws : Nat → List Word × Tag) (hs : s.has u)
    (hlen : ∀ j ∈ acting i s u m, (ws j).1.length = n) :
    Body (Touch.vec i s u m d n) (entered i s u m)
      (writeD (entered i s u m) (contextOf i s u m) d ((acting i s u m).map fun j => (j, ws j))) u := by
  have hes := (entered_quiet i s u m hs).beside.has.2 hs
  refine writeD_body (entered i s u m) (contextOf i s u m) d _ _ hes ?_ ?_
  · intro hd r hr c h1 h2
    obtain ⟨j, hj, rfl⟩ := List.mem_map.1 hr
    dsimp only at h2
    rw [hlen j hj] at h2
    simp [Touch.vec, hd, hj, h1, h2]
  · intro hd
    simp [Touch.vec, hd]

/-- A vector instruction in whose acting threads no flag, event or poison arises. -/
theorem vec_plain (i : Instr) (s : State) (u : Nat) (m : BitVec 32) (d n fmt : Nat) (body : Cx → State → Eff)
    (f : Nat → LaneRes) (h : Ready i s u m)
    (hb : body (contextOf i s u m) (entered i s u m) = finishLanes (entered i s u m) (contextOf i s u m) d fmt false
      ((acting i s u m).map fun j => (j, f j)))
    (hf : ∀ j ∈ acting i s u m, (f j).event = none ∧ (f j).flags = 0 ∧ (f j).poison = false ∧ (f j).words.length = n)
    (hx : ∀ s', exec i s' = issue i s' body) :
    VecResult i s u m d n (fun j => (f j).words) fun j => plainTag i s u m (f j).srcs := by
  have hs := issuing_has s u m h.atIssue
  have he := entered_quiet i s u m hs
  let ws : Nat → List Word × Tag := fun j => ((f j).words, plainTag i s u m (f j).srcs)
  have hlen : ∀ j ∈ acting i s u m, (ws j).1.length = n := fun j hj => (hf j hj).2.2.2
  refine completes_of i s u m _ _ body (writeD (entered i s u m) (contextOf i s u m) d ((acting i s u m).map fun j => (j, ws j))) h
    (hx s) (fun _ => ?_) (fun _ => writeD_touch i s u m d n ws hs hlen) fun t0 ht0 hh => Gives_of i s u m d n ws t0 h hlen ht0 hh
  rw [hb, finishLanes_plain]
  · unfold Eff.ok
    congr 2
    rw [List.map_map]
    refine List.map_congr_left fun j _ => ?_
    dsimp only [Function.comp, ws, plainTag]
    rw [contextOf_u, he.agree.tagEn]
  · intro r hr
    obtain ⟨j, hj, rfl⟩ := List.mem_map.1 hr
    exact ⟨(hf j hj).1, (hf j hj).2.1, (hf j hj).2.2.1⟩

theorem laneRes_plain (ws : List Word) (ops : List Opd) (h : ∀ o ∈ ops, o.poison = false) :
    (laneRes ws 0 none ops).event = none ∧ (laneRes ws 0 none ops).flags = 0 ∧ (laneRes ws 0 none ops).poison = false ∧
      (laneRes ws 0 none ops).words.length = ws.length := by
  have hp : ops.any (·.poison) = false := List.any_eq_false.2 fun o ho => by simp [h o ho]
  refine ⟨?_, rfl, hp, rfl⟩
  unfold LaneRes.event laneRes
  rw [hp]
  rfl

theorem alu2_spec (i : Instr) (o : Alu) (f : Word → Word → Word) (hx : ∀ s, exec i s = issue i s (alu2 o f)) : Binary i o f := by
  intro s u m h hc
  have he := (entered_quiet i s u m (issuing_has s u m h.atIssue)).agree
  refine vec_plain i s u m o.d 1 0 (alu2 o f) (fun j => laneRes [f (vOpd i s u m j o.a 1).w (srcOpd i s u m j o.b 1).w] 0 none
    [vOpd i s u m j o.a 1, srcOpd i s u m j o.b 1]) h ?_ ?_ hx
  · unfold alu2
    dsimp only
    congr 1
    refine List.map_congr_left fun j _ => ?_
    simp only [contextOf_u, he.cxv, he.cxsrc]
    rfl
  · intro j _
    exact laneRes_plain _ _ (by
      intro o ho
      rcases List.mem_cons.1 ho with rfl | ho
      · exact v_clean _ _ hc _ _ _
      · rcases List.mem_cons.1 ho with rfl | ho
        · exact src_clean _ _ hc _ _ _
        · simp at ho)

theorem alu1_spec (i : Instr) (o : Un) (f : Word → Word) (hx : ∀ s, exec i s = issue i s (alu1 o f)) : Unary i o f := by
  intro s u m h hc
  have he := (entered_quiet i s u m (issuing_has s u m h.atIssue)).agree
  refine vec_plain i s u m o.d 1 0 (alu1 o f) (fun j => laneRes [f (vOpd i s u m j o.a 1).w] 0 none
    [vOpd i s u m j o.a 1]) h ?_ ?_ hx
  · unfold alu1
    dsimp only
    congr 1
    refine List.map_congr_left fun j _ => ?_
    simp only [contextOf_u, he.cxv]
    rfl
  · intro j _
    exact laneRes_plain _ _ (by
      intro o ho
      rcases List.mem_cons.1 ho with rfl | ho
      · exact v_clean _ _ hc _ _ _
      · simp at ho)

theorem alu3_spec (i : Instr) (o : Alu) (f : Word → Word → Word → Word) (hx : ∀ s, exec i s = issue i s (alu3 o f)) : Ternary i o f := by
  intro s u m h hc
  have he := (entered_quiet i s u m (issuing_has s u m h.atIssue)).agree
  refine vec_plain i s u m o.d 1 0 (alu3 o f) (fun j => laneRes [f (vOpd i s u m j o.a 1).w (srcOpd i s u m j o.b 1).w (vOpd i s u m j o.c 1).w] 0 none
    [vOpd i s u m j o.a 1, srcOpd i s u m j o.b 1, vOpd i s u m j o.c 1]) h ?_ ?_ hx
  · unfold alu3
    dsimp only
    congr 1
    refine List.map_congr_left fun j _ => ?_
    simp only [contextOf_u, he.cxv, he.cxsrc]
    rfl
  · intro j _
    exact laneRes_plain _ _ (by
      simp only [List.mem_cons, List.not_mem_nil, or_false]
      rintro o (rfl | rfl | rfl)
      · exact v_clean _ _ hc _ _ _
      · exact src_clean _ _ hc _ _ _
      · exact v_clean _ _ hc _ _ _)

/-! ### The operations of R126 -/

theorem intResult_clamped (w : Nat) (hw : 0 < w) (z sat : Bool) (e : Int) : intResult w z sat e = clamped z sat w e := by
  unfold intResult clamped
  cases sat
  · rfl
  · have h1 : (2 : Int) ^ (w - 1) + 2 ^ (w - 1) = 2 ^ w := by
      rw [← Int.two_mul, ← Int.pow_succ']
      congr 1
      omega
    have h2 : (0 : Int) < 2 ^ (w - 1) := Int.pow_pos (by decide)
    generalize (2 : Int) ^ (w - 1) = p at *
    generalize (2 : Int) ^ w = q at *
    cases z <;> (dsimp only; congr 1; simp only [if_true, Bool.false_eq_true, if_false]; split <;> [skip; split] <;> omega)

/-! ### Predicates and uniform destinations -/

theorem find_map {β : Type} (act : List Nat) (f : Nat → β) (j : Nat) :
    ((act.map fun j => (j, f j)).find? fun r => r.1 == j) = if j ∈ act then some (j, f j) else none := by
  induction act with
  | nil => rfl
  | cons a l ih =>
    rw [List.map_cons, List.find?_cons]
    by_cases haj : a = j
    · subst haj; simp
    · have : (a == j) = false := by simp [haj]
      dsimp only
      rw [this]
      dsimp only
      rw [ih]
      simp [Ne.symm haj]

/-- The threads of a strand with predicates written. -/
theorem thread_preds (st : Strand) (d : Nat) (act : List Nat) (f : Nat → Bool) (i : Nat) (h : ∀ j ∈ act, j < st.threads.length) :
    Strand.thread { st with
                    threads := st.threads.mapIdx fun i t =>
                                 match (act.map fun j => (j, f j)).find? (fun r => r.1 == i) with
                                 | some r => { t with p := setPred t.p d r.2 }
                                 | none => t } i =
    if i ∈ act then { st.thread i with p := setPred (st.thread i).p d (f i) } else st.thread i := by
  rw [thread_mapped, find_map]
  by_cases hi : i ∈ act
  · simp [hi, h i hi]
  · simp only [hi, ↓reduceIte]
    split
    · rfl
    · next hn => rw [thread_out _ _ hn]

theorem predBit_setPred_ne (p : BitVec 8) (d c : Nat) (b : Bool) (h : c ≠ d) : predBit (setPred p d b) c = predBit p c := by
  by_cases hc : c < 8
  · rw [predBit_setPred _ _ _ _ hc, if_neg (fun x => h x.1)]
  · unfold predBit
    rw [BitVec.getLsbD_of_ge _ _ (by omega), BitVec.getLsbD_of_ge _ _ (by omega)]

theorem writeP_body (s : State) (cx : Cx) (d : Nat) (act : List Nat) (f : Nat → Bool) (w : Touch) (h : s.has cx.u)
    (hl : ∀ j ∈ act, j < (s.strand cx.u).threads.length)
    (hw : d ≠ 7 → ∀ j ∈ act, w.p j d = true) : Body w s (writeP s cx d (act.map fun j => (j, f j))) cx.u := by
  unfold writeP
  refine body_modStrand s cx.u _ w h ?_
  have ht := fun i => thread_preds (s.strand cx.u) d act f i hl
  refine ⟨rfl, rfl, rfl, ⟨rfl, rfl, rfl⟩, rfl, List.length_mapIdx, fun _ _ _ => rfl, fun _ _ => rfl, fun _ _ => rfl, ?_, ?_, ?_, rfl, rfl⟩
  · intro i c _ _
    refine (congrArg (fun t : Thread => sget {} t.v c) (ht i)).trans ?_
    dsimp only
    split <;> rfl
  · intro i c hc
    refine (congrArg (fun t : Thread => predBit t.p c) (ht i)).trans ?_
    dsimp only
    split
    · next hi =>
      by_cases h7 : d = 7
      · subst h7; rfl
      · have hcd : c ≠ d := by
          intro he
          rw [he, hw h7 i hi] at hc
          exact absurd hc (by decide)
        exact predBit_setPred_ne _ _ _ _ hcd
    · rfl
  · intro i
    have : ∀ t : Thread, t = (if i ∈ act then { (s.strand cx.u).thread i with p := setPred ((s.strand cx.u).thread i).p d (f i) }
        else (s.strand cx.u).thread i) → t.live = ((s.strand cx.u).thread i).live ∧ t.exited = ((s.strand cx.u).thread i).exited ∧
          t.stack = ((s.strand cx.u).thread i).stack ∧ t.pc = ((s.strand cx.u).thread i).pc ∧
          t.lane = ((s.strand cx.u).thread i).lane := by
      rintro t rfl
      split <;> exact ⟨rfl, rfl, rfl, rfl, rfl⟩
    exact this _ (ht i)

theorem writeP_pred (s : State) (cx : Cx) (d : Nat) (act : List Nat) (f : Nat → Bool) (h : s.has cx.u)
    (hl : ∀ j ∈ act, j < (s.strand cx.u).threads.length) (hd : d < 7) (j : Nat) (hj : j ∈ act) :
    (writeP s cx d (act.map fun j => (j, f j))).pred cx.u j d = f j := by
  have hs : (writeP s cx d (act.map fun j => (j, f j))).strand cx.u = _ := strand_modStrand_self s cx.u _ h
  unfold State.pred
  rw [hs]
  refine (congrArg (fun t : Thread => predBit t.p d) (thread_preds (s.strand cx.u) d act f j hl)).trans ?_
  rw [if_pos hj]
  dsimp only
  rw [predBit_setPred _ _ _ _ (by omega)]
  simp
  omega

/-- A vector instruction that writes predicates, without poison. -/
theorem pred_plain (i : Instr) (s : State) (u : Nat) (m : BitVec 32) (d : Nat) (body : Cx → State → Eff) (f : Nat → Bool)
    (h : Ready i s u m) (hx : ∀ s', exec i s' = issue i s' body)
    (hb : body (contextOf i s u m) (entered i s u m) =
      .done (writeP (entered i s u m) (contextOf i s u m) d ((acting i s u m).map fun j => (j, f j))) false) :
    PredResult i s u m d f := by
  have hs := issuing_has s u m h.atIssue
  have he := entered_quiet i s u m hs
  have hes := he.beside.has.2 hs
  have hl : ∀ j ∈ acting i s u m, j < ((entered i s u m).strand (contextOf i s u m).u).threads.length := fun j hj => by
    rw [contextOf_u, he.agree.len]; exact (acting_lt i s u m j hj).1
  refine completes_of i s u m _ _ body _ h (hx s) (fun _ => hb) (fun _ => ?_) fun t0 ht0 hh => ?_
  · exact writeP_body _ _ d _ f _ hes hl fun h7 j hj => by simp [Touch.preds, hj, h7]
  · intro hd j hj
    rw [if_neg (List.ne_nil_of_mem hj)] at ht0
    refine ((complete_kept t0 (contextOf i s u m) i.uses hh).preds j d rfl).trans ?_
    rw [ht0]
    exact writeP_pred _ _ d _ f hes hl hd j hj

theorem writeU_body (s : State) (cx : Cx) (d : Nat) (ws : List Word) (t : Tag) (w : Touch) (h : s.has cx.u)
    (hw : ∀ c, d ≤ c → c < d + ws.length → w.s c = true) : Body w s (writeU s cx d ws t) cx.u := by
  unfold writeU
  refine body_modStrand s cx.u _ w h ⟨rfl, rfl, rfl, ⟨rfl, rfl, rfl⟩, rfl, rfl, ?_, fun _ _ => rfl, fun _ _ => rfl, fun _ _ _ _ => rfl,
    fun _ _ _ => rfl, fun _ => ⟨rfl, rfl, rfl, rfl, rfl⟩, rfl, rfl⟩
  intro c hc h0
  unfold Strand.writeS
  dsimp only
  rw [writeWords_get _ _ _ _ _ h0, dif_neg]
  intro hcd
  rw [hw c hcd.1 hcd.2] at hc
  exact absurd hc (by decide)

theorem writeU_sreg (s : State) (cx : Cx) (d : Nat) (ws : List Word) (t : Tag) (h : s.has cx.u) (k : Nat) (hk : k < ws.length)
    (h0 : d + k ≠ 0) : (writeU s cx d ws t).sreg cx.u (d + k) = { val := ws.getD k 0, tag := t } := by
  have hs : (writeU s cx d ws t).strand cx.u = _ := strand_modStrand_self s cx.u _ h
  unfold State.sreg
  rw [if_neg h0, hs]
  unfold Strand.writeS
  dsimp only
  rw [writeWords_get _ _ _ _ _ h0, dif_pos ⟨by omega, by omega⟩]
  have : d + k - d = k := by omega
  simp only [this]
  rw [List.getD_eq_getElem?_getD, List.getElem?_eq_getElem hk]
  rfl

/-- A uniform instruction that writes s-registers. -/
theorem uni_write (i : Instr) (s : State) (u : Nat) (m : BitVec 32) (d n : Nat) (body : Cx → State → Eff) (ws : List Word) (t : Tag)
    (h : Ready i s u m) (hx : ∀ s', exec i s' = issue i s' body) (hn : ws.length = n)
    (hb : body (contextOf i s u m) (entered i s u m) = .done (writeU (entered i s u m) (contextOf i s u m) d ws t) false) :
    UniResult i s u m d n ws t := by
  have hs := issuing_has s u m h.atIssue
  have hes := (entered_quiet i s u m hs).beside.has.2 hs
  refine completes_of i s u m _ _ body _ h (hx s) (fun _ => hb) (fun ha => ?_) fun t0 ht0 hh => ?_
  · exact writeU_body _ _ d ws t _ hes fun c h1 h2 => by simp [ha, h1]; omega
  · intro ha k hk h0
    rw [if_neg ha] at ht0
    refine ((complete_kept t0 (contextOf i s u m) i.uses hh).sregs (d + k) rfl).trans ?_
    rw [ht0]
    exact writeU_sreg _ _ d ws t hes k (by omega) h0

/-- A uniform result without flags, events or poison. -/
theorem finishUniform_plain (s : State) (cx : Cx) (d fmt : Nat) (r : LaneRes) (h : r.event = none ∧ r.flags = 0 ∧ r.poison = false) :
    finishUniform s cx d fmt false r =
      .done (writeU s cx d r.words (if (s.strand cx.u).tagEn then tagPick cx.here cx.rule r.srcs else 0)) false := by
  unfold finishUniform orFpTrap
  rw [h.1, h.2.1, h.2.2, fpTrap_zero]
  dsimp only
  rw [resultTag_plain]
  dsimp only
  rw [settleFp_zero]

theorem uni_plain (i : Instr) (s : State) (u : Nat) (m : BitVec 32) (d n fmt : Nat) (body : Cx → State → Eff) (r : LaneRes)
    (h : Ready i s u m) (hx : ∀ s', exec i s' = issue i s' body) (hn : r.words.length = n)
    (hr : r.event = none ∧ r.flags = 0 ∧ r.poison = false)
    (hb : body (contextOf i s u m) (entered i s u m) = finishUniform (entered i s u m) (contextOf i s u m) d fmt false r) :
    UniResult i s u m d n r.words (plainTag i s u m r.srcs) := by
  have he := entered_quiet i s u m (issuing_has s u m h.atIssue)
  refine uni_write i s u m d n body r.words _ h hx hn ?_
  rw [hb, finishUniform_plain _ _ _ _ _ hr, contextOf_u, he.agree.tagEn]
  rfl

theorem writeK_body (s : State) (cx : Cx) (d : Nat) (b : Bool) (w : Touch) (h : s.has cx.u) (hw : d ≠ 7 → w.k d = true) :
    Body w s (writeK s cx d b) cx.u := by
  unfold writeK
  refine body_modStrand s cx.u _ w h ⟨rfl, rfl, rfl, ⟨rfl, rfl, rfl⟩, rfl, rfl, fun _ _ _ => rfl, ?_, fun _ _ => rfl,
    fun _ _ _ _ => rfl, fun _ _ _ => rfl, fun _ => ⟨rfl, rfl, rfl, rfl, rfl⟩, rfl, rfl⟩
  intro c hc
  by_cases h7 : d = 7
  · subst h7; rfl
  · have hcd : c ≠ d := by
      intro he
      rw [he, hw h7] at hc
      exact absurd hc (by decide)
    exact predBit_setPred_ne _ _ _ _ hcd

theorem writeK_kpred (s : State) (cx : Cx) (d : Nat) (b : Bool) (h : s.has cx.u) (hd : d < 7) : (writeK s cx d b).kpred cx.u d = b := by
  have hs : (writeK s cx d b).strand cx.u = _ := strand_modStrand_self s cx.u _ h
  unfold State.kpred
  rw [hs, predBit_setPred _ _ _ _ (by omega)]
  simp
  omega

/-- A uniform instruction that writes a uniform predicate. -/
theorem k_write (i : Instr) (s : State) (u : Nat) (m : BitVec 32) (d : Nat) (body : Cx → State → Eff) (b : Bool)
    (h : Ready i s u m) (hx : ∀ s', exec i s' = issue i s' body)
    (hb : body (contextOf i s u m) (entered i s u m) = .done (writeK (entered i s u m) (contextOf i s u m) d b) false) :
    KResult i s u m d b := by
  have hs := issuing_has s u m h.atIssue
  have hes := (entered_quiet i s u m hs).beside.has.2 hs
  refine completes_of i s u m _ _ body _ h (hx s) (fun _ => hb) (fun ha => ?_) fun t0 ht0 hh => ?_
  · exact writeK_body _ _ d b _ hes fun h7 => by simp [ha, h7]
  · intro ha hd
    rw [if_neg ha] at ht0
    refine ((complete_kept t0 (contextOf i s u m) i.uses hh).kpreds d rfl).trans ?_
    rw [ht0]
    exact writeK_kpred _ _ d b hes hd

/-! ### Births -/

/-- What minting touches: TCTL.BTFULL, the birth index, and the strand's stores (R104, R108, R110). -/
def Touch.births : Touch := { ctl := fun n => n == 1 || n == 0x11, launches := true }

theorem creg_ctl {s t : State} {u n : Nat} (h : (t.strand u).ctl = { (s.strand u).ctl with tctl := (t.strand u).ctl.tctl, btnext := (t.strand u).ctl.btnext })
    (hn : n < 0x12) (h0 : n ≠ 0x0B) (h1 : n ≠ 1) (h11 : n ≠ 0x11) : t.creg u n = s.creg u n := by
  have key : ∀ a b : Ctl, b = { a with tctl := b.tctl, btnext := b.btnext } → b.fctl = a.fctl ∧ b.rctl = a.rctl ∧ b.chki = a.chki ∧
      b.crew = a.crew ∧ b.genk = a.genk ∧ b.genc = a.genc ∧ b.tvec = a.tvec ∧ b.tfp = a.tfp ∧ b.gspan = a.gspan ∧
      b.qmap = a.qmap ∧ b.batch = a.batch ∧ b.stfq = a.stfq ∧ b.btbase = a.btbase := by
    intro a b h
    cases a
    cases b
    simp only [Ctl.mk.injEq] at h
    simp only [h, and_self]
  obtain ⟨c0, c2, c3, c4, c5, c6, c7, c8, c9, ca, cc, ce, c10⟩ := key _ _ h
  unfold State.creg ctlRead
  interval_cases n <;> first | contradiction | (dsimp only; assumption) | simp only

/-- An update of a strand's stores, birth index and BTFULL. -/
theorem body_births (s : State) (u : Nat) (f : Strand → Strand) (h : s.has u)
    (hf : ∀ st : Strand, f st = { st with buf := (f st).buf, reserved := (f st).reserved, ctl := (f st).ctl } ∧
      (f st).ctl = { st.ctl with tctl := (f st).ctl.tctl, btnext := (f st).ctl.btnext }) :
    Body Touch.births s (s.modStrand u f) u := by
  have hs := strand_modStrand_self s u f h
  obtain ⟨h1, h2⟩ := hf (s.strand u)
  have hth : ((f (s.strand u)).threads) = (s.strand u).threads := by rw [h1]
  have ht : ∀ i, (f (s.strand u)).thread i = (s.strand u).thread i := fun i => by unfold Strand.thread; rw [hth]
  refine ⟨⟨fun _ _ => rfl, fun _ _ => rfl, fun _ _ => rfl, fun x hx => strand_modStrand_ne s u x f hx, ?_, ?_, ?_, ?_, ?_, ?_, ?_,
    fun _ => rfl, ?_⟩, ?_, ?_, fun _ => (has_modStrand s u u f).2 h, ?_⟩
  · intro i c _; unfold State.vreg; rw [hs, ht]
  · intro i c _; unfold State.pred; rw [hs, ht]
  · intro c _; unfold State.sreg; rw [hs, h1]
  · intro c _; unfold State.kpred; rw [hs, h1]
  · intro n hn h0 hc
    simp only [Touch.births, Bool.or_eq_false_iff, beq_eq_false_iff_ne] at hc
    exact creg_ctl (by rw [hs]; exact h2) hn h0 hc.1 hc.2
  · intro j _; unfold State.queue; rw [hs, h1]
  · intro _; rw [hs, h1]; exact ⟨rfl, rfl, rfl⟩
  · intro _
    rw [hs]
    exact ⟨fun i => by rw [ht], fun i he => by rw [ht]; exact ⟨he, rfl⟩, by rw [h1]⟩
  · intro i; rw [hs, ht]
  · rw [hs, hth]
  · rw [hs]
    exact ⟨by rw [h1], by rw [h1], fun i => by rw [ht]⟩

theorem body_modLaunch (s : State) (u l : Nat) (f : Launch → Launch) :
    Body Touch.births s (s.modLaunch l f) u := by
  refine ⟨⟨fun _ _ => rfl, fun _ _ => rfl, fun _ _ => rfl, fun _ _ => rfl, fun _ _ _ => rfl, fun _ _ _ => rfl, fun _ _ => rfl,
    fun _ _ => rfl, ?_, fun _ _ => rfl, fun _ => ⟨rfl, rfl, rfl⟩, fun h => by simp [Touch.births] at h,
    fun _ => ⟨fun _ => rfl, fun _ he => ⟨he, rfl⟩, rfl⟩⟩, fun _ => rfl, rfl, id, rfl, rfl, fun _ => rfl⟩
  intro n hn h0 hc
  simp only [Touch.births, Bool.or_eq_false_iff, beq_eq_false_iff_ne] at hc
  exact creg_ctl rfl hn h0 hc.1 hc.2

theorem newId_body (w : Touch) (s : State) (u : Nat) : Body w s s.newId.2 u :=
  ⟨⟨fun _ _ => rfl, fun _ _ => rfl, fun _ _ => rfl, fun _ _ => rfl, fun _ _ _ => rfl, fun _ _ _ => rfl, fun _ _ => rfl,
    fun _ _ => rfl, fun n _ _ _ => by interval_cases n <;> rfl, fun _ _ => rfl, fun _ => ⟨rfl, rfl, rfl⟩, fun _ => rfl,
    fun _ => ⟨fun _ => rfl, fun _ he => ⟨he, rfl⟩, rfl⟩⟩, fun _ => rfl, rfl, id, rfl, rfl, fun _ => rfl⟩

theorem takeIndex_body (s : State) (u : Nat) (h : s.has u) : Body Touch.births s (takeIndex s u).2 u := by
  unfold takeIndex
  dsimp only
  split
  · split
    · exact body_births s u _ h fun st => ⟨rfl, rfl⟩
    · exact body_births s u _ h fun st => ⟨rfl, rfl⟩
  · split
    · exact body_births s u _ h fun st => ⟨rfl, rfl⟩
    · split
      · exact body_births s u _ h fun st => ⟨rfl, rfl⟩
      · exact body_modLaunch s u _ _

theorem mint_body (s : State) (u : Nat) (pc : BitVec 62) (own : List Nat) (un : Bool) (r : Birth) (h : s.has u) :
    Body Touch.births s (mint s u pc own un r).2 u := by
  have ht := takeIndex_body s u h
  unfold mint
  split
  · next s' he => rw [he] at ht; exact ht
  · next n s' he =>
    rw [he] at ht
    exact ht.trans ((newId_body _ s' u).trans (body_births _ u _ (ht.has h) fun st => ⟨rfl, rfl⟩))

theorem resultTag_body (s : State) (cx : Cx) (own : List Nat) (un : Bool) (lane : Nat) (srcs listed : List Tag) (ev : Event) (fmt : Nat)
    (pat : Word) (h : s.has cx.u) : Body Touch.births s (resultTag s cx own un lane srcs listed ev fmt pat).2 cx.u := by
  unfold resultTag
  dsimp only
  split
  · exact Body.refl _ _ _
  · split
    · exact Body.refl _ _ _
    · split
      · exact Body.refl _ _ _
      · split
        · exact mint_body _ _ _ _ _ _ h
        · split
          · exact Body.refl _ _ _
          · exact mint_body _ _ _ _ _ _ h

/-- The tags of lane results: words as they are, some tag each, births minted. -/
theorem tagLanes_body (s : State) (cx : Cx) (fmt : Nat) (rs : List (Nat × LaneRes)) (h : s.has cx.u) :
    Body Touch.births s (tagLanes s cx fmt rs).1 cx.u ∧
      (tagLanes s cx fmt rs).2.map (fun r => (r.1, r.2.1)) = rs.map fun r => (r.1, r.2.words) := by
  have key : ∀ (l : List (Nat × LaneRes)) (a : State × List (Nat × List Word × Tag)), Body Touch.births s a.1 cx.u →
      Body Touch.births s (l.foldl (fun a r =>
        let t := resultTag a.1 cx [r.1] false ((a.1.strand cx.u).thread r.1).lane r.2.srcs r.2.listed r.2.event fmt r.2.pat
        (t.2, a.2 ++ [(r.1, r.2.words, t.1)])) a).1 cx.u ∧
      (l.foldl (fun a r =>
        let t := resultTag a.1 cx [r.1] false ((a.1.strand cx.u).thread r.1).lane r.2.srcs r.2.listed r.2.event fmt r.2.pat
        (t.2, a.2 ++ [(r.1, r.2.words, t.1)])) a).2.map (fun r => (r.1, r.2.1)) =
        a.2.map (fun r => (r.1, r.2.1)) ++ l.map fun r => (r.1, r.2.words) := by
    intro l
    induction l with
    | nil => intro a ha; simpa using ha
    | cons r l ih =>
      intro a ha
      rw [List.foldl_cons]
      dsimp only
      have hb := ha.trans (resultTag_body a.1 cx [r.1] false ((a.1.strand cx.u).thread r.1).lane r.2.srcs r.2.listed r.2.event fmt r.2.pat
        (ha.has h))
      obtain ⟨i1, i2⟩ := ih ((resultTag a.1 cx [r.1] false ((a.1.strand cx.u).thread r.1).lane r.2.srcs r.2.listed r.2.event fmt
        r.2.pat).2, a.2 ++ [(r.1, r.2.words, (resultTag a.1 cx [r.1] false ((a.1.strand cx.u).thread r.1).lane r.2.srcs r.2.listed
        r.2.event fmt r.2.pat).1)]) hb
      refine ⟨i1, i2.trans ?_⟩
      simp
  have := key rs (s, []) (Body.refl _ _ _)
  simpa [tagLanes] using this

/-- Without minting, a result's tag is the one its rule picks, whatever its event (R101). -/
theorem resultTag_noMint (s : State) (cx : Cx) (own : List Nat) (un : Bool) (lane : Nat) (srcs listed : List Tag) (ev : Event) (fmt : Nat)
    (pat : Word) (h : ((s.strand cx.u).tagEn && (s.strand cx.u).mintOn) = false) :
    resultTag s cx own un lane srcs listed ev fmt pat = (if (s.strand cx.u).tagEn then tagPick cx.here cx.rule srcs else 0, s) := by
  unfold resultTag
  dsimp only
  cases he : (s.strand cx.u).tagEn
  · rfl
  · rw [he, Bool.true_and] at h
    rw [h]
    simp only [Bool.not_true, Bool.false_eq_true, ↓reduceIte]
    cases ev <;> simp

theorem tagLanes_noMint (s : State) (cx : Cx) (fmt : Nat) (rs : List (Nat × LaneRes))
    (h : ((s.strand cx.u).tagEn && (s.strand cx.u).mintOn) = false) :
    tagLanes s cx fmt rs =
      (s, rs.map fun r => (r.1, r.2.words, if (s.strand cx.u).tagEn then tagPick cx.here cx.rule r.2.srcs else 0)) := by
  have key : ∀ (l : List (Nat × LaneRes)) (acc : List (Nat × List Word × Tag)),
      l.foldl (fun a r =>
        let t := resultTag a.1 cx [r.1] false ((a.1.strand cx.u).thread r.1).lane r.2.srcs r.2.listed r.2.event fmt r.2.pat
        (t.2, a.2 ++ [(r.1, r.2.words, t.1)])) (s, acc) =
      (s, acc ++ l.map fun r => (r.1, r.2.words, if (s.strand cx.u).tagEn then tagPick cx.here cx.rule r.2.srcs else 0)) := by
    intro l
    induction l with
    | nil => intro acc; simp
    | cons r l ih =>
      intro acc
      rw [List.foldl_cons]
      dsimp only
      rw [resultTag_noMint _ _ _ _ _ _ _ _ _ _ h]
      dsimp only
      rw [ih]
      simp
  unfold tagLanes
  rw [key rs []]
  rfl

/-! ### Floating-point results -/

theorem byLane_nodup (st : Strand) (m : BitVec 32) : (st.byLane m).Nodup := by
  unfold Strand.byLane
  refine List.Nodup.filterMap ?_ List.nodup_range
  intro a a' b hb hb'
  have h1 := List.find?_some hb
  have h2 := List.find?_some hb'
  simp only [Bool.and_eq_true, beq_iff_eq] at h1 h2
  exact h1.1.symm.trans h2.1

theorem acting_nodup (i : Instr) (s : State) (u : Nat) (m : BitVec 32) : (acting i s u m).Nodup := (byLane_nodup _ _).filter _

/-- Results keyed by threads, given back as functions of the thread. -/
theorem keyed (act : List Nat) (ws : List (Nat × List Word × Tag)) (f : Nat → List Word)
    (h : ws.map (fun r => (r.1, r.2.1)) = act.map fun j => (j, f j)) (hn : act.Nodup) :
    ∃ tag : Nat → Tag, ws = act.map fun j => (j, f j, tag j) := by
  refine ⟨fun j => ((ws.find? fun r => r.1 == j).map (·.2.2)).getD 0, ?_⟩
  induction act generalizing ws with
  | nil => simpa using h
  | cons a l ih =>
    cases ws with
    | nil => simp at h
    | cons r ws =>
      simp only [List.map_cons, List.cons.injEq, Prod.mk.injEq] at h
      obtain ⟨⟨h1, h2⟩, h3⟩ := h
      obtain ⟨r1, r2, r3⟩ := r
      dsimp only at h1 h2
      subst h1 h2
      have hn' := List.nodup_cons.1 hn
      rw [List.map_cons]
      congr 1
      · simp
      · refine (ih ws h3 hn'.2).trans (List.map_congr_left fun j hj => ?_)
        have hne : (r1 == j) = false := by
          have : r1 ≠ j := fun e => hn'.1 (e ▸ hj)
          simpa using this
        dsimp only
        rw [List.find?_cons]
        dsimp only
        rw [hne]

/-- The touch of flags and generator. -/
def Touch.fp (draw : Bool) : Touch := { ctl := fun c => c == 0 || (draw && c == 6) }

theorem settleFp_body (s : State) (u g : Nat) (draw : Bool) (h : s.has u) : Body (Touch.fp draw) s (settleFp s u g draw) u := by
  unfold settleFp
  have hs := fun f => strand_modStrand_self s u f h
  have key : ∀ st : Strand, ∃ a b, (if draw then (st.raise g).advance else st.raise g) = { st with ctl := { st.ctl with fctl := a, genc := b } } := by
    intro st
    cases draw
    · exact ⟨_, _, rfl⟩
    · exact ⟨_, _, rfl⟩
  obtain ⟨a, b, hk⟩ := key (s.strand u)
  refine ⟨⟨fun _ _ => rfl, fun _ _ => rfl, fun _ _ => rfl, fun x hx => strand_modStrand_ne s u x _ hx, ?_, ?_, ?_, ?_, ?_, ?_, ?_,
    fun _ => rfl, ?_⟩, ?_, ?_, fun _ => (has_modStrand s u u _).2 h, ?_⟩
  · intro i c _; unfold State.vreg; rw [hs]; dsimp only; rw [hk]; rfl
  · intro i c _; unfold State.pred; rw [hs]; dsimp only; rw [hk]; rfl
  · intro c _; unfold State.sreg; rw [hs]; dsimp only; rw [hk]
  · intro c _; unfold State.kpred; rw [hs]; dsimp only; rw [hk]
  · intro n hn h0 hc
    simp only [Touch.fp, Bool.or_eq_false_iff, beq_eq_false_iff_ne] at hc
    obtain ⟨c0, c6⟩ := hc
    unfold State.creg ctlRead btnextOf State.launch
    rw [hs]
    cases draw
    · interval_cases n <;> first | contradiction | rfl
    · replace c6 : n ≠ 6 := by simpa using c6
      dsimp only
      rw [hk]
      interval_cases n <;> first | contradiction | rfl
  · intro j _; unfold State.queue; rw [hs]; dsimp only; rw [hk]
  · intro _; rw [hs]; dsimp only; rw [hk]; exact ⟨rfl, rfl, rfl⟩
  · intro _; rw [hs]; dsimp only; rw [hk]; exact ⟨fun _ => rfl, fun _ he => ⟨he, rfl⟩, rfl⟩
  · intro i; rw [hs]; dsimp only; rw [hk]; rfl
  · rw [hs]; dsimp only; rw [hk]
  · rw [hs]; dsimp only; rw [hk]; exact ⟨rfl, rfl, fun _ => rfl⟩

theorem settleFp_creg (s : State) (u g : Nat) (draw : Bool) (h : s.has u) :
    (settleFp s u g draw).creg u 0 = s.creg u 0 ||| BitVec.ofNat 64 (g % 32 * 256) ∧
      (settleFp s u g draw).creg u 6 = s.creg u 6 + if draw then 1 else 0 := by
  unfold settleFp State.creg ctlRead
  rw [strand_modStrand_self s u _ h]
  cases draw
  · refine ⟨rfl, ?_⟩
    simp only [Bool.false_eq_true, ↓reduceIte]
    exact (BitVec.add_zero _).symm
  · exact ⟨rfl, rfl⟩

theorem complete_creg (s : State) (cx : Cx) (us : List Use) (h : s.has cx.u) (n : Nat)
    (hn : n ∈ [0, 1, 4, 5, 6, 7, 8, 9, 0xA, 0xC, 0xE, 0x10]) : (complete s cx us false 0).creg cx.u n = s.creg cx.u n := by
  have := complete_only s cx us false 0 { q := fun _ => true, ctl := fun n => n == 2 || n == 3 || n == 0x11 } h (fun _ _ => rfl)
    fun _ n hn => by rcases hn with rfl | rfl | rfl <;> rfl
  simp only [List.mem_cons, List.not_mem_nil, or_false] at hn
  refine this.cregs n (by omega) (by omega) ?_
  rcases hn with rfl | rfl | rfl | rfl | rfl | rfl | rfl | rfl | rfl | rfl | rfl | rfl <;> rfl

/-- A floating-point instruction without poison that no enabled flag turns into a trap, after whose results `put` writes what `w0`
names (WUPD's predicates). -/
theorem fp_lanes_then (i : Instr) (s : State) (u : Nat) (m : BitVec 32) (d n fmt : Nat) (draw : Bool)
    (body : Cx → State → Eff) (f : Nat → LaneRes) (put : State → State) (w0 : Nat → Nat → Bool) (Q : State → Prop) (h : Ready i s u m)
    (hb : body (contextOf i s u m) (entered i s u m) =
      match finishLanes (entered i s u m) (contextOf i s u m) d fmt draw ((acting i s u m).map fun j => (j, f j)) with
      | .done s p => .done (put s) p
      | e => e)
    (hput : ∀ t, t.has u → (t.strand u).threads.length = (s.strand u).threads.length → Body { p := w0 } t (put t) u ∧ Q (put t))
    (hQ : ∀ t, t.has u → Q t → Q (complete t (contextOf i s u m) i.uses false 0))
    (hf : ∀ j ∈ acting i s u m, (f j).poison = false ∧ (f j).words.length = n)
    (hx : ∀ s', exec i s' = issue i s' body) :
    (s.strand u).fpTrap (gather ((acting i s u m).map fun j => (f j).flags)) = none →
    Completes i s u m
      { Touch.vec i s u m d n with
        p := w0
        ctl := fun c => c == 0 || (draw && c == 6) || (s.mints u && (c == 1 || c == 0x11))
        launches := s.mints u } fun t =>
      (∃ tags : Nat → Tag, (s.mints u = false → ∀ j ∈ acting i s u m, tags j = plainTag i s u m (f j).srcs) ∧
        Gives i s t u m d n fun j k => { val := (f j).words.getD k 0, tag := tags j }) ∧
      (acting i s u m ≠ [] →
        t.creg u 0 = s.creg u 0 ||| BitVec.ofNat 64 (gather ((acting i s u m).map fun j => (f j).flags) % 32 * 256) ∧
        t.creg u 6 = s.creg u 6 + (if draw then 1 else 0) ∧ Q t) := by
  intro htrap
  have hs := issuing_has s u m h.atIssue
  have he := entered_quiet i s u m hs
  have hes := he.beside.has.2 hs
  obtain ⟨hTb, hTw⟩ := tagLanes_body (entered i s u m) (contextOf i s u m) fmt ((acting i s u m).map fun j => (j, f j)) hes
  replace hTb : Body Touch.births (entered i s u m) _ u := hTb
  obtain ⟨tags, htags⟩ := keyed (acting i s u m) _ (fun j => (f j).words) (hTw.trans (by rw [List.map_map]; rfl)) (acting_nodup i s u m)
  have hno : s.mints u = false → ∀ j ∈ acting i s u m, tags j = plainTag i s u m (f j).srcs := by
    intro hm j hj
    have hm' : (((entered i s u m).strand (contextOf i s u m).u).tagEn && ((entered i s u m).strand (contextOf i s u m).u).mintOn) = false := by
      rw [contextOf_u, he.agree.tagEn, he.agree.mintOn]; exact hm
    have h2 := tagLanes_noMint (entered i s u m) (contextOf i s u m) fmt ((acting i s u m).map fun j => (j, f j)) hm'
    rw [h2] at htags
    dsimp only at htags
    rw [List.map_map] at htags
    have := (List.map_inj_left.1 htags) j hj
    simp only [Function.comp, Prod.mk.injEq, true_and] at this
    rw [← this, contextOf_u, he.agree.tagEn]
    rfl
  have hsame : s.mints u = false → (tagLanes (entered i s u m) (contextOf i s u m) fmt ((acting i s u m).map fun j => (j, f j))).1 =
      entered i s u m := by
    intro hm
    have hm' : (((entered i s u m).strand (contextOf i s u m).u).tagEn && ((entered i s u m).strand (contextOf i s u m).u).mintOn) = false := by
      rw [contextOf_u, he.agree.tagEn, he.agree.mintOn]; exact hm
    rw [tagLanes_noMint _ _ _ _ hm']
  generalize hst : (tagLanes (entered i s u m) (contextOf i s u m) fmt ((acting i s u m).map fun j => (j, f j))).1 = s1 at hTb hsame
  let ws : Nat → List Word × Tag := fun j => ((f j).words, tags j)
  have hlen : ∀ j ∈ acting i s u m, (ws j).1.length = n := fun j hj => (hf j hj).2
  have hg : gather (((acting i s u m).map fun j => (j, f j)).map (·.2.flags)) = gather ((acting i s u m).map fun j => (f j).flags) := by
    rw [List.map_map]; rfl
  have hs1 : s1.has u := hTb.has hes
  have hW : Body (Touch.vec i s u m d n) s1 (writeD s1 (contextOf i s u m) d ((acting i s u m).map fun j => (j, ws j))) u := by
    refine writeD_body s1 (contextOf i s u m) d _ _ hs1 ?_ ?_
    · intro hd r hr c h1 h2
      obtain ⟨j, hj, rfl⟩ := List.mem_map.1 hr
      dsimp only at h2
      rw [hlen j hj] at h2
      simp [Touch.vec, hd, hj, h1, h2]
    · intro hd
      simp [Touch.vec, hd]
  have hS := settleFp_body (writeD s1 (contextOf i s u m) d ((acting i s u m).map fun j => (j, ws j))) u
    (gather ((acting i s u m).map fun j => (f j).flags)) draw (hW.has hs1)
  have hC := settleFp_creg (writeD s1 (contextOf i s u m) d ((acting i s u m).map fun j => (j, ws j))) u
    (gather ((acting i s u m).map fun j => (f j).flags)) draw (hW.has hs1)
  let t1 := settleFp (writeD s1 (contextOf i s u m) d ((acting i s u m).map fun j => (j, ws j))) u
    (gather ((acting i s u m).map fun j => (f j).flags)) draw
  have ht1 : t1.has u := hS.has (hW.has hs1)
  have hlen1 : (t1.strand u).threads.length = (s.strand u).threads.length := hS.len.trans (hW.len.trans (hTb.len.trans he.agree.len))
  obtain ⟨hU, hUQ⟩ := hput t1 ht1 hlen1
  refine completes_of i s u m _ _ body (put t1) h (hx s) (fun _ => ?_) (fun _ => ?_) fun t0 ht0 hh => ?_
  · rw [hb]
    unfold finishLanes orFpTrap
    dsimp only
    rw [hg, contextOf_u]
    have htr : ((entered i s u m).strand u).fpTrap (gather ((acting i s u m).map fun j => (f j).flags)) = none := by
      unfold Strand.fpTrap at htrap ⊢
      rw [he.agree.fctl]
      exact htrap
    rw [htr]
    have hp : ((acting i s u m).map fun j => (j, f j)).any (·.2.poison) = false := List.any_eq_false.2 fun r hr => by
      obtain ⟨j, hj, rfl⟩ := List.mem_map.1 hr
      simp [(hf j hj).1]
    dsimp only
    rw [hst, htags, hp]
    rfl
  · have m1 : Touch.le (Touch.vec i s u m d n) _ := (by
      refine ⟨fun _ h => h, fun _ _ h => h, fun _ _ h => ?_, fun _ h => h, fun _ h => h, fun _ h => ?_, fun _ h => h, id, fun h => ?_, id⟩
      · simp [Touch.vec] at h
      · simp [Touch.vec] at h
      · simp [Touch.vec] at h : Touch.le (Touch.vec i s u m d n) { Touch.vec i s u m d n with
          p := w0
          ctl := fun c => c == 0 || (draw && c == 6) || (s.mints u && (c == 1 || c == 0x11))
          launches := s.mints u })
    have m2 : Touch.le (Touch.fp draw) { Touch.vec i s u m d n with
          p := w0
          ctl := fun c => c == 0 || (draw && c == 6) || (s.mints u && (c == 1 || c == 0x11))
          launches := s.mints u } := by
      refine ⟨fun _ h => by simp [Touch.fp] at h, fun _ _ h => by simp [Touch.fp] at h, fun _ _ h => by simp [Touch.fp] at h,
        fun _ h => by simp [Touch.fp] at h, fun _ h => by simp [Touch.fp] at h, fun _ h => ?_, fun _ h => by simp [Touch.fp] at h,
        fun h => by simp [Touch.fp] at h, fun h => by simp [Touch.fp] at h, fun h => by simp [Touch.fp] at h⟩
      simp only [Touch.fp] at h
      simp [h]
    have m3 : Touch.le { p := w0 } { Touch.vec i s u m d n with
          p := w0
          ctl := fun c => c == 0 || (draw && c == 6) || (s.mints u && (c == 1 || c == 0x11))
          launches := s.mints u } :=
      ⟨fun _ h => by simp at h, fun _ _ h => by simp at h, fun _ _ h => h, fun _ h => by simp at h, fun _ h => by simp at h,
        fun _ h => by simp at h, fun _ h => by simp at h, fun h => by simp at h, fun h => by simp at h, fun h => by simp at h⟩
    refine Body.trans ?_ ((hW.mono m1).trans ((hS.mono m2).trans (hU.mono m3)))
    cases hm : s.mints u
    · rw [hsame hm]; exact Body.refl _ _ _
    · refine hTb.mono ⟨fun _ h => by simp [Touch.births] at h, fun _ _ h => by simp [Touch.births] at h, fun _ _ h => by simp [Touch.births] at h,
        fun _ h => by simp [Touch.births] at h, fun _ h => by simp [Touch.births] at h, fun _ h => ?_, fun _ h => by simp [Touch.births] at h,
        fun h => by simp [Touch.births] at h, fun h => rfl, fun h => by simp [Touch.births] at h⟩
      simp only [Touch.births] at h
      simp only [Bool.true_and]
      rw [h, Bool.or_true]
  · have hK := complete_kept t0 (contextOf i s u m) i.uses hh
    refine ⟨⟨tags, hno, Gives_core i s u m d n _ t0 h hh (fun hd hne hql => ?_) fun hd j hj k hk h0 => ?_⟩, fun hne => ?_⟩
    · rw [if_neg hne] at ht0
      rw [ht0]
      refine (hU.only.queues (d - 248) rfl).trans ((hS.only.queues (d - 248) rfl).trans ?_)
      refine (writeD_queue s1 (contextOf i s u m) d (acting i s u m) ws hs1 hd
        (by rw [contextOf_u, hTb.shape.2.1, he.agree.q]; exact hql)).trans ?_
      rw [contextOf_u]
      have e1 : s1.queue u (d - 248) = s.queue u (d - 248) := by
        refine (hTb.only.queues (d - 248) rfl).trans ?_
        unfold State.queue
        rw [he.agree.q]
      rw [e1]
      congr 2
      unfold queueEntry
      have e2 : ∀ j, ((s1.strand u).thread j).lane = ((s.strand u).thread j).lane := fun j =>
        (hTb.shape.2.2 j).trans (he.agree.lane j)
      have e3 : (s1.strand u).prot = (s.strand u).prot := hTb.shape.1.trans he.agree.prot
      simp only [e2, e3]
      rfl
    · rw [if_neg (List.ne_nil_of_mem hj)] at ht0
      rw [ht0]
      refine (hU.only.vregs j (d + k) rfl).trans ((hS.only.vregs j (d + k) rfl).trans ?_)
      exact writeD_vreg s1 (contextOf i s u m) d (acting i s u m) ws hs1 hd j hj
        (by rw [contextOf_u, hTb.len, he.agree.len]; exact (acting_lt i s u m j hj).1) k (by rw [hlen j hj]; exact hk) h0
    · rw [if_neg hne] at ht0
      have step : ∀ n, n = 0 ∨ n = 6 → (writeD s1 (contextOf i s u m) d ((acting i s u m).map fun j => (j, ws j))).creg u n = s.creg u n := by
        rintro n hn
        have hn12 : n < 0x12 ∧ n ≠ 0x0B ∧ n ≠ 2 ∧ n ≠ 3 ∧ n ≠ 0x11 ∧ n ≠ 1 := by omega
        refine (hW.only.cregs n hn12.1 hn12.2.1 rfl).trans ((hTb.only.cregs n hn12.1 hn12.2.1 ?_).trans ?_)
        · simp [Touch.births, hn12]
        · exact creg_agree he.agree hn12.1 hn12.2.1 hn12.2.2.1 hn12.2.2.2.1 hn12.2.2.2.2.1
      refine ⟨(complete_creg t0 (contextOf i s u m) i.uses hh 0 (by simp)).trans ?_,
        (complete_creg t0 (contextOf i s u m) i.uses hh 6 (by simp)).trans ?_, hQ t0 hh (by rw [ht0]; exact hUQ)⟩
      · rw [ht0]
        exact (hU.only.cregs 0 (by decide) (by decide) rfl).trans (hC.1.trans (by rw [step 0 (by simp)]))
      rw [ht0]
      refine (hU.only.cregs 6 (by decide) (by decide) rfl).trans (hC.2.trans ?_)
      rw [step 6 (by simp)]

/-- A floating-point instruction without poison that no enabled flag turns into a trap. -/
theorem fp_lanes (i : Instr) (s : State) (u : Nat) (m : BitVec 32) (d n fmt : Nat) (draw : Bool)
    (body : Cx → State → Eff) (f : Nat → LaneRes) (h : Ready i s u m)
    (hb : body (contextOf i s u m) (entered i s u m) = finishLanes (entered i s u m) (contextOf i s u m) d fmt draw
      ((acting i s u m).map fun j => (j, f j)))
    (hf : ∀ j ∈ acting i s u m, (f j).poison = false ∧ (f j).words.length = n)
    (hx : ∀ s', exec i s' = issue i s' body) :
    FpResult i s u m d n draw (fun j => (f j).words) (fun j => (f j).flags) fun j => plainTag i s u m (f j).srcs := by
  intro htrap
  obtain ⟨t, h1, ⟨h2, h3⟩, h4, h5⟩ := fp_lanes_then i s u m d n fmt draw body f id (fun _ _ => false) (fun _ => True) h
    (by rw [hb]; generalize finishLanes _ _ _ _ _ _ = r; cases r <;> rfl) (fun t _ _ => ⟨Body.refl _ _ _, trivial⟩)
    (fun _ _ _ => trivial) hf hx htrap
  exact ⟨t, h1, ⟨h2, fun ha => ⟨(h3 ha).1, (h3 ha).2.1⟩⟩, h4, h5⟩

/-! ### Results restated, and the operations' own lemmas -/

theorem VecResult.congr {i : Instr} {s : State} {u : Nat} {m : BitVec 32} {d n : Nat} {w w' : Nat → List Word} {t t' : Nat → Tag}
    (h : VecResult i s u m d n w t) (hw : ∀ j, w j = w' j) (ht : ∀ j, t j = t' j) : VecResult i s u m d n w' t' := by
  have e1 : w = w' := funext hw
  have e2 : t = t' := funext ht
  rw [← e1, ← e2]
  exact h

theorem FpResult.congr {i : Instr} {s : State} {u : Nat} {m : BitVec 32} {d n : Nat} {dr : Bool} {w w' : Nat → List Word} {f f' : Nat → Nat}
    {t t' : Nat → Tag} (h : FpResult i s u m d n dr w f t) (hw : ∀ j, w j = w' j) (hf : ∀ j, f j = f' j) (ht : ∀ j, t j = t' j) :
    FpResult i s u m d n dr w' f' t' := by
  have e1 : w = w' := funext hw
  have e2 : f = f' := funext hf
  have e3 : t = t' := funext ht
  rw [← e1, ← e2, ← e3]
  exact h

theorem readS_one (s : State) (u c : Nat) (h : (s.strand u).clean = true) : ((s.strand u).readS c 1).w = (s.sreg u c).val ∧ ((s.strand u).readS c 1).tag = (s.sreg u c).tag := by
  unfold Strand.clean at h
  simp only [Bool.and_eq_true] at h
  unfold Strand.readS
  rw [readWords_clean _ h.1]
  unfold Opd.w State.sreg
  simp [upFrom]

theorem wordsOf1 (x : BitVec 64) : wordsOfNat 1 x.toNat = [x.setWidth 32] := by
  simp only [wordsOfNat, List.range_succ, List.range_zero, List.map_nil, List.nil_append, List.map_cons]
  congr 1
  apply BitVec.eq_of_toNat_eq
  simp

theorem wordsOf2 (x : BitVec 64) : wordsOfNat 2 x.toNat = [x.setWidth 32, (x >>> 32).setWidth 32] := by
  simp only [wordsOfNat, List.range_succ, List.range_zero, List.map_nil, List.nil_append, List.map_cons, List.cons_append]
  congr 1
  · apply BitVec.eq_of_toNat_eq
    simp
  · congr 1
    apply BitVec.eq_of_toNat_eq
    simp [Nat.shiftRight_eq_div_pow]

theorem leaOf_eq (b : BitVec 64) (a : Word) (sc : Nat) (d : BitVec 64) : leaOf b a sc d = b + a.setWidth 64 * BitVec.ofNat 64 (2 ^ sc) + d := by
  unfold leaOf
  congr 2
  apply BitVec.eq_of_toNat_eq
  simp [BitVec.toNat_mul]


theorem scanLanes_spec (cx : Cx) (op : Nat) (excl : Bool) (c : Rnd) (st : Strand) (a : Nat) (act : List Nat) (hn : act.Nodup) (p : Prefix) (born : Bool) :
    ∃ first : Nat → Bool, scanLanes cx op excl c st a act p born = act.map fun j =>
      (j, prefixRes cx op (((prefixOf act excl j).map fun k => cx.v st k a 1).foldl (scanStep op c) p) (first j)) := by
  induction act generalizing p born with
  | nil => exact ⟨fun _ => false, rfl⟩
  | cons i is ih =>
    have hn' := List.nodup_cons.1 hn
    unfold scanLanes
    dsimp only
    obtain ⟨first, hf⟩ := ih hn'.2 (if excl && is.isEmpty then p else scanStep op c p (cx.v st i a 1)) (born ||
      ((if excl then p else if excl && is.isEmpty then p else scanStep op c p (cx.v st i a 1)).poison ||
       (op == 1 && (if excl then p else if excl && is.isEmpty then p else scanStep op c p (cx.v st i a 1)).val.any fun v => Fmt.f32.special v.toNat)))
    refine ⟨fun j => if j = i then !born else first j, ?_⟩
    rw [hf, List.map_cons]
    congr 1
    · congr 1
      cases excl <;> simp [prefixOf]
    · refine List.map_congr_left fun j hj => ?_
      have hji : j ≠ i := fun e => hn'.1 (e ▸ hj)
      have hne : is.isEmpty = false := by cases is <;> simp_all
      have hij : (i != j) = true := by simp [Ne.symm hji]
      simp only [if_neg hji, hne, Bool.and_false, Bool.false_eq_true, if_false]
      congr 2
      unfold prefixOf
      rw [List.takeWhile_cons_of_pos (by simpa using Ne.symm hji)]
      simp


theorem leastOf_single (cls : Nat) (t : Tag) : leastOf cls [t] = if tagClass t == cls then some t else none := by
  unfold leastOf
  cases h : tagClass t == cls <;> simp [h]

theorem leastOf_class {cls : Nat} {l : List Tag} {t : Tag} (h : leastOf cls l = some t) : tagClass t = cls := by
  unfold leastOf at h
  have key : ∀ (l : List Tag) (a : Option Tag), (∀ t ∈ l, tagClass t = cls) → (∀ t, a = some t → tagClass t = cls) → ∀ t,
      l.foldl (fun a t => match a with | none => some t | some b => if t.toNat < b.toNat then some t else some b) a = some t → tagClass t = cls := by
    intro l
    induction l with
    | nil => intro a _ ha t ht; exact ha t ht
    | cons x l ih =>
      intro a hl ha t ht
      rw [List.foldl_cons] at ht
      refine ih _ (fun t ht => hl t (by simp [ht])) ?_ t ht
      intro y hy
      have hx := hl x (by simp)
      split at hy
      · injection hy with hy; exact hy ▸ hx
      · next b =>
        split at hy
        · injection hy with hy; exact hy ▸ hx
        · injection hy with hy; exact hy ▸ ha b rfl
  exact key _ none (fun t ht => by simpa using (List.mem_filter.1 ht).2) (fun t ht => by simp at ht) t h

theorem tagPick_idem (here : Tag) (rule : Nat) (l : List Tag) : tagPick here rule [tagPick here rule l] = tagPick here rule l := by
  unfold tagPick
  split
  · cases h : l.find? isBirth with
    | none => simp only [Option.getD_none]; cases hb : isBirth here <;> simp [hb]
    | some t => simp [List.find?_some h]
  · cases h : earliest l with
    | none =>
      unfold earliest
      rw [leastOf_single]
      simp only [Option.getD_none]
      split <;> rfl
    | some t =>
      unfold earliest at h ⊢
      rw [leastOf_single]
      simp [leastOf_class h]
  · rfl
  · rfl
  · rfl


theorem fpLane_spec (i : Instr) (f : Fmt) (n d rm fmt : Nat) (op : FpOp) (ops : State → Nat → BitVec 32 → Nat → List Opd)
   (cops : Cx → Strand → Nat → List Opd) (hn : f.width / 32 = n)
   (hx : ∀ s, exec i s = issue i s (fpLanes d fmt rm cops fun st l => fpLane f st rm l op))
   (h1 : ∀ s u m j, ops s u m j = cops (contextOf i s u m) (s.strand u) j)
   (h2 : ∀ cx (a b : Strand) j, Agree a b → cops cx b j = cops cx a j)
   (h3 : ∀ cx (a : Strand) j, a.clean = true → ∀ o ∈ cops cx a j, o.poison = false) : Rounds i f n d rm op ops := by
  intro s u m h hc
  have he := h.agree
  refine FpResult.congr (fp_lanes i s u m d n fmt (draws s u rm) _ (fun j => fpLane f (s.strand u) rm ((s.strand u).thread j).lane op (ops s u m j)) h ?_ ?_ hx) (fun j => ?_) (fun j => rfl) fun j => rfl
  · unfold fpLanes
    dsimp only
    simp only [contextOf_u, contextOf_act, he.rmEff, he.lane]
    unfold draws
    congr 1
    refine List.map_congr_left fun j _ => ?_
    rw [h2 _ _ _ _ he, ← h1]
    unfold fpLane
    rw [he.rnd]
  · intro j _
    constructor
    · unfold fpLane laneRes
      dsimp only
      rw [List.any_eq_false]
      intro o ho
      rw [h1] at ho
      simp [h3 _ _ _ hc o ho]
    · simp [fpLane, laneRes, wordsOfNat, hn]

  · simp [fpLane, laneRes, hn, roundOf]


/-- A vector instruction that writes its words and tags without a result's rule (SREAD, TAG.GET). -/
theorem vec_write (i : Instr) (s : State) (u : Nat) (m : BitVec 32) (d n : Nat) (body : Cx → State → Eff) (words : Nat → List Word)
    (tag : Nat → Tag) (h : Ready i s u m) (hx : ∀ s', exec i s' = issue i s' body) (hn : ∀ j ∈ acting i s u m, (words j).length = n)
    (hb : body (contextOf i s u m) (entered i s u m) =
      .ok (writeD (entered i s u m) (contextOf i s u m) d ((acting i s u m).map fun j => (j, words j, tag j)))) :
    VecResult i s u m d n words tag :=
  completes_of i s u m _ _ body _ h (hx s) (fun _ => hb)
    (fun _ => writeD_touch i s u m d n (fun j => (words j, tag j)) (issuing_has s u m h.atIssue) hn)
    fun t0 ht0 hh => Gives_of i s u m d n (fun j => (words j, tag j)) t0 h hn ht0 hh

theorem readV_clean (st : Strand) (h : st.clean = true) (i c n : Nat) : ((st.thread i).readV c n).poison = false := by
  unfold Thread.readV
  rw [readWords_clean _ (clean_thread st h i)]

theorem readV_one (s : State) (u j c : Nat) (h : (s.strand u).clean = true) :
    (((s.strand u).thread j).readV c 1).w = (s.vreg u j c).val ∧ (((s.strand u).thread j).readV c 1).tag = (s.vreg u j c).tag := by
  unfold Thread.readV
  rw [readWords_clean _ (clean_thread _ h j)]
  unfold Opd.w State.vreg
  simp [upFrom]

theorem scaleReg_agree {a b : Strand} (h : Agree a b) (l c : Nat) : scaleReg b l c = scaleReg a l c := by
  have hm : b.threads.map (fun t => (t.lane, t.v)) = a.threads.map (fun t => (t.lane, t.v)) := by
    refine List.ext_getElem (by simp [h.len]) fun i h1 h2 => ?_
    rw [List.length_map] at h1 h2
    have hl := h.lane i
    have hv := h.v i
    unfold Strand.thread at hl hv
    rw [List.getD_eq_getElem _ _ h1, List.getD_eq_getElem _ _ h2] at hl hv
    simp [hl, hv]
  have key : ∀ st : Strand, scaleReg st l c = match (st.threads.map (fun t => (t.lane, t.v))).find? (fun x => x.1 == l / 16 * 16) with
      | some x => readWords x.2 c 1
      | none => {} := by
    intro st
    unfold scaleReg
    rw [List.find?_map]
    simp only [Function.comp_def]
    cases st.threads.find? fun t => t.lane == l / 16 * 16 <;> rfl
  rw [key, key, hm]

theorem fp1_spec (i : Instr) (o : Un) (op : FpOp) (hx : ∀ s, exec i s = issue i s (fp1 o op)) : Rounds i .f32 1 o.d o.rm op (opdsA i o) :=
  fpLane_spec i .f32 1 o.d o.rm 2 op _ (ops1 o) rfl hx (fun _ _ _ _ => rfl) (fun cx a b j he => by simp only [ops1, he.cxv])
    fun cx a j hc x hx => by
      simp only [ops1, List.mem_cons, List.not_mem_nil, or_false] at hx
      subst hx
      exact v_clean _ _ hc _ _ _

theorem fp2_spec (i : Instr) (f : Fmt) (n fmt : Nat) (o : Alu) (op : FpOp) (hn : f.width / 32 = n)
    (hx : ∀ s, exec i s = issue i s (fpLanes o.d fmt o.rm (ops2 o n) fun st l => fpLane f st o.rm l op)) : Rounds i f n o.d o.rm op (opdsAB i o n) :=
  fpLane_spec i f n o.d o.rm fmt op _ (ops2 o n) hn hx (fun _ _ _ _ => rfl) (fun cx a b j he => by simp only [ops2, he.cxv, he.cxsrc])
    fun cx a j hc x hx => by
      simp only [ops2, List.mem_cons, List.not_mem_nil, or_false] at hx
      rcases hx with rfl | rfl
      · exact v_clean _ _ hc _ _ _
      · exact src_clean _ _ hc _ _ _

theorem fp3_spec (i : Instr) (f : Fmt) (n fmt : Nat) (o : Alu) (op : FpOp) (hn : f.width / 32 = n)
    (hx : ∀ s, exec i s = issue i s (fpLanes o.d fmt o.rm (ops3 o n) fun st l => fpLane f st o.rm l op)) : Rounds i f n o.d o.rm op (opdsABC i o n) :=
  fpLane_spec i f n o.d o.rm fmt op _ (ops3 o n) hn hx (fun _ _ _ _ => rfl) (fun cx a b j he => by simp only [ops3, ops2, he.cxv, he.cxsrc])
    fun cx a j hc x hx => by
      simp only [ops3, ops2, List.mem_cons, List.cons_append, List.nil_append, List.not_mem_nil, or_false] at hx
      rcases hx with rfl | rfl | rfl
      · exact v_clean _ _ hc _ _ _
      · exact src_clean _ _ hc _ _ _
      · exact v_clean _ _ hc _ _ _

theorem packed_spec (i : Instr) (f : Fmt) (d rm fmt : Nat) (op : FpOp) (ops : State → Nat → BitVec 32 → Nat → List Opd)
   (cops : Cx → Strand → Nat → List Opd)
   (hx : ∀ s, exec i s = issue i s (fpLanes d fmt rm cops fun st l => packedLane f st rm l op))
   (h1 : ∀ s u m j, ops s u m j = cops (contextOf i s u m) (s.strand u) j)
   (h2 : ∀ cx (a b : Strand) j, Agree a b → cops cx b j = cops cx a j)
   (h3 : ∀ cx (a : Strand) j, a.clean = true → ∀ o ∈ cops cx a j, o.poison = false) : RoundsPacked i f d rm op ops := by
  intro s u m h hc
  have he := h.agree
  refine FpResult.congr (fp_lanes i s u m d 1 fmt (draws s u rm) _ (fun j => packedLane f (s.strand u) rm ((s.strand u).thread j).lane op (ops s u m j)) h ?_ ?_ hx) (fun j => rfl) (fun j => rfl) fun j => rfl
  · unfold fpLanes
    dsimp only
    simp only [contextOf_u, contextOf_act, he.rmEff, he.lane]
    unfold draws
    refine congrArg (finishLanes _ _ _ _ _) (List.map_congr_left fun j _ => ?_)
    rw [h2 _ _ _ _ he, ← h1]
    unfold packedLane
    dsimp only
    simp only [he.rnd]
  · intro j _
    refine ⟨?_, rfl⟩
    unfold packedLane laneRes
    dsimp only
    rw [List.any_eq_false]
    intro o ho
    rw [h1] at ho
    simp [h3 _ _ _ hc o ho]

theorem pk2 (i : Instr) (f : Fmt) (fmt : Nat) (o : Alu) (op : FpOp)
    (hx : ∀ s, exec i s = issue i s (fpLanes o.d fmt o.rm (ops2 o 1) fun st l => packedLane f st o.rm l op)) : RoundsPacked i f o.d o.rm op (opdsAB i o 1) :=
  packed_spec i f o.d o.rm fmt op _ (ops2 o 1) hx (fun _ _ _ _ => rfl) (fun cx a b j he => by simp only [ops2, he.cxv, he.cxsrc])
    fun cx a j hc x hx => by
      simp only [ops2, List.mem_cons, List.not_mem_nil, or_false] at hx
      rcases hx with rfl | rfl
      · exact v_clean _ _ hc _ _ _
      · exact src_clean _ _ hc _ _ _

theorem pk3 (i : Instr) (f : Fmt) (fmt : Nat) (o : Alu) (op : FpOp)
    (hx : ∀ s, exec i s = issue i s (fpLanes o.d fmt o.rm (ops3 o 1) fun st l => packedLane f st o.rm l op)) : RoundsPacked i f o.d o.rm op (opdsABC i o 1) :=
  packed_spec i f o.d o.rm fmt op _ (ops3 o 1) hx (fun _ _ _ _ => rfl) (fun cx a b j he => by simp only [ops3, ops2, he.cxv, he.cxsrc])
    fun cx a j hc x hx => by
      simp only [ops3, ops2, List.mem_cons, List.cons_append, List.nil_append, List.not_mem_nil, or_false] at hx
      rcases hx with rfl | rfl | rfl
      · exact v_clean _ _ hc _ _ _
      · exact src_clean _ _ hc _ _ _
      · exact v_clean _ _ hc _ _ _

theorem minmax_spec (max : Bool) (o : Alu) (i : Instr) (hx : ∀ s, exec i s = issue i s (minmaxLanes max o)) (s u m) (h : Ready i s u m) (hc : (s.strand u).clean) :
    VecResult i s u m o.d 1 (fun j => [BitVec.ofNat 32 (fminmax max (s.strand u).ftz (vOpd i s u m j o.a 1).w.toNat (srcOpd i s u m j o.b 1).w.toNat)])
      fun j => plainTag i s u m [(vOpd i s u m j o.a 1).tag, (srcOpd i s u m j o.b 1).tag] := by
  have he := h.agree
  have := vec_plain i s u m o.d 1 2 _ (fun j => laneRes [BitVec.ofNat 32 (fminmax max (s.strand u).ftz (vOpd i s u m j o.a 1).w.toNat (srcOpd i s u m j o.b 1).w.toNat)] 0 none
     [vOpd i s u m j o.a 1, srcOpd i s u m j o.b 1]) h ?_ ?_ hx
  · exact this
  · unfold minmaxLanes
    dsimp only
    refine congrArg (finishLanes _ _ _ _ _) (List.map_congr_left fun j _ => ?_)
    simp only [contextOf_u, he.cxv, he.cxsrc, he.ftz]
    rfl
  · intro j _
    refine laneRes_plain _ _ ?_
    simp only [List.mem_cons, List.not_mem_nil, or_false]
    rintro _ (rfl | rfl)
    · exact v_clean _ _ hc _ _ _
    · exact src_clean _ _ hc _ _ _

/-- Uniform sources agree where strands do. -/
theorem Agree.uniSrc {a b : Strand} (h : Agree a b) (x : Src) (n : Nat) : Machine.uniSrc b x n = Machine.uniSrc a x n := by
  unfold Machine.uniSrc
  cases x <;> simp only [h.readS]

theorem uniSrc_clean (st : Strand) (h : st.clean = true) (x : Src) (n : Nat) : (uniSrc st x n).poison = false := by
  unfold uniSrc
  cases x
  · exact readS_clean _ h _ _
  · exact readS_clean _ h _ _
  · rfl
  · rfl

theorem opShl_eq {w : Nat} (a : BitVec w) (n : Nat) : opShl a n = a <<< n := by
  unfold opShl
  split
  · next h => symm; exact BitVec.shiftLeft_eq_zero h
  · rfl

theorem opShr_eq {w : Nat} (a : BitVec w) (n : Nat) : opShr a n = a >>> n := by
  unfold opShr
  split
  · next h => symm; exact BitVec.ushiftRight_eq_zero h
  · rfl

theorem opSar_eq {w : Nat} (a : BitVec w) (n : Nat) : opSar a n = a.sshiftRight n := by
  unfold opSar
  split
  · next h =>
    apply BitVec.eq_of_getLsbD_eq
    intro k hk
    rw [BitVec.getLsbD_sshiftRight]
    have hk2 : ¬ (w ≤ k) := by omega
    have : ¬ (n + k < w) := by omega
    have e : (-1 : BitVec w) = BitVec.allOnes w := BitVec.neg_one_eq_allOnes
    cases a.msb
    · simp [hk, hk2, this]
    · simp only [↓reduceIte, e, BitVec.getLsbD_allOnes]
      simp [hk, hk2, this]
  · rfl

theorem salu_spec (i : Instr) (o : SAlu) (f g : (w : Nat) → BitVec w → BitVec w → BitVec w) (hx : ∀ s, exec i s = issue i s (salu o f))
    (hfg : ∀ a b, f 32 a b = g 32 a b) (hfg' : ∀ a b, f 64 a b = g 64 a b) : UniBinary i o g := by
  intro s u m h hc
  have he := h.agree
  have hu : ∀ n, uniSrc ((entered i s u m).strand u) o.b n = uniSrc (s.strand u) o.b n := by
    exact fun n => he.uniSrc o.b n
  have hp : ∀ n, (uniSrc (s.strand u) o.b n).poison = false := fun n => uniSrc_clean _ hc o.b n
  dsimp only
  have := uni_plain i s u m o.d (if o.b64 then 2 else 1) (if o.b64 then 1 else 0) (salu o f)
    (laneRes (if o.b64 then wordsOfNat 2 (f 64 ((s.strand u).readS o.a (if o.b64 then 2 else 1)).d (uniSrc (s.strand u) o.b (if o.b64 then 2 else 1)).d).toNat
      else [f 32 ((s.strand u).readS o.a (if o.b64 then 2 else 1)).w (uniSrc (s.strand u) o.b (if o.b64 then 2 else 1)).w]) 0 none
      [(s.strand u).readS o.a (if o.b64 then 2 else 1), uniSrc (s.strand u) o.b (if o.b64 then 2 else 1)]) h hx ?_ ?_ ?_
  · unfold laneRes at this
    dsimp only at this
    rw [hfg, hfg', wordsOf2] at this
    exact this
  · unfold laneRes
    dsimp only
    cases o.b64 <;> simp [wordsOfNat]
  · have := laneRes_plain (if o.b64 then wordsOfNat 2 (f 64 ((s.strand u).readS o.a (if o.b64 then 2 else 1)).d (uniSrc (s.strand u) o.b (if o.b64 then 2 else 1)).d).toNat
      else [f 32 ((s.strand u).readS o.a (if o.b64 then 2 else 1)).w (uniSrc (s.strand u) o.b (if o.b64 then 2 else 1)).w])
      [(s.strand u).readS o.a (if o.b64 then 2 else 1), uniSrc (s.strand u) o.b (if o.b64 then 2 else 1)] (by
        simp only [List.mem_cons, List.not_mem_nil, or_false]
        rintro _ (rfl | rfl)
        · exact readS_clean _ hc _ _
        · exact hp _)
    exact ⟨this.1, this.2.1, this.2.2.1⟩
  · unfold salu
    dsimp only
    rw [contextOf_u, he.readS, hu]

/-- A uniform floating-point result without poison that no enabled flag turns into a trap. -/
theorem uni_fp (i : Instr) (s : State) (u : Nat) (m : BitVec 32) (d fmt : Nat) (body : Cx → State → Eff) (r : LaneRes) (w : Word)
    (h : Ready i s u m) (hx : ∀ s', exec i s' = issue i s' body) (hw : r.words = [w]) (hp : r.poison = false)
    (hb : body (contextOf i s u m) (entered i s u m) = finishUniform (entered i s u m) (contextOf i s u m) d fmt false r) :
    UniFpResult i s u m d w r.flags (plainTag i s u m r.srcs) := by
  intro htrap
  have he := h.quiet
  have hes := h.has
  let W : Touch := { s := fun c => decide (acting i s u m ≠ [] ∧ c = d)
                     ctl := fun c => c == 0 || (s.mints u && (c == 1 || c == 0x11))
                     launches := s.mints u }
  have hRb := resultTag_body (entered i s u m) (contextOf i s u m) ((contextOf i s u m).threads ((entered i s u m).strand u)) true 0 r.srcs r.listed
    r.event fmt r.pat hes
  have hno := fun hm => resultTag_noMint (entered i s u m) (contextOf i s u m) ((contextOf i s u m).threads ((entered i s u m).strand u)) true 0 r.srcs r.listed
    r.event fmt r.pat hm
  generalize hR : resultTag (entered i s u m) (contextOf i s u m) ((contextOf i s u m).threads ((entered i s u m).strand u)) true 0 r.srcs r.listed
    r.event fmt r.pat = R at hRb hno
  replace hRb : Body Touch.births (entered i s u m) R.2 u := hRb
  replace hno : s.mints u = false → R = (plainTag i s u m r.srcs, entered i s u m) := by
    intro hm
    rw [hno (by rw [contextOf_u, he.agree.tagEn, he.agree.mintOn]; exact hm), contextOf_u, he.agree.tagEn]
    rfl
  have hs1 : R.2.has u := hRb.has hes
  have hW := writeU_body R.2 (contextOf i s u m) d r.words R.1 { s := fun c => c == d } hs1 (by rw [hw]; intro c h1 h2; simp at h2; simp; omega)
  replace hW : Body { s := fun c => c == d } R.2 (writeU R.2 (contextOf i s u m) d r.words R.1) u := hW
  have hS := settleFp_body (writeU R.2 (contextOf i s u m) d r.words R.1) u r.flags false (hW.has hs1)
  have hC := settleFp_creg (writeU R.2 (contextOf i s u m) d r.words R.1) u r.flags false (hW.has hs1)
  refine completes_of i s u m _ _ body (settleFp (writeU R.2 (contextOf i s u m) d r.words R.1) u r.flags false) h (hx s) (fun _ => ?_) (fun ha => ?_) fun t0 ht0 hh hne => ?_
  · rw [hb]
    unfold finishUniform orFpTrap
    have htr : ((entered i s u m).strand u).fpTrap r.flags = none := by
      unfold Strand.fpTrap at htrap ⊢
      rw [he.agree.fctl]
      exact htrap
    rw [contextOf_u, htr]
    dsimp only
    rw [hR, hp]
    rfl
  · have m1 : Touch.le { s := fun c => c == d } W := by
      refine ⟨fun _ h => by simp at h, fun _ _ h => by simp at h, fun _ _ h => by simp at h, fun c h => ?_, fun _ h => by simp at h,
        fun _ h => by simp at h, fun _ h => by simp at h, fun h => by simp at h, fun h => by simp at h, fun h => by simp at h⟩
      have : c = d := by simpa using h
      simp [W, ha, this]
    have m2 : Touch.le (Touch.fp false) W := by
      refine ⟨fun _ h => by simp [Touch.fp] at h, fun _ _ h => by simp [Touch.fp] at h, fun _ _ h => by simp [Touch.fp] at h, fun c h => by simp [Touch.fp] at h, fun _ h => by simp [Touch.fp] at h,
        fun _ h => ?_, fun _ h => by simp [Touch.fp] at h, fun h => by simp [Touch.fp] at h, fun h => by simp [Touch.fp] at h, fun h => by simp [Touch.fp] at h⟩
      simp only [Touch.fp] at h
      simp only [W]
      simp_all
    refine Body.trans ?_ ((hW.mono m1).trans (hS.mono m2))
    cases hm : s.mints u
    · rw [hno hm]; exact Body.refl _ _ _
    · refine hRb.mono ⟨fun _ h => by simp [Touch.births] at h, fun _ _ h => by simp [Touch.births] at h, fun _ _ h => by simp [Touch.births] at h,
        fun _ h => by simp [Touch.births] at h, fun _ h => by simp [Touch.births] at h, fun _ h => ?_, fun _ h => by simp [Touch.births] at h,
        fun h => by simp [Touch.births] at h, fun h => rfl, fun h => by simp [Touch.births] at h⟩
      simp only [Touch.births] at h
      simp only [Bool.true_and]
      rw [h, Bool.or_true]
  · rw [if_neg hne] at ht0
    have hK := complete_kept t0 (contextOf i s u m) i.uses hh
    refine ⟨⟨R.1, fun hm => by rw [hno hm], fun hd => ?_⟩, ?_⟩
    · refine (hK.sregs d rfl).trans ?_
      rw [ht0]
      refine (hS.only.sregs d rfl).trans ?_
      have := writeU_sreg R.2 (contextOf i s u m) d r.words R.1 hs1 0 (by rw [hw]; exact Nat.one_pos) hd
      rw [hw] at this ⊢
      exact this
    · refine (complete_creg t0 (contextOf i s u m) i.uses hh 0 (by simp)).trans ?_
      rw [ht0]
      refine hC.1.trans ?_
      congr 1
      refine (hW.only.cregs 0 (by decide) (by decide) rfl).trans ((hRb.only.cregs 0 (by decide) (by decide) rfl).trans ?_)
      exact creg_agree he.agree (by decide) (by decide) (by decide) (by decide) (by decide)

end Sys2Proof.Machine
end

