-- ==== Sys2Proof/Laws/Traps.lean ====
section
/-!
SUPPORT. Jumps, the device's own writes, and taking a trap: what each leaves.
-/

namespace Sys2Proof.Machine

/-! ### Jumps -/

/-- An instruction that moves its threads' pcs itself, from its readiness to its completion. `t0` is what its meaning leaves, or
the state it entered where no thread acts. -/
theorem goes_of (i : Instr) (s : State) (u : Nat) (m : BitVec 32) (base : State) (w : Touch) (pc : Nat → BitVec 62) (P : State → Prop)
    (body : Cx → State → Eff) (t1 : State) (taken : BitVec 32) (h : Ready i s u m) (hx : exec i s = issue i s body)
    (hb : acting i s u m ≠ [] → body (contextOf i s u m) (entered i s u m) = .jump t1 taken)
    (hO0 : acting i s u m = [] → Only (w.of i) base (entered i s u m) u)
    (hO : acting i s u m ≠ [] → Only (w.of i) base t1 u ∧ t1.has u)
    (hp0 : acting i s u m = [] → ∀ j, m.getLsbD j = true → pc j = nextPc i s u m)
    (hp : acting i s u m ≠ [] → ∀ j, j < (s.strand u).threads.length →
      ((t1.strand u).thread j).pc = if m.getLsbD j then pc j else s.pcOf u j)
    (hP : ∀ t0 t, t0 = (if acting i s u m = [] then entered i s u m else t1) →
      Agree (movedOn (t0.strand u) (contextOf i s u m) (acting i s u m ≠ [])) (t.strand u) → P t) :
    GoesFrom base i s u m w pc P := by
  have hs := issuing_has s u m h.atIssue
  have hes := h.has
  by_cases ha : acting i s u m = []
  · obtain ⟨hA, hS, hB⟩ := complete_spec (entered i s u m) (contextOf i s u m) i.uses false 0 hes
    refine ⟨complete (entered i s u m) (contextOf i s u m) i.uses false 0, ?_, hP (entered i s u m) _ (by rw [if_pos ha]) ?_, ?_, ?_⟩
    · rw [hx, issue_ready i s u m body h]
      simp only [ha, List.isEmpty_nil, ↓reduceIte]
      rfl
    · simp only [ha, ne_eq, not_true_eq_false, decide_false]
      exact hA
    · refine (hO0 ha).trans ?_
      exact complete_only (entered i s u m) (contextOf i s u m) i.uses false 0 (w.of i) hes
        (fun j hj => by simp [Touch.of, contextOf_pops i s u m j hj]) fun hB n hn => by
          have : isBoundary i.op i.uses = true := hB
          rcases hn with rfl | rfl | rfl <;> simp [Touch.of, closes, this]
    · intro j hj
      refine (hS j).trans ?_
      refine (congrArg Thread.pc (movedOn_thread ((entered i s u m).strand u) (contextOf i s u m) false j)).trans ?_
      have hl : ((entered i s u m).strand u).threads.length = (s.strand u).threads.length := h.agree.len
      by_cases hm : m.getLsbD j = true
      · rw [if_pos ⟨rfl, by rw [hl]; exact hj, hm⟩, if_pos hm, hp0 ha j hm]
        rfl
      · rw [if_neg (fun hc => hm hc.2.2), if_neg hm]
        exact h.quiet.stay j
  · obtain ⟨hO1, hh⟩ := hO ha
    obtain ⟨hA, hS, hB⟩ := complete_spec t1 (contextOf i s u m) i.uses true taken hh
    refine ⟨complete t1 (contextOf i s u m) i.uses true taken, ?_, hP t1 _ (by rw [if_neg ha]) ?_, ?_, ?_⟩
    · have hem : (acting i s u m).isEmpty = false := by simpa using ha
      rw [hx, issue_ready i s u m body h, hb ha, hem]
      rfl
    · simp only [ha, ne_eq, not_false_eq_true, decide_true]
      exact hA
    · refine hO1.trans ?_
      exact complete_only t1 (contextOf i s u m) i.uses true taken (w.of i) hh
        (fun j hj => by simp [Touch.of, contextOf_pops i s u m j hj]) fun hB n hn => by
          have : isBoundary i.op i.uses = true := hB
          rcases hn with rfl | rfl | rfl <;> simp [Touch.of, closes, this]
    · intro j hj
      refine (hS j).trans ?_
      refine (congrArg Thread.pc (movedOn_thread (t1.strand u) (contextOf i s u m) true j)).trans ?_
      rw [if_neg (fun hc => by simp at hc)]
      exact hp ha j hj

/-! ### Numbers in bytes -/

@[simp] theorem length_toBytes (n x : Nat) : (toBytes n x).length = n := by
  induction n generalizing x with
  | zero => rfl
  | succ n ih => simp [toBytes, ih]

theorem ofBytes_toBytes (n x : Nat) : ofBytes (toBytes n x) = x % 256 ^ n := by
  induction n generalizing x with
  | zero => simp [toBytes, ofBytes, Nat.mod_one]
  | succ n ih =>
    have h8 : (2 : Nat) ^ 8 = 256 := rfl
    rw [toBytes, ofBytes, ih, BitVec.toNat_ofNat, h8, Nat.pow_succ', Nat.mod_mul]

/-- A field of a concatenation that lies behind its first part, or at its start. -/
theorem field_skip (a b : List Byte) (off n : Nat) (h : a.length ≤ off) : field (a ++ b) off n = field b (off - a.length) n := by
  unfold field
  rw [List.drop_append, List.drop_of_length_le h, List.nil_append]

theorem field_here (b : List Byte) (n x : Nat) : field (toBytes n x ++ b) 0 n = x % 256 ^ n := by
  unfold field
  rw [List.drop_zero, List.take_append_of_le_length (by simp), List.take_of_length_le (by simp), ofBytes_toBytes]

/-! ### The device's own writes -/

theorem devLoc_mem (s t : State) (ctx va n l : Nat) (wr : Bool) (h : devLoc s ctx va n wr = some (l, t)) : ∃ m, t = { s with mem := m } := by
  unfold devLoc at h
  dsimp only at h
  generalize (leafCheck (if wr = true then Access.store else Access.load) true) = chk at h
  generalize (if wr = true then 2 ^ 11 else 0) = d at h
  split at h
  · split at h
    · simp at h
    · split at h
      · simp only [Option.some.injEq, Prod.mk.injEq] at h
        exact ⟨_, h.2.symm⟩
      · simp at h
  · simp at h

theorem devPut_mem (s t : State) (ctx va : Nat) (bs : List Byte) (h : devPut s ctx va bs = some t) : ∃ m, t = { s with mem := m } := by
  unfold devPut at h
  generalize pageCuts va bs (bs.length / 4096 + 2) = l at h
  induction l generalizing s with
  | nil => exact ⟨s.mem, by simpa using h.symm⟩
  | cons p l ih =>
    rw [List.foldlM_cons] at h
    cases hd : devLoc s ctx p.1 p.2.length true with
    | none => simp [hd] at h
    | some r =>
      obtain ⟨m, hm⟩ := devLoc_mem s r.2 ctx p.1 p.2.length r.1 true hd
      simp only [hd, Option.map_some, Option.bind_eq_bind, Option.bind_some] at h
      obtain ⟨m', h'⟩ := ih _ h
      exact ⟨m', by rw [h', hm]; rfl⟩

/-- A write that the slot takes changes memory alone. -/
theorem slotWrite_mem (s : State) (u off : Nat) (bs : List Byte) (h : SlotOpen s u off bs.length) :
    ∃ m, slotWrite s u off bs = { s with mem := m } := by
  have := h bs rfl
  unfold slotWrite
  dsimp only
  unfold devWrite
  cases hd : devPut s (s.ctxOf (s.strand u)) (slotVA s (s.strand u) + off) bs with
  | none => simp [hd] at this
  | some t => exact devPut_mem _ _ _ _ _ hd

/-! ### The frame -/

theorem length_patch (l : List Byte) (off : Nat) (bs : List Byte) (h : off + bs.length ≤ l.length) : (patch l off bs).length = l.length := by
  unfold patch
  simp
  omega

theorem length_frameTags (x : Exc) (born : Bool) : (frameTags x born).2.length = 192 := by
  unfold frameTags
  split
  · exact List.length_replicate
  · split
    · simp only [List.length_append, List.length_replicate, length_toBytes]
    · generalize x.tags = l
      have : ∀ r : Nat × List Byte, r.2.length = 192 → (l.foldl (fun r e =>
          (r.1 + (if born && x.birth.any (fun b => b.lane == e.1) then 0 else e.2.2.2.2 * 2 ^ (2 * e.1)),
            patch r.2 (6 * (e.1 % 32)) (toBytes 2 e.2.1.toNat ++ toBytes 2 e.2.2.1.toNat ++ toBytes 2 e.2.2.2.1.toNat))) r).2.length = 192 := by
        induction l with
        | nil => exact fun r h => h
        | cons e l ih =>
          intro r h
          refine ih _ ?_
          rw [length_patch _ _ _ (by simp [h]; omega)]
          exact h
      exact this _ List.length_replicate

theorem length_frame (x : Exc) (born : Bool) (ctag : Tag) (lanes : BitVec 32) (pc w0 restart next : Nat) (a b : Word) :
    (frameBytes x born ctag lanes pc w0 restart next a b).length = 256 := by
  unfold frameBytes
  simp [length_frameTags]

/-- The frame's fields by their places (R334). -/
theorem frame_fields (x : Exc) (born : Bool) (ctag : Tag) (lanes : BitVec 32) (pc w0 restart next : Nat) (a b : Word) :
    let f := frameBytes x born ctag lanes pc w0 restart next a b
    field f 0 1 = x.cause % 256 ^ 1 ∧ field f 2 2 = x.sub % 256 ^ 2 ∧ field f 4 4 = lanes.toNat % 256 ^ 4 ∧ field f 8 8 = pc % 256 ^ 8 ∧
      field f 24 8 = x.addr % 256 ^ 8 ∧ field f 32 8 = restart % 256 ^ 8 ∧ field f 40 8 = next % 256 ^ 8 ∧
      field f 48 4 = a.toNat % 256 ^ 4 ∧ field f 52 4 = b.toNat % 256 ^ 4 := by
  dsimp only
  unfold frameBytes
  simp only [List.append_assoc]
  exact ⟨field_here _ _ _, field_here _ _ _, field_here _ _ _, field_here _ _ _, field_here _ _ _, field_here _ _ _, field_here _ _ _,
    field_here _ _ _, field_here _ _ _⟩

/-! ### Taking a trap -/

/-- The thread of strand `st` as the entry of a trap of the fragment `m` leaves it. -/
def trapThread (m : BitVec 32) (handler : BitVec 62) (i : Nat) (h : Thread) : Thread :=
  if m.getLsbD i then { h with inTrap := true, intr := some h.region, pc := handler, wait := .ready, outs := [] }
  else if h.live then { h with paused := true } else h

theorem trapTag_plain (s : State) (p : Site) (x : Exc) (h : x.birth.isSome = true → s.mints p.u = false) :
    ∃ c, trapTag s p x = (c, false, s) := by
  unfold trapTag
  dsimp only
  split
  · exact ⟨_, rfl⟩
  · next hen =>
    split
    · exact ⟨_, rfl⟩
    · next b hb =>
      have hm := h (by rw [hb]; rfl)
      unfold State.mints at hm
      have : (s.strand p.u).mintOn = false := by
        revert hm hen
        cases (s.strand p.u).tagEn <;> cases (s.strand p.u).mintOn <;> simp
      rw [this]
      exact ⟨_, rfl⟩

/-- The strand as a trap's entry leaves it, its new region apart. -/
def trapStrand (p : Site) (t : TrapState) (frame : Nat) (handler : BitVec 62) (st : Strand) : Strand :=
  let st := st.writeS 62 (wordsOfNat 2 frame) 0
  let st := { st with trap := some t, ctl := { st.ctl with tfp := BitVec.ofNat 64 frame } }
  { st with threads := st.threads.mapIdx (trapThread p.mask handler) }

theorem takeTrap_eq (s : State) (p : Site) (x : Exc) (hb : x.birth.isSome = true → s.mints p.u = false)
    (ht : (s.strand p.u).trap = none) (hv : (s.strand p.u).ctl.tvec ≠ 0) :
    let st := s.strand p.u
    let low := st.lowest p.mask
    let restart := x.restart.getD (if p.boundary then byteOf p.pc else byteOf (st.startOf low))
    let next := x.next.getD (byteOf (p.pc + BitVec.ofNat 62 p.words))
    let lanes := x.lanes.getD (st.laneMask (maskBits p.mask))
    let frame := slotVA s st + 0x400
    let handler := BitVec.ofNat 62 (st.ctl.tvec.toNat / 4)
    ∃ c, ∃ bytes, bytes = frameBytes x false c lanes (byteOf p.pc) p.word0 restart next (st.readS 62 1).w (st.readS 63 1).w ∧
      takeTrap s p x = openRegion ((slotWrite s p.u 0x400 bytes).modStrand p.u (trapStrand p
        { frag := p.mask, cause := x.cause, restart := BitVec.ofNat 64 restart, regional := restart == byteOf (st.startOf low),
          since := (slotWrite s p.u 0x400 bytes).uid, tag62 := (st.readS 62 1).tag, tag63 := (st.readS 63 1).tag } frame handler))
        p.u p.mask handler false := by
  obtain ⟨c, hc⟩ := trapTag_plain s p x hb
  dsimp only
  refine ⟨c, _, rfl, ?_⟩
  unfold takeTrap
  rw [hc]
  dsimp only
  rw [ht, if_neg (by simp), if_neg hv]
  rfl

/-- What `Only` sees of an update of strand `u`: registers but for those of `w`, control registers, flow. -/
structure Sees (w : Touch) (s : State) (a b : Strand) : Prop where
  ctl : ∀ n, n < 0x12 → n ≠ 0x0B → w.ctl n = false → ctlRead s b n = ctlRead s a n
  acc : w.acc = false → b.acc = a.acc ∧ b.rowmax = a.rowmax ∧ b.rowsum = a.rowsum
  s : ∀ c, w.s c = false → c ≠ 0 → sget {} b.s c = sget {} a.s c
  k : ∀ c, w.k c = false → predBit b.k c = predBit a.k c
  q : ∀ j, w.q j = false → b.q.getD j [] = a.q.getD j []
  v : ∀ i c, w.v i c = false → c ≠ 0 → sget {} (b.thread i).v c = sget {} (a.thread i).v c
  p : ∀ i c, w.p i c = false → predBit (b.thread i).p c = predBit (a.thread i).p c
  flow : w.flow = false → b.spans = a.spans ∧ ∀ i, (b.thread i).live = (a.thread i).live ∧
    ((a.thread i).exited = false → (b.thread i).exited = false ∧ (b.thread i).stack = (a.thread i).stack)

theorem only_modStrand (s : State) (u : Nat) (f : Strand → Strand) (w : Touch) (h : s.has u)
    (hk : Sees w s (s.strand u) (f (s.strand u))) : Only w s (s.modStrand u f) u := by
  have hs := strand_modStrand_self s u f h
  refine ⟨fun _ _ => rfl, fun _ _ => rfl, fun _ _ => rfl, fun x hx => strand_modStrand_ne s u x f hx, ?_, ?_, ?_, ?_, ?_, ?_, ?_,
    fun _ => rfl, ?_⟩
  · intro i c hc
    unfold State.vreg
    rw [hs]
    split
    · rfl
    · next h0 => exact hk.v i c hc h0
  · intro i c hc
    unfold State.pred
    rw [hs]
    exact hk.p i c hc
  · intro c hc
    unfold State.sreg
    rw [hs]
    split
    · rfl
    · next h0 => exact hk.s c hc h0
  · intro c hc
    unfold State.kpred
    rw [hs]
    exact hk.k c hc
  · intro n hn h0 hc
    unfold State.creg
    rw [hs]
    exact hk.ctl n hn h0 hc
  · intro j hj
    unfold State.queue
    rw [hs]
    exact hk.q j hj
  · intro ha
    rw [hs]
    exact hk.acc ha
  · intro hf
    rw [hs]
    obtain ⟨h1, h2⟩ := hk.flow hf
    exact ⟨fun i => (h2 i).1, fun i he => (h2 i).2 he, h1⟩

/-- Opening a region keeps every control register. -/
theorem openRegion_creg (s : State) (u : Nat) (m : BitVec 32) (pc : BitVec 62) (own : Bool) (h : s.has u) (n : Nat) (hn : n < 0x12)
    (h0 : n ≠ 0x0B) : (openRegion s u m pc own).creg u n = s.creg u n := by
  have hs : (openRegion s u m pc own).strand u = _ := strand_modStrand_self s.newId.2 u _ h
  exact State.creg_eq rfl (by rw [hs]; rfl) (by rw [hs]; rfl) (by rw [hs]; rfl) hn h0

theorem openRegion_only (s : State) (u : Nat) (m : BitVec 32) (pc : BitVec 62) (own : Bool) (h : s.has u) (w : Touch) :
    Only w s (openRegion s u m pc own) u :=
  only_of (openRegion_quiet s u m pc own h).beside (openRegion_quiet s u m pc own h).agree fun n hn h0 _ =>
    openRegion_creg s u m pc own h n hn h0

/-- Threads as a region's opening leaves them. -/
theorem openRegion_thread (s : State) (u : Nat) (m : BitVec 32) (pc : BitVec 62) (own : Bool) (h : s.has u) (i : Nat) :
    ((openRegion s u m pc own).strand u).thread i =
      if i < (s.strand u).threads.length ∧ m.getLsbD i then { (s.strand u).thread i with region := s.uid } else (s.strand u).thread i := by
  have hs : (openRegion s u m pc own).strand u = _ := strand_modStrand_self s.newId.2 u _ h
  rw [hs]
  exact thread_modThreads (s.strand u) m (fun t => { t with region := s.newId.1 }) i

theorem mapIdx_thread (st : Strand) (f : Nat → Thread → Thread) (hf : ∀ i, f i default = default) (i : Nat) :
    Strand.thread { st with threads := st.threads.mapIdx f } i = f i (st.thread i) := by
  rw [thread_mapped]
  split
  · rfl
  · next h => rw [thread_out st i h, hf]

theorem trapStrand_thread (p : Site) (t : TrapState) (frame : Nat) (handler : BitVec 62) (st : Strand) (i : Nat) :
    (trapStrand p t frame handler st).thread i =
      if i < st.threads.length then trapThread p.mask handler i (st.thread i) else st.thread i := by
  have h : (trapStrand p t frame handler st).thread i = if i < st.threads.length then trapThread p.mask handler i (st.thread i) else default :=
    thread_mapped { st with s := writeWords st.s 62 (wordsOfNat 2 frame) 0, trap := some t, ctl := { st.ctl with tfp := BitVec.ofNat 64 frame } } _ i
  rw [h]
  split
  · rfl
  · next hn => rw [thread_out _ _ hn]

theorem trapThread_keeps (m : BitVec 32) (handler : BitVec 62) (i : Nat) (h : Thread) :
    (trapThread m handler i h).v = h.v ∧ (trapThread m handler i h).p = h.p ∧ (trapThread m handler i h).live = h.live ∧
      (trapThread m handler i h).exited = h.exited ∧ (trapThread m handler i h).stack = h.stack ∧ (trapThread m handler i h).lane = h.lane := by
  unfold trapThread
  split
  · exact ⟨rfl, rfl, rfl, rfl, rfl, rfl⟩
  · split <;> exact ⟨rfl, rfl, rfl, rfl, rfl, rfl⟩

theorem trapStrand_sees (p : Site) (t : TrapState) (frame : Nat) (handler : BitVec 62) (s : State) (st : Strand) (w : Touch)
    (hs : ∀ c, c = 62 ∨ c = 63 → w.s c = true) (hc : w.ctl 8 = true) : Sees w s st (trapStrand p t frame handler st) where
  ctl := fun n hn h0 hw => by
    have h8 : n ≠ 8 := by rintro rfl; simp [hc] at hw
    interval_cases n <;> first | rfl | contradiction
  acc := fun _ => ⟨rfl, rfl, rfl⟩
  s := fun c hw h0 => by
    have hne : ¬ (62 ≤ c ∧ c < 62 + (wordsOfNat 2 frame).length) := by
      have hl : (wordsOfNat 2 frame).length = 2 := by simp [wordsOfNat]
      rw [hl]
      intro h
      have := hs c (by omega)
      simp [this] at hw
    have := writeWords_get st.s 62 (wordsOfNat 2 frame) 0 c h0
    rw [dif_neg hne] at this
    exact this
  k := fun _ _ => rfl
  q := fun _ _ => rfl
  v := fun i c _ _ => by
    rw [trapStrand_thread]
    split
    · rw [(trapThread_keeps _ _ _ _).1]
    · rfl
  p := fun i c _ => by
    rw [trapStrand_thread]
    split
    · rw [(trapThread_keeps _ _ _ _).2.1]
    · rfl
  flow := fun _ => ⟨rfl, fun i => by
    rw [trapStrand_thread]
    split
    · have := trapThread_keeps p.mask handler i (st.thread i)
      exact ⟨this.2.2.1, fun he => ⟨this.2.2.2.1.trans he, this.2.2.2.2.1⟩⟩
    · exact ⟨rfl, fun he => ⟨he, rfl⟩⟩⟩

/-- Two states in which the device reads the same. -/
structure SameDevice (s t : State) : Prop where
  mem : t.mem = s.mem
  contexts : t.contexts = s.contexts
  sec : t.sec = s.sec

theorem SameDevice.read {s t : State} (h : SameDevice s t) (l n : Nat) : t.readNat l n = s.readNat l n := by
  unfold State.readNat State.read
  rw [h.mem]

theorem SameDevice.walkFrom {s t : State} (h : SameDevice s t) (va k table : Nat) :
    Machine.walkFrom t va k table = Machine.walkFrom s va k table := by
  induction k generalizing table with
  | zero => simp only [Machine.walkFrom, walkFrom.walkAt, h.read]
  | succ k ih => simp only [Machine.walkFrom, h.read, ih]

theorem SameDevice.fillOk {s t : State} (h : SameDevice s t) (c : Context) (leaf shift : Nat) :
    Machine.fillOk t c leaf shift = Machine.fillOk s c leaf shift := by
  unfold Machine.fillOk potRange
  rw [h.sec]

theorem SameDevice.devGet {s t : State} (h : SameDevice s t) (ctx va n : Nat) : Machine.devGet t ctx va n = Machine.devGet s ctx va n := by
  unfold Machine.devGet devLoc walk State.context
  simp only [h.walkFrom, h.fillOk, h.contexts, Bool.false_eq_true, ↓reduceIte]
  split
  · split
    · rfl
    · split
      · simp only [Option.map_some, State.read, h.mem]
      · rfl
  · rfl

theorem Quiet.slotVA {u : Nat} {s t : State} (h : Quiet u s t) : Machine.slotVA t (t.strand u) = Machine.slotVA s (s.strand u) := by
  unfold Machine.slotVA State.launch
  rw [h.agree.launch, h.beside.launches, h.beside.skeins]
  have := h.agree.ids
  simp only [this]
  unfold blockVA blkSize
  have hd : SameDevice s t := ⟨h.beside.mem, h.beside.contexts, h.beside.sec⟩
  simp only [State.context, h.beside.contexts, hd.devGet]

theorem byteOf_lt (pc : BitVec 62) : byteOf pc < 2 ^ 64 := by unfold byteOf; omega

theorem startOf_entered (i : Instr) (s : State) (u : Nat) (m : BitVec 32) (h : isBoundary i.op i.uses = false) : entered i s u m = s := by
  unfold entered
  exact if_neg (by change ¬ isBoundary i.op i.uses = true; simp [h])

theorem stopRun_only (w : Touch) (s : State) (u : Nat) : Only w s (stopRun s) u :=
  only_of (stopRun_quiet s u).beside (stopRun_quiet s u).agree fun _ _ _ _ => rfl

/-- A body that traps, from a state in which nothing holds its instruction back. -/
theorem trap_from (e : State) (i : Instr) (s : State) (u : Nat) (m : BitVec 32) (body : Cx → State → Eff) (x : Exc) (h : Ready i s u m)
    (hx : exec i s = issue i s body) (ha : acting i s u m ≠ []) (hes : e.has u) (hst : e.strand u = (entered i s u m).strand u)
    (hb : body (contextOf i s u m) (entered i s u m) = .trap x e)
    (hr : x.restart = none) (hn : x.next = none) (hc : x.cause < 256) (hsub : x.sub < 65536) (had : x.addr < 2 ^ 64) :
    TrapsFrom e i s u m x.birth.isSome x.cause x.sub (x.lanes.getD ((s.strand u).laneMask (maskBits m))) x.addr := by
  unfold TrapsFrom
  intro frame htr htv hbo hop
  have hs := issuing_has s u m h.atIssue
  have hag : Agree (s.strand u) (e.strand u) := by rw [hst]; exact h.agree
  have hstay : Stay (s.strand u) (e.strand u) := by rw [hst]; exact h.quiet.stay
  have hctl := hag.ctls
  let x' : Exc := { x with tags := frameSrcs (e.strand u) (maskOf ((maskBits m).filter fun j => (x.lanes.getD ((e.strand u).laneMask (maskBits m))).getLsbD ((e.strand u).thread j).lane)) i.op i.fields i.uses (siteTag e (e.strand u) (siteOf s u m i i.op i.fields).pc), uniform := isUniform i.op, untagged := ruleOf (e.strand u) i.op i.fields.tr == 5 }
  have hexec : exec i s = .next (stopRun (takeTrap e (siteOf s u m i i.op i.fields) x')) := by
    have hem : (acting i s u m).isEmpty = false := by simpa using ha
    rw [hx, issue_ready i s u m body h, hb, hem]
    rfl
  have hmint : x'.birth.isSome = true → e.mints u = false := by
    intro h1
    have := hbo h1
    unfold State.mints at this ⊢
    rw [hag.tagEn, hag.mintOn]
    exact this
  have het : (e.strand u).trap = none := hag.trap.trans htr
  have hev : (e.strand u).ctl.tvec = (s.strand u).ctl.tvec := hctl.2.2.2.2.2.1
  obtain ⟨c, bytes, hbytes, htake⟩ := takeTrap_eq e (siteOf s u m i i.op i.fields) x' hmint het (by
    change (e.strand u).ctl.tvec ≠ 0
    rw [hev]; exact htv)
  have hlen : bytes.length = 256 := by rw [hbytes]; exact length_frame _ _ _ _ _ _ _ _ _ _
  obtain ⟨mem, hmem⟩ := slotWrite_mem e u 0x400 bytes (by rw [hlen]; exact hop)
  have hsw : (slotWrite e u 0x400 bytes).strand u = e.strand u := by rw [hmem]; rfl
  have hhas : (slotWrite e u 0x400 bytes).has u := by rw [hmem]; exact hes
  have hrestart : (x'.restart.getD (if (siteOf s u m i i.op i.fields).boundary then byteOf (siteOf s u m i i.op i.fields).pc
      else byteOf ((e.strand u).startOf ((e.strand u).lowest m)))) = restartOf i s u m := by
    change x.restart.getD _ = _
    rw [hr]
    unfold restartOf
    by_cases hB : isBoundary i.op i.uses = true
    · rw [if_pos hB]
      exact if_pos hB
    · rw [if_neg hB]
      refine (if_neg hB).trans ?_
      have : e.strand u = s.strand u := by rw [hst, startOf_entered i s u m (by simpa using hB)]
      rw [this]
  have hff := frame_fields x' false c (x'.lanes.getD ((e.strand u).laneMask (maskBits m))) (byteOf (siteOf s u m i i.op i.fields).pc)
    (siteOf s u m i i.op i.fields).word0 (restartOf i s u m) (x'.next.getD (byteOf ((siteOf s u m i i.op i.fields).pc +
      BitVec.ofNat 62 (siteOf s u m i i.op i.fields).words))) ((e.strand u).readS 62 1).w ((e.strand u).readS 63 1).w
  replace hbytes : bytes = frameBytes x' false c (x'.lanes.getD ((e.strand u).laneMask (maskBits m))) (byteOf (siteOf s u m i i.op i.fields).pc)
    (siteOf s u m i i.op i.fields).word0 (restartOf i s u m) (x'.next.getD (byteOf ((siteOf s u m i i.op i.fields).pc +
      BitVec.ofNat 62 (siteOf s u m i i.op i.fields).words))) ((e.strand u).readS 62 1).w ((e.strand u).readS 63 1).w := by
    rw [← hrestart]; exact hbytes
  rw [← hbytes] at hff
  have hrl : restartOf i s u m < 2 ^ 64 := by unfold restartOf; split <;> exact byteOf_lt _
  have hw0 : encode i % 2 ^ 32 < 2 ^ 32 := Nat.mod_lt _ (by decide)
  let T (R : Nat) : State := (slotWrite e u 0x400 bytes).modStrand u (trapStrand (siteOf s u m i i.op i.fields)
    (TrapState.mk m x.cause (BitVec.ofNat 64 R) (R == byteOf ((e.strand u).startOf ((e.strand u).lowest m)))
      (slotWrite e u 0x400 bytes).uid ((e.strand u).readS 62 1).tag ((e.strand u).readS 63 1).tag)
    (slotVA e (e.strand u) + 0x400) (BitVec.ofNat 62 ((e.strand u).ctl.tvec.toNat / 4)))
  let t1 := T (restartOf i s u m)
  have htake' : takeTrap e (siteOf s u m i i.op i.fields) x' = openRegion t1 u m (BitVec.ofNat 62 ((e.strand u).ctl.tvec.toNat / 4)) false := by
    refine Eq.trans (b := openRegion (T _) u m (BitVec.ofNat 62 ((e.strand u).ctl.tvec.toNat / 4)) false) htake ?_
    exact congrArg (fun R => openRegion (T R) u m (BitVec.ofNat 62 ((e.strand u).ctl.tvec.toNat / 4)) false) hrestart
  have ht1 : t1.strand u = _ := strand_modStrand_self (slotWrite e u 0x400 bytes) u _ hhas
  have ht1h : t1.has u := (has_modStrand _ _ _ _).2 hhas
  have hq := openRegion_quiet t1 u m (BitVec.ofNat 62 ((e.strand u).ctl.tvec.toNat / 4)) false ht1h
  refine ⟨_, bytes, TrapState.mk m x.cause (BitVec.ofNat 64 (restartOf i s u m)) (restartOf i s u m == byteOf ((e.strand u).startOf ((e.strand u).lowest m)))
      (slotWrite e u 0x400 bytes).uid ((e.strand u).readS 62 1).tag ((e.strand u).readS 63 1).tag,
    hexec, ⟨hlen, ?_, ?_, ?_, ?_, ?_, ?_, ?_, ?_, ?_, ?_⟩, ?_, ?_, ?_, ?_, ?_, rfl, rfl, rfl, ?_⟩
  · rw [hff.1]; exact Nat.mod_eq_of_lt hc
  · rw [hff.2.1]; exact Nat.mod_eq_of_lt hsub
  · rw [hff.2.2.1, hag.laneMask]
    exact Nat.mod_eq_of_lt (by omega)
  · rw [hff.2.2.2.2.1]; exact Nat.mod_eq_of_lt had
  · rw [hff.2.2.2.1]; exact Nat.mod_eq_of_lt (byteOf_lt _)
  · rw [hbytes]
    refine Eq.trans (b := (encode i % 2 ^ 32) % 256 ^ 4) (field_here _ _ _) (Nat.mod_eq_of_lt hw0)
  · rw [hff.2.2.2.2.2.1]; exact Nat.mod_eq_of_lt hrl
  · rw [hff.2.2.2.2.2.2.1]
    change (x.next.getD _) % _ = _
    rw [hn]; exact Nat.mod_eq_of_lt (byteOf_lt _)
  · rw [hff.2.2.2.2.2.2.2.1, hag.readS]; exact Nat.mod_eq_of_lt (by omega)
  · rw [hff.2.2.2.2.2.2.2.2, hag.readS]; exact Nat.mod_eq_of_lt (by omega)
  · rw [htake']
    refine Only.trans (t := t1) (only_modStrand (slotWrite e u 0x400 bytes) u _ _ hhas ?_)
      ((openRegion_only t1 u m _ false ht1h _).trans (stopRun_only _ _ _))
    exact trapStrand_sees _ _ _ _ _ _ _ (fun c hc => by rcases hc with rfl | rfl <;> rfl) rfl
  · rw [htake']
    unfold State.sreg
    rw [if_neg (by decide)]
    change sget {} ((openRegion t1 u m _ false).strand u).s 62 = _
    rw [hq.agree.s, ht1]
    refine (writeWords_get _ 62 (wordsOfNat 2 (slotVA e (e.strand u) + 0x400)) 0 62 (by decide)).trans ?_
    rw [dif_pos (by simp [wordsOfNat])]
    simp [wordsOfNat, frame]
  · rw [htake']
    unfold State.sreg
    rw [if_neg (by decide)]
    change sget {} ((openRegion t1 u m _ false).strand u).s 63 = _
    rw [hq.agree.s, ht1]
    refine (writeWords_get _ 62 (wordsOfNat 2 (slotVA e (e.strand u) + 0x400)) 0 63 (by decide)).trans ?_
    rw [dif_pos (by simp [wordsOfNat])]
    simp [wordsOfNat, frame]
  · rw [htake']
    refine (openRegion_creg t1 u m _ false ht1h 8 (by decide) (by decide)).trans ?_
    unfold State.creg
    rw [ht1]
    rfl
  · rw [htake']
    refine (hq.agree.trap).trans ?_
    rw [ht1]
    rfl
  · intro j hj
    rw [htake']
    have hth : ((openRegion t1 u m (BitVec.ofNat 62 ((e.strand u).ctl.tvec.toNat / 4)) false).strand u).thread j = _ := openRegion_thread t1 u m _ false ht1h j
    have h1 : ((t1.strand u).thread j) = trapThread m (BitVec.ofNat 62 ((e.strand u).ctl.tvec.toNat / 4)) j ((e.strand u).thread j) := by
      rw [ht1, hsw]
      refine (trapStrand_thread _ _ _ _ _ _).trans (if_pos ?_)
      rw [hag.len]; exact hj
    have hlt : j < (t1.strand u).threads.length := by
      rw [ht1, hsw]
      change j < ((e.strand u).threads.mapIdx _).length
      rw [List.length_mapIdx, hag.len]; exact hj
    have hth' : ∀ (P : Thread → Prop), (∀ r, P { (t1.strand u).thread j with region := r }) →
        P (((openRegion t1 u m (BitVec.ofNat 62 ((e.strand u).ctl.tvec.toNat / 4)) false).strand u).thread j) := by
      intro P hP
      rw [hth]
      split
      · exact hP _
      · exact hP _
    unfold State.pcOf
    change _ ∧ _ ∧ _
    refine ⟨?_, ?_, ?_⟩
    · refine hth' (fun t => t.pc = _) fun r => ?_
      change ((t1.strand u).thread j).pc = _
      rw [h1, hev]
      unfold trapThread
      split
      · rfl
      · split <;> exact hstay j
    · intro hm
      refine hth' (fun t => t.inTrap = _) fun r => ?_
      change ((t1.strand u).thread j).inTrap = _
      rw [h1]
      unfold trapThread
      rw [if_pos hm]
    · intro hm hl
      refine hth' (fun t => t.paused = _) fun r => ?_
      change ((t1.strand u).thread j).paused = _
      rw [h1]
      unfold trapThread
      rw [if_neg (by simp [hm]), hag.live, if_pos hl]

theorem trap_of (i : Instr) (s : State) (u : Nat) (m : BitVec 32) (body : Cx → State → Eff) (x : Exc) (h : Ready i s u m)
    (hx : exec i s = issue i s body) (ha : acting i s u m ≠ [])
    (hb : body (contextOf i s u m) (entered i s u m) = .trap x (entered i s u m))
    (hr : x.restart = none) (hn : x.next = none) (hc : x.cause < 256) (hsub : x.sub < 65536) (had : x.addr < 2 ^ 64) :
    Traps i s u m x.birth.isSome x.cause x.sub (x.lanes.getD ((s.strand u).laneMask (maskBits m))) x.addr :=
  trap_from _ i s u m body x h hx ha h.has rfl hb hr hn hc hsub had

/-! ### The end of a strand -/

/-- Memory, contexts and strands are the same. -/
structure SameCore (s t : State) : Prop where
  mem : t.mem = s.mem
  tags : t.tags = s.tags
  contexts : t.contexts = s.contexts
  strands : t.strands = s.strands
  poison : t.poison = s.poison

theorem SameCore.refl (s : State) : SameCore s s := ⟨rfl, rfl, rfl, rfl, rfl⟩

theorem SameCore.trans {a b c : State} (h : SameCore a b) (g : SameCore b c) : SameCore a c :=
  ⟨g.mem.trans h.mem, g.tags.trans h.tags, g.contexts.trans h.contexts, g.strands.trans h.strands, g.poison.trans h.poison⟩

theorem passBobbin_same (s : State) (key : Nat) : SameCore s (passBobbin s key) := by
  unfold passBobbin
  dsimp only
  split
  · exact ⟨rfl, rfl, rfl, rfl, rfl⟩
  · split <;> exact ⟨rfl, rfl, rfl, rfl, rfl⟩

/-- What the end of a strand leaves of it. -/
def endedStrand (phase : Phase) (st : Strand) : Strand :=
  { st with phase := phase, buf := [], regions := [], trap := none, spans := [], threads := st.threads.map fun t => { t with live := false, exited := false, ended := true, stack := [], wait := .ready, outs := [], inTrap := false, paused := false, intr := none, bound := 0 } }

theorem endStrand_same (s : State) (u : Nat) (phase : Phase) : SameCore (s.modStrand u (endedStrand phase)) (endStrand s u phase) := by
  unfold endStrand
  dsimp only
  split
  · exact SameCore.trans (b := State.uncard (State.modStrand (countEnd s u) u (endedStrand phase)) u) ⟨rfl, rfl, rfl, rfl, rfl⟩ (passBobbin_same _ _)
  · exact ⟨rfl, rfl, rfl, rfl, rfl⟩

theorem SameCore.strand {s t : State} (h : SameCore s t) (x : Nat) : t.strand x = s.strand x := by
  unfold State.strand
  rw [h.strands]

theorem endedStrand_live (phase : Phase) (st : Strand) (i : Nat) : ((endedStrand phase st).thread i).live = false := by
  unfold endedStrand Strand.thread
  simp only [List.getD_eq_getElem?_getD, List.getElem?_map]
  cases st.threads[i]? <;> rfl

theorem terminate_spec (s : State) (u cause : Nat) (h : s.has u) :
    let t := terminate s u cause
    (t.strand u).phase = .terminated ∧ (t.strand u).cause = cause ∧ (∀ j, ((t.strand u).thread j).live = false) ∧
      (∀ x, x ≠ u → t.strand x = s.strand x) ∧ t.mem = s.mem ∧ t.tags = s.tags ∧ t.contexts = s.contexts := by
  dsimp only
  let f (st : Strand) : Strand := { st with cause := cause, mops := [], mtFaults := [] }
  have hs : SameCore ((s.modStrand u f).modStrand u (endedStrand .terminated)) (terminate s u cause) :=
    SameCore.trans (b := endStrand (s.modStrand u f) u .terminated) (endStrand_same _ _ _) ⟨rfl, rfl, rfl, rfl, rfl⟩
  have h1 : (s.modStrand u f).has u := (has_modStrand _ _ _ _).2 h
  have hst : (terminate s u cause).strand u = endedStrand .terminated (f (s.strand u)) := by
    rw [hs.strand, strand_modStrand_self _ u _ h1, strand_modStrand_self _ u _ h]
  refine ⟨?_, ?_, fun j => ?_, fun x hx => ?_, hs.mem, hs.tags, hs.contexts⟩
  · rw [hst]; rfl
  · rw [hst]; rfl
  · rw [hst]; exact endedStrand_live _ _ _
  · rw [hs.strand, strand_modStrand_ne _ _ _ _ hx, strand_modStrand_ne _ _ _ _ hx]

/-! ### Messages -/

theorem setUnit_strands (s : State) (u : Nat) : (s.settleUnit u).strands = s.strands := by
  unfold State.settleUnit
  split
  · rfl
  · dsimp only
    split
    · split
      · rfl
      · split
        · split <;> rfl
        · rfl
    · split
      · split <;> split <;> rfl
      · rfl

theorem foldl_same {α β : Type} (g : State → β) (f : State → α → State) (h : ∀ s a, g (f s a) = g s) (l : List α) (s : State) :
    g (l.foldl f s) = g s := by
  induction l generalizing s with
  | nil => rfl
  | cons a l ih => exact (ih _).trans (h s a)

theorem storeAll_strands (s : State) (ps : List Piece) : (s.storeAll ps).strands = s.strands := by
  have h1 : (s.settleStore ps).strands = s.strands := by
    unfold State.settleStore
    split
    · rfl
    · exact foldl_same (fun s => s.strands) _ (fun s a => setUnit_strands s a) _ _
  unfold State.storeAll
  rw [← h1]
  generalize s.settleStore ps = s
  unfold State.store
  dsimp only
  refine (foldl_same (fun s => s.strands) _ (fun s k => ?_) _ _).trans ((foldl_same (fun s => s.strands) _ (fun s p => ?_) _ _).trans
    (foldl_same (fun s => s.strands) State.clearPoison (fun _ _ => rfl) _ _))
  · unfold storeTag
    dsimp only
    split <;> rfl
  · unfold writePiece
    split
    · rfl
    · refine foldl_same (fun s => s.strands) _ (fun s b => ?_) _ _
      dsimp only
      split <;> rfl

theorem bumpCount_strands (s t : State) (ctx n off : Nat) (b : Bool) (h : bumpCount s ctx n off b = some t) : t.strands = s.strands := by
  unfold bumpCount at h
  dsimp only at h
  split at h
  · simp at h
  · obtain ⟨m, rfl⟩ := devPut_mem _ _ _ _ _ h
    rfl

theorem deliverOnce_strands (s : State) (ctx n : Nat) (bs : List Byte) : (deliverOnce s ctx n bs).1.strands = s.strands := by
  unfold deliverOnce
  split
  · split
    · next h => exact bumpCount_strands _ _ _ _ _ _ h
    · rfl
  · split
    · next h => exact bumpCount_strands _ _ _ _ _ _ h
    · rfl
  · split
    · rfl
    · exact storeAll_strands _ _

theorem deliverQuiet_strands (s : State) (ctx n : Nat) (bs : List Byte) : (deliverQuiet s ctx n bs).1.strands = s.strands := by
  unfold deliverQuiet
  dsimp only
  split
  · exact (deliverOnce_strands _ _ _ _).trans (deliverOnce_strands _ _ _ _)
  · exact deliverOnce_strands _ _ _ _

theorem errorLog_told (s : State) (u die cause launch sid addr : Nat) (h : ErrorTold s u) :
    (errorLog s (s.ctxOf (s.strand u)) die cause launch sid addr).strands = s.strands := by
  unfold errorLog deliver orReset
  rw [h _ ?_]
  · rw [if_pos rfl]
    exact deliverQuiet_strands _ _ _ _
  · rfl


/-- A body that traps where the strand has no handler, or is in it. -/
theorem dies_of (i : Instr) (s : State) (u : Nat) (m : BitVec 32) (body : Cx → State → Eff) (x : Exc) (cause : Nat) (h : Ready i s u m)
    (hx : exec i s = issue i s body) (ha : acting i s u m ≠ [])
    (hb : body (contextOf i s u m) (entered i s u m) = .trap x (entered i s u m)) (hbo : x.birth = none)
    (hc : ((s.strand u).trap ≠ none ∧ cause = 0x61) ∨ ((s.strand u).trap = none ∧ (s.strand u).ctl.tvec = 0 ∧ cause = x.cause)) :
    Dies i s u m cause := by
  unfold Dies
  intro e st htold
  have hes := h.has
  have hexec : ∃ x', x'.cause = x.cause ∧ x'.birth = none ∧ exec i s = .next (stopRun (takeTrap e (siteOf s u m i i.op i.fields) x')) := by
    have hem : (acting i s u m).isEmpty = false := by simpa using ha
    refine ⟨{ x with tags := frameSrcs (e.strand u) (maskOf ((maskBits m).filter fun j => (x.lanes.getD ((e.strand u).laneMask (maskBits m))).getLsbD ((e.strand u).thread j).lane)) i.op i.fields i.uses (siteTag e (e.strand u) (siteOf s u m i i.op i.fields).pc), uniform := isUniform i.op, untagged := ruleOf (e.strand u) i.op i.fields.tr == 5 }, rfl, hbo, ?_⟩
    rw [hx, issue_ready i s u m body h, hb, hem]
    rfl
  obtain ⟨x', hx1, hx2, hex⟩ := hexec
  obtain ⟨c, htag⟩ := trapTag_plain e (siteOf s u m i i.op i.fields) x' (by simp [hx2])
  have hids := h.agree.ids
  have hctx : e.ctxOf (e.strand u) = s.ctxOf (s.strand u) := by
    unfold State.ctxOf State.launch
    rw [h.agree.launch, h.quiet.beside.launches]
  have hlaunch : e.launch (e.strand u).launch = s.launch (s.strand u).launch := by
    unfold State.launch
    rw [h.agree.launch, h.quiet.beside.launches]
  have htake : takeTrap e (siteOf s u m i i.op i.fields) x' =
      terminate (errorLog e (s.ctxOf st) (dieOfCore st.core) cause (s.launch st.launch).num st.sid (byteOf (herePc i s u m))) u cause := by
    have key : ∀ k, errorLog e (e.ctxOf (e.strand u)) (dieOfCore (e.strand u).core) k (e.launch (e.strand u).launch).num (e.strand u).sid
        (byteOf (siteOf s u m i i.op i.fields).pc) = errorLog e (s.ctxOf st) (dieOfCore st.core) k (s.launch st.launch).num st.sid
        (byteOf (herePc i s u m)) := by
      intro k
      rw [hctx, hlaunch, hids.2.2.2.1, hids.2.2.1]
      rfl
    unfold takeTrap
    rw [htag]
    dsimp only
    change (if (e.strand u).trap.isSome = true then terminate (errorLog e (e.ctxOf (e.strand u)) (dieOfCore (e.strand u).core) 0x61
      (e.launch (e.strand u).launch).num (e.strand u).sid (byteOf (siteOf s u m i i.op i.fields).pc)) u 0x61 else _) = _
    rcases hc with ⟨h1, h2⟩ | ⟨h1, h2, h3⟩
    · rw [if_pos (by rw [h.agree.trap]; exact Option.isSome_iff_ne_none.2 h1), key, h2]
    · rw [if_neg (by rw [h.agree.trap, h1]; simp)]
      refine (if_pos ((h.agree.ctls.2.2.2.2.2.1).trans h2)).trans ?_
      rw [hx1, h3]
      exact congrArg (fun s => terminate s u x.cause) (key x.cause)
  rw [htake] at hex
  have hsame : (errorLog e (s.ctxOf st) (dieOfCore st.core) cause (s.launch st.launch).num st.sid (byteOf (herePc i s u m))).strands = e.strands := by
    rw [← hctx]
    exact errorLog_told e u _ _ _ _ _ htold
  have hhas : (errorLog e (s.ctxOf st) (dieOfCore st.core) cause (s.launch st.launch).num st.sid (byteOf (herePc i s u m))).has u := by
    unfold State.has
    rw [hsame]
    exact hes
  obtain ⟨t1, t2, t3, t4, t5, t6, t7⟩ := terminate_spec _ u cause hhas
  refine ⟨_, hex, t1, t2, t3, fun x hx => ?_, t5, t6, t7⟩
  refine (t4 x hx).trans ?_
  unfold State.strand
  rw [hsame]
  exact h.quiet.beside.others x hx

/-! ### Calls -/

theorem devLoc_strands (r : State) (x : Sparse Strand) (c va n : Nat) (w : Bool) :
    devLoc { r with strands := x } c va n w = (devLoc r c va n w).map fun p => (p.1, { p.2 with strands := x }) := by
  have hd : SameDevice r { r with strands := x } := ⟨rfl, rfl, rfl⟩
  unfold devLoc walk State.context
  simp only [hd.walkFrom, hd.fillOk]
  cases w <;> simp only [Bool.false_eq_true, ↓reduceIte] <;> split <;> first | rfl | (split <;> first | rfl | (split <;> rfl))

theorem devPut_strands (r : State) (x : Sparse Strand) (c va : Nat) (bs : List Byte) :
    devPut { r with strands := x } c va bs = (devPut r c va bs).map fun t => { t with strands := x } := by
  unfold devPut
  generalize pageCuts va bs (bs.length / 4096 + 2) = l
  induction l generalizing r with
  | nil => rfl
  | cons p l ih =>
    simp only [List.foldlM_cons, devLoc_strands]
    cases hd : devLoc r c p.1 p.2.length true with
    | none => rfl
    | some q =>
      simp only [Option.map_some, Option.bind_eq_bind, Option.bind_some]
      exact ih (q.2.write q.1 p.2)

/-- A thread that has called: the return address on its stack, its oldest entry in hardware counted as spilled where it was full. -/
def called (pc : BitVec 62) (t : Thread) : Thread :=
  { t with stack := pc :: t.stack, spilled := if t.inHardware = 8 then t.spilled + 1 else t.spilled }

/-- One thread's oldest entry written to the save slot where its hardware stack is full. -/
def spillOne (e : Strand) (s : State) (j : Nat) : Option State :=
  let t := e.thread j
  if t.inHardware = 8 then
    devPut s (s.ctxOf e) (slotVA s e + (0x1000 + 512 * j + 8 * t.spilled)) (toBytes 8 (byteOf (t.stack.getD 7 0)))
  else some s

theorem spilledStacks_eq (s : State) (u : Nat) (act : List Nat) : spilledStacks s u act = act.foldlM (spillOne (s.strand u)) s := rfl

theorem spilled_mem (e : Strand) (l : List Nat) (s base : State) (h : l.foldlM (spillOne e) s = some base) : ∃ m, base = { s with mem := m } := by
  induction l generalizing s with
  | nil => exact ⟨s.mem, by simpa using h.symm⟩
  | cons a l ih =>
    rw [List.foldlM_cons] at h
    cases hx : spillOne e s a with
    | none => simp [hx] at h
    | some r =>
      have hr : ∃ m, r = { s with mem := m } := by
        unfold spillOne at hx
        dsimp only at hx
        split at hx
        · exact devPut_mem _ _ _ _ _ hx
        · exact ⟨s.mem, by simpa using hx.symm⟩
      obtain ⟨m, rfl⟩ := hr
      obtain ⟨m', h'⟩ := ih _ (by simpa [hx] using h)
      exact ⟨m', h'⟩

theorem pushes (u : Nat) (pc : BitVec 62) (e : Strand) (l : List Nat) (A r base : State) (T : List Thread) (hn : l.Nodup)
    (hh : A.has u) (hA : A = { r with strands := A.strands }) (hst : A.strand u = { e with threads := T })
    (hl : ∀ j ∈ l, j < T.length ∧ j < 32 ∧ Strand.thread { e with threads := T } j = e.thread j)
    (hb : l.foldlM (spillOne e) r = some base) :
    let B := l.foldl (fun s j => pushReturn s u j pc) A
    B.has u ∧ B = { base with strands := B.strands } ∧ (∀ x, x ≠ u → B.strand x = A.strand x) ∧ ∃ T' : List Thread, B.strand u = { e with threads := T' } ∧ T'.length = T.length ∧
      ∀ j, Strand.thread { e with threads := T' } j = if j ∈ l then called pc (Strand.thread { e with threads := T } j) else Strand.thread { e with threads := T } j := by
  induction l generalizing A r T with
  | nil =>
    have : r = base := by simpa using hb
    subst this
    exact ⟨hh, hA, fun _ _ => rfl, T, hst, rfl, fun j => by simp⟩
  | cons a l ih =>
    obtain ⟨ha1, ha32, ha2⟩ := hl a (List.mem_cons_self ..)
    have hta : (A.strand u).thread a = e.thread a := by rw [hst]; exact ha2
    rw [List.foldlM_cons] at hb
    -- the step's write
    obtain ⟨r1, hr1, hb1⟩ : ∃ r1, spillOne e r a = some r1 ∧ l.foldlM (spillOne e) r1 = some base := by
      cases hx : spillOne e r a with
      | none => simp [hx] at hb
      | some r1 => exact ⟨r1, rfl, by simpa [hx] using hb⟩
    unfold spillOne at hr1
    dsimp only at hr1
    let A1 : State := if (e.thread a).inHardware = 8 then slotWrite A u (0x1000 + 512 * a + 8 * (e.thread a).spilled)
      (toBytes 8 (byteOf ((e.thread a).stack.getD 7 0))) else A
    have hA1 : A1 = { r1 with strands := A.strands } := by
      change (if _ then _ else _) = _
      by_cases hf : (e.thread a).inHardware = 8
      · rw [if_pos hf] at hr1 ⊢
        have hva : slotVA A (A.strand u) = slotVA r e := by
          rw [hst, hA]
          have hd : SameDevice r { r with strands := A.strands } := ⟨rfl, rfl, rfl⟩
          unfold slotVA blockVA blkSize State.launch State.context
          simp only [hd.devGet]
        have hctx : A.ctxOf (A.strand u) = r.ctxOf e := by rw [hst, hA]; rfl
        unfold slotWrite devWrite
        dsimp only
        rw [hva, hctx]
        conv_lhs => rw [hA]
        rw [devPut_strands, hr1]
        try rfl
      · rw [if_neg hf] at hr1 ⊢
        simp only [Option.some.injEq] at hr1
        subst hr1
        exact hA
    let g : Strand → Strand := fun st => st.modThreads (BitVec.twoPow 32 a) fun t =>
      { t with stack := pc :: t.stack, spilled := if (e.thread a).inHardware = 8 then t.spilled + 1 else t.spilled }
    have hpush : pushReturn A u a pc = A1.modStrand u g := by
      unfold pushReturn
      dsimp only
      rw [hta]
    have hA1s : A1.strand u = { e with threads := T } := by rw [hA1]; exact hst
    have hA1h : A1.has u := by rw [hA1]; exact hh
    have hg : g { e with threads := T } = { e with threads := (g { e with threads := T }).threads } := rfl
    have hB := strand_modStrand_self A1 u g hA1h
    have hth : ∀ j, Strand.thread { e with threads := (g { e with threads := T }).threads } j =
        if j = a then called pc (Strand.thread { e with threads := T } j) else Strand.thread { e with threads := T } j := by
      intro j
      change (g { e with threads := T }).thread j = _
      rw [thread_modThreads]
      by_cases hj : j = a
      · subst hj
        rw [if_pos ⟨ha1, by simp [BitVec.getLsbD_twoPow, ha32]⟩, if_pos rfl]
        unfold called
        rw [ha2]
      · rw [if_neg (by rintro ⟨_, h⟩; simp [BitVec.getLsbD_twoPow] at h; omega), if_neg hj]
    have hlen : (g { e with threads := T }).threads.length = T.length := modThreads_length _ _ _
    have hna : a ∉ l := (List.nodup_cons.1 hn).1
    obtain ⟨i1, i2, i3, T', i4, i5, i6⟩ := ih (A1.modStrand u g) r1 (g { e with threads := T }).threads (List.nodup_cons.1 hn).2 ((has_modStrand _ _ _ _).2 hA1h)
      (by
        have hm : A1.modStrand u g = { A1 with strands := smod A1.strands u g } := rfl
        have hr : A1 = { r1 with strands := A1.strands } := by rw [hA1]
        rw [hm]
        exact congrArg (fun s : State => { s with strands := smod A1.strands u g }) hr)
      (by rw [hB, hA1s, hg])
      (fun j hj => by
        obtain ⟨h1, h32, h2⟩ := hl j (List.mem_cons_of_mem _ hj)
        refine ⟨by rw [hlen]; exact h1, h32, ?_⟩
        rw [hth, if_neg (by rintro rfl; exact hna hj), h2]) hb1
    dsimp only
    rw [List.foldl_cons, hpush]
    refine ⟨i1, i2, fun x hx => ?_, T', i4, i5.trans hlen, fun j => ?_⟩
    · rw [i3 x hx, strand_modStrand_ne _ _ _ _ hx, hA1]
      rfl
    · rw [i6 j, hth j]
      by_cases hj : j = a
      · subst hj
        simp [hna]
      · simp [hj]

/-! ### Branches -/

theorem goTo_eq (s : State) (cx : Cx) (ts : List (Nat × BitVec 62)) (h : s.has cx.u) : ∃ t1, goTo s cx ts = .jump t1 (maskOf (ts.map (·.1))) ∧
    t1.has cx.u ∧ (∀ w, Only w s t1 cx.u) ∧ (t1.strand cx.u).threads.length = (s.strand cx.u).threads.length ∧ (t1.strand cx.u).spans = (s.strand cx.u).spans ∧
    ∀ j, j < (s.strand cx.u).threads.length → (t1.strand cx.u).thread j = if cx.mask.getLsbD j then
      { (s.strand cx.u).thread j with pc := (ts.lookup j).getD cx.next } else (s.strand cx.u).thread j := by
  let f : Strand → Strand := fun st => { st with threads := st.threads.mapIdx fun i t => if cx.mask.getLsbD i then { t with pc := (ts.lookup i).getD cx.next } else t }
  have hst := strand_modStrand_self s cx.u f h
  have hth : ∀ st : Strand, ∀ j, (f st).thread j = if j < st.threads.length then (if cx.mask.getLsbD j then
      { st.thread j with pc := (ts.lookup j).getD cx.next } else st.thread j) else default := fun st j => thread_mapped st _ j
  have hth2 : ∀ st : Strand, ∀ j, ((f st).thread j) = { st.thread j with pc := ((f st).thread j).pc } := by
    intro st j
    rw [hth]
    split
    · split <;> rfl
    · next hn => rw [thread_out _ _ hn]
  refine ⟨s.modStrand cx.u f, rfl, (has_modStrand _ _ _ _).2 h, fun w => only_modStrand s cx.u f w h ?_, ?_, ?_, ?_⟩
  · refine ⟨fun n hn h0 _ => by interval_cases n <;> first | rfl | contradiction, fun _ => ⟨rfl, rfl, rfl⟩, fun _ _ _ => rfl, fun _ _ => rfl, fun _ _ => rfl, fun j _ _ _ => ?_, fun j _ _ => ?_, fun _ => ⟨rfl, fun j => ?_⟩⟩
    · rw [hth2]
    · rw [hth2]
    · rw [hth2]
      exact ⟨rfl, fun he => ⟨he, rfl⟩⟩
  · rw [hst]
    exact List.length_mapIdx
  · rw [hst]
  · intro j hj
    rw [hst, hth, if_pos hj]

theorem lookup_map (act : List Nat) (f : Nat → BitVec 62) (j : Nat) :
    ((act.map fun i => (i, f i)).lookup j) = if j ∈ act then some (f j) else none := by
  induction act with
  | nil => rfl
  | cons a l ih =>
    rw [List.map_cons, List.lookup_cons]
    by_cases h : j = a
    · subst h; simp
    · have : (j == a) = false := by simpa using h
      simp only [this, ih, List.mem_cons, h, false_or]

/-- Jumps to a target for each acting thread. -/
theorem goTo_goes (i : Instr) (s : State) (u : Nat) (m : BitVec 32) (f : Nat → BitVec 62) (body : Cx → State → Eff) (h : Ready i s u m)
    (hx : exec i s = issue i s body)
    (hb : acting i s u m ≠ [] → body (contextOf i s u m) (entered i s u m) = goTo (entered i s u m) (contextOf i s u m) ((acting i s u m).map fun j => (j, f j))) :
    Goes i s u m {} (fun j => if j ∈ acting i s u m then f j else nextPc i s u m) fun _ => True := by
  have hes := h.has
  obtain ⟨t1, h1, h2, h3, h4, h5, h6⟩ := goTo_eq (entered i s u m) (contextOf i s u m) ((acting i s u m).map fun j => (j, f j)) hes
  have heO := entered_only i s u m (Touch.of {} i) (issuing_has s u m h.atIssue) (fun n hn => by simp [Touch.of, hn])
  refine goes_of i s u m s {} _ _ body t1 _ h hx (fun ha => (hb ha).trans h1) (fun _ => heO) (fun _ => ⟨heO.trans (h3 _), h2⟩) ?_ ?_ fun _ _ _ _ => trivial
  · intro ha j _
    simp [ha]
  · intro _ j hj
    have hj' : j < ((entered i s u m).strand u).threads.length := by rw [h.agree.len]; exact hj
    have : (t1.strand u).thread j = _ := h6 j hj'
    rw [this]
    change ((if m.getLsbD j = true then _ else _ : Thread)).pc = _
    split
    · rw [lookup_map]
      split <;> rfl
    · exact h.quiet.stay j

theorem regTargets_eq (i : Instr) (s : State) (u : Nat) (m : BitVec 32) (b : Src) (k : List (Nat × BitVec 62) → State → Eff) (h : Ready i s u m)
    (hf : (match b with | .v _ | .s _ => true | _ => false) = true → ∀ j ∈ acting i s u m, addrFault (srcOpd i s u m j b 2).val 4 = none) :
    regTargets b (contextOf i s u m) (entered i s u m) k =
      k ((acting i s u m).map fun j => (j, BitVec.ofNat 62 ((srcOpd i s u m j b 2).val / 4))) (entered i s u m) := by
  have hsrc : ∀ j, (contextOf i s u m).src ((entered i s u m).strand u) j b 2 = srcOpd i s u m j b 2 := fun j => h.agree.cxsrc _ _ _ _
  have hxs : ((contextOf i s u m).act.map fun j => (j, (contextOf i s u m).src ((entered i s u m).strand u) j b 2)) =
      (acting i s u m).map fun j => (j, srcOpd i s u m j b 2) := by
    simp only [hsrc]; rfl
  unfold regTargets
  dsimp only
  rw [contextOf_u, hxs]
  have hno : ∀ c : Nat, (match b with | .imm _ | .wide _ => true | _ => false) = false →
      (((acting i s u m).map fun j => (j, srcOpd i s u m j b 2)).find? fun x => addrFault x.2.val 4 == some c) = none := by
    intro c hl
    rw [List.find?_eq_none]
    intro x hx
    obtain ⟨j, hj, rfl⟩ := List.mem_map.1 hx
    have : addrFault (srcOpd i s u m j b 2).val 4 = none := hf (by cases b <;> simp_all) j hj
    simp [this]
  have hmm : ((acting i s u m).map fun j => (j, srcOpd i s u m j b 2)).map (fun x => (x.1, BitVec.ofNat 62 (x.2.val / 4))) =
      (acting i s u m).map fun j => (j, BitVec.ofNat 62 ((srcOpd i s u m j b 2).val / 4)) := by simp [List.map_map, Function.comp_def]
  rw [hmm]
  cases b with
  | v c => simp only [hno 0x23 rfl, hno 0x24 rfl, Bool.false_eq_true, ↓reduceIte]
  | s c => simp only [hno 0x23 rfl, hno 0x24 rfl, Bool.false_eq_true, ↓reduceIte]
  | imm c => rfl
  | wide c => rfl

theorem movedOn_true (st : Strand) (cx : Cx) (c : Bool) (j : Nat) :
    ((movedOn st cx c).thread j).stack = (st.thread j).stack ∧ ((movedOn st cx c).thread j).live = (st.thread j).live ∧
      ((movedOn st cx c).thread j).exited = (st.thread j).exited ∧ (movedOn st cx c).spans = st.spans := by
  rw [movedOn_thread]
  refine ⟨?_, ?_, ?_, by cases c <;> rfl⟩ <;> split <;> rfl

theorem call_goes (i : Instr) (s : State) (u : Nat) (m : BitVec 32) (f : Nat → BitVec 62) (body : Cx → State → Eff) (base : State) (h : Ready i s u m)
    (hx : exec i s = issue i s body)
    (hb : acting i s u m ≠ [] → body (contextOf i s u m) (entered i s u m) = callTo (entered i s u m) (contextOf i s u m) ((acting i s u m).map fun j => (j, f j)))
    (hd : ∀ j ∈ acting i s u m, ((s.strand u).thread j).stack.length < 64)
    (hbase : spilledStacks (entered i s u m) u (acting i s u m) = some base) :
    GoesFrom base i s u m { flow := true } (fun j => if j ∈ acting i s u m then f j else nextPc i s u m) fun t =>
        (t.strand u).spans = (s.strand u).spans ∧
        ∀ j, j < (s.strand u).threads.length → ((s.strand u).thread j).exited = false →
          ((t.strand u).thread j).live = ((s.strand u).thread j).live ∧
          ((t.strand u).thread j).stack =
            if j ∈ acting i s u m then nextPc i s u m :: ((s.strand u).thread j).stack else ((s.strand u).thread j).stack := by
  have hes := h.has
  have hrun : ∀ j ∈ acting i s u m, ((s.strand u).thread j).exited = false := fun j hj => h.running j (acting_lt i s u m j hj).2
  have hpu := pushes u (nextPc i s u m) ((entered i s u m).strand u) (acting i s u m) (entered i s u m) (entered i s u m) base ((entered i s u m).strand u).threads (acting_nodup i s u m) hes
    rfl rfl (fun j hj => by
      have := acting_lt i s u m j hj
      exact ⟨by rw [h.agree.len]; exact this.1, by by_contra hc; have := this.2; rw [BitVec.getLsbD_of_ge _ _ (by omega)] at this; simp at this, rfl⟩)
    (by rw [← spilledStacks_eq]; exact hbase)
  dsimp only at hpu
  obtain ⟨B, hBd⟩ : ∃ B, B = (acting i s u m).foldl (fun r j => pushReturn r u j (nextPc i s u m)) (entered i s u m) := ⟨_, rfl⟩
  rw [← hBd] at hpu
  obtain ⟨b1, b2, b3, T', b4, b5, b6⟩ := hpu
  obtain ⟨t1, h1, h2, h3, h4, hsp, h6⟩ := goTo_eq B (contextOf i s u m) ((acting i s u m).map fun j => (j, f j)) b1
  obtain ⟨mem, hmem⟩ := spilled_mem ((entered i s u m).strand u) (acting i s u m) (entered i s u m) base (by rw [← spilledStacks_eq]; exact hbase)
  have hbs : ∀ x, base.strand x = (entered i s u m).strand x := by rw [hmem]; exact fun _ => rfl
  have hthr : ∀ j, (B.strand u).thread j = if j ∈ acting i s u m then called (nextPc i s u m) (((entered i s u m).strand u).thread j) else ((entered i s u m).strand u).thread j := by
    intro j; rw [b4]; exact b6 j
  have hB : Only (Touch.of { flow := true } i) base B u := by
    have e1 : B.mem = base.mem := by rw [b2]
    have e2 : B.tags = base.tags := by rw [b2]
    have e3 : B.poison = base.poison := by rw [b2]
    have e4 : B.launches = base.launches := by rw [b2]
    refine ⟨fun l _ => by unfold State.byteAt; rw [e1], fun k _ => by unfold State.tagAt; rw [e2], fun l _ => by rw [e3],
      fun x hx => (b3 x hx).trans (hbs x).symm, fun j c _ => ?_, fun j c _ => ?_, fun c _ => ?_, fun c _ => ?_, fun n hn h0 _ => ?_, fun j _ => ?_, fun _ => ?_, fun _ => e4, fun hf => by simp [Touch.of] at hf⟩
    · unfold State.vreg
      rw [hthr, hbs]
      split
      · rfl
      · split <;> rfl
    · unfold State.pred
      rw [hthr, hbs]
      split <;> rfl
    · unfold State.sreg
      rw [b4, hbs]
    · unfold State.kpred
      rw [b4, hbs]
    · exact State.creg_eq e4 (by rw [b4, hbs]) (by rw [b4, hbs]) (by rw [b4, hbs]) hn h0
    · unfold State.queue
      rw [b4, hbs]
    · rw [b4, hbs]
      exact ⟨rfl, rfl, rfl⟩
  have hlen : (B.strand u).threads.length = (s.strand u).threads.length := by rw [b4]; exact b5.trans h.agree.len
  refine goes_of i s u m base { flow := true } _ _ body t1 (maskOf (((acting i s u m).map fun j => (j, f j)).map (·.1))) h hx (fun ha => (hb ha).trans ?_) (fun ha => ?_) (fun _ => ⟨hB.trans (h3 _), h2⟩) ?_ ?_ ?_
  · unfold callTo
    rw [if_neg]
    · rw [hBd] at h1; exact h1
    · unfold stackFull
      simp only [List.any_eq_true, decide_eq_true_eq, not_exists, not_and, Nat.not_le]
      intro j hj
      rw [contextOf_u, h.agree.stack j (hrun j hj)]
      exact hd j hj
  · have : B = entered i s u m := by rw [hBd, ha]; rfl
    rw [← this]
    exact hB
  · intro ha j _
    simp [ha]
  · intro _ j hj
    have : (t1.strand u).thread j = _ := h6 j (by rw [contextOf_u, hlen]; exact hj)
    rw [this]
    change ((if m.getLsbD j = true then _ else _ : Thread)).pc = _
    split
    · rw [lookup_map]
      split <;> rfl
    · have := hthr j
      rw [contextOf_u, this]
      split <;> exact h.quiet.stay j
  · intro t0 t ht0 hA
    have hsp' : (t0.strand u).spans = (s.strand u).spans ∧ ∀ j, j < (s.strand u).threads.length → ((s.strand u).thread j).exited = false →
        ((t0.strand u).thread j).live = ((s.strand u).thread j).live ∧ ((t0.strand u).thread j).exited = false ∧
        ((t0.strand u).thread j).stack = if j ∈ acting i s u m then nextPc i s u m :: ((s.strand u).thread j).stack else ((s.strand u).thread j).stack := by
      by_cases ha : acting i s u m = []
      · rw [ht0, if_pos ha]
        exact ⟨h.agree.spans, fun j _ he => ⟨h.agree.live j, h.agree.exited j he, by simp [ha, h.agree.stack j he]⟩⟩
      · rw [ht0, if_neg ha]
        refine ⟨?_, fun j hj he => ?_⟩
        · have : (t1.strand u).spans = (B.strand u).spans := hsp
          rw [this, b4]
          exact h.agree.spans
        · have hc : (t1.strand u).thread j = _ := h6 j (by rw [contextOf_u, hlen]; exact hj)
          have hk : ((t1.strand u).thread j).live = ((B.strand u).thread j).live ∧ ((t1.strand u).thread j).exited = ((B.strand u).thread j).exited ∧
              ((t1.strand u).thread j).stack = ((B.strand u).thread j).stack := by
            rw [hc]; split <;> exact ⟨rfl, rfl, rfl⟩
          rw [hk.1, hk.2.1, hk.2.2, hthr j]
          split
          · exact ⟨h.agree.live j, h.agree.exited j he, congrArg (nextPc i s u m :: ·) (h.agree.stack j he)⟩
          · exact ⟨h.agree.live j, h.agree.exited j he, h.agree.stack j he⟩
    refine ⟨?_, fun j hj he => ?_⟩
    · rw [hA.spans, (movedOn_true _ _ _ 0).2.2.2, hsp'.1]
    · have hm := movedOn_true (t0.strand u) (contextOf i s u m) (acting i s u m ≠ []) j
      obtain ⟨l1, l2, l3⟩ := hsp'.2 j hj he
      refine ⟨by rw [hA.live, hm.2.1, l1], ?_⟩
      rw [hA.stack j (by rw [hm.2.2.1, l2]), hm.1, l3]

/-! ### Minted copies (R177) -/

/-- A minted tag is a birth (R94, R103). -/
theorem mint_birth (s : State) (u : Nat) (pc : BitVec 62) (own : List Nat) (un : Bool) (r : Birth) : isBirth (mint s u pc own un r).1 = true := by
  unfold mint
  split
  · exact (by decide : isBirth 0xBFFF = true)
  · next n _ _ =>
    have : n % 2 ^ 14 < 2 ^ 14 := Nat.mod_lt _ (by decide)
    generalize n % 2 ^ 14 = k at this
    dsimp only
    unfold isBirth tagClass
    have h : (0x8000 ||| BitVec.ofNat 16 k : BitVec 16).toNat = 0x8000 + k := by
      rw [BitVec.toNat_or, BitVec.toNat_ofNat, Nat.mod_eq_of_lt (by omega : k < 2 ^ 16)]
      have := Nat.two_pow_add_eq_or_of_lt (i := 15) (b := k) (by omega) 1
      simp only [Nat.reducePow, mul_one] at this
      exact this.symm
    rw [h]
    have : (0x8000 + k) / 2 ^ 14 = 2 := by omega
    rw [this]
    rfl

theorem mintLanes_body (s : State) (cx : Cx) (xs : List (Nat × Opd)) (h : s.has cx.u)
    (hm : ((s.strand cx.u).tagEn && (s.strand cx.u).mintOn) = true) :
    Body Touch.births s (mintLanes s cx xs).1 cx.u ∧ (mintLanes s cx xs).2.map (fun r => (r.1, r.2.1)) = xs.map (fun x => (x.1, [x.2.w])) ∧
      ∀ r ∈ (mintLanes s cx xs).2, isBirth r.2.2 = true := by
  unfold mintLanes
  dsimp only
  simp only [hm, ↓reduceIte]
  have key : ∀ (l : List (Nat × Opd)) (a : State × List (Nat × List Word × Tag)), Body Touch.births s a.1 cx.u → (∀ r ∈ a.2, isBirth r.2.2 = true) →
      let b := l.foldl (fun r x =>
        ((mint r.1 cx.u cx.site.pc [x.1] false (Birth.mk 7 ((s.strand cx.u).thread x.1).lane 0 (bit (isBirth x.2.tag)) x.2.tag 0 0 x.2.w 0)).2,
          r.2 ++ [(x.1, [x.2.w], (mint r.1 cx.u cx.site.pc [x.1] false (Birth.mk 7 ((s.strand cx.u).thread x.1).lane 0 (bit (isBirth x.2.tag)) x.2.tag 0 0 x.2.w 0)).1)])) a
      Body Touch.births s b.1 cx.u ∧ b.2.map (fun r => (r.1, r.2.1)) = a.2.map (fun r => (r.1, r.2.1)) ++ l.map (fun x => (x.1, [x.2.w])) ∧
        ∀ r ∈ b.2, isBirth r.2.2 = true := by
    intro l
    induction l with
    | nil => intro a ha hr; exact ⟨ha, by simp, hr⟩
    | cons x l ih =>
      intro a ha hr
      have hb := ha.trans (mint_body a.1 cx.u cx.site.pc [x.1] false (Birth.mk 7 ((s.strand cx.u).thread x.1).lane 0 (bit (isBirth x.2.tag)) x.2.tag 0 0 x.2.w 0) (ha.has h))
      obtain ⟨i1, i2, i3⟩ := ih (_, a.2 ++ [(x.1, [x.2.w], (mint a.1 cx.u cx.site.pc [x.1] false (Birth.mk 7 ((s.strand cx.u).thread x.1).lane 0 (bit (isBirth x.2.tag)) x.2.tag 0 0 x.2.w 0)).1)]) hb (by
        intro r hrm
        rcases List.mem_append.1 hrm with h1 | h1
        · exact hr r h1
        · simp only [List.mem_singleton] at h1
          subst h1
          exact mint_birth _ _ _ _ _ _)
      refine ⟨i1, i2.trans ?_, i3⟩
      simp
  exact (key xs (s, []) (Body.refl _ _ _) (by simp)).imp id fun h => ⟨by simpa using h.1, h.2⟩

/-! ### Spans -/

/-- A meaning that leaves the state as it is. -/
theorem completes_same (i : Instr) (s : State) (u : Nat) (m : BitVec 32) (body : Cx → State → Eff) (h : Ready i s u m) (hx : exec i s = issue i s body)
    (hb : acting i s u m ≠ [] → body (contextOf i s u m) (entered i s u m) = .ok (entered i s u m)) (P : State → Prop) (hP : ∀ t, (t = complete (entered i s u m) (contextOf i s u m) i.uses false 0) → P t) :
    Completes i s u m {} P :=
  completes_of i s u m {} _ body _ h hx hb (fun _ => Body.refl _ _ _) fun t0 ht0 _ => hP _ (by rw [ht0]; split <;> rfl)

theorem gspan_depth (st : Strand) (c : Nat) : cfld (st.setGspan c).ctl.gspan 0 3 = st.spans.length % 8 := by
  have key : ∀ (l : List (Span × Nat)) (n : Nat), (∀ x ∈ l, 3 ≤ x.2) → (l.foldl (fun n x => n + bit x.1.p * 2 ^ x.2) n) % 8 = n % 8 := by
    intro l
    induction l with
    | nil => intro n _; rfl
    | cons x l ih =>
      intro n hl
      rw [List.foldl_cons, ih _ fun y hy => hl y (List.mem_cons_of_mem _ hy)]
      have h3 := hl x (List.mem_cons_self ..)
      obtain ⟨k, hk⟩ := Nat.exists_eq_add_of_le h3
      rw [hk, Nat.pow_add]
      have : bit x.1.p * (2 ^ 3 * 2 ^ k) = 8 * (bit x.1.p * 2 ^ k) := by ring
      omega
  have hz := key (st.spans.zipIdx 3) 0 fun x hx => by
    obtain ⟨a, b⟩ := x
    have := List.mem_zipIdx hx
    exact this.1
  change cfld (BitVec.ofNat 64 (c * 256 + (st.spans.zipIdx 3).foldl (fun n x => n + bit x.1.p * 2 ^ x.2) 0 + st.spans.length)) 0 3 = _
  generalize (st.spans.zipIdx 3).foldl (fun n x => n + bit x.1.p * 2 ^ x.2) 0 = v at hz ⊢
  unfold cfld fld
  rw [BitVec.toNat_ofNat]
  omega

theorem setSpans_body (s : State) (u : Nat) (f : List Span → List Span) (h : s.has u) :
    Body { flow := true, ctl := fun n => n == 9 } s (setSpans s u f) u ∧ ((setSpans s u f).strand u).spans = f (s.strand u).spans ∧
      cfld ((setSpans s u f).creg u 9) 0 3 = (f (s.strand u).spans).length % 8 := by
  have hs : (setSpans s u f).strand u = _ := strand_modStrand_self s u _ h
  refine ⟨⟨only_modStrand s u _ _ h ⟨fun n hn h0 hw => ?_, fun _ => ⟨rfl, rfl, rfl⟩, fun _ _ _ => rfl, fun _ _ => rfl, fun _ _ => rfl, fun _ _ _ _ => rfl, fun _ _ _ => rfl, fun hf => by simp at hf⟩, ?_, ?_, fun _ => (has_modStrand _ _ _ _).2 h, ?_⟩, ?_, ?_⟩
  · simp only [beq_eq_false_iff_ne] at hw
    interval_cases n <;> first | rfl | contradiction
  · rw [hs]; exact fun _ => rfl
  · rw [hs]; rfl
  · rw [hs]; exact ⟨rfl, rfl, fun _ => rfl⟩
  · rw [hs]; rfl
  · have h9 : (setSpans s u f).creg u 9 = ((setSpans s u f).strand u).ctl.gspan := rfl
    rw [h9, hs]
    exact gspan_depth { s.strand u with spans := f (s.strand u).spans } _

theorem spans_completes (i : Instr) (s : State) (u : Nat) (m : BitVec 32) (f : List Span → List Span) (body : Cx → State → Eff) (h : Ready i s u m) (hx : exec i s = issue i s body)
    (ha : acting i s u m ≠ []) (hb : body (contextOf i s u m) (entered i s u m) = .ok (setSpans (entered i s u m) u f)) :
    Completes i s u m { flow := true, ctl := fun n => n == 9 } fun t => (t.strand u).spans = f (s.strand u).spans ∧ cfld (t.creg u 9) 0 3 = (f (s.strand u).spans).length % 8 := by
  obtain ⟨h1, h2, h3⟩ := setSpans_body (entered i s u m) u f h.has
  rw [h.agree.spans] at h2 h3
  refine completes_of i s u m _ _ body _ h hx (fun _ => hb) (fun _ => h1) fun t0 ht0 hh => ?_
  rw [if_neg ha] at ht0
  obtain ⟨hA, _, _⟩ := complete_spec t0 (contextOf i s u m) i.uses false 0 hh
  refine ⟨?_, ?_⟩
  · refine hA.spans.trans ?_
    rw [(movedOn_true _ _ _ 0).2.2.2, ht0]
    exact h2
  · have : (complete t0 (contextOf i s u m) i.uses false 0).creg u 9 = t0.creg u 9 := complete_creg t0 (contextOf i s u m) i.uses hh 9 (by simp)
    rw [this, ht0]
    exact h3


/-! ### Regions closed and opened -/

/-- Every buffered lane of thread j in region R is closed. -/
def Shut (st : Strand) (j R : Nat) : Prop := ∀ e ∈ st.buf, ∀ l ∈ e.lanes, l.thread = j → l.region = R → l.closed = true

/-- What closing leaves in the buffer: entries of before, some of their lanes closed; those of thread j in its region. -/
theorem closeThreads_buf (s : State) (u : Nat) (m : BitVec 32) (own : Nat) (h : s.has u) (j : Nat) (R : Nat)
    (hs : Shut (s.strand u) j R ∨ (m.getLsbD j = true ∧ ((s.strand u).thread j).region = R)) : Shut ((closeThreads s u m own).strand u) j R := by
  have hst : ((closeThreads s u m own).strand u).buf = (((s.strand u).buf.map fun e => { e with lanes := e.lanes.map fun l : StLane => if (m ||| (s.strand u).boundTo m).getLsbD l.thread && l.region == ((s.strand u).thread l.thread).region then { l with closed := true } else l }).partition fun e => e.lanes.all (·.closed)).2 := by
    unfold closeThreads
    dsimp only
    rw [strand_modStrand_self]
    case h => exact h
  intro e he l hl hj hR
  rw [hst, List.partition_eq_filter_filter] at he
  have he' := (List.mem_filter.1 he).1
  obtain ⟨e0, he0, rfl⟩ := List.mem_map.1 he'
  obtain ⟨l0, hl0, rfl⟩ := List.mem_map.1 hl
  by_cases hc : ((m ||| (s.strand u).boundTo m).getLsbD l0.thread && l0.region == ((s.strand u).thread l0.thread).region) = true
  · rw [if_pos hc]
  · rw [if_neg hc] at hj hR ⊢
    rcases hs with hs | ⟨h1, h2⟩
    · exact hs e0 he0 l0 hl0 hj hR
    · exfalso
      apply hc
      rw [hj, hR, BitVec.getLsbD_or, h1, h2]
      simp

theorem openRegionAs_buf (s : State) (u : Nat) (m : BitVec 32) (pc : BitVec 62) (own : Bool) (id : Nat) (h : s.has u) :
    ((openRegionAs s u m pc own id).strand u).buf = (s.strand u).buf := by
  have : (openRegionAs s u m pc own id).strand u = _ := strand_modStrand_self s u _ h
  rw [this]; rfl

theorem openRegionAs_region (s : State) (u : Nat) (m : BitVec 32) (pc : BitVec 62) (own : Bool) (id : Nat) (h : s.has u) (j : Nat)
    (hj : j < (s.strand u).threads.length) (hm : m.getLsbD j = true) : ((openRegionAs s u m pc own id).strand u).startOf j = pc := by
  have hs : (openRegionAs s u m pc own id).strand u = _ := strand_modStrand_self s u _ h
  rw [hs]
  let st1 := (s.strand u).modThreads m fun t => { t with region := id }
  let st2 : Strand := { st1 with regions := st1.regions.filter (fun x => x.id != id) ++ [Region.mk id pc st1.ctl own false] }
  have hth : (st2.pruneRegions).thread j = { (s.strand u).thread j with region := id } := by
    change st1.thread j = _
    rw [thread_modThreads, if_pos ⟨hj, hm⟩]
  change (st2.pruneRegions).startOf j = pc
  unfold Strand.startOf
  rw [hth]
  have hfind : (st2.pruneRegions).regions.find? (fun r => r.id == id) = some (Region.mk id pc st1.ctl own false) := by
    change ((st1.regions.filter (fun x => x.id != id) ++ [Region.mk id pc st1.ctl own false]).filter fun r => st1.threads.any fun t => t.region == r.id || t.intr == some r.id).find? (fun r => r.id == id) = _
    rw [List.filter_append, List.find?_append]
    have h1 : ((st1.regions.filter (fun x => x.id != id)).filter fun r => st1.threads.any fun t => t.region == r.id || t.intr == some r.id).find? (fun r => r.id == id) = none := by
      rw [List.find?_eq_none]
      intro r hr
      have := (List.mem_filter.1 (List.mem_filter.1 hr).1).2
      simpa using this
    have h2 : st1.threads.any (fun t => t.region == id || t.intr == some id) = true := by
      have hl : j < st1.threads.length := by rw [modThreads_length]; exact hj
      refine List.any_eq_true.2 ⟨st1.threads[j], List.getElem_mem hl, ?_⟩
      have : st1.threads[j] = st1.thread j := by simp [Strand.thread, List.getD, hl]
      rw [this, thread_modThreads, if_pos ⟨hj, hm⟩]
      simp
    rw [h1]
    simp [h2]
  rw [hfind]


theorem windows_buf (s : State) (cx : Cx) (us : List Use) (taken : BitVec 32) (h : s.has cx.u) :
    ((windows s cx us taken).strand cx.u).buf = (s.strand cx.u).buf ∧
      ∀ j, ((windows s cx us taken).strand cx.u).thread j = { (s.strand cx.u).thread j with outs := (((windows s cx us taken).strand cx.u).thread j).outs } := by
  have hs : (windows s cx us taken).strand cx.u = _ := strand_modStrand_self s.newId.2 cx.u _ h
  constructor
  · rw [hs]; rfl
  · intro j
    rw [hs]
    have := thread_mapped (s.strand cx.u) (fun i t =>
        if cx.mask.getLsbD i then
          { t with outs := if (isLong cx.op && !cx.act.isEmpty) && (if isUniform cx.op then cx.mask else maskOf cx.act).getLsbD i then (t.outs.map fun w => { w with left := if taken.getLsbD i then some 0 else w.left.map (· - 1) }) ++ [Outst.mk s.newId.1 (if cx.raw.la = 15 then none else some cx.raw.la) (touched (us.filter (·.wr)))] else t.outs.map fun w => { w with left := if taken.getLsbD i then some 0 else w.left.map (· - 1) } }
        else t) j
    obtain ⟨o, ho⟩ : ∃ o, (if j < (s.strand cx.u).threads.length then (if cx.mask.getLsbD j then
          { (s.strand cx.u).thread j with outs := if (isLong cx.op && !cx.act.isEmpty) && (if isUniform cx.op then cx.mask else maskOf cx.act).getLsbD j then (((s.strand cx.u).thread j).outs.map fun w => { w with left := if taken.getLsbD j then some 0 else w.left.map (· - 1) }) ++ [Outst.mk s.newId.1 (if cx.raw.la = 15 then none else some cx.raw.la) (touched (us.filter (·.wr)))] else ((s.strand cx.u).thread j).outs.map fun w => { w with left := if taken.getLsbD j then some 0 else w.left.map (· - 1) } }
        else (s.strand cx.u).thread j) else default) = { (s.strand cx.u).thread j with outs := o } := by
      split
      · split <;> exact ⟨_, rfl⟩
      · next hn => exact ⟨[], by rw [thread_out _ _ hn]; rfl⟩
    rw [ho] at this
    refine Eq.trans this ?_
    have h2 : (Strand.thread { s.strand cx.u with threads := (s.strand cx.u).threads.mapIdx _ } j).outs = o := congrArg Thread.outs this
    exact congrArg (fun o => { (s.strand cx.u).thread j with outs := o }) h2.symm

/-- Threads of one pc make one group. -/
theorem byPc_one (st : Strand) (m : BitVec 32) (pc : BitVec 62) (h : ∀ i ∈ st.byLane m, (st.thread i).pc = pc) (j : Nat) (hj : j ∈ st.byLane m) :
    ∃ M, byPc st m = [(pc, M)] ∧ M.getLsbD j = true := by
  have key : ∀ (l : List Nat), (∀ i ∈ l, (st.thread i).pc = pc ∧ i < 32) → ∀ M : BitVec 32, ∃ M', l.foldl (fun g i =>
      if g.any fun e => e.1 == (st.thread i).pc then g.map fun e => if e.1 == (st.thread i).pc then (e.1, e.2 ||| BitVec.twoPow 32 i) else e
      else g ++ [((st.thread i).pc, BitVec.twoPow 32 i)]) [(pc, M)] = [(pc, M')] ∧ (∀ i ∈ l, M'.getLsbD i = true) ∧ ∀ i, M.getLsbD i = true → M'.getLsbD i = true := by
    intro l
    induction l with
    | nil => intro _ M; exact ⟨M, rfl, by simp, fun _ h => h⟩
    | cons a l ih =>
      intro hl M
      obtain ⟨M', h1, h2, h3⟩ := ih (fun i hi => hl i (List.mem_cons_of_mem _ hi)) (M ||| BitVec.twoPow 32 a)
      have ha := hl a (List.mem_cons_self ..)
      refine ⟨M', ?_, ?_, fun i hi => h3 i (by simp [hi])⟩
      · rw [List.foldl_cons, ← h1, ha.1]
        simp
      · intro i hi
        rcases List.mem_cons.1 hi with rfl | hi
        · exact h3 _ (by simp [ha.2])
        · exact h2 i hi
  have hlt : ∀ i ∈ st.byLane m, i < 32 := by
    intro i hi
    have := (mem_byLane _ _ _ hi).1
    by_contra hc
    rw [BitVec.getLsbD_of_ge _ _ (by omega)] at this
    simp at this
  unfold byPc
  cases hl : st.byLane m with
  | nil => rw [hl] at hj; simp at hj
  | cons a l =>
    rw [hl] at hj h hlt
    have ha := h a (List.mem_cons_self ..)
    obtain ⟨M', h1, h2, h3⟩ := key l (fun i hi => ⟨h i (List.mem_cons_of_mem _ hi), hlt i (List.mem_cons_of_mem _ hi)⟩) (BitVec.twoPow 32 a)
    refine ⟨M', ?_, ?_⟩
    · rw [List.foldl_cons, ← h1]
      simp [ha]
    · rcases List.mem_cons.1 hj with rfl | hj
      · exact h3 _ (by simp [hlt j (List.mem_cons_self ..)])
      · exact h2 j hj


theorem Shut.of_buf {a b : Strand} {j R : Nat} (h : Shut a j R) (hb : b.buf = a.buf) : Shut b j R := by
  unfold Shut; rw [hb]; exact h

/-- A boundary's end: each thread of its fragment starts a region at the next instruction, its earlier stores are closed. -/
theorem complete_starts (s : State) (cx : Cx) (us : List Use) (h : s.has cx.u) (hB : cx.site.boundary = true)
    (hl : ∀ i, cx.mask.getLsbD i = true → ((s.strand cx.u).thread i).live = true) (j : Nat) (hj : j ∈ (s.strand cx.u).byLane cx.mask) (R : Nat)
    (hs : Shut (s.strand cx.u) j R ∨ ((s.strand cx.u).thread j).region = R) :
    ((complete s cx us false 0).strand cx.u).startOf j = cx.next ∧ Shut ((complete s cx us false 0).strand cx.u) j R := by
  obtain ⟨hjm, hjl⟩ := mem_byLane _ _ _ hj
  let s1 := s.modStrand cx.u fun st => movedOn st cx false
  have h1 : s1.has cx.u := (has_modStrand _ _ _ _).2 h
  have e1 : s1.strand cx.u = movedOn (s.strand cx.u) cx false := strand_modStrand_self s cx.u _ h
  let s2 := windows s1 cx us 0
  have q2 := windows_quiet s1 cx us 0 h1
  have h2 : s2.has cx.u := q2.beside.has.2 h1
  obtain ⟨w1, w2⟩ := windows_buf s1 cx us 0 h1
  let s3 := closeThreads s2.newId.2 cx.u cx.mask s2.newId.1
  have q3 := (newId_quiet s2 cx.u).trans (closeThreads_quiet s2.newId.2 cx.u cx.mask s2.newId.1 h2)
  have h3 : s3.has cx.u := q3.beside.has.2 h2
  have hag : Agree (movedOn (s.strand cx.u) cx false) (s3.strand cx.u) := by
    rw [← e1]; exact q2.agree.trans q3.agree
  have hlen : (s3.strand cx.u).threads.length = (s.strand cx.u).threads.length := hag.len.trans (by
    unfold movedOn dropHeads; exact modThreads_length _ _ _)
  have hth : ∀ i, (movedOn (s.strand cx.u) cx false).thread i = if i < (s.strand cx.u).threads.length ∧ cx.mask.getLsbD i then { (s.strand cx.u).thread i with pc := cx.next } else (s.strand cx.u).thread i := by
    intro i
    rw [movedOn_thread]
    simp
  have hlane : ∀ i, ((s3.strand cx.u).thread i).lane = ((s.strand cx.u).thread i).lane := by
    intro i
    rw [hag.lane, hth]
    split <;> rfl
  have hlive : ∀ i, ((s3.strand cx.u).thread i).live = ((s.strand cx.u).thread i).live := by
    intro i
    rw [hag.live, hth]
    split <;> rfl
  have hstay : Stay (s1.strand cx.u) (s3.strand cx.u) := q2.stay.trans q3.stay
  have hmask : cx.mask &&& (s3.strand cx.u).liveMask = cx.mask := by
    apply BitVec.eq_of_getLsbD_eq
    intro i hi
    rw [BitVec.getLsbD_and, getLsbD_liveMask, hlive]
    by_cases hm : cx.mask.getLsbD i = true
    · simp [hm, hl i hm, hi]
    · simp [hm]
  have hby : (s3.strand cx.u).byLane cx.mask = (s.strand cx.u).byLane cx.mask := by
    unfold Strand.byLane
    simp only [hlane, hlen]
  have hpc : ∀ i ∈ (s3.strand cx.u).byLane cx.mask, ((s3.strand cx.u).thread i).pc = cx.next := by
    intro i hi
    rw [hby] at hi
    obtain ⟨him, hil⟩ := mem_byLane _ _ _ hi
    rw [hstay i, e1, hth, if_pos ⟨hil, him⟩]
  obtain ⟨M, hM, hMj⟩ := byPc_one (s3.strand cx.u) cx.mask cx.next hpc j (by rw [hby]; exact hj)
  have hfin : (complete s cx us false 0).strand cx.u = (openRegion s3 cx.u M cx.next false).strand cx.u := by
    unfold complete
    dsimp only
    rw [hB]
    have : leaveBoundary s2 cx.u cx.mask = openRegion s3 cx.u M cx.next false := by
      unfold leaveBoundary
      change List.foldl _ s3 (byPc (s3.strand cx.u) (cx.mask &&& (s3.strand cx.u).liveMask)) = _
      rw [hmask, hM]
      rfl
    change (leaveBoundary s2 cx.u cx.mask).strand cx.u = _
    rw [this]
  rw [hfin]
  constructor
  · exact openRegionAs_region s3.newId.2 cx.u M cx.next false _ h3 j (by change j < (s3.strand cx.u).threads.length; rw [hlen]; exact hjl) hMj
  · refine Shut.of_buf ?_ (openRegionAs_buf s3.newId.2 cx.u M cx.next false _ h3)
    change Shut (s3.strand cx.u) j R
    refine closeThreads_buf s2.newId.2 cx.u cx.mask _ h2 j R ?_
    rcases hs with hs | hs
    · left
      refine Shut.of_buf hs ?_
      change (s2.strand cx.u).buf = _
      rw [w1, e1]
      rfl
    · right
      refine ⟨hjm, ?_⟩
      change ((s2.strand cx.u).thread j).region = R
      rw [w2 j]
      change ((s1.strand cx.u).thread j).region = R
      rw [e1, hth, if_pos ⟨hjl, hjm⟩]
      exact hs

theorem entered_shut (i : Instr) (s : State) (u : Nat) (m : BitVec 32) (h : s.has u) (hB : isBoundary i.op i.uses = true) (j : Nat) (hj : m.getLsbD j = true) :
    Shut ((entered i s u m).strand u) j ((s.strand u).thread j).region ∨ (((entered i s u m).strand u).thread j).region = ((s.strand u).thread j).region := by
  unfold entered
  dsimp only
  rw [if_pos (by exact hB)]
  unfold enterBoundary
  split
  · right; rfl
  · left
    refine Shut.of_buf ?_ (openRegionAs_buf _ _ _ _ _ _ ?_)
    · exact closeThreads_buf s.newId.2 u m s.newId.1 h j _ (.inr ⟨hj, rfl⟩)
    · exact (closeThreads_quiet s.newId.2 u m s.newId.1 h).beside.has.2 h

/-! ### Strands that owe nothing -/

/-- The strand has nothing buffered or closed, and what it owes otherwise is the same as before. -/
structure Idle (a b : Strand) : Prop where
  buf : b.buf = []
  redraw : b.redraw = []
  cq : b.cq = []
  unacked : b.unacked = a.unacked
  stFaults : b.stFaults = a.stFaults
  others : b.cpFaults = a.cpFaults ∧ b.mtFaults = a.mtFaults ∧ b.wsFaults = a.wsFaults ∧ b.mops = a.mops ∧
    b.copyUnacked = a.copyUnacked ∧ b.peers = a.peers

theorem Idle.trans {a b c : Strand} (h : Idle a b) (g : Idle b c) : Idle a c :=
  ⟨g.buf, g.redraw, g.cq, g.unacked.trans h.unacked, g.stFaults.trans h.stFaults,
    ⟨g.others.1.trans h.others.1, g.others.2.1.trans h.others.2.1, g.others.2.2.1.trans h.others.2.2.1, g.others.2.2.2.1.trans h.others.2.2.2.1,
      g.others.2.2.2.2.1.trans h.others.2.2.2.2.1, g.others.2.2.2.2.2.trans h.others.2.2.2.2.2⟩⟩

theorem Idle.refl {a : Strand} (h1 : a.buf = []) (h2 : a.redraw = []) (h3 : a.cq = []) : Idle a a :=
  ⟨h1, h2, h3, rfl, rfl, rfl, rfl, rfl, rfl, rfl, rfl⟩

theorem closeThreads_idle (s : State) (u : Nat) (m : BitVec 32) (own : Nat) (h : s.has u) (h1 : (s.strand u).buf = [])
    (h2 : (s.strand u).redraw = []) (h3 : (s.strand u).cq = []) : Idle (s.strand u) ((closeThreads s u m own).strand u) := by
  obtain ⟨e1, e2, e3⟩ := closeThreads_empty s u m own h h1 h2 h3
  obtain ⟨o1, o2, o3, o4, o5, o6, o7, o8⟩ := moved_owes (closeThreads_moved s u m own h)
  exact ⟨e1, e2, e3, o1, o2, o3, o4, o5, o6, o7, o8⟩

theorem openRegionAs_idle (s : State) (u : Nat) (m : BitVec 32) (pc : BitVec 62) (own : Bool) (id : Nat) (h : s.has u) (h1 : (s.strand u).buf = [])
    (h2 : (s.strand u).redraw = []) (h3 : (s.strand u).cq = []) : Idle (s.strand u) ((openRegionAs s u m pc own id).strand u) := by
  have hs : (openRegionAs s u m pc own id).strand u = _ := strand_modStrand_self s u _ h
  rw [hs]
  exact ⟨h1, h2, h3, rfl, rfl, rfl, rfl, rfl, rfl, rfl, rfl⟩

theorem entered_idle (i : Instr) (s : State) (u : Nat) (m : BitVec 32) (h : s.has u) (h1 : (s.strand u).buf = [])
    (h2 : (s.strand u).redraw = []) (h3 : (s.strand u).cq = []) : Idle (s.strand u) ((entered i s u m).strand u) := by
  unfold entered
  dsimp only
  split
  · unfold enterBoundary
    split
    · exact Idle.refl h1 h2 h3
    · have c := closeThreads_idle s.newId.2 u m s.newId.1 h h1 h2 h3
      exact c.trans (openRegionAs_idle _ _ _ _ _ _ ((closeThreads_quiet s.newId.2 u m s.newId.1 h).beside.has.2 h) c.buf c.redraw c.cq)
  · exact Idle.refl h1 h2 h3

theorem commitPass_nil (s : State) (u : Nat) (sel : BufStore → Bool) (h : (s.strand u).cq = []) : commitPass s u sel = s := by
  simp [commitPass, h]

/-- Every control register but BTNEXT is read from the strand alone. -/
theorem ctlRead_ctl (s t : State) {a b : Strand} (h : b.ctl = a.ctl) (n : Nat) (hn : n < 0x12) (h0 : n ≠ 0x0B) (h11 : n ≠ 0x11) :
    ctlRead t b n = ctlRead s a n := by
  unfold ctlRead
  interval_cases n <;> first | contradiction | simp only [h]

/-- A strand whose threads have changed only in what control flow may change, standing where they stood. -/
theorem flow_body (s : State) (u : Nat) (f : Strand → Strand) (w : Touch) (h : s.has u) (hw : w.flow = true)
    (hk : ∀ st, ∃ T, f st = { st with threads := T } ∧ T.length = st.threads.length ∧ ∀ i, (Strand.thread { st with threads := T } i).v = (st.thread i).v ∧
      (Strand.thread { st with threads := T } i).p = (st.thread i).p ∧ (Strand.thread { st with threads := T } i).pc = (st.thread i).pc ∧
      (Strand.thread { st with threads := T } i).lane = (st.thread i).lane) : Body w s (s.modStrand u f) u := by
  have hs := strand_modStrand_self s u f h
  obtain ⟨T, hT, hl, hth⟩ := hk (s.strand u)
  rw [hT] at hs
  refine ⟨only_modStrand s u f w h ?_, ?_, ?_, fun _ => (has_modStrand _ _ _ _).2 h, ?_⟩
  · rw [hT]
    exact ⟨fun n hn h0 _ => by interval_cases n <;> first | rfl | contradiction, fun _ => ⟨rfl, rfl, rfl⟩, fun _ _ _ => rfl, fun _ _ => rfl, fun _ _ => rfl,
      fun i _ _ _ => by rw [(hth i).1], fun i _ _ => by rw [(hth i).2.1], fun hf => by simp [hw] at hf⟩
  · rw [hs]; exact fun i => (hth i).2.2.1
  · rw [hs]; exact hl
  · rw [hs]; exact ⟨rfl, rfl, fun i => (hth i).2.2.2⟩

/-- Threads that have gone: nothing else of the strand differs. -/
theorem exit_out (s : State) (u : Nat) (gone bound : BitVec 32) (w : Touch) (h : s.has u) (hw : w.flow = true) :
    let t := s.modStrand u fun st => st.modThreads gone fun t => { t with live := false, exited := true, bound := bound }
    Body w s t u ∧ ∀ j, ((t.strand u).thread j).live = (((s.strand u).thread j).live && !gone.getLsbD j) := by
  dsimp only
  have hs := strand_modStrand_self s u (fun st => st.modThreads gone fun t => { t with live := false, exited := true, bound := bound }) h
  refine ⟨flow_body s u _ w h hw fun st => ⟨_, rfl, modThreads_length _ _ _, fun i => ?_⟩, fun j => ?_⟩
  · have := thread_modThreads st gone (fun t => { t with live := false, exited := true, bound := bound }) i
    change ((st.modThreads gone fun t => { t with live := false, exited := true, bound := bound }).thread i).v = _ ∧
      ((st.modThreads gone fun t => { t with live := false, exited := true, bound := bound }).thread i).p = _ ∧
      ((st.modThreads gone fun t => { t with live := false, exited := true, bound := bound }).thread i).pc = _ ∧
      ((st.modThreads gone fun t => { t with live := false, exited := true, bound := bound }).thread i).lane = _
    rw [this]
    split <;> exact ⟨rfl, rfl, rfl, rfl⟩
  · rw [hs, thread_modThreads]
    by_cases hl : ((s.strand u).thread j).live = true
    · have := lt_of_live _ _ hl
      split
      · next hc => simp [hc.2]
      · next hc => simp only [this, true_and] at hc; simp [hc]
    · have hf : ((s.strand u).thread j).live = false := by simpa using hl
      split <;> simp [hf]

end Sys2Proof.Machine
end

