-- ==== Sys2Proof/Laws/Access.lean ====
section
/-!
SUPPORT. Accesses to memory: what translation may leave, and what loads, stores and atomics do once their addresses are found.
-/

namespace Sys2Proof.Machine


/-! ### Translation -/

/-- What a translation may leave: memory (page-table entries) and the caches of cores differ, nothing else. -/
def Near (s t : State) : Prop := ∃ mem cores, t = { s with mem := mem, cores := cores }

theorem Near.refl (s : State) : Near s s := ⟨s.mem, s.cores, rfl⟩

theorem Near.trans {a b c : State} (h : Near a b) (g : Near b c) : Near a c := by
  obtain ⟨m, r, rfl⟩ := h
  obtain ⟨m', r', rfl⟩ := g
  exact ⟨m', r', rfl⟩

theorem translate_near (s : State) (w : Who) (k : Access) (va n : Nat) : Near s (translate s w k va n).2 := by
  unfold translate
  split
  · exact Near.refl s
  · dsimp only
    split
    · split <;> exact ⟨_, _, rfl⟩
    · split
      · exact Near.refl s
      · exact Near.refl s
      · split
        · exact Near.refl s
        · split <;> exact ⟨_, _, rfl⟩

theorem fateOf_near (s : State) (w : Who) (k : Access) (va n : Nat) : Near s (fateOf s w k va n).2 := by
  have h := translate_near s w k va n
  unfold fateOf
  split <;> rename_i heq <;> rw [heq] at h
  · dsimp only at h ⊢
    split <;> exact h
  · exact h
  · exact h
  · exact h

theorem fates_near (s : State) (u : Nat) (uniform : Bool) (k : Access) (n : Nat) (xs : List Ea) : Near s (fates s u uniform k n xs).2 := by
  unfold fates
  suffices ∀ (acc : List (Ea × Fate)) (t : State), Near s t → Near s (xs.foldl (fun r x =>
      let w := (r.2.strand u).who r.2 (if uniform then none else some x.lane)
      let f := fateOf r.2 w k x.va n
      (r.1 ++ [(x, f.1)], f.2)) (acc, t)).2 from this [] s (Near.refl s)
  induction xs with
  | nil => exact fun _ _ h => h
  | cons x xs ih => exact fun acc t h => ih _ _ (h.trans (fateOf_near _ _ _ _ _))

/-! ### Completion from a base -/

/-- An instruction whose meaning completes normally after its translations. -/
theorem completes_from (i : Instr) (s : State) (u : Nat) (m : BitVec 32) (base : State) (w : Touch) (P : State → Prop) (body : Cx → State → Eff) (t1 : State)
    (h : Ready i s u m) (hx : exec i s = issue i s body) (ha : acting i s u m ≠ [])
    (hb : body (contextOf i s u m) (entered i s u m) = .ok t1)
    (hst : base.strand u = (entered i s u m).strand u)
    (hB : Body w base t1 u) (hbh : base.has u)
    (hP : P (complete t1 (contextOf i s u m) i.uses false 0)) : CompletesFrom base i s u m w P := by
  have hh : t1.has u := hB.has hbh
  have hem : (acting i s u m).isEmpty = false := by simpa using ha
  obtain ⟨_, hS, _⟩ := complete_spec t1 (contextOf i s u m) i.uses false 0 hh
  refine ⟨_, ?_, hP, ?_, fun j hj => ?_⟩
  · rw [hx, issue_ready i s u m body h, hb, hem]
    rfl
  · refine (hB.only.mono (x := w.of i) ⟨fun _ h => h, fun _ _ h => h, fun _ _ h => h, fun _ h => h, fun _ h => h, fun _ h => by simp [Touch.of, h],
      fun _ h => by simp [Touch.of, h], id, id, id⟩).trans ?_
    exact complete_only t1 (contextOf i s u m) i.uses false 0 (w.of i) hh (fun j hj => by simp [Touch.of, contextOf_pops i s u m j hj]) fun hB n hn => by
      have : isBoundary i.op i.uses = true := hB
      rcases hn with rfl | rfl | rfl <;> simp [Touch.of, closes, this]
  · have hlen : j < (t1.strand u).threads.length := by rw [hB.len, hst, h.agree.len]; exact hj
    refine (hS j).trans ?_
    refine (congrArg Thread.pc (movedOn_thread (t1.strand u) (contextOf i s u m) false j)).trans ?_
    have hmask : (contextOf i s u m).mask = m := rfl
    rw [hmask]
    by_cases hm : m.getLsbD j = true
    · rw [if_pos ⟨rfl, hlen, hm⟩, if_pos hm]
      rfl
    · rw [if_neg (fun hc => hm hc.2.2), if_neg hm]
      refine (hB.stay j).trans ?_
      rw [hst]
      exact h.quiet.stay j


/-! ### Loads -/

theorem Finds.near {i : Instr} {s : State} {u : Nat} {m : BitVec 32} {uniform : Bool} {k : Access} {n : Nat} {xs : List Ea} {base : State}
    {loc leaf : Nat → Nat} (h : Finds i s u m uniform k n xs base loc leaf) : Near (entered i s u m) base := by
  have := fates_near (entered i s u m) u uniform k n xs
  rw [h.2.2] at this
  exact this

theorem withHits_all (xs : List Ea) (loc leaf : Nat → Nat) (sub : Nat) (s : State) (absent : List Nat → State → Eff) (k : State → Eff) :
    withHits (xs.map fun x => (x, Fate.hit (.loc (loc x.thread)) (leaf x.thread))) sub s absent k = k s := by
  unfold withHits
  have : (xs.map fun x => (x, Fate.hit (.loc (loc x.thread)) (leaf x.thread))).find? (fun x => !x.2.isHit) = none := by
    rw [List.find?_eq_none]
    intro y hy
    obtain ⟨x, _, rfl⟩ := List.mem_map.1 hy
    simp [Fate.isHit]
  rw [this]

theorem settle_clean (s : State) (loc n : Nat) (h : s.raw = []) : s.settle loc n = s := by
  unfold State.settle
  rw [h]
  rfl

theorem settleHits_clean (s : State) (n : Nat) (fs : List (Ea × Fate)) (h : s.raw = []) : settleHits s n fs = s := by
  unfold settleHits
  induction fs with
  | nil => rfl
  | cons f fs ih =>
    rw [List.foldl_cons]
    split
    · rw [settle_clean _ _ _ h]; exact ih
    · exact ih

theorem viewOf_idle (s : State) (u : Nat) (h1 : (s.strand u).buf = []) (h2 : (s.strand u).cq = []) : viewOf s u = s := by
  unfold viewOf
  dsimp only
  rw [h1, h2]
  rfl

theorem extendWords_length (sx : Bool) (n x : Nat) : (extendWords sx n x).length = if n < 4 then 1 else n / 4 := by
  unfold extendWords
  split
  · rfl
  · simp [wordsOfNat]

theorem loadAt_clean (s : State) (loc n : Nat) (sx : Bool) (h : s.cleanAt loc n) :
    loadAt s loc n sx = { words := extendWords sx n (s.readNat loc n), tag := s.tagOf loc n, poison := false } := by
  unfold loadAt
  dsimp only
  rw [h.1]
  congr 1
  apply List.ext_getElem
  · simp
  · intro j h1 h2
    rw [List.getElem_mapIdx]
    have hj : j < (extendWords sx n (s.readNat loc n)).length := h2
    rw [extendWords_length] at hj
    have : s.poisonedAt (loc + 4 * j) (min n 4) = false := by
      split at hj
      · have : j = 0 := by omega
        subst this
        rw [Nat.min_eq_left (by omega)]
        exact h.1
      · rw [Nat.min_eq_right (by omega)]
        exact h.2 j (by omega)
    exact if_neg (by simp [this])

theorem loadLane_clean (cx : Cx) (o : MemOp) (uniform : Bool) (s : State) (x : Ea) (l : Nat) (h : s.cleanAt l (2 ^ o.size)) (hx : x.poison = false) :
    loadLane cx o uniform s x l s = (LaneLoad.mk x.thread (extendWords o.sx (2 ^ o.size) (s.readNat l (2 ^ o.size)))
      (if !uniform && o.pd then 0 else if (s.strand cx.u).tagEn then s.tagOf l (2 ^ o.size) else 0) false, s) := by
  unfold loadLane
  rw [loadAt_clean _ _ _ _ h]
  dsimp only
  rw [hx]
  unfold loadTag
  split <;> rfl

theorem loadLanes_clean (cx : Cx) (o : MemOp) (uniform : Bool) (s : State) (xs : List Ea) (loc leaf : Nat → Nat) (hr : s.raw = [])
    (h1 : (s.strand cx.u).buf = []) (h2 : (s.strand cx.u).cq = []) (h : ∀ x ∈ xs, s.cleanAt (loc x.thread) (2 ^ o.size) ∧ x.poison = false) :
    loadLanes cx o uniform (xs.map fun x => (x, Fate.hit (.loc (loc x.thread)) (leaf x.thread))) s =
      (xs.map fun x => LaneLoad.mk x.thread (extendWords o.sx (2 ^ o.size) (s.readNat (loc x.thread) (2 ^ o.size)))
        (if !uniform && o.pd then 0 else if (s.strand cx.u).tagEn then s.tagOf (loc x.thread) (2 ^ o.size) else 0) false, s) := by
  unfold loadLanes
  dsimp only
  rw [settleHits_clean _ _ _ hr, viewOf_idle _ _ h1 h2, List.foldl_map]
  suffices ∀ (acc : List LaneLoad), (xs.foldl (fun r x => ((r.1 ++ [(loadLane cx o uniform s x (loc x.thread) r.2).1], (loadLane cx o uniform s x (loc x.thread) r.2).2) : List LaneLoad × State)) (acc, s)) =
      (acc ++ xs.map fun x => LaneLoad.mk x.thread (extendWords o.sx (2 ^ o.size) (s.readNat (loc x.thread) (2 ^ o.size)))
        (if !uniform && o.pd then 0 else if (s.strand cx.u).tagEn then s.tagOf (loc x.thread) (2 ^ o.size) else 0) false, s) from this []
  induction xs with
  | nil => intro acc; simp
  | cons x xs ih =>
    intro acc
    rw [List.foldl_cons]
    dsimp only
    have hx := h x (List.mem_cons_self ..)
    rw [loadLane_clean _ _ _ _ _ _ hx.1 hx.2, ih fun y hy => h y (List.mem_cons_of_mem _ hy)]
    simp

theorem afterSc_idle (s : State) (cx : Cx) (o : MemOp) (k : State → Eff) (h : (s.strand cx.u).cq = []) : afterScStores s cx o k = k s := by
  unfold afterScStores
  split
  · dsimp only
    rw [commitPass_nil _ _ _ h, h]
    rfl
  · rfl

theorem withAddrs_good (xs : List Ea) (n : Nat) (uniform : Bool) (s : State) (k : State → Eff) (h : badAddr xs n = none) : withAddrs xs n uniform s k = k s := by
  unfold withAddrs
  rw [h]

theorem Agree.lowest {a b : Strand} (h : Agree a b) (m : BitVec 32) : b.lowest m = a.lowest m := by
  unfold Strand.lowest
  rw [h.byLane]

theorem entered_raw (i : Instr) (s : State) (u : Nat) (m : BitVec 32) : (entered i s u m).raw = s.raw := by
  unfold entered
  dsimp only
  split
  · unfold enterBoundary
    split <;> rfl
  · rfl

/-- What a load that finds its bytes does. -/
theorem load_finds (i : Instr) (o : MemOp) (uniform : Bool) (s : State) (u : Nat) (m : BitVec 32) (base : State) (loc leaf : Nat → Nat) (h : Ready i s u m)
    (hcl : (s.strand u).clean = true) (hp : isProbe o uniform = false) (hraw : s.raw = []) (h1 : (s.strand u).buf = []) (h2 : (s.strand u).redraw = [])
    (h3 : (s.strand u).cq = [])
    (hf : Finds i s u m uniform .load (2 ^ o.size) (accesses i o uniform s u m) base loc leaf)
    (hcln : ∀ x ∈ accesses i o uniform s u m, base.cleanAt (loc x.thread) (2 ^ o.size)) :
    load o uniform (contextOf i s u m) (entered i s u m) =
      .done (putLoads base (contextOf i s u m) o uniform ((accesses i o uniform s u m).map fun x => LaneLoad.mk x.thread (extendWords o.sx (2 ^ o.size) (base.readNat (loc x.thread) (2 ^ o.size)))
        (if !uniform && o.pd then 0 else if (s.strand u).tagEn then base.tagOf (loc x.thread) (2 ^ o.size) else 0) false)) false := by
  have hs := issuing_has s u m h.atIssue
  have hid := entered_idle i s u m hs h1 h2 h3
  have hxs : memAddrs ((entered i s u m).strand u) (contextOf i s u m) o uniform = accesses i o uniform s u m := by
    unfold accesses memAddrs
    split
    · unfold uniAddr
      dsimp only
      rw [h.agree.readS, h.agree.readS, h.agree.lowest]
    · unfold vecAddrs
      dsimp only
      rw [h.agree.readS]
      refine List.map_congr_left fun j _ => ?_
      rw [h.agree.readV, h.agree.lane]
  obtain ⟨mem, cores, hb⟩ := hf.near
  have hbs : ∀ x, base.strand x = (entered i s u m).strand x := fun x => by rw [hb]; rfl
  have hpo : ∀ x ∈ accesses i o uniform s u m, x.poison = false := by
    intro x hx
    unfold accesses memAddrs at hx
    split at hx
    · rw [List.mem_singleton] at hx
      rw [hx]
      unfold uniAddr
      simp only [readS_clean _ hcl, Bool.or_self]
    · unfold vecAddrs at hx
      obtain ⟨j, _, rfl⟩ := List.mem_map.1 hx
      simp only [readS_clean _ hcl, readV_clean _ hcl, Bool.or_self]
  unfold load
  dsimp only
  rw [afterSc_idle _ _ _ _ (by rw [contextOf_u]; exact hid.cq), hp, contextOf_u, hxs]
  simp only [Bool.false_eq_true, ↓reduceIte]
  rw [withAddrs_good _ _ _ _ _ hf.1, hf.2.2]
  dsimp only
  rw [withHits_all, hf.2.1]
  simp only [Bool.false_eq_true, ↓reduceIte]
  rw [loadLanes_clean (contextOf i s u m) o uniform base _ loc leaf (by rw [hb]; exact (entered_raw i s u m).trans hraw) (by rw [contextOf_u, hbs]; exact hid.buf) (by rw [contextOf_u, hbs]; exact hid.cq) fun x hx => ⟨hcln x hx, hpo x hx⟩]
  dsimp only
  rw [contextOf_u, hbs, h.agree.tagEn]
  congr 1
  rw [List.any_map]
  simp [Function.comp_def]

theorem accesses_entered (i : Instr) (o : MemOp) (uniform : Bool) (s : State) (u : Nat) (m : BitVec 32) (h : Ready i s u m) :
    memAddrs ((entered i s u m).strand u) (contextOf i s u m) o uniform = accesses i o uniform s u m := by
  unfold accesses memAddrs
  split
  · unfold uniAddr
    dsimp only
    rw [h.agree.readS, h.agree.readS, h.agree.lowest]
  · unfold vecAddrs
    dsimp only
    rw [h.agree.readS]
    refine List.map_congr_left fun j _ => ?_
    rw [h.agree.readV, h.agree.lane]

theorem accesses_va (i : Instr) (o : MemOp) (uniform : Bool) (s : State) (u : Nat) (m : BitVec 32) (x : Ea) (hx : x ∈ accesses i o uniform s u m) : x.va < 2 ^ 64 := by
  unfold accesses memAddrs at hx
  split at hx
  · rw [List.mem_singleton] at hx
    rw [hx]
    exact BitVec.isLt _
  · obtain ⟨j, _, rfl⟩ := List.mem_map.1 hx
    exact BitVec.isLt _

theorem fates_mem (s : State) (u : Nat) (uniform : Bool) (k : Access) (n : Nat) (xs : List Ea) (y : Ea × Fate) (h : y ∈ (fates s u uniform k n xs).1) : y.1 ∈ xs := by
  unfold fates at h
  suffices ∀ (acc : List (Ea × Fate)) (t : State), y ∈ (xs.foldl (fun r x =>
      let w := (r.2.strand u).who r.2 (if uniform then none else some x.lane)
      let f := fateOf r.2 w k x.va n
      (r.1 ++ [(x, f.1)], f.2)) (acc, t)).1 → y ∈ acc ∨ y.1 ∈ xs by
    rcases this [] s h with h | h
    · simp at h
    · exact h
  clear h
  induction xs with
  | nil => exact fun _ _ h => .inl h
  | cons x xs ih =>
    intro acc t h
    rcases ih _ _ h with h | h
    · rcases List.mem_append.1 h with h | h
      · exact .inl h
      · rw [List.mem_singleton] at h
        rw [h]
        exact .inr (List.mem_cons_self ..)
    · exact .inr (List.mem_cons_of_mem _ h)

theorem store_addrs (o : MemOp) (cx : Cx) (s : State) : ∃ k, store o cx s = withAddrs (memAddrs (s.strand cx.u) cx o false) (2 ^ o.size) false s k := by
  unfold store
  dsimp only
  exact ⟨_, rfl⟩

theorem storeUniform_addrs (o : MemOp) (cx : Cx) (s : State) :
    ∃ k, storeUniform o cx s = withAddrs (memAddrs (s.strand cx.u) cx o true) (2 ^ o.size) true s k := by
  unfold storeUniform memAddrs
  dsimp only
  exact ⟨_, rfl⟩

/-- An instruction that uses no queue register, and is not itself a boundary, is none. -/
theorem not_boundary (i : Instr) (s : State) (u : Nat) (m : BitVec 32) (h : Ready i s u m) (hq : ∀ x ∈ i.uses, x.q = false)
    (hb : isBoundary i.op [] = false) : isBoundary i.op i.uses = false := by
  have ha := h.allowed
  unfold checkFault at ha
  have hr : regFault (s.strand u).regs (s.strand u).ctl.qmap i.uses = none := by
    split at ha
    · cases ha
    · split at ha
      · cases ha
      · simpa using ha
  have hu : (i.uses.any fun x => decide (x.sp = .v) && decide (248 ≤ x.code)) = false := by
    rw [List.any_eq_false]
    intro x hx
    have := (List.findSome?_eq_none_iff.1 hr) x hx
    unfold useFault at this
    cases hsp : x.sp with
    | v =>
      rw [hsp] at this
      dsimp only at this
      by_cases h8 : 248 ≤ x.code
      · rw [if_pos h8, hq x hx] at this
        simp at this
      · simp [h8]
    | p => simp
    | s => simp
    | k => simp
  unfold isBoundary at hb ⊢
  rw [List.any_nil, Bool.or_false] at hb
  rw [hb, Bool.false_or]
  exact hu

theorem release_idle (s : State) (u : Nat) (pc : BitVec 62) (m : BitVec 32) (scope : Nat) (k : State → Eff) (h : Released s u) : release s u pc m scope k = k s := by
  obtain ⟨h1, h2, h3, h4, h5, h6, h7⟩ := h
  unfold release settleStores
  dsimp only
  rw [commitPass_nil _ _ _ h1]
  unfold storesOwed nowFaults
  rw [h1, h2, h3]
  simp only [List.any_nil, List.isEmpty_nil, Bool.not_true, Bool.or_self, Bool.false_eq_true, ↓reduceIte, List.filter_nil]
  rw [h5, h4, h6, h7]
  simp only [Bool.and_false, Bool.false_eq_true, ↓reduceIte, List.append_nil, List.filter_nil]
  rfl

theorem complete_buf (s : State) (cx : Cx) (us : List Use) (jumped : Bool) (taken : BitVec 32) (h : s.has cx.u) (hb : cx.site.boundary = false) :
    ((complete s cx us jumped taken).strand cx.u).buf = (s.strand cx.u).buf := by
  unfold complete
  dsimp only
  rw [hb]
  simp only [Bool.false_eq_true, ↓reduceIte, Bool.false_or]
  have hq := fun (t : State) (c : Bool) => show ((if c then stopRun t else t).strand cx.u).buf = (t.strand cx.u).buf by cases c <;> rfl
  rw [hq, (windows_buf _ cx us taken ((has_modStrand _ _ _ _).2 h)).1, strand_modStrand_self _ _ _ h]
  cases jumped <;> rfl

/-- A store placed in the buffer leaves all that a program sees. -/
theorem bufferStore_body (s : State) (cx : Cx) (kind : StKind) (size : Nat) (sc : Bool) (lanes : List StLane) (w : Touch) (h : s.has cx.u) :
    Body w s (bufferStore s cx kind size sc lanes) cx.u ∧ ∃ e : BufStore, ((bufferStore s cx kind size sc lanes).strand cx.u).buf = (s.strand cx.u).buf ++ [e] ∧ e.kind = kind ∧ e.lanes = lanes := by
  unfold bufferStore
  dsimp only
  refine ⟨(newId_body w s cx.u).trans (body_modStrand s.newId.2 cx.u _ w h ?_), ?_⟩
  · exact ⟨rfl, rfl, rfl, ⟨rfl, rfl, rfl⟩, rfl, rfl, fun _ _ _ => rfl, fun _ _ => rfl, fun _ _ => rfl, fun _ _ _ _ => rfl, fun _ _ _ => rfl,
      fun _ => ⟨rfl, rfl, rfl, rfl, rfl⟩, rfl, rfl⟩
  · rw [strand_modStrand_self s.newId.2 cx.u _ h]
    exact ⟨_, rfl, rfl, rfl⟩

theorem releaseFirst_idle (s : State) (cx : Cx) (o : MemOp) (m : BitVec 32) (k : State → Eff) (h : o.sync = true → 2 ≤ o.ord → Released s cx.u) :
    releaseFirst s cx o m k = k s := by
  unfold releaseFirst
  split
  · next hc =>
    simp only [Bool.and_eq_true, decide_eq_true_eq] at hc
    exact release_idle _ _ _ _ _ _ (h hc.1 (by omega))
  · rfl

theorem find_acc (l : List Nat) (f : Nat → Ea) (hf : ∀ j, (f j).thread = j) (j : Nat) (hj : j ∈ l) : ((l.map f).find? fun x => x.thread == j).map (·.va) = some (f j).va := by
  induction l with
  | nil => cases hj
  | cons a l ih =>
    rw [List.map_cons, List.find?_cons]
    by_cases hc : a = j
    · rw [hf, hc]; simp
    · rw [hf]
      rw [show (a == j) = false by simp [hc]]
      exact ih (by rcases List.mem_cons.1 hj with h | h; exact absurd h.symm hc; exact h)

/-- The region of a whole fragment discarded: nothing of it stays in the buffer. -/
theorem discard_buf (s : State) (u : Nat) (m : BitVec 32) (ctl : Ctl → Ctl → Ctl) (h : s.has u) :
    let t := (discard s u m ctl).2
    (∀ e ∈ (t.strand u).buf, ∀ l ∈ e.lanes, m.getLsbD l.thread → l.region = ((s.strand u).thread l.thread).region → l.closed = true) ∧ t.has u ∧
      (t.strand u).trap = (s.strand u).trap ∧ ∃ b, (t.strand u).ctl = ctl (s.strand u).ctl b ∧ (b = (s.strand u).ctl ∨ ∃ r ∈ (s.strand u).regions, b = r.ctl) := by
  unfold discard
  dsimp only
  rw [strand_modStrand_self _ _ _ h]
  refine ⟨?_, (has_modStrand _ _ _ _).2 h, rfl, _, rfl, ?_⟩
  · intro e he l hl hm hr
    have he' : e ∈ (withdraw (s.strand u) (m ||| (s.strand u).boundTo m)).1 := he
    unfold withdraw at he'
    dsimp only at he'
    obtain ⟨e0, _, rfl⟩ := List.mem_map.1 he'
    have := (List.mem_filter.1 hl).2
    by_contra hc
    have hcl : l.closed = false := by simpa using hc
    rw [hcl, BitVec.getLsbD_or, hm, hr] at this
    simp at this
  · cases hfind : (s.strand u).regions.find? fun r => r.id == ((s.strand u).thread ((s.strand u).lowest (m ||| (s.strand u).boundTo m))).region with
    | none => exact .inl rfl
    | some r => exact .inr ⟨r, List.mem_of_find?_eq_some hfind, rfl⟩

theorem openRegion_buf (s : State) (u : Nat) (m : BitVec 32) (pc : BitVec 62) (own : Bool) (h : s.has u) : ((openRegion s u m pc own).strand u).buf = (s.strand u).buf := by
  have hs : (openRegion s u m pc own).strand u = _ := strand_modStrand_self s.newId.2 u _ h
  rw [hs]
  rfl

/-- The save slot stays open when a strand changes in what does not place it. -/
theorem slotOpen_mod (s : State) (u : Nat) (f : Strand → Strand) (off n : Nat) (h : s.has u)
    (hf : (f (s.strand u)).launch = (s.strand u).launch ∧ (f (s.strand u)).skein = (s.strand u).skein ∧ (f (s.strand u)).idx = (s.strand u).idx ∧
      (f (s.strand u)).sid = (s.strand u).sid ∧ (f (s.strand u)).core = (s.strand u).core ∧ (f (s.strand u)).part = (s.strand u).part ∧
      (f (s.strand u)).slot = (s.strand u).slot ∧ (f (s.strand u)).cont = (s.strand u).cont)
    (ho : SlotOpen s u off n) : SlotOpen (s.modStrand u f) u off n := by
  intro bs hbs
  have hst := strand_modStrand_self s u f h
  rw [hst]
  have hd : SameDevice s (s.modStrand u f) := ⟨rfl, rfl, rfl⟩
  have hva : slotVA (s.modStrand u f) (f (s.strand u)) = slotVA s (s.strand u) := by
    unfold slotVA
    simp only [hf.1, hf.2.1, hf.2.2.1, hf.2.2.2.1, hf.2.2.2.2.1, hf.2.2.2.2.2.1, hf.2.2.2.2.2.2.1, hf.2.2.2.2.2.2.2]
    unfold blockVA blkSize State.launch
    simp only [State.context, hd.contexts, hd.devGet]
    rfl
  have hc : (s.modStrand u f).ctxOf (f (s.strand u)) = s.ctxOf (s.strand u) := by
    unfold State.ctxOf State.launch
    rw [hf.1]
    rfl
  rw [hva, hc]
  have := devPut_strands s (s.modStrand u f).strands (s.ctxOf (s.strand u)) (slotVA s (s.strand u) + off) bs
  have he : s.modStrand u f = { s with strands := (s.modStrand u f).strands } := rfl
  rw [he, this, Option.isSome_map]
  exact ho bs hbs

/-- A trap is taken where the strand has a handler and is not in it. -/
theorem takeTrap_into (s : State) (p : Site) (x : Exc) (h : s.has p.u) (hb : x.birth = none) (ht : (s.strand p.u).trap = none) (hv : (s.strand p.u).ctl.tvec ≠ 0)
    (ho : SlotOpen s p.u 0x400 256) : ∃ k, ((takeTrap s p x).strand p.u).trap = some k ∧ k.cause = x.cause ∧ k.frag = p.mask ∧ ((takeTrap s p x).strand p.u).buf = (s.strand p.u).buf := by
  have hb' : x.birth.isSome = true → s.mints p.u = false := by rw [hb]; intro h; cases h
  obtain ⟨c, bytes, hbytes, htake⟩ := takeTrap_eq s p x hb' ht hv
  have hsw : (slotWrite s p.u 0x400 bytes).strand p.u = s.strand p.u ∧ (slotWrite s p.u 0x400 bytes).has p.u := by
    have hlen : bytes.length = 256 := by rw [hbytes]; exact length_frame _ _ _ _ _ _ _ _ _ _
    obtain ⟨mem, hmem⟩ := slotWrite_mem s p.u 0x400 bytes (by rw [hlen]; exact ho)
    rw [hmem]
    exact ⟨rfl, h⟩
  rw [htake]
  rw [openRegion_buf _ _ _ _ _ ((has_modStrand _ _ _ _).2 hsw.2), (openRegion_quiet _ _ _ _ _ ((has_modStrand _ _ _ _).2 hsw.2)).agree.trap]
  rw [strand_modStrand_self _ _ _ hsw.2]
  refine ⟨_, rfl, rfl, rfl, ?_⟩
  change ((slotWrite s p.u 0x400 bytes).strand p.u).buf = _
  rw [hsw.1]

/-- Every instruction's meaning goes through `issue`. -/
theorem exec_issues (i : Instr) (h : toRaw i ≠ none) : ∃ body, ∀ s, exec i s = issue i s body := by
  cases i <;> first | exact ⟨_, fun _ => rfl⟩ | exact absurd rfl h

theorem store_clean (s : State) (l : Nat) (bs : List Byte) (t : Tag) (hp : ∀ x ∈ unitsOf l bs.length, s.poison.contains x = false) :
    ∃ tags, s.store [(l, bs, t)] = { s with mem := Memory.write s.mem l bs, tags := tags } ∧
      ∀ k, k ∉ sectorsOf l bs.length → sget 0 tags k = sget 0 s.tags k := by
  unfold State.store
  dsimp only
  have hb : (pieceUnits [(l, bs, t)]).filter (fun x => s.poison.contains x && !isHost x) = [] := by
    rw [List.filter_eq_nil_iff]
    intro x hx
    unfold pieceUnits at hx
    simp only [List.flatMap_cons, List.flatMap_nil, List.append_nil, List.mem_dedup] at hx
    have := hp x hx
    simp only [List.contains_eq_mem, decide_eq_false_iff_not] at this
    simp [this]
  rw [hb]
  simp only [List.filter_nil, List.foldl_nil, List.foldl_cons]
  have hw : writePiece [] s (l, bs, t) = { s with mem := Memory.write s.mem l bs } := rfl
  rw [hw]
  have hsec : ∀ (ks : List Nat) (r : State), ∃ tags, ks.foldl (storeTag [(l, bs, t)]) r = { r with tags := tags } ∧ ∀ k, k ∉ ks → sget 0 tags k = sget 0 r.tags k := by
    intro ks
    induction ks with
    | nil => exact fun r => ⟨r.tags, rfl, fun _ _ => rfl⟩
    | cons a ks ih =>
      intro r
      rw [List.foldl_cons]
      obtain ⟨g, hg, hgk⟩ : ∃ g, storeTag [(l, bs, t)] r a = { r with tags := g } ∧ ∀ k, k ≠ a → sget 0 g k = sget 0 r.tags k := by
        unfold storeTag
        dsimp only
        split
        · exact ⟨r.tags, rfl, fun _ _ => rfl⟩
        · exact ⟨_, rfl, fun k hk => by rw [sget_sput, if_neg hk]⟩
      rw [hg]
      obtain ⟨tags, ht, htk⟩ := ih { r with tags := g }
      exact ⟨tags, ht, fun k hk => by
        rw [htk k (fun hc => hk (List.mem_cons_of_mem _ hc))]
        exact hgk k (fun hc => hk (by rw [hc]; exact List.mem_cons_self ..))⟩
  obtain ⟨tags, ht, htk⟩ := hsec (pieceSectors [(l, bs, t)]) { s with mem := Memory.write s.mem l bs }
  refine ⟨tags, ht, fun k hk => htk k fun hc => hk ?_⟩
  unfold pieceSectors at hc
  simpa using hc

theorem noteSlots_idle (s : State) (ps : List Piece) (h : ∀ c ∈ s.contexts, c.2.busy = []) : noteSlots s ps = s := by
  unfold noteSlots
  have : ∀ (l : List (Nat × Context)) (r : State), (∀ c ∈ l, c.2.busy = []) → l.foldl (fun s c =>
      c.2.busy.foldl (fun s b =>
      if mbxKind s c.1 b.1 != 3 then s
      else
        match slotLoc s c.1 b.1 with
        | none => s
        | some l =>
          if ps.any (fun p => p.1 ≤ l && l < p.1 + p.2.1.length) && Memory.byte s.mem l == 0 then
            orReset (freeSlot s c.1 b.1) c.1 0
          else s) s) r = r := by
    intro l
    induction l with
    | nil => exact fun _ _ => rfl
    | cons c l ih =>
      intro r hc
      rw [List.foldl_cons, hc c (List.mem_cons_self ..)]
      exact ih r fun x hx => hc x (List.mem_cons_of_mem _ hx)
  exact this s.contexts s h

/-- Bytes performed where nothing is poisoned, raw or watched. -/
theorem perform_clean (s : State) (l : Nat) (bs : List Byte) (t : Tag) (hr : s.raw = []) (hc : ∀ c ∈ s.contexts, c.2.busy = [])
    (hp : ∀ x ∈ unitsOf l bs.length, s.poison.contains x = false) :
    ∃ tags, perform s [(l, bs, t)] = { s with mem := Memory.write s.mem l bs, tags := tags } ∧ ∀ k, k ∉ sectorsOf l bs.length → sget 0 tags k = sget 0 s.tags k := by
  have hs : s.settleStore [(l, bs, t)] = s := by unfold State.settleStore; simp [hr]
  unfold perform State.storeAll
  rw [hs]
  obtain ⟨tags, h1, h2⟩ := store_clean s l bs t hp
  rw [h1]
  exact ⟨tags, noteSlots_idle { s with mem := Memory.write s.mem l bs, tags := tags } _ hc, h2⟩

theorem mem_blocksOf (z l n x : Nat) (hz : 0 < z) (h : x ∈ blocksOf z l n) : ∃ q, x = q * z ∧ q * z < l + n ∧ l < q * z + z := by
  unfold blocksOf at h
  split at h
  · simp at h
  · next hn =>
    obtain ⟨q, hq, rfl⟩ := List.mem_map.1 h
    unfold upFrom at hq
    obtain ⟨i, hi, rfl⟩ := List.mem_map.1 hq
    rw [List.mem_range] at hi
    refine ⟨_, rfl, ?_, ?_⟩
    · have h0 : l / z ≤ (l + n - 1) / z := Nat.div_le_div_right (by omega)
      have h1 : l / z + i ≤ (l + n - 1) / z := by omega
      have := Nat.mul_le_mul_right z h1
      have h2 := Nat.div_mul_le_self (l + n - 1) z
      omega
    · have h1 : l / z ≤ l / z + i := by omega
      have h2 := Nat.mul_le_mul_right z h1
      have h3 := Nat.div_add_mod l z
      have h4 := Nat.mod_lt l hz
      have h5 : l / z * z = z * (l / z) := Nat.mul_comm _ _
      omega

theorem mem_sectorsOf (l n k : Nat) (h : k ∈ sectorsOf l n) : 32 * k < l + n ∧ l < 32 * k + 32 := by
  unfold sectorsOf at h
  obtain ⟨x, hx, rfl⟩ := List.mem_map.1 h
  obtain ⟨q, rfl, h1, h2⟩ := mem_blocksOf 32 l n x (by decide) hx
  rw [Nat.mul_div_cancel _ (by decide)]
  omega
theorem slt_signedOf (w x y : Nat) (hw : 0 < w) : (BitVec.ofNat w x).slt (BitVec.ofNat w y) = decide (signedOf w x < signedOf w y) := by
  have key : ∀ x, (BitVec.ofNat w x).toInt = signedOf w x := by
    intro x
    unfold signedOf
    rw [BitVec.toInt_eq_toNat_cond, BitVec.toNat_ofNat]
    have : 2 ^ w = 2 * 2 ^ (w - 1) := by
      obtain ⟨k, rfl⟩ : ∃ k, w = k + 1 := ⟨w - 1, by omega⟩
      simp [Nat.pow_succ, Nat.mul_comm]
    split <;> rename_i h1
    · rw [if_pos (by omega)]
    · rw [if_neg (by omega)]
      push_cast
      rfl
  rw [BitVec.slt, key, key]

/-- The state that one lane's atomic leaves. -/
structure AtomStep (w : Touch) (u d n : Nat) (s t : State) (j l : Nat) (write : Option Nat) : Prop where
  body : Body w s t u
  mem : t.mem = match write with | some v => Memory.write s.mem l (toBytes n v) | none => s.mem
  raw : t.raw = s.raw
  contexts : t.contexts = s.contexts
  poison : t.poison = s.poison
  ctl : (t.strand u).ctl = (s.strand u).ctl
  others : ∀ i, i ≠ j → ((t.strand u).thread i).v = ((s.strand u).thread i).v

theorem atomLane_clean (k : AtomKind) (o : AtomOp) (cx : Cx) (s : State) (x : Ea) (l leaf : Nat) (w : Touch) (hh : s.has cx.u) (hr : s.raw = [])
    (hc : ∀ c ∈ s.contexts, c.2.busy = []) (hcl : s.cleanAt l (2 ^ o.size)) (hp : ∀ y ∈ unitsOf l (2 ^ o.size), s.poison.contains y = false)
    (hx : x.poison = false) (hb : (atomOperand k o ((s.strand cx.u).thread x.thread)).2.2.2 = false) (hn : 4 ≤ 2 ^ o.size)
    (hd : k ≠ .red → o.d < 248) (hlt : x.thread < (s.strand cx.u).threads.length)
    (hwm : ∀ y, 32 * (l / 32) ≤ y → y < 32 * ((l + 2 ^ o.size + 31) / 32) → w.mem y = true)
    (hwv : k ≠ .red → ∀ c, o.d ≤ c → c < o.d + 2 ^ o.size / 4 → w.v x.thread c = true) :
    ∃ t, atomLane k o cx x (.hit (.loc l) leaf) s = (t, false) ∧
      AtomStep w cx.u o.d (2 ^ o.size) s t x.thread l ((atomOperand k o ((s.strand cx.u).thread x.thread)).2.2.1 (s.readNat l (2 ^ o.size))) ∧
      (k ≠ .red → ∀ i, i < 2 ^ o.size / 4 → o.d + i ≠ 0 → (t.vreg cx.u x.thread (o.d + i)).val = (wordsOfNat (2 ^ o.size / 4) (s.readNat l (2 ^ o.size))).getD i 0) := by
  unfold atomLane
  dsimp only
  have hload := loadAt_clean s l (2 ^ o.size) false hcl
  have hext : extendWords false (2 ^ o.size) (s.readNat l (2 ^ o.size)) = wordsOfNat (2 ^ o.size / 4) (s.readNat l (2 ^ o.size)) := by
    unfold extendWords
    rw [if_neg (by omega)]
  rw [hext] at hload
  obtain ⟨tg, htg⟩ : ∃ tg : Tag, tg = if (s.strand cx.u).tagEn = true then (atomOperand k o ((s.strand cx.u).thread x.thread)).2.1 else 0 := ⟨_, rfl⟩
  rw [← htg]
  -- the memory's side
  obtain ⟨r, hrmw, hrs⟩ : ∃ r : State, rmw s l (2 ^ o.size) tg (atomOperand k o ((s.strand cx.u).thread x.thread)).2.2.1 =
        { words := wordsOfNat (2 ^ o.size / 4) (s.readNat l (2 ^ o.size)), tag := s.tagOf l (2 ^ o.size), poison := false, s := r } ∧
      AtomStep w cx.u o.d (2 ^ o.size) s r x.thread l ((atomOperand k o ((s.strand cx.u).thread x.thread)).2.2.1 (s.readNat l (2 ^ o.size))) := by
    unfold rmw
    dsimp only
    rw [settle_clean _ _ _ hr, hload]
    simp only [Bool.false_eq_true, ↓reduceIte]
    cases hnew : (atomOperand k o ((s.strand cx.u).thread x.thread)).2.2.1 (s.readNat l (2 ^ o.size)) with
    | none => exact ⟨s, rfl, Body.refl _ _ _, rfl, rfl, rfl, rfl, rfl, fun _ _ => rfl⟩
    | some v =>
      obtain ⟨tags, h1, h2⟩ := perform_clean s l (toBytes (2 ^ o.size) v) tg hr hc (by rw [length_toBytes]; exact hp)
      refine ⟨_, rfl, ?_⟩
      rw [h1]
      rw [length_toBytes] at h2
      refine ⟨⟨⟨fun y hy => ?_, fun q hq => ?_, fun _ _ => rfl, fun _ _ => rfl, fun _ _ _ => rfl, fun _ _ _ => rfl, fun _ _ => rfl, fun _ _ => rfl, fun n hn h0 _ => ?_,
        fun _ _ => rfl, fun _ => ⟨rfl, rfl, rfl⟩, fun _ => rfl, fun _ => ⟨fun _ => rfl, fun _ h => ⟨h, rfl⟩, rfl⟩⟩, fun _ => rfl, rfl, fun h => h, rfl, rfl, fun _ => rfl⟩, rfl, rfl, rfl, rfl, rfl, fun _ _ => rfl⟩
      · change Memory.byte (Memory.write s.mem l (toBytes (2 ^ o.size) v)) y = _
        rw [byte_write, length_toBytes]
        split
        · next hin =>
          rw [hwm y (by omega) (by omega)] at hy
          cases hy
        · rfl
      · refine h2 q fun hmem => ?_
        have hs := mem_sectorsOf _ _ _ hmem
        have := hq 0 (by decide)
        rw [hwm (32 * q + 0) (by omega) (by omega)] at this
        cases this
      · exact State.creg_eq rfl rfl rfl rfl hn h0
  rw [hrmw]
  dsimp only
  rw [hb, hx]
  have hlt' : (loadTag r cx [x.thread] false x { words := wordsOfNat (2 ^ o.size / 4) (s.readNat l (2 ^ o.size)), tag := s.tagOf l (2 ^ o.size), poison := false }) =
      (if (r.strand cx.u).tagEn then s.tagOf l (2 ^ o.size) else 0, r) := rfl
  rw [hlt']
  by_cases hk : k = .red
  · rw [if_pos hk]
    exact ⟨r, rfl, hrs, fun h => absurd hk h⟩
  · rw [if_neg hk]
    have hrh : r.has cx.u := hrs.body.has hh
    have hd8 := hd hk
    have hst := strand_modStrand_self r cx.u
    let f : Nat → List Word × Tag := fun _ => (wordsOfNat (2 ^ o.size / 4) (s.readNat l (2 ^ o.size)), if (r.strand cx.u).tagEn then s.tagOf l (2 ^ o.size) else 0)
    have hwl : (wordsOfNat (2 ^ o.size / 4) (s.readNat l (2 ^ o.size))).length = 2 ^ o.size / 4 := by simp [wordsOfNat]
    have hbody := writeD_body r cx o.d [(x.thread, f x.thread)] w hrh (fun _ y hy c c1 c2 => by
      rw [List.mem_singleton] at hy
      subst hy
      dsimp only [f] at c2
      rw [hwl] at c2
      exact hwv hk c c1 c2) (fun h => by omega)
    have hvr : ∀ i, i < 2 ^ o.size / 4 → o.d + i ≠ 0 → (writeD r cx o.d [(x.thread, f x.thread)]).vreg cx.u x.thread (o.d + i) = _ := fun i hi h0 =>
      writeD_vreg r cx o.d [x.thread] f hrh (by omega) x.thread (List.mem_singleton.2 rfl) (by rw [hrs.body.len]; exact hlt) i (by dsimp only [f]; rw [hwl]; exact hi) h0
    refine ⟨writeD r cx o.d [(x.thread, f x.thread)], rfl, ⟨hrs.body.trans hbody, hrs.mem, hrs.raw, hrs.contexts, hrs.poison, ?_, fun i hi => ?_⟩, fun _ i hi h0 => ?_⟩
    · unfold writeD
      rw [strand_modStrand_self _ _ _ hrh, if_neg (by omega)]
      exact hrs.ctl
    · unfold writeD
      rw [strand_modStrand_self _ _ _ hrh, if_neg (by omega)]
      have ht := thread_written (r.strand cx.u) o.d [(x.thread, f x.thread)] i
      have hfn : [(x.thread, f x.thread)].find? (fun r => r.1 == i) = none := by
        rw [List.find?_cons]
        rw [show (x.thread == i) = false by simp; exact fun h => hi h.symm]
        rfl
      rw [hfn] at ht
      exact (congrArg Thread.v ht).trans (hrs.others i hi)
    · rw [hvr i hi h0]
theorem atomOperand_v (k : AtomKind) (o : AtomOp) (a b : Thread) (h : a.v = b.v) : atomOperand k o a = atomOperand k o b := by
  unfold atomOperand Thread.readV
  rw [h]

theorem cleanAt_poison {s t : State} (h : t.poison = s.poison) (l n : Nat) : t.cleanAt l n ↔ s.cleanAt l n := by
  unfold State.cleanAt State.poisonedAt
  rw [h]

theorem atomFold (k : AtomKind) (o : AtomOp) (cx : Cx) (w : Touch) (x : Nat → Ea) (loc leaf : Nat → Nat) (new : Nat → Nat → Option Nat) (hxt : ∀ j, (x j).thread = j)
    (hn : 4 ≤ 2 ^ o.size) (hd : k ≠ .red → o.d < 248) (act : List Nat) (hnd : act.Nodup) (s : State) (hh : s.has cx.u) (hr : s.raw = [])
    (hc : ∀ c ∈ s.contexts, c.2.busy = []) (hcl : ∀ j ∈ act, s.cleanAt (loc j) (2 ^ o.size) ∧ ∀ y ∈ unitsOf (loc j) (2 ^ o.size), s.poison.contains y = false)
    (hx : ∀ j ∈ act, (x j).poison = false) (hop : ∀ j ∈ act, (atomOperand k o ((s.strand cx.u).thread j)).2.2.1 = new j ∧ (atomOperand k o ((s.strand cx.u).thread j)).2.2.2 = false)
    (hlt : ∀ j ∈ act, j < (s.strand cx.u).threads.length)
    (hwm : ∀ j ∈ act, ∀ y, 32 * (loc j / 32) ≤ y → y < 32 * ((loc j + 2 ^ o.size + 31) / 32) → w.mem y = true)
    (hwv : k ≠ .red → ∀ j ∈ act, ∀ c, o.d ≤ c → c < o.d + 2 ^ o.size / 4 → w.v j c = true) :
    let r := act.foldl (fun r j => let q := atomLane k o cx (x j) (.hit (.loc (loc j)) (leaf j)) r.1; (q.1, r.2 || q.2)) (s, false)
    let a := atomically (2 ^ o.size) new (act.map fun j => (j, loc j)) s.mem
    r.2 = false ∧ r.1.mem = a.2 ∧ Body w s r.1 cx.u ∧ (∀ i, i ∉ act → ((r.1.strand cx.u).thread i).v = ((s.strand cx.u).thread i).v) ∧
      (k ≠ .red → ∀ e ∈ a.1, ∀ i, i < 2 ^ o.size / 4 → o.d + i ≠ 0 → (r.1.vreg cx.u e.1 (o.d + i)).val = (wordsOfNat (2 ^ o.size / 4) e.2).getD i 0) := by
  induction act generalizing s with
  | nil => exact ⟨rfl, rfl, Body.refl _ _ _, fun _ _ => rfl, fun _ e he => by cases he⟩
  | cons j act ih =>
    rw [List.nodup_cons] at hnd
    have hj := hcl j (List.mem_cons_self ..)
    have hoj := hop j (List.mem_cons_self ..)
    obtain ⟨t, h1, h2, h3⟩ := atomLane_clean k o cx s (x j) (loc j) (leaf j) w hh hr hc hj.1 hj.2 (hx j (List.mem_cons_self ..)) (by rw [hxt]; exact hoj.2) hn hd
      (by rw [hxt]; exact hlt j (List.mem_cons_self ..)) (hwm j (List.mem_cons_self ..)) (fun hk => by rw [hxt]; exact hwv hk j (List.mem_cons_self ..))
    rw [hxt] at h2 h3
    rw [hoj.1] at h2
    have ht : t.has cx.u := h2.body.has hh
    obtain ⟨a1, a2, a3, a4, a5⟩ := ih hnd.2 t ht (h2.raw.trans hr) (by rw [h2.contexts]; exact hc)
      (fun i hi => by rw [cleanAt_poison h2.poison, h2.poison]; exact hcl i (List.mem_cons_of_mem _ hi)) (fun i hi => hx i (List.mem_cons_of_mem _ hi))
      (fun i hi => by rw [atomOperand_v k o _ _ (h2.others i (fun h => hnd.1 (h ▸ hi)))]; exact hop i (List.mem_cons_of_mem _ hi))
      (fun i hi => by rw [h2.body.len]; exact hlt i (List.mem_cons_of_mem _ hi)) (fun i hi => hwm i (List.mem_cons_of_mem _ hi))
      (fun hk i hi => hwv hk i (List.mem_cons_of_mem _ hi))
    dsimp only at a1 a2 a3 a4 a5 ⊢
    rw [List.foldl_cons]
    dsimp only
    rw [h1]
    have hmem : atomically (2 ^ o.size) new ((j :: act).map fun j => (j, loc j)) s.mem =
        ((j, s.readNat (loc j) (2 ^ o.size)) :: (atomically (2 ^ o.size) new (act.map fun j => (j, loc j)) t.mem).1, (atomically (2 ^ o.size) new (act.map fun j => (j, loc j)) t.mem).2) := by
      rw [h2.mem]
      rfl
    rw [hmem]
    refine ⟨a1, a2, h2.body.trans a3, fun i hi => ?_, fun hk e he i hi h0 => ?_⟩
    · rw [List.mem_cons, not_or] at hi
      exact (a4 i hi.2).trans (h2.others i hi.1)
    · rcases List.mem_cons.1 he with rfl | he
      · dsimp only
        rw [← h3 hk i hi h0]
        unfold State.vreg
        rw [if_neg h0, if_neg h0]
        exact congrArg (fun v => (sget {} v (o.d + i)).val) (a4 j hnd.1)
      · exact a5 hk e he i hi h0

/-- A vector operand that is no queue names a register. -/
theorem use_plain (i : Instr) (s : State) (u : Nat) (m : BitVec 32) (h : Ready i s u m) (x : Use) (hx : x ∈ i.uses) (hv : x.sp = .v) (hq : x.q = false) : x.code < 248 := by
  have ha := h.allowed
  unfold checkFault at ha
  have hr : regFault (s.strand u).regs (s.strand u).ctl.qmap i.uses = none := by
    split at ha
    · cases ha
    · split at ha
      · cases ha
      · simpa using ha
  have := (List.findSome?_eq_none_iff.1 hr) x hx
  unfold useFault at this
  rw [hv] at this
  dsimp only at this
  by_contra hc
  rw [if_pos (by omega), hq] at this
  simp at this

/-- Atomics change no byte outside their locations. -/
theorem atomically_else (n : Nat) (new : Nat → Nat → Option Nat) (xs : List (Nat × Nat)) (mem : Memory) (l : Nat) (h : ∀ e ∈ xs, ¬(e.2 ≤ l ∧ l < e.2 + n)) :
    Memory.byte (atomically n new xs mem).2 l = Memory.byte mem l := by
  induction xs generalizing mem with
  | nil => rfl
  | cons e xs ih =>
    obtain ⟨j, a⟩ := e
    have hx := h (j, a) (List.mem_cons_self ..)
    unfold atomically
    dsimp only
    rw [ih _ fun e he => h e (List.mem_cons_of_mem _ he)]
    split
    · rw [byte_write, length_toBytes, if_neg hx]
    · rfl

theorem localOf_hits (act : List Nat) (loc leaf : Nat → Nat) (n : Nat) : localOf (act.map fun j => Fate.hit (.loc (loc j)) (leaf j)) n = act.map fun j => (loc j, n) := by
  unfold localOf
  induction act with
  | nil => rfl
  | cons a act ih => rw [List.map_cons, List.map_cons, List.filterMap_cons, ih]

/-! ### Control registers -/

theorem cset_eq (x : BitVec 64) (lo n v : Nat) :
    x.toNat - fld x.toNat lo n * 2 ^ lo + v % 2 ^ n * 2 ^ lo = 2 ^ lo * (2 ^ n * (x.toNat / 2 ^ lo / 2 ^ n) + v % 2 ^ n) + x.toNat % 2 ^ lo := by
  unfold fld
  have h1 := Nat.div_add_mod x.toNat (2 ^ lo)
  have h2 := Nat.div_add_mod (x.toNat / 2 ^ lo) (2 ^ n)
  generalize x.toNat / 2 ^ lo / 2 ^ n = q at *
  generalize x.toNat / 2 ^ lo % 2 ^ n = f at *
  generalize x.toNat % 2 ^ lo = r at *
  generalize v % 2 ^ n = w at *
  rw [← h2] at h1
  rw [← h1]
  have e1 : 2 ^ lo * (2 ^ n * q + f) = 2 ^ lo * (2 ^ n * q) + f * 2 ^ lo := by ring
  have e2 : 2 ^ lo * (2 ^ n * q + w) = 2 ^ lo * (2 ^ n * q) + w * 2 ^ lo := by ring
  omega

/-- The bits of a register with a field replaced. -/
theorem getLsbD_cset (x : BitVec 64) (lo n v k : Nat) (hk : k < 64) :
    (cset x lo n v).getLsbD k = if lo ≤ k ∧ k < lo + n then v.testBit (k - lo) else x.getLsbD k := by
  unfold cset
  rw [cset_eq, BitVec.getLsbD, BitVec.toNat_ofNat, Nat.testBit_mod_two_pow]
  simp only [hk, decide_true, Bool.true_and]
  rw [Nat.testBit_two_pow_mul_add _ (Nat.mod_lt _ (Nat.pow_pos (by decide)))]
  by_cases h1 : k < lo
  · rw [if_pos h1, if_neg (by omega), Nat.testBit_mod_two_pow]
    simp only [h1, decide_true, Bool.true_and]
    rfl
  · rw [if_neg h1, Nat.testBit_two_pow_mul_add _ (Nat.mod_lt _ (Nat.pow_pos (by decide)))]
    by_cases h2 : k - lo < n
    · rw [if_pos h2, if_pos (by omega), Nat.testBit_mod_two_pow]
      simp [h2]
    · rw [if_neg h2, if_neg (by omega), Nat.testBit_div_two_pow, Nat.testBit_div_two_pow]
      rw [show k - lo - n + n + lo = k by omega]
      rfl

theorem testBit_cfld (x : BitVec 64) (lo n k : Nat) : (cfld x lo n).testBit k = (decide (k < n) && x.getLsbD (lo + k)) := by
  unfold cfld fld
  rw [Nat.testBit_mod_two_pow, Nat.testBit_div_two_pow, Nat.add_comm]
  rfl

theorem getLsbD_keepCode (old new : BitVec 64) (lo n : Nat) (ok : Nat → Bool) (k : Nat) (hk : k < 64) :
    (keepCode old new lo n ok).getLsbD k = if ok (cfld new lo n) = false ∧ lo ≤ k ∧ k < lo + n then old.getLsbD k else new.getLsbD k := by
  unfold keepCode
  by_cases h : ok (cfld new lo n) = true
  · rw [if_pos h, if_neg (by simp [h])]
  · rw [if_neg h, getLsbD_cset _ _ _ _ _ hk]
    by_cases h2 : lo ≤ k ∧ k < lo + n
    · rw [if_pos h2, if_pos ⟨by simpa using h, h2⟩, testBit_cfld]
      rw [show lo + (k - lo) = k by omega]
      simp [show k - lo < n by omega]
    · rw [if_neg h2, if_neg (fun hc => h2 hc.2)]

/-- A write of a control register that changes nothing else that a program sees. -/
theorem ctlPut_body (s : State) (u n : Nat) (f : Ctl → Ctl) (h : s.has u)
    (hf : ∀ r, r < 0x12 → r ≠ 0x0B → r ≠ n → ∀ st : Strand, ctlRead s { st with ctl := f st.ctl } r = ctlRead s st r) :
    Body { ctl := fun r => r == n } s (s.modStrand u fun st => { st with ctl := f st.ctl }) u := by
  have hs := strand_modStrand_self s u (fun st => { st with ctl := f st.ctl }) h
  refine ⟨only_modStrand s u _ _ h ⟨fun r hr h0 hw => ?_, fun _ => ⟨rfl, rfl, rfl⟩, fun _ _ _ => rfl, fun _ _ => rfl, fun _ _ => rfl, fun _ _ _ _ => rfl,
    fun _ _ _ => rfl, fun _ => ⟨rfl, fun _ => ⟨rfl, fun he => ⟨he, rfl⟩⟩⟩⟩, ?_, ?_, fun _ => (has_modStrand _ _ _ _).2 h, ?_⟩
  · exact hf r hr h0 (by simpa using hw) (s.strand u)
  · rw [hs]; exact fun _ => rfl
  · rw [hs]
  · rw [hs]; exact ⟨rfl, rfl, fun _ => rfl⟩

theorem complete_creg_plain (s : State) (cx : Cx) (us : List Use) (h : s.has cx.u) (hb : cx.site.boundary = false) (n : Nat) (hn : n < 0x12) (h0 : n ≠ 0x0B) :
    (complete s cx us false 0).creg cx.u n = s.creg cx.u n :=
  (complete_only s cx us false 0 { q := fun _ => true } h (fun _ _ => rfl) fun hc => by rw [hb] at hc; cases hc).cregs n hn h0 rfl

theorem completes_creg (i : Instr) (s : State) (u : Nat) (m : BitVec 32) (n : Nat) (body : Cx → State → Eff) (f : Ctl → Ctl) (h : Ready i s u m)
    (hx : exec i s = issue i s body) (ha : acting i s u m ≠ []) (hnb : isBoundary i.op i.uses = false)
    (hb : body (contextOf i s u m) s = .ok (s.modStrand u fun st => { st with ctl := f st.ctl }))
    (hf : ∀ r, r < 0x12 → r ≠ 0x0B → r ≠ n → ∀ st : Strand, ctlRead s { st with ctl := f st.ctl } r = ctlRead s st r)
    (P : State → Prop) (hP : ∀ t : State, (∀ r, r < 0x12 → r ≠ 0x0B → t.creg u r = ctlRead s { s.strand u with ctl := f (s.strand u).ctl } r) → P t) :
    Completes i s u m { ctl := fun r => r == n } P := by
  have hs := issuing_has s u m h.atIssue
  have hee := startOf_entered i s u m hnb
  refine completes_of i s u m _ _ body _ h hx (fun _ => by rw [hee]; exact hb) (fun _ => by rw [hee]; exact ctlPut_body s u n f hs hf) fun t0 ht0 hh => hP _ fun r hr h0 => ?_
  rw [if_neg ha] at ht0
  have := complete_creg_plain t0 (contextOf i s u m) i.uses hh hnb r hr h0
  rw [contextOf_u] at this
  rw [this, ht0]
  unfold State.creg
  rw [strand_modStrand_self _ _ _ hs]
  interval_cases r <;> first | rfl | contradiction
theorem ctlWritable_bits : ∀ n ∈ [0, 1, 2, 3, 5, 6, 7, 0x40, 0x41, 0x43, 0x44], ∀ k < 64, (ctlWritable n).getLsbD k = match n with
    | 0x00 => decide (k < 15)
    | 0x01 => decide (k < 8)
    | 0x02 => decide (8 ≤ k ∧ k < 17)
    | 0x03 => decide (k < 4 ∨ (16 ≤ k ∧ k < 32))
    | 0x05 => true
    | 0x06 => true
    | 0x07 => decide (2 ≤ k ∧ k < 56)
    | 0x40 => decide (k < 4)
    | 0x41 => decide (12 ≤ k ∧ k < 56)
    | 0x43 => decide (6 ≤ k ∧ k < 56)
    | 0x44 => decide (k < 48)
    | _ => false := by decide +kernel

theorem ctlWritable_none (n : Nat) (h : n ∉ [0, 1, 2, 3, 4, 5, 6, 7, 0x0A, 0x0E, 0x40, 0x41, 0x43, 0x44]) : ctlWritable n = 0 := by
  simp only [List.mem_cons, List.not_mem_nil, or_false, not_or] at h
  obtain ⟨h0, h1, h2, h3, h4, h5, h6, h7, h8, h9, ha, hb, hc, hd⟩ := h
  unfold ctlWritable
  split <;> first | rfl | contradiction

/-- A masked merge by its bits. -/
theorem getLsbD_merge (old src m : BitVec 64) (k : Nat) : ((old &&& ~~~m) ||| (src &&& m)).getLsbD k = if m.getLsbD k then src.getLsbD k else old.getLsbD k := by
  by_cases hk : k < 64
  · simp only [BitVec.getLsbD_or, BitVec.getLsbD_and, BitVec.getLsbD_not, hk, decide_true, Bool.true_and]
    cases m.getLsbD k <;> simp
  · simp [BitVec.getLsbD_of_ge, Nat.le_of_not_lt hk]

/-- A field is the same in two words whose bits agree there. -/
theorem cfld_congr (x y : BitVec 64) (lo n : Nat) (h : ∀ k, lo ≤ k → k < lo + n → x.getLsbD k = y.getLsbD k) : cfld x lo n = cfld y lo n := by
  refine Nat.eq_of_testBit_eq fun k => ?_
  rw [testBit_cfld, testBit_cfld]
  by_cases hk : k < n
  · rw [h (lo + k) (by omega) (by omega)]
  · simp [hk]

/-- The bits of a register after a SETC, apart from fields with undefined codes. -/
theorem getLsbD_masked (n : Nat) (old src mask : BitVec 64) (k : Nat) :
    ((old &&& ~~~(mask &&& ctlWritable n)) ||| (src &&& (mask &&& ctlWritable n))).getLsbD k =
      if (ctlWritable n).getLsbD k then ((old &&& ~~~mask) ||| (src &&& mask)).getLsbD k else old.getLsbD k := by
  rw [getLsbD_merge, getLsbD_merge, BitVec.getLsbD_and]
  cases mask.getLsbD k <;> cases (ctlWritable n).getLsbD k <;> rfl
/-- A SETC by bits. -/
theorem ctlMerge_bits (n : Nat) (old src mask : BitVec 64) :
  let merged := (old &&& ~~~mask) ||| (src &&& mask)
  let writable (k : Nat) : Bool :=
    match n with
    | 0x00 => decide (k < 15)
    | 0x01 => decide (k < 8)
    | 0x02 => decide (8 ≤ k ∧ k < 17)
    | 0x03 => decide (k < 4 ∨ (16 ≤ k ∧ k < 32))
    | 0x05 => true
    | 0x06 => true
    | 0x07 => decide (2 ≤ k ∧ k < 56)
    | 0x40 => decide (k < 4)
    | 0x41 => decide (12 ≤ k ∧ k < 56)
    | 0x43 => decide (6 ≤ k ∧ k < 56)
    | 0x44 => decide (k < 48)
    | _ => false
  let undefined (k : Nat) : Bool :=
    (n == 0 && decide (k < 3) && [0, 7].contains (merged.toNat % 8)) ||
      (n == 1 && decide (1 ≤ k ∧ k < 4) && [0, 6, 7].contains (merged.toNat / 2 % 8))
  n ≠ 4 → n ≠ 0x0A → n ≠ 0x0E → ∀ k, k < 64 → (ctlMerge n old src mask).getLsbD k = if writable k && !undefined k then merged.getLsbD k else old.getLsbD k := by
  intro merged writable undefined h1 h2 h3 k hk
  have hg : ∀ k, ((old &&& ~~~(mask &&& ctlWritable n)) ||| (src &&& (mask &&& ctlWritable n))).getLsbD k =
      if (ctlWritable n).getLsbD k then merged.getLsbD k else old.getLsbD k := getLsbD_masked n old src mask
  by_cases hn : n ∈ [0, 1, 2, 3, 5, 6, 7, 0x40, 0x41, 0x43, 0x44]
  · have hw := fun k => ctlWritable_bits n hn k
    have code (lo : Nat) (hlo : lo + 3 ≤ 8) (hc : ∀ k, lo ≤ k → k < lo + 3 → (ctlWritable n).getLsbD k = true) :
        cfld ((old &&& ~~~(mask &&& ctlWritable n)) ||| (src &&& (mask &&& ctlWritable n))) lo 3 = merged.toNat / 2 ^ lo % 8 := by
      refine (cfld_congr _ merged lo 3 fun k a b => ?_).trans rfl
      rw [hg, if_pos (hc k a b)]
    simp only [List.mem_cons, List.not_mem_nil, or_false] at hn
    rcases hn with rfl | rfl | hn
    · have hc := code 0 (by omega) (by decide)
      show (keepCode old _ 0 3 _).getLsbD k = _
      rw [getLsbD_keepCode _ _ _ _ _ _ hk, hc, hg, hw k hk]
      have : merged.toNat / 2 ^ 0 % 8 < 8 := Nat.mod_lt _ (by decide)
      simp only [undefined, writable, Nat.pow_zero, Nat.div_one] at *
      generalize merged.toNat % 8 = c at *
      by_cases h : k < 3
      · simp only [show k < 15 by omega, h]
        interval_cases c <;> simp
      · simp [h]
    · have hc := code 1 (by omega) (by decide)
      show (keepCode old _ 1 3 _).getLsbD k = _
      rw [getLsbD_keepCode _ _ _ _ _ _ hk, hc, hg, hw k hk]
      have : merged.toNat / 2 ^ 1 % 8 < 8 := Nat.mod_lt _ (by decide)
      simp only [undefined, writable, Nat.pow_one] at *
      generalize merged.toNat / 2 % 8 = c at *
      by_cases h : 1 ≤ k ∧ k < 4
      · simp only [show k < 8 by omega, h]
        interval_cases c <;> simp
      · simp [h]
    · have : ctlMerge n old src mask = (old &&& ~~~(mask &&& ctlWritable n)) ||| (src &&& (mask &&& ctlWritable n)) := by
        rcases hn with rfl | rfl | rfl | rfl | rfl | rfl | rfl | rfl | rfl <;> rfl
      rw [this, hg, hw k hk]
      have hu : undefined k = false := by rcases hn with rfl | rfl | rfl | rfl | rfl | rfl | rfl | rfl | rfl <;> rfl
      rw [hu]
      rcases hn with rfl | rfl | rfl | rfl | rfl | rfl | rfl | rfl | rfl <;> simp [writable]
  · have hz : ctlWritable n = 0 := ctlWritable_none n (by simp only [List.mem_cons, List.not_mem_nil, or_false, not_or] at hn ⊢; simp [h1, h2, h3, hn])
    simp only [List.mem_cons, List.not_mem_nil, or_false, not_or] at hn
    obtain ⟨a0, a1, a2, a3, a5, a6, a7, a8, a9, aa, ab⟩ := hn
    have : ctlMerge n old src mask = (old &&& ~~~(mask &&& ctlWritable n)) ||| (src &&& (mask &&& ctlWritable n)) := by
      unfold ctlMerge
      split <;> first | rfl | contradiction
    rw [this, hg, hz]
    have hw : writable k = false := by dsimp only [writable]; split <;> first | rfl | contradiction
    rw [hw]
    simp

theorem setc_plain_read (r n : Nat) (x : BitVec 64) (h : r ≠ n) (s : State) (st : Strand) (h1 : r < 0x12) (h2 : r ≠ 0x0B) :
    ctlRead s { st with ctl := ctlPut st.ctl n x } r = ctlRead s st r := by
  unfold ctlPut
  split <;> first | rfl | (interval_cases r <;> first | rfl | contradiction)

theorem setc_same_read (n : Nat) (x : BitVec 64) (s : State) (st : Strand) (h : n < 0x40) (h1 : n ∉ [4, 0x0A, 0x0E, 0x0B]) :
    ctlRead s { st with ctl := ctlPut st.ctl n x } n = if n ∈ [0, 1, 2, 3, 5, 6, 7] then x else ctlRead s st n := by
  interval_cases n <;> first | rfl | exact absurd (by decide) h1

theorem ctlRead_plain_above (n : Nat) (h : 0x12 ≤ n) (h2 : n < 0x40) (s : State) (st : Strand) : ctlRead s st n = 0 := by
  interval_cases n <;> rfl

theorem scrubOf_cores (s t : State) (c : Nat) (h : t.cores = s.cores) : scrubOf t c = scrubOf s c := by
  unfold scrubOf State.core
  rw [h]

theorem ctlRead_system (s t : State) (a b : Strand) (n : Nat) (h : 0x40 ≤ n) (h4 : n ∉ [0x40, 0x41, 0x43, 0x44]) (hl : t.ctxOf b = s.ctxOf a) (hc : t.cores = s.cores) (hcore : b.core = a.core) :
    ctlRead t b n = ctlRead s a n := by
  simp only [List.mem_cons, List.not_mem_nil, or_false, not_or] at h4
  by_cases h1 : n = 0x42
  · subst h1
    show BitVec.ofNat 64 (t.ctxOf b % 2 ^ 16) = BitVec.ofNat 64 (s.ctxOf a % 2 ^ 16)
    rw [hl]
  · by_cases h2 : n = 0x45
    · subst h2
      show scrubOf t b.core = scrubOf s a.core
      rw [hcore, scrubOf_cores _ _ _ hc]
    · obtain ⟨x, y, z, w⟩ := h4
      have : ∀ (s : State) (st : Strand), ctlRead s st n = 0 := by
        intro s st
        unfold ctlRead
        split <;> first | rfl | (exfalso; omega)
      rw [this, this]

theorem context_mod (s : State) (c : Nat) (f : Context → Context) (h : (sfind s.contexts c).isSome) (x : Nat) :
    (s.modContext c f).context x = if x = c then f (s.context c) else s.context x := by
  unfold State.context State.modContext
  rw [sget_smod]
  simp [h]

/-- A field put at its place, by bits. -/
theorem bit_placed (v lo n k : Nat) (h : lo + n ≤ 64) : (BitVec.ofNat 64 (v % 2 ^ n * 2 ^ lo)).getLsbD k = (decide (lo ≤ k ∧ k < lo + n) && v.testBit (k - lo)) := by
  rw [BitVec.getLsbD, BitVec.toNat_ofNat, Nat.testBit_mod_two_pow, Nat.testBit_mul_two_pow, Nat.testBit_mod_two_pow]
  by_cases h1 : lo ≤ k <;> by_cases h2 : k < lo + n
  · simp [h1, h2, show k < 64 by omega, show k - lo < n by omega]
  · simp [h1, h2, show ¬k - lo < n by omega]
  · simp [h1]
  · simp [h1]

theorem bit_field (x : BitVec 64) (lo n k : Nat) (h : lo + n ≤ 64) : (BitVec.ofNat 64 (cfld x lo n % 2 ^ n * 2 ^ lo)).getLsbD k = (decide (lo ≤ k ∧ k < lo + n) && x.getLsbD k) := by
  rw [bit_placed _ _ _ _ h, testBit_cfld]
  by_cases h1 : lo ≤ k ∧ k < lo + n
  · simp [h1, show k - lo < n by omega, show lo + (k - lo) = k by omega]
  · simp [h1]


theorem nodup_map_range (f : Nat → Nat) (n : Nat) : ((List.range n).map f).dedup.length = n ↔ ∀ a b, a < b → b < n → f a ≠ f b := by
  have h1 : ((List.range n).map f).dedup.length = n ↔ ((List.range n).map f).Nodup := by
    constructor
    · intro h
      have : ((List.range n).map f).dedup = (List.range n).map f := by
        refine (List.dedup_sublist _).eq_of_length ?_
        rw [h]; simp
      exact List.dedup_eq_self.1 this
    · intro h
      rw [List.dedup_eq_self.2 h]; simp
  rw [h1, List.nodup_map_iff_inj_on List.nodup_range]
  constructor
  · intro h a b hab hb he
    exact absurd (h a (List.mem_range.2 (by omega)) b (List.mem_range.2 hb) he) (by omega)
  · intro h a ha b hb he
    rw [List.mem_range] at ha hb
    rcases Nat.lt_trichotomy a b with hl | hl | hl
    · exact absurd he (h a b hl hb)
    · exact hl
    · exact absurd he.symm (h b a hl ha)

theorem crewOk_iff (own : Nat) (x : BitVec 64) :
    let member (j : Nat) : Nat := x.toNat / 2 ^ (10 + 9 * j) % 2 ^ 9
    let count := x.toNat % 8
    crewOk own x = true ↔ (count = 0 ∨ (2 ≤ count ∧ count ≤ 6 ∧ count = x.toNat / 8 % 4 * (x.toNat / 32 % 2 + 1) ∧ x.toNat / 64 % 8 < count ∧
          member (x.toNat / 64 % 8) = own ∧
          (∀ a b, a < b → b < count → member a / 64 ≠ member b / 64) ∧ x.toNat / 2 ^ (10 + 9 * count) = 0)) := by
  intro member count
  have e0 : cfld x 0 3 = count := by simp [cfld, fld, count]
  have e1 : cfld x 3 2 = x.toNat / 8 % 4 := rfl
  have e2 : cfld x 5 1 = x.toNat / 32 % 2 := rfl
  have e3 : cfld x 6 3 = x.toNat / 64 % 8 := rfl
  unfold crewOk
  simp only [e0, e1, e2, e3]
  simp only [Bool.or_eq_true, Bool.and_eq_true, beq_iff_eq, decide_eq_true_eq]
  rw [nodup_map_range]
  simp only [and_assoc]
  rfl

theorem crew_value (old src mask : BitVec 64) : ctlMerge 4 old src mask =
    ((old &&& ~~~mask) ||| (src &&& mask)) &&& ~~~(0x200 : BitVec 64) ||| (old &&& 0x200) := by
  refine BitVec.eq_of_getLsbD_eq fun k hk => ?_
  refine (getLsbD_masked 4 old src mask k).trans ?_
  have hw : (ctlWritable 4).getLsbD k = !(0x200 : BitVec 64).getLsbD k := by
    have : ∀ k < 64, (ctlWritable 4).getLsbD k = !(0x200 : BitVec 64).getLsbD k := by decide +kernel
    exact this k hk
  rw [hw]
  have hm := getLsbD_merge old src mask k
  generalize (old &&& ~~~mask) ||| (src &&& mask) = x at *
  simp only [BitVec.getLsbD_or, BitVec.getLsbD_and, BitVec.getLsbD_not, hk, decide_true, Bool.true_and]
  cases (0x200 : BitVec 64).getLsbD k <;> simp

theorem qmap_value (old src mask : BitVec 64) : ctlMerge 0x0A old src mask =
    (((old &&& ~~~mask) ||| (src &&& mask)).setWidth 32).setWidth 64 ||| (old >>> 32 <<< 32) := by
  refine BitVec.eq_of_getLsbD_eq fun k hk => ?_
  refine (getLsbD_masked 0x0A old src mask k).trans ?_
  have hw : (ctlWritable 0x0A).getLsbD k = decide (k < 32) := by
    have : ∀ k < 64, (ctlWritable 0x0A).getLsbD k = decide (k < 32) := by decide +kernel
    exact this k hk
  rw [hw]
  generalize (old &&& ~~~mask) ||| (src &&& mask) = x at *
  simp only [BitVec.getLsbD_or, BitVec.getLsbD_setWidth, BitVec.getLsbD_shiftLeft, BitVec.getLsbD_ushiftRight, hk, decide_true, Bool.true_and]
  by_cases h : k < 32
  · simp [h]
  · simp [h, show 32 + (k - 32) = k by omega]

theorem qmapOk_iff (s : State) (u : Nat) (x : BitVec 64) : qmapOk (s.strand u) x = true ↔
    ∀ j, j < 8 → x.toNat / 2 ^ (4 * j) % 16 < 6 ∧
        (x.toNat / 2 ^ (4 * j) % 16 = (s.creg u 0x0A).toNat / 2 ^ (4 * j) % 16 ∨ s.queue u j = []) := by
  unfold qmapOk
  rw [List.all_eq_true]
  simp only [List.mem_range, Bool.or_eq_true, Bool.and_eq_true, beq_iff_eq, decide_eq_true_eq, List.isEmpty_iff]
  rfl

theorem stfq_value (old src mask : BitVec 64) (a : Nat) :
    let merged := (old &&& ~~~mask) ||| (src &&& mask)
    let count (x : BitVec 64) : Nat := x.toNat / 16 % 32
    (∀ k, k < 64 → ¬(4 ≤ k ∧ k < 9) → (stfqMerge old src mask a).getLsbD k = if k < 10 then merged.getLsbD k else old.getLsbD k) ∧
      count (stfqMerge old src mask a) = if 16 < count merged then count old else if count mask = 0 then count merged else min 16 (count merged + a) := by
  intro merged count
  have hw : ∀ k < 64, (ctlWritable 0x0E).getLsbD k = decide (k < 10) := by decide +kernel
  have hg : ∀ k, k < 64 → ((old &&& ~~~(mask &&& ctlWritable 0x0E)) ||| (src &&& (mask &&& ctlWritable 0x0E))).getLsbD k = if k < 10 then merged.getLsbD k else old.getLsbD k := by
    intro k hk
    rw [getLsbD_masked, hw k hk]
    simp [merged]
  let new := (old &&& ~~~(mask &&& ctlWritable 0x0E)) ||| (src &&& (mask &&& ctlWritable 0x0E))
  have hc : cfld new 4 5 = count merged := (cfld_congr new merged 4 5 fun k a b => by rw [hg k (by omega), if_pos (by omega)]).trans rfl
  have hx : ∀ k, k < 64 → (ctlMerge 0x0E old src mask).getLsbD k = if (decide (cfld new 4 5 ≤ 16)) = false ∧ 4 ≤ k ∧ k < 9 then old.getLsbD k else new.getLsbD k :=
    fun k hk => getLsbD_keepCode old new 4 5 _ k hk
  have hcx : cfld (ctlMerge 0x0E old src mask) 4 5 = if 16 < count merged then cfld old 4 5 else count merged := by
    by_cases h : 16 < count merged
    · rw [if_pos h]
      exact cfld_congr _ _ 4 5 fun k a b => by rw [hx k (by omega), if_pos ⟨by rw [hc]; simpa using h, a, b⟩]
    · rw [if_neg h, ← hc]
      exact cfld_congr _ _ 4 5 fun k a b => by rw [hx k (by omega), if_neg (fun hn => by rw [hc] at hn; simp at hn; omega)]
  have hy : ∀ k, k < 64 → (stfqMerge old src mask a).getLsbD k =
      if (cfld mask 4 5 ≠ 0 ∧ count merged ≤ 16) ∧ 4 ≤ k ∧ k < 9 then (min 16 (count merged + a)).testBit (k - 4) else (ctlMerge 0x0E old src mask).getLsbD k := by
    intro k hk
    unfold stfqMerge
    dsimp only
    change (if cfld mask 4 5 ≠ 0 ∧ count merged ≤ 16 then cset (ctlMerge 14 old src mask) 4 5 (min 16 (count merged + a)) else ctlMerge 14 old src mask).getLsbD k = _
    by_cases h : cfld mask 4 5 ≠ 0 ∧ count merged ≤ 16
    · rw [if_pos h, getLsbD_cset _ _ _ _ _ hk]
      by_cases h2 : 4 ≤ k ∧ k < 4 + 5
      · rw [if_pos h2, if_pos ⟨h, h2⟩]
      · rw [if_neg h2, if_neg (fun hh => h2 hh.2)]
    · rw [if_neg h, if_neg (fun hh => h hh.1)]
  refine ⟨fun k hk hr => ?_, ?_⟩
  · rw [hy k hk, if_neg (fun hh => hr hh.2), hx k hk, if_neg (fun hh => hr hh.2)]
    exact hg k hk
  · show cfld (stfqMerge old src mask a) 4 5 = _
    by_cases h : cfld mask 4 5 ≠ 0 ∧ count merged ≤ 16
    · rw [if_neg (show ¬16 < count merged by omega), if_neg (show ¬count mask = 0 from h.1)]
      refine Nat.eq_of_testBit_eq fun k => ?_
      rw [testBit_cfld]
      by_cases hk : k < 5
      · rw [hy _ (by omega), if_pos ⟨h, by omega, by omega⟩, show 4 + k - 4 = k by omega]
        simp [hk]
      · have : min 16 (count merged + a) < 2 ^ k := lt_of_lt_of_le (show _ < 2 ^ 5 by omega) (Nat.pow_le_pow_right (by decide) (by omega))
        rw [Nat.testBit_lt_two_pow this]
        simp [hk]
    · have hm : cfld (stfqMerge old src mask a) 4 5 = cfld (ctlMerge 0x0E old src mask) 4 5 := cfld_congr _ _ 4 5 fun k a b => by rw [hy k (by omega), if_neg (fun hh => h hh.1)]
      rw [hm, hcx]
      by_cases h2 : 16 < count merged
      · rw [if_pos h2, if_pos h2]; rfl
      · rw [if_neg h2, if_neg h2]
        have : count mask = 0 := by
          by_contra hne
          exact h ⟨hne, by omega⟩
        rw [if_pos this]


theorem setc_uses (o : SetcOp) (i : Instr) (hi : i = .setc o ∨ i = .setcCrew o ∨ i = .setcQmap o ∨ i = .setcStfq o) : ∀ x ∈ i.uses, x.q = false := by
  have : i.uses = [useN .s o.b 2 true false 2] ++ (if bit o.m % 2 = 1 then [useN .s o.c 2 true false 3] else []) := by
    rcases hi with rfl | rfl | rfl | rfl <;> rfl
  rw [this]
  intro x hx
  split at hx <;> simp only [List.cons_append, List.nil_append, List.append_nil, List.mem_cons, List.not_mem_nil, or_false] at hx
  · rcases hx with rfl | rfl <;> rfl
  · rw [hx]; rfl

theorem setcArgs_clean (st : Strand) (o : SetcOp) (h : st.clean = true) :
    setcArgs st o = ((st.readS o.b 2).d, if o.m then (st.readS o.c 2).d else BitVec.allOnes 64, false) := by
  unfold setcArgs
  dsimp only
  rw [readS_clean _ h, readS_clean _ h]
  simp

/-! ### Waiting -/

theorem park_only (s : State) (u : Nat) (m : BitVec 32) (w : Wait) (x : Touch) (h : s.has u) : Only x s (park s u m w) u := by
  unfold park
  dsimp only
  refine Only.trans (only_of (beside_modStrand s u _) ?_ fun n hn h0 _ => ?_) (only_of (beside_cur _ u _) (Agree.refl _) fun _ _ _ _ => rfl)
  · rw [strand_modStrand_self _ _ _ h]
    exact agree_modThreads _ _ _ (fun _ => rfl) (fun _ => rfl) (fun _ => rfl) (fun _ => rfl) (fun _ _ hx => ⟨hx, rfl⟩)
  · unfold State.creg
    rw [strand_modStrand_self _ _ _ h]
    interval_cases n <;> first | rfl | contradiction

theorem park_thread (s : State) (u : Nat) (m : BitVec 32) (w : Wait) (h : s.has u) (j : Nat) :
    (((park s u m w).strand u).thread j).pc = ((s.strand u).thread j).pc ∧
      (m.getLsbD j = true → j < (s.strand u).threads.length → (((park s u m w).strand u).thread j).wait = w) := by
  have hs : (park s u m w).strand u = (s.strand u).modThreads m fun t => { t with wait := w, since := (s.dies.getD (dieOfCore (s.strand u).core) {}).cycle } :=
    strand_modStrand_self s u (fun st => st.modThreads m fun t => { t with wait := w, since := (s.dies.getD (dieOfCore (s.strand u).core) {}).cycle }) h
  rw [hs, thread_modThreads]
  refine ⟨by split <;> rfl, fun hm hj => ?_⟩
  rw [if_pos ⟨hj, hm⟩]

/-- An instruction whose meaning waits. -/
theorem waits_of (i : Instr) (s : State) (u : Nat) (m : BitVec 32) (body : Cx → State → Eff) (w : Wait) (base t1 : State) (h : Ready i s u m)
    (hx : exec i s = issue i s body) (ha : acting i s u m ≠ []) (hb : body (contextOf i s u m) (entered i s u m) = .wait w t1)
    (hO : Only (Touch.of {} i) base t1 u) (hh : t1.has u) (hp : ∀ j, ((t1.strand u).thread j).pc = ((s.strand u).thread j).pc)
    (hl : (t1.strand u).threads.length = (s.strand u).threads.length) : WaitsFor base i s u m w := by
  have hem : (acting i s u m).isEmpty = false := by simpa using ha
  refine ⟨park t1 u m w, ?_, hO.trans (park_only t1 u m w _ hh), fun j hj => ⟨(park_thread t1 u m w hh j).1.trans (hp j), fun hm => (park_thread t1 u m w hh j).2 hm (by rw [hl]; exact hj)⟩⟩
  rw [hx, issue_ready i s u m body h, hb, hem]
  rfl

theorem waits_entered (i : Instr) (s : State) (u : Nat) (m : BitVec 32) (body : Cx → State → Eff) (w : Wait) (h : Ready i s u m)
    (hx : exec i s = issue i s body) (ha : acting i s u m ≠ []) (hb : body (contextOf i s u m) (entered i s u m) = .wait w (entered i s u m)) :
    WaitsFor (entered i s u m) i s u m w :=
  waits_of i s u m body w _ _ h hx ha hb (Only.refl _ _ _) h.has h.quiet.stay h.agree.len

/-! ### Fields of a number, and barrier objects -/

theorem fld_testBit (x lo n k : Nat) : (fld x lo n).testBit k = (decide (k < n) && x.testBit (lo + k)) := by
  unfold fld
  rw [Nat.testBit_mod_two_pow, Nat.testBit_div_two_pow, Nat.add_comm]

theorem setFld_testBit (x lo n v k : Nat) : (setFld x lo n v).testBit k = if lo ≤ k ∧ k < lo + n then v.testBit (k - lo) else x.testBit k := by
  have he : setFld x lo n v = 2 ^ lo * (2 ^ n * (x / 2 ^ lo / 2 ^ n) + v % 2 ^ n) + x % 2 ^ lo := by
    unfold setFld fld
    have h1 := Nat.div_add_mod x (2 ^ lo)
    have h2 := Nat.div_add_mod (x / 2 ^ lo) (2 ^ n)
    generalize x / 2 ^ lo / 2 ^ n = q at *
    generalize x / 2 ^ lo % 2 ^ n = f at *
    generalize x % 2 ^ lo = r at *
    generalize v % 2 ^ n = w at *
    rw [← h2] at h1
    rw [← h1]
    have e1 : 2 ^ lo * (2 ^ n * q + f) = 2 ^ lo * (2 ^ n * q) + f * 2 ^ lo := by ring
    have e2 : 2 ^ lo * (2 ^ n * q + w) = 2 ^ lo * (2 ^ n * q) + w * 2 ^ lo := by ring
    omega
  rw [he, Nat.testBit_two_pow_mul_add _ (Nat.mod_lt _ (Nat.pow_pos (by decide)))]
  by_cases h1 : k < lo
  · rw [if_pos h1, if_neg (by omega), Nat.testBit_mod_two_pow]
    simp [h1]
  · rw [if_neg h1, Nat.testBit_two_pow_mul_add _ (Nat.mod_lt _ (Nat.pow_pos (by decide)))]
    by_cases h2 : k - lo < n
    · rw [if_pos h2, if_pos (by omega), Nat.testBit_mod_two_pow]
      simp [h2]
    · rw [if_neg h2, if_neg (by omega), Nat.testBit_div_two_pow, Nat.testBit_div_two_pow]
      rw [show k - lo - n + n + lo = k by omega]

theorem fld_setFld_self (x lo n v : Nat) : fld (setFld x lo n v) lo n = v % 2 ^ n := by
  refine Nat.eq_of_testBit_eq fun k => ?_
  rw [fld_testBit, setFld_testBit, Nat.testBit_mod_two_pow]
  by_cases h : k < n
  · rw [if_pos (by omega), show lo + k - lo = k by omega]
  · simp [h]

theorem fld_setFld_ne (x lo n v a b : Nat) (h : a + b ≤ lo ∨ lo + n ≤ a) : fld (setFld x lo n v) a b = fld x a b := by
  refine Nat.eq_of_testBit_eq fun k => ?_
  rw [fld_testBit, fld_testBit, setFld_testBit]
  by_cases hk : k < b
  · rw [if_neg (by omega)]
  · simp [hk]

theorem fld_mod (x a b n : Nat) (h : a + b ≤ n) : fld (x % 2 ^ n) a b = fld x a b := by
  refine Nat.eq_of_testBit_eq fun k => ?_
  rw [fld_testBit, fld_testBit, Nat.testBit_mod_two_pow]
  by_cases hk : k < b
  · simp [show a + k < n by omega]
  · simp [hk]

theorem read_write_same (m : Memory) (l : Nat) (bs : List Byte) : Memory.read (Memory.write m l bs) l bs.length = bs := by
  rw [read_eq]
  refine List.ext_getElem (by simp) fun i h1 h2 => ?_
  simp only [List.length_map, List.length_range] at h1
  rw [List.getElem_map, List.getElem_range, byte_write]
  rw [if_pos (by omega)]
  simp [show l + i - l = i by omega, List.getD_eq_getElem?_getD, h2]

theorem readNat_written (s t : State) (l n x : Nat) (h : t.mem = Memory.write s.mem l (toBytes n x)) : t.readNat l n = x % 256 ^ n := by
  unfold State.readNat State.read
  rw [h]
  have := read_write_same s.mem l (toBytes n x)
  rw [length_toBytes] at this
  rw [this, ofBytes_toBytes]

theorem barWrite_clean (s : State) (u l leaf x : Nat) (h : Writable s u [0] 16 (fun _ => l) (fun _ => leaf)) :
    barWrite s l x = { s with mem := Memory.write s.mem l (toBytes 16 x) } := by
  obtain ⟨h1, h2, h3, -, -⟩ := h
  have hs : s.settleStore [(l, toBytes 16 x, 0)] = s := by unfold State.settleStore; simp [h1]
  unfold barWrite performUntagged
  rw [hs]
  obtain ⟨tags, e1, -⟩ := store_clean s l (toBytes 16 x) 0 (by rw [length_toBytes]; exact (h2 0 (by simp)).2)
  dsimp only
  rw [e1]
  exact noteSlots_idle { s with mem := Memory.write s.mem l (toBytes 16 x) } _ h3

theorem hostFree_clean (s : State) (u l leaf n : Nat) (k : State → Eff) (h : Writable s u [0] n (fun _ => l) (fun _ => leaf)) : hostFree s [(l, n)] k = k s := by
  obtain ⟨-, -, -, h4, -⟩ := h
  unfold hostFree
  simp only [List.map_cons, List.map_nil] at h4 ⊢
  rw [h4]

theorem body_mem (s : State) (u l n x : Nat) (w : Touch) (hw : ∀ a, l ≤ a → a < l + n → w.mem a = true) :
    Body w s { s with mem := Memory.write s.mem l (toBytes n x) } u := by
  refine ⟨⟨fun a ha => ?_, fun _ _ => rfl, fun _ _ => rfl, fun _ _ => rfl, fun _ _ _ => rfl, fun _ _ _ => rfl, fun _ _ => rfl, fun _ _ => rfl, fun r hr h0 _ => ?_,
    fun _ _ => rfl, fun _ => ⟨rfl, rfl, rfl⟩, fun _ => rfl, fun _ => ⟨fun _ => rfl, fun _ hx => ⟨hx, rfl⟩, rfl⟩⟩, fun _ => rfl, rfl, id, rfl, rfl, fun _ => rfl⟩
  · show Memory.byte (Memory.write s.mem l (toBytes n x)) a = Memory.byte s.mem a
    rw [byte_write, if_neg]
    rw [length_toBytes]
    rintro ⟨h1, h2⟩
    rw [hw a h1 h2] at ha
    cases ha
  · interval_cases r <;> first | rfl | contradiction

/-- A barrier instruction finds its object. -/
theorem object_found (i : Instr) (k : Access) (s : State) (u : Nat) (m : BitVec 32) (b : Nat) (disp : BitVec 16) (base : State) (l leaf : Nat) (body : Ea → Fate → State → Eff)
    (h : Ready i s u m) (hr : Reaches i s u m k 16 b disp base l leaf) :
    barObject k b disp (contextOf i s u m) (entered i s u m) body = body (targetOf s u m b disp) (.hit (.loc l) leaf) base := by
  obtain ⟨⟨h1, h2, h3⟩, -, -, hcl⟩ := hr
  have hx : (Ea.mk (((entered i s u m).strand u).lowest m) 0 (addrOf ((((entered i s u m).strand u).readS b 2)).d 0 0 disp) (((entered i s u m).strand u).readS b 2).tag 0 (((entered i s u m).strand u).readS b 2).poison) = targetOf s u m b disp := by
    rw [h.agree.readS, h.agree.lowest]
    rfl
  unfold barObject
  dsimp only
  rw [contextOf_u, show (contextOf i s u m).mask = m from rfl, hx]
  refine (withAddrs_good _ _ _ _ _ h1).trans ?_
  rw [h3]
  dsimp only
  refine (withHits_all [targetOf s u m b disp] (fun _ => l) (fun _ => leaf) 2 base _ _).trans ?_
  rw [h2]
  rfl

theorem Reaches.base {i : Instr} {s : State} {u : Nat} {m : BitVec 32} {k : Access} {n b : Nat} {disp : BitVec 16} {base : State} {l leaf : Nat}
    (h : Ready i s u m) (hr : Reaches i s u m k n b disp base l leaf) : base.strand u = (entered i s u m).strand u ∧ base.has u := by
  obtain ⟨mem, cores, hb⟩ := hr.1.near
  refine ⟨by rw [hb]; rfl, by rw [hb]; exact h.has⟩

theorem Eff.done_false (s : State) (c : Bool) (h : c = false) : Eff.done s c = .ok s := by subst h; rfl

theorem barSettle_fields (z : Nat) : barSettle z = z ∧ ¬(barArr z = barExp z ∧ barPend z = 0 ∧ barTxb z = 0) ∨
    (barArr z = barExp z ∧ barPend z = 0 ∧ barTxb z = 0) ∧ barSettle z = setFld (setFld z 0 16 0) 32 4 (barPh z + 1) := by
  unfold barSettle
  by_cases h : barArr z = barExp z ∧ barPend z = 0 ∧ barTxb z = 0
  · rw [if_pos h]; exact .inr ⟨h, rfl⟩
  · rw [if_neg h]; exact .inl ⟨rfl, h⟩

/-- An arrival, field by field. -/
theorem barArrive_fields (x count tx : Nat) (hc : fld x 0 16 + count < 2 ^ 16) (ht : fld x 64 32 + tx < 2 ^ 32) :
    let y := barArrive x count tx
    let turn : Prop := fld x 0 16 + count = fld x 16 16 ∧ fld x 48 16 = 0 ∧ fld x 64 32 + tx = 0
    fld y 16 16 = fld x 16 16 ∧ fld y 36 28 = fld x 36 28 ∧ fld y 64 32 = fld x 64 32 + tx ∧ fld y 96 32 = fld x 96 32 ∧
      (turn → fld y 0 16 = 0 ∧ fld y 32 4 = (fld x 32 4 + 1) % 16) ∧ (¬turn → fld y 0 16 = fld x 0 16 + count ∧ fld y 32 4 = fld x 32 4) := by
  intro y turn
  let z := setFld (setFld x 64 32 (fld x 64 32 + tx)) 0 16 (fld x 0 16 + count)
  have z0 : fld z 0 16 = fld x 0 16 + count := by rw [fld_setFld_self, Nat.mod_eq_of_lt hc]
  have z64 : fld z 64 32 = fld x 64 32 + tx := by rw [fld_setFld_ne _ _ _ _ _ _ (.inr (by omega)), fld_setFld_self, Nat.mod_eq_of_lt ht]
  have zo : ∀ a b, 16 ≤ a → a + b ≤ 64 ∨ 96 ≤ a → fld z a b = fld x a b := by
    intro a b h1 h2
    rw [fld_setFld_ne _ _ _ _ _ _ (.inr (by omega)), fld_setFld_ne _ _ _ _ _ _ (by omega)]
  have hturn : (barArr z = barExp z ∧ barPend z = 0 ∧ barTxb z = 0) ↔ turn := by
    unfold barArr barExp barPend barTxb
    rw [z0, z64, zo 16 16 (by omega) (by omega), zo 48 16 (by omega) (by omega)]
  have hy : y = barSettle z := rfl
  rcases barSettle_fields z with ⟨h1, h2⟩ | ⟨h1, h2⟩
  · rw [hturn] at h2
    rw [hy, h1]
    exact ⟨zo 16 16 (by omega) (by omega), zo 36 28 (by omega) (by omega), z64, zo 96 32 (by omega) (by omega), fun h => absurd h h2, fun _ => ⟨z0, zo 32 4 (by omega) (by omega)⟩⟩
  · rw [hturn] at h1
    rw [hy, h2]
    have yo : ∀ a b, 16 ≤ a → a + b ≤ 32 ∨ 36 ≤ a → fld (setFld (setFld z 0 16 0) 32 4 (barPh z + 1)) a b = fld z a b := by
      intro a b h1 h2
      rw [fld_setFld_ne _ _ _ _ _ _ (by omega), fld_setFld_ne _ _ _ _ _ _ (.inr (by omega))]
    refine ⟨(yo 16 16 (by omega) (by omega)).trans (zo 16 16 (by omega) (by omega)), (yo 36 28 (by omega) (by omega)).trans (zo 36 28 (by omega) (by omega)),
      (yo 64 32 (by omega) (by omega)).trans z64, (yo 96 32 (by omega) (by omega)).trans (zo 96 32 (by omega) (by omega)), fun _ => ⟨?_, ?_⟩, fun h => absurd h1 h⟩
    · rw [fld_setFld_ne _ _ _ _ _ _ (.inl (by omega)), fld_setFld_self]; rfl
    · rw [fld_setFld_self]
      show (fld z 32 4 + 1) % 2 ^ 4 = _
      rw [zo 32 4 (by omega) (by omega)]
      rfl

theorem ofBytes_lt (bs : List Byte) : ofBytes bs < 256 ^ bs.length := by
  induction bs with
  | nil => exact Nat.one_pos
  | cons b bs ih =>
    rw [List.length_cons, Nat.pow_succ]
    show b.toNat + 256 * ofBytes bs < _
    have := b.isLt
    omega

theorem readNat_lt (s : State) (l n : Nat) : s.readNat l n < 256 ^ n := by
  unfold State.readNat State.read
  have := ofBytes_lt (Memory.read s.mem l n)
  rw [read_eq] at this ⊢
  simpa using this

theorem barSetOvr_eq (x : Nat) : barSetOvr x = x + (1 - x / 2 ^ 36 % 2) * 2 ^ 36 := by
  have : fld x 36 1 = x / 2 ^ 36 % 2 := rfl
  have h1 := Nat.div_add_mod x (2 ^ 36)
  have h2 : x / 2 ^ 36 % 2 < 2 := Nat.mod_lt _ (by decide)
  have h3 : x / 2 ^ 36 % 2 ≤ x / 2 ^ 36 := Nat.mod_le _ _
  unfold barSetOvr setFld
  rw [this]
  generalize x / 2 ^ 36 % 2 = b at *
  have : b * 2 ^ 36 ≤ x := by
    calc b * 2 ^ 36 ≤ x / 2 ^ 36 * 2 ^ 36 := Nat.mul_le_mul_right _ h3
      _ ≤ x := Nat.div_mul_le_self _ _
  norm_num at *
  omega

theorem modLaunch_keeps (e : State) (f : Launch → Launch) (k j : Nat) (hf : ∀ x, (f x).msg = x.msg ∧ (f x).btnext = x.btnext) :
    ((e.modLaunch k f).launch j).msg = (e.launch j).msg ∧ ((e.modLaunch k f).launch j).btnext = (e.launch j).btnext := by
  unfold State.launch State.modLaunch
  dsimp only
  rw [sget_smod]
  split
  · next hc => rw [hc.1]; exact hf _
  · exact ⟨rfl, rfl⟩

theorem btnext_keeps (e t : State) (st : Strand) (h : (t.launch st.launch).msg = (e.launch st.launch).msg ∧ (t.launch st.launch).btnext = (e.launch st.launch).btnext) : btnextOf t st = btnextOf e st := by
  unfold btnextOf isDet
  dsimp only
  rw [h.1, h.2]

/-- A launch changed in what no control register shows. -/
theorem launch_body (e : State) (u : Nat) (f : Launch → Launch) (k : Nat) (hf : ∀ x, (f x).msg = x.msg ∧ (f x).btnext = x.btnext) : Body { launches := true } e (e.modLaunch k f) u := by
  have h11 : btnextOf (e.modLaunch k f) (e.strand u) = btnextOf e (e.strand u) := btnext_keeps _ _ _ (modLaunch_keeps e f k _ hf)
  refine ⟨⟨fun _ _ => rfl, fun _ _ => rfl, fun _ _ => rfl, fun _ _ => rfl, fun _ _ _ => rfl, fun _ _ _ => rfl, fun _ _ => rfl, fun _ _ => rfl, fun r hr h0 _ => ?_, fun _ _ => rfl, fun _ => ⟨rfl, rfl, rfl⟩, fun hc => (by cases hc), fun _ => ⟨fun _ => rfl, fun _ hx => ⟨hx, rfl⟩, rfl⟩⟩, fun _ => rfl, rfl, id, rfl, rfl, fun _ => rfl⟩
  by_cases h1 : r = 0x11
  · subst h1; exact h11
  · exact ctlRead_ctl e (e.modLaunch k f) rfl r hr h0 h1

theorem entered_sealed (i : Instr) (s : State) (u : Nat) (m : BitVec 32) (h : s.has u) : ((entered i s u m).strand u).sealed = (s.strand u).sealed := by
  obtain ⟨T, R, B, Q, V, W, C, q, e⟩ := entered_moved i s u m h
  rw [e]

theorem entered_cpFaults (i : Instr) (s : State) (u : Nat) (m : BitVec 32) (h : s.has u) : ((entered i s u m).strand u).cpFaults = (s.strand u).cpFaults := by
  obtain ⟨T, R, B, Q, V, W, C, q, e⟩ := entered_moved i s u m h
  rw [e]

/-- The open batch sealed, and its number written. -/
theorem seal_body (e : State) (cx : Cx) (r : Nat) (num : Word) (h : e.has cx.u) :
    let t := writeU (e.modStrand cx.u sealBatch) cx r [num] 0
    Body { s := fun c => c == r, ctl := fun n => n == 0x0C } e t cx.u ∧ (r ≠ 0 → t.sreg cx.u r = { val := num, tag := 0 }) ∧
      t.creg cx.u 0x0C = BitVec.ofNat 64 (batchNumber ((e.strand cx.u).sealed + 1)) := by
  intro t
  have he : (e.modStrand cx.u sealBatch).strand cx.u = sealBatch (e.strand cx.u) := strand_modStrand_self _ _ _ h
  have h1 : (e.modStrand cx.u sealBatch).has cx.u := (has_modStrand _ _ _ _).2 h
  have hB1 : Body { s := fun c => c == r, ctl := fun n => n == 0x0C } e (e.modStrand cx.u sealBatch) cx.u := by
    refine ⟨only_modStrand _ cx.u _ _ h ⟨fun r hr h0 hw => ?_, fun _ => ⟨rfl, rfl, rfl⟩, fun _ _ _ => rfl, fun _ _ => rfl, fun _ _ => rfl, fun _ _ _ _ => rfl,
      fun _ _ _ => rfl, fun _ => ⟨rfl, fun _ => ⟨rfl, fun he => ⟨he, rfl⟩⟩⟩⟩, ?_, ?_, fun _ => h1, ?_⟩
    · have : r ≠ 0x0C := by simpa using hw
      interval_cases r <;> first | rfl | contradiction
    · rw [he]; exact fun _ => rfl
    · rw [he]; rfl
    · rw [he]; exact ⟨rfl, rfl, fun _ => rfl⟩
  refine ⟨hB1.trans (writeU_body _ cx r [num] 0 _ h1 fun c c1 c2 => by simp only [List.length_cons, List.length_nil] at c2; simp; omega),
    fun h0 => writeU_sreg _ cx r [num] 0 h1 0 (by simp) h0, ?_⟩
  refine ((writeU_body _ cx r [num] 0 { s := fun _ => true } h1 fun c c1 c2 => rfl).only.cregs 0x0C (by decide) (by decide) rfl).trans ?_
  show ((e.modStrand cx.u sealBatch).strand cx.u).ctl.batch = _
  rw [he]
  rfl

theorem acked_body (e : State) (u : Nat) (f : List (Nat × Nat × Nat) → List (Nat × Nat × Nat)) (h : e.has u) :
    Body {} e (e.modStrand u fun st => { st with copyUnacked := f st.copyUnacked }) u :=
  body_modStrand _ u _ _ h ⟨rfl, rfl, rfl, ⟨rfl, rfl, rfl⟩, rfl, rfl, fun _ _ _ => rfl, fun _ _ => rfl, fun _ _ => rfl, fun _ _ _ _ => rfl, fun _ _ _ => rfl,
    fun _ => ⟨rfl, rfl, rfl, rfl, rfl⟩, rfl, rfl⟩

/-! ### Copies -/

/-- A strand with another open batch. -/
def withBatch (st : Strand) (sealed : Nat) (b : BitVec 64) : Strand := { st with sealed := sealed, ctl := { st.ctl with batch := b } }

theorem withBatch_body (s : State) (u sealed : Nat) (b : BitVec 64) (f : Strand → Strand) (h : s.has u) (hf : f (s.strand u) = withBatch (s.strand u) sealed b) :
    Body { ctl := fun n => n == 0x0C } s (s.modStrand u f) u := by
  have hs := strand_modStrand_self s u f h
  rw [hf] at hs
  have hk : Sees { ctl := fun n => n == 0x0C } s (s.strand u) (f (s.strand u)) := by
    rw [hf]
    refine ⟨fun r hr h0 hw => ?_, fun _ => ⟨rfl, rfl, rfl⟩, fun _ _ _ => rfl, fun _ _ => rfl, fun _ _ => rfl, fun _ _ _ _ => rfl,
      fun _ _ _ => rfl, fun _ => ⟨rfl, fun _ => ⟨rfl, fun he => ⟨he, rfl⟩⟩⟩⟩
    have : r ≠ 0x0C := by simpa using hw
    interval_cases r <;> first | rfl | contradiction
  refine ⟨only_modStrand s u f _ h hk, ?_, ?_, fun _ => (has_modStrand _ _ _ _).2 h, ?_⟩
  · rw [hs]; exact fun _ => rfl
  · rw [hs]; rfl
  · rw [hs]; exact ⟨rfl, rfl, fun _ => rfl⟩

theorem cfld_cset (x : BitVec 64) (v : Nat) : cfld (cset x 32 7 v) 32 7 = v % 128 := by
  refine Nat.eq_of_testBit_eq fun k => ?_
  rw [testBit_cfld, show (128 : Nat) = 2 ^ 7 from rfl, Nat.testBit_mod_two_pow]
  by_cases hk : k < 7
  · rw [getLsbD_cset _ _ _ _ _ (by omega), if_pos (by omega), show 32 + k - 32 = k by omega]
  · simp [hk]

theorem openCount_seal (st : Strand) : openCount (sealBatch st) = 0 := by
  unfold openCount sealBatch cfld fld batchNumber
  dsimp only
  rw [BitVec.toNat_ofNat, Nat.mod_eq_of_lt (by omega), Nat.div_eq_of_lt (by omega)]

/-- The open batch takes one more copy. -/
def oneMore (st : Strand) : Strand :=
  let st := if openCount st = 64 then sealBatch st else st
  { st with ctl := { st.ctl with batch := cset st.ctl.batch 32 7 (openCount st + 1) } }

theorem oneMore_eq (st : Strand) : ∃ k b, oneMore st = withBatch st k b ∧ k = st.sealed + (if openCount st = 64 then 1 else 0) ∧
    cfld b 32 7 = if openCount st = 64 then 1 else (openCount st + 1) % 128 := by
  unfold oneMore
  by_cases h : openCount st = 64
  · rw [if_pos h, if_pos h, if_pos h]
    refine ⟨st.sealed + 1, cset (sealBatch st).ctl.batch 32 7 (openCount (sealBatch st) + 1), rfl, rfl, ?_⟩
    rw [cfld_cset, openCount_seal]
  · rw [if_neg h, if_neg h, if_neg h]
    exact ⟨st.sealed, _, rfl, rfl, cfld_cset _ _⟩

theorem setCore_body (s : State) (u : Nat) (w : Touch) (n : Nat) (c : Core) : Body w s (s.setCore n c) u := by
  refine ⟨⟨fun _ _ => rfl, fun _ _ => rfl, fun _ _ => rfl, fun _ _ => rfl, fun _ _ _ => rfl, fun _ _ _ => rfl, fun _ _ => rfl, fun _ _ => rfl, fun r hr h0 _ => ?_,
    fun _ _ => rfl, fun _ => ⟨rfl, rfl, rfl⟩, fun _ => rfl, fun _ => ⟨fun _ => rfl, fun _ hx => ⟨hx, rfl⟩, rfl⟩⟩, fun _ => rfl, rfl, id, rfl, rfl, fun _ => rfl⟩
  interval_cases r <;> first | rfl | contradiction

theorem core_setCore (s : State) (n : Nat) (c : Core) : (s.setCore n c).core n = c := by
  unfold State.core State.setCore
  have := sfind_sset s.cores n n c
  unfold sfind at this
  unfold sget
  dsimp only
  rw [this]
  simp

theorem startCopy_spec (e : State) (cx : Cx) (mode dst src len bar : Nat) (o : CpyOp) (h : e.has cx.u) (hlen : len ≠ 0) :
    let st := e.strand cx.u
    let t := startCopy e cx mode dst src len bar o
    t.mem = e.mem ∧ Body { ctl := fun n => n == 0x0C } e t cx.u ∧
      (∃ c : Copy, (t.core st.core).copies = (e.core st.core).copies ++ [c] ∧ c.strand = cx.u ∧ c.mode = mode ∧ c.dst = dst ∧ c.src = src ∧ c.len = len ∧ c.done = 0 ∧
        c.bar = bar ∧ c.scope = o.scope ∧ c.stream = o.stream ∧ c.batch = st.sealed + (if openCount st = 64 then 2 else 1)) ∧
      cfld (t.strand cx.u).ctl.batch 32 7 = (if openCount st = 64 then 1 else (openCount st + 1) % 128) := by
  intro st t
  obtain ⟨k, b, h1, h2, h3⟩ := oneMore_eq st
  have hst : (e.newId.2.modStrand cx.u oneMore).strand cx.u = withBatch st k b := (strand_modStrand_self e.newId.2 cx.u oneMore h).trans h1
  have hB := (newId_body { ctl := fun n => n == 0x0C } e cx.u).trans (withBatch_body e.newId.2 cx.u k b oneMore h h1)
  let A := e.newId.2.modStrand cx.u oneMore
  let c : Copy := { id := e.uid, strand := cx.u, mode := mode, dst := dst, src := src, len := len, done := 0, bar := bar
                    batch := (A.strand cx.u).sealed + 1, scope := o.scope, stream := o.stream, seq := e.uid, en := (A.strand cx.u).tagEn }
  let K : Core := A.core (A.strand cx.u).core
  let score := if mode = 2 ∨ len = 0 then K.score else K.score ++ [(e.uid, A.ctxOf (A.strand cx.u), dst, dst + len)]
  have ht : t = A.setCore (A.strand cx.u).core { K with copies := K.copies ++ [c], score := score } := by
    show startCopy e cx mode dst src len bar o = _
    unfold startCopy
    dsimp only
    rw [if_neg hlen]
    rfl
  have hcore : (A.strand cx.u).core = st.core := by rw [hst]; rfl
  refine ⟨by rw [ht]; rfl, ?_, ⟨c, ?_, rfl, rfl, rfl, rfl, rfl, rfl, rfl, rfl, rfl, ?_⟩, ?_⟩
  · rw [ht]
    exact hB.trans (setCore_body A cx.u _ _ _)
  · rw [ht, hcore, core_setCore]
    show (A.core (A.strand cx.u).core).copies ++ [c] = _
    rw [hcore]
    rfl
  · show (A.strand cx.u).sealed + 1 = _
    rw [hst]
    show k + 1 = _
    rw [h2]
    split <;> rfl
  · rw [ht]
    show cfld (A.strand cx.u).ctl.batch 32 7 = _
    rw [hst]
    exact h3
theorem closeThreads_dies (s : State) (u : Nat) (m : BitVec 32) (own : Nat) : (closeThreads s u m own).dies = s.dies := rfl

theorem entered_dies (i : Instr) (s : State) (u : Nat) (m : BitVec 32) : (entered i s u m).dies = s.dies := by
  unfold entered
  dsimp only
  split
  · unfold enterBoundary
    split
    · rfl
    · rfl
  · rfl

theorem foldl_dies {α : Type} (f : State → α → State) (hf : ∀ s a, (f s a).dies = s.dies) (l : List α) (s : State) : (l.foldl f s).dies = s.dies := by
  induction l generalizing s with
  | nil => rfl
  | cons a l ih => rw [List.foldl_cons, ih, hf]

theorem complete_dies (s : State) (cx : Cx) (us : List Use) (jumped : Bool) (taken : BitVec 32) : (complete s cx us jumped taken).dies = s.dies := by
  unfold complete
  dsimp only
  have h1 : ∀ (c : Bool) (t : State), (if c then stopRun t else t).dies = t.dies := by intro c t; cases c <;> rfl
  rw [h1]
  have h2 : ∀ (c : Bool) (t : State), (if c then leaveBoundary t cx.u cx.mask else t).dies = t.dies := by
    intro c t
    cases c
    · rfl
    · show (leaveBoundary t cx.u cx.mask).dies = t.dies
      unfold leaveBoundary
      dsimp only
      rw [foldl_dies]
      · rfl
      · intro s a; rfl
  rw [h2]
  rfl

theorem entered_emits (i : Instr) (s : State) (u : Nat) (m : BitVec 32) (h : s.has u) : ((entered i s u m).strand u).emits = (s.strand u).emits := by
  obtain ⟨T, R, B, Q, V, W, C, q, e⟩ := entered_moved i s u m h
  rw [e]

theorem entered_launchCount (i : Instr) (s : State) (u : Nat) (m : BitVec 32) (h : s.has u) : ((entered i s u m).strand u).launches = (s.strand u).launches := by
  obtain ⟨T, R, B, Q, V, W, C, q, e⟩ := entered_moved i s u m h
  rw [e]

/-- A strand's count of EMITs, and the dies, changed. -/
theorem emits_body (e : State) (u : Nat) (f : List Die → List Die) (h : e.has u) :
    Body {} e { (e.modStrand u fun st => { st with emits := st.emits + 1 }) with dies := f (e.modStrand u fun st => { st with emits := st.emits + 1 }).dies } u := by
  refine (body_modStrand e u (fun st => { st with emits := st.emits + 1 }) {} h ⟨rfl, rfl, rfl, ⟨rfl, rfl, rfl⟩, rfl, rfl, fun _ _ _ => rfl, fun _ _ => rfl, fun _ _ => rfl, fun _ _ _ _ => rfl, fun _ _ _ => rfl,
    fun _ => ⟨rfl, rfl, rfl, rfl, rfl⟩, rfl, rfl⟩).trans ?_
  generalize e.modStrand u (fun st => { st with emits := st.emits + 1 }) = t
  refine ⟨⟨fun _ _ => rfl, fun _ _ => rfl, fun _ _ => rfl, fun _ _ => rfl, fun _ _ _ => rfl, fun _ _ _ => rfl, fun _ _ => rfl, fun _ _ => rfl, fun r hr h0 _ => ?_,
    fun _ _ => rfl, fun _ => ⟨rfl, rfl, rfl⟩, fun _ => rfl, fun _ => ⟨fun _ => rfl, fun _ hx => ⟨hx, rfl⟩, rfl⟩⟩, fun _ => rfl, rfl, id, rfl, rfl, fun _ => rfl⟩
  by_cases h1 : r = 0x11
  · subst h1; rfl
  · exact ctlRead_ctl t _ rfl r hr h0 h1

theorem val_lt (ws : List Word) : ws.foldr (fun w n => w.toNat + 2 ^ 32 * n) 0 < 2 ^ (32 * ws.length) := by
  induction ws with
  | nil => exact Nat.one_pos
  | cons a ws ih =>
    rw [List.foldr_cons, List.length_cons, Nat.mul_add, Nat.pow_add]
    have := a.isLt
    norm_num at *
    omega

theorem readWords_val_lt (f : Sparse TWord) (c : Nat) : (readWords f c 2).val < 2 ^ 64 := by
  have := val_lt (readWords f c 2).words
  have hl : (readWords f c 2).words.length = 2 := by simp [readWords, upFrom]
  rw [hl] at this
  exact this

theorem pair_addr (f : Sparse TWord) (c : Nat) : addrOf (readWords f c 2).d 0 0 0 = (readWords f c 2).val := by
  unfold addrOf leaOf Opd.d
  have : (0 : BitVec 16).signExtend 64 = 0 := by decide
  rw [this]
  have h := readWords_val_lt f c
  simpa using h

/-- Bytes stored with a tag, and contexts changed. -/
theorem stored_body (e : State) (u l : Nat) (bs : List Byte) (tags : Sparse Tag) (C : Sparse Context) (w : Touch)
    (hw : ∀ a, 32 * (l / 32) ≤ a → a < 32 * ((l + bs.length + 31) / 32) → w.mem a = true) (ht : ∀ k, k ∉ sectorsOf l bs.length → sget 0 tags k = sget 0 e.tags k) :
    Body w e { e with mem := Memory.write e.mem l bs, tags := tags, contexts := C } u := by
  refine ⟨⟨fun a ha => ?_, fun k hk => ?_, fun _ _ => rfl, fun _ _ => rfl, fun _ _ _ => rfl, fun _ _ _ => rfl, fun _ _ => rfl, fun _ _ => rfl, fun r hr h0 _ => ?_,
    fun _ _ => rfl, fun _ => ⟨rfl, rfl, rfl⟩, fun _ => rfl, fun _ => ⟨fun _ => rfl, fun _ hx => ⟨hx, rfl⟩, rfl⟩⟩, fun _ => rfl, rfl, id, rfl, rfl, fun _ => rfl⟩
  · show Memory.byte (Memory.write e.mem l bs) a = Memory.byte e.mem a
    rw [byte_write, if_neg]
    rintro ⟨h1, h2⟩
    rw [hw a (by omega) (by omega)] at ha
    cases ha
  · refine ht k fun hc => ?_
    obtain ⟨h1, h2⟩ := mem_sectorsOf _ _ _ hc
    have := hk 0 (by decide)
    rw [hw _ (by omega) (by omega)] at this
    cases this
  · by_cases h1 : r = 0x11
    · subst h1; rfl
    · exact ctlRead_ctl e _ rfl r hr h0 h1

theorem toBytes_ofBytes (bs : List Byte) : toBytes bs.length (ofBytes bs) = bs := by
  induction bs with
  | nil => rfl
  | cons b bs ih =>
    show BitVec.ofNat 8 (b.toNat + 256 * ofBytes bs) :: toBytes bs.length ((b.toNat + 256 * ofBytes bs) / 256) = b :: bs
    have hb := b.isLt
    rw [show (b.toNat + 256 * ofBytes bs) / 256 = ofBytes bs by omega, ih]
    congr 1
    apply BitVec.eq_of_toNat_eq
    rw [BitVec.toNat_ofNat]
    omega

theorem toBytes_add (a b x : Nat) : toBytes (a + b) x = toBytes a x ++ toBytes b (x / 256 ^ a) := by
  induction a generalizing x with
  | zero => simp [toBytes]
  | succ a ih =>
    rw [Nat.succ_add]
    show BitVec.ofNat 8 x :: toBytes (a + b) (x / 256) = (BitVec.ofNat 8 x :: toBytes a (x / 256)) ++ _
    rw [ih, Nat.div_div_eq_div_mul, show 256 * 256 ^ a = 256 ^ (a + 1) by ring]
    rfl

theorem toBytes4_mod (x : Nat) : toBytes 4 (BitVec.ofNat 32 x).toNat = toBytes 4 x := by
  have h : (BitVec.ofNat 32 x).toNat = x % 2 ^ 32 := rfl
  rw [h]
  unfold toBytes toBytes toBytes toBytes toBytes
  have e : ∀ k, k < 4 → BitVec.ofNat 8 (x % 2 ^ 32 / 256 ^ k) = BitVec.ofNat 8 (x / 256 ^ k) := by
    intro k hk
    apply BitVec.eq_of_toNat_eq
    rw [BitVec.toNat_ofNat, BitVec.toNat_ofNat]
    interval_cases k <;> omega
  have e0 := e 0 (by decide)
  have e1 := e 1 (by decide)
  have e2 := e 2 (by decide)
  have e3 := e 3 (by decide)
  simp only [Nat.pow_zero, Nat.div_one, Nat.pow_one] at e0 e1
  simp only [Nat.div_div_eq_div_mul]
  rw [e0, e1]
  norm_num at e2 e3 ⊢
  exact ⟨e2, e3⟩

theorem words_bytes (n x : Nat) : (wordsOfNat n x).flatMap (fun w => toBytes 4 w.toNat) = toBytes (4 * n) x := by
  induction n with
  | zero => rfl
  | succ n ih =>
    have hs : wordsOfNat (n + 1) x = wordsOfNat n x ++ [BitVec.ofNat 32 (x / 2 ^ (32 * n))] := by
      unfold wordsOfNat
      rw [List.range_succ, List.map_append]
      rfl
    rw [hs, List.flatMap_append, ih, show 4 * (n + 1) = 4 * n + 4 by omega, toBytes_add]
    congr 1
    simp only [List.flatMap_cons, List.flatMap_nil, List.append_nil]
    rw [toBytes4_mod, show (256 : Nat) ^ (4 * n) = 2 ^ (32 * n) by rw [show (256 : Nat) = 2 ^ 8 from rfl, ← Nat.pow_mul]; congr 1; omega]

theorem read_length (m : Memory) (l n : Nat) : (Memory.read m l n).length = n := by rw [read_eq]; simp

/-- A record read as words, and its bytes. -/
theorem record_bytes (s : State) (l : Nat) : (extendWords false 64 (s.readNat l 64)).flatMap (fun w => toBytes 4 w.toNat) = s.read l 64 := by
  unfold extendWords
  rw [if_neg (by decide)]
  refine (words_bytes 16 _).trans ?_
  have := toBytes_ofBytes (s.read l 64)
  have hl : (s.read l 64).length = 64 := read_length _ _ _
  rw [hl] at this
  exact this

/-- What enqueueing a launch changes. -/
theorem enqueue_spec (s : State) (key : Nat) : ∃ L D, enqueue s key = { s with launches := L, dies := D } ∧
    ∀ j, ∃ ds un ph, sget default L j = if j = key ∧ (sfind s.launches key).isSome then { s.launch key with dies := ds, unplaced := un, phase := ph } else s.launch j := by
  unfold enqueue
  dsimp only
  refine ⟨_, _, rfl, fun j => ⟨if isDet (s.launch key) then diesInService s else roomyDies s (priority (s.launch key)),
    curve { s.launch key with dies := if isDet (s.launch key) then diesInService s else roomyDies s (priority (s.launch key)) },
    if waitsDone s (s.launch key) then .queued else .waiting, ?_⟩⟩
  unfold State.modLaunch
  dsimp only
  rw [sget_smod]
  rfl

/-- Launches, dies, contexts and the counter of numbers changed. -/
theorem queues_body (e : State) (u : Nat) (C : Sparse Context) (L : Sparse Launch) (D : List Die) (n : Nat) (w : Touch) (hw : w.launches = true)
    (h : w.ctl 0x11 = true ∨ (sget default L (e.strand u).launch).msg = (e.launch (e.strand u).launch).msg ∧ (sget default L (e.strand u).launch).btnext = (e.launch (e.strand u).launch).btnext) :
    Body w e { e with contexts := C, launches := L, dies := D, uid := n } u := by
  refine ⟨⟨fun _ _ => rfl, fun _ _ => rfl, fun _ _ => rfl, fun _ _ => rfl, fun _ _ _ => rfl, fun _ _ _ => rfl, fun _ _ => rfl, fun _ _ => rfl, fun r hr h0 hn => ?_,
    fun _ _ => rfl, fun _ => ⟨rfl, rfl, rfl⟩, fun hc => (by rw [hw] at hc; cases hc), fun _ => ⟨fun _ => rfl, fun _ hx => ⟨hx, rfl⟩, rfl⟩⟩, fun _ => rfl, rfl, id, rfl, rfl, fun _ => rfl⟩
  by_cases h1 : r = 0x11
  · subst h1
    rcases h with h | h
    · rw [h] at hn; cases hn
    · exact btnext_keeps e { e with contexts := C, launches := L, dies := D, uid := n } (e.strand u) h
  · exact ctlRead_ctl e _ rfl r hr h0 h1

theorem counts_body (e : State) (u : Nat) (f : Strand → Strand) (h : e.has u) (hf : ∃ p n, f (e.strand u) = { e.strand u with peerBuf := p, launches := n }) (w : Touch) :
    Body w e (e.modStrand u f) u := by
  obtain ⟨p, n, hf⟩ := hf
  refine body_modStrand e u f w h ?_
  rw [hf]
  exact ⟨rfl, rfl, rfl, ⟨rfl, rfl, rfl⟩, rfl, rfl, fun _ _ _ => rfl, fun _ _ => rfl, fun _ _ => rfl, fun _ _ _ _ => rfl, fun _ _ _ => rfl,
    fun _ => ⟨rfl, rfl, rfl, rfl, rfl⟩, rfl, rfl⟩

/-! ### The end of a strand by EXIT or HALT -/

theorem mem_modStrand (s : State) (u : Nat) (f : Strand → Strand) (y : Nat × Strand) (h : y ∈ (s.modStrand u f).strands) : (y.1 = u ∧ ∃ x, y.2 = f x) ∨ y ∈ s.strands := by
  unfold State.modStrand smod at h
  obtain ⟨z, hz, he⟩ := List.mem_map.1 h
  split at he
  · exact .inl (by rw [← he]; exact ⟨rfl, _, rfl⟩)
  · exact .inr (by rw [← he]; exact hz)

theorem mem_closeAll (s : State) (p : Site) (y : Nat × Strand) (h : y ∈ (closeAll s p).strands) : y.1 = p.u ∨ y ∈ s.strands := by
  unfold closeAll at h
  dsimp only at h
  split at h
  · exact .inr h
  · rcases mem_modStrand _ _ _ _ h with h | h
    · exact .inl h.1
    · rcases mem_modStrand _ _ _ _ h with h | h
      · exact .inl h.1
      · exact .inr h

/-- A strand that owes nothing ends. -/
theorem finalExit_ends (i : Instr) (s : State) (p : Site) (k : State → Eff) (hs : s.has p.u) 
    (houts : ∀ j, ((s.strand p.u).thread j).live = true → ((s.strand p.u).thread j).outs = []) (h1 : (s.strand p.u).buf = []) (h2 : (s.strand p.u).redraw = []) (h3 : (s.strand p.u).cq = [])
    (h4 : (s.strand p.u).unacked = []) (h5 : enginesOwed s p.u = false) (h6 : (s.strand p.u).stFaults = []) (h7 : (s.strand p.u).cpFaults = []) (h8 : (s.strand p.u).mtFaults = [])
    (h9 : (s.strand p.u).wsFaults = []) :
    ∃ e, finalExit s p k = k e ∧ e.has p.u ∧ (e.strand p.u).phase = .ended ∧ (∀ j, ((e.strand p.u).thread j).live = false) ∧
      Only (Touch.of { flow := true, launches := true, ctl := fun n => n == 2 || n == 3 || n == 0x11 } i) s e p.u ∧
      ∀ y ∈ e.strands, (y.1 = p.u ∧ y.2.phase = .ended) ∨ y.1 ≠ p.u ∧ y ∈ s.strands := by
  let st := s.strand p.u
  have hrun : (∀ t ∈ st.threads, t.live = true → t.outs = []) := by
    intro t htm htl
    obtain ⟨i, hi, rfl⟩ := threads_of_thread st t htm
    exact houts i htl
  let c := closeAll s p
  have hc : Quiet p.u s c ∧ Idle st (c.strand p.u) := by
    change Quiet p.u s (closeAll s p) ∧ Idle st ((closeAll s p).strand p.u)
    unfold closeAll
    dsimp only
    split
    · exact ⟨Quiet.refl _ _, Idle.refl h1 h2 h3⟩
    · have q1 := (newId_quiet s p.u).trans (closeThreads_quiet s.newId.2 p.u (s.newId.2.strand p.u).allMask s.newId.1 hs)
      have hh := q1.beside.has.2 hs
      have i1 := closeThreads_idle s.newId.2 p.u (s.newId.2.strand p.u).allMask s.newId.1 hs h1 h2 h3
      exact ⟨q1.trans (openRegionAs_quiet _ _ _ _ _ _ hh), i1.trans (openRegionAs_idle _ _ _ _ _ _ hh i1.buf i1.redraw i1.cq)⟩
  obtain ⟨hq, hi⟩ := hc
  have heng : enginesOwed c p.u = false := by
    unfold enginesOwed at h5 ⊢
    dsimp only at h5 ⊢
    rw [hi.others.2.2.2.1, hi.others.2.2.2.2.1, hi.others.2.2.2.2.2, hq.agree.ids.2.2.2.1]
    unfold State.core at h5 ⊢
    rw [hq.beside.cores]
    exact h5
  have hfe : finalExit s p k = k (endStrand c p.u .ended) := by
    unfold finalExit
    dsimp only
    rw [if_neg]
    · have hcp : commitPass (closeAll s p) p.u (fun _ => true) = c := commitPass_nil _ _ _ hi.cq
      rw [hcp, if_neg (by rw [hi.cq, hi.unacked, h4]; simp), if_neg (by simp [heng]), hi.stFaults, hi.others.1, hi.others.2.1, hi.others.2.2.1, h6, h7, h8, h9]
      rfl
    · simp only [List.any_eq_true, not_exists, not_and, Bool.and_eq_true]
      intro t htm htl
      simp [hrun t htm htl]
  have hsame := endStrand_same c p.u .ended
  have hch : c.has p.u := hq.beside.has.2 hs
  have hst : (endStrand c p.u .ended).strand p.u = endedStrand .ended (c.strand p.u) := by
    rw [hsame.strand, strand_modStrand_self _ p.u _ hch]
  refine ⟨endStrand c p.u .ended, hfe, ?_, ?_, fun j => ?_, ?_, fun y hy => ?_⟩
  · have h0 : (c.modStrand p.u (endedStrand .ended)).has p.u := (has_modStrand _ _ _ _).2 hch
    unfold State.has at h0 ⊢
    rw [hsame.strands]
    exact h0
  · change ((endStrand c p.u .ended).strand p.u).phase = _
    rw [hst]; rfl
  · change (((endStrand c p.u .ended).strand p.u).thread j).live = _
    rw [hst]; exact endedStrand_live _ _ _
  · have hO : Only (Touch.of { flow := true, launches := true, ctl := fun n => n == 2 || n == 3 || n == 0x11 } i) s c p.u := by
      refine only_of hq.beside hq.agree fun n hn h0 hw => ?_
      simp only [Touch.of, Bool.or_eq_false_iff, beq_eq_false_iff_ne] at hw
      exact creg_agree hq.agree hn h0 hw.1.1.1 hw.1.1.2 hw.1.2
    refine hO.trans ?_
    have hth : ∀ i, ((endedStrand .ended (c.strand p.u)).thread i).v = ((c.strand p.u).thread i).v ∧ ((endedStrand .ended (c.strand p.u)).thread i).p = ((c.strand p.u).thread i).p := by
      intro i
      unfold endedStrand Strand.thread
      simp only [List.getD_eq_getElem?_getD, List.getElem?_map]
      cases (c.strand p.u).threads[i]? <;> exact ⟨rfl, rfl⟩
    refine ⟨fun l _ => by unfold State.byteAt; rw [hsame.mem]; rfl, fun k _ => by unfold State.tagAt; rw [hsame.tags]; rfl, fun l _ => by rw [hsame.poison]; rfl,
      fun x hx => by rw [hsame.strand, strand_modStrand_ne _ _ _ _ hx], fun i k _ => ?_, fun i k _ => ?_, fun k _ => ?_, fun k _ => ?_, fun n hn h0 hw => ?_, fun j _ => ?_, fun _ => ?_, fun hf => by simp [Touch.of] at hf, fun hf => by simp [Touch.of] at hf⟩
    · unfold State.vreg; rw [hst, (hth i).1]
    · unfold State.pred; rw [hst, (hth i).2]
    · unfold State.sreg; rw [hst]; rfl
    · unfold State.kpred; rw [hst]; rfl
    · have hno : n ≠ 0x11 := by
        rintro rfl
        simp [Touch.of] at hw
      refine ctlRead_ctl _ _ ?_ n hn h0 hno
      rw [hst]; rfl
    · unfold State.queue; rw [hst]; rfl
    · rw [hst]; exact ⟨rfl, rfl, rfl⟩
  · rw [hsame.strands] at hy
    rcases mem_modStrand _ _ _ _ hy with ⟨e1, x, e2⟩ | hy2
    · exact .inl ⟨e1, by rw [e2]; rfl⟩
    · by_cases hyu : y.1 = p.u
      · left
        refine ⟨hyu, ?_⟩
        unfold State.modStrand smod at hy
        obtain ⟨z, hz, he⟩ := List.mem_map.1 hy
        split at he
        · rw [← he]; rfl
        · next hne => rw [he] at hne; exact absurd hyu hne
      · right
        exact ⟨hyu, (mem_closeAll s p y hy2).resolve_left hyu⟩

theorem complete_core (t0 : State) (cx : Cx) (us : List Use) (h : t0.has cx.u) (c : Nat) : (complete t0 cx us false 0).core c = t0.core c := by
  obtain ⟨-, -, hB⟩ := complete_spec t0 cx us false 0 h
  unfold State.core
  rw [hB.cores]

theorem cores_body (e t : State) (u : Nat) (w : Touch) (h : ∃ C, t = { e with cores := C }) : Body w e t u := by
  obtain ⟨C, rfl⟩ := h
  refine ⟨⟨fun _ _ => rfl, fun _ _ => rfl, fun _ _ => rfl, fun _ _ => rfl, fun _ _ _ => rfl, fun _ _ _ => rfl, fun _ _ => rfl, fun _ _ => rfl, fun r hr h0 _ => ?_,
    fun _ _ => rfl, fun _ => ⟨rfl, rfl, rfl⟩, fun _ => rfl, fun _ => ⟨fun _ => rfl, fun _ hx => ⟨hx, rfl⟩, rfl⟩⟩, fun _ => rfl, rfl, id, rfl, rfl, fun _ => rfl⟩
  by_cases h1 : r = 0x11
  · subst h1; rfl
  · exact ctlRead_ctl e _ rfl r hr h0 h1

theorem shootDown_core (s : State) (ctx page : Option Nat) (c : Nat) :
    ((s.shootDown ctx page).core c).tlb = ((s.core c).tlb.filter fun e => !((ctx.all fun c => c == e.ctx) && (page.all fun p => p / 2 ^ (e.shift - 12) == e.page))) ∧
      ((s.shootDown ctx page).core c).last = [] := by
  unfold State.shootDown State.core sget
  dsimp only
  have hl : ∀ (l : Sparse Core) (f : Core → Core), (l.map fun c => (c.1, f c.2)).lookup c = (l.lookup c).map f := by
    intro l f
    induction l with
    | nil => rfl
    | cons a l ih =>
      rw [List.map_cons, List.lookup_cons, List.lookup_cons]
      cases (c == a.1)
      · exact ih
      · rfl
  rw [hl s.cores fun c => { c with tlb := c.tlb.filter fun e => !((ctx.all fun c => c == e.ctx) && (page.all fun p => p / 2 ^ (e.shift - 12) == e.page)), last := [] }]
  cases s.cores.lookup c with
  | none => exact ⟨rfl, rfl⟩
  | some k => exact ⟨rfl, rfl⟩


theorem sys_uses (o : SysOp) (i : Instr) (hi : i = .sysTlbinv o ∨ i = .sysScrub o ∨ i = .sysWorld o ∨ i = .sysHalt o ∨ i = .sysDiagst o ∨ i = .sysDiagld o ∨ i = .sysReplay o ∨ i = .sysReplayTok o) :
    (∀ x ∈ i.uses, x.q = false) ∧ isBoundary i.op [] = false := by
  rcases hi with rfl | rfl | rfl | rfl | rfl | rfl | rfl | rfl <;> refine ⟨?_, rfl⟩ <;> intro x hx
  · change x ∈ (if o.x % 4 = 0 then [useN .s o.a 2 true false 1] else []) at hx
    split at hx
    · rw [List.mem_singleton.1 hx]; rfl
    · cases hx
  · rw [List.mem_singleton.1 (show x ∈ [useS o.a true false 1] from hx)]; rfl
  · rw [List.mem_singleton.1 (show x ∈ [useS o.a true false 1] from hx)]; rfl
  · cases (show x ∈ [] from hx)
  · have : x ∈ [useN .s o.a 2 true false 1, useN .s o.b 2 true false 2, useS o.c true false 3] := hx
    simp only [List.mem_cons, List.not_mem_nil, or_false] at this
    rcases this with rfl | rfl | rfl <;> rfl
  · have : x ∈ [useN .s o.d 4 false true 0, useN .s o.a 2 true false 1] := hx
    simp only [List.mem_cons, List.not_mem_nil, or_false] at this
    rcases this with rfl | rfl <;> rfl
  · rw [List.mem_singleton.1 (show x ∈ [useN .s o.a 2 true false 1] from hx)]; rfl
  · rw [List.mem_singleton.1 (show x ∈ [useN .s o.a 2 true false 1] from hx)]; rfl

theorem sys_entered (o : SysOp) (i : Instr) (s : State) (u : Nat) (m : BitVec 32) (h : Ready i s u m)
    (hi : i = .sysTlbinv o ∨ i = .sysScrub o ∨ i = .sysWorld o ∨ i = .sysHalt o ∨ i = .sysDiagst o ∨ i = .sysDiagld o ∨ i = .sysReplay o ∨ i = .sysReplayTok o) :
    entered i s u m = s ∧ isBoundary i.op i.uses = false := by
  have h1 := sys_uses o i hi
  have hb := not_boundary i s u m h h1.1 h1.2
  refine ⟨?_, hb⟩
  unfold entered
  exact if_neg (by rw [show (siteOf s u m i i.op i.fields).boundary = isBoundary i.op i.uses from rfl, hb]; simp)

theorem nat_beq_comm (a b : Nat) : (a == b) = (b == a) := by rw [Bool.eq_iff_iff, beq_iff_eq, beq_iff_eq, eq_comm]

theorem Only.of_quiet_stop (w : Touch) (s : State) (u : Nat) : Only w s (stopRun s) u := by
  refine ⟨fun _ _ => rfl, fun _ _ => rfl, fun _ _ => rfl, fun _ _ => rfl, fun _ _ _ => rfl, fun _ _ _ => rfl, fun _ _ => rfl, fun _ _ => rfl, fun r hr h0 _ => ?_,
    fun _ _ => rfl, fun _ => ⟨rfl, rfl, rfl⟩, fun _ => rfl, fun _ => ⟨fun _ => rfl, fun _ hx => ⟨hx, rfl⟩, rfl⟩⟩
  by_cases h1 : r = 0x11
  · subst h1; rfl
  · exact ctlRead_ctl s _ rfl r hr h0 h1

theorem contexts_body (e t : State) (u : Nat) (w : Touch) (h : ∃ C, t = { e with contexts := C }) : Body w e t u := by
  obtain ⟨C, rfl⟩ := h
  refine ⟨⟨fun _ _ => rfl, fun _ _ => rfl, fun _ _ => rfl, fun _ _ => rfl, fun _ _ _ => rfl, fun _ _ _ => rfl, fun _ _ => rfl, fun _ _ => rfl, fun r hr h0 _ => ?_,
    fun _ _ => rfl, fun _ => ⟨rfl, rfl, rfl⟩, fun _ => rfl, fun _ => ⟨fun _ => rfl, fun _ hx => ⟨hx, rfl⟩, rfl⟩⟩, fun _ => rfl, rfl, id, rfl, rfl, fun _ => rfl⟩
  by_cases h1 : r = 0x11
  · subst h1; rfl
  · exact ctlRead_ctl e _ rfl r hr h0 h1

theorem complete_raw (t : State) (cx : Cx) (us : List Use) (hb : cx.site.boundary = false) : (complete t cx us false 0).raw = t.raw := by
  unfold complete
  dsimp only
  rw [hb]
  rfl

/-- The target of a diagnostic access in storage. -/
theorem diagTarget_cell (o : SysOp) (i : Instr) (s : State) (u : Nat) (m : BitVec 32) (k : Option DiagAt → State → Eff) (base : State) (l : Nat)
    (hf : let st := s.strand u
      let a := st.readS o.a 2
      let x : Ea := { thread := st.lowest m, lane := 0, va := a.val, base := a.tag, idx := 0 }
      (o.x % 4 = 0 ∧ base = s ∧ localWindow ≤ a.val ∧ a.val < 2 ^ 56 ∧ a.val % 8 = 0 ∧ ∃ leaf, windowAt s (st.who s none) .store a.val 8 = .ok (.loc l) leaf) ∨
      (o.x % 4 = 1 ∧ l < 2 ^ 41 ∧ badAddr [x] 32 = none ∧ ∃ leaf, fates s u true .store 32 [x] = ([(x, .hit (.loc l) leaf)], base))) :
    diagTarget o (contextOf i s u m) s k = k (some (.cell l)) base := by
  dsimp only at hf
  unfold diagTarget
  dsimp only
  rw [contextOf_u, contextOf_mask]
  rcases hf with ⟨h0, hb, h1, h2, h3, leaf, h4⟩ | ⟨h0, h1, h2, leaf, h3⟩
  · rw [h0]
    unfold diagScratch
    subst hb
    refine (withAddrs_good _ _ _ _ _ ?_).trans ?_
    · unfold badAddr
      simp [h3, show ¬72057594037927936 ≤ ((base.strand u).readS o.a 2).val by omega]
    · rw [if_pos h1, contextOf_u, h4]
  · rw [h0]
    unfold diagDram
    refine (withAddrs_good _ _ _ _ _ h2).trans ?_
    rw [contextOf_u, h3]
    dsimp only
    refine (withHits_all [_] (fun _ => l) (fun _ => leaf) 2 base _ _).trans ?_
    simp only [List.map_cons, List.map_nil]
    rw [if_pos h1]

/-- The target of a diagnostic access to a register word. -/
theorem diagTarget_reg (o : SysOp) (i : Instr) (s : State) (u : Nat) (m : BitVec 32) (k : Option DiagAt → State → Eff) (j : Nat)
    (h0 : 2 ≤ o.x % 4) (h1 : ((s.strand u).readS o.a 2).val < 2 ^ 13) (h2 : 0 < ((s.strand u).readS o.a 2).val % 256)
    (h3 : ((s.strand u).readS o.a 2).val % 256 < (s.strand u).regs) (hj : (s.strand u).threadIn (((s.strand u).readS o.a 2).val / 256) = some j) :
    diagTarget o (contextOf i s u m) s k = k (some (.reg j (((s.strand u).readS o.a 2).val % 256))) s := by
  unfold diagTarget
  dsimp only
  rw [contextOf_u]
  split
  · omega
  · omega
  · unfold diagReg
    dsimp only
    rw [if_neg (by omega), contextOf_u, if_neg (by omega), if_neg (by omega), hj]
    rfl

theorem rawPut_body (e : State) (u l data bits : Nat) :
    Body { mem := fun k => decide (32 * (l / 32) ≤ k ∧ k < 32 * ((l + 39) / 32)) } e (e.rawPut l data bits) u := by
  refine ⟨⟨fun a ha => ?_, fun _ _ => rfl, fun a ha => ?_, fun _ _ => rfl, fun _ _ _ => rfl, fun _ _ _ => rfl, fun _ _ => rfl, fun _ _ => rfl, fun r hr h0 _ => ?_,
    fun _ _ => rfl, fun _ => ⟨rfl, rfl, rfl⟩, fun _ => rfl, fun _ => ⟨fun _ => rfl, fun _ hx => ⟨hx, rfl⟩, rfl⟩⟩, fun _ => rfl, rfl, id, rfl, rfl, fun _ => rfl⟩
  · have ha' : ¬(32 * (l / 32) ≤ a ∧ a < 32 * ((l + 39) / 32)) := by simpa using ha
    show Memory.byte (Memory.write e.mem l (toBytes 8 data)) a = Memory.byte e.mem a
    rw [byte_write, length_toBytes, if_neg (by omega)]
  · have ha' : ¬(32 * (l / 32) ≤ a ∧ a < 32 * ((l + 39) / 32)) := by simpa using ha
    show (e.poison.filter (· != l)).contains a = e.poison.contains a
    have : a ≠ l := by omega
    rw [Bool.eq_iff_iff]
    simp [this]
  · by_cases h1 : r = 0x11
    · subst h1; rfl
    · exact ctlRead_ctl e _ rfl r hr h0 h1

theorem readS_pair_lt (st : Strand) (c : Nat) : (st.readS c 2).val < 2 ^ 64 := by
  unfold Strand.readS
  exact readWords_val_lt _ _

/-! ### Threads that wait no longer -/

/-- Strands that differ only in what their threads, stores and matrix operations wait for. -/
structure Freed (a b : Strand) : Prop where
  shape : ∃ T Q M, b = { a with threads := T, cq := Q, mops := M }
  len : b.threads.length = a.threads.length
  thread : ∀ i, ∃ w c, b.thread i = { a.thread i with wait := w, since := c }

theorem Freed.refl (a : Strand) : Freed a a := ⟨⟨a.threads, a.cq, a.mops, rfl⟩, rfl, fun i => ⟨(a.thread i).wait, (a.thread i).since, rfl⟩⟩

theorem Freed.trans {a b c : Strand} (h : Freed a b) (g : Freed b c) : Freed a c := by
  obtain ⟨T, Q, M, h1⟩ := h.shape
  obtain ⟨T', Q', M', g1⟩ := g.shape
  refine ⟨⟨T', Q', M', by rw [g1, h1]⟩, g.len.trans h.len, fun i => ?_⟩
  obtain ⟨w, k, e⟩ := h.thread i
  obtain ⟨w', k', e'⟩ := g.thread i
  exact ⟨w', k', by rw [e', e]⟩

theorem Freed.mapped (a : Strand) (f : Thread → Thread) (Q : List BufStore) (M : List MOp) (hf : ∀ t, ∃ w c, f t = { t with wait := w, since := c }) :
    Freed a { a with threads := a.threads.map f, cq := Q, mops := M } := by
  refine ⟨⟨_, _, _, rfl⟩, by simp, fun i => ?_⟩
  show ∃ w c, (a.threads.map f).getD i default = { a.threads.getD i default with wait := w, since := c }
  simp only [List.getD_eq_getElem?_getD, List.getElem?_map]
  cases a.threads[i]? with
  | none => exact ⟨_, _, rfl⟩
  | some t => exact hf t

/-- States that differ only in what threads, stores and operations wait for, and in how fragments at rest are carded. -/
structure Woken (s t : State) : Prop where
  shape : ∃ S C K, t = { s with strands := S, cores := C, carding := K }
  strand : ∀ x, Freed (s.strand x) (t.strand x)
  has : ∀ x, t.has x ↔ s.has x

theorem Woken.refl (s : State) : Woken s s := ⟨⟨s.strands, s.cores, s.carding, rfl⟩, fun _ => Freed.refl _, fun _ => Iff.rfl⟩

theorem Woken.trans {a b c : State} (h : Woken a b) (g : Woken b c) : Woken a c := by
  obtain ⟨S, C, K, h1⟩ := h.shape
  obtain ⟨S', C', K', g1⟩ := g.shape
  exact ⟨⟨S', C', K', by rw [g1, h1]⟩, fun x => (h.strand x).trans (g.strand x), fun x => (g.has x).trans (h.has x)⟩

theorem setCards_carded (s : State) (p : Nat) (c : Carding) : ∃ K, s.setCards p c = { s with carding := K } := ⟨_, rfl⟩

theorem foldl_carded {α : Type} (f : State → α → State) (hf : ∀ s a, ∃ K, f s a = { s with carding := K }) (l : List α) (s : State) :
    ∃ K, l.foldl f s = { s with carding := K } := by
  induction l generalizing s with
  | nil => exact ⟨s.carding, rfl⟩
  | cons a l ih =>
    obtain ⟨K, h⟩ := hf s a
    obtain ⟨K', h'⟩ := ih (f s a)
    exact ⟨K', by rw [List.foldl_cons, h', h]⟩

theorem rest_carded (s : State) (u : Nat) (m : BitVec 32) (pc : BitVec 62) : ∃ K, s.rest u m pc = { s with carding := K } := ⟨_, rfl⟩

theorem unspill_carded (s : State) (p : Nat) : ∃ K, s.unspill p = { s with carding := K } := by
  unfold State.unspill
  dsimp only
  split
  · exact ⟨s.carding, rfl⟩
  · obtain ⟨K, h⟩ := foldl_carded (fun (s : State) (m : Nat × BitVec 32) => if m.2 = 0 then s else s.rest m.1 m.2 ((s.strand m.1).thread ((s.strand m.1).lowest m.2)).pc)
      (fun s a => by split; exacts [⟨s.carding, rfl⟩, ⟨_, rfl⟩]) (s.cards p).spill (s.setCards p { s.cards p with spill := [] })
    exact ⟨K, h⟩

theorem recard_carded (s : State) (u : Nat) : ∃ K, s.recard u = { s with carding := K } := by
  unfold State.recard
  dsimp only
  obtain ⟨K, h⟩ := unspill_carded (List.foldl (fun (s : State) (g : BitVec 62 × BitVec 32) => s.rest u g.2 g.1) (s.setCards _ _) _) (s.strand u).home
  obtain ⟨K', h'⟩ := foldl_carded (fun (s : State) (g : BitVec 62 × BitVec 32) => s.rest u g.2 g.1) (fun s a => rest_carded _ _ _ _) _ (s.setCards _ _)
  refine ⟨K, h.trans ?_⟩
  rw [h']
  rfl

theorem woken_carded (r : State) (K : Sparse Carding) : Woken r { r with carding := K } :=
  ⟨⟨r.strands, r.cores, K, rfl⟩, fun _ => Freed.refl _, fun _ => Iff.rfl⟩

theorem woken_modStrand (s : State) (u : Nat) (f : Strand → Strand) (hf : ∀ a, Freed a (f a)) : Woken s (s.modStrand u f) := by
  refine ⟨⟨_, _, _, rfl⟩, fun x => ?_, fun x => has_modStrand _ _ _ _⟩
  rw [strand_modStrand]
  split
  · next hx => rw [hx.1]; exact hf _
  · exact Freed.refl _

theorem wakeIf_woken (s : State) (u : Nat) (f : Wait → Bool) : Woken s (s.wakeIf u f) ∧ (s.wakeIf u f).cores = s.cores := by
  unfold State.wakeIf
  dsimp only
  split
  · have hw := woken_modStrand s u (fun st => { st with threads := st.threads.map fun t => if (t.live && t.wait != .ready && f t.wait) = true then { t with wait := .ready, since := (s.dies.getD (dieOfCore (s.strand u).core) {}).cycle } else t }) fun a => by
      refine Freed.mapped _ _ _ _ fun t => ?_
      split
      · exact ⟨_, _, rfl⟩
      · exact ⟨_, _, rfl⟩
    obtain ⟨K, h⟩ := recard_carded (s.modStrand u fun st => { st with threads := st.threads.map fun t => if (t.live && t.wait != .ready && f t.wait) = true then { t with wait := .ready, since := (s.dies.getD (dieOfCore (s.strand u).core) {}).cycle } else t }) u
    rw [h]
    exact ⟨hw.trans (woken_carded _ _), rfl⟩
  · exact ⟨Woken.refl _, rfl⟩

theorem wakeAll_woken (s : State) (mine : Nat → Strand → Bool) (f : Wait → Bool) : Woken s (s.wakeAll mine f) ∧ (s.wakeAll mine f).cores = s.cores := by
  unfold State.wakeAll
  generalize (s.strands.filter fun x => mine x.1 x.2) = l
  induction l generalizing s with
  | nil => exact ⟨Woken.refl _, rfl⟩
  | cons a l ih =>
    obtain ⟨h1, h2⟩ := wakeIf_woken s a.1 f
    obtain ⟨g1, g2⟩ := ih (s.wakeIf a.1 f)
    exact ⟨h1.trans g1, g2.trans h2⟩

theorem dropWait_is (p : Nat) (t : Thread) : ∃ w c, { t with wait := dropWait p t.wait } = { t with wait := w, since := c } := ⟨_, t.since, rfl⟩

theorem replayOn_woken (s : State) (core ctx page : Nat) : Woken s (s.replayOn core ctx page) ∧
    ∀ c, ((s.replayOn core ctx page).core c).waits = (s.core c).waits.filter fun e => !(c == core && (e.ctx == ctx && e.page == page)) := by
  have key : ∀ (F : Strand → Strand) (G : Core → Core) (mine : Nat → Strand → Bool) (w : Wait → Bool), (∀ a, Freed a (F a)) →
      (∀ k, (G k).waits = k.waits.filter fun e => !(e.ctx == ctx && e.page == page)) →
      let t : State := { s with strands := s.strands.map (fun x => (x.1, F x.2)), cores := smod s.cores core G }
      Woken s (t.wakeAll mine w) ∧ ∀ c, ((t.wakeAll mine w).core c).waits = (s.core c).waits.filter fun e => !(c == core && (e.ctx == ctx && e.page == page)) := by
    intro F G mine w hF hG t
    obtain ⟨h1, h2⟩ := wakeAll_woken t mine w
    have hl : ∀ x, (s.strands.map fun x => (x.1, F x.2)).lookup x = (s.strands.lookup x).map F := by
      intro x
      induction s.strands with
      | nil => rfl
      | cons a l ih =>
        rw [List.map_cons, List.lookup_cons, List.lookup_cons]
        cases (x == a.1)
        · exact ih
        · rfl
    refine ⟨Woken.trans ⟨⟨_, _, s.carding, rfl⟩, fun x => ?_, fun x => ?_⟩ h1, fun c => ?_⟩
    · show Freed (sget {} s.strands x) (sget {} (s.strands.map fun x => (x.1, F x.2)) x)
      unfold sget
      rw [hl]
      cases s.strands.lookup x with
      | none => exact Freed.refl _
      | some a => exact hF a
    · show (sfind (s.strands.map fun x => (x.1, F x.2)) x).isSome ↔ (sfind s.strands x).isSome
      unfold sfind
      rw [hl]
      cases s.strands.lookup x <;> simp
    · show (sget {} (t.wakeAll mine w).cores c).waits = _
      rw [h2]
      show (sget {} (smod s.cores core G) c).waits = (sget {} s.cores c).waits.filter _
      rw [sget_smod]
      by_cases hc : c = core
      · subst hc
        cases hf : sfind s.cores c with
        | none =>
          have : sget {} s.cores c = ({} : Core) := by
            unfold sget
            unfold sfind at hf
            rw [hf]
            rfl
          rw [this]
          simp
        | some k => simp [hG]
      · have hc' : (c == core) = false := by simpa using hc
        rw [if_neg fun h => hc h.1]
        simp only [hc', Bool.false_and, Bool.not_false, List.filter_true]
  refine key (fun st => if (st.core == core && s.ctxOf st == ctx) = true then
      { st with
        threads := st.threads.map fun t => { t with wait := dropWait page t.wait }
        cq := st.cq.map fun e => match e.phase with
          | .parked ps => { e with phase := .parked (dropPage page ps) }
          | _ => e
        mops := st.mops.map fun o => match o.phase with
          | .parked ps => { o with phase := .parked (dropPage page ps) }
          | _ => o }
    else st) (fun c =>
    { c with
      waits := c.waits.filter fun e => !(e.ctx == ctx && e.page == page)
      copies := c.copies.map fun x => match x.phase with
        | .parked ps => if ((s.strand x.strand).core == core && s.ctxOf (s.strand x.strand) == ctx) = true then { x with phase := .parked (dropPage page ps) } else x
        | _ => x
      wsu := c.wsu.map fun x => match x.2 with
        | .parked ps => if x.1.ctx = ctx then (x.1, .parked (dropPage page ps)) else x
        | _ => x }) (fun _ st => st.core == core && s.ctxOf st == ctx) (fun w => w == .pages [] false || w == .tableFull) (fun a => ?_) fun k => rfl
  split
  · exact Freed.mapped _ _ _ _ fun t => ⟨_, t.since, rfl⟩
  · exact Freed.refl _

theorem Woken.sees {s t : State} (h : Woken s t) : (∀ x c, t.sreg x c = s.sreg x c ∧ t.kpred x c = s.kpred x c) ∧
    (∀ x j c, t.vreg x j c = s.vreg x j c ∧ t.pred x j c = s.pred x j c) ∧ (∀ x j, t.pcOf x j = s.pcOf x j) := by
  refine ⟨fun x c => ?_, fun x j c => ?_, fun x j => ?_⟩
  · obtain ⟨T, Q, M, e⟩ := (h.strand x).shape
    unfold State.sreg State.kpred
    rw [e]
    exact ⟨rfl, rfl⟩
  · obtain ⟨w, k, e⟩ := (h.strand x).thread j
    unfold State.vreg State.pred
    rw [e]
    exact ⟨rfl, rfl⟩
  · obtain ⟨w, k, e⟩ := (h.strand x).thread j
    unfold State.pcOf
    rw [e]

theorem replays_woken (cores : List Nat) (s : State) (ctx page : Nat) :
    Woken s (cores.foldl (fun s c => s.replayOn c ctx page) s) ∧
      ∀ c, ((cores.foldl (fun s c => s.replayOn c ctx page) s).core c).waits = (s.core c).waits.filter fun e => !(cores.contains c && (e.ctx == ctx && e.page == page)) := by
  induction cores generalizing s with
  | nil => exact ⟨Woken.refl _, fun c => by simp⟩
  | cons a l ih =>
    obtain ⟨h1, h2⟩ := replayOn_woken s a ctx page
    obtain ⟨g1, g2⟩ := ih (s.replayOn a ctx page)
    refine ⟨h1.trans g1, fun c => ?_⟩
    rw [List.foldl_cons, g2, h2, List.filter_filter]
    congr 1
    funext e
    rw [List.contains_cons]
    cases (c == a) <;> cases (l.contains c) <;> cases (e.ctx == ctx && e.page == page) <;> rfl

theorem tokenEntry_core (s : State) (ctx a core : Nat) (e : WaitEnt) (h : tokenEntry s ctx a = some (core, e)) : e ∈ (s.core core).waits ∧ e.ctx = ctx := by
  unfold tokenEntry at h
  dsimp only at h
  obtain ⟨x, hx, hp⟩ := Option.map_eq_some_iff.1 h
  obtain ⟨rfl, rfl⟩ := Prod.mk.inj hp
  refine ⟨List.mem_of_find?_eq_some hx, ?_⟩
  have := List.find?_some hx
  simp only [Bool.and_eq_true, beq_iff_eq] at this
  exact this.1

/-! ### The matrix engine -/

/-- A strand with other operations in flight, RPROG and latch. -/
def withMops (st : Strand) (M : List MOp) (R : List Nat) (L : Option Latch) : Strand := { st with mops := M, rprog := R, latch := L }

theorem withMops_body (s : State) (u : Nat) (M : List MOp) (R : List Nat) (L : Option Latch) (f : Strand → Strand) (w : Touch) (h : s.has u)
    (hf : f (s.strand u) = withMops (s.strand u) M R L) : Body w s (s.modStrand u f) u := by
  have hs := strand_modStrand_self s u f h
  rw [hf] at hs
  refine ⟨only_modStrand s u f _ h ?_, ?_, ?_, fun _ => (has_modStrand _ _ _ _).2 h, ?_⟩
  · rw [hf]
    exact ⟨fun r hr h0 _ => by interval_cases r <;> first | rfl | contradiction, fun _ => ⟨rfl, rfl, rfl⟩, fun _ _ _ => rfl, fun _ _ => rfl,
      fun _ _ => rfl, fun _ _ _ _ => rfl, fun _ _ _ => rfl, fun _ => ⟨rfl, fun _ => ⟨rfl, fun he => ⟨he, rfl⟩⟩⟩⟩
  · rw [hs]; exact fun _ => rfl
  · rw [hs]; rfl
  · rw [hs]; exact ⟨rfl, rfl, fun _ => rfl⟩

theorem startMop_spec (e : State) (u : Nat) (p : MOp) (w : Touch) (h : e.has u) :
    let st := e.strand u
    let t := startMop e u p
    Body w e t u ∧ t.strand u = withMops st (st.mops ++ [{ p with id := e.uid }]) (st.rprog.mapIdx fun k x => if p.counts k then 0 else x) st.latch ∧
      (t.core st.core).score = (e.core st.core).score ++ p.memRanges.map fun r => (e.uid, e.ctxOf st, r.1, r.2) := by
  intro st t
  let c : Core := { e.core st.core with score := (e.core st.core).score ++ p.memRanges.map fun r => (e.uid, e.ctxOf st, r.1, r.2) }
  let A := e.newId.2.setCore st.core c
  let f : Strand → Strand := fun st => { st with mops := st.mops ++ [{ p with id := e.uid }], rprog := st.rprog.mapIdx fun k x => if p.counts k then 0 else x }
  have ht : t = A.modStrand u f := rfl
  have hB : Body w e A u := (newId_body w e u).trans (setCore_body e.newId.2 u w st.core c)
  have hA : A.has u := hB.has h
  have hAs : A.strand u = st := rfl
  have hs := strand_modStrand_self A u f hA
  refine ⟨?_, ?_, ?_⟩
  · rw [ht]
    exact hB.trans (withMops_body A u _ _ _ f w hA rfl)
  · rw [ht, hs]; rfl
  · rw [ht]
    show (A.core st.core).score = _
    rw [core_setCore]

theorem matrixPre_idle (cx : Cx) (s : State) (k : State → Eff) (h1 : (s.strand cx.u).mtFaults = []) (h2 : (s.strand cx.u).poisonDue = false) :
    matrixPre cx s k = k s := by
  unfold matrixPre
  dsimp only
  rw [h1, h2]
  rfl

/-- The strand in which a matrix instruction executes, as far as its checks look. -/
theorem entered_tiles (i : Instr) (s : State) (u : Nat) (m : BitVec 32) (h : Ready i s u m) :
    let e := entered i s u m
    let st := s.strand u
    (e.strand u).accn = st.accn ∧ (e.strand u).mops = st.mops ∧ (e.strand u).rprog = st.rprog ∧ (e.strand u).latch = st.latch ∧
      (e.strand u).mtFaults = st.mtFaults ∧ (e.strand u).poisonDue = st.poisonDue ∧ (e.strand u).wsFaults = st.wsFaults := by
  intro e st
  obtain ⟨T, R, B, Q, V, W, C, q, he⟩ := entered_moved i s u m (issuing_has s u m h.atIssue)
  have : e.strand u = _ := he
  rw [this]
  exact ⟨rfl, rfl, rfl, rfl, rfl, rfl, rfl⟩

theorem tileBad_iff (st : Strand) (t rows width : Nat) : tileBad st t rows width = true ↔ st.accn = 0 ∨ st.accn < t * st.accn / 4 + rows * width := by
  unfold tileBad tileBase
  simp

theorem tileBad_congr {a b : Strand} (h : b.accn = a.accn) (t rows width : Nat) : tileBad b t rows width = tileBad a t rows width := by
  unfold tileBad tileBase
  rw [h]

theorem readDesc_clean (st : Strand) (g : Nat) (h : st.clean = true) : readDesc st g = ((upFrom g 8).map fun r => (st.readS r 1).w, false) := by
  unfold readDesc
  dsimp only
  rw [List.map_map]
  refine Prod.ext rfl ?_
  dsimp only
  rw [List.any_map, List.any_eq_false]
  intro r _
  simp [readS_clean _ h]

theorem descsFault_congr {a b : Strand} (hs : b.s = a.s) (h : b.accn = a.accn) (syn dest win : Nat) (as : List DescArg) :
    descsFault b syn dest win as = descsFault a syn dest win as := by
  have hr : ∀ g, readDesc b g = readDesc a g := fun g => by unfold readDesc Strand.readS; rw [hs]
  have hd : ∀ x e, descFault b x e = descFault a x e := fun x e => by
    unfold descFault descAddr
    have : ∀ c n, b.readS c n = a.readS c n := fun c n => by unfold Strand.readS; rw [hs]
    simp only [hr, tileBad_congr h, this]
  unfold descsFault
  simp only [hr, hd]

theorem newOp_agree {a b : Strand} (h : Agree a b) (i : Instr) (cx : Cx) (kind : MKind) :
    newOp i cx b kind = { newOp i cx a kind with limit := if b.limit = 0 then 8 else b.limit } := by
  unfold newOp
  rw [h.tagEn, h.mintOn]

theorem insertBy_mem {α : Type} (le : α → α → Bool) (a x : α) (l : List α) : x ∈ insertBy le a l ↔ x = a ∨ x ∈ l := by
  induction l with
  | nil => simp [insertBy]
  | cons b l ih =>
    unfold insertBy
    split
    · simp
    · simp only [List.mem_cons, ih]
      tauto

theorem sortBy_mem {α : Type} (le : α → α → Bool) (x : α) (l : List α) : x ∈ sortBy le l ↔ x ∈ l := by
  induction l with
  | nil => rfl
  | cons b l ih =>
    show x ∈ insertBy le b (sortBy le l) ↔ _
    rw [insertBy_mem, ih, List.mem_cons]

theorem skeins_body (e t : State) (u : Nat) (w : Touch) (h : ∃ K, t = { e with skeins := K }) : Body w e t u := by
  obtain ⟨K, rfl⟩ := h
  refine ⟨⟨fun _ _ => rfl, fun _ _ => rfl, fun _ _ => rfl, fun _ _ => rfl, fun _ _ _ => rfl, fun _ _ _ => rfl, fun _ _ => rfl, fun _ _ => rfl, fun r hr h0 _ => ?_,
    fun _ _ => rfl, fun _ => ⟨rfl, rfl, rfl⟩, fun _ => rfl, fun _ => ⟨fun _ => rfl, fun _ hx => ⟨hx, rfl⟩, rfl⟩⟩, fun _ => rfl, rfl, id, rfl, rfl, fun _ => rfl⟩
  interval_cases r <;> first | rfl | contradiction

theorem skeins_keep_windows (s : State) (cx : Cx) (us : List Use) (taken : BitVec 32) : (windows s cx us taken).skeins = s.skeins := rfl

theorem complete_skeins (t0 : State) (cx : Cx) (us : List Use) (h : t0.has cx.u) : (complete t0 cx us false 0).skeins = t0.skeins := by
  obtain ⟨-, -, hB⟩ := complete_spec t0 cx us false 0 h
  exact hB.skeins

theorem poisonPre_idle (cx : Cx) (s : State) (k : State → Eff) (h : (s.strand cx.u).poisonDue = false) : poisonPre cx s k = k s := by
  unfold poisonPre
  rw [h]
  rfl

theorem wsl_dst (o : WslOp) (h : (Instr.wsl o).WF) : o.dst < 3 := by
  have h1 : (Instr.wsl o).faults = [] := (List.append_eq_nil_iff.1 h).1
  have h2 : o.faults = [] := h1
  unfold WslOp.faults need at h2
  simp only [List.append_eq_nil_iff] at h2
  have h3 := h2.1.1.1.1.2
  by_contra hc
  rw [if_neg (by simpa using hc)] at h3
  cases h3

end Sys2Proof.Machine
end

