-- ==== Sys2Proof/Laws/Numbers.lean ====
section
/-!
SUPPORT. Numbers: every pattern that rounding or a conversion makes fits its format, and an element replaced in a word.
-/

namespace Sys2Proof.Machine

theorem signed_lt (f : Fmt) (neg : Bool) (pat : Nat) (h : pat < f.signBit) : f.signed neg pat < 2 ^ f.width := by
  unfold Fmt.signed Fmt.signBit at *
  have : 2 ^ f.width = 2 ^ (f.width - 1) + 2 ^ (f.width - 1) := by
    rw [← Nat.two_mul, ← Nat.pow_succ']
    congr 1
    cases f <;> rfl
  split <;> omega

theorem maxPat_lt (f : Fmt) : f.maxPat + 1 < f.signBit := by cases f <;> decide

theorem nan_lt (f : Fmt) : f.nan < 2 ^ f.width := by cases f <;> decide

theorem overflowPat_lt (f : Fmt) (c : Rnd) (neg : Bool) : overflowPat f c neg < 2 ^ f.width := by
  have h := maxPat_lt f
  have h1 := signed_lt f neg f.maxPat (by omega)
  have h2 := signed_lt f neg f.infPat h
  have h3 := nan_lt f
  unfold overflowPat
  dsimp only
  generalize (match c.rm with | 2 => false | 3 => !neg | 4 => neg | _ => true) = t
  repeat' split
  all_goals assumption

theorem rounded_lt (f : Fmt) (c : Rnd) (neg : Bool) (pat : Nat) (tiny : Bool) (a b d : Nat) :
    (if f.maxPat < pat then (overflowPat f c neg, a) else if tiny then (f.signed neg 0, b) else (f.signed neg pat, d)).1 < 2 ^ f.width := by
  have h := maxPat_lt f
  split
  · exact overflowPat_lt f c neg
  · split
    · exact signed_lt f neg 0 (by omega)
    · exact signed_lt f neg _ (by omega)

theorem roundTo_lt (f : Fmt) (c : Rnd) (x : Ex) : (roundTo f c x).1 < 2 ^ f.width := by
  have h := maxPat_lt f
  have h1 := fun neg => signed_lt f neg f.maxPat (by omega)
  have h2 := fun neg => signed_lt f neg f.infPat h
  have h0 := fun neg => signed_lt f neg 0 (by omega)
  have h3 := nan_lt f
  unfold roundTo
  cases x with
  | nan => exact h3
  | inf neg =>
    dsimp only
    split
    · split
      · exact h1 neg
      · exact h3
    · exact h2 neg
  | fin neg m e st =>
    dsimp only
    split
    · exact h0 neg
    · exact rounded_lt f c neg _ _ _ _ _

theorem patOf_lt (w : Nat) (i : Int) : patOf w i < 2 ^ w := by
  unfold patOf
  have h : (0 : Int) < 2 ^ w := Int.pow_pos (by decide)
  have := Int.emod_lt_of_pos i h
  have := Int.emod_nonneg i (Int.ne_of_gt h)
  zify
  omega

theorem toInt_lt (c : Rnd) (w : Nat) (signed : Bool) (x : Ex) : (toInt c w signed x).1 < 2 ^ w := by
  have h := patOf_lt w
  unfold patOf at h
  unfold toInt
  dsimp only
  cases x with
  | nan => exact Nat.two_pow_pos w
  | inf neg => exact h _
  | fin neg m e st =>
    dsimp only
    repeat' split
    all_goals first | exact h _ | exact Nat.two_pow_pos w

theorem n4Codes_lt (t : Nat) : ∀ x ∈ n4Codes t, x.1 < 16 := by
  intro x hx
  unfold n4Codes at hx
  obtain ⟨c, hc, h⟩ := List.mem_filterMap.1 hx
  have := List.mem_range.1 hc
  dsimp only at h
  split at h
  · simp at h
  · injection h with h
    rw [← h]
    exact this

theorem foldl_lt (l : List (Nat × Int)) (p : Nat × Int → Nat × Int → Prop) [∀ a b, Decidable (p a b)] (a : Nat × Int) (ha : a.1 < 16) (hl : ∀ x ∈ l, x.1 < 16) :
    (l.foldl (fun a b => if p a b then b else a) a).1 < 16 := by
  induction l generalizing a with
  | nil => exact ha
  | cons x l ih =>
    rw [List.foldl_cons]
    refine ih _ ?_ fun y hy => hl y (by simp [hy])
    split
    · exact hl x (by simp)
    · exact ha

theorem n4Encode_lt (c : Rnd) (scale : Nat) (x : Ex) : (n4Encode c scale x).1 < 16 := by
  have hl := n4Codes_lt (scale / 64 % 4)
  generalize hr : n4Encode c scale x = r
  unfold n4Encode at hr
  extract_lets t xs codes top bot at hr
  have ht : top.1 < 16 := foldl_lt codes (fun a b => a.2 < b.2) (0, 0) (by decide) hl
  have hb : bot.1 < 16 := foldl_lt codes (fun a b => b.2 < a.2) (0, 0) (by decide) hl
  clear_value top bot
  split at hr
  · subst hr; exact Nat.succ_pos 15
  · cases x with
    | nan => dsimp only at hr; subst hr; exact Nat.succ_pos 15
    | inf neg => dsimp only at hr; subst hr; dsimp only; split <;> assumption
    | fin neg m e st =>
      dsimp -zeta only at hr
      extract_lets ey e0 y val below above dl dh pick at hr
      have hbel : below.1 < 16 := foldl_lt codes (fun a b => val b.2 ≤ y ∧ val a.2 < val b.2) bot hb hl
      have habv : above.1 < 16 := foldl_lt codes (fun a b => y ≤ val b.2 ∧ val b.2 < val a.2) top ht hl
      clear_value below above
      have hp : pick.1 < 16 := by
        show (match c.rm with | 1 => _ | 3 => _ | 4 => _ | 5 => _ | _ => _ : Nat × Int).1 < 16
        repeat' split
        all_goals assumption
      clear_value pick
      split at hr
      · subst hr; exact ht
      · split at hr
        · subst hr; exact hb
        · split at hr
          · subst hr; exact hbel
          · subst hr; exact hp

theorem fmtOf_width {d : Nat} {g : Fmt} (h : fmtOf d = some g) : g.width = fmtWidth d := by
  unfold fmtOf at h
  split at h <;> first | (injection h with h; subst h; rfl) | simp at h

theorem cvtElem_lt (sf df pat scale : Nat) (sat : Bool) (c : Rnd) : (cvtElem sf df pat scale sat c).pat < 2 ^ fmtWidth df := by
  unfold cvtElem
  dsimp only
  split
  · exact patOf_lt _ _
  · split
    · next g hg =>
      rw [← fmtOf_width hg]
      exact roundTo_lt _ _ _
    · split
      · next h14 =>
        subst h14
        exact n4Encode_lt _ _ _
      · exact toInt_lt _ _ _ _

/-- An element replaced in a number. -/
theorem testBit_replace (x w e v k : Nat) (hv : v < 2 ^ w) :
    (x - x / 2 ^ e % 2 ^ w * 2 ^ e + v * 2 ^ e).testBit k = if e ≤ k ∧ k < e + w then v.testBit (k - e) else x.testBit k := by
  have hx : x = x % 2 ^ e + (x / 2 ^ e % 2 ^ w) * 2 ^ e + x / 2 ^ (e + w) * 2 ^ (e + w) := by
    have h1 := Nat.div_add_mod x (2 ^ e)
    have h2 := Nat.div_add_mod (x / 2 ^ e) (2 ^ w)
    rw [Nat.div_div_eq_div_mul, ← Nat.pow_add] at h2
    rw [← h2] at h1
    rw [Nat.pow_add]
    rw [Nat.pow_add] at h1
    nlinarith [h1]
  have hm : x % 2 ^ e < 2 ^ e := Nat.mod_lt _ (Nat.two_pow_pos _)
  have hq : x / 2 ^ e % 2 ^ w < 2 ^ w := Nat.mod_lt _ (Nat.two_pow_pos _)
  have form : ∀ a b c k : Nat, a < 2 ^ e → b < 2 ^ w → (a + b * 2 ^ e + c * 2 ^ (e + w)).testBit k =
      if k < e then a.testBit k else if k < e + w then b.testBit (k - e) else c.testBit (k - (e + w)) := by
    intro a b c k ha hb
    have e1 : a + b * 2 ^ e + c * 2 ^ (e + w) = 2 ^ e * (2 ^ w * c + b) + a := by rw [Nat.pow_add]; ring
    rw [e1, Nat.testBit_two_pow_mul_add _ ha]
    split
    · rfl
    · next hk =>
      rw [Nat.testBit_two_pow_mul_add _ hb]
      split
      · rw [if_pos (by omega)]
      · rw [if_neg (by omega)]
        congr 1
        omega
  have hy : x - x / 2 ^ e % 2 ^ w * 2 ^ e + v * 2 ^ e = x % 2 ^ e + v * 2 ^ e + x / 2 ^ (e + w) * 2 ^ (e + w) := by omega
  rw [hy, form _ _ _ _ hm hv]
  by_cases h1 : k < e
  · rw [if_pos h1, if_neg (by omega), Nat.testBit_mod_two_pow]; simp [h1]
  · rw [if_neg h1]
    by_cases h2 : k < e + w
    · rw [if_pos h2, if_pos (by omega)]
    · rw [if_neg h2, if_neg (by omega), Nat.testBit_div_two_pow]
      congr 1
      omega

end Sys2Proof.Machine
end

