-- ==== Sys2Proof/Tests/Slice0.lean ====
section
/-!
SUPPORT. Tests: words of the spec against the decoder, terms that the well-formedness checks refuse, single steps, and for each
statement of Obligations a state and operands that meet its hypotheses.
-/

namespace Sys2Proof.Machine

-- One theorem after another: each evaluates the machine in the kernel.
set_option Elab.async false

/-! ### A state to test on -/

/-- The one strand of a launch, with two threads, about to issue at 0x40_0000 (see `bench`). -/
def bed : State := (bench State.reset).modStrand 2 fun st => { st with threads := st.threads.take 2 }

/-- Its threads. -/
def allLanes : BitVec 32 := 3

/-- `bed` with its strand altered. -/
def bedWith (f : Strand → Strand) : State := bed.modStrand 2 f

/-- What `Ready` asks, as a test. -/
def readyTest (i : Instr) (s : State) (u : Nat) (m : BitVec 32) : Bool :=
  (toRaw i).isSome && (i.faults ++ i.sysFaults).isEmpty && (issuing s == some (u, m)) &&
    (checkFault (s.strand u) i.op i.fields i.uses).isNone &&
    ((List.range 32).all fun j => !m.getLsbD j || (!((s.strand u).thread j).exited && ((s.strand u).thread j).outs.isEmpty)) &&
    (s.strand u).peers.isEmpty &&
    (!isBoundary i.op i.uses || ((s.strand u).cq.isEmpty && (s.strand u).stFaults.isEmpty)) &&
    (!converges i.op i.fields || (m == (s.strand u).liveMask)) && queuesReady (s.strand u) i.uses && (s.strand u).sound

theorem ready_of_test {i : Instr} {s : State} {u : Nat} {m : BitVec 32} (h : readyTest i s u m = true) : Ready i s u m := by
  unfold readyTest at h
  simp only [Bool.and_eq_true, Bool.or_eq_true, Bool.not_eq_true', List.isEmpty_iff, beq_iff_eq, Option.isNone_iff_eq_none,
    List.all_eq_true, List.mem_range, Option.isSome_iff_exists] at h
  obtain ⟨⟨⟨⟨⟨⟨⟨⟨⟨⟨r, h1⟩, h2⟩, h3⟩, h4⟩, h5⟩, h6⟩, h7⟩, h8⟩, h9⟩, h10⟩ := h
  have hlt : ∀ j, m.getLsbD j = true → j < 32 := fun j hj => by
    by_contra hc
    rw [BitVec.getLsbD_of_ge _ _ (by omega)] at hj
    cases hj
  refine ⟨?_, h2, h3, h4, fun j hj => ?_, fun j hj => ?_, h6, fun hb => ?_, fun hc => ?_, h9, h10⟩
  · unfold Instr.op Instr.fields
    rw [h1]
    rfl
  · rcases h5 j (hlt j hj) with hc | hc
    · rw [hj] at hc; cases hc
    · exact hc.1
  · rcases h5 j (hlt j hj) with hc | hc
    · rw [hj] at hc; cases hc
    · exact hc.2
  · rcases h7 with hc | hc
    · rw [hb] at hc; cases hc
    · exact hc
  · rcases h8 with hf | hf
    · rw [hc] at hf; cases hf
    · exact hf

/-- The instructions of a list are ready on `s`, whose registers are clean, and act in some thread. -/
def readyOn (s : State) (is : List Instr) : Bool :=
  (s.strand 2).clean && is.all fun i => readyTest i s 2 allLanes && !(acting i s 2 allLanes).isEmpty

theorem readyOn_spec {s : State} {is : List Instr} (h : readyOn s is = true) :
    ∀ i ∈ is, Ready i s 2 allLanes ∧ (s.strand 2).clean ∧ acting i s 2 allLanes ≠ [] := by
  unfold readyOn at h
  simp only [Bool.and_eq_true, List.all_eq_true, Bool.not_eq_true', List.isEmpty_eq_false_iff] at h
  exact fun i hi => ⟨ready_of_test (h.2 i hi).1, h.1, (h.2 i hi).2⟩

/-! ### Words of the spec, and words written out bit by bit from its layouts -/

def h1 : Hdr := { form := .w1, bnd := false, pn := false, pg := 7 }
def h3 : Hdr := { h1 with form := .w3 }
def h1l : Hdr := { h1 with form := .w1l }
def h3l : Hdr := { h1 with form := .w3l }

/-- Three words as one number. -/
def words3 (a b c : Nat) : Nat := a + 2 ^ 32 * b + 2 ^ 64 * c

/-- Fields, each a width and a value, from bit 0 on. -/
def packed : List (Nat × Nat) → Nat
  | [] => 0
  | (n, x) :: rest => x % 2 ^ n + 2 ^ n * packed rest

/-- R58: LEN 0, BND 0, OP 0x01, D 3, A 1, B 2, U 0. -/
theorem test_word_iadd : decode false (packed [(2, 0), (1, 0), (7, 1), (7, 3), (7, 1), (7, 2), (1, 0)]) =
    .ok (.iadd { h := h1, z := false, sat := false, rm := 0, tr := 0, la := 0, d := 3, a := 1, b := .v 2, c := 0 }) := by
  decide +kernel

/-- R58: layout BI of SHLI in one word, the value of R125's example. -/
theorem test_word_shli : decode false 0x020214A8 =
    .ok (.shli { (default : Alu) with h := h1, d := 5, a := 1, b := .imm 2 }) := by decide +kernel

/-- R60: FFMA in three words: LEN 1, OP 0x23, D 7, A 10, B 11, C 6, guard 7. -/
theorem test_word_ffma : decode false (words3 (packed [(2, 1), (1, 0), (7, 0x23), (8, 7), (8, 10), (6, 0)])
      (packed [(8, 11), (8, 6), (3, 7), (1, 0), (4, 0), (3, 0), (3, 0), (1, 0), (1, 0)]) 0) =
    .ok (.ffma { (default : Alu) with h := h3, d := 7, a := 10, b := .v 11, c := 6 }) := by decide +kernel

theorem test_word_fdiv : decode false 0x040E2130 =
    .ok (.fdiv { (default : Alu) with h := { h1 with form := .w1 }, d := 8, a := 7, b := .v 4 }) := by decide +kernel

theorem test_word_cvt : decode false (words3 0x000811C9 0x00270000 0x1A) =
    .ok (.cvt { (default : CvtOp) with h := h3, d := 4, a := 2, la := 2, sf := 10, df := 1 }) := by decide +kernel

/-- R146: SMOV of the 32-bit literal 2.5. -/
theorem test_word_smov : decode false (words3 0x1A42 0x40200000 0) =
    .ok (.smov { (default : SmovOp) with h := h1l, d := 6, a := 0, x := 0x40200000 }) := by decide +kernel

theorem test_word_ld : decode false 0x02020B00 =
    .ok (.ld { (default : MemOp) with h := h1, d := 2, a := 1, b := 4, size := 2 }) := by decide +kernel

theorem test_word_sst : decode false (words3 0x00002A61 0x00070008 0x80100D42) =
    .ok (.sst { (default : MemOp) with h := h3, d := 10, a := 0, b := 8, size := 2, cv := true, sync := true, scope := 3, ord := 2, disp := 0x20 }) := by
  decide +kernel

theorem test_word_exit : decode false 0x2C0 = .ok (.exit { h := h1, cv := false }) := by decide +kernel
theorem test_word_rgn : decode false 0x2C8 = .ok (.rgn { h := h1, cv := false }) := by decide +kernel
theorem test_word_trap : decode false 0x16D8 = .ok (.trap { h := h1, code := 5 }) := by decide +kernel
theorem test_word_tret_next : decode false 0x6E0 = .ok (.tretNext { h := h1, cv := false }) := by decide +kernel
theorem test_word_tokp : decode false 0x368 = .ok (.tokp { h := h1, cv := false }) := by decide +kernel
theorem test_word_fence : decode false 0x6B28 = .ok (.fence { h := h1, scope := 3, ord := 1 }) := by decide +kernel
theorem test_word_getc : decode false 0x53D8 = .ok (.getc { (default : GetcOp) with h := h1, d := 20, n := 0 }) := by decide +kernel
theorem test_word_setc : decode false 0x153E0 = .ok (.setc { (default : SetcOp) with h := h1, b := 20, n := 1 }) := by decide +kernel
theorem test_word_wsl : decode false (words3 0xFC1 0x70C0A 0x20) =
    .ok (.wsl { (default : WslOp) with h := h3, d := 3, b := 10, c := 12, key := 2 }) := by decide +kernel
theorem test_word_msync : decode false 0x200093C8 = .ok (.msyncProg { h := h1, cv := false, t := 1, n := 4 }) := by decide +kernel
theorem test_word_sys_scrub : decode true (words3 0x101003E9 0x00070000 5) =
    .ok (.sysScrub { (default : SysOp) with h := h3, a := 4, x := 5 }) := by decide +kernel

/-- R69: step 1, an opcode that does not exist; step 2, SYS outside system mode; step 3, a form that the opcode lacks. -/
theorem test_reserved_refused :
    decode false 0x3F0 = .error (.illOpcode 0) ∧ decode true 0x3F8 = .error (.illOpcode 0) ∧
    decode false (words3 0x001003E9 0x70000 0) = .error (.priv 0) ∧
    decode false (packed [(2, 0), (1, 0), (7, 0x39), (22, 0)]) = .error (.illOpcode 2) := by decide +kernel

/-! ### Well-formedness -/

/-- The check of the field at position p refuses i. -/
def refuses (i : Instr) (p : Nat) : Bool := (i.faults ++ i.sysFaults).contains p

def aluA : Alu := { (default : Alu) with h := h1, d := 3, a := 1, b := .v 2 }
def aluB : Alu := { aluA with h := h3 }

/-- Forms, guard, attributes and register fields (R53, R60, R61, R62), and the sources of R64. -/
theorem test_wf_alu :
    (Instr.iadd aluA).WF ∧ (Instr.iadd { aluB with sat := true, z := true, tr := 5 }).WF ∧
    ([(.iadd { aluA with h := { h1 with pg := 2 } }, 48), (.iadd { aluA with h := { h1 with pn := true } }, 51),
      (.iadd { aluB with h := { h3 with pg := 8 } }, 48), (.iadd { aluB with rm := 1 }, 59), (.iadd { aluB with tr := 6 }, 56),
      (.iadd { aluA with sat := true }, 62), (.iadd { aluB with la := 1 }, 52), (.iadd { aluA with z := true }, 26),
      (.iadd { aluA with d := 128 }, 10), (.iadd { aluB with a := 256 }, 18), (.iadd { aluA with b := .v 128 }, 24),
      (.iadd { aluB with b := .s 256 }, 32), (.iadd { aluA with b := .imm 0 }, 32), (.iadd { aluA with h := h1l }, 32),
      (.iadd { aluA with b := .wide 0 }, 24), (.iadd { aluA with c := 1 }, 40), (.imad { aluA with c := 4 }, 40),
      (.popc { (default : Un) with h := h1l }, 0), (.frcp { (default : Un) with h := h3, la := 16 }, 52),
      (.fadd { aluB with rm := 7 }, 59), (.dadd { aluA with h := h1l, b := .imm 0 }, 24), (.dfma { aluA with c := 4 }, 40),
      (.iaddi { aluA with b := .imm 128 }, 24), (.shli { aluB with b := .imm 32 }, 64), (.shri { aluA with h := h1l, b := .imm 1 }, 0)] : List (Instr × Nat)).all
      fun x => refuses x.1 x.2 := by
  refine ⟨by unfold Instr.WF; decide +kernel, by unfold Instr.WF; decide +kernel, by decide +kernel⟩

/-- The checks of R127 to R135 and R138 to R144. -/
theorem test_wf_vector :
    ([(.lea { (default : LeaOp) with h := h3, sc := 5 }, 26), (.lea { (default : LeaOp) with h := h1, b := 3 }, 24),
      (.lea { (default : LeaOp) with h := h1, disp := 1 }, 64), (.lea { (default : LeaOp) with h := h3l, disp := 2 ^ 56 }, 152),
      (.icmp { (default : CmpOp) with h := h1, b := .v 0, cond := 10 }, 13), (.fcmp { (default : CmpOp) with h := h1, b := .v 0, dbl := true }, 30),
      (.icmp { (default : CmpOp) with h := h1, b := .v 0, d := 8 }, 10), (.sel { (default : SelOp) with h := h1, b := .v 0, p := 8 }, 29),
      (.movs { (default : MovsOp) with h := h1, b := 128 }, 24), (.movl { (default : MovlOp) with h := h1 }, 0),
      (.movl { (default : MovlOp) with h := h1l, lit := 2 ^ 32 }, 64), (.shfl { (default : ShflOp) with h := h1, mode := 4, amt := .imm 0 }, 30),
      (.shfl { (default : ShflOp) with h := h3, amt := .imm 32 }, 64), (.shfl { (default : ShflOp) with h := h1, amt := .v 1 }, 32),
      (.scan { (default : ScanOp) with h := h3, op := 11 }, 26), (.scan { (default : ScanOp) with h := h3, op := 1, rm := 6 }, 59),
      (.sread { (default : SreadOp) with h := h1, sel := 0x18 }, 17), (.sread { (default : SreadOp) with h := h3, u := true, sel := 0 }, 64),
      (.fclass { (default : FclassOp) with h := h1, mask := 1024 }, 22), (.fclass { (default : FclassOp) with h := h1, dbl := true }, 26),
      (.cvt { (default : CvtOp) with h := h1 }, 0), (.cvt { (default : CvtOp) with h := h3, sf := 15 }, 64), (.cvt { (default : CvtOp) with h := h3, df := 15 }, 68),
      (.cvt { (default : CvtOp) with h := h3, se := 1 }, 72), (.cvt { (default : CvtOp) with h := h3, df := 2, de := 2 }, 75),
      (.cvt { (default : CvtOp) with h := h3, sb := 1 }, 78), (.cvt { (default : CvtOp) with h := h3, c := 1 }, 40), (.cvt { (default : CvtOp) with h := h3, df := 14, rm := 6 }, 59),
      (.dot4 { (default : DotOp) with h := h3, b := .v 0, fa := 3 }, 84), (.dot8 { (default : DotOp) with h := h3, b := .v 0, fb := 1 }, 86),
      (.dot4 { (default : DotOp) with h := h3, b := .v 0, bsa := 4 }, 80), (.dot4 { (default : DotOp) with h := h3, b := .v 0, srb := 256 }, 72),
      (.wupd { (default : WupdOp) with h := h3, g := 8 }, 64), (.wupd { (default : WupdOp) with h := h3, negv := 8 }, 68), (.wupd { (default : WupdOp) with h := h3, zden := 8 }, 72),
      (.rand { (default : RandOp) with h := h1l }, 0)] : List (Instr × Nat)).all fun x => refuses x.1 x.2 := by decide +kernel

/-- The checks of R145 to R177. -/
theorem test_wf_uniform :
    ([(.sadd { (default : SAlu) with h := h1, b := .s 0, cv := true }, 95), (.sand { (default : SAlu) with h := h3, b := .s 0, ar := true }, 28),
      (.sadd { (default : SAlu) with h := h1, b := .s 0, b64 := true }, 27), (.sadd { (default : SAlu) with h := h1, b := .v 0 }, 22),
      (.sadd { (default : SAlu) with h := h1, b := .s 64 }, 22), (.smov { (default : SmovOp) with h := h1, wide := true }, 27),
      (.smov { (default : SmovOp) with h := h1, x := 512 }, 22), (.smov { (default : SmovOp) with h := h3, x := 2 ^ 31 }, 64),
      (.scmp { (default : ScmpOp) with h := h3, b := .s 0, cond := 16 }, 26), (.ssel { (default : SselOp) with h := h1, b := .s 0, k := 8 }, 28),
      (.vtos { (default : VtosOp) with h := h3, mode := 8 }, 26), (.vtos { (default : VtosOp) with h := h1, ty := 1 }, 29),
      (.vtos { (default : VtosOp) with h := h1, kf := 1 }, 26), (.vote { (default : VoteOp) with h := h1, mode := 3 }, 29),
      (.ballot { (default : BallotOp) with h := h1, p := 8 }, 16), (.plop { (default : LopOp) with h := h1, cv := true }, 31),
      (.klop { (default : LopOp) with h := h1, fn := 16 }, 19), (.sbra { (default : BraOp) with h := h1 }, 14), (.bra { (default : BraOp) with h := h3, cv := true }, 26),
      (.bra { (default : BraOp) with h := h1, off := 0x10000 }, 15), (.jmp { h := h1l, target := .wide 2 }, 32), (.jmp { h := h1l, target := .wide (2 ^ 56) }, 88),
      (.callr { h := h1l, target := .wide 0 }, 88), (.jmp { h := h1, target := .imm 0 }, 18), (.exit { h := h1, cv := true }, 31),
      (.rgn { h := { h3 with pg := 0 }, cv := false }, 48), (.guardOpen { h := h1, p := false, off := 0x10000 }, 15),
      (.trap { h := h1, code := 2 ^ 16 }, 10), (.chkerr { (default : ChkOp) with h := h1, mask := 16 }, 10), (.chkerr { (default : ChkOp) with h := h3, k := 8 }, 10),
      (.tagGet { (default : TagOp) with h := h1, b := .v 1 }, 24), (.tagMint { (default : TagOp) with h := h3, b := .s 0 }, 63)] : List (Instr × Nat)).all
      fun x => refuses x.1 x.2 := by decide +kernel

/-- The checks of R148, R179, R189 to R207 and R216 to R238. -/
theorem test_wf_memory :
    ([(.ld { (default : MemOp) with h := h1, size := 3 }, 64), (.ld { (default : MemOp) with h := h3, size := 5 }, 64), (.ld { (default : MemOp) with h := h3, sc := 5 }, 67),
      (.st { (default : MemOp) with h := h3, sync := true, ord := 1 }, 71), (.ld { (default : MemOp) with h := h3, scope := 1 }, 70), (.ld { (default : MemOp) with h := h3, sync := true, scope := 6 }, 74),
      (.st { (default : MemOp) with h := h3, sx := true }, 77), (.ld { (default : MemOp) with h := h3, sync := true, rmt := true }, 78), (.ld { (default : MemOp) with h := h3, cv := true }, 95),
      (.sld { (default : MemOp) with h := h3, pd := true }, 26), (.st { (default : MemOp) with h := h3, la := 1 }, 52), (.sst { (default : MemOp) with h := h1, size := 2, b := 1 }, 16),
      (.atom { (default : AtomOp) with h := h3, size := 2, op := 12 }, 26), (.atom { (default : AtomOp) with h := h3, size := 1 }, 64), (.red { (default : AtomOp) with h := h3, size := 2, d := 1 }, 10),
      (.red { (default : AtomOp) with h := h3, size := 2, ord := 1 }, 71), (.cas { (default : AtomOp) with h := h3, size := 2, rmt := true }, 78), (.atom { (default : AtomOp) with h := h3, size := 3, op := 5 }, 26),
      (.fence { h := h1, scope := 6, ord := 0 }, 13), (.fence { h := h3, scope := 0, ord := 4 }, 29), (.bari { (default : BariOp) with h := h1, disp := 4 }, 79),
      (.barv { (default : BarvOp) with h := h3, a := 1, icount := 1 }, 64), (.barv { (default : BarvOp) with h := h3, c := 1 }, 40), (.barw { (default : BarwOp) with h := h1, d := 8 }, 10),
      (.cpyFromPort { (default : CpyOp) with h := h3, a := 2 }, 18), (.cpyToPort { (default : CpyOp) with h := h3, d := 2 }, 10), (.cpyMemory { (default : CpyOp) with h := h3, scope := 1 }, 76),
      (.cpyMemory { (default : CpyOp) with h := h3, stream := 0xFFF }, 64), (.cseal { h := h1, cv := false, r := 64 }, 10), (.cwait { h := h1, cv := false, r := 64 }, 16),
      (.mail { (default : MailOp) with h := h3, a := 8 }, 18), (.emit { (default : EmitOp) with h := h1 }, 0),
      (.mma { (default : MmaOp) with h := h3, a := 8, b := 16, syn := 3 }, 84), (.mma { (default : MmaOp) with h := h3, a := 12, b := 16 }, 18), (.mma { (default : MmaOp) with h := h3, a := 8, b := 64 }, 32),
      (.mma { (default : MmaOp) with h := h3, a := 8, b := 16, c := 2 }, 40), (.mma { (default : MmaOp) with h := h3, a := 8, b := 16, nb := 40 }, 68), (.mmd { (default : MmaOp) with h := h3, a := 8, b := 16, c := 24, kb := 16 }, 74),
      (.accz { (default : AcczOp) with h := h1, t := 4 }, 20), (.accld { (default : AccldOp) with h := h3, a := 0 }, 18), (.accst { (default : AccstOp) with h := h3, d := 8, rm := 6 }, 59),
      (.accst { (default : AccstOp) with h := h3, q := true, d := 8 }, 10), (.accrd { (default : AccrdOp) with h := h3, sel := 3 }, 26), (.accrd { (default : AccrdOp) with h := h3, sel := 1, nb := 1 }, 68),
      (.smx { (default : SmxOp) with h := h3, db := 40 }, 74), (.msyncProg { h := h1, cv := false, t := 4, n := 0 }, 15), (.msyncAll { h := h3, cv := false, t := 0, n := 17 }, 64),
      (.wsl { (default : WslOp) with h := h3, dst := 3 }, 64), (.wsl { (default : WslOp) with h := h3, dst := 1, c := 2 }, 40), (.launch { (default : LaunchOp) with h := h3l, lit := 2 }, 96),
      (.launch { (default : LaunchOp) with h := h3, lit := 1 }, 96)] : List (Instr × Nat)).all fun x => refuses x.1 x.2 := by decide +kernel

/-- The checks of R34 and R207. -/
theorem test_wf_control :
    ([(.getc { (default : GetcOp) with h := h1, n := 0x0D }, 16), (.getc { (default : GetcOp) with h := h3, n := 0x46 }, 18), (.getc { (default : GetcOp) with h := h1, la := 1 }, 52),
      (.setc { (default : SetcOp) with h := h1, n := 4 }, 16), (.setc { (default : SetcOp) with h := h1, m := true }, 26), (.setc { (default : SetcOp) with h := h3, c := 2 }, 40),
      (.setcCrew { (default : SetcOp) with h := h1, n := 5 }, 16), (.setcQmap { (default : SetcOp) with h := h1, n := 5 }, 16), (.setcStfq { (default : SetcOp) with h := h1, n := 5 }, 16),
      (.sysReplay { (default : SysOp) with h := h3, x := 1 }, 64), (.sysReplayTok { (default : SysOp) with h := h3 }, 64), (.sysTlbinv { (default : SysOp) with h := h3, a := 2, x := 1 }, 18),
      (.sysDiagst { (default : SysOp) with h := h3, x := 3 }, 64), (.sysDiagst { (default : SysOp) with h := h3, d := 1 }, 10), (.sysDiagld { (default : SysOp) with h := h3, b := 1 }, 32),
      (.sysScrub { (default : SysOp) with h := h3, x := 6 }, 64), (.sysWorld { (default : SysOp) with h := h3, c := 1 }, 40), (.sysHalt { (default : SysOp) with h := h3, a := 1 }, 18),
      (.sysHalt { (default : SysOp) with h := h1 }, 0)] : List (Instr × Nat)).all fun x => refuses x.1 x.2 := by decide +kernel

/-! ### Help for the witnesses -/

theorem slotOpen_of {s : State} {u off n : Nat}
    (h : (decide (0 < n) && decide ((slotVA s (s.strand u) + off) % 4096 + n ≤ 4096) &&
      (devLoc s (s.ctxOf (s.strand u)) (slotVA s (s.strand u) + off) n true).isSome) = true) : SlotOpen s u off n := by
  simp only [Bool.and_eq_true, decide_eq_true_eq] at h
  obtain ⟨⟨hn, hp⟩, hs⟩ := h
  intro bs hl
  subst hl
  have hne : bs.isEmpty = false := by cases bs <;> simp_all
  have hlt : bs.length / 4096 + 2 = (bs.length / 4096 + 1) + 1 := rfl
  unfold devPut
  rw [hlt, pageCuts, if_neg (by simp [hne])]
  have ht : bs.take (4096 - (slotVA s (s.strand u) + off) % 4096) = bs := List.take_of_length_le (by omega)
  have hd : bs.drop (4096 - (slotVA s (s.strand u) + off) % 4096) = [] := List.drop_eq_nil_of_le (by omega)
  simp only [ht, hd, pageCuts, List.isEmpty_nil, if_true]
  obtain ⟨r, hr⟩ := Option.isSome_iff_exists.1 hs
  simp [hr, List.foldlM_cons]

theorem errorTold_of {s : State} {u : Nat}
    (h : (deliverOnce s (s.ctxOf (s.strand u)) 2 []).2.2 = true) : ErrorTold s u := by
  intro bs hb
  have he : (deliverOnce s (s.ctxOf (s.strand u)) 2 bs).2.2 = true := by
    rw [← h]
    unfold deliverOnce
    repeat' split
    all_goals first | rfl | simp_all
  unfold deliverQuiet
  rw [hb]
  simpa using he

/-- The frame of a trap can be written. -/
def frameOk (s : State) (u : Nat) : Bool :=
  decide ((slotVA s (s.strand u) + 0x400) % 4096 + 256 ≤ 4096) && (devLoc s (s.ctxOf (s.strand u)) (slotVA s (s.strand u) + 0x400) 256 true).isSome

theorem frameOk_open {s : State} {u : Nat} (h : frameOk s u = true) : SlotOpen s u 0x400 256 := by
  apply slotOpen_of
  unfold frameOk at h
  simpa using h

/-- What `Traps` asks, as a test. -/
def trapReady (s : State) (u : Nat) : Bool := (s.strand u).trap.isNone && ((s.strand u).ctl.tvec != 0) && !(s.mints u) && frameOk s u

/-- `bed` with a handler, and `bed` in trap mode. -/
def bedH : State := bedWith fun st => { st with ctl := { st.ctl with tvec := 0x500000 } }
def bedT : State := bedWith fun st => { st with trap := some { (default : TrapState) with frag := allLanes, cause := 0x60 }, threads := st.threads.map fun t => { t with inTrap := true } }

theorem bedH_traps : trapReady bedH 2 = true := by decide +kernel
theorem bed_told : ErrorTold bed 2 := errorTold_of (by decide +kernel)

/-! ### Witnesses: instructions that are ready on `bed`, with clean registers, and act -/

def unA : Un := { (default : Un) with h := h1, d := 3, a := 1 }
def saluA : SAlu := { (default : SAlu) with h := h1, d := 6, a := 4, b := .s 5 }
def saluB : SAlu := { saluA with h := h3, b64 := true, d := 8, a := 10, b := .s 12 }

theorem witness_IntegerInstructionsGiveTheirResults_arithmetic :
    ∀ i ∈ ([.iadd aluA, .isub { aluB with sat := true }, .imul { aluB with z := true }, .imad { aluB with c := 7 }, .imulh aluB, .imin aluB,
      .imax { aluA with d := 0 }, .iaddi { aluA with b := .imm 127 }, .iaddi { aluA with h := h1l, b := .imm 0x80000000 }] : List Instr),
      Ready i bed 2 allLanes ∧ (bed.strand 2).clean ∧ acting i bed 2 allLanes ≠ [] := readyOn_spec (by decide +kernel)

theorem witness_IntegerInstructionsGiveTheirResults_logic :
    ∀ i ∈ ([.and aluA, .or aluB, .xor aluB, .andn aluA, .andi { aluA with b := .imm 127 }, .shl aluA, .shr aluA, .sar { aluB with b := .s 4 }, .rot aluA,
      .shli { aluA with b := .imm 31 }, .shri { aluA with b := .imm 0 }, .popc unA, .clz unA, .brev { unA with h := h3, a := 247 }] : List Instr),
      Ready i bed 2 allLanes ∧ (bed.strand 2).clean ∧ acting i bed 2 allLanes ≠ [] := readyOn_spec (by decide +kernel)

theorem witness_MovesSelectAndLea :
    ∀ i ∈ ([.mov unA, .movs { (default : MovsOp) with h := h1, d := 3, b := 63 }, .movl { (default : MovlOp) with h := h1l, d := 3, lit := 5 },
      .movl { (default : MovlOp) with h := h1l, wide := true, d := 4, lit := 2 ^ 40 }, .sel { (default : SelOp) with h := h1, d := 3, a := 1, b := .v 2, p := 7 },
      .lea { (default : LeaOp) with h := h1, d := 4, a := 1, b := 4, sc := 2 }] : List Instr),
      Ready i bed 2 allLanes ∧ (bed.strand 2).clean ∧ acting i bed 2 allLanes ≠ [] := readyOn_spec (by decide +kernel)

theorem witness_ComparesWritePredicates :
    ∀ i ∈ ([.icmp { (default : CmpOp) with h := h1, cond := 9, d := 1, a := 1, b := .v 2 }, .fcmp { (default : CmpOp) with h := h1, cond := 7, d := 7, a := 1, b := .v 2 },
      .fcmp { (default : CmpOp) with h := h3, dbl := true, cond := 0, d := 1, a := 2, b := .v 4 }, .fclass { (default : FclassOp) with h := h1, mask := 1023, d := 1, a := 1 },
      .plop { (default : LopOp) with h := h1, fn := 15, d := 1, a := 2, b := 3 }] : List Instr),
      Ready i bed 2 allLanes ∧ (bed.strand 2).clean ∧ acting i bed 2 allLanes ≠ [] := readyOn_spec (by decide +kernel)

theorem witness_ShuffleAndScan_shfl :
    ∀ i ∈ ([.shfl { (default : ShflOp) with h := h1, mode := 0, d := 3, a := 1, amt := .imm 31 }, .shfl { (default : ShflOp) with h := h3, mode := 3, d := 3, a := 1, amt := .v 2 }] : List Instr),
      Ready i bed 2 allLanes ∧ (bed.strand 2).clean ∧ acting i bed 2 allLanes ≠ [] := readyOn_spec (by decide +kernel)

theorem witness_ShuffleAndScan_scan :
    (∀ i ∈ ([.scan { (default : ScanOp) with h := h1, op := 1, d := 3, a := 1 }, .scan { (default : ScanOp) with h := h3, op := 10, excl := true, d := 3, a := 1 }] : List Instr),
      Ready i bed 2 allLanes ∧ (bed.strand 2).clean ∧ acting i bed 2 allLanes ≠ []) ∧ draws bed 2 0 = false ∧ (bed.strand 2).fpTrap 0 = none :=
  ⟨readyOn_spec (by decide +kernel), by decide +kernel, by decide +kernel⟩

theorem witness_IdentityAndGeneratorReads_sread :
    ∀ i ∈ ([.sread { h := h1, u := false, sel := 0, d := 3 }, .sread { h := h1, u := true, sel := 0x10, d := 4 }, .sread { h := h3, u := false, sel := 0x17, d := 4 }] : List Instr),
      Ready i bed 2 allLanes ∧ (bed.strand 2).clean ∧ acting i bed 2 allLanes ≠ [] := readyOn_spec (by decide +kernel)

theorem witness_SinglePrecision_arithmetic :
    (∀ i ∈ ([.fadd aluA, .fsub aluB, .fmul { aluB with rm := 6 }, .ffma { aluB with c := 6 }, .fdiv { aluB with la := 1 }, .fsqrt unA, .frcp unA, .frsq unA, .fex2 unA, .flg2 unA,
      .fsin unA, .fcos unA] : List Instr), Ready i bed 2 allLanes ∧ (bed.strand 2).clean ∧ acting i bed 2 allLanes ≠ []) ∧
    (List.range 32).all (fun f => (bed.strand 2).fpTrap f == none) = true := ⟨readyOn_spec (by decide +kernel), by decide +kernel⟩

theorem witness_SinglePrecision_selection :
    ∀ i ∈ ([.fmin aluA, .fmax aluB, .fscl aluA, .frnd { unA with h := h3, rm := 6 }] : List Instr),
      Ready i bed 2 allLanes ∧ (bed.strand 2).clean ∧ acting i bed 2 allLanes ≠ [] := readyOn_spec (by decide +kernel)

theorem witness_DoubleAndPackedArithmetic :
    ∀ i ∈ ([.dadd { aluA with d := 6, a := 2, b := .v 4 }, .dmul { aluA with h := h1l, d := 6, a := 2, b := .wide 5 }, .dfma { aluB with d := 6, a := 2, b := .v 4, c := 8 },
      .hadd2 aluA, .hmul2 aluA, .hfma2 aluB, .badd2 aluA, .bmul2 aluA, .bfma2 aluB] : List Instr),
      Ready i bed 2 allLanes ∧ (bed.strand 2).clean ∧ acting i bed 2 allLanes ≠ [] := readyOn_spec (by decide +kernel)

/-- Both clauses at their bounds: an element of 4 bits, of 16 bits, and a whole word of 32 bits. -/
theorem witness_CvtConvertsOneElement :
    ∀ i ∈ ([.cvt { (default : CvtOp) with h := h3, d := 3, a := 1, sf := 1, df := 14, de := 7, c := 2 }, .cvt { (default : CvtOp) with h := h3, d := 3, a := 1, sf := 1, df := 2, de := 1 },
      .cvt { (default : CvtOp) with h := h3, d := 3, a := 1, sf := 10, df := 1, rm := 6 }] : List Instr),
      Ready i bed 2 allLanes ∧ (bed.strand 2).clean ∧ acting i bed 2 allLanes ≠ [] := readyOn_spec (by decide +kernel)

theorem witness_NarrowDotProductsRoundOnce :
    ∀ i ∈ ([.dot4 { (default : DotOp) with h := h3, d := 3, a := 1, b := .v 2, c := 4, fa := 2 }, .dot8 { (default : DotOp) with h := h3, d := 3, a := 1, b := .s 2, c := 4, sra := 2, bsb := 3 }] : List Instr),
      Ready i bed 2 allLanes ∧ (bed.strand 2).clean ∧ acting i bed 2 allLanes ≠ [] := readyOn_spec (by decide +kernel)

theorem witness_WupdUpdatesTheQuad :
    ∀ i ∈ ([.wupd { (default : WupdOp) with h := h3, d := 4, a := 1, g := 1, negv := 2, zden := 3 }] : List Instr),
      Ready i bed 2 allLanes ∧ (bed.strand 2).clean ∧ acting i bed 2 allLanes ≠ [] := readyOn_spec (by decide +kernel)

theorem witness_IdentityAndGeneratorReads_rand :
    ∀ i ∈ ([.rand { (default : RandOp) with h := h1, d := 3 }, .rand { (default : RandOp) with h := h3, f := true, d := 3 }] : List Instr),
      Ready i bed 2 allLanes ∧ (bed.strand 2).clean ∧ acting i bed 2 allLanes ≠ [] := readyOn_spec (by decide +kernel)

theorem witness_UniformInstructions_arithmetic :
    ∀ i ∈ ([.sadd saluA, .ssub saluB, .smul { saluB with sat := true }, .sand saluA, .sor saluA, .sxor saluA, .sshl saluB, .sshr { saluB with ar := true }] : List Instr),
      Ready i bed 2 allLanes ∧ (bed.strand 2).clean ∧ acting i bed 2 allLanes ≠ [] := readyOn_spec (by decide +kernel)

theorem witness_UniformInstructions_moves :
    ∀ i ∈ ([.smov { (default : SmovOp) with h := h1, d := 6, x := 511 }, .smov { (default : SmovOp) with h := h3, wide := true, d := 6, x := 5 },
      .ssel { (default : SselOp) with h := h1, d := 6, a := 4, b := .s 5, k := 1 }, .scmp { (default : ScmpOp) with h := h1, cond := 9, d := 1, a := 4, b := .s 5 },
      .scmp { (default : ScmpOp) with h := h1, cond := 15, d := 1, a := 4, b := .s 5 }] : List Instr),
      Ready i bed 2 allLanes ∧ (bed.strand 2).clean ∧ acting i bed 2 allLanes ≠ [] := readyOn_spec (by decide +kernel)

/-- Every mode, with the element types at their bounds. -/
theorem witness_VtosReduces :
    (∀ i ∈ ((List.range 8).flatMap fun k => (if k = 4 ∨ k = 5 ∨ k = 6 then [0, 1, 2] else [0]).map fun ty =>
        (.vtos { (default : VtosOp) with h := h1, mode := k, ty := ty, d := 10, a := 3 } : Instr)),
      Ready i bed 2 allLanes ∧ (bed.strand 2).clean ∧ acting i bed 2 allLanes ≠ []) ∧ draws bed 2 0 = false := ⟨readyOn_spec (by decide +kernel), by decide +kernel⟩

theorem witness_VotesBallotsAndKlop :
    ∀ i ∈ ([.vote { (default : VoteOp) with h := h1, mode := 2, d := 1, p := 2 }, .ballot { (default : BallotOp) with h := h1, d := 10, p := 2 },
      .klop { (default : LopOp) with h := h1, fn := 8, d := 1, a := 2, b := 3 }] : List Instr),
      Ready i bed 2 allLanes ∧ (bed.strand 2).clean ∧ acting i bed 2 allLanes ≠ [] := readyOn_spec (by decide +kernel)

theorem witness_BranchesMoveTheirThreads :
    (∀ i ∈ ([.bra { (default : BraOp) with h := h1, off := 0xFFFFFFFB }, .sbra { (default : BraOp) with h := h1, k := true, off := 16 }, .jmp { h := h1, target := .v 2 },
      .jmp { h := h1, target := .s 2 }, .jmp { h := h1l, target := .wide 0x400000 }] : List Instr),
      Ready i bed 2 allLanes ∧ (bed.strand 2).clean ∧ acting i bed 2 allLanes ≠ []) ∧
    ∀ j ∈ acting (.jmp { h := h1, target := .v 2 }) bed 2 allLanes, addrFault (srcOpd (.jmp { h := h1, target := .v 2 }) bed 2 allLanes j (.v 2) 2).val 4 = none :=
  ⟨readyOn_spec (by decide +kernel), by decide +kernel⟩

def nop1 : NoOp := { h := h1, cv := false }

/-- `bed` with n return addresses on each stack. -/
def bedStack (n : Nat) : State := bedWith fun st => { st with ctl := { st.ctl with tvec := 0x500000 }, threads := st.threads.map fun t => { t with stack := List.replicate n 0x100040, spilled := n - 8 } }

/-- Stacks of 8 entries, the oldest of which is moved to memory; of 64, where a call traps; of one, and empty, where a return traps. -/
theorem witness_CallsAndReturnsUseTheStack :
    (∀ i ∈ ([.call { (default : BraOp) with h := h1, k := true, off := 16 }, .callr { h := h1, target := .s 2 }] : List Instr),
      (Ready i (bedStack 8) 2 allLanes ∧ ((bedStack 8).strand 2).clean ∧ acting i (bedStack 8) 2 allLanes ≠ []) ∧
      (∀ j ∈ acting i (bedStack 8) 2 allLanes, (((bedStack 8).strand 2).thread j).stack.length = 8) ∧
      (spilledStacks (entered i (bedStack 8) 2 allLanes) 2 (acting i (bedStack 8) 2 allLanes)).isSome = true) ∧
    (readyOn (bedStack 64) [.call { (default : BraOp) with h := h1, k := true, off := 16 }] = true ∧ (((bedStack 64).strand 2).thread 0).stack.length = 64 ∧ trapReady (bedStack 64) 2 = true) ∧
    (readyOn (bedStack 1) [.ret nop1] = true ∧ (((bedStack 1).strand 2).thread 1).stack.length = 1) ∧ readyOn bedH [.ret nop1] = true := by
  refine ⟨fun i hi => ⟨readyOn_spec (is := [.call { (default : BraOp) with h := h1, k := true, off := 16 }, .callr { h := h1, target := .s 2 }]) (by decide +kernel) i hi, ?_⟩, by decide +kernel, by decide +kernel, by decide +kernel⟩
  revert i
  decide +kernel

def h3p : Hdr := { h3 with pg := 0 }

/-- Lane 0 alone has p0. -/
def bedP : State := bedWith fun st => { st with threads := st.threads.map fun t => if t.lane = 0 then { t with p := 0x81 } else t }

/-- A strand that owes nothing to a region, an engine or a boundary. -/
def settledTest (s : State) : Bool :=
  let st := s.strand 2
  st.buf.isEmpty && st.redraw.isEmpty && st.cq.isEmpty && st.unacked.isEmpty && !(enginesOwed s 2) && st.stFaults.isEmpty && st.cpFaults.isEmpty && st.mtFaults.isEmpty &&
    st.wsFaults.isEmpty && ((List.range 32).all fun j => (st.thread j).outs.isEmpty)

/-- One thread of two exits; both exit; they exit in a handler. -/
theorem witness_ExitEndsThreads :
    (readyOn bedP [.exit { nop1 with h := h3p }] = true ∧ acting (.exit { nop1 with h := h3p }) bedP 2 allLanes = [0] ∧ (bedP.strand 2).liveMask = allLanes ∧ (bedP.strand 2).trap = none) ∧
    (readyOn bed [.exit nop1] = true ∧ acting (.exit nop1) bed 2 allLanes = [0, 1] ∧ settledTest bed = true ∧ isDet (bed.launch (bed.strand 2).launch) = false ∧ (bed.strand 2).trap = none) ∧
    (readyOn bedT [.exit nop1] = true ∧ (bedT.strand 2).trap.isSome = true) ∧ ErrorTold (entered (.exit nop1) bedT 2 allLanes) 2 :=
  ⟨by decide +kernel, by decide +kernel, by decide +kernel, errorTold_of (by decide +kernel)⟩

def guardA : GuardOp := { h := h1, p := true, off := 40 }
/-- `bedH` with n open spans. -/
def bedSpans (n : Nat) : State := bedWith fun st => { st with ctl := { st.ctl with tvec := 0x500000 }, spans := List.replicate n ⟨0x100100, true, []⟩ }

theorem witness_RegionsAndSpans :
    readyOn bed [.nop false, .nop true, .rgn nop1, .guardOpen guardA] = true ∧ readyOn (bedSpans 3) [.guardOpen guardA, .guardClose nop1] = true ∧ ((bedSpans 3).strand 2).spans.length = 3 ∧
    (readyOn (bedSpans 4) [.guardOpen guardA] = true ∧ trapReady (entered (.guardOpen guardA) (bedSpans 4) 2 allLanes) 2 = true) ∧
    (readyOn bedH [.guardClose nop1] = true ∧ trapReady (entered (.guardClose nop1) bedH 2 allLanes) 2 = true) := by
  refine ⟨by decide +kernel, by decide +kernel, by decide +kernel, by decide +kernel, by decide +kernel⟩

def chkA : ChkOp := { (default : ChkOp) with h := h1, k := 1, mask := 15, t := true }
def bedChk (x : BitVec 64) : State := bedWith fun st => { st with ctl := { st.ctl with tvec := 0x500000, chki := x } }

theorem witness_ChkerrAndDrain :
    readyOn bed [.chkerr chkA, .drain nop1] = true ∧ settledTest bed = true ∧ readyOn (bedChk 8) [.chkerr { chkA with t := false, clr := true }] = true ∧
    readyOn (bedChk 8) [.chkerr chkA] = true ∧ ((bedChk 8).creg 2 3).toNat % 16 &&& 15 = 8 ∧ trapReady (entered (.chkerr chkA) (bedChk 8) 2 allLanes) 2 = true := by
  refine ⟨by decide +kernel, by decide +kernel, by decide +kernel, by decide +kernel, by decide +kernel, by decide +kernel⟩

def tagA : TagOp := { h := h1, d := 3, a := 1, b := .v 0 }
/-- v2 holds a value that is no tag; births are minted where `x` says so. -/
def bedTag (x : BitVec 64) : State := bedWith fun st => { st with ctl := { st.ctl with tvec := 0x500000, tctl := x }, threads := st.threads.map fun t => { t with v := [(2, { val := 1, tag := 0 })] } }

theorem witness_TagOperations :
    readyOn bed [.tagGet tagA, .tagSet { tagA with b := .v 2 }, .tagMint tagA] = true ∧ bed.mints 2 = false ∧
    (readyOn (bedTag 0) [.tagSet { tagA with b := .v 2 }] = true ∧ (srcOpd (.tagSet { tagA with b := .v 2 }) (bedTag 0) 2 allLanes 1 (.v 2) 1).w = 1 ∧ trapReady (bedTag 0) 2 = true) ∧
    readyOn (bedTag 0x13) [.tagMint tagA] = true ∧ (bedTag 0x13).mints 2 = true := by
  refine ⟨by decide +kernel, by decide +kernel, by decide +kernel, by decide +kernel, by decide +kernel⟩

/-- A handler; no handler; in the handler. -/
theorem witness_TrapEntersTheHandler :
    (readyOn bedH [.trap { h := h1, code := 5 }] = true ∧ trapReady (entered (.trap { h := h1, code := 5 }) bedH 2 allLanes) 2 = true) ∧
    (readyOn bed [.trap { h := h1, code := 65535 / 64 }] = true ∧ (bed.strand 2).ctl.tvec = 0 ∧ (bed.strand 2).trap = none) ∧ ErrorTold (entered (.trap { h := h1, code := 5 }) bed 2 allLanes) 2 ∧
    readyOn bedT [.trap { h := h1, code := 5 }] = true ∧ ErrorTold (entered (.trap { h := h1, code := 5 }) bedT 2 allLanes) 2 :=
  ⟨by decide +kernel, by decide +kernel, errorTold_of (by decide +kernel), by decide +kernel, errorTold_of (by decide +kernel)⟩

theorem witness_TretLeavesTheHandler :
    (readyOn bedH [.tretNext nop1, .tretRestart nop1, .tretKill nop1] = true ∧ trapReady (entered (.tretNext nop1) bedH 2 allLanes) 2 = true) ∧
    readyOn bedT [.tretNext nop1, .tretRestart nop1, .tretKill nop1] = true ∧ settledTest bedT = true ∧ ((bedT.strand 2).trap.map (·.regional)) = some false ∧
    (List.range 32).all (fun j => !((bedT.strand 2).thread j).exited) = true := by
  refine ⟨by decide +kernel, by decide +kernel, by decide +kernel, by decide +kernel, by decide +kernel⟩

theorem witness_GuardedOffDoesNothing :
    readyTest (.iadd { aluB with h := h3p }) bed 2 allLanes = true ∧ acting (.iadd { aluB with h := h3p }) bed 2 allLanes = [] ∧
    readyTest (.st { (default : MemOp) with h := h3p, size := 2 }) bed 2 allLanes = true ∧ acting (.st { (default : MemOp) with h := h3p, size := 2 }) bed 2 allLanes = [] := by
  refine ⟨by decide +kernel, by decide +kernel, by decide +kernel, by decide +kernel⟩

/-! ### Witnesses: memory -/

theorem finds_of {i : Instr} {s : State} {u : Nat} {m : BitVec 32} {uniform : Bool} {k : Access} {n : Nat} {xs : List Ea} {loc leaf : Nat → Nat}
    (h : ((badAddr xs n).isNone && !(anyHeld (fates (entered i s u m) u uniform k n xs).2 u xs n) &&
      ((fates (entered i s u m) u uniform k n xs).1 == xs.map fun x => (x, Fate.hit (.loc (loc x.thread)) (leaf x.thread)))) = true) :
    Finds i s u m uniform k n xs (fates (entered i s u m) u uniform k n xs).2 loc leaf := by
  simp only [Bool.and_eq_true, Option.isNone_iff_eq_none, Bool.not_eq_true', beq_iff_eq] at h
  exact ⟨h.1.1, h.1.2, Prod.ext h.2 rfl⟩

/-- The fates of the accesses of a memory instruction on `bed`, and what translating them leaves. -/
def after (i : Instr) (o : MemOp) (k : Access) (uniform : Bool) : State := (fates (entered i bed 2 allLanes) 2 uniform k (2 ^ o.size) (accesses i o uniform bed 2 allLanes)).2

def leafA : Nat := 0xC1F + 3 * 2 ^ 56
def ldA : MemOp := { (default : MemOp) with h := h1, d := 4, a := 1, b := 4, size := 2 }
def ldB : MemOp := { ldA with h := h3, pd := true, d := 1 }
def ldC : MemOp := { ldA with h := h3, d := 4, size := 4 }

theorem cleanAt_of {s : State} {l n : Nat} (h : s.poison = []) : s.cleanAt l n := by
  have hc (a b : Nat) : s.poisonedAt a b = false := by
    unfold State.poisonedAt
    split
    · rfl
    · rw [h]
      simp
  exact ⟨hc _ _, fun k _ => hc _ _⟩

theorem writable_of {s : State} {u : Nat} {act : List Nat} {n : Nat} {loc leaf : Nat → Nat}
    (h : (s.raw.isEmpty && s.poison.isEmpty && (s.contexts.all fun c => c.2.busy.isEmpty) && (heldLines s (act.map fun j => (loc j, List.replicate n 0, 0))).isEmpty &&
      bobbinFree s u (act.map fun j => Fate.hit (.loc (loc j)) (leaf j))) = true) : Writable s u act n loc leaf := by
  simp only [Bool.and_eq_true, List.isEmpty_iff, List.all_eq_true] at h
  obtain ⟨⟨⟨⟨h1, h2⟩, h3⟩, h4⟩, h5⟩ := h
  exact ⟨h1, fun j _ => ⟨cleanAt_of h2, fun x _ => by rw [h2]; rfl⟩, h3, h4, h5⟩

/-- What `owesNothing` and `Released` ask, as tests. -/
def owesTest (s : State) : Bool := let st := s.strand 2; st.buf.isEmpty && st.redraw.isEmpty && st.cq.isEmpty && st.unacked.isEmpty && st.stFaults.isEmpty
def releasedTest (s : State) : Bool :=
  let st := s.strand 2
  st.cq.isEmpty && st.unacked.isEmpty && st.stFaults.isEmpty && !(releaseOwed s 2) && !(peersOwed st) && st.mtFaults.isEmpty && st.wsFaults.isEmpty

theorem owes_of {s : State} (h : owesTest s = true) : (s.strand 2).owesNothing := by
  unfold owesTest at h
  simp only [Bool.and_eq_true, List.isEmpty_iff] at h
  exact ⟨h.1.1.1.1, h.1.1.1.2, h.1.1.2, h.1.2, h.2⟩

theorem released_of {s : State} (h : releasedTest s = true) : Released s 2 := by
  unfold releasedTest at h
  simp only [Bool.and_eq_true, List.isEmpty_iff, Bool.not_eq_true'] at h
  exact ⟨h.1.1.1.1.1.1, h.1.1.1.1.1.2, h.1.1.1.1.2, h.1.1.1.2, h.1.1.2, h.1.2, h.2⟩

/-- Loads of a word, of 16 bytes, of a predicate, and a uniform one, all of address 0. -/
theorem witness_LoadsGiveMemory :
    (readyOn bed [.ld ldA, .ld ldB, .ld ldC, .sld { ldA with d := 10, a := 0 }] = true ∧ bed.raw = [] ∧ (bed.strand 2).owesNothing) ∧
    (isProbe ldA false = false ∧ isProbe ldB false = false ∧ isProbe ldA true = false) ∧
    Finds (.ld ldA) bed 2 allLanes false .load 4 (accesses (.ld ldA) ldA false bed 2 allLanes) (after (.ld ldA) ldA .load false) (fun _ => 0) (fun _ => leafA) ∧
    Finds (.ld ldB) bed 2 allLanes false .load 4 (accesses (.ld ldB) ldB false bed 2 allLanes) (after (.ld ldB) ldB .load false) (fun _ => 0) (fun _ => leafA) ∧
    Finds (.ld ldC) bed 2 allLanes false .load 16 (accesses (.ld ldC) ldC false bed 2 allLanes) (after (.ld ldC) ldC .load false) (fun _ => 0) (fun _ => leafA) ∧
    Finds (.sld { ldA with d := 10, a := 0 }) bed 2 allLanes true .load 4 (accesses (.sld { ldA with d := 10, a := 0 }) { ldA with d := 10, a := 0 } true bed 2 allLanes)
      (after (.sld { ldA with d := 10, a := 0 }) { ldA with d := 10, a := 0 } .load true) (fun _ => 0) (fun _ => leafA) ∧
    ∀ n, (after (.ld ldA) ldA .load false).cleanAt 0 n :=
  ⟨⟨by decide +kernel, by decide +kernel, owes_of (by decide +kernel)⟩, by decide +kernel, finds_of (by decide +kernel), finds_of (by decide +kernel), finds_of (by decide +kernel),
    finds_of (by decide +kernel), fun _ => cleanAt_of (by decide +kernel)⟩

/-- `bedH` with uniform registers and with bytes at address 0. -/
def bedM (f : Sparse TWord) (b : List Byte) : State := let s := bedWith fun st => { st with s := f, ctl := { st.ctl with tvec := 0x500000 } }; { s with mem := Memory.write s.mem 0 b }
def val (x : Word) : TWord := { val := x, tag := 0 }
/-- The first 1 GiB again at 2^30, sealed, which the ownership table refuses; the base pair s4:s5 is there. -/
def bedSeal : State := let s := bedM [(4, val 0x40000000)] []; { s with mem := Memory.write s.mem 0x30002008 (toBytes 8 (0x9F + 3 * 2 ^ 56)) }
def stA : MemOp := { (default : MemOp) with h := h1, d := 4, a := 1, b := 4, size := 2 }

/-- An address beyond 2^56, one that is not aligned, and a page that refuses the load. -/
theorem witness_RefusedAccessesTrap :
    (∀ i ∈ ([(.ld ldA, false), (.sld { ldA with d := 10, a := 0 }, true), (.st stA, false), (.sst { stA with a := 0 }, true)] : List (Instr × Bool)),
      readyOn (bedM [(5, val 0x01000000)] []) [i.1] = true ∧ (badAddr (accesses i.1 ldA i.2 (bedM [(5, val 0x01000000)] []) 2 allLanes) 4).map (·.1) = some 0x23 ∧
      trapReady (bedM [(5, val 0x01000000)] []) 2 = true ∧ owesTest (bedM [(5, val 0x01000000)] []) = true ∧
      readyOn (bedM [(4, val 2)] []) [i.1] = true ∧ (badAddr (accesses i.1 ldA i.2 (bedM [(4, val 2)] []) 2 allLanes) 4).map (·.1) = some 0x24 ∧ trapReady (bedM [(4, val 2)] []) 2 = true) ∧
    (readyOn bedSeal [.ld ldA] = true ∧ owesTest bedSeal = true ∧ badAddr (accesses (.ld ldA) ldA false bedSeal 2 allLanes) 4 = none ∧
      ((fates (entered (.ld ldA) bedSeal 2 allLanes) 2 false .load 4 (accesses (.ld ldA) ldA false bedSeal 2 allLanes)).1.find? fun y => !y.2.isHit).map (·.2) = some (.bad .world) ∧
      trapReady bedSeal 2 = true) := by
  refine ⟨?_, by decide +kernel⟩
  decide +kernel

/-- n stores of thread 0 in its region. -/
def bedStores (n : Nat) : State := bedWith fun st => { st with
  ctl := { st.ctl with tvec := 0x500000 }, regions := st.regions.map fun r => { r with ctl := { r.ctl with tvec := 0x500000 } }
  buf := List.replicate n { seq := 1, kind := .st, pc := 0, site := 0, size := 4, rstart := 0, lanes := [⟨0, (st.thread 0).region, 0, 0, 0, [0, 0, 0, 0], false⟩] } }

theorem witness_StoresAreBuffered :
    (readyOn (bedStores 31) [.st stA, .sst { stA with a := 0 }] = true ∧ storeCount ((bedStores 31).strand 2) 0 = 31 ∧ (List.range 32).all (fun j => decide (storeCount ((bedStores 31).strand 2) j < 32)) = true) ∧
    badAddr (accesses (.st stA) stA false (bedStores 31) 2 allLanes) 4 = none ∧ Released bed 2 ∧
    (readyOn (bedStores 32) [.st stA] = true ∧ storeCount ((bedStores 32).strand 2) 0 = 32 ∧ trapReady (bedStores 32) 2 = true ∧ badAddr (accesses (.st stA) stA false (bedStores 32) 2 allLanes) 4 = none ∧
      (((bedStores 32).strand 2).regions.all fun r => r.ctl.tvec != 0) = true) :=
  ⟨by decide +kernel, by decide +kernel, released_of (by decide +kernel), by decide +kernel⟩

def atomA : AtomOp := { (default : AtomOp) with h := h3, d := 4, a := 1, b := 4, c := 6, size := 2 }
def afterAtom (i : Instr) : State := (fates (entered i bed 2 allLanes) 2 false .atomic 4 (vecAddrs (bed.strand 2) (contextOf i bed 2 allLanes) 1 4 0 0)).2

theorem witness_AtomicsReadModifyWrite :
    (readyOn bed [.atom atomA, .red { atomA with d := 0 }, .cas atomA] = true ∧ (bed.strand 2).owesNothing) ∧
    Finds (.atom atomA) bed 2 allLanes false .atomic 4 (vecAddrs (bed.strand 2) (contextOf (.atom atomA) bed 2 allLanes) 1 4 0 0) (afterAtom (.atom atomA)) (fun _ => 0) (fun _ => leafA) ∧
    Released (afterAtom (.atom atomA)) 2 ∧ Writable (afterAtom (.atom atomA)) 2 [0, 1] 4 (fun _ => 0) (fun _ => leafA) ∧ acting (.atom atomA) bed 2 allLanes = [0, 1] :=
  ⟨⟨by decide +kernel, owes_of (by decide +kernel)⟩, finds_of (by decide +kernel), released_of (by decide +kernel), writable_of (by decide +kernel), by decide +kernel⟩

theorem witness_ControlRegisters_getc :
    ∀ i ∈ ([.getc { (default : GetcOp) with h := h1, d := 20, n := 0 }, .getc { (default : GetcOp) with h := h3, d := 0, n := 0x45 }] : List Instr),
      Ready i bed 2 allLanes ∧ (bed.strand 2).clean ∧ acting i bed 2 allLanes ≠ [] := readyOn_spec (by decide +kernel)

def setcA : SetcOp := { (default : SetcOp) with h := h1, b := 20, n := 0 }
def bedSec : State := bedWith fun st => { st with onSec := true }

/-- The lowest and highest register of each clause; WORLD on and off the security core. -/
theorem witness_ControlRegisters_setc :
    readyOn bed [.setc setcA, .setc { setcA with n := 0x11 }, .setc { setcA with n := 0x41 }, .setc { setcA with n := 0x45 }] = true ∧ (sfind bed.contexts (bed.ctxOf (bed.strand 2))).isSome = true ∧
    readyOn bedSec [.setc { setcA with n := 0x40 }] = true ∧ (sfind bedSec.contexts (bedSec.ctxOf (bedSec.strand 2))).isSome = true ∧
    readyOn bedH [.setc { setcA with n := 0x40 }] = true ∧ (bedH.strand 2).onSec = false ∧ trapReady (entered (.setc { setcA with n := 0x40 }) bedH 2 allLanes) 2 = true := by
  refine ⟨by decide +kernel, by decide +kernel, by decide +kernel, by decide +kernel, by decide +kernel, by decide +kernel, by decide +kernel⟩

/-- Values that keep the rules (no crew; all queues unbound) and values that break them. -/
theorem witness_SetcChecksCrewAndQmap :
    (readyOn bed [.setcCrew { setcA with n := 4 }, .setcQmap { setcA with n := 0x0A }, .setcStfq { setcA with n := 0x0E }] = true ∧ ((bed.strand 2).readS 20 2).d = 0) ∧
    (readyOn (bedM [(20, val 7)] []) [.setcCrew { setcA with n := 4 }, .setcQmap { setcA with n := 0x0A }] = true ∧ (((bedM [(20, val 7)] []).strand 2).readS 20 2).d = 7 ∧
      trapReady (entered (.setcCrew { setcA with n := 4 }) (bedM [(20, val 7)] []) 2 allLanes) 2 = true) := by
  refine ⟨by decide +kernel, by decide +kernel⟩

def fenceA : FenceOp := { h := h1, scope := 3, ord := 1 }
def bedPeer : State := bedWith fun st => { st with unacked := [⟨1, ⟨0, 0, 0, 0, 0, 0⟩, []⟩] }

theorem witness_FenceOrdersStores :
    (readyOn bed [.fence fenceA, .fence { fenceA with ord := 0 }] = true ∧ (bed.strand 2).owesNothing ∧ Released (entered (.fence fenceA) bed 2 allLanes) 2) ∧
    (readyOn bedPeer [.fence fenceA] = true ∧ (bedPeer.strand 2).unacked.length = 1 ∧ (bedPeer.strand 2).buf = [] ∧ (bedPeer.strand 2).redraw = [] ∧ (bedPeer.strand 2).cq = []) :=
  ⟨⟨by decide +kernel, owes_of (by decide +kernel), released_of (by decide +kernel)⟩, by decide +kernel⟩

/-! ### Witnesses: barriers, order, engines -/

/-- An instruction whose one target, of n bytes at the pair s4:s5, is address 0: what it leaves. -/
def afterOne (i : Instr) (s : State) (k : Access) (n : Nat) : State := (fates (entered i s 2 allLanes) 2 true k n [targetOf s 2 allLanes 4 0]).2

theorem reaches_of {i : Instr} {s : State} {k : Access} {n l leaf : Nat}
    (h : ((badAddr [targetOf s 2 allLanes 4 0] n).isNone && !(anyHeld (afterOne i s k n) 2 [targetOf s 2 allLanes 4 0] n) &&
      ((fates (entered i s 2 allLanes) 2 true k n [targetOf s 2 allLanes 4 0]).1 == [(targetOf s 2 allLanes 4 0, Fate.hit (.loc l) leaf)]) &&
      releasedTest (afterOne i s k n) && readyOn s [i]) = true) :
    Reaches i s 2 allLanes k n 4 0 (afterOne i s k n) l leaf ∧ Ready i s 2 allLanes := by
  simp only [Bool.and_eq_true, Option.isNone_iff_eq_none, Bool.not_eq_true', beq_iff_eq] at h
  obtain ⟨⟨⟨⟨h1, h2⟩, h3⟩, h4⟩, h5⟩ := h
  have hr := readyOn_spec h5 i (List.mem_singleton.2 rfl)
  exact ⟨⟨⟨h1, h2, Prod.ext h3 rfl⟩, released_of h4, hr.2.2, hr.2.1⟩, hr.1⟩

def bariA : BariOp := { (default : BariOp) with h := h1, a := 6, b := 4 }

/-- EXP 65535; EXP 0 and 65536, which trap. -/
theorem witness_BariInitializes :
    (let s := bedM [(6, val 65535)] []
     (Reaches (.bari bariA) s 2 allLanes .atomic 16 4 0 (afterOne (.bari bariA) s .atomic 16) 0 leafA ∧ Ready (.bari bariA) s 2 allLanes) ∧
       Writable (afterOne (.bari bariA) s .atomic 16) 2 [0] 16 (fun _ => 0) (fun _ => leafA)) ∧
    (let s := bedM [(6, val 65536)] []
     (Reaches (.bari bariA) s 2 allLanes .atomic 16 4 0 (afterOne (.bari bariA) s .atomic 16) 0 leafA ∧ Ready (.bari bariA) s 2 allLanes) ∧ trapReady (afterOne (.bari bariA) s .atomic 16) 2 = true) ∧
    (let s := bedM [] []
     Reaches (.bari bariA) s 2 allLanes .atomic 16 4 0 (afterOne (.bari bariA) s .atomic 16) 0 leafA ∧ Ready (.bari bariA) s 2 allLanes) :=
  ⟨⟨reaches_of (by decide +kernel), writable_of (by decide +kernel)⟩, ⟨reaches_of (by decide +kernel), by decide +kernel⟩, reaches_of (by decide +kernel)⟩

/-- ICOUNT 1; with a count register; with TX. -/
def barvA : BarvOp := { (default : BarvOp) with h := h1, d := 3, b := 4 }
def barvB : BarvOp := { barvA with a := 6 }
def barvC : BarvOp := { barvA with h := h3, tx := true, c := 8 }
/-- A barrier object: ARR, EXP, PHASE, PEND, TX. -/
def object (arr exp phase pend tx : Nat) : List Byte := toBytes 16 (arr + 2 ^ 16 * exp + 2 ^ 32 * phase + 2 ^ 48 * pend + 2 ^ 64 * tx)

/-- A bad object; a count of 0; TX beyond 32 bits; an arrival beyond EXP; the last arrival; an earlier one. -/
theorem witness_BarvArrives :
    (let s := bedM [] []; (Reaches (.barv barvA) s 2 allLanes .atomic 16 4 0 (afterOne (.barv barvA) s .atomic 16) 0 leafA ∧ Ready (.barv barvA) s 2 allLanes) ∧
      trapReady (afterOne (.barv barvA) s .atomic 16) 2 = true ∧ (afterOne (.barv barvA) s .atomic 16).readNat 0 16 = 0) ∧
    (let s := bedM [] (object 0 3 0 0 0); (Reaches (.barv barvB) s 2 allLanes .atomic 16 4 0 (afterOne (.barv barvB) s .atomic 16) 0 leafA ∧ Ready (.barv barvB) s 2 allLanes) ∧
      trapReady (afterOne (.barv barvB) s .atomic 16) 2 = true ∧ ((s.strand 2).readS 6 1).w = 0) ∧
    (let s := bedM [(8, val 1)] (object 0 3 0 0 (2 ^ 32 - 1)); (Reaches (.barv barvC) s 2 allLanes .atomic 16 4 0 (afterOne (.barv barvC) s .atomic 16) 0 leafA ∧ Ready (.barv barvC) s 2 allLanes) ∧
      trapReady (afterOne (.barv barvC) s .atomic 16) 2 = true ∧ (afterOne (.barv barvC) s .atomic 16).readNat 0 16 / 2 ^ 64 + ((s.strand 2).readS 8 1).w.toNat = 2 ^ 32) ∧
    (let s := bedM [] (object 3 3 15 1 0); (Reaches (.barv barvA) s 2 allLanes .atomic 16 4 0 (afterOne (.barv barvA) s .atomic 16) 0 leafA ∧ Ready (.barv barvA) s 2 allLanes) ∧
      trapReady { afterOne (.barv barvA) s .atomic 16 with mem := Memory.write (afterOne (.barv barvA) s .atomic 16).mem 0 (object 3 3 31 1 0) } 2 = true ∧
      Writable (afterOne (.barv barvA) s .atomic 16) 2 [0] 16 (fun _ => 0) (fun _ => leafA)) ∧
    (let s := bedM [] (object 2 3 15 0 0); (Reaches (.barv barvA) s 2 allLanes .atomic 16 4 0 (afterOne (.barv barvA) s .atomic 16) 0 leafA ∧ Ready (.barv barvA) s 2 allLanes) ∧
      Writable (afterOne (.barv barvA) s .atomic 16) 2 [0] 16 (fun _ => 0) (fun _ => leafA)) ∧
    (let s := bedM [] (object 0 65535 0 0 0); (Reaches (.barv barvA) s 2 allLanes .atomic 16 4 0 (afterOne (.barv barvA) s .atomic 16) 0 leafA ∧ Ready (.barv barvA) s 2 allLanes) ∧
      Writable (afterOne (.barv barvA) s .atomic 16) 2 [0] 16 (fun _ => 0) (fun _ => leafA)) :=
  ⟨⟨reaches_of (by decide +kernel), by decide +kernel⟩, ⟨reaches_of (by decide +kernel), by decide +kernel⟩, ⟨reaches_of (by decide +kernel), by decide +kernel⟩,
    ⟨reaches_of (by decide +kernel), by decide +kernel, writable_of (by decide +kernel)⟩, ⟨reaches_of (by decide +kernel), writable_of (by decide +kernel)⟩,
    ⟨reaches_of (by decide +kernel), writable_of (by decide +kernel)⟩⟩

def barwA : BarwOp := { (default : BarwOp) with h := h1, d := 1, a := 6, b := 4, c := 8 }

/-- A bad object; another phase; the same phase with bound 0; with a bound, WAIT 0 and 255. -/
theorem witness_BarwTestsThePhase :
    (let s := bedM [] []; (Reaches (.barw barwA) s 2 allLanes .load 16 4 0 (afterOne (.barw barwA) s .load 16) 0 leafA ∧ Ready (.barw barwA) s 2 allLanes) ∧ trapReady (afterOne (.barw barwA) s .load 16) 2 = true) ∧
    (let s := bedM [] (object 0 3 15 0 0); Reaches (.barw barwA) s 2 allLanes .load 16 4 0 (afterOne (.barw barwA) s .load 16) 0 leafA ∧ Ready (.barw barwA) s 2 allLanes) ∧
    (let s := bedM [] (object 0 3 0 0 0); Reaches (.barw barwA) s 2 allLanes .load 16 4 0 (afterOne (.barw barwA) s .load 16) 0 leafA ∧ Ready (.barw barwA) s 2 allLanes) ∧
    (let s := bedM [(8, val 1)] (object 0 3 0 0 0); (Reaches (.barw barwA) s 2 allLanes .load 16 4 0 (afterOne (.barw barwA) s .load 16) 0 leafA ∧ Ready (.barw barwA) s 2 allLanes) ∧
      Writable (afterOne (.barw barwA) s .load 16) 2 [0] 16 (fun _ => 0) (fun _ => leafA)) ∧
    (let s := bedM [(8, val 1)] (object 0 3 0xFF00 0 0); (Reaches (.barw barwA) s 2 allLanes .load 16 4 0 (afterOne (.barw barwA) s .load 16) 0 leafA ∧ Ready (.barw barwA) s 2 allLanes) ∧
      Writable (afterOne (.barw barwA) s .load 16) 2 [0] 16 (fun _ => 0) (fun _ => leafA)) :=
  ⟨⟨reaches_of (by decide +kernel), by decide +kernel⟩, reaches_of (by decide +kernel), reaches_of (by decide +kernel), ⟨reaches_of (by decide +kernel), writable_of (by decide +kernel)⟩,
    ⟨reaches_of (by decide +kernel), writable_of (by decide +kernel)⟩⟩

/-- `bedH` in a deterministic launch, whose bobbin strand `x` holds. -/
def bedDet (x : Nat) : State := bedH.modLaunch (bedH.strand 2).launch fun l => { l with msg := { l.msg with mode := 4 }, holder := x }

theorem witness_TokensOrderStrands :
    (readyOn bedH [.tokw nop1, .tokp nop1] = true ∧ isDet (bedH.launch (bedH.strand 2).launch) = false ∧ trapReady (entered (.tokw nop1) bedH 2 allLanes) 2 = true ∧ owesTest bedH = true) ∧
    (readyOn (bedDet 0) [.tokw nop1, .tokp nop1] = true ∧ isDet ((bedDet 0).launch ((bedDet 0).strand 2).launch) = true ∧ holdsBobbin (bedDet 0) ((bedDet 0).strand 2) = true ∧ owesTest (bedDet 0) = true) ∧
    (readyOn (bedDet 1) [.tokw nop1, .tokp nop1] = true ∧ isDet ((bedDet 1).launch ((bedDet 1).strand 2).launch) = true ∧ holdsBobbin (bedDet 1) ((bedDet 1).strand 2) = false ∧
      trapReady (entered (.tokp nop1) (bedDet 1) 2 allLanes) 2 = true ∧ owesTest (bedDet 1) = true) := by
  refine ⟨by decide +kernel, by decide +kernel, by decide +kernel⟩

def sealA : SealOp := { h := h1, cv := false, r := 6 }
def copyA (strand batch : Nat) : Copy := { id := 1, strand := strand, mode := 0, dst := 0, src := 0, len := 4, done := 0, bar := 0, batch := batch, scope := 0, stream := 0, seq := 1, en := false }
/-- A copy of batch 1 at work, one batch sealed, and a number in s6. -/
def bedCopy (x : Word) : State := let s := bedWith fun st => { st with s := [(6, val x)], sealed := 1 }; s.setCore 0 { s.core 0 with copies := [copyA 2 1] }

theorem witness_BatchesAreSealedAndAwaited :
    readyOn bed [.cseal sealA, .cwait sealA] = true ∧ (bed.core 0).copies = [] ∧ (bed.strand 2).cpFaults = [] ∧
    (readyOn (bedCopy 1) [.cwait sealA] = true ∧ ((bedCopy 1).core 0).copies.any (fun c => c.strand == 2 && decide (c.batch ≤ coveredBatch ((bedCopy 1).strand 2).sealed 1)) = true) ∧
    (readyOn (bedCopy 0) [.cwait sealA] = true ∧ ((bedCopy 0).core 0).copies.any (fun c => c.strand == 2 && decide (c.batch ≤ coveredBatch ((bedCopy 0).strand 2).sealed 0)) = false) := by
  refine ⟨by decide +kernel, by decide +kernel, by decide +kernel, by decide +kernel, by decide +kernel⟩

def cpyA : CpyOp := { (default : CpyOp) with h := h3, d := 20, a := 22, b := 24 }
def cpyB : CpyOp := { cpyA with c := 4 }
def bedLen : State := bedM [(24, val 64)] (object 0 3 0 65534 0)
def bedFull : State := bedM [(24, val 64)] (object 0 3 0 65535 0)

/-- The three modes without an object; an object whose PEND is 65534, and a full one. -/
theorem witness_CopiesJoinTheEngine :
    (readyOn bedLen [.cpyMemory cpyA, .cpyFromPort { cpyA with a := 0 }, .cpyToPort { cpyA with d := 0 }] = true ∧ ((bedLen.strand 2).readS 24 1).w = 64 ∧ (bedLen.core 0).copies = [] ∧
      ((bedLen.strand 2).readS 20 2).val = 0 ∧ ((bedLen.strand 2).readS 22 2).val = 0) ∧
    ((Reaches (.cpyMemory cpyB) bedLen 2 allLanes .atomic 16 4 0 (afterOne (.cpyMemory cpyB) bedLen .atomic 16) 0 leafA ∧ Ready (.cpyMemory cpyB) bedLen 2 allLanes) ∧
      Writable (afterOne (.cpyMemory cpyB) bedLen .atomic 16) 2 [0] 16 (fun _ => 0) (fun _ => leafA)) ∧
    (Reaches (.cpyMemory cpyB) bedFull 2 allLanes .atomic 16 4 0 (afterOne (.cpyMemory cpyB) bedFull .atomic 16) 0 leafA ∧ Ready (.cpyMemory cpyB) bedFull 2 allLanes) ∧
      trapReady (afterOne (.cpyMemory cpyB) bedFull .atomic 16) 2 = true ∧ Writable (afterOne (.cpyMemory cpyB) bedFull .atomic 16) 2 [0] 16 (fun _ => 0) (fun _ => leafA) :=
  ⟨by decide +kernel, ⟨reaches_of (by decide +kernel), writable_of (by decide +kernel)⟩, reaches_of (by decide +kernel), by decide +kernel, writable_of (by decide +kernel)⟩

def mailA : MailOp := { (default : MailOp) with h := h3, a := 16, b := 4 }
/-- Mailbox 5 bound to the slot at 2^30 + 0x8000, in a mailbox page; s4:s5 points there. -/
def bedBox : State :=
  let s := bedM [(4, val 0x40008000)] []
  { s with mem := Memory.write (Memory.write s.mem 0x30002008 (toBytes 8 (0x3F + 3 * 2 ^ 56))) (0x20000000 + 32 * 5) (toBytes 8 0x40008000 ++ toBytes 8 0 ++ toBytes 1 1) }
def leafBox : Nat := 0xC3F + 3 * 2 ^ 56

theorem witness_MailFillsAFreeSlot :
    ((Reaches (.mail mailA) bed 2 allLanes .atomic 64 4 0 (afterOne (.mail mailA) bed .atomic 64) 0 leafA ∧ Ready (.mail mailA) bed 2 allLanes) ∧ leafA / 2 ^ 5 % 4 = 0 ∧
      trapReady (afterOne (.mail mailA) bedH .atomic 64) 2 = true) ∧
    (Reaches (.mail mailA) bedBox 2 allLanes .atomic 64 4 0 (afterOne (.mail mailA) bedBox .atomic 64) 0x8000 leafBox ∧ Ready (.mail mailA) bedBox 2 allLanes) ∧
      (let base := afterOne (.mail mailA) bedBox .atomic 64
       mailboxAt base 1 0x8000 = some 5 ∧ heldLines base [(0x8000, List.replicate 64 0, 0)] = [] ∧ base.raw = [] ∧ base.poison = [] ∧ (sfind base.contexts 1).isSome = true ∧
         ((base.context 1).writers.all fun w => w.1 != 5) = true ∧ isBusy base 1 5 = false) ∧ leafBox / 2 ^ 5 % 4 = 1 ∧ bedBox.ctxOf (bedBox.strand 2) = 1 :=
  ⟨⟨reaches_of (by decide +kernel), by decide +kernel, by decide +kernel⟩, reaches_of (by decide +kernel), by decide +kernel, by decide +kernel, by decide +kernel⟩

def emitA : EmitOp := { h := h3, a := 16, b := 4 }
/-- The dispatcher's buffer with n records. -/
def bedRoom (n : Nat) : State := { bed with dies := bed.dies.set 0 { bed.dies.getD 0 {} with intake := List.replicate n ⟨0, 0, 0, 0, 0, 0, [], 0⟩ } }

/-- A buffer with room for just 2 records, and one with room for 1. -/
theorem witness_EmitSendsRecords :
    (readyOn (bedRoom 254) [.emit emitA] = true ∧ (acting (.emit emitA) (bedRoom 254) 2 allLanes).length = 2 ∧ (((bedRoom 254).dies.getD 0 {}).intake).length = 254 ∧
      ((bed.strand 2).readS 4 2).val = 0 ∧ (bedRoom 254).dies.length = 8 ∧ (bed.strand 2).core = 0) ∧
    readyOn (bedRoom 255) [.emit emitA] = true ∧ (((bedRoom 255).dies.getD 0 {}).intake).length = 255 := by
  refine ⟨by decide +kernel, by decide +kernel, by decide +kernel⟩

def launchA : LaunchOp := { (default : LaunchOp) with h := h3, d := 10, b := 4 }
/-- A launch record of one strand with 8 registers. -/
def recordA : List Byte := toBytes 8 0x400000 ++ toBytes 8 0 ++ toBytes 8 0 ++ toBytes 2 1 ++ toBytes 2 1 ++ [1, 8, 1, 1] ++ toBytes 11 0 ++ [0x10] ++ toBytes 20 0
def bedRec : State := bedM [] recordA
/-- Every die's queue full of launches of priority 0. -/
def bedQueues : State := { bedRec with dies := bedRec.dies.map fun d => { d with queue := List.replicate 256 1 } }

theorem witness_LaunchHandsOver :
    ((Reaches (.launch launchA) bedRec 2 allLanes .load 64 4 0 (afterOne (.launch launchA) bedRec .load 64) 0 leafA ∧ Ready (.launch launchA) bedRec 2 allLanes) ∧
      (bedRec.strand 2).owesNothing ∧ (afterOne (.launch launchA) bedRec .load 64).cleanAt 0 64) ∧
    (let base := afterOne (.launch launchA) bedRec .load 64
     let taken : Launch := { num := launchNumber true ((base.context 1).numB + 1), ctx := 1, msg := parseMsg (base.read 0 64), parent := some 1, order := (0, (bedRec.strand 2).launches) }
     base.raw = [] ∧ canAccept base taken.msg = true ∧ (sfind base.contexts 1).isSome = true ∧ badField taken.msg = none ∧
       vet { (dropPeerBytes base 2 0).modContext 1 (fun c => { c with numB := c.numB + 1 }) with uid := base.uid + 1, launches := sset base.launches base.uid taken } taken = none) ∧
    (Reaches (.launch launchA) bedQueues 2 allLanes .load 64 4 0 (afterOne (.launch launchA) bedQueues .load 64) 0 leafA ∧ Ready (.launch launchA) bedQueues 2 allLanes) ∧
      canAccept (afterOne (.launch launchA) bedQueues .load 64) (parseMsg recordA) = false ∧ (afterOne (.launch launchA) bedQueues .load 64).read 0 64 = recordA :=
  ⟨⟨reaches_of (by decide +kernel), owes_of (by decide +kernel), cleanAt_of (by decide +kernel)⟩, by decide +kernel, reaches_of (by decide +kernel), by decide +kernel, by decide +kernel⟩

/-! ### Witnesses: system instructions, checks, the step, encodings -/

def sysA : SysOp := { (default : SysOp) with h := h3, a := 4 }
/-- One wait under page 0 of context 1 on core 0, generation 1; and s4 as given. -/
def bedWait (x : Word) : State := let s := bedM [(4, val x)] []; s.setCore 0 { s.core 0 with waits := [⟨0, 1, 0, 1, false, false, true⟩] }

/-- The token of the entry, a stale one, and a value beyond 32 bits. -/
theorem witness_ReplayEndsWaits :
    (readyOn (bedWait 0) [.sysReplay sysA] = true ∧ (bedWait 0).ctxOf ((bedWait 0).strand 2) = 1) ∧
    (readyOn (bedWait 0x10000) [.sysReplayTok { sysA with x := 1 }] = true ∧ ((bedWait 0x10000).strand 2 |>.readS 4 2).val = 0x10000 ∧ (tokenEntry (bedWait 0x10000) 1 0x10000).isSome = true) ∧
    (readyOn (bedWait 0xFFFFFFFF) [.sysReplayTok { sysA with x := 1 }] = true ∧ tokenEntry (bedWait 0xFFFFFFFF) 1 0xFFFFFFFF = none) ∧
    (let s := bedM [(5, val 1)] []
     readyOn s [.sysReplayTok { sysA with x := 1 }] = true ∧ ((s.strand 2).readS 4 2).val = 2 ^ 32 ∧ trapReady (entered (.sysReplayTok { sysA with x := 1 }) s 2 allLanes) 2 = true) := by
  refine ⟨by decide +kernel, by decide +kernel, by decide +kernel, by decide +kernel⟩

theorem witness_TlbinvRemovesTranslations :
    ∀ i ∈ ([.sysTlbinv sysA, .sysTlbinv { sysA with a := 0, x := 1 }, .sysTlbinv { sysA with a := 0, x := 7 }] : List Instr),
      Ready i bed 2 allLanes ∧ (bed.strand 2).clean ∧ acting i bed 2 allLanes ≠ [] := readyOn_spec (by decide +kernel)

def diagSt (x : Nat) : SysOp := { sysA with b := 14, c := 12, x := x }
def diagLd (x : Nat) : SysOp := { sysA with d := 16, x := x }
/-- s4:s5 at the start of the scratchpad window. -/
def bedScratch : State := bedM [(5, val 0x00FFFF00)] []
/-- s4 names register 247 of thread 0. -/
def bedReg : State := bedM [(4, val 247)] []

/-- A scratchpad unit, a unit of memory, and the lowest and highest register of a thread. -/
theorem witness_DiagnosticsReachStorage :
    (readyOn bedScratch [.sysDiagst (diagSt 0), .sysDiagld (diagLd 0)] = true ∧ ((bedScratch.strand 2).readS 4 2).val = localWindow ∧
      windowAt bedScratch ((bedScratch.strand 2).who bedScratch none) .store localWindow 8 = .ok (.loc (scratchLoc 0 0)) windowLeaf) ∧
    (readyOn bed [.sysDiagst (diagSt 1), .sysDiagld (diagLd 1)] = true ∧
      (let x : Ea := { thread := (bed.strand 2).lowest allLanes, lane := 0, va := ((bed.strand 2).readS 4 2).val, base := ((bed.strand 2).readS 4 2).tag, idx := 0 }
       badAddr [x] 32 = none ∧ (fates bed 2 true .store 32 [x]).1 = [(x, .hit (.loc 0) leafA)])) ∧
    (readyOn bedReg [.sysDiagst (diagSt 2), .sysDiagld (diagLd 2)] = true ∧ ((bedReg.strand 2).readS 4 2).val = 247 ∧ (bedReg.strand 2).regs = 248 ∧ (bedReg.strand 2).threadIn 0 = some 0) ∧
    (let s := bedM [(4, val 257)] []
     readyOn s [.sysDiagst (diagSt 2), .sysDiagld (diagLd 2)] = true ∧ ((s.strand 2).readS 4 2).val % 256 = 1 ∧ (s.strand 2).threadIn 1 = some 1) := by
  refine ⟨by decide +kernel, by decide +kernel, by decide +kernel, by decide +kernel⟩

/-- On the security core with s4 as given: context 2, which has no launch. -/
def bedWorld (x : Word) : State :=
  let s := bedWith fun st => { st with s := [(4, val x)], onSec := true, ctl := { st.ctl with tvec := 0x500000 } }
  { s with contexts := sset s.contexts 2 {} }

theorem witness_ScrubWorldAndHalt :
    (∀ i ∈ ([.sysScrub sysA, .sysScrub { sysA with x := 5 }] : List Instr), Ready i bed 2 allLanes ∧ (bed.strand 2).clean ∧ acting i bed 2 allLanes ≠ []) ∧
    (readyOn bedH [.sysWorld sysA] = true ∧ (bedH.strand 2).onSec = false ∧ trapReady (entered (.sysWorld sysA) bedH 2 allLanes) 2 = true) ∧
    (readyOn (bedWorld 0x10) [.sysWorld sysA] = true ∧ ((bedWorld 0x10).strand 2).onSec = true ∧ trapReady (entered (.sysWorld sysA) (bedWorld 0x10) 2 allLanes) 2 = true) ∧
    (readyOn (bedWorld 0x10003) [.sysWorld sysA] = true ∧ (bedWorld 0x10003).launches.any (fun l => l.2.ctx == 1 && l.2.phase != .done) = true) ∧
    (readyOn (bedWorld 0x2000F) [.sysWorld sysA] = true ∧ (bedWorld 0x2000F).launches.all (fun l => l.2.ctx != 2) = true ∧ (sfind (bedWorld 0x2000F).contexts 2).isSome = true) ∧
    (readyOn bedT [.sysHalt { sysA with a := 0 }] = true ∧ (bedT.strand 2).trap.isSome = true) ∧ ErrorTold (entered (.sysHalt { sysA with a := 0 }) bedT 2 allLanes) 2 ∧
    (readyOn bed [.sysHalt { sysA with a := 0 }] = true ∧ settledTest bed = true ∧ bed.strands.all (fun y => y.1 == 2) = true) :=
  ⟨readyOn_spec (by decide +kernel), by decide +kernel, by decide +kernel, by decide +kernel, by decide +kernel, by decide +kernel, errorTold_of (by decide +kernel), by decide +kernel⟩

/-- A register past the launch's REGS, refused; each kind of use that is refused, and bounds between them. -/
theorem witness_RegisterChecksTrap :
    (let s := bedH.modStrand 2 fun st => { st with regs := 8 }
     toRaw (.iadd { aluA with d := 8 }) = some ((Instr.iadd { aluA with d := 8 }).op, (Instr.iadd { aluA with d := 8 }).fields) ∧ issuing s = some (2, allLanes) ∧
       checkFault (s.strand 2) (Instr.iadd { aluA with d := 8 }).op (Instr.iadd { aluA with d := 8 }).fields (Instr.iadd { aluA with d := 8 }).uses = some (0x03, 2) ∧ trapReady s 2 = true ∧
       checkFault (s.strand 2) (Instr.iadd { aluA with d := 7 }).op (Instr.iadd { aluA with d := 7 }).fields (Instr.iadd { aluA with d := 7 }).uses = none) ∧
    (Instr.sysHalt { sysA with a := 0 }).op = 0x7D ∧ ((Instr.getc { (default : GetcOp) with h := h3, n := 0x40 }).op = 0x7C ∨ (Instr.getc { (default : GetcOp) with h := h3, n := 0x40 }).op = 0x7B) ∧
    (Instr.getc { (default : GetcOp) with h := h3, n := 0x40 }).fields.a = 0x40 ∧
    useFault 248 0 { (default : Use) with sp := .s, code := 64 } = some 4 ∧ useFault 248 0 { (default : Use) with sp := .v, code := 248, q := false } = some 3 ∧
    useFault 248 0 { (default : Use) with sp := .v, code := 248, q := true, n := 1, rd := true } = some 5 ∧ useFault 248 1 { (default : Use) with sp := .v, code := 248, q := true, n := 1, rd := true } = none ∧
    useFault 248 0 { (default : Use) with sp := .v, code := 247, al := 2 } = some 0 ∧ useFault 248 0 { (default : Use) with sp := .s, code := 62, al := 4 } = some 1 := by
  refine ⟨by decide +kernel, by decide +kernel, by decide +kernel, by decide +kernel, by decide +kernel, by decide +kernel, by decide +kernel, by decide +kernel, by decide +kernel, by decide +kernel⟩

/-- `bed` with a word at its pc. -/
def bedCode (w : Nat) : State := { bed with mem := Memory.write bed.mem 0x400000 (toBytes 4 w) }

/-- A word that decodes, one that does not, and an event on the agenda. -/
theorem witness_StepRunsTheDecodedInstruction :
    ((bedCode 0x02020C08).agenda = [] ∧ issuing (bedCode 0x02020C08) = some (2, allLanes) ∧ (fetchFor (bedCode 0x02020C08) 2 allLanes).1 = some 0x02020C08 ∧
      (decode ((fetchFor (bedCode 0x02020C08) 2 allLanes).2.strand 2).sys 0x02020C08).isOk = true) ∧
    ((fetchFor (bedCode 0x3F0) 2 allLanes).1 = some 0x3F0 ∧ (decode ((fetchFor (bedCode 0x3F0) 2 allLanes).2.strand 2).sys 0x3F0).isOk = false) ∧
    (match (fateOf (bedCode 0x3F0) (((bedCode 0x3F0).strand 2).who (bedCode 0x3F0) none) .fetch 0x400000 4).1 with | .hit (.loc l) _ => l == 0x400000 | _ => false) = true ∧
    (match (fetchRest (bedCode 0x09) 2 0x400000 2 1).1 with | .words w => w == 0 | _ => false) = true := by
  refine ⟨by decide +kernel, by decide +kernel, by decide +kernel, by decide +kernel⟩

theorem witness_DecodingInvertsEncoding :
    (Instr.ffma { aluB with c := 255 }).WF ∧ (Instr.ffma { aluB with c := 255 }).form? = some .w3 ∧ (Instr.movl { (default : MovlOp) with h := h1l, wide := true, d := 4, lit := 2 ^ 64 - 1 }).WF := by
  refine ⟨by unfold Instr.WF; decide +kernel, by decide +kernel, by unfold Instr.WF; decide +kernel⟩

theorem witness_DecodedWordsAreTheEncoding :
    (decode false 0x02020C08).isOk = true ∧ 0x7E ≤ 0x3F0 / 8 % 128 ∧ 0x7F ≤ 0x3FF / 8 % 128 ∧ 0x3E9 / 8 % 128 = 0x7D ∧
    (0x1C8 / 8 % 128 = 0x39 ∧ formOk 0x39 (formOf (0x1C8 % 4)) = false) := by
  refine ⟨by decide +kernel, by decide, by decide, by decide, by decide +kernel⟩

theorem witness_MemoryIsItsBytes : Memory.wf bed.mem = true ∧ Memory.wf ([] : Memory) = true ∧ Memory.byte bed.mem 0x30000000 = 1 := by
  refine ⟨by decide +kernel, by decide +kernel, by decide +kernel⟩

theorem witness_EveryStepKeepsMemoryCanonical :
    Memory.wf (bedCode 0x02020C08).mem = true ∧ (match step (bedCode 0x02020C08) with | .next _ => true | _ => false) = true := by
  refine ⟨by decide +kernel, by decide +kernel⟩

/-! ### Witnesses: the matrix engine -/

/-- FP32 operands in memory: descriptors in s8 to s15, s16 to s23 and s24 to s31, of 32-byte rows. -/
def bedDesc : State := bedM ([8, 16, 24].flatMap fun g => [(g + 2, val 64), (g + 3, val 2)]) []
def mmaA : MmaOp := { (default : MmaOp) with h := h3, d := 1, a := 8, b := 16 }

/-- Whether the descriptors of a matrix instruction pass. -/
def descsPass (s : State) (syn dest : Nat) (args : List DescArg) : Bool := (descsFault (s.strand 2) syn dest (winOf s (s.strand 2)) args).isNone

/-- No report owed, no member at the latch, and room in the engine. -/
def engineFree (s : State) : Bool := let st := s.strand 2; st.mtFaults.isEmpty && !st.poisonDue && st.latch.isNone && decide (st.mops.length < 4)

theorem witness_MatrixOperationsEnterTheEngine :
    readyOn bedDesc [.mma mmaA, .mmas { mmaA with c := 40 }, .mmd { mmaA with t2 := 2, c := 24 }, .accz { (default : AcczOp) with h := h1, t := 3, mb := 15, nb := 63 },
      .accld { (default : AccldOp) with h := h3, d := 1, a := 8 }, .accst { (default : AccstOp) with h := h3, d := 8, a := 1 }, .accst { (default : AccstOp) with h := h3, q := true, a := 1 },
      .smx { (default : SmxOp) with h := h3, d := 1, a := 2 }] = true ∧
    (engineFree bedDesc = true ∧ (bedDesc.strand 2).accn = 4096) ∧
    (descsPass bedDesc 0 1 [⟨0, 8, .prodA, 8, 8⟩, ⟨1, 16, .prod, 8, 8⟩] = true ∧ descsPass bedDesc 0 1 [⟨0, 8, .prod, 8, 8⟩, ⟨1, 16, .prod, 8, 8⟩, ⟨2, 24, .prod, 8, 8⟩] = true ∧
      descsPass bedDesc 0 4 [⟨0, 8, .load, 8, 8⟩] = true ∧ descsPass bedDesc 0 4 [⟨0, 8, .store, 8, 8⟩] = true) ∧
    (¬4096 < 1 * 4096 / 4 + 8 * 8 ∧ 4096 < 3 * 4096 / 4 + 128 * 512 ∧ (bedDesc.strand 2).rmEff 0 ≠ 6) ∧
    (trapReady (entered (.accz { (default : AcczOp) with h := h1, t := 3, mb := 15, nb := 63 }) bedDesc 2 allLanes) 2 = true) ∧
    (let s := bedDesc.modStrand 2 fun st => { st with latch := some { op := { kind := .mma }, crew := 0, since := 0, verdict := some none } }
     readyOn s [.mma { mmaA with crew := true }] = true ∧ (s.strand 2).mtFaults = [] ∧ ((s.strand 2).latch.bind (·.verdict)) = some none) := by
  refine ⟨by decide +kernel, by decide +kernel, by decide +kernel, by decide +kernel, by decide +kernel, by decide +kernel⟩

def accrdA : AccrdOp := { (default : AccrdOp) with h := h3, d := 4, a := 1, b := 6 }
def msyncA : MsyncOp := { h := h1, cv := false, t := 1, n := 16 }
def wslA : WslOp := { (default : WslOp) with h := h3, b := 4, d := 6 }
/-- An operation that writes tile 1, at work. -/
def bedBusy : State := bedM [] [] |>.modStrand 2 fun st => { st with mops := [{ kind := .accz, t1 := 1, m := 8, n := 8 }] }
def wslCmd : WslCmd := { strand := 2, sid := 0, skein := 1, ctx := 1, blk := 0, scale := none, off := 0, dst := 1, key := 0, en := false, seq := 1 }

theorem witness_AccumulatorReadsAndWaits :
    readyOn bedH [.accrd accrdA, .accrd { accrdA with sel := 2, nb := 0 }, .msyncAll { msyncA with n := 0 }, .msyncProg msyncA, .msyncWs { msyncA with n := 0 }, .wsl wslA, .wsl { wslA with dst := 1 }] = true ∧
    ((bedH.strand 2).accn = 4096 ∧ (bedH.strand 2).mops = [] ∧ (bedH.strand 2).mtFaults = [] ∧ (bedH.strand 2).wsFaults = [] ∧ (bedH.strand 2).poisonDue = false ∧ (bedH.core 0).wsu.length = 0) ∧
    (let s := bedH.modStrand 2 fun st => { st with accn := 0 }
     readyOn s [.accrd accrdA, .msyncProg msyncA] = true ∧ (s.strand 2).accn = 0 ∧ trapReady (entered (.accrd accrdA) s 2 allLanes) 2 = true) ∧
    (readyOn bedBusy [.accrd accrdA, .msyncAll { msyncA with n := 0 }, .msyncProg msyncA] = true ∧ (bedBusy.strand 2).mops.length = 1 ∧
      ((bedBusy.strand 2).mops.any fun p => (p.todo (bedBusy.strand 2)).1.any fun x => decide (x.1 < 1024 + 8 ∧ 1024 < x.2)) = true) ∧
    (readyOn (bedM [(5, val 0x01000000)] []) [.wsl wslA] = true ∧ (bedM [(5, val 0x01000000)] []).mints 2 = false ∧ trapReady (entered (.wsl wslA) (bedM [(5, val 0x01000000)] []) 2 allLanes) 2 = true) ∧
    (readyOn (bedM [(6, val 0x2000)] []) [.wsl wslA] = true ∧ winOf bedH (bedH.strand 2) = 12288 ∧ readyOn (bedM [(6, val 0x2001)] []) [.wsl wslA] = true) ∧
    (let s := bedH.setCore 0 { bedH.core 0 with wsu := List.replicate 8 (wslCmd, .run) }
     readyOn s [.wsl wslA, .msyncWs { msyncA with n := 0 }] = true ∧ (s.core 0).wsu.length = 8) := by
  refine ⟨by decide +kernel, by decide +kernel, by decide +kernel, by decide +kernel, by decide +kernel, by decide +kernel, by decide +kernel⟩

/-! ### Single instructions, with results worked out by hand from their rules -/

/-- `bed` with v1 and v2. -/
def bedV (a b : Word) : State := bedWith fun st => { st with threads := st.threads.map fun t => { t with v := [(1, val a), (2, val b)] } }

/-- v3 of thread 1 after an instruction. -/
def gives (i : Instr) (a b : Word) : Option Word := match exec i (bedV a b) with | .next t => some (t.vreg 2 1 3).val | _ => none

theorem test_iadd_wraps : gives (.iadd aluA) 0xFFFFFFFF 2 = some 1 := by decide +kernel
theorem test_iadd_saturates : gives (.iadd { aluB with sat := true }) 0x7FFFFFFF 1 = some 0x7FFFFFFF := by decide +kernel
theorem test_isub_saturates_unsigned : gives (.isub { aluB with sat := true, z := true }) 1 2 = some 0 := by decide +kernel
theorem test_imulh_signed : gives (.imulh aluA) 0xFFFFFFFE 3 = some 0xFFFFFFFF := by decide +kernel
theorem test_shl_by_width : gives (.shl aluA) 1 32 = some 0 := by decide +kernel
theorem test_sar_beyond_width : gives (.sar aluA) 0x80000000 40 = some 0xFFFFFFFF := by decide +kernel
theorem test_rot_by_33 : gives (.rot aluA) 0x80000001 33 = some 3 := by decide +kernel
theorem test_clz_of_zero : gives (.clz unA) 0 0 = some 32 := by decide +kernel
theorem test_andn : gives (.andn aluA) 0xFF 0x0F = some 0xF0 := by decide +kernel
/-- 1 + 2^-24 ties to even; 1 + 3 · 2^-24 ties up. -/
theorem test_fadd_ties_to_even : gives (.fadd aluA) 0x3F800000 0x33800000 = some 0x3F800000 ∧ gives (.fadd aluA) 0x3F800001 0x33800000 = some 0x3F800002 := by
  refine ⟨by decide +kernel, by decide +kernel⟩
theorem test_fmul_inf_times_zero : gives (.fmul aluA) 0x7F800000 0 = some 0x7FC00000 := by decide +kernel
theorem test_fdiv_third : gives (.fdiv aluA) 0x3F800000 0x40400000 = some 0x3EAAAAAB := by decide +kernel
/-- Two BF16 sums in one word: 1 + 1 and 2 + 1. -/
theorem test_badd2_halves : gives (.badd2 aluA) 0x3F804000 0x3F803F80 = some 0x40004040 := by decide +kernel

/-- R156: the offset counts words from word0. -/
theorem test_bra_back : (match exec (.bra { (default : BraOp) with h := h1, off := 0xFFFFFFFB }) bed with | .next t => t.pcOf 2 1 == 0x0FFFFB | _ => false) = true := by decide +kernel

/-- R164: a store changes no byte until its region closes. -/
theorem test_store_is_buffered : (match exec (.st stA) (bedV 0 0) with | .next t => t.byteAt 0 == 0 && (t.strand 2).buf.length == 1 | _ => false) = true := by decide +kernel

/-- R57, R53: a step from the bench goes on at the next word. -/
theorem test_step_moves_on : (match step (bedCode 0x02020C08) with | .next t => t.pcOf 2 0 == 0x100001 | _ => false) = true := by decide +kernel

/-- The word of an instruction placed after reset is the one the first step runs. -/
theorem test_first_step : (match step (State.reset.withFetchWord 32 0x02020C08) with | .next t => t.pcOf 2 31 == 0x100001 | _ => false) = true := by decide +kernel

end Sys2Proof.Machine
end

section
/-!
A memory in canonical form is its bytes (O48), and every step keeps memory in that form (O49).
-/

namespace Sys2Proof.Machine

/-! ### A canonical memory is its bytes -/

theorem lookup_of_mem {β : Type} {m : Sparse β} {k : Nat} {x : β} (hm : m.Pairwise fun a b => a.1 < b.1) (h : (k, x) ∈ m) :
    m.lookup k = some x := by
  induction m with
  | nil => simp at h
  | cons c m ih =>
    obtain ⟨hc, hm⟩ := List.pairwise_cons.1 hm
    rcases List.mem_cons.1 h with rfl | h
    · exact List.lookup_cons_self
    · have hne : k ≠ c.1 := (hc _ h).ne'
      rw [List.lookup_cons, beq_eq_false_iff_ne.2 hne]
      exact ih hm h

/-- The cells of a canonical memory are the bytes that are not zero, at their locations. -/
theorem mem_iff_byte_eq {m : Memory} (hm : Memory.wf m = true) (l : Nat) (b : Byte) :
    (l, b) ∈ m ↔ Memory.byte m l = b ∧ b ≠ 0 := by
  obtain ⟨hasc, hzero⟩ := (scanon_iff 0 m).1 hm
  constructor
  · intro h
    exact ⟨by simp [Memory.byte, sget, lookup_of_mem hasc h], hzero _ h⟩
  · rintro ⟨rfl, hb⟩
    cases hl : m.lookup l with
    | none => exact absurd (by simp [Memory.byte, sget, hl]) hb
    | some x =>
      have hx : Memory.byte m l = x := by simp [Memory.byte, sget, hl]
      exact hx ▸ lookup_mem m l x hl

/-- A canonical memory is determined by its bytes: ascending lists with the same cells are equal. -/
theorem eq_of_byte_eq {m n : Memory} (hm : Memory.wf m = true) (hn : Memory.wf n = true) (h : ∀ l, Memory.byte m l = Memory.byte n l) :
    m = n := by
  have hm' := ((scanon_iff 0 m).1 hm).1
  have hn' := ((scanon_iff 0 n).1 hn).1
  have : Std.Irrefl fun a b : Host.Cell => a.1 < b.1 := ⟨fun _ => lt_irrefl _⟩
  have : Std.Antisymm fun a b : Host.Cell => a.1 < b.1 := ⟨fun _ _ hab hba => absurd hab hba.asymm⟩
  refine hm'.eq_of_mem_iff hn' fun c => ?_
  rw [mem_iff_byte_eq hm c.1 c.2, mem_iff_byte_eq hn c.1 c.2, h]

/-- Settles O48: a canonical memory is the ascending list of its bytes that are not zero, and `write` replaces a range of bytes. -/
theorem memoryIsItsBytes : Obligations.MemoryIsItsBytes := by
  unfold Obligations.MemoryIsItsBytes
  refine ⟨fun m n hm hn h => eq_of_byte_eq hm hn h, fun m l bs => wf_write m l bs, read_write_same, fun m l bs a ha => ?_⟩
  rw [byte_write, if_neg ha]

/-- The memory of a state is in its canonical form. -/
def State.Canon (s : State) : Prop := Memory.wf s.mem = true

/-- Whatever state an option holds is canonical. -/
def OptCanon : Option State → Prop
  | some s => s.Canon
  | none => True

/-- Whatever state an option holds beside a value is canonical. -/
def OptCanon₂ {α : Type} : Option (α × State) → Prop
  | some p => p.2.Canon
  | none => True

/-- The next state, where there is one, is canonical. -/
def NextCanon : Host.Outcome State Fault Refusal → Prop
  | .next s => s.Canon
  | _ => True

/-- The state that an effect carries is canonical. -/
def Eff.Canon : Eff → Prop
  | .done s _ | .jump s _ | .trap _ s | .wait _ s | .gone s => s.Canon

/-- The state that a commit check leaves, where it leaves one, is canonical. -/
def Commit.Canon : Commit → Prop
  | .done s | .parked _ s | .held s => s.Canon
  | .bobbin => True

/-- The state is canonical whether the gate lets the fragment go or stops it. -/
def Gate.Canon : Gate → Prop
  | .go _ s | .stop s => s.Canon

/-- The state after a read is canonical, whatever the read answers. -/
def Got.Canon {α : Type} : Got α → Prop
  | .ok _ s | .absent _ s | .bad _ _ s | .later s => s.Canon

/-- The state after a read of the weight unit is canonical, whatever the read answers. -/
def WsGot.Canon : WsGot → Prop
  | .ok _ s | .absent _ s | .fail _ _ s | .later s => s.Canon

/-- The state after a block of weights is fetched is canonical, whatever came of it. -/
def WsBlock.Canon : WsBlock → Prop
  | .data _ _ _ s | .failed _ _ s | .absent _ s | .later s => s.Canon

/-- What an attempt leaves: the state where it succeeds, and the state where it does not, are canonical. -/
def TriedCanon (r : Option State × State) : Prop := OptCanon r.1 ∧ r.2.Canon

/-! ### Taking results apart

A canonical result known to be a given constructor has a canonical state (`_.done`, `_.some`, `_.ok`, …), and the ways
in which results are combined keep the form (`_.ite`, `_.map`, `_.bind`, …). -/

theorem TriedCanon.ite {a b : Option State × State} {c : Prop} [Decidable c] (ha : TriedCanon a) (hb : TriedCanon b) :
    TriedCanon (if c then a else b) := by
  split <;> assumption

theorem TriedCanon.kept {r : Option State × State} {o : Option State} {t : State} (h : TriedCanon r) (e : r = (o, t)) :
    t.Canon := by
  subst e; exact h.2

theorem TriedCanon.done {r : Option State × State} {t w : State} (h : TriedCanon r) (e : r = (.some t, w)) :
    t.Canon := by
  subst e; exact h.1

theorem NextCanon.next {o : Host.Outcome State Fault Refusal} {t : State} (h : NextCanon o) (e : o = .next t) :
    t.Canon := by
  subst e; exact h

theorem OptCanon.some {o : Option State} {t : State} (h : OptCanon o) (e : o = .some t) : t.Canon := by subst e; exact h

theorem OptCanon₂.some {α : Type} {o : Option (α × State)} {a : α} {t : State} (h : OptCanon₂ o) (e : o = .some (a, t)) :
    t.Canon := by
  subst e; exact h

theorem OptCanon.getD {o : Option State} {t : State} (h : OptCanon o) (ht : t.Canon) : (o.getD t).Canon := by
  cases o with
  | none => exact ht
  | some _ => exact h

theorem OptCanon.bind {o : Option State} {f : State → Option State} (h : OptCanon o) (hf : ∀ t, t.Canon → OptCanon (f t)) :
    OptCanon (o.bind f) := by
  cases o with
  | none => trivial
  | some t => exact hf t h

theorem OptCanon.map {o : Option State} {f : State → State} (h : OptCanon o) (hf : ∀ t, t.Canon → (f t).Canon) :
    OptCanon (o.map f) := by
  cases o with
  | none => trivial
  | some t => exact hf t h

theorem OptCanon.ite {a b : Option State} {c : Prop} [Decidable c] (ha : OptCanon a) (hb : OptCanon b) :
    OptCanon (if c then a else b) := by
  split <;> assumption

theorem Eff.Canon.done {e : Eff} {t : State} {b : Bool} (h : e.Canon) (he : e = .done t b) : t.Canon := by
  subst he; exact h

theorem Commit.Canon.done {e : Commit} {t : State} (h : e.Canon) (he : e = .done t) : t.Canon := by subst he; exact h

theorem Commit.Canon.parked {e : Commit} {t : State} {ps : List Nat} (h : e.Canon) (he : e = .parked ps t) :
    t.Canon := by
  subst he; exact h

theorem Commit.Canon.held {e : Commit} {t : State} (h : e.Canon) (he : e = .held t) : t.Canon := by subst he; exact h

theorem Gate.Canon.go {e : Gate} {t : State} {cx : Cx} (h : e.Canon) (he : e = .go cx t) : t.Canon := by
  subst he; exact h

theorem Gate.Canon.stop {e : Gate} {t : State} (h : e.Canon) (he : e = .stop t) : t.Canon := by subst he; exact h

theorem Got.Canon.ok {α : Type} {e : Got α} {t : State} {a : α} (h : e.Canon) (he : e = .ok a t) : t.Canon := by
  subst he; exact h

theorem Got.Canon.absent {α : Type} {e : Got α} {t : State} {p : Nat} (h : e.Canon) (he : e = .absent p t) :
    t.Canon := by
  subst he; exact h

theorem Got.Canon.bad {α : Type} {e : Got α} {t : State} {f : XFault} {va : Nat} (h : e.Canon) (he : e = .bad f va t) :
    t.Canon := by
  subst he; exact h

theorem Got.Canon.later {α : Type} {e : Got α} {t : State} (h : e.Canon) (he : e = .later t) : t.Canon := by
  subst he; exact h

theorem WsGot.Canon.ok {e : WsGot} {t : State} {cs : List Cell} (h : e.Canon) (he : e = .ok cs t) : t.Canon := by
  subst he; exact h

theorem WsGot.Canon.absent {e : WsGot} {t : State} {p : Nat} (h : e.Canon) (he : e = .absent p t) : t.Canon := by
  subst he; exact h

theorem WsGot.Canon.fail {e : WsGot} {t : State} {c b : Nat} (h : e.Canon) (he : e = .fail c b t) : t.Canon := by
  subst he; exact h

theorem WsGot.Canon.later {e : WsGot} {t : State} (h : e.Canon) (he : e = .later t) : t.Canon := by subst he; exact h

theorem WsBlock.Canon.data {e : WsBlock} {t : State} {bs sc : List Nat} {g : Tag} (h : e.Canon) (he : e = .data bs sc g t) :
    t.Canon := by
  subst he; exact h

theorem WsBlock.Canon.failed {e : WsBlock} {t : State} {f : WsFail} {n : Nat} (h : e.Canon) (he : e = .failed f n t) :
    t.Canon := by
  subst he; exact h

theorem WsBlock.Canon.absent {e : WsBlock} {t : State} {p : Nat} (h : e.Canon) (he : e = .absent p t) : t.Canon := by
  subst he; exact h

theorem WsBlock.Canon.later {e : WsBlock} {t : State} (h : e.Canon) (he : e = .later t) : t.Canon := by
  subst he; exact h

theorem Got.Canon.bind {α β : Type} {g : Got α} {f : α → State → Got β} (h : g.Canon) (hf : ∀ a t, t.Canon → (f a t).Canon) :
    (g.bind f).Canon := by
  unfold Got.bind
  split
  · exact hf _ _ h
  · exact h
  · exact h
  · exact h

theorem OptCanon₂.ite {α : Type} {a b : Option (α × State)} {c : Prop} [Decidable c] (ha : OptCanon₂ a) (hb : OptCanon₂ b) :
    OptCanon₂ (if c then a else b) := by split <;> assumption

theorem OptCanon₂.map {α : Type} {o : Option (α × State)} {f : α × State → State} (h : OptCanon₂ o)
    (hf : ∀ p, p.2.Canon → (f p).Canon) : OptCanon (o.map f) := by
  cases o with
  | none => trivial
  | some p => exact hf p h

/-! ### The functions of the model

`State.Canon.f` says that the function `f` keeps the form, so a proof composes these lemmas in the order in which the
definition composes the functions. Memory is changed through `State.write` and `State.wipe` alone; every update of the
other fields goes through `State.Canon.upd`. -/

namespace State.Canon

variable {s t : State}

protected theorem ite {c : Prop} [Decidable c] (h : s.Canon) (ht : t.Canon) : (if c then s else t).Canon := by
  split <;> assumption

protected theorem fst {α : Type} {p : State × α} {a : α} (h : p.1.Canon) (e : p = (t, a)) : t.Canon := by
  subst e; exact h

protected theorem snd {α : Type} {p : α × State} {a : α} (h : p.2.Canon) (e : p = (a, t)) : t.Canon := by
  subst e; exact h

protected theorem upd (h : s.Canon)
    {tags poison raw strands skeins launches contexts cores carding dies sec fabric link agenda cur turn fresh uid} :
    (State.mk s.mem tags poison raw strands skeins launches contexts cores carding dies sec fabric link agenda cur turn fresh
      uid).Canon := h

protected theorem foldl {α : Type} {f : State → α → State} {l : List α} (h : s.Canon) (hf : ∀ t a, t.Canon → (f t a).Canon) :
    (l.foldl f s).Canon :=
  foldl_keeps State.Canon f hf l s h

protected theorem foldlFst {α β : Type} {f : State × β → α → State × β} {p : State × β} {l : List α} (h : p.1.Canon)
    (hf : ∀ p a, p.1.Canon → (f p a).1.Canon) : (l.foldl f p).1.Canon :=
  List.foldlRecOn l f (motive := fun p => p.1.Canon) h fun p hp a _ => hf p a hp

protected theorem foldlSnd {α β : Type} {f : β × State → α → β × State} {p : β × State} {l : List α} (h : p.2.Canon)
    (hf : ∀ p a, p.2.Canon → (f p a).2.Canon) : (l.foldl f p).2.Canon :=
  List.foldlRecOn l f (motive := fun p => p.2.Canon) h fun p hp a _ => hf p a hp

protected theorem foldlSorted {α : Type} {f : Sorted → α → Sorted} {r : Sorted} {l : List α} (h : r.s.Canon)
    (hf : ∀ r a, r.s.Canon → (f r a).s.Canon) : (l.foldl f r).s.Canon :=
  List.foldlRecOn l f (motive := fun r => r.s.Canon) h fun r hr a _ => hf r a hr

protected theorem foldlM {α : Type} {f : State → α → Option State} {l : List α} (h : s.Canon)
    (hf : ∀ t a, t.Canon → OptCanon (f t a)) : OptCanon (l.foldlM f s) := by
  induction l generalizing s with
  | nil => exact h
  | cons a l ih =>
    rw [List.foldlM_cons]
    exact (hf s a h).bind fun t ht => ih ht

protected theorem write (h : s.Canon) {loc bs} : (s.write loc bs).Canon := s.write_wf _ _ h
protected theorem wipe (h : s.Canon) {loc n} : (s.wipe loc n).Canon := s.wipe_wf _ _ h
protected theorem poisonUnit (h : s.Canon) {u} : (s.poisonUnit u).Canon := s.poisonUnit_wf _ h
protected theorem settleUnit (h : s.Canon) {u} : (s.settleUnit u).Canon := s.settleUnit_wf _ h
protected theorem settle (h : s.Canon) {loc n} : (s.settle loc n).Canon := s.settle_wf _ _ h
protected theorem store (h : s.Canon) {ps} : (s.store ps).Canon := s.store_wf _ h
protected theorem storeAll (h : s.Canon) {ps} : (s.storeAll ps).Canon := s.storeAll_wf _ h
variable (h : s.Canon)
include h

/-! ### Tags, poison and raw errors -/

protected theorem setTag {sector t} : (State.setTag s sector t).Canon := h.upd
protected theorem clearPoison {u} : (State.clearPoison s u).Canon := h.upd
protected theorem dropRaw {ps} : (State.dropRaw s ps).Canon := h.upd
protected theorem countError {r fatal} : (State.countError s r fatal).Canon := h.upd

protected theorem settleStore {ps} : (State.settleStore s ps).Canon := by
  unfold State.settleStore
  split
  · exact h
  · exact h.dropRaw.foldl fun _ _ ht => ht.settleUnit

/-! ### Translation -/

protected theorem setCore {c x} : (State.setCore s c x).Canon := h.upd
protected theorem modContext {c f} : (State.modContext s c f).Canon := h.upd

protected theorem translate {w k va n} : (translate s w k va n).2.Canon := by
  unfold translate
  split
  · exact h
  · dsimp only
    split
    · split <;> exact h.setCore
    · split
      · exact h
      · exact h
      · split
        · exact h
        · split <;> exact h.write.setCore

protected theorem shootDown {ctx page} : (State.shootDown s ctx page).Canon := h.upd

/-! ### Mailboxes, launch records and reset -/

protected theorem devLoc {ctx va n wr} : OptCanon₂ (devLoc s ctx va n wr) := by
  unfold devLoc
  dsimp only
  split
  · refine OptCanon₂.ite trivial ?_
    split
    · exact h.write
    · trivial
  · trivial

protected theorem devPut {ctx va bs} : OptCanon (devPut s ctx va bs) :=
  h.foldlM fun _ _ ht => ht.devLoc.map fun _ hw => hw.write

protected theorem devPutQuiet {ctx va bs} : (devPutQuiet s ctx va bs).Canon := h.devPut.getD h

protected theorem bumpCount {ctx n off saturate} : OptCanon (bumpCount s ctx n off saturate) := by
  unfold bumpCount
  dsimp only
  split
  · trivial
  · exact h.devPut

protected theorem putSlot {ctx n bytes loc} : (putSlot s ctx n bytes loc).Canon := h.storeAll.modContext

protected theorem deliverOnce {ctx n bytes} : (deliverOnce s ctx n bytes).1.Canon := by
  unfold deliverOnce
  split
  · split
    · exact h.bumpCount.some ‹_›
    · exact h
  · split
    · exact h.bumpCount.some ‹_›
    · exact h
  · split
    · exact h.modContext
    · exact h.putSlot

protected theorem deliverQuiet {ctx n bytes} : (deliverQuiet s ctx n bytes).1.Canon := by
  unfold deliverQuiet
  dsimp only
  split
  · exact h.deliverOnce.deliverOnce
  · exact h.deliverOnce

protected theorem modLaunch {l f} : (State.modLaunch s l f).Canon := h.upd

protected theorem freeSlot {ctx n} : (freeSlot s ctx n).1.Canon := by
  unfold freeSlot
  dsimp only
  split
  · exact h.modContext.bumpCount.some ‹_›
  · exact h.modContext

protected theorem finishLaunch {key} : (finishLaunch s key).1.Canon := by
  unfold finishLaunch
  dsimp only
  split
  · refine State.Canon.freeSlot ?_
    split
    · exact h.modLaunch.upd.deliverQuiet
    · exact h.modLaunch.upd
  · dsimp only
    split
    · exact h.modLaunch.upd.deliverQuiet
    · exact h.modLaunch.upd

protected theorem vacate {key} : (State.vacate s key).Canon := by
  unfold State.vacate
  split
  · exact h
  · exact (h.wipe.wipe.ite h.wipe).upd

protected theorem dropSkein {key} : (State.dropSkein s key).Canon := h.vacate.upd
protected theorem headerPut {ctx} : OptCanon (headerPut s ctx) := h.devPut.bind fun _ ht => ht.devPut
protected theorem headerPut_getD {ctx} : ((headerPut s ctx).getD s).Canon := h.headerPut.getD h
protected theorem setStatus {ctx v} : (State.setStatus s ctx v).Canon := h.ite h.write

protected theorem endPreempt {ctx} : (State.endPreempt s ctx).Canon := by
  unfold State.endPreempt
  split
  · exact h
  · exact (h.upd.setStatus.ite h).modContext

protected theorem forceReset {ctx die reason} : (forceReset s ctx die reason).Canon :=
  ((h.foldl fun _ _ ht => ht.dropSkein).endPreempt.modContext.headerPut_getD.foldl
    fun _ _ ht => ht.modLaunch.finishLaunch).deliverQuiet

protected theorem devWrite {ctx die va bs} : (devWrite s ctx die va bs).Canon := h.devPut.getD h.forceReset

omit h in
protected theorem orReset {r ctx die} (hr : r.1.Canon) : (orReset r ctx die).Canon := by
  unfold orReset
  split
  · exact hr
  · exact hr.forceReset

protected theorem deliver {ctx die n bytes} : (deliver s ctx die n bytes).Canon := State.Canon.orReset h.deliverQuiet

protected theorem errorLog {ctx die cause launch sid addr} : (errorLog s ctx die cause launch sid addr).Canon :=
  h.deliver

protected theorem noteSlots {ps} : (noteSlots s ps).Canon := by
  unfold noteSlots
  refine h.foldl fun _ _ ht => ht.foldl fun _ _ hw => ?_
  split
  · exact hw
  · split
    · exact hw
    · split
      · exact State.Canon.orReset hw.freeSlot
      · exact hw

/-! ### Strands and their registers -/

protected theorem modStrand {u f} : (State.modStrand s u f).Canon := h.upd
protected theorem newId : (State.newId s).2.Canon := h.upd

protected theorem settleRegs {u m usedV usedS} : (State.settleRegs s u m usedV usedS).Canon := by
  unfold State.settleRegs
  dsimp only
  refine h.ite ?_
  exact h.modStrand.foldl fun _ _ ht => ht.countError

protected theorem slotWrite {u off bs} : (slotWrite s u off bs).Canon := h.devWrite

/-! ### Parts that several instructions share -/

protected theorem newEntries {core ctx i ps} : (newEntries s core ctx i ps).Canon := h.setCore.deliver

protected theorem waitPages {core ctx ps} : OptCanon (waitPages s core ctx ps) := by
  unfold waitPages
  dsimp only
  split
  · exact h
  · split
    · exact h.newEntries
    · split
      · trivial
      · change State.Canon _
        refine h.foldl fun _ _ ht => ?_
        split
        · exact ht.newEntries
        · exact ht

protected theorem takeIndex {u} : (takeIndex s u).2.Canon := by
  unfold takeIndex
  dsimp only
  split
  · split <;> exact h.modStrand
  · split
    · exact h.modStrand
    · split
      · exact h.modStrand
      · exact h.modLaunch

protected theorem mint {u pc own uniform r} : (mint s u pc own uniform r).2.Canon := by
  unfold mint
  split
  · exact h.takeIndex.snd ‹_›
  · dsimp only
    exact (h.takeIndex.snd ‹_›).newId.modStrand

protected theorem passBobbin {key} : (passBobbin s key).Canon := by
  unfold passBobbin
  dsimp only
  split
  · exact h.modLaunch
  · split
    · exact h.modLaunch
    · exact h

protected theorem snoop {ls} : (State.snoop s ls).Canon := h.upd

protected theorem sendPeer {type vc gang drank srank addr rtag ops payload} :
    (State.sendPeer s type vc gang drank srank addr rtag ops payload).Canon :=
  h.upd

protected theorem appendRecord {u bytes} : (appendRecord s u bytes).Canon := h.modStrand.ite h.devWrite.modStrand

omit h in
protected theorem sortLane {w r l} (hr : r.s.Canon) : (sortLane w r l).s.Canon := by
  unfold sortLane
  split
  · exact hr
  · split
    · exact hr.translate.snd ‹_›
    · exact hr.translate.snd ‹_›
    · exact hr.translate.snd ‹_›
    · split <;> exact hr.translate.snd ‹_›

protected theorem commitEntry {u e} : (commitEntry s u e).Canon := by
  unfold commitEntry
  extract_lets st r t l lanesOf fault sent w lanes
  have hr : r.s.Canon := State.Canon.foldlSorted (r := { s := s }) h fun _ _ hr => State.Canon.sortLane hr
  split
  · exact hr
  · split
    · trivial
    · split
      · exact hr
      · split
        · exact hr.snoop
        · have hw : w.Canon := hr.storeAll.noteSlots.foldl fun _ _ ht => ht.sendPeer.modStrand
          split
          · exact hw
          · exact hw.appendRecord.modStrand

protected theorem setEntry {u seq f} : (setEntry s u seq f).Canon := h.modStrand

protected theorem commitTry {u seq} : (commitTry s u seq).Canon := by
  unfold commitTry
  dsimp only
  split
  · exact h
  · refine h.ite ?_
    split
    · exact (h.commitEntry.done ‹_›).modStrand
    · split
      · exact ((h.commitEntry.parked ‹_›).waitPages.some ‹_›).setEntry
      · exact h.commitEntry.parked ‹_›
    · exact h.setEntry
    · exact h.commitEntry.held ‹_›

protected theorem commitPass {u sel} : (commitPass s u sel).Canon := h.foldl fun _ _ ht => ht.commitTry

protected theorem mintNow {u pc lane r} : (mintNow s u pc lane r).2.Canon := by
  unfold mintNow
  split
  · exact h.takeIndex.snd ‹_›
  · dsimp only
    exact (h.takeIndex.snd ‹_›).newId.modStrand.commitTry

protected theorem openRegionAs {u m start own id} : (openRegionAs s u m start own id).Canon := h.modStrand
protected theorem openRegion {u m start own} : (openRegion s u m start own).Canon := h.newId.openRegionAs

protected theorem closeThreads {u m own} : (closeThreads s u m own).Canon := by
  unfold closeThreads
  dsimp only
  exact h.upd.modStrand

protected theorem discard {u m ctl} : (discard s u m ctl).2.Canon := by
  unfold discard
  dsimp only
  exact h.modStrand

protected theorem unwind {u cause} : OptCanon (unwind s u cause) := by
  unfold unwind
  dsimp only
  split
  · trivial
  · exact h.discard.modStrand.openRegion

protected theorem countEnd {u} : (countEnd s u).Canon := h.modLaunch
protected theorem uncard {u} : (State.uncard s u).Canon := h.upd

protected theorem endStrand {u phase} : (endStrand s u phase).Canon :=
  h.countEnd.modStrand.uncard.passBobbin.ite h.countEnd.modStrand.uncard

protected theorem terminate {u cause} : (terminate s u cause).Canon := h.modStrand.endStrand.modLaunch.upd

protected theorem trapTag {p x} : (trapTag s p x).2.2.Canon := by
  unfold trapTag
  dsimp only
  split
  · exact h
  · split
    · exact h
    · split
      · exact h
      · exact h.mintNow

protected theorem takeTrap {p x} : (takeTrap s p x).Canon := by
  unfold takeTrap
  dsimp only
  split
  · exact h.trapTag.errorLog.terminate
  · split
    · exact h.trapTag.errorLog.terminate
    · exact h.trapTag.slotWrite.modStrand.openRegion

protected theorem reenter {p count err mismatch} : (reenter s p count err mismatch).Canon := by
  unfold reenter
  extract_lets t st limit det
  have ht : t.Canon := h.ite h.modStrand
  split
  · split
    · exact ht.unwind.some ‹_›
    · dsimp only
      exact ht.discard.takeTrap
  · dsimp only
    exact ht.discard.modStrand

protected theorem leaveTrap {u} : (leaveTrap s u).Canon := h.modStrand

protected theorem tretRestart {p t} : (tretRestart s p t).Canon := by
  unfold tretRestart
  dsimp only
  split
  · split
    · split
      · exact h.leaveTrap.discard.unwind.some ‹_›
      · exact h.leaveTrap.discard.takeTrap
    · exact h.leaveTrap.discard.modStrand
  · exact h.leaveTrap.discard.modStrand.openRegion

protected theorem tretNext {p t} : (tretNext s p t).Canon := h.leaveTrap.modStrand.openRegion.ite h.leaveTrap.modStrand

/-! ### Operands -/

protected theorem writeD {cx d rs} : (writeD s cx d rs).Canon := h.modStrand
protected theorem writeP {cx d rs} : (writeP s cx d rs).Canon := h.modStrand
protected theorem writeK {cx d b} : (writeK s cx d b).Canon := h.modStrand
protected theorem writeU {cx d ws t} : (writeU s cx d ws t).Canon := h.modStrand

protected theorem resultTag {cx own uniform lane srcs listed ev fmt pat} :
    (resultTag s cx own uniform lane srcs listed ev fmt pat).2.Canon := by
  unfold resultTag
  dsimp only
  split
  · exact h
  · split
    · exact h
    · split
      · exact h
      · split
        · exact h.mint
        · split
          · exact h
          · exact h.mint

protected theorem tagLanes {cx fmt rs} : (tagLanes s cx fmt rs).1.Canon := h.foldlFst fun _ _ ht => ht.resultTag
protected theorem ok : (Eff.ok s).Canon := h

protected theorem addrTrap {cause va lane lanes base idx uniform} :
    (addrTrap cause va lane lanes base idx uniform s).Canon :=
  h

/-! ### Issue and traps -/

protected theorem park {u m w} : (park s u m w).Canon := h.modStrand.upd
protected theorem stopRun : (stopRun s).Canon := h.upd
protected theorem dropFaults {u fs} : (dropFaults s u fs).Canon := h.modStrand

protected theorem enterBoundary {p} : (enterBoundary s p).Canon := by
  unfold enterBoundary
  split
  · exact h
  · dsimp only
    exact h.newId.closeThreads.openRegionAs

protected theorem checkEarlier {p} : (checkEarlier s p).Canon := h.commitPass
protected theorem trapAt {p op r us x} : (trapAt s p op r us x).Canon := h.takeTrap.stopRun

protected theorem gate {op r us p} : (gate op r us p s).Canon := by
  unfold gate
  extract_lets st
  split
  · exact h.trapAt
  next s₁ st₁ due s₂ st₂ act use s₃ st₃ pops _ _ =>
    have h₁ : s₁.Canon := h.checkEarlier.ite h
    have h₂ : s₂.Canon := h₁.enterBoundary.ite h₁
    split
    · exact h.park
    · split
      · exact h.park
      · split
        · exact h₁.dropFaults.trapAt
        · split
          · exact h₂.park
          · split
            · exact h₂.park
            · exact h₂.settleRegs

protected theorem windows {cx us taken} : (windows s cx us taken).Canon := by
  unfold windows
  dsimp only
  exact h.newId.modStrand

protected theorem leaveBoundary {u m} : (leaveBoundary s u m).Canon := by
  unfold leaveBoundary
  dsimp only
  exact h.newId.closeThreads.foldl fun _ _ ht => ht.openRegion

protected theorem complete {cx us jumped taken} : (complete s cx us jumped taken).Canon :=
  (h.modStrand.windows.leaveBoundary.ite h.modStrand.windows).stopRun.ite
    (h.modStrand.windows.leaveBoundary.ite h.modStrand.windows)

protected theorem consume {after u} (hafter : after.Canon) : (consume s after u).1.Canon := by
  unfold consume
  split
  · exact h.modStrand.unwind.some ‹_›
  · exact hafter.modStrand

protected theorem finish {cx us e} (he : e.Canon) : (finish s cx us e).Canon := by
  unfold finish
  split
  · exact he.complete
  · split
    · exact ((h.consume he).fst ‹_›).stopRun
    · exact ((h.consume he).fst ‹_›).complete
  · exact he.complete
  · exact he.trapAt
  · exact he.park
  · exact he.stopRun

protected theorem issueAt {i op r u m body} (hbody : ∀ a t, t.Canon → (body a t).Canon) :
    (issueAt i op r u m s body).Canon := by
  unfold issueAt
  dsimp only
  split
  · exact h.gate.stop ‹_›
  · refine (h.gate.go ‹_›).finish ?_
    split
    · exact (h.gate.go ‹_›).ok
    · exact hbody _ _ (h.gate.go ‹_›)

protected theorem issue {i body} (hbody : ∀ a t, t.Canon → (body a t).Canon) : NextCanon (issue i s body) := by
  unfold issue
  split
  · exact h.issueAt fun _ _ ht => hbody _ _ ht
  · trivial

/-! ### Settling of buffered stores -/

protected theorem settleStores {u m restart next k} (hk : ∀ t, t.Canon → (k t).Canon) :
    (settleStores s u m restart next k).Canon := by
  unfold settleStores
  dsimp only
  split
  · exact h.commitPass
  · split
    · exact hk _ h.commitPass
    · exact h.commitPass.dropFaults

protected theorem release {u pc m scope k} (hk : ∀ t, t.Canon → (k t).Canon) : (release s u pc m scope k).Canon := by
  unfold release
  refine h.settleStores fun _ ht => ?_
  split
  · exact ht
  · split
    · exact ht
    · dsimp only
      split
      · exact hk _ ht
      · exact ht.modStrand

protected theorem closeAll {p} : (closeAll s p).Canon := by
  unfold closeAll
  dsimp only
  split
  · exact h
  · exact h.newId.closeThreads.openRegionAs

protected theorem finalExit {p k} (hk : ∀ t, t.Canon → (k t).Canon) : (finalExit s p k).Canon := by
  unfold finalExit
  dsimp only
  split
  · exact h
  · split
    · exact h.closeAll.commitPass
    · split
      · exact h.closeAll.commitPass
      · split
        · exact h.closeAll.commitPass.dropFaults
        · exact h.closeAll.commitPass.modStrand
        · exact h.closeAll.commitPass.modStrand
        · exact h.closeAll.commitPass.modStrand
        · exact hk _ h.closeAll.commitPass.endStrand

/-! ### Flags -/

protected theorem orFpTrap {u gathered go} (hgo : go.Canon) : (orFpTrap s u gathered go).Canon := by
  unfold orFpTrap
  split
  · exact h
  · exact hgo

protected theorem settleFp {u gathered draw} : (settleFp s u gathered draw).Canon := h.modStrand

protected theorem finishLanes {cx d fmt draw rs} : (finishLanes s cx d fmt draw rs).Canon := by
  unfold finishLanes
  dsimp only
  exact h.orFpTrap h.tagLanes.writeD.settleFp

protected theorem finishUniform {cx d fmt draw r} : (finishUniform s cx d fmt draw r).Canon := by
  unfold finishUniform
  refine h.orFpTrap ?_
  dsimp only
  exact h.resultTag.writeU.settleFp

protected theorem finishPreds {cx d rs poison} : (finishPreds s cx d rs poison).Canon := h.writeP

/-! ### Integer instructions on vectors -/

protected theorem alu2 {o f cx} : (alu2 o f cx s).Canon := h.finishLanes
protected theorem alu3 {o f cx} : (alu3 o f cx s).Canon := h.finishLanes
protected theorem alu1 {o f cx} : (alu1 o f cx s).Canon := h.finishLanes
protected theorem srRefused : (srRefused s).Canon := h

protected theorem execScan {o} : NextCanon (execScan o s) := by
  unfold execScan
  refine h.issue fun _ _ ht => ?_
  dsimp only
  split
  · exact ht.srRefused
  · split
    · exact ht.finishLanes.done ‹_›
    · exact ht.finishLanes

protected theorem execSread {o} : NextCanon (execSread o s) := by
  unfold execSread
  refine h.issue fun _ _ ht => ?_
  dsimp only
  split
  · exact ht.writeU.ok
  · exact ht.writeD.ok

/-! ### Floating-point instructions -/

protected theorem fpLanes {d fmt rm ops lane cx} : (fpLanes d fmt rm ops lane cx s).Canon := h.finishLanes
protected theorem fp1 {o op a2} : (fp1 o op a2 s).Canon := h.fpLanes
protected theorem fp2 {o op a2} : (fp2 o op a2 s).Canon := h.fpLanes
protected theorem fp3 {o op a2} : (fp3 o op a2 s).Canon := h.fpLanes
protected theorem dp2 {o op a2} : (dp2 o op a2 s).Canon := h.fpLanes
protected theorem dp3 {o op a2} : (dp3 o op a2 s).Canon := h.fpLanes
protected theorem packed2 {f o op a3} : (packed2 f o op a3 s).Canon := h.fpLanes
protected theorem packed3 {f o op a3} : (packed3 f o op a3 s).Canon := h.fpLanes
protected theorem minmaxLanes {max o cx} : (minmaxLanes max o cx s).Canon := h.finishLanes

/-! ### Conversions -/

protected theorem execCvt {o} : NextCanon (execCvt o s) := by
  unfold execCvt
  refine h.issue fun _ _ ht => ?_
  dsimp only
  split
  · exact ht.srRefused
  · exact ht.finishLanes

protected theorem dotLanes {eight o cx} : (dotLanes eight o cx s).Canon := h.finishLanes

protected theorem execWupd {o} : NextCanon (execWupd o s) := by
  unfold execWupd
  refine h.issue fun _ _ ht => ?_
  dsimp only
  split
  · exact (ht.finishLanes.done ‹_›).writeP.writeP
  · exact ht.finishLanes

/-! ### Uniform instructions -/

protected theorem salu {o f cx} : (salu o f cx s).Canon := h.finishUniform

protected theorem execVtos {o} : NextCanon (execVtos o s) := by
  unfold execVtos
  refine h.issue fun _ _ ht => ?_
  dsimp only
  split
  · exact ht.finishUniform
  · exact ht.writeK.finishUniform
  · exact ht.finishUniform
  · split
    · exact ht.srRefused
    · exact ht.finishUniform

/-! ### Control flow -/

protected theorem goTo {cx targets} : (goTo s cx targets).Canon := h.modStrand
protected theorem branch {o cx} : (branch o cx s).Canon := h.goTo
protected theorem pushReturn {u i pc} : (pushReturn s u i pc).Canon := (h.slotWrite.ite h).modStrand

protected theorem callTo {cx targets} : (callTo s cx targets).Canon := by
  unfold callTo
  split
  · exact h
  · exact (h.foldl fun _ _ ht => ht.pushReturn).goTo

protected theorem regTargets {target cx k} (hk : ∀ a t, t.Canon → (k a t).Canon) :
    (regTargets target cx s k).Canon := by
  unfold regTargets
  dsimp only
  split
  · exact h.addrTrap
  · exact h.addrTrap
  · exact hk _ _ h

protected theorem execRet {o} : NextCanon (execRet o s) := by
  unfold execRet
  refine h.issue fun _ _ ht => ?_
  dsimp only
  split
  · exact ht
  · exact ht.modStrand.goTo

protected theorem exitSome {cx} : (exitSome s cx).Canon := by
  unfold exitSome
  dsimp only
  split
  · exact h.modStrand.ok
  · split
    · exact h
    · exact h.newId.modStrand.closeThreads.ok

protected theorem execExit {o} : NextCanon (execExit o s) := by
  unfold execExit
  refine h.issue fun _ _ ht => ?_
  dsimp only
  split
  · exact ht
  · split
    · exact ht.finalExit fun _ ht => ht
    · exact ht.exitSome

protected theorem setSpans {u f} : (setSpans s u f).Canon := h.modStrand

protected theorem execGuardOpen {o} : NextCanon (execGuardOpen o s) := by
  unfold execGuardOpen
  refine h.issue fun _ _ ht => ?_
  dsimp only
  split
  · exact ht
  · exact ht.setSpans.ok

protected theorem execGuardClose {o} : NextCanon (execGuardClose o s) := by
  unfold execGuardClose
  refine h.issue fun _ _ ht => ?_
  split
  · exact ht
  · exact ht.setSpans.ok

protected theorem tret {k cx} (hk : ∀ a b t, t.Canon → (k a b t).Canon) : (tret k cx s).Canon := by
  unfold tret
  split
  · exact h
  · dsimp only
    split
    · exact h.newId.closeThreads.commitPass
    · split
      · exact hk _ _ _ h.newId.closeThreads.commitPass
      · exact h.newId.closeThreads.commitPass.dropFaults

protected theorem execChkerr {o} : NextCanon (execChkerr o s) := by
  unfold execChkerr
  refine h.issue fun _ _ ht => ?_
  dsimp only
  split
  · exact ht
  · exact (ht.writeK.modStrand.ite ht.writeK).ok

protected theorem execTagSet {o} : NextCanon (execTagSet o s) := by
  unfold execTagSet
  refine h.issue fun _ _ ht => ?_
  dsimp only
  split
  · exact ht
  · exact ht.writeD

protected theorem mintLanes {cx xs} : (mintLanes s cx xs).1.Canon := by
  unfold mintLanes
  dsimp only
  refine h.foldlFst fun _ _ ht => ?_
  dsimp only
  split
  · exact ht.mint
  · exact ht

protected theorem execTagMint {o} : NextCanon (execTagMint o s) := by
  unfold execTagMint
  refine h.issue fun _ _ ht => ?_
  dsimp only
  exact ht.mintLanes.writeD

/-! ### Accesses to memory -/

protected theorem withAddrs {xs align uniform k} (hk : ∀ t, t.Canon → (k t).Canon) :
    (withAddrs xs align uniform s k).Canon := by
  unfold withAddrs
  split
  · exact h.addrTrap
  · exact hk _ h

protected theorem fateOf {w k va n} : (fateOf s w k va n).2.Canon := by
  unfold fateOf
  split
  · split <;> exact h.translate.snd ‹_›
  · exact h.translate.snd ‹_›
  · exact h.translate.snd ‹_›
  · exact h.translate.snd ‹_›

protected theorem fates {u uniform k n xs} : (fates s u uniform k n xs).2.Canon := h.foldlSnd fun _ _ ht => ht.fateOf
protected theorem permTrap {f sub va} : (permTrap f sub va s).Canon := h

protected theorem parkUnder {u ps wr reenter} : (parkUnder s u ps wr reenter).Canon := by
  unfold parkUnder
  dsimp only
  split
  · exact h.waitPages.some ‹_›
  · exact h

protected theorem withHits {fs sub absent k} (habsent : ∀ a t, t.Canon → (absent a t).Canon)
    (hk : ∀ t, t.Canon → (k t).Canon) : (withHits fs sub s absent k).Canon := by
  unfold withHits
  split
  · exact h.permTrap
  · exact habsent _ _ h
  · exact hk _ h

protected theorem perform {ps} : (perform s ps).Canon := h.storeAll.noteSlots
protected theorem performUntagged {ps} : (performUntagged s ps).Canon := h.settleStore.store.upd.noteSlots

protected theorem hostFree {ls k} (hk : ∀ t, t.Canon → (k t).Canon) : (hostFree s ls k).Canon := by
  unfold hostFree
  split
  · exact hk _ h
  · exact h.snoop

protected theorem afterStores {u m k} (hk : ∀ t, t.Canon → (k t).Canon) : (afterStores s u m k).Canon := by
  unfold afterStores
  dsimp only
  split
  · exact h.commitPass
  · exact hk _ h.commitPass

protected theorem settleHits {n fs} : (settleHits s n fs).Canon := by
  unfold settleHits
  refine h.foldl fun _ _ ht => ?_
  split
  · exact ht.settle
  · exact ht

protected theorem loadTag {cx own uniform x r} : (loadTag s cx own uniform x r).2.Canon := by
  unfold loadTag
  split
  · exact h.resultTag
  · exact h

protected theorem askPeer {u rank pa type ops w} : (askPeer s u rank pa type ops w).Canon := by
  unfold askPeer
  dsimp only
  exact (h.newId.ite h.newId.sendPeer).modStrand

protected theorem overflow {cx} : (overflow s cx).Canon := by
  unfold overflow
  dsimp only
  exact h.discard.modStrand

protected theorem bufferStore {cx kind size sc lanes} : (bufferStore s cx kind size sc lanes).Canon := by
  unfold bufferStore
  dsimp only
  exact h.newId.modStrand

/-! ### Atomic operations -/

protected theorem rmw {loc n tag new} : (rmw s loc n tag new).s.Canon := by
  unfold rmw
  dsimp only
  split
  · exact h.settle
  · split
    · exact h.settle.perform
    · exact h.settle

protected theorem atomLane {k o cx x f} : (atomLane k o cx x f s).1.Canon := by
  unfold atomLane
  dsimp only
  split
  · exact h.rmw.loadTag.ite h.rmw.loadTag.writeD
  · exact h.askPeer
  · exact h

protected theorem atomAll {k o cx fs} : (atomAll k o cx fs s).Canon := by
  unfold atomAll
  split
  · exact h
  · split
    · exact h
    · exact h.hostFree fun _ ht => ht.foldlFst fun _ _ hw => hw.atomLane

protected theorem atomic {k o cx} : (atomic k o cx s).Canon := by
  unfold atomic
  dsimp only
  refine h.withAddrs fun _ ht => ht.fates.withHits (fun _ _ hw => hw.parkUnder) fun _ hw => ?_
  split
  · exact hw.release fun _ ht => ht.atomAll
  · exact hw.afterStores fun _ ht => ht.atomAll

protected theorem execFence {o} : NextCanon (execFence o s) := by
  unfold execFence
  refine h.issue fun _ _ ht => ?_
  split
  · exact ht.ok
  · exact ht.release fun _ ht => ht.ok

/-! ### Barriers -/

protected theorem barWrite {loc x} : (barWrite s loc x).Canon := h.performUntagged
protected theorem barWaiters {loc up} : (barWaiters s loc up).Canon := h.barWrite

protected theorem barObject {k b disp cx body} (hbody : ∀ a b t, t.Canon → (body a b t).Canon) :
    (barObject k b disp cx s body).Canon := by
  unfold barObject
  dsimp only
  refine h.withAddrs fun _ ht => ht.fates.withHits (fun _ _ hw => hw.parkUnder) fun _ hw => ?_
  split
  · exact hw
  · exact hbody _ _ _ hw

protected theorem askBarrier {cx slot pa op operand d words pred} :
    (askBarrier s cx slot pa op operand d words pred).Canon :=
  h.askPeer

protected theorem execBari {o} : NextCanon (execBari o s) := by
  unfold execBari
  refine h.issue fun _ _ ht => ht.barObject fun _ _ _ hw => ?_
  dsimp only
  split
  · exact hw
  · refine hw.afterStores fun _ ht => ?_
    split
    · exact ht
    · refine ht.hostFree fun _ ht => ?_
      split
      · exact ht.barWrite
      · exact ht.newId.sendPeer.modStrand
      · exact ht.ok

protected theorem execBarv {o} : NextCanon (execBarv o s) := by
  unfold execBarv
  refine h.issue fun _ _ ht => ht.barObject fun _ _ _ hw => hw.release fun _ hx => ?_
  split
  · exact hx
  · refine hx.hostFree fun _ ht => ?_
    dsimp only
    split
    · split
      · exact ht.barWrite
      · exact ht
      · exact ht.barWrite.writeU
    · split
      · exact ht
      · exact ht.askBarrier
    · exact ht.ok

protected theorem execBarw {o} : NextCanon (execBarw o s) := by
  unfold execBarw
  refine h.issue fun _ _ ht => ht.barObject fun _ _ _ hw => ?_
  dsimp only
  split
  · split
    · exact hw
    · split
      · exact hw.writeK
      · split
        · exact hw.writeK
        · split
          · exact hw
          · exact hw.hostFree fun _ ht => (ht.modStrand.ite ht).barWaiters
  · exact hw.askBarrier
  · exact hw.ok

protected theorem execTokw {o} : NextCanon (execTokw o s) := by
  unfold execTokw
  refine h.issue fun _ _ ht => ?_
  dsimp only
  split
  · exact ht
  · split
    · exact ht.ok
    · exact ht

protected theorem execTokp {o} : NextCanon (execTokp o s) := by
  unfold execTokp
  refine h.issue fun _ _ ht => ?_
  dsimp only
  split
  · exact ht
  · split
    · exact ht
    · split
      · exact ht.commitPass
      · exact ht.commitPass.passBobbin.ok

/-! ### Units of the engines -/

protected theorem rangeOf {w k va n} : (rangeOf s w k va n).2.Canon := by
  refine State.Canon.foldlSnd h fun r p hr => ?_
  have hf : (if 2 ^ 56 ≤ p.1 then (.bad .perm, r.2) else fateOf r.2 w k p.1 p.2 : Fate × State).2.Canon := by
    split
    · exact hr
    · exact hr.fateOf
  split
  · split <;> exact hf.snd ‹_›
  · exact hr

protected theorem settleParts {ps} : (settleParts s ps).Canon := h.foldl fun _ _ ht => ht.settle
protected theorem parkPage {core ctx page wr} : OptCanon (parkPage s core ctx page wr) := h.waitPages
protected theorem dropPeerBytes {u owner} : (dropPeerBytes s u owner).Canon := h.modStrand

protected theorem peerBytes {u owner rank pa n va} : (peerBytes s u owner rank pa n va).Canon := by
  unfold peerBytes
  dsimp only
  split
  · exact (h.foldl fun _ _ ht => ht.ite ht.newId.sendPeer.modStrand).dropPeerBytes
  · split <;> exact h.foldl fun _ _ ht => ht.ite ht.newId.sendPeer.modStrand

protected theorem gotAll {α β : Type} {f : α → State → Got β} {l : List α}
    (hf : ∀ a t, t.Canon → (f a t).Canon) : (gotAll f l s).Canon := by
  induction l generalizing s with
  | nil => exact h
  | cons a l ih => exact (hf a s h).bind fun b t ht => (ih ht).bind fun bs w hw => hw

protected theorem fetchCells {k u id va n} : (fetchCells k u id va n s).Canon := by
  unfold fetchCells
  dsimp only
  split
  · exact h.rangeOf.snd ‹_›
  · exact h.rangeOf.snd ‹_›
  · exact (h.rangeOf.snd ‹_›).settleParts
  · exact Got.Canon.bind (h.rangeOf.snd ‹_›).peerBytes fun _ _ ht => ht

protected theorem fetchRange {k u id va n} : (fetchRange k u id va n s).Canon :=
  Got.Canon.bind (h.gotAll fun _ _ ht => ht.fetchCells) fun _ _ ht => ht

protected theorem pushEntry {u j e} : (pushEntry s u j e).Canon := h.modStrand
protected theorem popEntry {u j} : (popEntry s u j).Canon := h.modStrand

/-! ### What an engine reads -/

protected theorem fetchWord {u va} : (fetchWord s u va).2.Canon := by
  unfold fetchWord
  split
  · exact h
  · split
    · exact (h.fateOf.snd ‹_›).settle
    · split
      · exact (h.fateOf.snd ‹_›).peerBytes.ok ‹_›
      · exact (h.fateOf.snd ‹_›).peerBytes.absent ‹_›
      · exact (h.fateOf.snd ‹_›).peerBytes.bad ‹_›
      · exact (h.fateOf.snd ‹_›).peerBytes.later ‹_›
    · exact h.fateOf.snd ‹_›
    · exact h.fateOf.snd ‹_›
    · exact h.fateOf.snd ‹_›

protected theorem fetchRest {u va k i} : (fetchRest s u va k i).2.Canon := by
  induction k generalizing s i with
  | zero => exact h
  | succ k ih => exact ih h.fetchWord

protected theorem fetchAt {u pc} : (fetchAt s u pc).2.Canon := by
  unfold fetchAt
  dsimp only
  split
  · exact (h.fetchWord.snd ‹_›).fetchRest
  · exact h.fetchWord

protected theorem earlyTrap {u m w cause sub addr} : (earlyTrap s u m w cause sub addr).Canon := h.takeTrap.stopRun

protected theorem rejectTrap {u m w r} : (rejectTrap s u m w r).Canon := by
  unfold rejectTrap
  split <;> exact h.earlyTrap

protected theorem parkFetch {u m ps} : (parkFetch s u m ps).Canon := by
  unfold parkFetch
  dsimp only
  split
  · exact (h.waitPages.some ‹_›).park
  · exact h.park

/-! ### Run cards -/

protected theorem setCards {part c} : (State.setCards s part c).Canon := h.upd
protected theorem rest {u mask pc} : (State.rest s u mask pc).Canon := h.setCards
protected theorem unspill {part} : (State.unspill s part).Canon := h.ite (h.setCards.foldl fun _ _ ht => ht.ite ht.rest)
protected theorem recard {u} : (State.recard s u).Canon := (h.setCards.foldl fun _ _ ht => ht.rest).unspill
protected theorem wakeIf {u f} : (State.wakeIf s u f).Canon := h.modStrand.recard.ite h
protected theorem wakeAll {mine f} : (State.wakeAll s mine f).Canon := h.foldl fun _ _ ht => ht.wakeIf

protected theorem endRun : (State.endRun s).Canon := by
  unfold State.endRun
  split
  · exact h
  · exact h.upd.setCards.foldl fun _ _ ht => ht.recard

/-! ### Copies -/

protected theorem slotTurn {ctx n id loc bytes} : (slotTurn s ctx n id loc bytes).2.Canon := by
  unfold slotTurn
  dsimp only
  split
  · split
    · exact h.modContext.putSlot
    · exact h.ite h.modContext
  · split
    · exact h.modContext.putSlot
    · exact h.ite h.modContext

protected theorem modCopy {core id f} : (modCopy s core id f).Canon := h.upd
protected theorem dropCopy {core id} : (dropCopy s core id).Canon := h.upd

protected theorem barrierDone {c} : OptCanon (barrierDone s c) := by
  unfold barrierDone
  dsimp only
  split
  · exact h
  · split
    · exact (h.fateOf.snd ‹_›).barWrite
    · exact (h.fateOf.snd ‹_›).askBarrier
    · trivial
    · exact h.fateOf.snd ‹_›

protected theorem endCopy {core c f} : (endCopy s core c f).Canon := by
  unfold endCopy
  split
  · split
    · exact (h.parkPage.some ‹_›).modCopy
    · exact h
  · dsimp only
    split
    · exact (h.barrierDone.some ‹_›).dropCopy.modStrand
    · exact (h.barrierDone.some ‹_›).dropCopy

protected theorem parkCopy {core c page wr} : (parkCopy s core c page wr).Canon := by
  unfold parkCopy
  split
  · exact (h.parkPage.some ‹_›).modCopy
  · exact h

protected theorem stopCopy {core c f va} : (stopCopy s core c f va).Canon := h.endCopy
protected theorem movePoison {cs loc} : (movePoison s cs loc).Canon := h.ite (h.foldl fun _ _ ht => ht.poisonUnit)
protected theorem copyWrite {w c host cs loc} : (copyWrite s w c host cs loc).Canon := h.perform.movePoison.upd

protected theorem copySend {c rank pa bs} : (copySend s c rank pa bs).Canon := by
  unfold copySend
  dsimp only
  exact h.newId.sendPeer.modStrand

protected theorem advanceCopy {core c n} : (advanceCopy s core c n).Canon := h.dropPeerBytes.modCopy

protected theorem onSource {core c n both k} (hk : ∀ a t, t.Canon → (k a t).Canon) :
    (onSource s core c n both k).Canon := by
  unfold onSource
  split
  · exact (h.fetchRange.absent ‹_›).parkCopy
  · exact (h.fetchRange.bad ‹_›).stopCopy
  · exact h.fetchRange.later ‹_›
  · exact hk _ _ (h.fetchRange.ok ‹_›)

protected theorem copySlot {core c ctx n loc} : (copySlot s core c ctx n loc).Canon := by
  unfold copySlot
  refine h.onSource fun _ _ ht => ?_
  split
  · exact (ht.slotTurn.snd ‹_›).advanceCopy
  · exact (ht.slotTurn.snd ‹_›).modCopy

protected theorem copyInto {w core c host cs d} : (copyInto s w core c host cs d).Canon := by
  unfold copyInto
  dsimp only
  split
  · exact h.copySend.advanceCopy
  · split
    · exact h
    · split
      · exact h.snoop
      · split
        · exact h.endCopy
        · split
          · exact h.copySlot
          · exact h.copyWrite.advanceCopy
  · exact h

protected theorem copySector {core c} : (copySector s core c).Canon := by
  unfold copySector
  dsimp only
  split
  · exact h.stopCopy
  · refine h.onSource fun _ _ ht => ?_
    split
    · exact (ht.rangeOf.snd ‹_›).parkCopy
    · exact (ht.rangeOf.snd ‹_›).stopCopy
    · exact (ht.rangeOf.snd ‹_›).copyInto

protected theorem dstParts {w va n} : (dstParts w va n s).Canon := by
  unfold dstParts
  refine h.gotAll fun _ _ ht => ?_
  split <;> exact ht.rangeOf.snd ‹_›

protected theorem copyFromEntry {core c} : (copyFromEntry s core c).Canon := by
  unfold copyFromEntry
  dsimp only
  split
  · exact h
  · split
    · exact (h.dstParts.absent ‹_›).parkCopy
    · exact (h.dstParts.bad ‹_›).stopCopy
    · exact h.dstParts.later ‹_›
    · split
      · exact h.dstParts.ok ‹_›
      · refine (h.dstParts.ok ‹_›).snoop.ite ?_
        refine ((h.dstParts.ok ‹_›).foldlFst fun _ _ ht => ?_).popEntry.perform.advanceCopy
        split
        · exact ht.copySend
        · exact ht
        · exact ht

protected theorem copyToEntry {core c} : (copyToEntry s core c).Canon := by
  unfold copyToEntry
  dsimp only
  split
  · exact h
  · exact h.onSource fun _ _ ht => ht.pushEntry.advanceCopy

protected theorem copySteps {core id fuel} : (copySteps core id fuel s).Canon := by
  induction fuel generalizing s with
  | zero => exact h
  | succ fuel ih =>
    unfold copySteps
    split
    · exact h
    · split
      · exact h.endCopy
      · extract_lets t
        have ht : t.Canon := by
          unfold t
          split
          · exact h.copySector
          · exact h.copyFromEntry
          · exact h.copyToEntry
        split
        · exact ht
        · exact ht.ite (ih ht)

protected theorem copyRun {core id} : (copyRun s core id).Canon := by
  unfold copyRun
  split
  · exact h
  · exact h.copySteps

protected theorem startCopy {cx mode dst src len bar o} : (startCopy s cx mode dst src len bar o).Canon := by
  unfold startCopy
  dsimp only
  split
  · exact h.newId.modStrand.setCore.copyRun
  · exact h.newId.modStrand.setCore

protected theorem pendUp {cx c k} (hk : ∀ a t, t.Canon → (k a t).Canon) : (pendUp cx c s k).Canon := by
  unfold pendUp
  split
  · exact hk _ _ h
  · refine h.barObject fun _ _ _ ht => ?_
    split
    · dsimp only
      split
      · exact ht
      · split
        · exact ht
        · exact ht.hostFree fun _ ht => hk _ _ ht.barWrite
    · exact hk _ _ ht.askBarrier
    · exact hk _ _ ht

protected theorem cpy {mode o cx} : (cpy mode o cx s).Canon := by
  unfold cpy
  dsimp only
  refine h.withAddrs fun _ ht => ?_
  split
  · exact ht
  · exact ht.pendUp fun _ _ ht => ht.startCopy

protected theorem execCwait {o} : NextCanon (execCwait o s) := by
  unfold execCwait
  refine h.issue fun _ _ ht => ?_
  dsimp only
  split
  · exact ht
  · split <;> exact ht.modStrand

/-! ### Control registers and system instructions -/

protected theorem execSetc {o} : NextCanon (execSetc o s) := by
  unfold execSetc
  refine h.issue fun _ _ ht => ?_
  dsimp only
  split
  · exact ht
  · split
    · exact ht.modContext
    · exact ht.modStrand

protected theorem execSetcCrew {o} : NextCanon (execSetcCrew o s) := by
  unfold execSetcCrew
  refine h.issue fun _ _ ht => ?_
  dsimp only
  split
  · exact ht.modStrand
  · exact ht

protected theorem execSetcQmap {o} : NextCanon (execSetcQmap o s) := by
  unfold execSetcQmap
  refine h.issue fun _ _ ht => ?_
  dsimp only
  split
  · exact ht.modStrand
  · exact ht

protected theorem execSetcStfq {o} : NextCanon (execSetcStfq o s) := by
  unfold execSetcStfq
  refine h.issue fun _ _ ht => ?_
  dsimp only
  exact ht.modStrand

protected theorem replayOn {core ctx page} : (State.replayOn s core ctx page).Canon := h.upd.wakeAll

protected theorem execSysReplayTok {o} : NextCanon (execSysReplayTok o s) := by
  unfold execSysReplayTok
  refine h.issue fun _ _ ht => ?_
  dsimp only
  split
  · exact ht
  · split
    · exact ht.replayOn
    · exact ht

protected theorem execSysTlbinv {o} : NextCanon (execSysTlbinv o s) := by
  unfold execSysTlbinv
  refine h.issue fun _ _ ht => ?_
  dsimp only
  split
  · exact ht.shootDown
  · exact ht.shootDown.ok
  · exact ht.shootDown.ok

protected theorem diagScratch {cx x k} (hk : ∀ a t, t.Canon → (k a t).Canon) : (diagScratch s cx x k).Canon := by
  unfold diagScratch
  refine h.withAddrs fun _ ht => ?_
  split
  · split
    · exact hk _ _ ht
    · exact ht.permTrap
  · exact ht.permTrap

protected theorem diagDram {cx x k} (hk : ∀ a t, t.Canon → (k a t).Canon) : (diagDram s cx x k).Canon := by
  unfold diagDram
  refine h.withAddrs fun _ ht => ?_
  dsimp only
  refine ht.fates.withHits (fun _ _ ht => ht.parkUnder) fun _ ht => ?_
  split
  · split
    · exact hk _ _ ht
    · exact ht.permTrap
  · exact ht.permTrap

protected theorem diagReg {cx x k} (hk : ∀ a t, t.Canon → (k a t).Canon) : (diagReg s cx x k).Canon := by
  unfold diagReg
  dsimp only
  split
  · exact h
  · split
    · exact h
    · split <;> exact hk _ _ h

protected theorem diagTarget {o cx k} (hk : ∀ a t, t.Canon → (k a t).Canon) : (diagTarget o cx s k).Canon := by
  unfold diagTarget
  dsimp only
  split
  · exact h.diagScratch fun _ _ ht => hk _ _ ht
  · exact h.diagDram fun _ _ ht => hk _ _ ht
  · exact h.diagReg fun _ _ ht => hk _ _ ht

protected theorem rawPut {u data bits} : (State.rawPut s u data bits).Canon := h.clearPoison.write.upd

protected theorem execSysDiagst {o} : NextCanon (execSysDiagst o s) := by
  unfold execSysDiagst
  refine h.issue fun _ _ ht => ht.diagTarget fun _ _ hw => ?_
  split
  · exact hw
  · exact hw.rawPut
  · exact hw.modStrand

protected theorem execSysDiagld {o} : NextCanon (execSysDiagld o s) := by
  unfold execSysDiagld
  refine h.issue fun _ _ ht => ht.diagTarget fun _ _ hw => ?_
  split <;> exact hw.writeU

protected theorem execSysWorld {o} : NextCanon (execSysWorld o s) := by
  unfold execSysWorld
  refine h.issue fun _ _ ht => ?_
  dsimp only
  split
  · exact ht
  · split
    · exact ht
    · split
      · exact ht.modContext
      · exact ht.modContext.modContext.shootDown

protected theorem goToSleep {core} : (goToSleep s core).Canon := h.setCore

protected theorem sleepIfEmpty {core} : (sleepIfEmpty s core).Canon := by
  unfold sleepIfEmpty
  split
  · exact h
  · exact h.goToSleep

protected theorem execSysHalt {o} : NextCanon (execSysHalt o s) := by
  unfold execSysHalt
  refine h.issue fun _ _ ht => ?_
  dsimp only
  split
  · exact ht
  · exact ht.finalExit fun _ ht => ht.sleepIfEmpty

/-! ### Scheduling events -/

protected theorem startRun {part} : (startRun s part).Canon := by
  unfold startRun
  dsimp only
  split
  · exact h
  · split
    · exact h
    · exact h.setCards.upd

protected theorem longReturn {u i} : (longReturn s u i).Canon := by
  unfold longReturn
  split
  · exact h.modStrand.wakeIf
  · exact h

protected theorem scoreRelease {core i} : (scoreRelease s core i).Canon := by
  unfold scoreRelease
  split
  · exact h
  · exact h.upd.wakeAll

protected theorem pull {u} : (State.pull s u).Canon := h.upd
protected theorem reenterNow {u m err mismatch} : (reenterNow s u m err mismatch).Canon := h.reenter.pull.recard

/-! ### Commit events and answers of peers -/

protected theorem storesDone {before u} : (storesDone before s u).Canon := h.wakeIf.ite h

protected theorem unparkStore {u seq} : (unparkStore s u seq).Canon := by
  unfold unparkStore
  split
  · split
    · exact h.setEntry.commitTry.storesDone
    · exact h
  · exact h

protected theorem endBarw {u w v} : (endBarw s u w v).Canon := by
  unfold endBarw
  split
  · exact h.barWaiters.modStrand.leaveBoundary.recard
  · exact h

protected theorem imageAnswer {u w} : (imageAnswer s u w).Canon := by
  unfold imageAnswer
  dsimp only
  split
  · exact (h.foldl fun _ _ ht => ht.slotWrite).slotWrite
  · exact h.foldl fun _ _ ht => ht.slotWrite

protected theorem sendNext {u} : (sendNext s u).Canon := by
  unfold sendNext
  dsimp only
  split
  · exact h
  · exact h.sendPeer.modStrand

protected theorem refuse {u w code} : (refuse s u w code).Canon := h.ite h.takeTrap

protected theorem answer {rtag bs code} : (answer s rtag bs code).Canon := by
  unfold answer
  split
  · dsimp only
    split
    · exact h
    · exact ((h.modStrand.imageAnswer.ite h.modStrand).sendNext.ite
        (h.modStrand.imageAnswer.ite h.modStrand).sendNext.refuse).wakeIf
  · split
    · exact h.modStrand.wakeIf
    · exact h

protected theorem acknowledge {rtag code} : (acknowledge s rtag code).Canon := by
  unfold acknowledge
  dsimp only
  split
  · exact h
  · refine State.Canon.wakeIf ?_
    split
    · split
      · exact h.modStrand
      · exact (h.modStrand.ite h.modStrand.appendRecord).modStrand
    · split
      · exact h.modStrand
      · split
        · split
          · exact h.modStrand.sendNext
          · exact h.modStrand.sendNext.refuse
        · exact h

/-! ### Tiles read for a matrix operation -/

protected theorem fetchWindow {u o n side} : (fetchWindow u o n side s).Canon := h.settle

protected theorem fetchSrc {src u id va n side} : (fetchSrc src u id va n side s).Canon := by
  unfold fetchSrc
  split
  · exact h.fetchWindow
  · exact h.fetchRange

protected theorem fetchRow {d u id r c0 n} : (fetchRow d u id r c0 n s).Canon := by
  unfold fetchRow
  dsimp only
  refine Got.Canon.bind h.fetchSrc fun _ _ ht => ?_
  split
  · exact Got.Canon.bind ht.fetchSrc fun _ _ ht => ht
  · exact ht

protected theorem fetchBlock {d u id cols i0 ni j0 nj} : (fetchBlock d u id cols i0 ni j0 nj s).Canon := by
  unfold fetchBlock
  split
  · exact h
  · split
    · exact Got.Canon.bind (h.gotAll fun _ _ ht => ht.fetchRow) fun _ _ ht => ht
    · exact h.gotAll fun _ _ ht => ht.fetchRow

/-! ### Matrix operations -/

protected theorem modMop {u id f} : (modMop s u id f).Canon := h.modStrand
protected theorem setRprog {u t n} : (setRprog s u t n).Canon := h.modStrand
protected theorem dropMop {u id} : (dropMop s u id).Canon := h.modStrand.dropPeerBytes.upd

protected theorem startMop {u o} : (startMop s u o).Canon := by
  unfold startMop
  dsimp only
  exact h.newId.setCore.modStrand

protected theorem countBlock {u o} : (countBlock s u o).Canon := by
  unfold countBlock
  dsimp only
  split
  · exact (h.setRprog.ite h).modMop
  · split
    · exact (h.setRprog.ite h).modMop
    · split
      · exact (h.setRprog.ite h).modMop
      · exact (h.setRprog.ite h).dropMop

protected theorem engineConsumes {u o} : (engineConsumes s u o).Canon := by
  unfold engineConsumes
  split
  · exact h
  · exact h.modStrand.modMop

protected theorem blockTag {u o b bc prev} : (blockTag s u o b bc prev).2.2.Canon := by
  unfold blockTag
  split
  · exact h
  · split
    · exact h
    · dsimp only
      split
      · exact h
      · split
        · exact h
        · exact h.mintNow

protected theorem putBlock {u o b i w prevs tagged} : (putBlock s u o b i w prevs tagged).1.Canon := by
  unfold putBlock
  dsimp only
  refine h.modStrand.foldlFst fun _ _ ht => ?_
  split
  · exact ht.blockTag.modStrand
  · exact ht.modStrand

protected theorem endBlock {u o due} : (endBlock s u o due).Canon := by
  unfold endBlock
  split
  · exact h.countBlock
  · exact h.modMop

protected theorem endProduct {u o b from_} : (endProduct s u o b from_).Canon := by
  unfold endProduct
  dsimp only
  exact (h.engineConsumes.ite h).putBlock.endBlock

protected theorem stopMop {u o f va} : (stopMop s u o f va).Canon := h.modStrand.dropMop

protected theorem parkMop {u o page wr} : (parkMop s u o page wr).Canon := by
  unfold parkMop
  dsimp only
  split
  · exact (h.parkPage.some ‹_›).modMop
  · exact h

protected theorem onFetch {α : Type} {u o} {g : Got α} {wr} {k : α → State → State} (hg : g.Canon)
    (hk : ∀ a t, t.Canon → (k a t).Canon) : (onFetch s u o g wr k).Canon := by
  unfold onFetch
  split
  · exact hk _ _ hg
  · exact State.Canon.parkMop hg
  · exact State.Canon.stopMop hg
  · split
    · exact h
    · exact hg

protected theorem skipBits {u o} : (skipBits u o s).Canon := by
  unfold skipBits
  dsimp only
  split
  · exact h
  · exact Got.Canon.bind h.fetchRange fun _ _ ht => ht

protected theorem rowsOfA {u o} : (rowsOfA u o s).Canon := by
  unfold rowsOfA
  dsimp only
  split
  · exact h.fetchBlock
  · refine Got.Canon.bind h.skipBits fun _ _ ht => Got.Canon.bind (ht.gotAll fun _ _ hw => ?_) fun _ _ hw => hw
    split
    · exact hw
    · exact hw.fetchBlock

protected theorem factors {u o} : (factors u o s).Canon := by
  unfold factors
  dsimp only
  split
  · exact Got.Canon.bind h.fetchBlock fun _ _ ht => Got.Canon.bind ht.fetchBlock fun _ _ hw => hw
  · exact Got.Canon.bind h.fetchBlock fun _ _ ht => Got.Canon.bind ht.fetchBlock fun _ _ hw => hw
  · exact Got.Canon.bind h.rowsOfA fun _ _ ht => Got.Canon.bind ht.fetchBlock fun _ _ hw => hw

protected theorem prodStep {u o} : (prodStep s u o).Canon := h.onFetch h.factors fun _ _ ht => ht.endProduct

protected theorem crewStep {u o} : (crewStep s u o).Canon :=
  h.ite (h.onFetch h.factors fun _ _ ht => ht.foldl fun _ _ hw => hw.endProduct)

protected theorem stagedEntry {u o e} : OptCanon₂ (stagedEntry s u o e) := by
  unfold stagedEntry
  split
  · exact h
  · dsimp only
    split
    · exact h.popEntry
    · trivial

protected theorem stagedGroup {u o} : OptCanon₂ (stagedGroup s u o) := by
  unfold stagedGroup
  dsimp only
  split
  · split
    · split
      · trivial
      · exact ((h.skipBits.ok ‹_›).fetchBlock.ok ‹_›).stagedEntry.some ‹_›
    · trivial
  · trivial

protected theorem stagedSteps {u id fuel} : (stagedSteps u id fuel s).Canon := by
  induction fuel generalizing s with
  | zero => exact h
  | succ fuel ih =>
    unfold stagedSteps
    split
    · exact h
    · split
      · have ht := h.stagedGroup.some ‹_›
        exact ht.modMop.endProduct.ite (ih ht.modMop)
      · exact h.onFetch (h.skipBits.bind fun _ _ ht => ht.fetchBlock) fun _ _ _ => h

protected theorem acczStep {u o} : (acczStep s u o).Canon := by
  unfold acczStep
  dsimp only
  exact (h.putBlock.ite h.putBlock.modStrand).countBlock

protected theorem accldStep {u o} : (accldStep s u o).Canon := by
  unfold accldStep
  refine h.onFetch h.fetchBlock fun _ _ ht => ?_
  dsimp only
  exact (ht.engineConsumes.ite ht).putBlock.countBlock

protected theorem storePoisonTag {u o st bc} : (storePoisonTag s u o st bc).2.Canon := by
  unfold storePoisonTag
  dsimp only
  split
  · exact h
  · split
    · exact h
    · split
      · exact h
      · exact h.mintNow

protected theorem storeAtElem {u va z} : (storeAtElem u va z s).Canon := by
  unfold storeAtElem
  split <;> exact h.rangeOf.snd ‹_›

protected theorem accstStep {u o} : (accstStep s u o).Canon := by
  unfold accstStep
  extract_lets d z cells fmt
  split
  · exact h
  · refine h.onFetch (h.gotAll fun _ _ ht => ht.storeAtElem) fun ts t ht => ?_
    extract_lets st base bytes
    split
    next tags t' e =>
      have ht' : t'.Canon := by
        refine State.Canon.snd ?_ e
        exact State.Canon.foldlSnd ht fun _ _ hr => hr.storePoisonTag
      extract_lets ps w₁ w₂ w₃
      split
      · exact ht.snoop
      · have hw₂ : w₂.Canon := by
          refine ht'.perform.foldl fun _ _ hw => ?_
          split
          · exact hw
          · exact hw.newId.sendPeer.modStrand
        have hw₃ : w₃.Canon := hw₂.engineConsumes.ite hw₂
        exact hw₃.countBlock

protected theorem accstqStep {u o} : (accstqStep s u o).Canon := by
  unfold accstqStep
  dsimp only
  split
  · exact h
  · split
    · exact (h.engineConsumes.ite h).pushEntry.modMop.countBlock
    · exact (h.engineConsumes.ite h).pushEntry.modMop

protected theorem smxStep {u o} : (smxStep s u o).Canon := by
  unfold smxStep
  dsimp only
  exact (h.modStrand.engineConsumes.ite h.modStrand).putBlock.putBlock.endBlock

protected theorem mopStep {u o} : (mopStep s u o).Canon := by
  unfold mopStep
  dsimp only
  split
  · exact h
  · split
    · exact h.countBlock
    · split
      · exact h
      · split
        · exact h.acczStep
        · exact h.accldStep
        · split
          · exact h.accstqStep
          · exact h.accstStep
        · exact h.smxStep
        · split
          · exact h.stagedSteps
          · split
            · exact h.crewStep
            · exact h.prodStep

protected theorem blockFails {u o} : (blockFails s u o).Canon := by
  unfold blockFails
  dsimp only
  split
  · exact h.modStrand.modMop
  · exact h.modStrand.engineConsumes.putBlock.endBlock

protected theorem matrixPre {cx k} (hk : ∀ t, t.Canon → (k t).Canon) : (matrixPre cx s k).Canon := by
  unfold matrixPre
  dsimp only
  split
  · exact h.modStrand
  · split
    · exact hk _ h
    · split
      · exact h.modStrand.unwind.some ‹_›
      · exact hk _ h.modStrand

protected theorem tilesOk {st ts k} (hk : ∀ t, t.Canon → (k t).Canon) : (tilesOk st ts s k).Canon := by
  unfold tilesOk
  split
  · exact h
  · exact hk _ h

protected theorem unitsReady {cx us k} (hk : ∀ t, t.Canon → (k t).Canon) : (unitsReady s cx us k).Canon := by
  unfold unitsReady
  dsimp only
  split
  · exact h
  · split
    · exact h
    · exact hk _ h

protected theorem engineRoom {u k} (hk : ∀ t, t.Canon → (k t).Canon) : (engineRoom s u k).Canon := by
  unfold engineRoom
  split
  · exact h
  · exact hk _ h

protected theorem descsReady {cx syn dest as bitmap own k} (hk : ∀ t, t.Canon → (k t).Canon) :
    (descsReady s cx syn dest as bitmap own k).Canon := by
  unfold descsReady
  dsimp only
  split
  · exact h
  · split
    · exact h.addrTrap
    · split
      · exact h
      · exact h.unitsReady fun _ ht => ht.engineRoom fun _ hw => hk _ hw

protected theorem judge {ms v} : (judge s ms v).Canon := h.foldl fun _ _ ht => ht.modStrand

protected theorem crewMeet {u} : (crewMeet s u).Canon := by
  unfold crewMeet
  dsimp only
  split
  · exact h
  · split
    · exact h.judge
    · split
      · exact h.judge
      · split
        · exact h
        · split
          · exact h.judge
          · split
            · exact h
            · exact (h.newId.foldl fun _ _ ht => ht.startMop).judge

protected theorem holdLatch {u o} : (holdLatch s u o).Canon := h.modStrand

protected theorem latchVerdict {cx k} (hk : ∀ t, t.Canon → (k t).Canon) : (latchVerdict cx s k).Canon := by
  unfold latchVerdict
  split
  · dsimp only
    split
    · exact h.modStrand.ok
    · exact h.modStrand
  · exact hk _ h

protected theorem product {i kind o cx} : (product i kind o cx s).Canon := by
  unfold product
  refine h.latchVerdict fun _ ht => ht.matrixPre fun _ hw => hw.tilesOk fun _ hx => ?_
  split
  · exact hx
  · refine hx.descsReady fun _ ht => ?_
    split
    · exact ht.holdLatch
    · exact ht.startMop

protected theorem execAccld {o} : NextCanon (execAccld o s) := by
  unfold execAccld
  refine h.issue fun _ _ ht => ht.matrixPre fun _ hw => ?_
  dsimp only
  exact hw.tilesOk fun _ ht => ht.descsReady fun _ hw => hw.startMop

protected theorem execAccst {o} : NextCanon (execAccst o s) := by
  unfold execAccst
  refine h.issue fun _ _ ht => ht.matrixPre fun _ hw => ?_
  dsimp only
  refine hw.tilesOk fun _ ht => ?_
  split
  · exact ht.engineRoom fun _ ht => ht.startMop.ok
  · exact ht.descsReady fun _ ht => ht.startMop

protected theorem execSmx {o} : NextCanon (execSmx o s) := by
  unfold execSmx
  refine h.issue fun _ _ ht => ht.matrixPre fun _ hw => hw.tilesOk fun _ hx => ?_
  split
  · exact hx
  · exact hx.engineRoom fun _ ht => ht.startMop.ok

protected theorem execAccrd {o} : NextCanon (execAccrd o s) := by
  unfold execAccrd
  refine h.issue fun _ _ ht => ht.matrixPre fun t ht => ?_
  extract_lets st b row col n i range rs
  split
  · exact ht
  · split
    · exact ht
    · split
      next w ws e =>
        have hw : w.Canon := by
          refine State.Canon.fst ?_ e
          refine State.Canon.foldlFst ht fun _ _ hr => ?_
          dsimp only
          split
          · exact hr.resultTag
          · exact hr
        exact hw.writeD

protected theorem poisonPre {cx k} (hk : ∀ t, t.Canon → (k t).Canon) : (poisonPre cx s k).Canon := by
  unfold poisonPre
  split
  · exact hk _ h
  · dsimp only
    split
    · exact h.modStrand.unwind.some ‹_›
    · exact hk _ h.modStrand

protected theorem execMsyncAll {o} : NextCanon (execMsyncAll o s) := by
  unfold execMsyncAll
  refine h.issue fun _ _ ht => ?_
  split
  · exact ht.matrixPre fun _ ht => ht.ok
  · exact ht.poisonPre fun _ ht => ht

protected theorem execMsyncProg {o} : NextCanon (execMsyncProg o s) := by
  unfold execMsyncProg
  refine h.issue fun _ _ ht => ht.poisonPre fun _ hw => ?_
  dsimp only
  split
  · exact hw
  · split
    · exact hw.ok
    · exact hw

protected theorem execMsyncWs {o} : NextCanon (execMsyncWs o s) := by
  unfold execMsyncWs
  refine h.issue fun _ _ ht => ht.poisonPre fun _ hw => ?_
  dsimp only
  split
  · exact hw
  · split
    · exact hw.modStrand
    · exact hw.ok

/-! ### Weight streaming -/

protected theorem wsFetch {u id cuts} : (wsFetch u id cuts s).Canon := by
  induction cuts generalizing s with
  | nil => exact h
  | cons c cuts ih =>
    unfold wsFetch
    split
    · exact h.fetchCells.absent ‹_›
    · exact h.fetchCells.bad ‹_›
    · exact h.fetchCells.later ‹_›
    · have hc := h.fetchCells.ok ‹_›
      split
      · exact hc
      · split
        · exact (ih hc).ok ‹_›
        · exact ih hc

protected theorem wsRange {u id va n} : (wsRange u id va n s).Canon := h.wsFetch

protected theorem wsScales {c dlen} : (wsScales c dlen s).Canon := by
  unfold wsScales
  split
  · exact h
  · exact h.wsRange

protected theorem wsBlock {c} : (wsBlock c s).Canon := by
  unfold wsBlock
  dsimp only
  split
  · exact h.wsRange.absent ‹_›
  · exact h.wsRange.later ‹_›
  · exact h.wsRange.fail ‹_›
  · split
    · exact h.wsRange.ok ‹_›
    · split
      · exact (h.wsRange.ok ‹_›).wsRange.absent ‹_›
      · exact (h.wsRange.ok ‹_›).wsRange.later ‹_›
      · exact (h.wsRange.ok ‹_›).wsRange.fail ‹_›
      · split
        · exact ((h.wsRange.ok ‹_›).wsRange.ok ‹_›).wsScales.absent ‹_›
        · exact ((h.wsRange.ok ‹_›).wsRange.ok ‹_›).wsScales.later ‹_›
        · exact ((h.wsRange.ok ‹_›).wsRange.ok ‹_›).wsScales.fail ‹_›
        · split <;> exact ((h.wsRange.ok ‹_›).wsRange.ok ‹_›).wsScales.ok ‹_›

protected theorem setWsu {core f} : (setWsu s core f).Canon := h.upd
protected theorem modUnit {skein n f} : (modUnit s skein n f).Canon := h.upd

protected theorem releaseHeld {core} : (releaseHeld s core).Canon :=
  h.ite (h.foldl fun _ _ ht => ht.ite (ht.foldl fun _ _ hw => hw.modStrand.recard))

protected theorem finishWsl {core c} : (finishWsl s core c).Canon := h.setWsu.dropPeerBytes.releaseHeld.wakeAll

protected theorem wsPush {core} : (wsPush s core).Canon := by
  unfold wsPush
  split
  · extract_lets room
    split
    next t k hk =>
      have ht : t.Canon := by
        refine State.Canon.fst ?_ hk
        exact State.Canon.foldlFst h fun _ _ hr => hr.pushEntry
      extract_lets w
      have hw : w.Canon := ht.ite ht.wakeAll
      exact hw.finishWsl.ite hw.setWsu
  · exact h

protected theorem wsFailed {core c f dlen} : (wsFailed s core c f dlen).Canon := by
  unfold wsFailed
  dsimp only
  split
  · exact h.modUnit.finishWsl
  · exact (h.modStrand.ite h).finishWsl
  · exact (h.modStrand.ite h).setWsu.wsPush

protected theorem wsDeliver {core c bs scales tag} : (wsDeliver s core c bs scales tag).Canon := by
  unfold wsDeliver
  dsimp only
  split
  · exact h.wipe.write.wipe.write.modUnit.finishWsl
  · split
    · exact h.finishWsl
    · split
      · exact h
      · exact h.perform.finishWsl
  · exact h.setWsu.wsPush

protected theorem wsWork {core} : (wsWork s core).Canon := by
  unfold wsWork
  split
  · split
    · exact h.wsBlock.later ‹_›
    · split
      · exact ((h.wsBlock.absent ‹_›).parkPage.some ‹_›).setWsu
      · exact h.wsBlock.absent ‹_›
    · exact (h.wsBlock.failed ‹_›).wsFailed
    · exact (h.wsBlock.data ‹_›).wsDeliver
  · exact h

protected theorem execWsl {o} : NextCanon (execWsl o s) := by
  unfold execWsl
  refine h.issue fun _ _ ht => ht.withAddrs fun _ hw => ?_
  split
  · exact hw
  · split
    · exact hw
    · dsimp only
      exact hw.newId.setCore.modUnit.ite hw.newId.setCore

/-! ### Events of the engines -/

protected theorem copyMoved {before core i} : (copyMoved before s core i).Canon := by
  unfold copyMoved
  split
  · exact h
  · exact h.ite h.wakeAll.wakeIf

protected theorem copyGo {core i} : (copyGo s core i).Canon := by
  unfold copyGo
  split
  · split
    · exact h.copyRun.copyMoved
    · exact h
  · exact h

protected theorem execCopyResume {core i} : NextCanon (execCopyResume core i s) := by
  unfold execCopyResume
  change State.Canon _
  split
  · split
    · exact h.modCopy
    · exact h
  · exact h

protected theorem mopMoved {before u} : (mopMoved before s u).Canon := by
  unfold mopMoved
  extract_lets a b t
  have ht : t.Canon := h.ite h.wakeIf.wakeAll
  exact ht.ite ht.wakeIf

protected theorem rowBlock {u i failed} : (rowBlock s u i failed).Canon := by
  unfold rowBlock
  split
  · exact h
  · split
    · exact h
    · split
      · split
        · exact h
        · exact h.blockFails.mopMoved
      · exact h.mopStep.mopMoved.foldl fun _ _ ht => ht.mopMoved

protected theorem execMatrixResume {u i} : NextCanon (execMatrixResume u i s) := by
  unfold execMatrixResume
  change State.Canon _
  split
  · split
    · exact h.modMop
    · exact h
  · exact h

protected theorem execWsuResume {core} : NextCanon (execWsuResume core s) := by
  unfold execWsuResume
  change State.Canon _
  split
  · exact h.setWsu
  · exact h

/-! ### Placement of launches -/

protected theorem writeHeaders {key state} : (writeHeaders s key state).Canon := by
  unfold writeHeaders
  split
  · exact h
  · exact h.devWrite.ite (h.devWrite.headerPut.getD h.devWrite.forceReset)

protected theorem addStrand {sk j core p entry cont} : (addStrand s sk j core p entry cont).Canon := by
  unfold addStrand
  split
  · exact h
  · dsimp only
    exact h.newId.upd.modStrand.openRegion.recard

protected theorem serve {core ctx parts} : (State.serve s core ctx parts).Canon := h.setCore

protected theorem addSkein {key idx hank seat entry cont} : (addSkein s key idx hank seat entry cont).Canon := by
  unfold addSkein
  dsimp only
  split
  · exact h
  · exact h.newId.upd.modContext.serve.writeHeaders.foldl fun _ _ ht => ht.addStrand

protected theorem touchDie {die ctx} : (touchDie s die ctx).Canon := h.upd

protected theorem startHank {key h' seats} : (startHank s key h' seats).Canon :=
  (h.foldl fun _ _ ht => ht.addSkein).modLaunch.touchDie

protected theorem startCont {key c seats} : (startCont s key c seats).Canon :=
  (h.foldl fun _ _ ht => ht.addSkein).modLaunch

protected theorem endSkein {sk} : (endSkein s sk).Canon := by
  unfold endSkein
  split
  · exact h
  · split
    · exact h
    · exact h.wipe.upd.modContext.writeHeaders

protected theorem retireHank {key h'} : (retireHank s key h').Canon := (h.foldl fun _ _ ht => ht.dropSkein).modLaunch
protected theorem retireLaunch {key} : (retireLaunch s key).Canon := h.foldl fun _ _ ht => ht.retireHank

protected theorem tidy : (State.tidy s).Canon :=
  ((h.foldl fun _ _ ht => ht.endSkein).foldl fun _ _ ht => ht.retireLaunch).ite (h.foldl fun _ _ ht => ht.endSkein)

/-! ### Launches -/

protected theorem enqueue {key} : (enqueue s key).Canon := h.modLaunch.upd

protected theorem takeLaunch {bytes child proto} : (takeLaunch s bytes child proto).2.Canon := by
  unfold takeLaunch
  dsimp only
  split
  · exact State.Canon.orReset h.modContext.newId.upd.modLaunch.finishLaunch
  · split
    · exact State.Canon.orReset h.modContext.newId.upd.modLaunch.finishLaunch
    · exact h.modContext.newId.upd.enqueue

protected theorem intake {ctx n} : (intake s ctx n).Canon := by
  unfold intake
  split
  · exact h
  · split
    · split
      · exact h
      · exact State.Canon.orReset h.takeLaunch.freeSlot
    · split
      · exact h
      · exact h.takeLaunch
    · exact h

protected theorem leaveQueues {key} : (leaveQueues s key).Canon := h.upd.ite h

/-! ### Mail, records and launches by a strand -/

protected theorem mailPeer {u rank bytes} : (mailPeer s u rank bytes).Canon := by
  unfold mailPeer
  dsimp only
  exact h.newId.upd.sendPeer

protected theorem mailPut {cx f n} : (mailPut cx f n s).Canon := by
  unfold mailPut
  dsimp only
  split
  · refine h.hostFree fun _ ht => ?_
    split <;> exact ht.slotTurn.snd ‹_›
  · exact h.mailPeer
  · exact h

protected theorem execMail {o} : NextCanon (execMail o s) := by
  unfold execMail
  refine h.issue fun _ _ ht => ht.withAddrs fun _ hw => ?_
  dsimp only
  refine hw.fates.withHits (fun _ _ ht => ht.parkUnder) fun _ ht => ?_
  split
  · exact ht
  · split
    · exact ht
    · refine ht.release fun _ ht => ?_
      split
      · exact ht.mailPut.done ‹_›
      · exact ht.mailPut

protected theorem execEmit {o} : NextCanon (execEmit o s) := by
  unfold execEmit
  refine h.issue fun _ _ ht => ?_
  dsimp only
  split
  · exact ht.addrTrap
  · split
    · exact ht
    · exact ht.modStrand.upd

protected theorem readRecord {cx f va k} (hk : ∀ a b t, t.Canon → (k a b t).Canon) :
    (readRecord cx f va s k).Canon := by
  unfold readRecord
  split
  · exact hk _ _ _ h.settle
  · split
    · exact hk _ _ _ (h.peerBytes.ok ‹_›)
    · exact h.peerBytes.bad ‹_›
    · exact h.peerBytes.absent ‹_›
    · exact h.peerBytes.later ‹_›
  · exact hk _ _ _ h

protected theorem handOver {o cx bytes poison} : (handOver o cx bytes poison s).Canon := by
  unfold handOver
  dsimp only
  split
  · split
    · exact h
    · exact h.dropPeerBytes.takeLaunch.modStrand.writeU
  · split
    · exact h
    · exact h.dropPeerBytes.takeLaunch.modStrand.writeU

protected theorem execLaunch {o} : NextCanon (execLaunch o s) := by
  unfold execLaunch
  refine h.issue fun _ _ ht => ht.withAddrs fun _ hw => ?_
  dsimp only
  refine hw.fates.withHits (fun _ _ ht => ht.parkUnder) fun _ ht => ?_
  split
  · exact ht
  · exact ht.release fun _ ht => ht.readRecord fun _ _ _ hw => hw.handOver

/-! ### Mailbox events -/

protected theorem messageArrives {ctx n bytes} : (messageArrives s ctx n bytes).Canon := h.deliver.intake

protected theorem hostDiscard {ctx n} : (hostDiscard s ctx n).Canon := by
  unfold hostDiscard
  split
  · exact h.forceReset
  · split
    · exact h.bumpCount.some ‹_›
    · exact (h.bumpCount.some ‹_›).deliver

protected theorem hostMail {ctx n off bytes} : (hostMail s ctx n off bytes).Canon := by
  unfold hostMail
  split
  · split
    · exact h.hostDiscard
    · exact h.putSlot
  · exact h.hostDiscard

protected theorem dropWriter {ctx n} : (dropWriter s ctx n).Canon := h.modContext

protected theorem writerTurn {ctx n id} : (writerTurn s ctx n id).Canon := by
  unfold writerTurn
  split
  · split
    · exact h.wakeIf
    · exact h.dropWriter
  · split
    · exact h.modCopy.copyGo
    · exact h.dropWriter

protected theorem mailTurn {ctx n} : (mailTurn s ctx n).Canon := by
  unfold mailTurn
  split
  · exact h
  · split
    · exact h
    · dsimp only
      split
      · exact h.dropWriter.deliver
      · exact h.dropWriter.deliver
      · exact h.dropWriter.putSlot
    · exact h.writerTurn

/-! ### Saving and restoring skeins -/

protected theorem discardAll {u m} : (discardAll s u m).2.Canon := by
  refine State.Canon.foldlSnd h fun _ _ hr => ?_
  dsimp only
  exact hr.discard

protected theorem giveUpIndices {u} : (giveUpIndices s u).Canon := h.ite h.upd.modStrand

protected theorem stopStrand {u} : (stopStrand s u).Canon := by
  unfold stopStrand
  dsimp only
  split
  · exact h
  · refine (h.pull.uncard.foldl fun _ _ ht => ?_).discardAll.giveUpIndices.modContext.modStrand
    split
    · exact ht.barWaiters
    · exact ht

protected theorem putImage {ctx va img} : OptCanon (putImage s ctx va img) := h.foldlM fun _ _ ht => ht.devPut

protected theorem liftEngines {u} : (liftEngines s u).Canon :=
  (h.foldl fun _ _ ht => ht.countBlock).modContext.upd.modStrand

protected theorem liftWsl {sk} : (liftWsl s sk).Canon := by
  unfold liftWsl
  split
  · exact h
  · exact h.setWsu.upd

protected theorem saveSkein {sk} : OptCanon (saveSkein s sk) := by
  unfold saveSkein
  split
  · exact h
  · refine .ite h.upd ?_
    extract_lets t k l b va us accs slots
    have ht : t.Canon := (h.foldl fun _ _ hw => hw.liftEngines).liftWsl
    refine ht.upd.putImage.map fun w hw => ?_
    exact (hw.upd.vacate.foldl fun _ _ hx => hx.modStrand).upd

protected theorem requeue {key} : (requeue s key).Canon := h.upd

protected theorem saveHank {key h'} : OptCanon (saveHank s key h') :=
  (h.foldlM fun _ _ ht => ht.saveSkein).map fun _ ht => ht.modLaunch.requeue

protected theorem movedRegions {u m} : (movedRegions s u m).Canon := h.foldl fun _ _ ht => ht.openRegion
protected theorem strandBack {u b m a4} : (strandBack s u b m a4).Canon := h.modStrand.modStrand.movedRegions
protected theorem engineBack {u} : (engineBack s u).Canon := h.setCore.modStrand

protected theorem wslAgain {sk m} : (wslAgain s sk m).Canon := by
  unfold wslAgain
  split
  · exact h
  · exact h.upd.setWsu

protected theorem skeinBack {sk seat} : OptCanon (skeinBack s sk seat) := by
  unfold skeinBack
  split
  · exact h
  · dsimp only
    split
    · exact (h.foldl fun _ _ ht => ht.modStrand).upd
    · split
      · split
        · trivial
        · refine (((h.write.foldl fun _ _ ht => ht.setTag).foldl fun _ _ ht => ht.poisonUnit).upd.serve.foldl
            fun _ _ ht => ht.modStrand).wslAgain.foldlM fun _ _ ht => ?_
          split
          · exact ht.strandBack.modStrand.engineBack
          · trivial
      · trivial

protected theorem crewBack {olds} : (crewBack s olds).Canon := h.foldl fun _ _ ht => ht.modStrand
protected theorem headersBack {ks} : (headersBack s ks).Canon := h.foldl fun _ _ ht => ht.writeHeaders.ite ht

protected theorem hankBack {key h' seats} : (hankBack s key h' seats).Canon := by
  unfold hankBack
  dsimp only
  split
  · exact h.upd.forceReset
  · exact ((h.foldlM fun _ _ ht => ht.skeinBack).some ‹_›).crewBack.modLaunch.touchDie.headersBack.foldl
      fun _ _ ht => ht.releaseHeld

/-! ### Queues of launches and continuations -/

protected theorem wakeDispatch : (State.wakeDispatch s).Canon := h.wakeAll
protected theorem waitOver {key} : (waitOver s key).Canon := h.modLaunch.ite h

protected theorem placeNext {key cluster} : (placeNext s key cluster).Canon := by
  unfold placeNext
  extract_lets l die t
  have ht : t.Canon := by
    unfold t
    split
    · exact h
    · split
      · exact h.startCont
      · exact h
    · split
      · split
        · exact h.foldl fun _ _ hw => hw.startHank
        · exact h
      · split
        · exact h.startHank
        · exact h
  exact h.ite (h.ite ht.leaveQueues.wakeDispatch)

protected theorem formCont {key entry gen rs} : (formCont s key entry gen rs).Canon := h.modLaunch.requeue

protected theorem formFull {key entry fuel} : (formFull key entry fuel s).Canon := by
  induction fuel generalizing s with
  | zero => exact h
  | succ fuel ih => exact h.ite (ih h.formCont)

protected theorem drainIntake {die} : (drainIntake s die).Canon :=
  h.ite (h.upd.foldl fun _ _ ht => ht.modLaunch.formFull.ite ht).wakeDispatch

protected theorem formGeneration {key} : (formGeneration s key).Canon :=
  h.ite (h.modLaunch.foldl fun _ _ ht => ht.formCont)

protected theorem launchDone {key} : (launchDone s key).Canon :=
  h.ite (State.Canon.orReset h.modLaunch.finishLaunch).wakeAll.wakeDispatch

/-! ### Pre-emption -/

protected theorem takeHanks {ctx hs} : (takeHanks s ctx hs).Canon := h.modContext.foldl fun _ _ ht => ht.stopStrand

protected theorem request {ctx dies hold control gang hs} : (request s ctx dies hold control gang hs).Canon :=
  h.modContext.takeHanks

protected theorem putControl {ctx cmd status hold dies} : (putControl s ctx cmd status hold dies).Canon := h.ite h.write

protected theorem hostPreempt {ctx dies hold} : (hostPreempt s ctx dies hold).Canon :=
  h.ite (h.write.request.ite (h.putControl.ite h.putControl.request))

protected theorem saveContext {ctx} : (saveContext s ctx).Canon := by
  unfold saveContext
  split
  · exact h
  · extract_lets us t
    have ht : t.Canon := h.foldl fun _ _ hw => hw.commitPass
    split
    · exact ht
    · split
      · exact ht.forceReset
      next w e =>
        have hw : w.Canon := (ht.foldlM fun _ _ hx => hx.saveHank).some e
        split
        · exact hw.forceReset
        next x e =>
          have hx : x.Canon := hw.headerPut.some e
          exact (hx.setStatus.ite hx).modContext

protected theorem restore {skein cluster} : (restore s skein cluster).Canon := by
  unfold restore
  split
  · exact h
  · dsimp only
    split
    · exact h
    · split
      · exact h
      · exact h.hankBack.leaveQueues

protected theorem placeAwaited {key cluster} : (placeAwaited s key cluster).Canon := by
  unfold placeAwaited
  split
  · exact h.hankBack
  · exact h.startCont
  · exact h.startHank
  · exact h

protected theorem bobbinTurn {key} : (bobbinTurn s key).Canon := by
  unfold bobbinTurn
  dsimp only
  split
  · exact h
  · split
    · exact h
    · split
      · exact h.request.saveContext
      · exact h.request.saveContext.placeAwaited.leaveQueues

/-! ### Packets of the fabric -/

protected theorem modFabric {f} : (State.modFabric s f).Canon := h.upd
protected theorem modGang {g f} : (State.modGang s g f).Canon := h.modFabric
protected theorem respond {q type code bs} : (respond s q type code bs).Canon := h.sendPeer

protected theorem lineFree {pa n} {k : State → Option State × State}
    (hk : ∀ t, t.Canon → TriedCanon (k t)) : TriedCanon (lineFree s pa n k) := by
  unfold lineFree
  split
  · exact hk s h
  · exact ⟨trivial, h.snoop⟩

protected theorem peerBarrier {p} : (peerBarrier s p).Canon := by
  unfold peerBarrier
  dsimp only
  split
  · split
    · exact (h.barWrite.ite h).respond
    · exact h.barWrite.respond
  · split
    · split
      · exact h.respond
      · split
        · exact h.respond
        · split
          · exact h.respond
          · exact h.barWaiters.modFabric
    · split
      · split
        · exact h.respond
        · exact h.barWrite.respond
      · exact h.barWrite.respond

protected theorem peerAtom {q} : (peerAtom s q).Canon := h.rmw.respond

protected theorem performPacket {p} : TriedCanon (performPacket s p) := by
  unfold performPacket
  dsimp only
  split
  · exact ⟨h.answer, h⟩
  · exact ⟨h.answer, h⟩
  · exact ⟨h.acknowledge, h⟩
  · split
    · exact ⟨h.respond, h⟩
    · split
      · exact ⟨trivial, h⟩
      · exact ⟨h.messageArrives.respond, h⟩
  · split
    · exact ⟨h.settle.respond, h.settle⟩
    · exact ⟨h.respond, h⟩
  · split
    · exact h.lineFree fun _ ht => ⟨ht.perform.respond, ht⟩
    · exact ⟨h.respond, h⟩
  · refine .ite (h.lineFree fun _ ht => ?_) ⟨h.respond, h⟩
    exact ⟨State.Canon.ite ht.peerBarrier ht.peerAtom, ht⟩

protected theorem deliverOne {p} : (deliverOne s p).Canon := by
  unfold deliverOne
  dsimp only
  split
  · exact h
  · split
    · exact h.performPacket.kept ‹_›
    · exact (h.performPacket.done ‹_›).modFabric

protected theorem deliverHeld {fuel} : (deliverHeld s fuel).Canon := by
  induction fuel generalizing s with
  | zero => exact h
  | succ fuel ih =>
    have ht := h.foldl (l := s.fabric.buffers) fun _ p ht => ht.deliverOne (p := p)
    exact ht.ite (ih ht)

protected theorem forward {p} : (forward s p).Canon := h.modFabric
protected theorem inject {p} : (inject s p).Canon := h.forward.ite (h.ite h.modFabric.deliverHeld)

protected theorem sweepAppend {g bs} : OptCanon (sweepAppend s g bs) := by
  unfold sweepAppend
  dsimp only
  split
  · trivial
  · exact h.write.modGang

protected theorem sweepRecord {p origin} : OptCanon (sweepRecord s p origin) := h.sweepAppend.map fun _ ht => ht.modGang
protected theorem gangReset {g} : (gangReset s g).Canon := (h.foldl fun _ _ ht => ht.upd.forceReset).modFabric
protected theorem slotOutcome {v} : (slotOutcome s v).Canon := h.write
protected theorem sweepFailed {g} : (sweepFailed s g).Canon := (h.modFabric.slotOutcome.ite h).modFabric.gangReset

protected theorem arrive {type q} : (arrive s type q).Canon :=
  h.ite (h.modGang.ite ((h.sweepRecord.getD h.sweepFailed).ite (h.modFabric.ite h.inject)))

protected theorem waiterTurn {w} : (waiterTurn s w).Canon := h.barWaiters.modFabric.respond.ite h
protected theorem fabricTurn : (fabricTurn s).Canon := (h.foldl fun _ _ ht => ht.waiterTurn).deliverHeld

/-! ### The gang switch -/

protected theorem sweepEnd {g} : (sweepEnd s g).Canon := by
  unfold sweepEnd
  dsimp only
  split
  · exact h.sweepFailed
  · exact (h.sweepAppend.some ‹_›).modGang.modFabric.upd

protected theorem sweepGo {g} : (sweepGo s g).Canon := by
  unfold sweepGo
  extract_lets x saving marks held w s?
  have hs : OptCanon s? := by
    unfold s?
    split
    · exact h
    · exact h.modFabric.modGang.foldlM fun _ _ ht => ht.sweepRecord
  clear_value s?
  split
  · exact h
  · split
    · exact h.sweepFailed
    · exact State.Canon.ite (State.Canon.sweepEnd hs) hs

protected theorem sweepStart {g deadline} : (sweepStart s g deadline).Canon :=
  h.ite (h.modGang.foldl fun _ _ ht => ht.request).sweepGo

protected theorem chipDone {g chip} : (chipDone s g chip).Canon :=
  h.ite (h.modGang.ite (h.modGang.modFabric.upd.ite (h.modGang.modFabric.slotOutcome.ite h.modGang)))

protected theorem loadFlows {g map} : (loadFlows s g map).Canon :=
  h.foldl fun _ _ ht => ht.ite (ht.modFabric.ite ht.modFabric)

protected theorem resumeGang {g map} : (resumeGang s g map).Canon :=
  h.ite (h.modGang.loadFlows.foldl fun _ _ ht => ht.inject).modGang.modFabric.upd

protected theorem runGang {g} : (runGang s g).Canon := h.ite (h.modGang.ite (h.modGang.foldl fun _ _ ht => ht.deliver))
protected theorem saveAndSweep {ctx} : (saveAndSweep s ctx).Canon := h.saveContext.foldl fun _ _ ht => ht.sweepGo

/-! ### Reliability -/

protected theorem modSec {f} : (State.modSec s f).Canon := h.upd
protected theorem log {l} : (State.log s l).Canon := h.modSec
protected theorem evict {cores} : (evict s cores).Canon := h.foldl fun _ _ ht => ht.request

protected theorem takeOut {u} : (takeOut s u).Canon := by
  unfold takeOut
  split
  · exact h
  · dsimp only
    refine State.Canon.evict ?_
    split
    · exact h.modSec.modFabric
    · exact h.modSec

protected theorem unitBack {u good} : (unitBack s u good).Canon := by
  unfold unitBack
  split
  · exact h
  · split
    · dsimp only
      split
      · exact h.modSec.modFabric
      · exact h.modSec
    · split
      · exact h
      · exact h.modSec.log

protected theorem retirePage {p} : (retirePage s p).Canon := h.modSec.log.foldl fun _ _ ht => ht.deliver

protected theorem repairRow {r} : (repairRow s r).Canon := by
  unfold repairRow
  split
  · exact h
  · dsimp only
    split
    · exact h.modSec.modSec.log
    · split
      · exact h.modSec.foldl fun _ _ ht => ht.retirePage
      · exact (h.modSec.foldl fun _ _ ht => ht.setCore).log

protected theorem windowTurn {d} : (windowTurn s d).Canon := h.ite h.modSec.upd
protected theorem retireOn {r k} : (retireOn s r k).Canon := h.setCore
protected theorem bankTurn {r} : (bankTurn s r).Canon := (h.foldl fun _ _ ht => ht.retireOn).ite h
protected theorem sleepTurn {k} : (sleepTurn s k).Canon := h.ite h.goToSleep
protected theorem scrubUnits {k us} : (scrubUnits s k us).Canon := h.setCore

protected theorem wakeCore {k} : (wakeCore s k).Canon := by
  unfold wakeCore
  split
  · exact h
  · exact (h.foldl fun _ _ ht => ht.settleRegs).setCore.scrubUnits.setCore

protected theorem scrubOne {k x} : (scrubOne s k x).Canon := by
  unfold scrubOne
  split
  · exact h
  · exact (h.wipe.ite h).scrubUnits.setCore

protected theorem scrubTurn {k} : (scrubTurn s k).Canon := h.foldl fun _ _ ht => ht.scrubOne

/-! ### The security core -/

protected theorem setPot {page e} : (State.setPot s page e).Canon := h.modSec

protected theorem propose {op ctx w level addr leaf} : OptCanon₂ (propose s op ctx w level addr leaf) := by
  unfold propose
  dsimp only
  split
  · split
    · exact h
    · split
      · exact h
      · split
        · exact h
        · split
          · exact h.write
          · exact h
  · split
    · exact h
    · split
      · exact h
      · change State.Canon _
        dsimp only
        refine State.Canon.shootDown ?_
        split
        · exact h.write
        · exact h
  · split
    · exact h
    · split
      · exact h
      · split
        · split
          · exact h.setPot
          · exact h
        · split
          · exact h.setPot
          · exact h
        · split
          · split
            · trivial
            · exact h.setPot.shootDown.wipe.setPot
          · exact h
        · split
          · exact h.setPot
          · exact h

protected theorem takeEntry {op page j} : (takeEntry s op page j).Canon := by
  unfold takeEntry
  extract_lets a b code bad r
  have hr : OptCanon₂ r := .ite h h.propose
  clear_value r
  split
  · exact h
  · split
    · exact h.snoop
    · split
      · exact h.snoop
      next status t =>
        have ht : t.Canon := hr
        exact ht.write.write.ite ht.write

protected theorem extend {i d} : (extend s i d).Canon := h.modSec
protected theorem reply {t st r} : (reply s t st r).Canon := h.modSec

protected theorem spdmRequest {t code takes after known} : (spdmRequest s t code takes after known).Canon := by
  unfold spdmRequest
  split
  · exact h
  · split
    · exact h.upd.reply
    · exact h.reply

protected theorem settled {t code known} : (settled s t code known).Canon := h.spdmRequest

protected theorem vendor {t f} (hf : ∀ t, t.Canon → (f t).Canon) : (vendor s t f).Canon := by
  unfold vendor
  split
  · exact h
  · split
    · exact (hf _ h).spdmRequest
    · exact h.reply

/-! ### The host link -/

protected theorem holdLines {pa n} : (holdLines s pa n).Canon := h.upd

protected theorem hostRead {world pa n} : (hostRead s world pa n).Canon := by
  unfold hostRead
  split
  · exact (h.settle.log.ite h.settle).holdLines.upd
  · exact h.log.upd

protected theorem hostLine {pa bytes line} : (hostLine s pa bytes line).Canon := by
  unfold hostLine
  dsimp only
  split
  · exact h.hostMail
  · exact h.storeAll

protected theorem hostWrite {world pa bytes} : (hostWrite s world pa bytes).Canon := by
  unfold hostWrite
  split
  · exact (h.foldl fun _ _ ht => ht.hostLine).holdLines
  · exact h.log

protected theorem counterRead {group owner value} : (counterRead s group owner value).Canon := h.modSec.upd

protected theorem resetWorld {w} : (resetWorld s w).Canon :=
  (h.foldl fun _ _ ht => ht.upd.forceReset).foldl fun _ _ ht => ht.setCore.ite ht.scrubUnits

/-! ### What a load delivers -/

protected theorem loadLane {cx o uniform view x l} : (loadLane cx o uniform view x l s).2.Canon := by
  unfold loadLane
  dsimp only
  split
  · exact h
  · exact h.loadTag

protected theorem loadPeer {cx o uniform x slot pa} : (loadPeer cx o uniform x slot pa s).Canon := h.askPeer

protected theorem loadLanes {cx o uniform fs} : (loadLanes cx o uniform fs s).2.Canon := by
  refine State.Canon.foldlSnd h.settleHits fun _ _ hr => ?_
  split
  · exact hr.loadLane
  · exact hr.loadPeer
  · exact hr

protected theorem putLoads {cx o uniform rs} : (putLoads s cx o uniform rs).Canon := by
  unfold putLoads
  split
  · split
    · exact h.writeU
    · exact h
  · split
    · exact h.writeP
    · exact h.writeD

/-! ### Loads and stores -/

protected theorem afterScStores {cx o k} (hk : ∀ t, t.Canon → (k t).Canon) : (afterScStores s cx o k).Canon := by
  unfold afterScStores
  split
  · dsimp only
    split
    · exact h.commitPass
    · exact hk _ h.commitPass
  · exact hk _ h

protected theorem countProbes {core n} : (countProbes s core n).Canon := by
  unfold countProbes
  split
  · exact h
  · exact h.setCore

protected theorem probe {o uniform cx xs} : (probe o uniform cx xs s).Canon := by
  unfold probe
  dsimp only
  split
  · exact h.fates
  · change State.Canon _
    refine (h.fates.foldl fun _ _ ht => ?_).countProbes
    split
    · exact ht.loadPeer
    · exact ht

protected theorem loadFault {cx ps} : (loadFault cx ps s).Canon := h.parkUnder

protected theorem load {o uniform cx} : (load o uniform cx s).Canon := by
  unfold load
  dsimp only
  refine h.afterScStores fun _ ht => ?_
  split
  · exact ht.probe
  · refine ht.withAddrs fun _ ht => ht.fates.withHits (fun _ _ hw => hw.loadFault) fun _ hw => ?_
    split
    · exact hw
    · exact hw.loadLanes.putLoads

protected theorem releaseFirst {cx o m k} (hk : ∀ t, t.Canon → (k t).Canon) : (releaseFirst s cx o m k).Canon := by
  unfold releaseFirst
  split
  · exact h.release fun _ ht => hk _ ht
  · exact hk _ h

protected theorem storeLanes {o cx} : (Machine.store o cx s).Canon := by
  unfold Machine.store
  dsimp only
  refine h.withAddrs fun _ ht => ?_
  split
  · exact ht.overflow
  · exact ht.releaseFirst fun _ hw => hw.bufferStore

protected theorem storeUniform {o cx} : (storeUniform o cx s).Canon := by
  unfold storeUniform
  dsimp only
  refine h.withAddrs fun _ ht => ?_
  split
  · exact ht.overflow
  · exact ht.releaseFirst fun _ ht => ht.bufferStore

/-! ### Events of the module -/

omit h in
protected theorem powerOn : s.powerOn.Canon := rfl

protected theorem boot {o} : (boot s o).Canon := by
  unfold boot
  split
  · exact h
  · exact (State.Canon.powerOn.foldl fun _ _ ht => ht.extend).modSec.upd

protected theorem firstOfWorld {w} : (firstOfWorld s w).Canon := by
  unfold firstOfWorld
  split
  · exact h
  · exact h.modSec

protected theorem contextMemory {p} : (contextMemory s p).Canon :=
  (h.foldl fun _ _ ht => ht.devPutQuiet.ite ht).devPutQuiet

protected theorem createContext {p} : (createContext s p).Canon := by
  unfold createContext
  split
  · exact h
  · exact (h.firstOfWorld.upd.ite h.firstOfWorld.upd.write).contextMemory

/-! ### The meaning of instructions and events -/

/-- What instructions and events mean keeps the form. -/
protected theorem exec {i} : NextCanon (exec i s) := by
  cases i with
  | nop | rgn => exact h.issue fun _ _ ht => ht.ok
  | iadd | isub | imul | imulh | imin | imax | and | or | xor | andn | shl | shr | sar | rot
  | iaddi | andi | shli | shri =>
    exact h.issue fun _ _ ht => ht.alu2
  | imad => exact h.issue fun _ _ ht => ht.alu3
  | popc | clz | brev | mov => exact h.issue fun _ _ ht => ht.alu1
  | lea | sel | movl | movs | shfl | rand => exact h.issue fun _ _ ht => ht.finishLanes
  | icmp | fcmp | fclass => exact h.issue fun _ _ ht => ht.finishPreds
  | scan => exact h.execScan
  | sread => exact h.execSread
  | fadd | fsub | fmul | fdiv => exact h.issue fun _ _ ht => ht.fp2
  | ffma => exact h.issue fun _ _ ht => ht.fp3
  | fsqrt | frcp | frsq | fex2 | flg2 | fsin | fcos => exact h.issue fun _ _ ht => ht.fp1
  | dadd | dmul => exact h.issue fun _ _ ht => ht.dp2
  | dfma => exact h.issue fun _ _ ht => ht.dp3
  | hadd2 | hmul2 | badd2 | bmul2 => exact h.issue fun _ _ ht => ht.packed2
  | hfma2 | bfma2 => exact h.issue fun _ _ ht => ht.packed3
  | fmin | fmax => exact h.issue fun _ _ ht => ht.minmaxLanes
  | fscl | frnd => exact h.issue fun _ _ ht => ht.fpLanes
  | cvt => exact h.execCvt
  | dot4 | dot8 => exact h.issue fun _ _ ht => ht.dotLanes
  | wupd => exact h.execWupd
  | sadd | ssub | smul | sand | sor | sxor | sshl | sshr => exact h.issue fun _ _ ht => ht.salu
  | smov | ssel | ballot => exact h.issue fun _ _ ht => ht.finishUniform
  | scmp => exact h.issue fun _ _ ht => ht.writeK
  | vtos => exact h.execVtos
  | vote | klop => exact h.issue fun _ _ ht => ht.writeK.ok
  | plop => exact h.issue fun _ _ ht => ht.writeP.ok
  | bra | sbra => exact h.issue fun _ _ ht => ht.branch
  | call => exact h.issue fun _ _ ht => ht.callTo
  | jmp => exact h.issue fun _ _ ht => ht.regTargets fun _ _ hw => hw.goTo
  | callr => exact h.issue fun _ _ ht => ht.regTargets fun _ _ hw => hw.callTo
  | ret => exact h.execRet
  | exit => exact h.execExit
  | guardOpen => exact h.execGuardOpen
  | guardClose => exact h.execGuardClose
  | trap => exact h.issue fun _ _ ht => ht
  | tretRestart => exact h.issue fun _ _ ht => ht.tret fun _ _ _ hw => hw.tretRestart
  | tretNext => exact h.issue fun _ _ ht => ht.tret fun _ _ _ hw => hw.tretNext
  | tretKill => exact h.issue fun _ _ ht => ht.tret fun _ _ _ hw => hw.terminate
  | chkerr => exact h.execChkerr
  | drain => exact h.issue fun _ _ ht => ht.settleStores fun _ hw => hw.ok
  | tagGet => exact h.issue fun _ _ ht => ht.writeD
  | tagSet => exact h.execTagSet
  | tagMint => exact h.execTagMint
  | atom | red | cas => exact h.issue fun _ _ ht => ht.atomic
  | fence => exact h.execFence
  | bari => exact h.execBari
  | barv => exact h.execBarv
  | barw => exact h.execBarw
  | tokw => exact h.execTokw
  | tokp => exact h.execTokp
  | cpyMemory | cpyFromPort | cpyToPort => exact h.issue fun _ _ ht => ht.cpy
  | cseal => exact h.issue fun _ _ ht => ht.modStrand.writeU.ok
  | cwait => exact h.execCwait
  | getc => exact h.issue fun _ _ ht => (ht.modStrand.ite ht).writeU.ok
  | setc => exact h.execSetc
  | setcCrew => exact h.execSetcCrew
  | setcQmap => exact h.execSetcQmap
  | setcStfq => exact h.execSetcStfq
  | sysReplay => exact h.issue fun _ _ ht => ht.foldl fun _ _ hw => hw.replayOn
  | sysReplayTok => exact h.execSysReplayTok
  | sysTlbinv => exact h.execSysTlbinv
  | sysDiagst => exact h.execSysDiagst
  | sysDiagld => exact h.execSysDiagld
  | sysScrub => exact h.issue fun _ _ ht => ht.setCore
  | sysWorld => exact h.execSysWorld
  | sysHalt => exact h.execSysHalt
  | runArbitration => exact h.startRun
  | convergenceIssue | tokwAcquire => exact h.wakeIf.ite h
  | longLatencyReturn => exact h.longReturn
  | queueAccessResume | matrixAccept => exact h.wakeIf
  | scoreboardRelease => exact h.scoreRelease
  | regionReentry => exact h.ite (h.reenterNow.ite (h.reenterNow.ite h))
  | operandParityError => exact h.reenterNow.ite h
  | commitCheck => exact h.commitPass.storesDone
  | parkedStorePerform => exact h.unparkStore
  | ord10StorePerform => exact h.commitPass.storesDone.ite h
  | barwWake | barwTimeout => exact h.foldl fun _ _ ht => ht.endBarw
  | peerResponseArrival => exact h.answer
  | mma | mmas | mmd => exact h.issue fun _ _ ht => ht.product
  | accz =>
    exact h.issue fun _ _ ht => ht.matrixPre fun _ hw => hw.tilesOk fun _ hx => hx.engineRoom fun _ hy => hy.startMop.ok
  | accld => exact h.execAccld
  | accst => exact h.execAccst
  | smx => exact h.execSmx
  | accrd => exact h.execAccrd
  | msyncAll => exact h.execMsyncAll
  | msyncProg => exact h.execMsyncProg
  | msyncWs => exact h.execMsyncWs
  | wsl => exact h.execWsl
  | copyComplete => exact h.copyGo
  | copyResume => exact h.execCopyResume
  | crewRendezvous => exact h.crewMeet.foldl fun _ _ ht => ht.recard
  | rowBlockComplete => exact h.rowBlock
  | matrixResume => exact h.execMatrixResume
  | wsuBlockDelivery => exact h.wsWork.releaseHeld
  | wsuQueuePush => exact h.wsPush
  | wsuResume => exact h.execWsuResume
  | mail => exact h.execMail
  | emit => exact h.execEmit
  | launch => exact h.execLaunch
  | mailboxMessageArrival => exact h.messageArrives.ite h
  | hostMailboxWrite => exact h.hostMail.ite h
  | mailDelivery => exact h.mailTurn
  | launchIntake => exact h.intake
  | launchWaitResolved => exact h.waitOver
  | hankPlacement => exact h.placeNext.ite h
  | emitRecordIntake => exact h.drainIntake
  | continuationTimeout => exact h.formCont.ite h
  | generationFormation => exact h.formGeneration
  | launchCompletion => exact h.launchDone
  | preempt => exact h.hostPreempt
  | releaseHold => exact h.ite h.upd.modContext.putControl
  | controlCmdInvalid => exact h.ite h.putControl
  | saveDeadlineExpiry => exact h.forceReset.ite h
  | contextRestore => exact h.restore
  | bobbinPreempt => exact h.bobbinTurn
  | peerRead | peerReadResponse | peerWrite | peerAtomic | peerAtomicResponse | peerMailboxMessage
  | writeAcknowledgement =>
    exact h.arrive
  | flitRetryExhausted => exact h.ite h.modFabric.upd
  | gangSwitchCommand => exact h.ite h.write.modGang.modFabric.upd
  | sweep => exact h.sweepStart
  | sweepMarkerArrival => exact h.ite h.modGang.sweepGo
  | sweepDone => exact h.chipDone
  | sweepDeadlineExpiry => exact h.sweepFailed.ite h
  | gangResumeRequest => exact h.ite h.modGang.modFabric.upd
  | resume => exact h.resumeGang
  | run => exact h.runGang
  | preemptionSave => exact h.saveAndSweep
  | outOfServiceRequest => exact h.takeOut.ite h
  | unitReturnedToService => exact h.unitBack
  | lastingFaultRepair => exact h.repairRow
  | errorWindowExpiry => exact h.windowTurn
  | bankRetirement => exact h.bankTurn
  | coreSleep => exact h.sleepTurn
  | coreWakeSweep => exact h.wakeCore
  | scrubComplete => exact h.scrubTurn
  | map | unmap | assign | share | release | sealok => exact h.takeEntry
  | measurementExtend => exact h.extend.ite h
  | getVersion | getCapabilities | negotiateAlgorithms | keyExchange | finish | endSession => exact h.spdmRequest
  | getDigests | getCertificate | challenge | getMeasurements => exact h.settled
  | spdmUnsupportedRequest => exact h.reply.ite h
  | keySlotLoad | allowListWrite => exact h.vendor fun _ hw => hw.modSec.ite hw
  | cxlMemRead => exact h.hostRead.ite h
  | cxlMemWrite => exact h.hostWrite.ite h
  | bisnpResponse => exact h.ite h.upd.wakeAll.fabricTurn
  | counterRead => exact h.counterRead.ite h
  | tdiStateChange => exact h.ite (h.modSec.resetWorld.ite h.modSec)
  | ld | sld => exact h.issue fun _ _ ht => ht.load
  | st => exact h.issue fun _ _ ht => ht.storeLanes
  | sst => exact h.issue fun _ _ ht => ht.storeUniform
  | boot => exact h.boot
  | firmwareUpdate => exact h.ite h.modSec
  | thermalThrottle => exact h.upd
  | thermalShutdown => exact h.ite h.log.upd
  | contextCreation => exact h.createContext

/-! ### Steps -/

protected theorem tick : (State.tick s).Canon := h.upd

protected theorem afterFrag : (afterFrag s).Canon := by
  unfold afterFrag
  split
  · exact h
  · split
    · exact h.upd
    · exact h.tick.endRun.ite h.tick.upd
    · exact h.tick.endRun

protected theorem fetchFor {u m} : (fetchFor s u m).2.Canon := by
  unfold fetchFor
  dsimp only
  split
  · exact (h.fetchAt.snd ‹_›).dropPeerBytes
  · exact (h.fetchAt.snd ‹_›).parkFetch
  · exact (h.fetchAt.snd ‹_›).earlyTrap
  · exact (h.fetchAt.snd ‹_›).park

protected theorem issuesNow {u m w} : (issuesNow s u m w).Canon := h.modStrand.stopRun.ite h.modStrand

omit h in
protected theorem thenDo {o f} (ho : NextCanon o) (hf : ∀ t, t.Canon → (f t).Canon) : NextCanon (thenDo o f) := by
  unfold thenDo
  split
  · exact hf _ ho
  · exact ho
  · exact ho

protected theorem stepFrag {u m} : NextCanon (stepFrag s u m) := by
  unfold stepFrag
  split
  · exact (h.fetchFor.snd ‹_›).afterFrag.tidy
  · split
    · exact State.Canon.thenDo (h.fetchFor.snd ‹_›).issuesNow.exec fun _ ht => ht.afterFrag.tidy
    · exact (h.fetchFor.snd ‹_›).issuesNow.rejectTrap.afterFrag.tidy

protected theorem firstChange {es} : OptCanon (firstChange s es) := by
  induction es with
  | nil => trivial
  | cons e es ih =>
    unfold firstChange
    split
    · split
      · exact ih
      · exact h.exec.next ‹_›
    · exact ih

protected theorem eventTurn : (eventTurn s).Canon := by
  unfold eventTurn
  split
  · exact h.tick
  · split
    · exact (h.firstChange.some ‹_›).tidy
    · exact h.wakeAll.tick.ite h.fabricTurn

protected theorem idleTurn : (idleTurn s).Canon := by
  unfold idleTurn
  split
  · exact h.afterFrag.tidy
  · exact h.eventTurn

protected theorem step : NextCanon (step s) := by
  unfold step
  split
  · exact State.Canon.thenDo h.upd.exec fun _ ht => ht.tidy
  · exact h.stepFrag
  · exact h.idleTurn

end State.Canon

/-- Settles O49: every function that `step` is made of keeps the form, since memory is changed through `State.write` and
`State.wipe` alone. -/
theorem everyStepKeepsMemoryCanonical : Obligations.EveryStepKeepsMemoryCanonical := by
  unfold Obligations.EveryStepKeepsMemoryCanonical
  intro s t hs hstep
  exact (State.Canon.step hs).next hstep

end Sys2Proof.Machine
end

section
/-!
Calls and returns use the return stacks (O15), and SETC keeps the rules of CREW, QMAP and STFQ (O28).
-/

namespace Sys2Proof.Machine

/-! ### Calls -/

/-- In a running thread of the fragment the return stack is the same once the instruction is entered. -/
theorem Ready.stack_entered {i : Instr} {s : State} {u : Nat} {m : BitVec 32} (h : Ready i s u m) {j : Nat} (hj : j ∈ acting i s u m) :
    (((entered i s u m).strand u).thread j).stack = ((s.strand u).thread j).stack :=
  h.agree.stack j (h.running j (acting_lt i s u m j hj).2)

/-- A call with a full stack in some acting thread traps before any push (R26). -/
theorem callTo_full {i : Instr} {s : State} {u : Nat} {m : BitVec 32} (ts : List (Nat × BitVec 62)) (h : Ready i s u m)
    (hd : ∃ j ∈ acting i s u m, 64 ≤ ((s.strand u).thread j).stack.length) :
    callTo (entered i s u m) (contextOf i s u m) ts = .trap { cause := 0x37, sub := 0 } (entered i s u m) := by
  obtain ⟨j, hj, hlen⟩ := hd
  have hfull : stackFull ((entered i s u m).strand u) (acting i s u m) = true :=
    List.any_eq_true.2 ⟨j, hj, by rw [h.stack_entered hj]; exact decide_eq_true hlen⟩
  exact if_pos hfull

/-- An instruction whose meaning is a call goes to its targets, with its return address pushed, or traps where a stack is full. -/
theorem call_spec {i : Instr} {s : State} {u : Nat} {m : BitVec 32} (target : Nat → BitVec 62) (body : Cx → State → Eff) (h : Ready i s u m)
    (hx : exec i s = issue i s body)
    (hb : body (contextOf i s u m) (entered i s u m) =
      callTo (entered i s u m) (contextOf i s u m) ((acting i s u m).map fun j => (j, target j))) :
    ((∀ j ∈ acting i s u m, ((s.strand u).thread j).stack.length < 64) →
      ∀ base, spilledStacks (entered i s u m) u (acting i s u m) = some base →
      GoesFrom base i s u m { flow := true } (fun j => if j ∈ acting i s u m then target j else nextPc i s u m) fun t =>
        (t.strand u).spans = (s.strand u).spans ∧
        ∀ j, j < (s.strand u).threads.length → ((s.strand u).thread j).exited = false →
          ((t.strand u).thread j).live = ((s.strand u).thread j).live ∧
          ((t.strand u).thread j).stack =
            if j ∈ acting i s u m then nextPc i s u m :: ((s.strand u).thread j).stack else ((s.strand u).thread j).stack) ∧
    ((∃ j ∈ acting i s u m, 64 ≤ ((s.strand u).thread j).stack.length) →
      Traps i s u m false 0x37 0 ((s.strand u).laneMask (maskBits m)) 0) := by
  refine ⟨fun hd base hbase => call_goes i s u m target body base h hx (fun _ => hb) hd hbase, fun hd => ?_⟩
  have ha : acting i s u m ≠ [] := by
    obtain ⟨j, hj, _⟩ := hd
    exact List.ne_nil_of_mem hj
  exact trap_of i s u m body { cause := 0x37, sub := 0 } h hx ha (hb.trans (callTo_full _ h hd)) rfl rfl (by decide) (by decide) (by decide)

/-! ### Returns -/

@[simp] theorem popReturn_stack (t : Thread) : (popReturn t).stack = t.stack.drop 1 := by
  unfold popReturn; dsimp only; split <;> rfl

/-- A return changes of its thread only the stack and how much of it is spilled. -/
theorem popReturn_keeps (t : Thread) : (popReturn t).v = t.v ∧ (popReturn t).p = t.p ∧ (popReturn t).pc = t.pc ∧
    (popReturn t).lane = t.lane ∧ (popReturn t).live = t.live ∧ (popReturn t).exited = t.exited := by
  unfold popReturn; dsimp only; split <;> exact ⟨rfl, rfl, rfl, rfl, rfl, rfl⟩

/-- The state with an entry popped from the return stack of each thread of `act` (R26). -/
def popped (s : State) (u : Nat) (act : List Nat) : State := s.modStrand u fun st => st.modThreads (maskOf act) popReturn

theorem popped_body (s : State) (u : Nat) (act : List Nat) (w : Touch) (h : s.has u) (hw : w.flow = true) : Body w s (popped s u act) u := by
  refine flow_body s u _ w h hw fun st => ⟨_, rfl, modThreads_length _ _ _, fun j => ?_⟩
  have hth : (st.modThreads (maskOf act) popReturn).thread j = _ := thread_modThreads st (maskOf act) popReturn j
  obtain ⟨hv, hp, hpc, hlane, _, _⟩ := popReturn_keeps (st.thread j)
  change ((st.modThreads (maskOf act) popReturn).thread j).v = _ ∧ ((st.modThreads (maskOf act) popReturn).thread j).p = _ ∧
    ((st.modThreads (maskOf act) popReturn).thread j).pc = _ ∧ ((st.modThreads (maskOf act) popReturn).thread j).lane = _
  rw [hth]
  split
  · exact ⟨hv, hp, hpc, hlane⟩
  · exact ⟨rfl, rfl, rfl, rfl⟩

theorem popped_spans (s : State) (u : Nat) (act : List Nat) (h : s.has u) : ((popped s u act).strand u).spans = (s.strand u).spans := by
  unfold popped
  rw [strand_modStrand_self _ _ _ h]
  rfl

theorem popped_thread (s : State) (u : Nat) (act : List Nat) (h : s.has u) (j : Nat) (hj : j < (s.strand u).threads.length)
    (hact : j ∈ act → j < 32) :
    ((popped s u act).strand u).thread j = if j ∈ act then popReturn ((s.strand u).thread j) else (s.strand u).thread j := by
  unfold popped
  rw [strand_modStrand_self _ _ _ h, thread_modThreads, getLsbD_maskOf]
  by_cases hm : j ∈ act
  · simp [hm, hj, hact hm]
  · simp [hm]

theorem acting_lt_32 {i : Instr} {s : State} {u : Nat} {m : BitVec 32} {j : Nat} (h : j ∈ acting i s u m) : j < 32 := by
  by_contra hn
  have hm := (acting_lt i s u m j h).2
  rw [BitVec.getLsbD_of_ge m j (by omega)] at hm
  exact absurd hm (by decide)

/-- RET's meaning where every acting thread has an entry: pop, and go to what was on top (R157). -/
theorem ret_pops (o : NoOp) {s : State} {u : Nat} {m : BitVec 32} (h : Ready (.ret o) s u m)
    (hd : ∀ j ∈ acting (.ret o) s u m, ((s.strand u).thread j).stack ≠ []) :
    ∃ body, exec (.ret o) s = issue (.ret o) s body ∧ body (contextOf (.ret o) s u m) (entered (.ret o) s u m) =
      goTo (popped (entered (.ret o) s u m) u (acting (.ret o) s u m)) (contextOf (.ret o) s u m)
        ((acting (.ret o) s u m).map fun j => (j, ((s.strand u).thread j).stack.headD 0)) := by
  refine ⟨_, rfl, ?_⟩
  have hany : ((acting (.ret o) s u m).any fun j => (((entered (.ret o) s u m).strand u).thread j).stack.isEmpty) = false := by
    rw [List.any_eq_false]
    intro j hj
    rw [h.stack_entered hj]
    simpa using hd j hj
  have hts : ((acting (.ret o) s u m).map fun j => (j, (((entered (.ret o) s u m).strand u).thread j).stack.headD 0)) =
      (acting (.ret o) s u m).map fun j => (j, ((s.strand u).thread j).stack.headD 0) :=
    List.map_congr_left fun j hj => by rw [h.stack_entered hj]
  rw [← hts]
  exact if_neg (by rw [contextOf_act, contextOf_u, hany]; decide)

/-- RET's meaning where some acting thread has no entry (R157). -/
theorem ret_empty (o : NoOp) {s : State} {u : Nat} {m : BitVec 32} (h : Ready (.ret o) s u m)
    (hd : ∃ j ∈ acting (.ret o) s u m, ((s.strand u).thread j).stack = []) :
    ∃ body, exec (.ret o) s = issue (.ret o) s body ∧ body (contextOf (.ret o) s u m) (entered (.ret o) s u m) =
      .trap { cause := 0x37, sub := 1 } (entered (.ret o) s u m) := by
  obtain ⟨j, hj, hs⟩ := hd
  refine ⟨_, rfl, if_pos (List.any_eq_true.2 ⟨j, hj, ?_⟩)⟩
  rw [contextOf_u, h.stack_entered hj, hs]
  rfl

/-- Strand `b` has the spans of `a`; the running threads of `a` still run, live as they were, with the return stacks `f`. -/
structure StacksAre (f : Nat → List (BitVec 62)) (a b : Strand) : Prop where
  spans : b.spans = a.spans
  threads : ∀ j, j < a.threads.length → (a.thread j).exited = false →
    (b.thread j).live = (a.thread j).live ∧ (b.thread j).exited = false ∧ (b.thread j).stack = f j

/-- Moving on and completing keep the spans and the stacks. -/
theorem StacksAre.moved {f : Nat → List (BitVec 62)} {a b c : Strand} {cx : Cx} {jumped : Bool} (h : StacksAre f a b)
    (hA : Agree (movedOn b cx jumped) c) : StacksAre f a c where
  spans := by rw [hA.spans, (movedOn_true b cx jumped 0).2.2.2, h.spans]
  threads := fun j hj he => by
    obtain ⟨hstack, hlive, hexited, _⟩ := movedOn_true b cx jumped j
    obtain ⟨l, x, k⟩ := h.threads j hj he
    rw [x] at hexited
    exact ⟨by rw [hA.live, hlive, l], hA.exited j hexited, by rw [hA.stack j hexited, hstack, k]⟩

/-- A jump, which changes of the fragment's threads the pcs alone, keeps the spans and the stacks. -/
theorem StacksAre.jumped {f : Nat → List (BitVec 62)} {a b c : Strand} (h : StacksAre f a b) (hspans : c.spans = b.spans)
    (hpc : ∀ j, j < a.threads.length → ∃ pc, c.thread j = { b.thread j with pc := pc }) : StacksAre f a c where
  spans := hspans.trans h.spans
  threads := fun j hj he => by
    obtain ⟨pc, hj'⟩ := hpc j hj
    rw [hj']
    exact h.threads j hj he

/-- The spans and stacks after an instruction has been entered and the acting threads' stacks popped. -/
theorem popped_stacks {i : Instr} {s : State} {u : Nat} {m : BitVec 32} (h : Ready i s u m) :
    StacksAre (fun j => if j ∈ acting i s u m then ((s.strand u).thread j).stack.drop 1 else ((s.strand u).thread j).stack)
      (s.strand u) ((popped (entered i s u m) u (acting i s u m)).strand u) where
  spans := (popped_spans _ _ _ h.has).trans h.agree.spans
  threads := fun j hj he => by
    rw [popped_thread _ u _ h.has j (by rw [h.agree.len]; exact hj) acting_lt_32]
    split
    · obtain ⟨_, _, _, _, hlive, hexited⟩ := popReturn_keeps (((entered i s u m).strand u).thread j)
      exact ⟨hlive.trans (h.agree.live j), hexited.trans (h.agree.exited j he), by rw [popReturn_stack, h.agree.stack j he]⟩
    · exact ⟨h.agree.live j, h.agree.exited j he, h.agree.stack j he⟩

/-- RET goes to the top of each acting thread's stack and takes it off. -/
theorem ret_goes (o : NoOp) {s : State} {u : Nat} {m : BitVec 32} (h : Ready (.ret o) s u m)
    (hd : ∀ j ∈ acting (.ret o) s u m, ((s.strand u).thread j).stack ≠ []) :
    Goes (.ret o) s u m { flow := true }
      (fun j => if j ∈ acting (.ret o) s u m then ((s.strand u).thread j).stack.headD 0 else nextPc (.ret o) s u m) fun t =>
      StacksAre (fun j => if j ∈ acting (.ret o) s u m then ((s.strand u).thread j).stack.drop 1 else ((s.strand u).thread j).stack)
        (s.strand u) (t.strand u) := by
  obtain ⟨body, hx, hb⟩ := ret_pops o h hd
  generalize Instr.ret o = i at *
  have hbody := popped_body (entered i s u m) u (acting i s u m) (Touch.of { flow := true } i) h.has rfl
  obtain ⟨t1, hgo, hhas, honly, _, hspans, hmoved⟩ := goTo_eq (popped (entered i s u m) u (acting i s u m)) (contextOf i s u m)
    ((acting i s u m).map fun j => (j, ((s.strand u).thread j).stack.headD 0)) (hbody.has h.has)
  rw [contextOf_u, hbody.len.trans h.agree.len] at hmoved
  have hentered : Only (Touch.of { flow := true } i) s (entered i s u m) u :=
    entered_only i s u m _ (issuing_has s u m h.atIssue) fun n hn => by simp [Touch.of, hn]
  refine goes_of i s u m s { flow := true } _ _ body t1 _ h hx (fun _ => hb.trans hgo) (fun _ => hentered)
    (fun _ => ⟨hentered.trans (hbody.only.trans (honly _)), hhas⟩) (fun ha j _ => by simp [ha]) (fun _ j hj => ?_)
    fun t0 t ht0 hA => StacksAre.moved ?_ hA
  · rw [hmoved j hj, contextOf_mask]
    split
    · dsimp only
      rw [lookup_map]
      split <;> rfl
    · exact (hbody.stay j).trans (h.quiet.stay j)
  · by_cases ha : acting i s u m = []
    · rw [ht0, if_pos ha]
      exact ⟨h.agree.spans, fun j _ he => ⟨h.agree.live j, h.agree.exited j he, by simp [ha, h.agree.stack j he]⟩⟩
    · rw [ht0, if_neg ha]
      refine (popped_stacks h).jumped hspans fun j hj => ?_
      rw [hmoved j hj]
      split <;> exact ⟨_, rfl⟩

/-- Settles O15: CALL and CALLR share their meaning, `callTo`; RET pops. That the traps' LANES are the fragment's is log entry 19. -/
theorem callsAndReturnsUseTheStack : Obligations.CallsAndReturnsUseTheStack := by
  unfold Obligations.CallsAndReturnsUseTheStack
  refine ⟨fun i target s u m hi h => ?_, fun o s u m h => ⟨fun hd => ?_, fun hd => ?_⟩⟩
  · rcases hi with ⟨o, rfl, ht⟩ | ⟨o, rfl, ht, hok⟩
    · refine call_spec target _ h rfl ?_
      rw [funext ht]
      rfl
    · refine call_spec target _ h rfl ?_
      rw [funext ht]
      exact regTargets_eq _ s u m o.target (fun ts e => callTo e (contextOf (.callr o) s u m) ts) h hok
  · obtain ⟨t, hx, hstacks, honly, hpc⟩ := ret_goes o h hd
    exact ⟨t, hx, ⟨hstacks.spans, fun j hj he => by
      obtain ⟨hlive, _, hstack⟩ := hstacks.threads j hj he
      exact ⟨hlive, hstack⟩⟩, honly, hpc⟩
  · obtain ⟨body, hx, hb⟩ := ret_empty o h hd
    have ha : acting (.ret o) s u m ≠ [] := by
      obtain ⟨j, hj, _⟩ := hd
      exact List.ne_nil_of_mem hj
    exact trap_of _ s u m body { cause := 0x37, sub := 1 } h hx ha hb rfl rfl (by decide) (by decide) (by decide)

/-! ### SETC with checks -/

/-- SETC names s-registers alone (R206). -/
theorem setc_uses_uniform {o : SetcOp} {i : Instr} (hi : i = .setc o ∨ i = .setcCrew o ∨ i = .setcQmap o ∨ i = .setcStfq o) : ∀ x ∈ i.uses, x.sp = .s := by
  have huses : i.uses = [useN .s o.b 2 true false 2] ++ (if bit o.m % 2 = 1 then [useN .s o.c 2 true false 3] else []) := by
    rcases hi with rfl | rfl | rfl | rfl <;> rfl
  rw [huses]
  intro x hx
  rcases List.mem_append.1 hx with hx | hx
  · rw [List.mem_singleton.1 hx]; rfl
  · split at hx
    · rw [List.mem_singleton.1 hx]; rfl
    · exact absurd hx List.not_mem_nil

theorem setc_no_boundary {o : SetcOp} {i : Instr} (hi : i = .setc o ∨ i = .setcCrew o ∨ i = .setcQmap o ∨ i = .setcStfq o) :
    isBoundary i.op i.uses = false := by
  have hop : i.op = 0x7C := by rcases hi with rfl | rfl | rfl | rfl <;> rfl
  have huses : (i.uses.any fun x => x.sp = .v && 248 ≤ x.code) = false := by
    rw [List.any_eq_false]
    intro x hx
    simp [setc_uses_uniform hi x hx]
  unfold isBoundary
  rw [hop, huses]
  rfl

/-- SETC to CREW or QMAP writes a value that passes its check, and traps ILL_FIELD at its source otherwise (R41, R45). -/
theorem setc_checked {i : Instr} {o : SetcOp} {s : State} {u : Nat} {m : BitVec 32} (n : Nat) (x : BitVec 64) (ok : Bool) (body : Cx → State → Eff)
    (hi : (i = .setcCrew o ∧ n = 4) ∨ (i = .setcQmap o ∧ n = 0x0A)) (h : Ready i s u m) (ha : acting i s u m ≠ [])
    (hx : exec i s = issue i s body)
    (hb : body (contextOf i s u m) s = if ok then .ok (s.modStrand u fun st => { st with ctl := ctlPut st.ctl n x })
      else .trap { cause := 0x02, sub := setcPos o } s) :
    (ok = true → Completes i s u m { ctl := fun r => r == n } fun t => t.creg u n = x) ∧
    (¬ok = true → Traps i s u m false 0x02 (setcPos o) ((s.strand u).laneMask (maskBits m)) 0) := by
  have hnb : isBoundary i.op i.uses = false := setc_no_boundary (o := o) (by rcases hi with ⟨h, _⟩ | ⟨h, _⟩ <;> simp [h])
  refine ⟨fun hok => ?_, fun hok => ?_⟩
  · refine completes_creg i s u m n body (fun c => ctlPut c n x) h hx ha hnb (by rw [hb, if_pos hok])
      (fun r hr h0 hn st => setc_plain_read r n x hn s st hr h0) _ fun t ht => ?_
    rcases hi with ⟨_, rfl⟩ | ⟨_, rfl⟩
    · exact ht 4 (by decide) (by decide)
    · exact ht 0x0A (by decide) (by decide)
  · have he := startOf_entered i s u m hnb
    have hsub : setcPos o < 65536 := by unfold setcPos Form.at; split <;> decide
    exact trap_of i s u m body { cause := 0x02, sub := setcPos o } h hx ha (by rw [he, hb, if_neg hok]) rfl rfl
      (show 0x02 < 256 by decide) hsub (show 0 < 2 ^ 64 by decide)

/-- SETC to CREW, with the value that its map leaves: bit 9 is read-only (R41). -/
theorem setcCrew_body (o : SetcOp) (s : State) (u : Nat) (m : BitVec 32) (hc : (s.strand u).clean) :
    let mask : BitVec 64 := if o.m then ((s.strand u).readS o.c 2).d else BitVec.allOnes 64
    let merged := (s.creg u 4 &&& ~~~mask) ||| (((s.strand u).readS o.b 2).d &&& mask)
    let new := merged &&& ~~~(0x200 : BitVec 64) ||| (s.creg u 4 &&& 0x200)
    ∃ body, exec (.setcCrew o) s = issue (.setcCrew o) s body ∧ body (contextOf (.setcCrew o) s u m) s =
      if crewOk (s.strand u).member new then .ok (s.modStrand u fun st => { st with ctl := ctlPut st.ctl 4 new })
      else .trap { cause := 0x02, sub := setcPos o } s := by
  refine ⟨_, rfl, ?_⟩
  dsimp only
  rw [contextOf_u, setcArgs_clean _ _ hc, ← crew_value]
  rfl

/-- SETC to QMAP, with the value that its map leaves: the upper half is read-only (R45). -/
theorem setcQmap_body (o : SetcOp) (s : State) (u : Nat) (m : BitVec 32) (hc : (s.strand u).clean) :
    let mask : BitVec 64 := if o.m then ((s.strand u).readS o.c 2).d else BitVec.allOnes 64
    let merged := (s.creg u 0x0A &&& ~~~mask) ||| (((s.strand u).readS o.b 2).d &&& mask)
    let new := (merged.setWidth 32).setWidth 64 ||| (s.creg u 0x0A >>> 32 <<< 32)
    ∃ body, exec (.setcQmap o) s = issue (.setcQmap o) s body ∧ body (contextOf (.setcQmap o) s u m) s =
      if qmapOk (s.strand u) new then .ok (s.modStrand u fun st => { st with ctl := ctlPut st.ctl 0x0A new })
      else .trap { cause := 0x02, sub := setcPos o } s := by
  refine ⟨_, rfl, ?_⟩
  dsimp only
  rw [contextOf_u, setcArgs_clean _ _ hc, ← qmap_value]
  rfl

/-- A SETC of STFQ writes that register and begins a new count of arrivals (R48). -/
theorem stfqPut_body (s : State) (u : Nat) (x : Strand → BitVec 64) (h : s.has u) :
    Body { ctl := fun r => r == 0x0E } s (s.modStrand u fun st => { st with ctl := { st.ctl with stfq := x st }, arrivals := 0 }) u := by
  have hs := strand_modStrand_self s u (fun st => { st with ctl := { st.ctl with stfq := x st }, arrivals := 0 }) h
  refine ⟨only_modStrand s u _ _ h ⟨fun r hr h0 hw => ?_, fun _ => ⟨rfl, rfl, rfl⟩, fun _ _ _ => rfl, fun _ _ => rfl, fun _ _ => rfl, fun _ _ _ _ => rfl,
    fun _ _ _ => rfl, fun _ => ⟨rfl, fun _ => ⟨rfl, fun he => ⟨he, rfl⟩⟩⟩⟩, ?_, ?_, fun _ => (has_modStrand _ _ _ _).2 h, ?_⟩
  · exact setc_plain_read r 0x0E (x (s.strand u)) (by simpa using hw) s (s.strand u) hr h0
  · rw [hs]; exact fun _ => rfl
  · rw [hs]
  · rw [hs]; exact ⟨rfl, rfl, fun _ => rfl⟩

theorem setcStfq_completes (o : SetcOp) {s : State} {u : Nat} {m : BitVec 32} (h : Ready (.setcStfq o) s u m)
    (ha : acting (.setcStfq o) s u m ≠ []) (hc : (s.strand u).clean) :
    Completes (.setcStfq o) s u m { ctl := fun r => r == 0x0E } fun t =>
      t.creg u 0x0E = stfqMerge (s.creg u 0x0E) ((s.strand u).readS o.b 2).d
        (if o.m then ((s.strand u).readS o.c 2).d else BitVec.allOnes 64) (s.strand u).arrivals := by
  have hs := issuing_has s u m h.atIssue
  have hnb : isBoundary (Instr.setcStfq o).op (Instr.setcStfq o).uses = false := setc_no_boundary (o := o) (by simp)
  have hee := startOf_entered (.setcStfq o) s u m hnb
  have hput := stfqPut_body s u (fun st => stfqMerge st.ctl.stfq ((s.strand u).readS o.b 2).d
    (if o.m then ((s.strand u).readS o.c 2).d else BitVec.allOnes 64) st.arrivals) hs
  refine completes_of _ s u m _ _ _ _ h rfl (fun _ => ?_) (fun _ => by rw [hee]; exact hput) fun t0 ht0 hh => ?_
  · rw [hee]
    dsimp only
    rw [contextOf_u, setcArgs_clean _ _ hc]
    rfl
  · rw [if_neg ha] at ht0
    refine (complete_creg_plain t0 (contextOf (.setcStfq o) s u m) _ hh hnb 0x0E (by decide) (by decide)).trans ?_
    rw [ht0]
    exact congrArg (fun st : Strand => st.ctl.stfq) (strand_modStrand_self s u _ hs)

/-- Settles O28: SETC to CREW and to QMAP writes what passes `crewOk` and `qmapOk`, which are the rules of R41 and R45;
the LANES of the traps are those of log entry 19. -/
theorem setcChecksCrewAndQmap : Obligations.SetcChecksCrewAndQmap := by
  unfold Obligations.SetcChecksCrewAndQmap
  refine ⟨fun o crew => ?_, fun o s u m h ha hc => ?_⟩
  · cases crew
    case true =>
      intro s u m i h ha hc st mask src old merged new member count good
      obtain ⟨body, hx, hb⟩ := setcCrew_body o s u m hc
      have hgood : crewOk st.member new = true ↔ good := crewOk_iff _ _
      rw [← hgood]
      exact setc_checked 4 new _ body (.inl ⟨rfl, rfl⟩) h ha hx hb
    case false =>
      intro s u m i h ha hc st mask src old merged new member count good
      obtain ⟨body, hx, hb⟩ := setcQmap_body o s u m hc
      have hgood : qmapOk st new = true ↔ good := qmapOk_iff s u new
      rw [← hgood]
      exact setc_checked 0x0A new _ body (.inr ⟨rfl, rfl⟩) h ha hx hb
  · obtain ⟨t, hx, hvalue, hrest⟩ := setcStfq_completes o h ha hc
    refine ⟨t, hx, ?_, hrest⟩
    dsimp only
    rw [hvalue]
    exact stfq_value _ _ _ _

end Sys2Proof.Machine
end

section
/-!
Words and the fields they hold: layouts, and decoding what `encode` gives (R53, R58, R60, R69).
-/

namespace Sys2Proof

/-! ### Bits of a number -/

theorem fld_eq_mod_div (w lo n : Nat) : fld w lo n = w % 2 ^ (lo + n) / 2 ^ lo := by
  rw [fld, Nat.pow_add, Nat.mod_mul_right_div_self]

/-- The bits of `w` from position `lo + n` on, and those below `lo`, decide no bit of the other. -/
theorem fld_add_high (w c lo n K : Nat) (h : lo + n ≤ K) : fld (w + c * 2 ^ K) lo n = fld w lo n := by
  obtain ⟨d, rfl⟩ := Nat.exists_eq_add_of_le h
  rw [fld_eq_mod_div, fld_eq_mod_div, Nat.pow_add 2 (lo + n), Nat.mul_left_comm, Nat.add_mul_mod_self_left]

/-- A value put where a number has zeros is read there, and changes no bit above. -/
theorem put_spec {w v lo n : Nat} (h : fld w lo n = 0) (hv : v < 2 ^ n) :
    fld (w + v * 2 ^ lo) lo n = v ∧ (w + v * 2 ^ lo) / 2 ^ (lo + n) = w / 2 ^ (lo + n) := by
  have hd : (w + v * 2 ^ lo) / 2 ^ lo = w / 2 ^ lo + v := Nat.add_mul_div_right w v (Nat.two_pow_pos lo)
  have h0 : w / 2 ^ lo % 2 ^ n = 0 := h
  rw [fld, Nat.pow_add, ← Nat.div_div_eq_div_mul, ← Nat.div_div_eq_div_mul, hd]
  obtain ⟨q, hq⟩ := Nat.dvd_of_mod_eq_zero h0
  rw [hq, Nat.mul_add_mod, Nat.mod_eq_of_lt hv, Nat.mul_add_div (Nat.two_pow_pos n), Nat.mul_div_cancel_left _ (Nat.two_pow_pos n),
    Nat.div_eq_of_lt hv]
  exact ⟨rfl, rfl⟩

/-- Two ranges of bits share none. -/
def apart (lo n lo' n' : Nat) : Prop := lo + n ≤ lo' ∨ lo' + n' ≤ lo

/-- A value put where a number has zeros changes no bit elsewhere. -/
theorem fld_put_apart {w v lo n lo' n' : Nat} (h : fld w lo n = 0) (hv : v < 2 ^ n) (ha : apart lo n lo' n') :
    fld (w + v * 2 ^ lo) lo' n' = fld w lo' n' := by
  rcases ha with ha | ha
  · obtain ⟨d, rfl⟩ := Nat.exists_eq_add_of_le ha
    rw [fld, fld, Nat.pow_add 2 (lo + n), ← Nat.div_div_eq_div_mul, (put_spec h hv).2, Nat.div_div_eq_div_mul]
  · exact fld_add_high w v lo' n' lo ha

/-! ### Layouts -/

/-- The slots of a layout lie between the opcode and the form's last bit, and share no bit. -/
def LayoutOk (ls : List Slot) (bits : Nat) : Prop :=
  (∀ sl ∈ ls, 10 ≤ sl.lo ∧ sl.lo + sl.len ≤ bits) ∧ ls.Pairwise fun a b => a.lo + a.len ≤ b.lo ∨ b.lo + b.len ≤ a.lo

theorem slots_ok {op : Nat} (f : Form) (h : op < 128) : LayoutOk (slots op f) (32 * f.words) := by
  have all : ∀ f ∈ all4, ∀ op < 128, (∀ sl ∈ slots op f, 10 ≤ sl.lo ∧ sl.lo + sl.len ≤ 32 * f.words) ∧
      (slots op f).Pairwise fun a b => a.lo + a.len ≤ b.lo ∨ b.lo + b.len ≤ a.lo := by decide +kernel
  exact all f (by cases f <;> decide) op h

/-- `pack`'s step: the field of a slot put in its place. -/
def Raw.place (r : Raw) (w : Nat) (sl : Slot) : Nat := w + r.get sl.fd % 2 ^ sl.len * 2 ^ sl.lo

theorem mod_two_pow_lt (v n : Nat) : v % 2 ^ n < 2 ^ n := Nat.mod_lt _ (Nat.two_pow_pos n)

/-- The fields put in their places are read back there; no bit between the slots changes, nor the number's bound. -/
theorem place_spec (r : Raw) {ls : List Slot} {bits : Nat} (hl : LayoutOk ls bits) :
    ∀ {w : Nat}, (∀ sl ∈ ls, fld w sl.lo sl.len = 0) → w < 2 ^ bits →
      (∀ sl ∈ ls, fld (ls.foldl r.place w) sl.lo sl.len = r.get sl.fd % 2 ^ sl.len) ∧
      (∀ lo n, (∀ sl ∈ ls, apart sl.lo sl.len lo n) → fld (ls.foldl r.place w) lo n = fld w lo n) ∧
      ls.foldl r.place w < 2 ^ bits := by
  obtain ⟨hin, hp⟩ := hl
  induction ls with
  | nil => exact fun _ hw => ⟨fun _ h => absurd h List.not_mem_nil, fun _ _ _ => rfl, hw⟩
  | cons a ls ih =>
    intro w h0 hw
    obtain ⟨ha, hp⟩ := List.pairwise_cons.1 hp
    have hv := mod_two_pow_lt (r.get a.fd) a.len
    have hz := h0 a List.mem_cons_self
    have hnext : ∀ sl ∈ ls, fld (r.place w a) sl.lo sl.len = 0 := fun sl hsl =>
      (fld_put_apart hz hv (ha sl hsl)).trans (h0 sl (List.mem_cons_of_mem a hsl))
    have hlt : r.place w a < 2 ^ bits := by
      obtain ⟨d, hd⟩ := Nat.exists_eq_add_of_le (hin a List.mem_cons_self).2
      have hdiv := (put_spec hz hv).2
      rw [hd, Nat.add_comm, Nat.pow_add] at hw ⊢
      rw [← Nat.div_lt_iff_lt_mul (Nat.two_pow_pos _)] at hw ⊢
      rwa [Raw.place, hdiv]
    obtain ⟨hmem, hout, hbound⟩ := ih (fun sl hsl => hin sl (List.mem_cons_of_mem a hsl)) hp hnext hlt
    refine ⟨fun sl hsl => ?_, fun lo n hap => ?_, hbound⟩
    · rcases List.mem_cons.1 hsl with rfl | hsl
      · refine (hout _ _ fun b hb => ?_).trans (put_spec hz hv).1
        exact (ha b hb).symm
      · exact hmem sl hsl
    · exact (hout lo n fun b hb => hap b (List.mem_cons_of_mem a hb)).trans (fld_put_apart hz hv (hap a List.mem_cons_self))

/-! ### What `pack` holds -/

theorem Form.len_lt (f : Form) : f.len < 4 := by cases f <;> decide

@[simp] theorem formOf_len (f : Form) : formOf f.len = f := by cases f <;> rfl

theorem bit_lt (b : Bool) : bit b < 2 := by cases b <;> decide

@[simp] theorem bit_beq_one (b : Bool) : (bit b == 1) = b := by cases b <;> rfl

/-- The lowest ten bits of an instruction: LEN, BND and OP. -/
def headOf (op : Nat) (r : Raw) : Nat := r.form.len + 4 * bit r.bnd + 8 * op

theorem headOf_fields {op : Nat} (r : Raw) (h : op < 128) :
    fld (headOf op r) 0 2 = r.form.len ∧ fld (headOf op r) 2 1 = bit r.bnd ∧ fld (headOf op r) 3 7 = op ∧ headOf op r < 2 ^ 10 := by
  have h1 := r.form.len_lt
  have h2 := bit_lt r.bnd
  unfold fld headOf
  omega

theorem pack_spec {op : Nat} (r : Raw) (h : op < 128) :
    (∀ sl ∈ slots op r.form, fld (pack op r) sl.lo sl.len = r.get sl.fd % 2 ^ sl.len) ∧
    (∀ lo n, lo + n ≤ 10 → fld (pack op r) lo n = fld (headOf op r) lo n) ∧ pack op r < 2 ^ (32 * r.form.words) := by
  have hok := slots_ok r.form h
  obtain ⟨_, _, _, hlt⟩ := headOf_fields r h
  have hzero : ∀ sl ∈ slots op r.form, fld (headOf op r) sl.lo sl.len = 0 := fun sl hsl => by
    have := Nat.pow_le_pow_right (n := 2) (by decide) (hok.1 sl hsl).1
    rw [fld, Nat.div_eq_of_lt (by omega), Nat.zero_mod]
  have hword : headOf op r < 2 ^ (32 * r.form.words) := by
    cases r.form <;> exact lt_of_lt_of_le hlt (by decide)
  obtain ⟨hmem, hout, hbound⟩ := place_spec r hok hzero hword
  exact ⟨hmem, fun lo n hn => hout lo n fun sl hsl => Or.inr (hn.trans (hok.1 sl hsl).1), hbound⟩

/-- What `unpack` reads from the words that hold the fields `r`: each slot's field cut to the slot. -/
def echo (op : Nat) (r : Raw) : Raw :=
  (slots op r.form).foldl (fun q sl => q.set sl (r.get sl.fd % 2 ^ sl.len))
    { form := r.form, bnd := r.bnd, pg := if r.form.isW3 then 0 else 7 }

theorem unpack_pack {op : Nat} (r : Raw) (h : op < 128) : unpack op r.form (pack op r) = echo op r := by
  obtain ⟨hmem, hhead, _⟩ := pack_spec r h
  obtain ⟨_, hbnd, _⟩ := headOf_fields r h
  unfold unpack echo
  rw [hhead 2 1 (by decide), hbnd, bit_beq_one]
  exact List.foldl_ext _ _ _ fun q sl hsl => by rw [hmem sl hsl]

/-! ### Words that decode -/

/-- The fields `r` of the instruction `i` of opcode `op` are told from its words: its form exists, no undefined bit of SUB is set, and
what the layout carries of them builds `i`. -/
structure Carried (op : Nat) (r : Raw) (i : Instr) : Prop where
  op_lt : op < 0x7E
  hasForm : formOk op r.form = true
  defined : subUndefined op r.form (echo op r) = false
  builds : build op (echo op r) = some i

theorem lowDiff_self (w : Nat) : lowDiff w w = none := by
  have h : Nat.xor w w = 0 := Nat.xor_self w
  rw [lowDiff, h]
  rfl

theorem fieldCheck_wf {op : Nat} {f : Form} {i : Instr} (h : i.WF) : fieldCheck true op f (encode i) i = .ok i := by
  obtain ⟨hf, hs⟩ := List.append_eq_nil_iff.1 h
  unfold fieldCheck reservedFault
  rw [lowDiff_self, hf, hs]
  cases i.ctlNumber <;> rfl

/-- The words of an instruction whose fields its layout carries decode to it, whatever follows them. -/
theorem decode_encode {op : Nat} {r : Raw} {i : Instr} (rest : Nat) (hr : toRaw i = some (op, r)) (hc : Carried op r i) (hwf : i.WF) :
    decode true (encode i + 2 ^ (32 * r.form.words) * rest) = .ok i := by
  obtain ⟨hop, hform, hsub, hbuild⟩ := hc
  have h128 : op < 128 := by omega
  obtain ⟨_, hhead, hlt⟩ := pack_spec r h128
  obtain ⟨hlen, _, hopc, _⟩ := headOf_fields r h128
  have henc : encode i = pack op r := by rw [encode, hr]
  have hfar : 3 + 7 ≤ 32 * r.form.words := by cases r.form <;> decide
  have e1 : fld (encode i + 2 ^ (32 * r.form.words) * rest) 0 2 = r.form.len := by
    rw [Nat.mul_comm, fld_add_high _ _ _ _ _ (by omega), henc, hhead 0 2 (by decide), hlen]
  have e2 : fld (encode i + 2 ^ (32 * r.form.words) * rest) 3 7 = op := by
    rw [Nat.mul_comm, fld_add_high _ _ _ _ _ hfar, henc, hhead 3 7 (by decide), hopc]
  have e3 : (encode i + 2 ^ (32 * r.form.words) * rest) % 2 ^ (32 * r.form.words) = encode i := by
    rw [Nat.add_mul_mod_self_left, henc, Nat.mod_eq_of_lt hlt]
  have e4 : unpack op r.form (encode i) = echo op r := by rw [henc, unpack_pack r h128]
  unfold decode
  simp only [e1, e2, formOf_len, e3, e4, hform, hsub, hbuild, fieldCheck_wf hwf]
  simp [hop]

end Sys2Proof
end

section
/-!
Layouts of the opcodes, and the fields that each kind of instruction reads back from its own words (R58 to R69).
-/

namespace Sys2Proof

/-! ### What a layout reads back -/

@[simp] theorem need_nil (ok : Bool) (p : Nat) : need ok p = [] ↔ ok = true := by cases ok <;> simp [need]

@[simp] theorem Form.isW3_forms : Form.w1.isW3 = false ∧ Form.w3.isW3 = true ∧ Form.w1l.isW3 = false ∧ Form.w3l.isW3 = true :=
  ⟨rfl, rfl, rfl, rfl⟩

@[simp] theorem Form.isLit_forms : Form.w1.isLit = false ∧ Form.w3.isLit = false ∧ Form.w1l.isLit = true ∧ Form.w3l.isLit = true :=
  ⟨rfl, rfl, rfl, rfl⟩

@[simp] theorem Form.mem_all4 (f : Form) : f ∈ all4 := by cases f <;> decide

@[simp] theorem Form.mem_two (f : Form) : f ∈ two ↔ f = .w1 ∨ f = .w3 := by cases f <;> decide

@[simp] theorem Form.mem_w3only (f : Form) : f ∈ w3only ↔ f = .w3 := by cases f <;> decide

@[simp] theorem Hdr.faults_nil (h : Hdr) (forms : List Form) :
    h.faults forms = [] ↔ h.form ∈ forms ∧ (h.pg < 8 ∧ (h.form.isW3 = true ∨ h.pg = 7)) ∧ (h.form.isW3 = true ∨ h.pn = false) := by
  simp [Hdr.faults, and_assoc]

@[simp] theorem attrFaults_nil (f : Form) (ok : Attr) (rm tr la : Nat) (sat : Bool) :
    attrFaults f ok rm tr la sat = [] ↔
      (rm = 0 ∨ ok.rm = true ∧ rm < 7 ∧ f.isW3 = true) ∧ (tr = 0 ∨ ok.tr = true ∧ tr < 6 ∧ f.isW3 = true) ∧
      (sat = false ∨ ok.sat = true ∧ f.isW3 = true) ∧ (la = 0 ∨ ok.la = true ∧ la < 16 ∧ f.isW3 = true) := by
  simp [attrFaults, and_assoc]

@[simp] theorem codeFault_nil (f : Form) (code n1 p1 p3 : Nat) :
    codeFault f code n1 p1 p3 = [] ↔ code < if f.isW3 then 256 else n1 := by
  simp [codeFault]

@[simp] theorem Hdr.raw_eq (h : Hdr) : h.raw = { form := h.form, bnd := h.bnd, pn := bit h.pn, pg := h.pg } := rfl

@[simp] theorem Raw.hdr_eq (r : Raw) : r.hdr = { form := r.form, bnd := r.bnd, pn := r.pn == 1, pg := r.pg } := rfl

@[simp] theorem bit_mod_two (b : Bool) : bit b % 2 = bit b := by cases b <;> rfl

/-- The W3 words of an opcode whose SUB, U and X hold nothing else but CV, where the opcode is uniform-class (R60, R124). -/
def plainW3 (uni : Bool) : List Slot :=
  [⟨26, 6, .sub 0⟩, ⟨18, 8, .a⟩, ⟨10, 8, .d⟩, ⟨63, 1, .u⟩, ⟨62, 1, .sat⟩, ⟨59, 3, .rm⟩, ⟨56, 3, .tr⟩, ⟨52, 4, .la⟩, ⟨51, 1, .pn⟩,
    ⟨48, 3, .pg⟩, ⟨40, 8, .c⟩, ⟨32, 8, .b⟩] ++ if uni then [⟨64, 31, .x 0⟩, ⟨95, 1, .cv⟩] else [⟨64, 32, .x 0⟩]

/-- What the decoder's tables say of an opcode: its forms, its one-word layout, whether X[31] is CV, its SUB bits, its literal. -/
@[reducible] def Row (op : Nat) (forms : List Form) (w1 : List Slot) (uni : Bool) (mask : Nat) (lit : Role) : Prop :=
  op < 0x7E ∧ (∀ f ∈ forms, formOk op f = true) ∧ slotsW1 op = w1 ∧ slotsW3 op = plainW3 uni ∧ subMask op = mask ∧ role op = lit

/-- `echo`'s step: a slot's field as the slot holds it. -/
def Raw.readBack (r q : Raw) (sl : Slot) : Raw := q.set sl (r.get sl.fd % 2 ^ sl.len)

@[simp] theorem readBack_fields (r q : Raw) (lo n : Nat) :
    r.readBack q ⟨lo, n, .d⟩ = { q with d := r.d % 2 ^ n } ∧ r.readBack q ⟨lo, n, .a⟩ = { q with a := r.a % 2 ^ n } ∧
    r.readBack q ⟨lo, n, .b⟩ = { q with b := r.b % 2 ^ n } ∧ r.readBack q ⟨lo, n, .bb⟩ = { q with b := 2 * (r.b / 2 % 2 ^ n) } ∧
    r.readBack q ⟨lo, n, .c⟩ = { q with c := r.c % 2 ^ n } ∧ r.readBack q ⟨lo, n, .u⟩ = { q with u := r.u % 2 ^ n } ∧
    r.readBack q ⟨lo, n, .sat⟩ = { q with sat := r.sat % 2 ^ n } ∧ r.readBack q ⟨lo, n, .rm⟩ = { q with rm := r.rm % 2 ^ n } ∧
    r.readBack q ⟨lo, n, .tr⟩ = { q with tr := r.tr % 2 ^ n } ∧ r.readBack q ⟨lo, n, .la⟩ = { q with la := r.la % 2 ^ n } ∧
    r.readBack q ⟨lo, n, .pn⟩ = { q with pn := r.pn % 2 ^ n } ∧ r.readBack q ⟨lo, n, .pg⟩ = { q with pg := r.pg % 2 ^ n } ∧
    r.readBack q ⟨lo, n, .k⟩ = { q with k := r.k % 2 ^ n } ∧ r.readBack q ⟨lo, n, .cv⟩ = { q with cv := r.cv % 2 ^ n } ∧
    r.readBack q ⟨lo, n, .w⟩ = { q with w := r.w % 2 ^ n } ∧ r.readBack q ⟨lo, n, .lit⟩ = { q with lit := r.lit % 2 ^ n } ∧
    r.readBack q ⟨lo, n, .xs⟩ = { q with x := sextNat n (r.x % 2 ^ n) } :=
  ⟨rfl, rfl, rfl, rfl, rfl, rfl, rfl, rfl, rfl, rfl, rfl, rfl, rfl, rfl, rfl, rfl, rfl⟩

@[simp] theorem readBack_parts (r q : Raw) (lo n k : Nat) :
    r.readBack q ⟨lo, n, .sub k⟩ = { q with sub := q.sub + r.sub / 2 ^ k % 2 ^ n * 2 ^ k } ∧
    r.readBack q ⟨lo, n, .x k⟩ = { q with x := q.x + r.x / 2 ^ k % 2 ^ n * 2 ^ k } := ⟨rfl, rfl⟩

theorem echo_w1 {op : Nat} {r : Raw} (hf : r.form = .w1) :
    echo op r = (slotsW1 op).foldl r.readBack { form := .w1, bnd := r.bnd, pg := 7 } := by
  rw [echo, hf]; rfl

theorem slots_w1l {op : Nat} (h : op ≠ 0x54) : slots op .w1l = (slotsW1 op).flatMap literalSlot ++ [⟨32, 64, .lit⟩] := by
  rw [slots, if_neg (by simpa using h)]

theorem slots_w3l {op : Nat} (h : role op ≠ .addr) : slots op .w3l = (slotsW3 op).flatMap literalSlot ++ [⟨96, 64, .lit⟩] := by
  rw [slots, if_neg (by simpa using h)]

theorem slots_w3l_addr {op : Nat} (h : role op = .addr) : slots op .w3l = slotsW3 op ++ [⟨96, 64, .lit⟩] := by
  rw [slots, if_pos (by simpa using h)]

theorem echo_w1l {op : Nat} {r : Raw} (hf : r.form = .w1l) (h54 : op ≠ 0x54) :
    echo op r = { ((slotsW1 op).flatMap literalSlot).foldl r.readBack { form := .w1l, bnd := r.bnd, pg := 7 } with lit := r.lit % 2 ^ 64 } := by
  rw [echo, hf, slots_w1l h54, List.foldl_append]
  rfl

theorem echo_w3 {op : Nat} {uni : Bool} {r : Raw} (hl : slotsW3 op = plainW3 uni) (hf : r.form = .w3) :
    echo op r =
      { form := .w3, bnd := r.bnd, sub := r.sub % 64, d := r.d % 256, a := r.a % 256, b := r.b % 256, c := r.c % 256, u := r.u % 2
        sat := r.sat % 2, rm := r.rm % 8, tr := r.tr % 8, la := r.la % 16, pn := r.pn % 2, pg := r.pg % 8
        cv := if uni then r.cv % 2 else 0, x := r.x % 2 ^ (if uni then 31 else 32) } := by
  rw [echo, hf, slots, hl]
  cases uni <;> simp [plainW3, Raw.set, Raw.get, Form.isW3]

theorem echo_w3l {op : Nat} {uni : Bool} {r : Raw} (hl : slotsW3 op = plainW3 uni) (hr : role op ≠ .addr) (hf : r.form = .w3l) :
    echo op r =
      { form := .w3l, bnd := r.bnd, sub := r.sub % 64, d := r.d % 256, a := r.a % 256, c := r.c % 256
        sat := r.sat % 2, rm := r.rm % 8, tr := r.tr % 8, la := r.la % 16, pn := r.pn % 2, pg := r.pg % 8, w := r.w % 2
        cv := if uni then r.cv % 2 else 0, x := r.x % 2 ^ (if uni then 31 else 32), lit := r.lit % 2 ^ 64 } := by
  rw [echo, hf, slots_w3l hr, hl]
  cases uni <;> simp [plainW3, literalSlot, List.flatMap_cons, Raw.set, Raw.get, Form.isW3]

theorem echo_w3l_addr {op : Nat} {uni : Bool} {r : Raw} (hl : slotsW3 op = plainW3 uni) (hr : role op = .addr) (hf : r.form = .w3l) :
    echo op r =
      { form := .w3l, bnd := r.bnd, sub := r.sub % 64, d := r.d % 256, a := r.a % 256, b := r.b % 256, c := r.c % 256, u := r.u % 2
        sat := r.sat % 2, rm := r.rm % 8, tr := r.tr % 8, la := r.la % 16, pn := r.pn % 2, pg := r.pg % 8
        cv := if uni then r.cv % 2 else 0, x := r.x % 2 ^ (if uni then 31 else 32), lit := r.lit % 2 ^ 64 } := by
  rw [echo, hf, slots_w3l_addr hr, hl]
  cases uni <;> simp [plainW3, Raw.set, Raw.get, Form.isW3]

theorem echo_sub {op : Nat} {uni : Bool} {r : Raw} (hl : slotsW3 op = plainW3 uni) (hf : r.form.isW3 = true) :
    (echo op r).sub = r.sub % 64 := by
  cases h : r.form <;> rw [h] at hf
  case w3 => rw [echo_w3 hl h]
  case w3l =>
    by_cases hr : role op = .addr
    · rw [echo_w3l_addr hl hr h]
    · rw [echo_w3l hl hr h]
  all_goals cases hf

@[simp] theorem ofNat_toNat_mod (x : BitVec 32) : BitVec.ofNat 32 (x.toNat % 18446744073709551616) = x :=
  BitVec.eq_of_toNat_eq (by simp; omega)

@[simp] theorem toNat_mod_32 (x : BitVec 32) : x.toNat % 4294967296 = x.toNat := Nat.mod_eq_of_lt x.isLt

@[simp] theorem toNat_mod_64 (x : BitVec 64) : x.toNat % 18446744073709551616 = x.toNat := Nat.mod_eq_of_lt x.isLt

theorem setWidth_low {x : BitVec 64} (h : x.toNat < 4294967296) : (x.setWidth 32).setWidth 64 = x :=
  BitVec.eq_of_toNat_eq (by simp; omega)

theorem ofNat_mod_of_lt {x : BitVec 32} {n : Nat} (h : x.toNat < n) : BitVec.ofNat 32 (x.toNat % n) = x := by
  rw [Nat.mod_eq_of_lt h, BitVec.ofNat_toNat, BitVec.setWidth_eq]

/-- A signed field that can hold a value reads it back. -/
theorem sextNat_fits {n : Nat} {x : BitVec 32} (h32 : n ≤ 32) (h : fits n x = true) : sextNat n (x.toNat % 2 ^ n) = x.toNat := by
  have hx : (x.setWidth n).signExtend 32 = x := by simpa [fits] using h
  have hn' := congrArg BitVec.toNat hx
  have hp := Nat.pow_le_pow_right (n := 2) (by decide) h32
  rw [BitVec.toNat_signExtend, BitVec.toNat_setWidth, BitVec.toNat_setWidth, BitVec.msb_eq_decide, BitVec.toNat_setWidth,
    Nat.mod_eq_of_lt (lt_of_lt_of_le (mod_two_pow_lt _ n) hp)] at hn'
  unfold sextNat
  split at hn' <;> rename_i hm <;> simp at hm <;> split <;> omega

theorem Row.literal {op : Nat} {forms : List Form} {w1 : List Slot} {uni : Bool} {mask : Nat} {lit : Role}
    (row : Row op forms w1 uni mask lit) (h : lit ≠ .addr) : op ≠ 0x54 ∧ role op ≠ .addr := by
  obtain ⟨_, _, _, _, _, rfl⟩ := row
  exact ⟨by rintro rfl; exact h rfl, h⟩

/-- SUB bits under a mask of ones are defined. -/
theorem land_mask {sub : Nat} (k : Nat) (hk : k ≤ 6) (h : sub < 2 ^ k) : Nat.land (sub % 64) (63 - (2 ^ k - 1)) = 0 := by
  have all : ∀ k ≤ 6, ∀ sub < 2 ^ k, Nat.land (sub % 64) (63 - (2 ^ k - 1)) = 0 := by decide +kernel
  exact all k hk sub h

theorem land_none {sub mask : Nat} (h : sub = 0) : Nat.land (sub % 64) (63 - mask) = 0 := by
  rw [h]; exact Nat.zero_and _

/-- An instruction whose opcode has plain W3 words is told from its words where it is built from what they carry. -/
theorem Row.carried {op : Nat} {forms : List Form} {w1 : List Slot} {uni : Bool} {mask : Nat} {lit : Role} {r : Raw} {i : Instr}
    (row : Row op forms w1 uni mask lit) (hf : r.form ∈ forms) (hs : r.form.isW3 = true → Nat.land (r.sub % 64) (63 - mask) = 0)
    (hb : build op (echo op r) = some i) : Carried op r i := by
  obtain ⟨hlt, hforms, _, hw3, hmask, _⟩ := row
  refine ⟨hlt, hforms _ hf, ?_, hb⟩
  unfold subUndefined
  cases h : r.form.isW3
  · rfl
  · rw [hmask, echo_sub hw3 h, hs h]; rfl

/-! ### Vector arithmetic -/

theorem subZ_defined {z' z : Bool} : z' = false ∨ z = true → Nat.land (bit z' % 64) (63 - bit z) = 0 := by
  revert z' z; decide

theorem Alu.carried {o : Alu} {op : Nat} {z three : Bool} {ok : Attr} {c : Alu → Instr} (row : Row op all4 slotsB3 false (bit z) .b32)
    (hb : ∀ r, build op r = some (c (r.alu false three))) (h : o.faults z three ok = []) : Carried op o.raw (c o) := by
  obtain ⟨h54, haddr⟩ := row.literal (by decide)
  have ⟨_, _, hw1, hw3, _, _⟩ := row
  obtain ⟨⟨f, bnd, pn, pg⟩, z', sat, rm, tr, la, d, a, b, c'⟩ := o
  refine row.carried (Form.mem_all4 _) (fun _ => ?_) ((hb _).trans (congrArg (some ∘ c) ?_))
  · have hz : z' = false ∨ z = true := by simp [Alu.faults] at h; grind
    cases b <;> exact subZ_defined hz
  · cases b <;> cases f <;> simp [Alu.faults, Src.faults] at h <;>
      simp [echo_w1, echo_w1l, echo_w3 hw3, echo_w3l hw3, h54, haddr, hw1, slotsB3, Alu.raw, Raw.putSrc, Raw.alu, Raw.src, literalSlot,
        List.flatMap_cons] <;>
      grind

theorem Alu.carriedD {o : Alu} {op : Nat} {three : Bool} {c : Alu → Instr} (row : Row op all4 slotsB3 false 0 .b64)
    (hb : ∀ r, build op r = some (c (r.alu true three))) (h : o.faultsD three = []) : Carried op o.raw (c o) := by
  obtain ⟨h54, haddr⟩ := row.literal (by decide)
  have ⟨_, _, hw1, hw3, _, _⟩ := row
  obtain ⟨⟨f, bnd, pn, pg⟩, z', sat, rm, tr, la, d, a, b, c'⟩ := o
  refine row.carried (Form.mem_all4 _) (fun _ => ?_) ((hb _).trans (congrArg (some ∘ c) ?_))
  · have hz : z' = false ∨ false = true := by simp [Alu.faultsD] at h; grind
    cases b <;> exact subZ_defined hz
  · cases b <;> cases f <;> simp [Alu.faultsD, Src.faultsD] at h <;>
      simp [echo_w1, echo_w1l, echo_w3 hw3, echo_w3l hw3, h54, haddr, hw1, slotsB3, Alu.raw, Raw.putSrc, Raw.alu, Raw.src, literalSlot,
        List.flatMap_cons] <;>
      grind

theorem Alu.carriedImm {o : Alu} {op : Nat} {forms : List Form} {count : Bool} {lit : Role} {c : Alu → Instr}
    (row : Row op forms slotsBI false 0 lit) (hlit : lit ≠ .addr) (hb : ∀ r, build op r = some (c r.aluImm)) (h : o.faultsImm forms count = []) :
    Carried op o.rawImm (c o) := by
  obtain ⟨h54, haddr⟩ := row.literal hlit
  have ⟨_, _, hw1, hw3, _, _⟩ := row
  obtain ⟨⟨f, bnd, pn, pg⟩, z', sat, rm, tr, la, d, a, b, c'⟩ := o
  have hf : f ∈ forms := by simp [Alu.faultsImm] at h; grind
  refine row.carried hf (fun _ => land_none rfl) ((hb _).trans (congrArg (some ∘ c) ?_))
  have hx : ∀ x : BitVec 32, fits 8 x = true → sextNat 8 (x.toNat % 256) = x.toNat := fun x => sextNat_fits (by decide)
  cases b <;> cases f <;> simp [Alu.faultsImm] at h <;>
    simp [echo_w1, echo_w1l, echo_w3 hw3, echo_w3l hw3, h54, haddr, hw1, slotsBI, Alu.rawImm, Raw.aluImm, literalSlot, List.flatMap_cons] <;>
    grind

theorem Un.carried {o : Un} {op : Nat} {ok : Attr} {c : Un → Instr} (row : Row op two slotsB3one false 0 .none)
    (hb : ∀ r, build op r = some (c r.un)) (h : o.faults ok = []) : Carried op o.raw (c o) := by
  have ⟨_, _, hw1, hw3, _, _⟩ := row
  obtain ⟨⟨f, bnd, pn, pg⟩, rm, tr, la, d, a⟩ := o
  have hf : f ∈ two := (Form.mem_two f).2 (by simp [Un.faults] at h; grind)
  refine row.carried hf (fun _ => land_none rfl) ((hb _).trans (congrArg (some ∘ c) ?_))
  cases f <;> simp [Un.faults] at h <;> simp [echo_w1, echo_w3 hw3, hw1, slotsB3one, Un.raw, Raw.un] <;> grind

theorem LeaOp.carried {o : LeaOp} (h : o.faults = []) : Carried 0x17 o.raw (.lea o) := by
  have row : Row 0x17 [.w1, .w3, .w3l] [⟨28, 3, .sub 0⟩, ⟨24, 4, .bb⟩, ⟨17, 7, .a⟩, ⟨10, 7, .d⟩] false 7 .addr := by decide
  have ⟨_, _, hw1, hw3, _, haddr⟩ := row
  obtain ⟨⟨f, bnd, pn, pg⟩, tr, sc, d, a, b, disp⟩ := o
  have hf : f ∈ [Form.w1, .w3, .w3l] := by simp [LeaOp.faults] at h; grind
  have hsc : sc < 5 := by simp [LeaOp.faults] at h; grind
  refine row.carried hf (fun _ => land_mask 3 (by decide) (Nat.lt_trans hsc (by decide))) (congrArg (some ∘ Instr.lea) ?_)
  cases f <;> simp [LeaOp.faults] at h <;> simp [echo_w1, echo_w3 hw3, echo_w3l_addr hw3 haddr, hw1, LeaOp.raw, Raw.lea] <;> grind

theorem CmpOp.carried {o : CmpOp} {op n k : Nat} {dbl : Bool} {c : CmpOp → Instr}
    (row : Row op all4 [⟨31, 1, .u⟩, ⟨24, 7, .b⟩, ⟨17, 7, .a⟩, ⟨13, 4, .sub 0⟩, ⟨10, 3, .d⟩] false (2 ^ k - 1) .b32)
    (hn : n ≤ 16) (hk : k = if dbl then 5 else 4)
    (hb : ∀ r, (if dbl then r.sub % 16 else r.sub) < n → build op r = some (c r.cmp)) (h : o.faults n dbl = []) :
    Carried op o.raw (c o) := by
  obtain ⟨h54, haddr⟩ := row.literal (by decide)
  have ⟨_, _, hw1, hw3, _, _⟩ := row
  obtain ⟨⟨f, bnd, pn, pg⟩, cond, dbl', d, a, b⟩ := o
  have hd : cond < n ∧ (dbl' = true → dbl = true) := by simp [CmpOp.faults] at h; grind
  have hbit := bit_lt dbl'
  subst hk
  have hs : cond + 16 * bit dbl' < 2 ^ (if dbl then 5 else 4) := by cases dbl <;> cases dbl' <;> simp [bit] at * <;> omega
  have hecho : (echo op (CmpOp.raw ⟨⟨f, bnd, pn, pg⟩, cond, dbl', d, a, b⟩)).sub = cond + 16 * bit dbl' := by
    cases b <;> cases f <;> simp [CmpOp.faults, Src.faults] at h <;>
      simp [echo_w1, echo_w1l, echo_w3 hw3, echo_w3l hw3, h54, haddr, hw1, CmpOp.raw, Raw.putSrc, literalSlot, List.flatMap_cons] <;>
      grind [bit]
  refine row.carried (Form.mem_all4 _) (fun _ => land_mask _ (by grind) (by cases b <;> exact hs))
    ((hb _ ?_).trans (congrArg (some ∘ c) ?_))
  · rw [hecho]
    cases dbl <;> cases dbl' <;> simp [bit] at * <;> omega
  · have hm : (cond + 16 * bit dbl') % 16 = cond ∧ (cond + 16 * bit dbl') / 16 % 2 = bit dbl' := by omega
    cases b <;> cases f <;> simp [CmpOp.faults, Src.faults] at h <;>
      simp [echo_w1, echo_w1l, echo_w3 hw3, echo_w3l hw3, h54, haddr, hw1, CmpOp.raw, Raw.putSrc, Raw.cmp, Raw.src, literalSlot,
        List.flatMap_cons] <;>
      grind [bit]

theorem SelOp.carried {o : SelOp} (h : o.faults = []) : Carried 0x19 o.raw (.sel o) := by
  have row : Row 0x19 all4 [⟨29, 3, .c⟩, ⟨28, 1, .u⟩, ⟨22, 6, .b⟩, ⟨16, 6, .a⟩, ⟨10, 6, .d⟩] false 0 .b32 := by decide
  obtain ⟨h54, haddr⟩ := row.literal (by decide)
  have ⟨_, _, hw1, hw3, _, _⟩ := row
  obtain ⟨⟨f, bnd, pn, pg⟩, tr, d, a, b, p⟩ := o
  refine row.carried (Form.mem_all4 _) (fun _ => land_none (by cases b <;> rfl)) (congrArg (some ∘ Instr.sel) ?_)
  cases b <;> cases f <;> simp [SelOp.faults, Src.faults] at h <;>
    simp [echo_w1, echo_w1l, echo_w3 hw3, echo_w3l hw3, haddr, hw1, SelOp.raw, Raw.putSrc, Raw.selOp, Raw.src, literalSlot,
      List.flatMap_cons] <;>
    grind

theorem MovsOp.carried {o : MovsOp} (h : o.faults = []) : Carried 0x1C o.raw (.movs o) := by
  have row : Row 0x1C two slotsB3 false 0 .none := by decide
  have ⟨_, _, hw1, hw3, _, _⟩ := row
  obtain ⟨⟨f, bnd, pn, pg⟩, tr, d, b⟩ := o
  have hf : f ∈ two := (Form.mem_two f).2 (by simp [MovsOp.faults] at h; grind)
  refine row.carried hf (fun _ => land_none rfl) (congrArg (some ∘ Instr.movs) ?_)
  cases f <;> simp [MovsOp.faults] at h <;> simp [echo_w1, echo_w3 hw3, hw1, slotsB3, MovsOp.raw, Raw.movsOp] <;> grind

theorem MovlOp.carried {o : MovlOp} (h : o.faults = []) : Carried 0x1B o.raw (.movl o) := by
  have row : Row 0x1B [.w1l, .w3l] [⟨17, 1, .w⟩, ⟨10, 7, .d⟩] false 0 .b64 := by decide
  obtain ⟨h54, haddr⟩ := row.literal (by decide)
  have ⟨_, _, hw1, hw3, _, _⟩ := row
  obtain ⟨⟨f, bnd, pn, pg⟩, tr, wide, d, lit⟩ := o
  have hf : f ∈ [Form.w1l, .w3l] := by simp [MovlOp.faults] at h; grind
  refine row.carried hf (fun _ => land_none rfl) (congrArg (some ∘ Instr.movl) ?_)
  cases wide <;> cases f <;> simp [MovlOp.faults] at h <;>
    simp [echo_w1l, echo_w3l hw3, haddr, hw1, MovlOp.raw, Raw.movlOp, literalSlot, List.flatMap_cons, bit] <;> grind [setWidth_low]

theorem ShflOp.carried {o : ShflOp} (h : o.faults = []) : Carried 0x1D o.raw (.shfl o) := by
  have row : Row 0x1D two [⟨30, 2, .sub 0⟩, ⟨24, 5, .x 0⟩, ⟨17, 7, .a⟩, ⟨10, 7, .d⟩] false 7 .none := by decide
  have ⟨_, _, hw1, hw3, _, _⟩ := row
  obtain ⟨⟨f, bnd, pn, pg⟩, tr, mode, d, a, amt⟩ := o
  have hf : f ∈ two := (Form.mem_two f).2 (by simp [ShflOp.faults] at h; grind)
  have hm : mode < 4 := by simp [ShflOp.faults] at h; grind
  refine row.carried (by cases amt <;> exact hf) (fun _ => land_mask 3 (by decide) (by cases amt <;> simp [ShflOp.raw] <;> omega)) (congrArg (some ∘ Instr.shfl) ?_)
  cases amt <;> cases f <;> simp [ShflOp.faults] at h <;>
    simp [echo_w1, echo_w3 hw3, hw1, ShflOp.raw, Raw.shflOp] <;> grind [ofNat_mod_of_lt]

theorem ScanOp.carried {o : ScanOp} (h : o.faults = []) : Carried 0x1E o.raw (.scan o) := by
  have row : Row 0x1E two [⟨28, 4, .sub 0⟩, ⟨27, 1, .sub 4⟩, ⟨17, 7, .a⟩, ⟨10, 7, .d⟩] false 31 .none := by decide
  have ⟨_, _, hw1, hw3, _, _⟩ := row
  obtain ⟨⟨f, bnd, pn, pg⟩, rm, tr, op, excl, d, a⟩ := o
  have hf : f ∈ two := (Form.mem_two f).2 (by simp [ScanOp.faults] at h; grind)
  have hb : ∀ r, r.sub % 16 < 11 → build 0x1E r = some (.scan r.scanOp) := fun r hr => if_pos hr
  have hop : op < 11 := by simp [ScanOp.faults] at h; grind
  have hbit := bit_lt excl
  have hs : (echo 0x1E (ScanOp.raw ⟨⟨f, bnd, pn, pg⟩, rm, tr, op, excl, d, a⟩)).sub = op + 16 * bit excl := by
    cases f <;> simp at hf <;> simp [echo_w1, echo_w3 hw3, hw1, ScanOp.raw] <;> omega
  refine row.carried hf (fun _ => land_mask 5 (by decide) (show op + 16 * bit excl < 32 by omega))
    ((hb _ (by rw [hs]; omega)).trans (congrArg (some ∘ Instr.scan) ?_))
  cases f <;> simp [ScanOp.faults] at h <;>
    simp [Raw.scanOp, hs] <;> simp [echo_w1, echo_w3 hw3, hw1, ScanOp.raw] <;> grind [bit]

theorem SreadOp.carried {o : SreadOp} (h : o.faults = []) : Carried 0x1F o.raw (.sread o) := by
  have row : Row 0x1F two [⟨31, 1, .x 8⟩, ⟨17, 7, .x 0⟩, ⟨10, 7, .d⟩] false 0 .none := by decide
  have ⟨_, _, hw1, hw3, _, _⟩ := row
  obtain ⟨⟨f, bnd, pn, pg⟩, u, sel, d⟩ := o
  have hf : f ∈ two := (Form.mem_two f).2 (by simp [SreadOp.faults] at h; grind)
  refine row.carried hf (fun _ => land_none rfl) (congrArg (some ∘ Instr.sread) ?_)
  cases u <;> cases f <;> simp [SreadOp.faults] at h <;> simp [echo_w1, echo_w3 hw3, hw1, SreadOp.raw, Raw.sreadOp, bit] <;> grind

theorem FclassOp.carried {o : FclassOp} (h : o.faults = []) : Carried 0x2F o.raw (.fclass o) := by
  have row : Row 0x2F two [⟨22, 10, .x 0⟩, ⟨15, 7, .a⟩, ⟨10, 3, .d⟩] false 1 .none := by decide
  have ⟨_, _, hw1, hw3, _, _⟩ := row
  obtain ⟨⟨f, bnd, pn, pg⟩, dbl, mask, d, a⟩ := o
  have hf : f ∈ two := (Form.mem_two f).2 (by simp [FclassOp.faults] at h; grind)
  refine row.carried hf (fun _ => land_mask 1 (by decide) (bit_lt dbl)) (congrArg (some ∘ Instr.fclass) ?_)
  cases dbl <;> cases f <;> simp [FclassOp.faults] at h <;> simp [echo_w1, echo_w3 hw3, hw1, FclassOp.raw, Raw.fclassOp, bit] <;> grind

theorem CvtOp.carried {o : CvtOp} (h : o.faults = []) : Carried 0x39 o.raw (.cvt o) := by
  have row : Row 0x39 w3only [] false 0 .none := by decide
  have ⟨_, _, _, hw3, _, _⟩ := row
  obtain ⟨⟨f, bnd, pn, pg⟩, sat, rm, tr, la, d, a, c, sb, de, se, df, sf⟩ := o
  simp [CvtOp.faults] at h
  obtain rfl : f = .w3 := by grind
  have hx : sf < 16 ∧ df < 16 ∧ se < 8 ∧ de < 8 ∧ sb < 4 := by
    have he : ∀ k, fmtElems k ≤ 8 := fun k => by unfold fmtElems; split <;> decide
    have hs := he sf
    have hd := he df
    grind
  refine row.carried ((Form.mem_w3only _).2 rfl) (fun _ => land_none rfl) (congrArg (some ∘ Instr.cvt) ?_)
  simp [echo_w3 hw3, CvtOp.raw, Raw.cvtOp]
  grind

theorem DotOp.carried {o : DotOp} {op : Nat} {eight : Bool} {c : DotOp → Instr} (row : Row op w3only [] false 0 .none)
    (hb : ∀ r, build op r = some (c r.dotOp)) (h : o.faults eight = []) : Carried op o.raw (c o) := by
  have ⟨_, _, _, hw3, _, _⟩ := row
  obtain ⟨⟨f, bnd, pn, pg⟩, rm, tr, la, d, a, b, c', fb, fa, bsb, bsa, srb, sra⟩ := o
  simp [DotOp.faults] at h
  obtain rfl : f = .w3 := by grind
  have hr : sra < 256 ∧ srb < 256 ∧ bsa < 4 ∧ bsb < 4 ∧ fa < 4 ∧ fb < 4 := by cases eight <;> grind
  obtain ⟨x, hx, hxs⟩ : ∃ x, sra + 256 * srb + 65536 * bsa + 262144 * bsb + 1048576 * fa + 4194304 * fb = x ∧ x < 4294967296 ∧
      x % 256 = sra ∧ x / 256 % 256 = srb ∧ x / 65536 % 4 = bsa ∧ x / 262144 % 4 = bsb ∧ x / 1048576 % 4 = fa ∧ x / 4194304 % 4 = fb :=
    ⟨_, rfl, by omega⟩
  refine row.carried ((Form.mem_w3only _).2 (by cases b <;> rfl)) (fun _ => land_none (by cases b <;> rfl)) ((hb _).trans (congrArg (some ∘ c) ?_))
  clear hr
  cases b <;> simp [Src.faults] at h <;>
    simp [echo_w3 hw3, DotOp.raw, Raw.putSrc, Raw.dotOp, Raw.src, hx, Nat.mod_eq_of_lt hxs.1, hxs] <;> grind

theorem WupdOp.carried {o : WupdOp} (h : o.faults = []) : Carried 0x3C o.raw (.wupd o) := by
  have row : Row 0x3C w3only [] false 0 .none := by decide
  have ⟨_, _, _, hw3, _, _⟩ := row
  obtain ⟨⟨f, bnd, pn, pg⟩, tr, la, d, a, g, negv, zden⟩ := o
  simp [WupdOp.faults] at h
  obtain rfl : f = .w3 := by grind
  refine row.carried ((Form.mem_w3only _).2 rfl) (fun _ => land_none rfl) (congrArg (some ∘ Instr.wupd) ?_)
  simp [echo_w3 hw3, WupdOp.raw, Raw.wupdOp]
  grind

theorem RandOp.carried {o : RandOp} (h : o.faults = []) : Carried 0x3D o.raw (.rand o) := by
  have row : Row 0x3D two [⟨17, 1, .sub 0⟩, ⟨10, 7, .d⟩] false 1 .none := by decide
  have ⟨_, _, hw1, hw3, _, _⟩ := row
  obtain ⟨⟨f, bnd, pn, pg⟩, tr, r, d⟩ := o
  have hf : f ∈ two := (Form.mem_two f).2 (by simp [RandOp.faults] at h; grind)
  refine row.carried hf (fun _ => land_mask 1 (by decide) (bit_lt r)) (congrArg (some ∘ Instr.rand) ?_)
  cases r <;> cases f <;> simp [RandOp.faults] at h <;> simp [echo_w1, echo_w3 hw3, hw1, RandOp.raw, Raw.randOp, bit] <;> grind

end Sys2Proof
end

section
/-! What each kind of uniform instruction reads back from its own words (R58 to R69). -/

namespace Sys2Proof

/-! ### Uniform instructions -/

theorem echo_eq (op : Nat) (r : Raw) :
    echo op r = (slots op r.form).foldl r.readBack { form := r.form, bnd := r.bnd, pg := if r.form.isW3 then 0 else 7 } := rfl

theorem subSAlu_defined {z' b64 ar' z ar : Bool} : (z' = false ∨ z = true) → (ar' = false ∨ ar = true) →
    Nat.land ((bit z' + 2 * bit b64 + 4 * bit ar') % 64) (63 - (bit z + 2 + 4 * bit ar)) = 0 := by
  revert z' b64 ar' z ar; decide

theorem subSAlu_bits (z b64 ar : Bool) : bit z + 2 * bit b64 + 4 * bit ar < 64 ∧ (bit z + 2 * bit b64 + 4 * bit ar) % 2 = bit z ∧
    (bit z + 2 * bit b64 + 4 * bit ar) / 2 % 2 = bit b64 ∧ (bit z + 2 * bit b64 + 4 * bit ar) / 4 % 2 = bit ar := by
  revert z b64 ar; decide

theorem SAlu.carried {o : SAlu} {op : Nat} {z ar sat : Bool} {c : SAlu → Instr}
    (row : Row op all4 slotsBU3 true (bit z + 2 + 4 * bit ar) .b32) (hb : ∀ r, build op r = some (c r.salu)) (h : o.faults z ar sat = []) :
    Carried op o.raw (c o) := by
  obtain ⟨h54, haddr⟩ := row.literal (by decide)
  have ⟨_, _, hw1, hw3, _, _⟩ := row
  obtain ⟨⟨f, bnd, pn, pg⟩, cv, z', b64, ar', sat', tr, d, a, b⟩ := o
  refine row.carried (Form.mem_all4 _) (fun _ => ?_) ((hb _).trans (congrArg (some ∘ c) ?_))
  · have hz : (z' = false ∨ z = true) ∧ (ar' = false ∨ ar = true) := by simp [SAlu.faults] at h; grind
    cases b <;> exact subSAlu_defined hz.1 hz.2
  · have hs := subSAlu_bits z' b64 ar'
    cases b <;> cases f <;> simp [SAlu.faults, Src.faultsU] at h <;>
      simp [echo_w1, echo_w1l, echo_w3 hw3, echo_w3l hw3, h54, haddr, hw1, slotsBU3, SAlu.raw, Raw.putSrcU, Raw.salu, Raw.srcU, literalSlot,
        List.flatMap_cons, Nat.mod_eq_of_lt hs.1, hs.2] <;>
      grind

theorem signExtend_mod {x : BitVec 64} (h : (x.setWidth 32).signExtend 64 = x) :
    (BitVec.ofNat 32 (x.toNat % 4294967296)).signExtend 64 = x := by
  have : BitVec.ofNat 32 (x.toNat % 4294967296) = x.setWidth 32 := BitVec.eq_of_toNat_eq (by simp)
  rw [this, h]

/-- A 64-bit value that a signed field of ten bits holds is read back through 32 bits. -/
theorem sextNat_ten {x : BitVec 64} (h : (x.setWidth 10).signExtend 64 = x) :
    (BitVec.ofNat 32 (sextNat 10 (x.toNat % 1024))).signExtend 64 = x := by
  have h32 : fits 10 (x.setWidth 32) = true := by
    have : ((x.setWidth 32).setWidth 10).signExtend 32 = x.setWidth 32 := by
      rw [← h]
      ext k
      simp [BitVec.getElem_signExtend]
      grind
    simpa [fits] using this
  have hs : sextNat 10 ((x.setWidth 32).toNat % 2 ^ 10) = (x.setWidth 32).toNat := sextNat_fits (by decide) h32
  have hx : (x.setWidth 32).toNat % 2 ^ 10 = x.toNat % 1024 := by simp
  rw [hx] at hs
  rw [hs, BitVec.ofNat_toNat, BitVec.setWidth_eq]
  rw [← h]
  ext k
  simp [BitVec.getElem_signExtend]
  grind

theorem slotsW3_smov : slotsW3 0x48 = [⟨26, 2, .sub 0⟩, ⟨28, 1, .cv⟩, ⟨29, 3, .sub 3⟩, ⟨18, 8, .a⟩, ⟨10, 8, .d⟩, ⟨63, 1, .u⟩, ⟨62, 1, .sat⟩,
    ⟨59, 3, .rm⟩, ⟨56, 3, .tr⟩, ⟨52, 4, .la⟩, ⟨51, 1, .pn⟩, ⟨48, 3, .pg⟩, ⟨40, 8, .c⟩, ⟨32, 8, .b⟩, ⟨64, 32, .x 0⟩] := by decide

theorem echo_smov_w3 {r : Raw} (hf : r.form = .w3) :
    echo 0x48 r =
      { form := .w3, bnd := r.bnd, sub := r.sub % 4 + r.sub / 8 % 8 * 8, d := r.d % 256, a := r.a % 256, b := r.b % 256, c := r.c % 256
        u := r.u % 2, sat := r.sat % 2, rm := r.rm % 8, tr := r.tr % 8, la := r.la % 16, pn := r.pn % 2, pg := r.pg % 8, cv := r.cv % 2
        x := r.x % 2 ^ 32 } := by
  rw [echo, hf, slots, slotsW3_smov]
  simp [Raw.set, Raw.get]

theorem echo_smov_w3l {r : Raw} (hf : r.form = .w3l) :
    echo 0x48 r =
      { form := .w3l, bnd := r.bnd, sub := r.sub % 4 + r.sub / 8 % 8 * 8, d := r.d % 256, a := r.a % 256, c := r.c % 256
        sat := r.sat % 2, rm := r.rm % 8, tr := r.tr % 8, la := r.la % 16, pn := r.pn % 2, pg := r.pg % 8, w := r.w % 2, cv := r.cv % 2
        x := r.x % 2 ^ 32, lit := r.lit % 2 ^ 64 } := by
  rw [echo, hf, slots_w3l (by decide), slotsW3_smov]
  simp [Raw.set, Raw.get, literalSlot, List.flatMap_cons]

theorem SmovOp.carried {o : SmovOp} (h : o.faults = []) : Carried 0x48 o.raw (.smov o) := by
  have hw1 : slotsW1 0x48 = slotsBUI := by decide
  obtain ⟨⟨f, bnd, pn, pg⟩, cv, tr, wide, d, a, x⟩ := o
  refine ⟨by decide, (show formOk 0x48 f = true by cases f <;> decide), ?_, congrArg (some ∘ Instr.smov) ?_⟩
  · cases f <;> cases wide <;> simp [subUndefined, echo_smov_w3, echo_smov_w3l, SmovOp.raw, bit, subMask]
  · cases f <;> cases wide <;> simp [SmovOp.faults] at h <;>
      simp [echo_w1, echo_w1l, echo_smov_w3, echo_smov_w3l, hw1, slotsBUI, SmovOp.raw, Raw.smovOp, literalSlot, List.flatMap_cons, bit] <;>
      grind [setWidth_low, signExtend_mod, sextNat_ten]

theorem ScmpOp.carried {o : ScmpOp} (h : o.faults = []) : Carried 0x49 o.raw (.scmp o) := by
  have row : Row 0x49 all4 [⟨31, 1, .cv⟩, ⟨23, 6, .b⟩, ⟨17, 6, .a⟩, ⟨13, 4, .sub 0⟩, ⟨10, 3, .d⟩] true 15 .b32 := by decide
  obtain ⟨h54, haddr⟩ := row.literal (by decide)
  have ⟨_, _, hw1, hw3, _, _⟩ := row
  obtain ⟨⟨f, bnd, pn, pg⟩, cv, cond, d, a, b⟩ := o
  have hc : cond < 16 := by simp [ScmpOp.faults] at h; grind
  refine row.carried (Form.mem_all4 _) (fun _ => land_mask 4 (by decide) (by cases b <;> exact hc)) (congrArg (some ∘ Instr.scmp) ?_)
  cases b <;> cases f <;> simp [ScmpOp.faults, Src.faultsU] at h <;>
    simp [echo_w1, echo_w1l, echo_w3 hw3, echo_w3l hw3, haddr, hw1, ScmpOp.raw, Raw.putSrcU, Raw.scmpOp, Raw.srcU, literalSlot,
      List.flatMap_cons] <;>
    grind

theorem SselOp.carried {o : SselOp} (h : o.faults = []) : Carried 0x4A o.raw (.ssel o) := by
  have row : Row 0x4A all4 [⟨31, 1, .cv⟩, ⟨28, 3, .c⟩, ⟨22, 6, .b⟩, ⟨16, 6, .a⟩, ⟨10, 6, .d⟩] true 0 .b32 := by decide
  obtain ⟨h54, haddr⟩ := row.literal (by decide)
  have ⟨_, _, hw1, hw3, _, _⟩ := row
  obtain ⟨⟨f, bnd, pn, pg⟩, cv, tr, d, a, b, k⟩ := o
  refine row.carried (Form.mem_all4 _) (fun _ => land_none (by cases b <;> rfl)) (congrArg (some ∘ Instr.ssel) ?_)
  cases b <;> cases f <;> simp [SselOp.faults, Src.faultsU] at h <;>
    simp [echo_w1, echo_w1l, echo_w3 hw3, echo_w3l hw3, haddr, hw1, SselOp.raw, Raw.putSrcU, Raw.sselOp, Raw.srcU, literalSlot,
      List.flatMap_cons] <;>
    grind

theorem VtosOp.carried {o : VtosOp} (h : o.faults = []) : Carried 0x4D o.raw (.vtos o) := by
  have row : Row 0x4D two [⟨31, 1, .cv⟩, ⟨29, 2, .sub 3⟩, ⟨26, 3, .c⟩, ⟨23, 3, .sub 0⟩, ⟨16, 7, .a⟩, ⟨10, 6, .d⟩] true 31 .none := by decide
  have hb : ∀ r, r.sub / 8 % 4 < 3 → build 0x4D r = some (.vtos r.vtosOp) := fun r hr => if_pos hr
  have ⟨_, _, hw1, hw3, _, _⟩ := row
  obtain ⟨⟨f, bnd, pn, pg⟩, cv, rm, tr, ty, mode, kf, d, a⟩ := o
  have hf : f ∈ two := (Form.mem_two f).2 (by simp [VtosOp.faults] at h; grind)
  have hm : mode < 8 ∧ ty < 3 := by simp [VtosOp.faults] at h; grind
  have hs : (echo 0x4D (VtosOp.raw ⟨⟨f, bnd, pn, pg⟩, cv, rm, tr, ty, mode, kf, d, a⟩)).sub = mode + 8 * ty := by
    cases f <;> simp at hf <;> simp [echo_w1, echo_w3 hw3, hw1, VtosOp.raw] <;> omega
  refine row.carried hf (fun _ => land_mask 5 (by decide) (show mode + 8 * ty < 32 by omega))
    ((hb _ (by rw [hs]; omega)).trans (congrArg (some ∘ Instr.vtos) ?_))
  cases f <;> simp [VtosOp.faults] at h <;> simp [Raw.vtosOp, hs] <;> simp [echo_w1, echo_w3 hw3, hw1, VtosOp.raw] <;> grind

theorem VoteOp.carried {o : VoteOp} (h : o.faults = []) : Carried 0x4E o.raw (.vote o) := by
  have row : Row 0x4E two [⟨31, 1, .cv⟩, ⟨29, 2, .sub 0⟩, ⟨13, 3, .a⟩, ⟨10, 3, .d⟩] true 3 .none := by decide
  have hb : ∀ r, r.sub % 4 < 3 → build 0x4E r = some (.vote r.voteOp) := fun r hr => if_pos hr
  have ⟨_, _, hw1, hw3, _, _⟩ := row
  obtain ⟨⟨f, bnd, pn, pg⟩, cv, mode, d, p⟩ := o
  have hf : f ∈ two := (Form.mem_two f).2 (by simp [VoteOp.faults] at h; grind)
  have hm : mode < 3 := by simp [VoteOp.faults] at h; grind
  have hs : (echo 0x4E (VoteOp.raw ⟨⟨f, bnd, pn, pg⟩, cv, mode, d, p⟩)).sub = mode := by
    cases f <;> simp at hf <;> simp [echo_w1, echo_w3 hw3, hw1, VoteOp.raw] <;> omega
  refine row.carried hf (fun _ => land_mask 2 (by decide) (show mode < 4 by omega))
    ((hb _ (by rw [hs]; omega)).trans (congrArg (some ∘ Instr.vote) ?_))
  cases f <;> simp [VoteOp.faults] at h <;> simp [Raw.voteOp, hs] <;> simp [echo_w1, echo_w3 hw3, hw1, VoteOp.raw] <;> grind

theorem BallotOp.carried {o : BallotOp} (h : o.faults = []) : Carried 0x4F o.raw (.ballot o) := by
  have row : Row 0x4F two [⟨31, 1, .cv⟩, ⟨16, 3, .a⟩, ⟨10, 6, .d⟩] true 0 .none := by decide
  have ⟨_, _, hw1, hw3, _, _⟩ := row
  obtain ⟨⟨f, bnd, pn, pg⟩, cv, tr, d, p⟩ := o
  have hf : f ∈ two := (Form.mem_two f).2 (by simp [BallotOp.faults] at h; grind)
  refine row.carried hf (fun _ => land_none rfl) (congrArg (some ∘ Instr.ballot) ?_)
  cases f <;> simp [BallotOp.faults] at h <;> simp [echo_w1, echo_w3 hw3, hw1, BallotOp.raw, Raw.ballotOp] <;> grind

theorem LopOp.carried {o : LopOp} {op : Nat} {uni : Bool} {c : LopOp → Instr}
    (row : Row op two ((if uni then [⟨31, 1, .cv⟩] else []) ++ [⟨19, 4, .sub 0⟩, ⟨16, 3, .b⟩, ⟨13, 3, .a⟩, ⟨10, 3, .d⟩]) uni 15 .none)
    (hb : ∀ r, build op r = some (c (r.lopOp uni))) (h : o.faults uni = []) : Carried op o.raw (c o) := by
  have ⟨_, _, hw1, hw3, _, _⟩ := row
  obtain ⟨⟨f, bnd, pn, pg⟩, cv, fn, d, a, b⟩ := o
  have hf : f ∈ two := (Form.mem_two f).2 (by simp [LopOp.faults] at h; grind)
  have hfn : fn < 16 := by simp [LopOp.faults] at h; grind
  refine row.carried hf (fun _ => land_mask 4 (by decide) hfn) ((hb _).trans (congrArg (some ∘ c) ?_))
  cases uni <;> cases f <;> simp [LopOp.faults] at h <;> simp [echo_w1, echo_w3 hw3, hw1, LopOp.raw, Raw.lopOp] <;> grind

end Sys2Proof
end

section
/-! What each kind of control and memory instruction reads back from its own words (R58 to R69). -/

namespace Sys2Proof

/-! ### Control instructions -/

theorem sextNat_seventeen {x : BitVec 32} (h : fits 17 x = true) : sextNat 17 (x.toNat % 131072) = x.toNat := sextNat_fits (by decide) h

@[simp] theorem Hdr.faultsBB_nil (h : Hdr) (forms : List Form) : h.faultsBB forms = [] ↔ h.form ∈ forms ∧ h.pg < 8 := by
  simp [Hdr.faultsBB]

/-- The W3 words of BRA, SBRA, JMP and CALLR, whose lowest SUB bit is K, CV or U (R156, R157). -/
def branchW3 (fd : Fd) (withU : Bool) : List Slot :=
  [⟨26, 1, fd⟩, ⟨27, 5, .sub 1⟩, ⟨18, 8, .a⟩, ⟨10, 8, .d⟩] ++ (if withU then [⟨63, 1, .u⟩] else []) ++
    [⟨62, 1, .sat⟩, ⟨59, 3, .rm⟩, ⟨56, 3, .tr⟩, ⟨52, 4, .la⟩, ⟨51, 1, .pn⟩, ⟨48, 3, .pg⟩, ⟨40, 8, .c⟩, ⟨32, 8, .b⟩, ⟨64, 32, .x 0⟩]

theorem echo_branch {op : Nat} {fd : Fd} {withU : Bool} {r : Raw} (hl : slotsW3 op = branchW3 fd withU) (hf : r.form = .w3) :
    echo op r = (branchW3 fd withU).foldl r.readBack { form := .w3, bnd := r.bnd } := by
  rw [echo_eq, hf, slots, hl]; rfl

theorem BraOp.carried_bra {o : BraOp} (h : o.faults false false = []) : Carried 0x52 o.raw (.bra o) := by
  have hw1 : slotsW1 0x52 = slotsBB := by decide
  have hw3 : slotsW3 0x52 = branchW3 .k true := by decide
  obtain ⟨⟨f, bnd, pn, pg⟩, cv, k, off⟩ := o
  have hf : f = .w1 ∨ f = .w3 := by simp [BraOp.faults] at h; grind
  refine ⟨by decide, (show formOk 0x52 f = true by rcases hf with rfl | rfl <;> decide), ?_, congrArg (some ∘ Instr.bra) ?_⟩
  · rcases hf with rfl | rfl <;> simp [subUndefined, echo_branch hw3, branchW3, BraOp.raw]
  · rcases hf with rfl | rfl <;> simp [BraOp.faults] at h <;>
      simp [echo_w1, echo_branch hw3, branchW3, hw1, slotsBB, BraOp.raw, Raw.braOp] <;> grind [sextNat_seventeen]

theorem BraOp.carried_sbra {o : BraOp} (h : o.faults true true = []) : Carried 0x53 o.raw (.sbra o) := by
  have hw1 : slotsW1 0x53 = slotsBB := by decide
  have hw3 : slotsW3 0x53 = branchW3 .cv true := by decide
  obtain ⟨⟨f, bnd, pn, pg⟩, cv, k, off⟩ := o
  have hf : f = .w1 ∨ f = .w3 := by simp [BraOp.faults] at h; grind
  refine ⟨by decide, (show formOk 0x53 f = true by rcases hf with rfl | rfl <;> decide), ?_, congrArg (some ∘ Instr.sbra) ?_⟩
  · rcases hf with rfl | rfl <;> simp [subUndefined, echo_branch hw3, branchW3, BraOp.raw]
  · rcases hf with rfl | rfl <;> simp [BraOp.faults] at h <;>
      simp [echo_w1, echo_branch hw3, branchW3, hw1, slotsBB, BraOp.raw, Raw.braOp] <;> grind [sextNat_seventeen]

theorem BraOp.carried_call {o : BraOp} (h : o.faults true false = []) : Carried 0x55 o.raw (.call o) := by
  have row : Row 0x55 two slotsBB false 0 .none := by decide
  have ⟨_, _, hw1, hw3, _, _⟩ := row
  obtain ⟨⟨f, bnd, pn, pg⟩, cv, k, off⟩ := o
  have hf : f = .w1 ∨ f = .w3 := by simp [BraOp.faults] at h; grind
  refine row.carried ((Form.mem_two f).2 hf) (fun _ => land_none rfl) (congrArg (some ∘ Instr.call) ?_)
  rcases hf with rfl | rfl <;> simp [BraOp.faults] at h <;>
    simp [echo_w1, echo_w3 hw3, hw1, slotsBB, BraOp.raw, Raw.braOp] <;> grind [sextNat_seventeen]

theorem JmpOp.carried {o : JmpOp} {op : Nat} {lit : Bool} {c : JmpOp → Instr} (hop : op < 0x7E) (hforms : ∀ f ∈ two, formOk op f = true)
    (hlit : lit = true → op = 0x54) (hw1 : slotsW1 op = [⟨24, 1, .u⟩, ⟨17, 7, .a⟩]) (hw3 : slotsW3 op = branchW3 .u false)
    (hb : ∀ r, build op r = some (c r.jmpOp)) (h : o.faults lit = []) : Carried op o.raw (c o) := by
  obtain ⟨⟨f, bnd, pn, pg⟩, target⟩ := o
  have hf : f = .w1 ∨ f = .w3 ∨ f = .w1l ∧ lit = true ∧ ∃ x, target = .wide x := by cases target <;> simp [JmpOp.faults] at h <;> grind
  rcases hf with rfl | rfl | ⟨rfl, rfl, x, rfl⟩
  · refine ⟨hop, ?_, ?_, (hb _).trans (congrArg (some ∘ c) ?_)⟩
    · cases target <;> exact hforms .w1 (by decide)
    · cases target <;> simp [subUndefined, JmpOp.raw]
    · cases target <;> simp [JmpOp.faults] at h <;> simp [echo_w1, hw1, JmpOp.raw, Raw.jmpOp] <;> grind
  · refine ⟨hop, ?_, ?_, (hb _).trans (congrArg (some ∘ c) ?_)⟩
    · cases target <;> exact hforms .w3 (by decide)
    · cases target <;> simp [subUndefined, echo_branch hw3, branchW3, JmpOp.raw]
    · cases target <;> simp [JmpOp.faults] at h <;> simp [echo_branch hw3, branchW3, JmpOp.raw, Raw.jmpOp] <;> grind
  · obtain rfl := hlit rfl
    refine ⟨hop, rfl, rfl, (hb _).trans (congrArg (some ∘ c) ?_)⟩
    simp [JmpOp.faults] at h
    simp [echo_eq, slots, JmpOp.raw, Raw.jmpOp]
    grind

/-- An instruction without operands; `hw` says that its one-word layout carries its SUB and CV. -/
theorem NoOp.carried {o : NoOp} {op mask : Nat} {w1 : List Slot} {uni : Bool} {c : NoOp → Instr} (sub : Nat) (hsub : sub < 64)
    (row : Row op two w1 uni mask .none) (hs : Nat.land (sub % 64) (63 - mask) = 0)
    (hw : w1.foldl (o.raw sub).readBack { form := .w1, bnd := o.h.bnd, pg := 7 } =
      { form := .w1, bnd := o.h.bnd, pg := 7, sub := sub, cv := if uni then bit o.cv else 0 })
    (hb : ∀ r, r.sub = sub → build op r = some (c r.noOp)) (h : o.faults uni = []) : Carried op (o.raw sub) (c o) := by
  have ⟨_, _, hw1, hw3, _, _⟩ := row
  obtain ⟨⟨f, bnd, pn, pg⟩, cv⟩ := o
  have hf : f = .w1 ∨ f = .w3 := by simp [NoOp.faults] at h; grind
  have hcv : (if uni then bit cv else 0) = bit cv := by cases uni <;> simp [NoOp.faults] at h ⊢; rw [h.2]; rfl
  have he : echo op (NoOp.raw ⟨⟨f, bnd, pn, pg⟩, cv⟩ sub) = NoOp.raw ⟨⟨f, bnd, pn, pg⟩, cv⟩ sub := by
    rcases hf with rfl | rfl <;> simp [NoOp.faults] at h
    · rw [echo_w1 rfl, hw1]
      refine hw.trans ?_
      simp [hcv, h]
      simp [NoOp.raw, bit]
    · rw [echo_w3 hw3 rfl]
      simp [NoOp.raw, hcv]
      grind
  refine row.carried ((Form.mem_two f).2 hf) (fun _ => hs) ((hb _ (by rw [he]; rfl)).trans (congrArg (some ∘ c) ?_))
  rw [he]
  simp [NoOp.raw, Raw.noOp]

theorem GuardOp.carried {o : GuardOp} (h : o.faults = []) : Carried 0x5A o.raw (.guardOpen o) := by
  have row : Row 0x5A two [⟨15, 17, .xs⟩, ⟨14, 1, .sub 2⟩, ⟨12, 2, .sub 0⟩] false 7 .none := by decide
  have hb : ∀ r, r.sub % 4 = 0 → build 0x5A r = some (.guardOpen r.guardOp) := fun r hr => by simp [build, buildHigh, hr]
  have ⟨_, _, hw1, hw3, _, _⟩ := row
  obtain ⟨⟨f, bnd, pn, pg⟩, p, off⟩ := o
  have hf : f = .w1 ∨ f = .w3 := by simp [GuardOp.faults] at h; grind
  have hs : (echo 0x5A (GuardOp.raw ⟨⟨f, bnd, pn, pg⟩, p, off⟩)).sub = 4 * bit p := by
    rcases hf with rfl | rfl <;> cases p <;> simp [echo_w1, echo_w3 hw3, hw1, GuardOp.raw, bit]
  refine row.carried ((Form.mem_two f).2 hf) (fun _ => land_mask 3 (by decide) (show 4 * bit p < 8 by have := bit_lt p; omega))
    ((hb _ (by rw [hs]; omega)).trans (congrArg (some ∘ Instr.guardOpen) ?_))
  rcases hf with rfl | rfl <;> simp [GuardOp.faults] at h <;> simp [Raw.guardOp, hs] <;>
    simp [echo_w1, echo_w3 hw3, hw1, GuardOp.raw] <;> grind [sextNat_seventeen]

theorem TrapOp.carried {o : TrapOp} (h : o.faults = []) : Carried 0x5B o.raw (.trap o) := by
  have row : Row 0x5B two [⟨10, 16, .x 0⟩] false 0 .none := by decide
  have ⟨_, _, hw1, hw3, _, _⟩ := row
  obtain ⟨⟨f, bnd, pn, pg⟩, code⟩ := o
  have hf : f = .w1 ∨ f = .w3 := by simp [TrapOp.faults] at h; grind
  refine row.carried ((Form.mem_two f).2 hf) (fun _ => land_none rfl) (congrArg (some ∘ Instr.trap) ?_)
  rcases hf with rfl | rfl <;> simp [TrapOp.faults] at h <;> simp [echo_w1, echo_w3 hw3, hw1, TrapOp.raw, Raw.trapOp] <;> grind

theorem ChkOp.carried {o : ChkOp} (h : o.faults = []) : Carried 0x5D o.raw (.chkerr o) := by
  have row : Row 0x5D two [⟨31, 1, .cv⟩, ⟨18, 1, .sub 1⟩, ⟨17, 1, .sub 0⟩, ⟨14, 3, .d⟩, ⟨10, 4, .x 0⟩] true 3 .none := by decide
  have ⟨_, _, hw1, hw3, _, _⟩ := row
  obtain ⟨⟨f, bnd, pn, pg⟩, cv, clr, t, k, mask⟩ := o
  have hf : f = .w1 ∨ f = .w3 := by simp [ChkOp.faults] at h; grind
  refine row.carried ((Form.mem_two f).2 hf) (fun _ => land_mask 2 (by decide) (show bit t + 2 * bit clr < 4 by cases t <;> cases clr <;> decide))
    (congrArg (some ∘ Instr.chkerr) ?_)
  rcases hf with rfl | rfl <;> simp [ChkOp.faults] at h <;> cases t <;> cases clr <;>
    simp [echo_w1, echo_w3 hw3, hw1, ChkOp.raw, Raw.chkOp, bit] <;> grind

theorem TagOp.carried {o : TagOp} {set : Bool} {c : TagOp → Instr} (sub : Nat) (hsub : sub < 4)
    (hb : ∀ r, r.sub % 4 = sub → build 0x5F r = some (c (r.tagOp set))) (h : o.faults set = []) : Carried 0x5F (o.raw sub) (c o) := by
  have row : Row 0x5F two [⟨30, 2, .sub 0⟩, ⟨24, 6, .b⟩, ⟨17, 7, .a⟩, ⟨10, 7, .d⟩] false 3 .none := by decide
  have ⟨_, _, hw1, hw3, _, _⟩ := row
  obtain ⟨⟨f, bnd, pn, pg⟩, d, a, b⟩ := o
  have hf : f = .w1 ∨ f = .w3 := by simp [TagOp.faults] at h; grind
  have hs : (echo 0x5F (TagOp.raw ⟨⟨f, bnd, pn, pg⟩, d, a, b⟩ sub)).sub % 4 = sub := by
    rcases hf with rfl | rfl <;> cases b <;> simp [echo_w1, echo_w3 hw3, hw1, TagOp.raw, Raw.putSrc] <;> omega
  refine row.carried ((Form.mem_two _).2 (by cases b <;> exact hf)) (fun _ => land_mask 2 (by decide) (by cases b <;> exact hsub))
    ((hb _ hs).trans (congrArg (some ∘ c) ?_))
  rcases hf with rfl | rfl <;> cases b <;> cases set <;> simp [TagOp.faults] at h <;>
    simp [echo_w1, echo_w3 hw3, hw1, TagOp.raw, Raw.putSrc, Raw.tagOp] <;> grind

/-! ### Memory instructions -/

/-- The access fields of X (R148, R179). -/
theorem accessX {size sc ord scope : Nat} (sync sx rmt : Bool) (disp : BitVec 16) (h1 : size < 8) (h2 : sc < 8) (h3 : ord < 8) (h4 : scope < 8) :
    ∃ x, size + 8 * sc + 64 * bit sync + 128 * ord + 1024 * scope + 8192 * bit sx + 16384 * bit rmt + 32768 * disp.toNat = x ∧
      x < 2147483648 ∧ x % 8 = size ∧ x / 8 % 8 = sc ∧ x / 64 % 2 = bit sync ∧ x / 128 % 8 = ord ∧ x / 1024 % 8 = scope ∧
      x / 8192 % 2 = bit sx ∧ x / 16384 % 2 = bit rmt ∧ BitVec.ofNat 16 (x / 32768) = disp := by
  have b1 := bit_lt sync
  have b2 := bit_lt sx
  have b3 := bit_lt rmt
  have hd := disp.isLt
  refine ⟨_, rfl, ?_⟩
  have : (size + 8 * sc + 64 * bit sync + 128 * ord + 1024 * scope + 8192 * bit sx + 16384 * bit rmt + 32768 * disp.toNat) / 32768 =
      disp.toNat := by omega
  rw [this, BitVec.ofNat_toNat, BitVec.setWidth_eq]
  exact ⟨by omega, by omega, by omega, by omega, by omega, by omega, by omega, by omega, rfl⟩

theorem memXFaults_bounds {load pdOk pd sync rmt sx : Bool} {size sc ord scope : Nat} {l : List Nat}
    (h : memXFaults load pdOk pd sync rmt sx size sc ord scope l = []) :
    size < 8 ∧ sc < 8 ∧ ord < 8 ∧ scope < 8 ∧ (pd = true → pdOk = true) := by
  simp [memXFaults] at h
  grind

theorem MemOp.carried {o : MemOp} {op : Nat} {load : Bool} {c : MemOp → Instr} (row : Row op two slotsBM false (bit load) .none)
    (hb : ∀ r, build op r = some (c (r.memOp load))) (h : o.faults load = []) : Carried op (o.raw (bit o.h.form.isW3)) (c o) := by
  have ⟨_, _, hw1, hw3, _, _⟩ := row
  obtain ⟨⟨f, bnd, pn, pg⟩, cv, la, pd, d, a, b, disp, rmt, sx, scope, ord, sync, sc, size⟩ := o
  have hf : f = .w1 ∨ f = .w3 := by simp [MemOp.faults] at h; grind
  rcases hf with rfl | rfl
  · simp [MemOp.faults, MemOp.plain] at h
    refine row.carried ((Form.mem_two _).2 (Or.inl rfl)) (fun hn => nomatch hn) ((hb _).trans (congrArg (some ∘ c) ?_))
    simp [echo_w1, hw1, slotsBM, MemOp.raw, Raw.memOp]
    grind
  · simp [MemOp.faults] at h
    obtain ⟨hsize, hsc, hord, hscope, hpd⟩ : size < 8 ∧ sc < 8 ∧ ord < 8 ∧ scope < 8 ∧ (pd = true → load = true) := by
      refine memXFaults_bounds (sync := sync) (rmt := rmt) (sx := sx) (l := if load then [1, 3] else []) (load := load) ?_
      grind
    obtain ⟨x, hx, hlt, hxs⟩ := accessX sync sx rmt disp hsize hsc hord hscope
    have hpd : pd = false ∨ load = true := by grind
    have hlt' : x < 4294967296 := by omega
    refine row.carried ((Form.mem_two _).2 (Or.inr rfl)) (fun _ => subZ_defined hpd) ((hb _).trans (congrArg (some ∘ c) ?_))
    simp [echo_w3 hw3, MemOp.raw, MemOp.x, Raw.memOp, hx, Nat.mod_eq_of_lt hlt', hxs]
    grind [bit]

theorem MemOp.carriedU {o : MemOp} {op : Nat} {load : Bool} {c : MemOp → Instr}
    (row : Row op two [⟨31, 1, .cv⟩, ⟨20, 6, .a⟩, ⟨16, 4, .bb⟩, ⟨10, 6, .d⟩] true 0 .none)
    (hb : ∀ r, build op r = some (c (r.memOp false))) (h : o.faultsU load = []) : Carried op (o.raw 0) (c o) := by
  have ⟨_, _, hw1, hw3, _, _⟩ := row
  obtain ⟨⟨f, bnd, pn, pg⟩, cv, la, pd, d, a, b, disp, rmt, sx, scope, ord, sync, sc, size⟩ := o
  have hf : f = .w1 ∨ f = .w3 := by simp [MemOp.faultsU] at h; grind
  obtain rfl : pd = false := by simp [MemOp.faultsU] at h; grind
  rcases hf with rfl | rfl
  · simp [MemOp.faultsU, MemOp.plain] at h
    refine row.carried ((Form.mem_two _).2 (Or.inl rfl)) (fun hn => nomatch hn) ((hb _).trans (congrArg (some ∘ c) ?_))
    simp [echo_w1, hw1, MemOp.raw, Raw.memOp]
    grind
  · simp [MemOp.faultsU] at h
    obtain ⟨hsize, hsc, hord, hscope, _⟩ : size < 8 ∧ sc < 8 ∧ ord < 8 ∧ scope < 8 ∧ (false = true → false = true) := by
      refine memXFaults_bounds (sync := sync) (rmt := rmt) (sx := sx) (l := if load then [1] else []) (load := load) ?_
      grind
    obtain ⟨x, hx, hlt, hxs⟩ := accessX sync sx rmt disp hsize hsc hord hscope
    refine row.carried ((Form.mem_two _).2 (Or.inr rfl)) (fun _ => land_none rfl) ((hb _).trans (congrArg (some ∘ c) ?_))
    simp [echo_w3 hw3, MemOp.raw, MemOp.x, Raw.memOp, hx, Nat.mod_eq_of_lt hlt, hxs]
    grind

theorem AtomOp.carried {o : AtomOp} {op mask : Nat} {red cas : Bool} {c : AtomOp → Instr} (row : Row op w3only [] false mask .none)
    (hm : mask = if cas then 0 else 63) (hb : ∀ r, r.sub < 12 → build op r = some (c (r.atomOp red cas))) (h : o.faults red cas = []) :
    Carried op o.raw (c o) := by
  have ⟨_, _, _, hw3, _, _⟩ := row
  obtain ⟨⟨f, bnd, pn, pg⟩, sub, la, d, a, b, c', disp, rmt, scope, ord, sync, sc, size⟩ := o
  simp [AtomOp.faults] at h
  obtain rfl : f = .w3 := by grind
  have hr : size < 8 ∧ sc < 8 ∧ ord < 8 ∧ scope < 8 ∧ sub < 12 ∧ (cas = true → sub = 0) ∧ (red = true → d = 0) := by cases cas <;> cases red <;> grind
  obtain ⟨hsize, hsc, hord, hscope, hsub, hcas, hred⟩ := hr
  obtain ⟨x, hx, hlt, hxs⟩ := accessX sync false rmt disp hsize hsc hord hscope
  simp [bit] at hx
  have hlt' : x < 4294967296 := by omega
  refine row.carried ((Form.mem_w3only _).2 rfl) (fun _ => ?_) ((hb _ ?_).trans (congrArg (some ∘ c) ?_))
  · subst hm
    cases cas
    · exact land_mask 6 (by decide) (Nat.lt_trans hsub (by decide))
    · exact land_none (hcas rfl)
  · simp [echo_w3 hw3, AtomOp.raw]; omega
  · simp [echo_w3 hw3, AtomOp.raw, Raw.atomOp, bit, hx, Nat.mod_eq_of_lt hlt', hxs]
    simp [bit] at hxs
    grind

end Sys2Proof
end

section
/-! What each kind of barrier, copy, matrix, launch and system instruction reads back from its own words (R58 to R69). -/

namespace Sys2Proof

theorem FenceOp.carried {o : FenceOp} (h : o.faults = []) : Carried 0x65 o.raw (.fence o) := by
  have row : Row 0x65 two [⟨13, 3, .sub 0⟩, ⟨11, 2, .sub 3⟩] false 31 .none := by decide
  have ⟨_, _, hw1, hw3, _, _⟩ := row
  obtain ⟨⟨f, bnd, pn, pg⟩, scope, ord⟩ := o
  have hf : f = .w1 ∨ f = .w3 := by simp [FenceOp.faults] at h; grind
  have hs : scope < 8 ∧ ord < 4 := by simp [FenceOp.faults] at h; grind
  refine row.carried ((Form.mem_two f).2 hf) (fun _ => land_mask 5 (by decide) (show scope + 8 * ord < 32 by omega)) (congrArg (some ∘ Instr.fence) ?_)
  rcases hf with rfl | rfl <;> simp [FenceOp.faults] at h <;> simp [echo_w1, echo_w3 hw3, hw1, FenceOp.raw, Raw.fenceOp] <;> grind

/-! ### Barriers and copies -/

/-- A displacement above 15 bits of X (R195). -/
theorem dispX {n : Nat} (disp : BitVec 16) (h : n < 32768) :
    ∃ x, n + 32768 * disp.toNat = x ∧ x < 2147483648 ∧ x % 32768 = n ∧ BitVec.ofNat 16 (x / 32768) = disp := by
  have hd := disp.isLt
  refine ⟨_, rfl, by omega, by omega, ?_⟩
  have : (n + 32768 * disp.toNat) / 32768 = disp.toNat := by omega
  rw [this, BitVec.ofNat_toNat, BitVec.setWidth_eq]

theorem BariOp.carried {o : BariOp} (h : o.faults = []) : Carried 0x66 o.raw (.bari o) := by
  have row : Row 0x66 two [⟨24, 4, .bb⟩, ⟨18, 6, .a⟩] true 0 .none := by decide
  have ⟨_, _, hw1, hw3, _, _⟩ := row
  obtain ⟨⟨f, bnd, pn, pg⟩, cv, a, b, disp⟩ := o
  have hf : f = .w1 ∨ f = .w3 := by simp [BariOp.faults] at h; grind
  obtain ⟨x, hx, hlt, hxs⟩ := dispX disp (show 0 < 32768 by decide)
  rw [Nat.zero_add] at hx
  refine row.carried ((Form.mem_two f).2 hf) (fun _ => land_none rfl) (congrArg (some ∘ Instr.bari) ?_)
  rcases hf with rfl | rfl <;> simp [BariOp.faults] at h <;>
    simp [echo_w1, echo_w3 hw3, hw1, BariOp.raw, Raw.bariOp, Raw.disp, hx, Nat.mod_eq_of_lt hlt, hxs] <;> grind [bit]

theorem BarvOp.carried {o : BarvOp} (h : o.faults = []) : Carried 0x67 o.raw (.barv o) := by
  have row : Row 0x67 two [⟨31, 1, .cv⟩, ⟨28, 3, .sub 0⟩, ⟨24, 4, .bb⟩, ⟨18, 6, .a⟩, ⟨10, 6, .d⟩] true 15 .none := by decide
  have ⟨_, _, hw1, hw3, _, _⟩ := row
  obtain ⟨⟨f, bnd, pn, pg⟩, cv, scope, tx, d, a, b, c, disp, icount⟩ := o
  have hf : f = .w1 ∨ f = .w3 := by simp [BarvOp.faults] at h; grind
  have hs : scope < 6 ∧ icount < 32768 := by rcases hf with rfl | rfl <;> simp [BarvOp.faults] at h <;> grind
  have ht := bit_lt tx
  obtain ⟨x, hx, hlt, hxs⟩ := dispX disp hs.2
  refine row.carried ((Form.mem_two f).2 hf) (fun _ => land_mask 4 (by decide) (show scope + 8 * bit tx < 16 by omega)) (congrArg (some ∘ Instr.barv) ?_)
  rcases hf with rfl | rfl <;> simp [BarvOp.faults] at h <;>
    simp [echo_w1, echo_w3 hw3, hw1, BarvOp.raw, Raw.barvOp, Raw.disp, hx, Nat.mod_eq_of_lt hlt, hxs] <;> grind [bit]

theorem BarwOp.carried {o : BarwOp} (h : o.faults = []) : Carried 0x68 o.raw (.barw o) := by
  have row : Row 0x68 two [⟨29, 3, .sub 0⟩, ⟨25, 4, .bb⟩, ⟨19, 6, .a⟩, ⟨13, 6, .c⟩, ⟨10, 3, .d⟩] true 7 .none := by decide
  have ⟨_, _, hw1, hw3, _, _⟩ := row
  obtain ⟨⟨f, bnd, pn, pg⟩, cv, scope, d, a, b, c, disp⟩ := o
  have hf : f = .w1 ∨ f = .w3 := by simp [BarwOp.faults] at h; grind
  have hs : scope < 6 := by simp [BarwOp.faults] at h; grind
  obtain ⟨x, hx, hlt, hxs⟩ := dispX disp (show 0 < 32768 by decide)
  rw [Nat.zero_add] at hx
  refine row.carried ((Form.mem_two f).2 hf) (fun _ => land_mask 3 (by decide) (show scope < 8 by omega)) (congrArg (some ∘ Instr.barw) ?_)
  rcases hf with rfl | rfl <;> simp [BarwOp.faults] at h <;>
    simp [echo_w1, echo_w3 hw3, hw1, BarwOp.raw, Raw.barwOp, Raw.disp, hx, Nat.mod_eq_of_lt hlt, hxs] <;> grind [bit]

theorem CpyOp.carried {o : CpyOp} {hasD hasA : Bool} {c : CpyOp → Instr} (mode : Nat) (hmode : mode < 4)
    (hb : ∀ r, r.sub % 4 = mode → build 0x69 r = some (c r.cpyOp)) (h : o.faults hasD hasA = []) : Carried 0x69 (o.raw mode) (c o) := by
  have row : Row 0x69 w3only [] true 3 .none := by decide
  have ⟨_, _, _, hw3, _, _⟩ := row
  obtain ⟨⟨f, bnd, pn, pg⟩, cv, d, a, b, c', scope, stream⟩ := o
  simp [CpyOp.faults] at h
  obtain rfl : f = .w3 := by grind
  refine row.carried ((Form.mem_w3only _).2 rfl) (fun _ => land_mask 2 (by decide) hmode) ((hb _ ?_).trans (congrArg (some ∘ c) ?_))
  · simp [echo_w3 hw3, CpyOp.raw]; omega
  · simp [echo_w3 hw3, CpyOp.raw, Raw.cpyOp]
    grind

theorem SealOp.carried {o : SealOp} {op p1 p3 : Nat} {dst : Bool} {w1 : Slot} {c : SealOp → Instr} (row : Row op two [⟨31, 1, .cv⟩, w1] true 0 .none)
    (hw : w1 = if dst then ⟨10, 6, .d⟩ else ⟨16, 6, .a⟩) (hb : ∀ r, build op r = some (c (r.sealOp dst))) (h : o.faults p1 p3 = []) :
    Carried op (o.raw dst) (c o) := by
  have ⟨_, _, hw1, hw3, _, _⟩ := row
  obtain ⟨⟨f, bnd, pn, pg⟩, cv, r⟩ := o
  have hf : f = .w1 ∨ f = .w3 := by simp [SealOp.faults] at h; grind
  refine row.carried ((Form.mem_two f).2 hf) (fun _ => land_none rfl) ((hb _).trans (congrArg (some ∘ c) ?_))
  rcases hf with rfl | rfl <;> cases dst <;> simp [SealOp.faults] at h <;>
    simp [echo_w1, echo_w3 hw3, hw1, hw, SealOp.raw, Raw.sealOp] <;> grind

theorem MailOp.carried {o : MailOp} (h : o.faults = []) : Carried 0x6E o.raw (.mail o) := by
  have row : Row 0x6E w3only [] true 7 .none := by decide
  have ⟨_, _, _, hw3, _, _⟩ := row
  obtain ⟨⟨f, bnd, pn, pg⟩, cv, scope, a, b⟩ := o
  simp [MailOp.faults] at h
  obtain rfl : f = .w3 := by grind
  refine row.carried ((Form.mem_w3only _).2 rfl) (fun _ => land_mask 3 (by decide) (show scope < 8 by grind)) (congrArg (some ∘ Instr.mail) ?_)
  simp [echo_w3 hw3, MailOp.raw, Raw.mailOp]
  grind

theorem EmitOp.carried {o : EmitOp} (h : o.faults = []) : Carried 0x6F o.raw (.emit o) := by
  have row : Row 0x6F w3only [] false 0 .none := by decide
  have ⟨_, _, _, hw3, _, _⟩ := row
  obtain ⟨⟨f, bnd, pn, pg⟩, a, b⟩ := o
  simp [EmitOp.faults] at h
  obtain rfl : f = .w3 := by grind
  refine row.carried ((Form.mem_w3only _).2 rfl) (fun _ => land_none rfl) (congrArg (some ∘ Instr.emit) ?_)
  simp [echo_w3 hw3, EmitOp.raw, Raw.emitOp]
  grind

/-! ### Matrix instructions -/

@[simp] theorem groupFault_nil (g p : Nat) : groupFault g p = [] ↔ (8 ≤ g ∧ g ≤ 56) ∧ g % 8 = 0 := by simp [groupFault]

/-- The bounds that the encoding of MMA, MMAS and MMD needs. -/
theorem MmaOp.carried_of {o : MmaOp} {op k : Nat} {useC : Bool} {c : MmaOp → Instr} (row : Row op w3only [] true (2 ^ k - 1) .none) (hk : k ≤ 6)
    (hb : ∀ r, build op r = some (c (r.mmaOp useC))) (hh : o.h.faults w3only = []) (hd : o.d < 256) (ht : o.t2 < 2 ^ k ∧ o.t2 < 4) (ha : o.a < 256)
    (hb' : o.b < 256) (hc : o.c < 256 ∧ (useC = true ∨ o.c = 0)) (hm : o.mb < 16) (hn : o.nb < 64) (hkb : o.kb < 1024) (hs : o.syn < 4) :
    Carried op o.raw (c o) := by
  have ⟨_, _, _, hw3, _, _⟩ := row
  obtain ⟨⟨f, bnd, pn, pg⟩, cv, d, t2, a, b, c', crew, syn, kb, nb, mb⟩ := o
  simp at hh hd ht ha hb' hc hm hn hkb hs
  obtain rfl : f = .w3 := hh.1
  have hcr := bit_lt crew
  refine row.carried ((Form.mem_w3only _).2 rfl) (fun _ => land_mask k hk ht.1) ((hb _).trans (congrArg (some ∘ c) ?_))
  obtain ⟨x, hx, hlt, hxs⟩ : ∃ x, mb + 16 * nb + 1024 * kb + 1048576 * syn + 4194304 * bit crew = x ∧ x < 2147483648 ∧ x % 16 = mb ∧
      x / 16 % 64 = nb ∧ x / 1024 % 1024 = kb ∧ x / 1048576 % 4 = syn ∧ x / 4194304 % 2 = bit crew := ⟨_, rfl, by omega⟩
  simp [echo_w3 hw3, MmaOp.raw, Raw.mmaOp, hx, Nat.mod_eq_of_lt hlt, hxs]
  grind

theorem MmaOp.carried {o : MmaOp} {op : Nat} {bitmap : Bool} {c : MmaOp → Instr} (row : Row op w3only [] true 0 .none)
    (hb : ∀ r, build op r = some (c (r.mmaOp bitmap))) (h : o.faults bitmap = []) : Carried op o.raw (c o) := by
  simp only [MmaOp.faults, List.append_eq_nil_iff] at h
  refine MmaOp.carried_of (k := 0) row (by decide) hb (by grind) ?_ ?_ ?_ ?_ ?_ ?_ ?_ ?_ ?_ <;> simp at h ⊢ <;> grind

theorem MmaOp.carriedD {o : MmaOp} (h : o.faultsD = []) : Carried 0x72 o.raw (.mmd o) := by
  simp only [MmaOp.faultsD, List.append_eq_nil_iff] at h
  refine MmaOp.carried_of (k := 2) (useC := true) (by decide) (by decide) (fun _ => rfl) (by grind) ?_ ?_ ?_ ?_ ?_ ?_ ?_ ?_ ?_ <;>
    simp at h ⊢ <;> grind

theorem AcczOp.carried {o : AcczOp} (h : o.faults = []) : Carried 0x73 o.raw (.accz o) := by
  have row : Row 0x73 two [⟨31, 1, .cv⟩, ⟨30, 1, .x 30⟩, ⟨20, 2, .d⟩, ⟨16, 4, .x 0⟩, ⟨10, 6, .x 4⟩] true 0 .none := by decide
  have ⟨_, _, hw1, hw3, _, _⟩ := row
  obtain ⟨⟨f, bnd, pn, pg⟩, cv, side, t, mb, nb⟩ := o
  have hf : f = .w1 ∨ f = .w3 := by simp [AcczOp.faults] at h; grind
  refine row.carried ((Form.mem_two f).2 hf) (fun _ => land_none rfl) (congrArg (some ∘ Instr.accz) ?_)
  rcases hf with rfl | rfl <;> cases side <;> simp [AcczOp.faults] at h <;>
    simp [echo_w1, echo_w3 hw3, hw1, AcczOp.raw, Raw.acczOp, bit] <;> grind [bit]

theorem AccldOp.carried {o : AccldOp} (h : o.faults = []) : Carried 0x74 o.raw (.accld o) := by
  have row : Row 0x74 w3only [] true 0 .none := by decide
  have ⟨_, _, _, hw3, _, _⟩ := row
  obtain ⟨⟨f, bnd, pn, pg⟩, cv, d, a, nb, mb⟩ := o
  simp [AccldOp.faults] at h
  obtain rfl : f = .w3 := by grind
  refine row.carried ((Form.mem_w3only _).2 rfl) (fun _ => land_none rfl) (congrArg (some ∘ Instr.accld) ?_)
  simp [echo_w3 hw3, AccldOp.raw, Raw.accldOp]
  grind

theorem AccstOp.carried {o : AccstOp} (h : o.faults = []) : Carried 0x75 o.raw (.accst o) := by
  have row : Row 0x75 w3only [] true 1 .none := by decide
  have ⟨_, _, _, hw3, _, _⟩ := row
  obtain ⟨⟨f, bnd, pn, pg⟩, cv, q, sat, rm, d, a, nb, mb⟩ := o
  have hd : d < 256 := by cases q <;> simp [AccstOp.faults] at h <;> omega
  simp [AccstOp.faults] at h
  obtain rfl : f = .w3 := by grind
  refine row.carried ((Form.mem_w3only _).2 rfl) (fun _ => land_mask 1 (by decide) (bit_lt q)) (congrArg (some ∘ Instr.accst) ?_)
  cases q <;> simp [echo_w3 hw3, AccstOp.raw, Raw.accstOp, bit] <;> grind [bit]

theorem AccrdOp.carried {o : AccrdOp} (h : o.faults = []) : Carried 0x76 o.raw (.accrd o) := by
  have row : Row 0x76 w3only [] false 3 .none := by decide
  have hb : ∀ r, r.sub % 4 < 3 → build 0x76 r = some (.accrd r.accrdOp) := fun r hr => if_pos hr
  have ⟨_, _, _, hw3, _, _⟩ := row
  obtain ⟨⟨f, bnd, pn, pg⟩, la, sel, d, a, b, nb⟩ := o
  simp [AccrdOp.faults] at h
  obtain rfl : f = .w3 := by grind
  refine row.carried ((Form.mem_w3only _).2 rfl) (fun _ => land_mask 2 (by decide) (show sel < 4 by grind)) ((hb _ ?_).trans (congrArg (some ∘ Instr.accrd) ?_))
  · simp [echo_w3 hw3, AccrdOp.raw]; omega
  · simp [echo_w3 hw3, AccrdOp.raw, Raw.accrdOp]
    grind

theorem SmxOp.carried {o : SmxOp} (h : o.faults = []) : Carried 0x77 o.raw (.smx o) := by
  have row : Row 0x77 w3only [] true 0 .none := by decide
  have ⟨_, _, _, hw3, _, _⟩ := row
  obtain ⟨⟨f, bnd, pn, pg⟩, cv, d, a, db, nb, mb⟩ := o
  simp [SmxOp.faults] at h
  obtain rfl : f = .w3 := by grind
  refine row.carried ((Form.mem_w3only _).2 rfl) (fun _ => land_none rfl) (congrArg (some ∘ Instr.smx) ?_)
  simp [echo_w3 hw3, SmxOp.raw, Raw.smxOp]
  grind

theorem MsyncOp.carried {o : MsyncOp} {c : MsyncOp → Instr} (mode : Nat) (hmode : mode < 4)
    (hb : ∀ r, r.sub % 4 = mode → build 0x79 r = some (c r.msyncOp)) (h : o.faults = []) : Carried 0x79 (o.raw mode) (c o) := by
  have row : Row 0x79 two [⟨31, 1, .cv⟩, ⟨29, 2, .sub 0⟩, ⟨15, 2, .d⟩, ⟨10, 5, .x 0⟩] true 3 .none := by decide
  have ⟨_, _, hw1, hw3, _, _⟩ := row
  obtain ⟨⟨f, bnd, pn, pg⟩, cv, t, n⟩ := o
  have hf : f = .w1 ∨ f = .w3 := by simp [MsyncOp.faults] at h; grind
  refine row.carried ((Form.mem_two f).2 hf) (fun _ => land_mask 2 (by decide) hmode) ((hb _ ?_).trans (congrArg (some ∘ c) ?_))
  · rcases hf with rfl | rfl <;> simp [echo_w1, echo_w3 hw3, hw1, MsyncOp.raw] <;> omega
  · rcases hf with rfl | rfl <;> simp [MsyncOp.faults] at h <;> simp [echo_w1, echo_w3 hw3, hw1, MsyncOp.raw, Raw.msyncOp] <;> grind

theorem WslOp.carried {o : WslOp} (h : o.faults = []) : Carried 0x78 o.raw (.wsl o) := by
  have row : Row 0x78 w3only [] true 0 .none := by decide
  have ⟨_, _, _, hw3, _, _⟩ := row
  obtain ⟨⟨f, bnd, pn, pg⟩, cv, key, dst, d, b, c⟩ := o
  simp [WslOp.faults] at h
  obtain rfl : f = .w3 := by grind
  refine row.carried ((Form.mem_w3only _).2 rfl) (fun _ => land_none rfl) (congrArg (some ∘ Instr.wsl) ?_)
  simp [echo_w3 hw3, WslOp.raw, Raw.wslOp]
  grind

/-! ### Launches and system instructions -/

theorem LaunchOp.carried {o : LaunchOp} (h : o.faults = []) : Carried 0x7A o.raw (.launch o) := by
  have row : Row 0x7A [.w3, .w3l] [] true 0 .addr := by decide
  have ⟨_, _, _, hw3, _, haddr⟩ := row
  obtain ⟨⟨f, bnd, pn, pg⟩, cv, d, b, lit⟩ := o
  have hf : f = .w3 ∨ f = .w3l := by simp [LaunchOp.faults] at h; grind
  refine row.carried (by rcases hf with rfl | rfl <;> simp [LaunchOp.raw]) (fun _ => land_none rfl) (congrArg (some ∘ Instr.launch) ?_)
  rcases hf with rfl | rfl <;> simp [LaunchOp.faults] at h <;> simp [echo_w3 hw3, echo_w3l_addr hw3 haddr, LaunchOp.raw, Raw.launchOp] <;> grind

theorem GetcOp.carried {o : GetcOp} (h : o.faults = []) : Carried 0x7B o.raw (.getc o) := by
  have row : Row 0x7B two [⟨31, 1, .cv⟩, ⟨16, 8, .a⟩, ⟨10, 6, .d⟩] true 0 .none := by decide
  have ⟨_, _, hw1, hw3, _, _⟩ := row
  obtain ⟨⟨f, bnd, pn, pg⟩, cv, la, n, d⟩ := o
  have hf : f = .w1 ∨ f = .w3 := by simp [GetcOp.faults] at h; grind
  refine row.carried ((Form.mem_two f).2 hf) (fun _ => land_none rfl) (congrArg (some ∘ Instr.getc) ?_)
  rcases hf with rfl | rfl <;> simp [GetcOp.faults] at h <;> simp [echo_w1, echo_w3 hw3, hw1, GetcOp.raw, Raw.getcOp] <;> grind

theorem SetcOp.carried {o : SetcOp} {ok : Nat → Bool} {c : SetcOp → Instr} (hb : ∀ r, ok r.a = true → build 0x7C r = some (c r.setcOp))
    (h : o.faults ok = []) : Carried 0x7C o.raw (c o) := by
  have row : Row 0x7C two [⟨31, 1, .cv⟩, ⟨16, 8, .a⟩, ⟨10, 6, .b⟩] true 1 .none := by decide
  have ⟨_, _, hw1, hw3, _, _⟩ := row
  obtain ⟨⟨f, bnd, pn, pg⟩, cv, n, m, b, c'⟩ := o
  have hf : f = .w1 ∨ f = .w3 := by simp [SetcOp.faults] at h; grind
  have hn : n < 256 ∧ ok n = true := by simp [SetcOp.faults] at h; grind
  have ha : (echo 0x7C (SetcOp.raw ⟨⟨f, bnd, pn, pg⟩, cv, n, m, b, c'⟩)).a = n := by
    rcases hf with rfl | rfl <;> simp [echo_w1, echo_w3 hw3, hw1, SetcOp.raw] <;> omega
  refine row.carried ((Form.mem_two f).2 hf) (fun _ => land_mask 1 (by decide) (bit_lt m)) ((hb _ (by rw [ha]; exact hn.2)).trans (congrArg (some ∘ c) ?_))
  rcases hf with rfl | rfl <;> cases m <;> simp [SetcOp.faults] at h <;> simp [echo_w1, echo_w3 hw3, hw1, SetcOp.raw, Raw.setcOp, bit] <;> grind

theorem SysOp.carried {o : SysOp} {d a b c : Bool} {x : Nat → Bool} {con : SysOp → Instr} (sub n : Nat) (hsub : sub < 8)
    (hx : ∀ k, x k = true → k < 16 ∧ k % n = k)
    (hb : ∀ r, r.sub % 8 = sub → x r.x = true → build 0x7D r = some (con (r.sysOp n))) (h : o.faults d a b c x = []) :
    Carried 0x7D (o.raw sub) (con o) := by
  have row : Row 0x7D w3only [] false 7 .none := by decide
  have ⟨_, _, _, hw3, _, _⟩ := row
  obtain ⟨⟨f, bnd, pn, pg⟩, d', a', b', c', x'⟩ := o
  simp [SysOp.faults] at h
  obtain rfl : f = .w3 := by grind
  have hk : x x' = true := by grind
  obtain ⟨hlt, hmod⟩ := hx x' hk
  have he : (echo 0x7D (SysOp.raw ⟨⟨.w3, bnd, pn, pg⟩, d', a', b', c', x'⟩ sub)).x = x' := by
    simp [echo_w3 hw3, SysOp.raw]; omega
  refine row.carried ((Form.mem_w3only _).2 rfl) (fun _ => land_mask 3 (by decide) hsub) ((hb _ ?_ ?_).trans (congrArg (some ∘ con) ?_))
  · simp [echo_w3 hw3, SysOp.raw]; omega
  · rw [he]; exact hk
  · simp [Raw.sysOp, he, hmod]
    simp [echo_w3 hw3, SysOp.raw]
    grind

end Sys2Proof
end

section
/-! Every instruction without faults is told from its own words (R54, R60). -/

namespace Sys2Proof

theorem Carried.nop (b : Bool) : Carried 0x00 { form := .w1, bnd := b, pg := 7 } (.nop b) := by
  cases b <;> exact ⟨by decide, by decide, by decide, by decide⟩

/-- Every instruction without faults is told from its words: one line for each kind, with its opcode's row of the decoder's tables. -/
theorem Instr.carried {i : Instr} {op : Nat} {r : Raw} (hr : toRaw i = some (op, r)) (h : i.faults = []) : Carried op r i := by
  cases i with
  | nop b => cases hr; exact Carried.nop b
  | iadd o | isub o | imul o => cases hr; exact Alu.carried (z := true) (by decide) (fun _ => rfl) h
  | imad o => cases hr; exact Alu.carried (z := true) (by decide) (fun _ => rfl) h
  | imulh o | imin o | imax o => cases hr; exact Alu.carried (z := true) (by decide) (fun _ => rfl) h
  | and o | or o | xor o | andn o | shl o | shr o | sar o | rot o => cases hr; exact Alu.carried (z := false) (by decide) (fun _ => rfl) h
  | popc o | clz o | brev o | mov o => cases hr; exact Un.carried (by decide) (fun _ => rfl) h
  | iaddi o | andi o => cases hr; exact Alu.carriedImm (lit := .b32) (by decide) (by decide) (fun _ => rfl) h
  | shli o | shri o => cases hr; exact Alu.carriedImm (lit := .none) (by decide) (by decide) (fun _ => rfl) h
  | lea o => cases hr; exact LeaOp.carried h
  | icmp o => cases hr; exact CmpOp.carried (dbl := false) (by decide) (by decide) rfl (fun _ hr => if_pos hr) h
  | fcmp o => cases hr; exact CmpOp.carried (dbl := true) (by decide) (by decide) rfl (fun _ hr => if_pos hr) h
  | sel o => cases hr; exact SelOp.carried h
  | movl o => cases hr; exact MovlOp.carried h
  | movs o => cases hr; exact MovsOp.carried h
  | shfl o => cases hr; exact ShflOp.carried h
  | scan o => cases hr; exact ScanOp.carried h
  | sread o => cases hr; exact SreadOp.carried h
  | fadd o | fsub o | fmul o | fscl o | fmin o | fmax o | fdiv o => cases hr; exact Alu.carried (z := false) (by decide) (fun _ => rfl) h
  | ffma o => cases hr; exact Alu.carried (z := false) (by decide) (fun _ => rfl) h
  | fsqrt o | frcp o | frsq o | fex2 o | flg2 o | fsin o | fcos o | frnd o => cases hr; exact Un.carried (by decide) (fun _ => rfl) h
  | fclass o => cases hr; exact FclassOp.carried h
  | dadd o | dmul o | dfma o => cases hr; exact Alu.carriedD (by decide) (fun _ => rfl) h
  | hadd2 o | hmul2 o | badd2 o | bmul2 o | hfma2 o | bfma2 o => cases hr; exact Alu.carried (z := false) (by decide) (fun _ => rfl) h
  | cvt o => cases hr; exact CvtOp.carried h
  | dot4 o | dot8 o => cases hr; exact DotOp.carried (by decide) (fun _ => rfl) h
  | wupd o => cases hr; exact WupdOp.carried h
  | rand o => cases hr; exact RandOp.carried h
  | sadd o | ssub o | smul o => cases hr; exact SAlu.carried (z := true) (ar := false) (by decide) (fun _ => rfl) h
  | sand o | sor o | sxor o | sshl o => cases hr; exact SAlu.carried (z := false) (ar := false) (by decide) (fun _ => rfl) h
  | sshr o => cases hr; exact SAlu.carried (z := false) (ar := true) (by decide) (fun _ => rfl) h
  | smov o => cases hr; exact SmovOp.carried h
  | scmp o => cases hr; exact ScmpOp.carried h
  | ssel o => cases hr; exact SselOp.carried h
  | sld o | sst o => cases hr; exact MemOp.carriedU (by decide) (fun _ => rfl) h
  | vtos o => cases hr; exact VtosOp.carried h
  | vote o => cases hr; exact VoteOp.carried h
  | ballot o => cases hr; exact BallotOp.carried h
  | plop o | klop o => cases hr; exact LopOp.carried (by decide) (fun _ => rfl) h
  | bra o => cases hr; exact BraOp.carried_bra h
  | sbra o => cases hr; exact BraOp.carried_sbra h
  | call o => cases hr; exact BraOp.carried_call h
  | jmp o => cases hr; exact JmpOp.carried (by decide) (by decide) (fun _ => rfl) (by decide) (by decide) (fun _ => rfl) h
  | callr o => cases hr; exact JmpOp.carried (by decide) (by decide) (lit := false) (fun hl => absurd hl (by decide)) (by decide) (by decide) (fun _ => rfl) h
  | ret o | exit o => cases hr; exact NoOp.carried (uni := false) 0 (by decide) (w1 := []) (mask := 0) (by decide) (land_none rfl) rfl (fun _ _ => rfl) h
  | rgn o =>
    cases hr
    have h0 : o.faults false = [] := by simp [Instr.faults, NoOp.faultsRgn] at h; exact h.1
    exact NoOp.carried (uni := false) 0 (by decide) (w1 := []) (mask := 0) (by decide) (land_none rfl) rfl (fun _ _ => rfl) h0
  | guardOpen o => cases hr; exact GuardOp.carried h
  | guardClose o =>
    cases hr
    exact NoOp.carried (uni := false) 1 (by decide) (w1 := [⟨15, 17, .xs⟩, ⟨14, 1, .sub 2⟩, ⟨12, 2, .sub 0⟩]) (mask := 7) (by decide)
      (by decide) (by simp [NoOp.raw, sextNat]) (fun r hs => by simp [build, buildHigh, hs]) h
  | trap o => cases hr; exact TrapOp.carried h
  | tretRestart o =>
    cases hr
    exact NoOp.carried (uni := false) 0 (by decide) (w1 := [⟨10, 2, .sub 0⟩]) (mask := 3) (by decide) (by decide) (by simp [NoOp.raw])
      (fun r hs => by simp [build, buildHigh, hs]) h
  | tretNext o =>
    cases hr
    exact NoOp.carried (uni := false) 1 (by decide) (w1 := [⟨10, 2, .sub 0⟩]) (mask := 3) (by decide) (by decide) (by simp [NoOp.raw])
      (fun r hs => by simp [build, buildHigh, hs]) h
  | tretKill o =>
    cases hr
    exact NoOp.carried (uni := false) 2 (by decide) (w1 := [⟨10, 2, .sub 0⟩]) (mask := 3) (by decide) (by decide) (by simp [NoOp.raw])
      (fun r hs => by simp [build, buildHigh, hs]) h
  | chkerr o => cases hr; exact ChkOp.carried h
  | drain o | tokw o | tokp o =>
    cases hr
    exact NoOp.carried (uni := true) 0 (by decide) (w1 := [⟨31, 1, .cv⟩]) (mask := 0) (by decide) (land_none rfl) (by simp [NoOp.raw]) (fun _ _ => rfl) h
  | tagGet o => cases hr; exact TagOp.carried (set := false) 0 (by decide) (fun r hs => by simp [build, buildHigh, hs]) h
  | tagSet o => cases hr; exact TagOp.carried (set := true) 1 (by decide) (fun r hs => by simp [build, buildHigh, hs]) h
  | tagMint o => cases hr; exact TagOp.carried (set := false) 2 (by decide) (fun r hs => by simp [build, buildHigh, hs]) h
  | ld o => cases hr; exact MemOp.carried (load := true) (by decide) (fun _ => rfl) h
  | st o => cases hr; exact MemOp.carried (load := false) (by decide) (fun _ => rfl) h
  | atom o => cases hr; exact AtomOp.carried (red := false) (cas := false) (by decide) rfl (fun _ hs => if_pos hs) h
  | red o => cases hr; exact AtomOp.carried (red := true) (cas := false) (by decide) rfl (fun _ hs => if_pos hs) h
  | cas o => cases hr; exact AtomOp.carried (red := false) (cas := true) (by decide) rfl (fun _ _ => rfl) h
  | fence o => cases hr; exact FenceOp.carried h
  | bari o => cases hr; exact BariOp.carried h
  | barv o => cases hr; exact BarvOp.carried h
  | barw o => cases hr; exact BarwOp.carried h
  | cpyMemory o => cases hr; exact CpyOp.carried 0 (by decide) (fun r hs => by simp [build, buildHigh, hs]) h
  | cpyFromPort o => cases hr; exact CpyOp.carried 1 (by decide) (fun r hs => by simp [build, buildHigh, hs]) h
  | cpyToPort o => cases hr; exact CpyOp.carried 2 (by decide) (fun r hs => by simp [build, buildHigh, hs]) h
  | cseal o => cases hr; exact SealOp.carried (dst := true) (by decide) rfl (fun _ => rfl) h
  | cwait o => cases hr; exact SealOp.carried (dst := false) (by decide) rfl (fun _ => rfl) h
  | mail o => cases hr; exact MailOp.carried h
  | emit o => cases hr; exact EmitOp.carried h
  | mma o | mmas o => cases hr; exact MmaOp.carried (by decide) (fun _ => rfl) h
  | mmd o => cases hr; exact MmaOp.carriedD h
  | accz o => cases hr; exact AcczOp.carried h
  | accld o => cases hr; exact AccldOp.carried h
  | accst o => cases hr; exact AccstOp.carried h
  | accrd o => cases hr; exact AccrdOp.carried h
  | smx o => cases hr; exact SmxOp.carried h
  | wsl o => cases hr; exact WslOp.carried h
  | msyncAll o => cases hr; exact MsyncOp.carried 0 (by decide) (fun r hs => by simp [build, buildHigh, hs]) h
  | msyncProg o => cases hr; exact MsyncOp.carried 1 (by decide) (fun r hs => by simp [build, buildHigh, hs]) h
  | msyncWs o => cases hr; exact MsyncOp.carried 2 (by decide) (fun r hs => by simp [build, buildHigh, hs]) h
  | launch o => cases hr; exact LaunchOp.carried h
  | getc o => cases hr; exact GetcOp.carried h
  | setc o => cases hr; exact SetcOp.carried (ok := fun n => n != 4 && n != 0x0A && n != 0x0E) (fun r ha => by simp at ha; simp [build, buildHigh]; split <;> simp_all) h
  | setcCrew o => cases hr; exact SetcOp.carried (ok := (· == 4)) (fun r ha => by simp at ha; simp [build, buildHigh, ha]) h
  | setcQmap o => cases hr; exact SetcOp.carried (ok := (· == 0x0A)) (fun r ha => by simp at ha; simp [build, buildHigh, ha]) h
  | setcStfq o => cases hr; exact SetcOp.carried (ok := (· == 0x0E)) (fun r ha => by simp at ha; simp [build, buildHigh, ha]) h
  | sysReplay o => cases hr; exact SysOp.carried (x := (· == 0)) 0 2 (by decide) (by simp) (fun r hs hx => by simp at hx; simp [build, buildHigh, hs, hx]) h
  | sysReplayTok o => cases hr; exact SysOp.carried (x := (· == 1)) 0 2 (by decide) (by simp) (fun r hs hx => by simp at hx; simp [build, buildHigh, hs, hx]) h
  | sysTlbinv o => cases hr; exact SysOp.carried (x := (· < 8)) 1 8 (by decide) (by simp; omega) (fun r hs hx => by simp [build, buildHigh, hs]) h
  | sysDiagst o => cases hr; exact SysOp.carried (x := (· < 3)) 2 4 (by decide) (by simp; omega) (fun r hs hx => by simp [build, buildHigh, hs]) h
  | sysDiagld o => cases hr; exact SysOp.carried (x := (· < 3)) 3 4 (by decide) (by simp; omega) (fun r hs hx => by simp [build, buildHigh, hs]) h
  | sysScrub o => cases hr; exact SysOp.carried (x := (· < 6)) 4 16 (by decide) (by simp; omega) (fun r hs hx => by simp [build, buildHigh, hs]) h
  | sysWorld o => cases hr; exact SysOp.carried (x := (· == 0)) 5 1 (by decide) (by simp) (fun r hs hx => by simp [build, buildHigh, hs]) h
  | sysHalt o => cases hr; exact SysOp.carried (x := (· == 0)) 6 1 (by decide) (by simp) (fun r hs hx => by simp [build, buildHigh, hs]) h
  | _ => cases hr

end Sys2Proof
end

section
/-! Decoding and encoding are inverse (R53, R54, R60, R68, R69). -/

namespace Sys2Proof

/-- Settles O46: `pack` puts each field of an instruction in a place of its own, so `unpack` reads back what the layout carries
of them (`pack_spec`), and that tells the instruction (`Instr.carried`). -/
theorem decodingInvertsEncoding : Obligations.DecodingInvertsEncoding := by
  unfold Obligations.DecodingInvertsEncoding
  intro i f rest hwf hf
  obtain ⟨⟨op, r⟩, hr, rfl⟩ := Option.map_eq_some_iff.1 hf
  exact decode_encode rest hr (Instr.carried hr (List.append_eq_nil_iff.1 hwf).1) hwf

end Sys2Proof
end

section
/-! What decodes is well formed, and its words are its encoding (R60, R69). -/

namespace Sys2Proof

theorem lowDiff_none {x y : Nat} (h : lowDiff x y = none) : x = y := by
  by_contra hne
  have hz : (Nat.xor x y == 0) = false := beq_false_of_ne fun h0 => hne (Nat.xor_eq_zero_iff.1 h0)
  rw [lowDiff, hz] at h
  cases h

theorem lowestPos_none {l : List Nat} (h : lowestPos l = none) : l = [] := by
  cases l with
  | nil => rfl
  | cons p ps => unfold lowestPos at h; split at h <;> cases h

/-- A control register number that user mode may name exists in system mode too. -/
theorem sysFaults_of_user {i : Instr} (h : ∀ n p, i.ctlNumber = some (n, p) → ¬(0x40 ≤ n ∧ n ≤ 0x4F)) : i.sysFaults = [] := by
  unfold Instr.sysFaults
  split
  next n p hn =>
    have := h n p hn
    simp
    omega
  · rfl

/-- What step 5 of R69 lets pass is a well-formed instruction, and its words are all there is to the words read. -/
theorem fieldCheck_ok {sys : Bool} {op w : Nat} {f : Form} {i j : Instr} (h : fieldCheck sys op f w i = .ok j) : j = i ∧ i.WF ∧ encode i = w := by
  unfold fieldCheck at h
  dsimp only at h
  split at h
  · cases h
  next hbad =>
    obtain ⟨hrf, hsys⟩ := List.append_eq_nil_iff.1 (lowestPos_none hbad)
    obtain ⟨hres, hfaults⟩ := List.append_eq_nil_iff.1 hrf
    have hw : w = encode i := by
      apply lowDiff_none
      unfold reservedFault at hres
      split at hres
      · assumption
      · cases hres
    have hboth : j = i ∧ i.sysFaults = [] := by
      cases sys with
      | true => split at h <;> cases h <;> exact ⟨rfl, hsys⟩
      | false =>
        split at h
        next n p hn =>
          split at h
          · cases h
          next hu =>
            cases h
            exact ⟨rfl, sysFaults_of_user fun n' p' hn' => by cases hn.symm.trans hn'; simpa using hu⟩
        next hn =>
          cases h
          exact ⟨rfl, sysFaults_of_user fun n' p' hn' => by cases hn.symm.trans hn'⟩
    exact ⟨hboth.1, List.append_eq_nil_iff.2 ⟨hfaults, hboth.2⟩, hw.symm⟩

theorem fld_len (w : Nat) : fld w 0 2 = w % 4 := by simp [fld]

theorem fld_opcode (w : Nat) : fld w 3 7 = w / 8 % 128 := rfl

/-- Words that decode pass every step of R69. -/
theorem decode_ok {sys : Bool} {w : Nat} {i : Instr} (h : decode sys w = .ok i) :
    ∃ j, fieldCheck sys (w / 8 % 128) (formOf (w % 4)) (w % 2 ^ (32 * (formOf (w % 4)).words)) j = .ok i := by
  rw [← fld_len, ← fld_opcode]
  unfold decode at h
  dsimp only at h
  split at h
  · cases h
  split at h
  · cases h
  split at h
  · cases h
  split at h
  · cases h
  split at h
  · cases h
  · exact ⟨_, h⟩

theorem decode_illOpcode {sys : Bool} {w : Nat} (h : 0x7E ≤ w / 8 % 128) : decode sys w = .error (.illOpcode 0) := by
  unfold decode
  dsimp only
  rw [fld_opcode, if_pos h]

theorem decode_sysPriv {w : Nat} (h : w / 8 % 128 = 0x7D) : decode false w = .error (.priv 0) := by
  unfold decode
  dsimp only
  rw [fld_opcode, h]
  rfl

theorem decode_noForm {sys : Bool} {w : Nat} (hop : w / 8 % 128 < 0x7E) (hs : w / 8 % 128 ≠ 0x7D ∨ sys = true)
    (hf : formOk (w / 8 % 128) (formOf (w % 4)) = false) : decode sys w = .error (.illOpcode 2) := by
  have hpriv : (w / 8 % 128 == 0x7D && !sys) = false := by simpa [or_iff_not_imp_left] using hs
  unfold decode
  dsimp only
  rw [fld_opcode, fld_len, if_neg (Nat.not_le.2 hop), hpriv, hf]
  rfl

/-- Settles O47: step 5 of R69 compares the words with the encoding of what they decode to (`fieldCheck_ok`). -/
theorem decodedWordsAreTheEncoding : Obligations.DecodedWordsAreTheEncoding := by
  unfold Obligations.DecodedWordsAreTheEncoding
  intro sys w
  refine ⟨fun i h => ?_, decode_illOpcode, fun hop hs => hs ▸ decode_sysPriv hop, decode_noForm⟩
  obtain ⟨j, hj⟩ := decode_ok h
  obtain ⟨rfl, hwf, henc⟩ := fieldCheck_ok hj
  exact ⟨hwf, henc⟩

end Sys2Proof
end

section
/-! An instruction that acts in no thread, and NOP (R65, R71, R121). -/

namespace Sys2Proof

open Machine

namespace Machine

/-- What has an encoding is issued from the run: its `exec` is `issue` of a meaning that does not depend on the state. -/
theorem exec_issue {i : Instr} {op : Nat} {r : Raw} (h : toRaw i = some (op, r)) : ∃ body, ∀ s, exec i s = issue i s body := by
  cases i <;> cases h <;> exact ⟨_, fun _ => rfl⟩

/-- Settles O25: with no acting thread the meaning is not asked for, and completion moves the fragment on (`completes_of`). -/
theorem guardedOffDoesNothing : Obligations.GuardedOffDoesNothing := by
  unfold Obligations.GuardedOffDoesNothing
  intro i s u m h ha
  obtain ⟨body, hx⟩ := exec_issue h.known
  exact completes_of i s u m {} (fun _ => True) body s h (hx s) (absurd ha) (absurd ha) fun _ _ _ => trivial

theorem nop_completes (b : Bool) {s : State} {u : Nat} {m : BitVec 32} (h : Ready (.nop b) s u m) : Completes (.nop b) s u m {} fun _ => True :=
  completes_of (.nop b) s u m {} (fun _ => True) (fun _ s => .ok s) (entered (.nop b) s u m) h rfl (fun _ => rfl) (fun _ => Body.refl _ _ _)
    fun _ _ _ => trivial

end Machine

/-! ### The words of opcode 0 -/

/-- Numbers that agree below bit `a` differ first from there on. -/
theorem lowDiff_range {x y a b p : Nat} (hx : x < 2 ^ b) (hy : y < 2 ^ b) (h : x % 2 ^ a = y % 2 ^ a) (hp : lowDiff x y = some p) : a ≤ p ∧ p < b := by
  unfold lowDiff at hp
  dsimp only at hp
  split at hp
  · cases hp
  next hne =>
    cases hp
    have hz : Nat.xor x y < 2 ^ b := Nat.xor_lt_two_pow hx hy
    have hlow : 2 ^ a ∣ Nat.xor x y := Nat.dvd_of_mod_eq_zero ((Nat.xor_mod_two_pow).trans (Nat.xor_eq_zero_iff.2 h))
    have hpos : 0 < Nat.xor x y := Nat.pos_of_ne_zero fun h0 => hne (beq_iff_eq.2 h0)
    generalize Nat.xor x y = z at hz hlow hpos
    have hand : Nat.land z (z - 1) ≤ z - 1 := Nat.and_le_right
    have hdvd : 2 ^ a ∣ z - Nat.land z (z - 1) := by
      refine Nat.dvd_sub hlow (Nat.dvd_of_mod_eq_zero ?_)
      exact Nat.and_mod_two_pow.trans (by rw [Nat.mod_eq_zero_of_dvd hlow, Nat.zero_and])
    have hd : z - Nat.land z (z - 1) ≠ 0 := by omega
    exact ⟨(Nat.le_log2 hd).2 (Nat.le_of_dvd (Nat.pos_of_ne_zero hd) hdvd), (Nat.log2_lt hd).2 (by omega)⟩

/-- A word with opcode 0 and LEN 0 decodes to NOP, when none of its other bits is set. -/
theorem decode_op0 (sys : Bool) {w : Nat} (hop : w / 8 % 128 = 0) (hl : w % 4 = 0) :
    decode sys w = fieldCheck sys 0 .w1 (w % 2 ^ 32) (.nop (decide (w / 4 % 2 = 1))) := by
  have hb : fld (w % 2 ^ 32) 2 1 = w / 4 % 2 := by simp only [fld]; omega
  unfold decode
  dsimp only
  rw [fld_opcode, fld_len, hop, hl, ← hb]
  rfl

/-- NOP's one word. -/
theorem encode_nop (b : Bool) : encode (.nop b) = 4 * bit b := by cases b <;> rfl

theorem fieldCheck_nop_ok (sys b : Bool) : fieldCheck sys 0 .w1 (4 * bit b) (.nop b) = .ok (.nop b) := by
  cases sys <;> cases b <;> rfl

/-- No bit but BND belongs to a field of NOP, so each that is set is a position of its own. -/
theorem fieldCheck_nop_error (sys b : Bool) {w : Nat} (hw : w < 2 ^ 32) (hlow : w % 2 ^ 10 = 4 * bit b) (hne : w ≠ 4 * bit b) :
    ∃ p, 10 ≤ p ∧ p < 32 ∧ fieldCheck sys 0 .w1 w (.nop b) = .error (.illField p) := by
  have hsmall : 4 * bit b < 2 ^ 10 := by cases b <;> decide
  cases hd : lowDiff w (4 * bit b) with
  | none => exact absurd (lowDiff_none hd) hne
  | some p =>
    obtain ⟨hlo, hhi⟩ := lowDiff_range (a := 10) hw (Nat.lt_trans hsmall (by decide)) (hlow.trans (Nat.mod_eq_of_lt hsmall).symm) hd
    refine ⟨p, hlo, hhi, ?_⟩
    unfold fieldCheck reservedFault
    rw [encode_nop, hd]
    cases sys <;> rfl

theorem decode_nop (sys : Bool) {w : Nat} (hop : w / 8 % 128 = 0) (hl : w % 4 = 0) (hz : w % 2 ^ 32 / 2 ^ 10 = 0) :
    decode sys w = .ok (.nop (decide (w / 4 % 2 = 1))) := by
  have hw : w % 2 ^ 32 = 4 * bit (decide (w / 4 % 2 = 1)) := by by_cases hb : w / 4 % 2 = 1 <;> simp [hb, bit] <;> omega
  rw [decode_op0 sys hop hl, hw, fieldCheck_nop_ok]

theorem decode_op0_error (sys : Bool) {w : Nat} (hop : w / 8 % 128 = 0) (hl : w % 4 = 0) (hz : w % 2 ^ 32 / 2 ^ 10 ≠ 0) :
    ∃ p, 10 ≤ p ∧ p < 32 ∧ decode sys w = .error (.illField p) := by
  have hlow : w % 2 ^ 32 % 2 ^ 10 = 4 * bit (decide (w / 4 % 2 = 1)) := by by_cases hb : w / 4 % 2 = 1 <;> simp [hb, bit] <;> omega
  rw [decode_op0 sys hop hl]
  exact fieldCheck_nop_error sys _ (Nat.mod_lt _ (by decide)) hlow (by omega)

/-- Opcode 0 has the form W1 only. -/
theorem formOk_op0 : ∀ l < 4, l ≠ 0 → formOk 0 (formOf l) = false := by decide

/-- BND of the word that issues ends the run (R57). -/
theorem issuesNow_stop {s : State} {r : Run} (u : Nat) (m : BitVec 32) {w : Nat} (h : s.cur = some r) (hw : w / 4 % 2 = 1) :
    (issuesNow s u m w).cur.map (·.stop) = some true := by
  have hb : fld w 2 1 = 1 := hw
  simp [issuesNow, hb, stopRun, h]

/-- Settles O52: opcode 0 has the form W1 alone, with no field but BND, so every other bit is a position at fault (`lowDiff_range`). -/
theorem nopChangesNothing : Obligations.NopChangesNothing := by
  unfold Obligations.NopChangesNothing
  refine ⟨fun sys w hop => ⟨fun hl => ?_, decode_nop sys hop, decode_op0_error sys hop⟩, fun sys w h => decode_illOpcode (by omega),
    fun b => ⟨rfl, fun s u m => nop_completes b⟩, fun s u m w r => issuesNow_stop u m⟩
  exact decode_noForm (by omega) (.inl (by omega)) (hop ▸ formOk_op0 _ (Nat.mod_lt _ (by decide)) hl)

end Sys2Proof
end

section
/-! Words that the spec spells out. -/

namespace Sys2Proof

/-- Settles O45: the decoder is run on each of the words. -/
theorem specWordsDecode : Obligations.SpecWordsDecode := by
  unfold Obligations.SpecWordsDecode
  decide +kernel

end Sys2Proof
end

section
/-! The step of the machine and the words it fetches (R53 to R57, R69). -/

namespace Sys2Proof.Machine

/-! ### Which part of the state a step is of -/

theorem step_agenda {s : State} {e : Instr} {es : List Instr} (h : s.agenda = e :: es) : step s = thenDo (exec e { s with agenda := es }) State.tidy := by
  unfold step
  rw [h]

theorem step_issuing {s : State} {u : Nat} {m : BitVec 32} (h : s.agenda = []) (hi : issuing s = some (u, m)) : step s = stepFrag s u m := by
  unfold step
  rw [h, hi]

theorem stepFrag_ok {s base : State} {u w : Nat} {m : BitVec 32} {i : Instr} (hf : fetchFor s u m = (some w, base))
    (hd : decode (base.strand u).sys w = .ok i) : stepFrag s u m = thenDo (exec i (issuesNow base u m w)) fun t => (afterFrag t).tidy := by
  unfold stepFrag
  rw [hf]
  dsimp only
  rw [hd]

theorem stepFrag_error {s base : State} {u w : Nat} {m : BitVec 32} {r : Reject} (hf : fetchFor s u m = (some w, base))
    (hd : decode (base.strand u).sys w = .error r) : stepFrag s u m = .next (afterFrag (rejectTrap (issuesNow base u m w) u m w r)).tidy := by
  unfold stepFrag
  rw [hf]
  dsimp only
  rw [hd]

/-! ### Words fetched -/

theorem fetchWord_local {s base : State} {u va l : Nat} {leaf} (hva : va < 2 ^ 56)
    (hf : fateOf s ((s.strand u).who s none) .fetch va 4 = (.hit (.loc l) leaf, base)) (hr : base.raw = []) :
    fetchWord s u va = (.words (base.readNat l 4), base) := by
  unfold fetchWord
  rw [if_neg (Nat.not_le.2 hva), hf]
  dsimp only
  rw [settle_clean _ _ _ hr]

theorem fetchFor_words {s base : State} {u w : Nat} {m : BitVec 32} (h : fetchFor s u m = (some w, base)) :
    ∃ e, fetchAt s u ((s.strand u).thread ((s.strand u).lowest m)).pc = (.words w, e) := by
  unfold fetchFor at h
  dsimp only at h
  split at h
  next heq =>
    cases h
    exact ⟨_, heq⟩
  all_goals cases h

theorem fetchAt_words {s base e : State} {u w0 w1 : Nat} {pc : BitVec 62} (h0 : fetchWord s u (byteOf pc) = (.words w0, base))
    (h1 : fetchRest base u (byteOf pc) (wordsOf w0 - 1) 1 = (.words w1, e)) : fetchAt s u pc = (.words (w0 + w1 * 2 ^ 32), e) := by
  unfold fetchAt
  dsimp only
  rw [h0]
  dsimp only
  rw [h1]
  rfl

/-- Settles O44. That an event on the agenda goes before the fragment at issue is the model's choice (log entry 1, DESIGN CHOICE). -/
theorem stepRunsTheDecodedInstruction : Obligations.StepRunsTheDecodedInstruction := by
  unfold Obligations.StepRunsTheDecodedInstruction
  exact ⟨fun s u m w base i ha hi hf hd => (step_issuing ha hi).trans (stepFrag_ok hf hd),
    fun s u m w base r ha hi hf hd => (step_issuing ha hi).trans (stepFrag_error hf hd),
    fun s e es ha => step_agenda ha, fun s u va l leaf base hva hf hr => fetchWord_local hva hf hr,
    fun s u m w base h => fetchFor_words h, fun s u pc w0 w1 base e h0 h1 => fetchAt_words h0 h1⟩

end Sys2Proof.Machine
end

section
/-! The checks of R69 on registers and privilege, and the trap of an instruction that they refuse (R22, R45, R70, R174). -/

namespace Sys2Proof.Machine

/-! ### What the checks answer -/

theorem portReads_eq_true {q : BitVec 64} {j : Nat} : portReads q j = some true ↔ cfld q (4 * j) 4 ∈ [1, 3, 5] := by
  unfold portReads
  split <;> simp_all

theorem portReads_eq_false {q : BitVec 64} {j : Nat} : portReads q j = some false ↔ cfld q (4 * j) 4 ∈ [2, 4] := by
  unfold portReads
  split <;> simp_all

section
variable (regs : Nat) (q : BitVec 64) {x : Use}

/-- A queue that may stand here, against the direction of its port (R45). -/
theorem useFault_port (hsp : x.sp = .v) (hc : 248 ≤ x.code) (hq : x.q = true) (hn : x.n = 1)
    (h : (x.rd = true ∧ cfld q (4 * (x.code - 248)) 4 ∉ [1, 3, 5]) ∨ (x.wr = true ∧ cfld q (4 * (x.code - 248)) 4 ∉ [2, 4])) :
    useFault regs q x = some 5 := by
  rw [← portReads_eq_true, ← portReads_eq_false] at h
  have : (x.rd && portReads q (x.code - 248) != some true || x.wr && portReads q (x.code - 248) != some false) = true := by simpa using h
  simp [useFault, hsp, hc, hq, hn, this]

/-- A register of either file: alignment first, then the launch's registers. -/
theorem useFault_register (h : (x.sp = .v ∧ x.code < 248) ∨ (x.sp = .s ∧ x.code < 64)) :
    useFault regs q x = if x.al = 2 ∧ x.code % 2 = 1 then some 0 else if x.al = 4 ∧ x.code % 4 ≠ 0 then some 1
      else if x.sp = .v ∧ regs < x.code + x.n then some 2 else none := by
  rcases h with ⟨hsp, hc⟩ | ⟨hsp, hc⟩ <;> simp [useFault, hsp, Nat.not_le.2 hc]

end

theorem useFault_le {regs : Nat} {q : BitVec 64} {x : Use} {n : Nat} (h : useFault regs q x = some n) : n ≤ 5 := by
  unfold useFault at h
  cases hsp : x.sp <;> simp only [hsp] at h <;> grind

/-- The checks report PRIV or ILL_REG. -/
theorem checkFault_range {st : Strand} {op : Nat} {r : Raw} {us : List Use} {cause sub : Nat} (h : checkFault st op r us = some (cause, sub)) :
    cause ≤ 4 ∧ sub ≤ 5 := by
  unfold checkFault at h
  split at h
  · cases h; decide
  · split at h
    · cases h; decide
    · obtain ⟨n, hn, heq⟩ := Option.map_eq_some_iff.1 h
      cases heq
      obtain ⟨x, _, hx⟩ := List.exists_of_findSome?_eq_some hn
      exact ⟨by decide, useFault_le hx⟩

theorem checkFault_sys {st : Strand} {op : Nat} {r : Raw} {us : List Use} (hop : op = 0x7D) (hs : st.sys = false) :
    checkFault st op r us = some (0x04, 0) := by
  simp [checkFault, hop, hs]

theorem checkFault_ctl {st : Strand} {op : Nat} {r : Raw} {us : List Use} (hop : op = 0x7B ∨ op = 0x7C) (hs : st.sys = false)
    (hlo : 0x40 ≤ r.a) (hhi : r.a ≤ 0x4F) : checkFault st op r us = some (0x04, 1) := by
  rcases hop with rfl | rfl <;> simp [checkFault, hs, hlo, hhi]

/-- Past the checks of privilege, the first register that fails decides. -/
theorem checkFault_reg {st : Strand} {op : Nat} {r : Raw} {pre f : List Use} {x : Use} {n : Nat}
    (h : st.sys = true ∨ (op ≠ 0x7D ∧ op ≠ 0x7B ∧ op ≠ 0x7C)) (hpre : ∀ y ∈ pre, useFault st.regs st.ctl.qmap y = none)
    (hx : useFault st.regs st.ctl.qmap x = some n) : checkFault st op r (pre ++ x :: f) = some (0x03, n) := by
  have hreg : regFault st.regs st.ctl.qmap (pre ++ x :: f) = some n := by
    rw [regFault, List.findSome?_append, List.findSome?_eq_none_iff.2 hpre, List.findSome?_cons, hx]
    rfl
  rcases h with hs | ⟨h1, h2, h3⟩
  · simp [checkFault, hs, hreg]
  · simp [checkFault, h1, h2, h3, hreg]

/-! ### The trap -/

/-- An instruction that the checks refuse traps before anything else of it happens. -/
theorem exec_refused {i : Instr} {s : State} {u : Nat} {m : BitVec 32} {cause sub : Nat} (hk : toRaw i = some (i.op, i.fields))
    (hi : issuing s = some (u, m)) (hc : checkFault (s.strand u) i.op i.fields i.uses = some (cause, sub)) :
    exec i s = .next (trapAt s (siteOf s u m i i.op i.fields) i.op i.fields i.uses
      { cause := cause, sub := sub, restart := some (byteOf ((s.strand u).startOf ((s.strand u).lowest m))) }) := by
  obtain ⟨body, hx⟩ := exec_issue hk
  rw [hx, issue, hk, hi]
  dsimp only
  unfold issueAt gate
  dsimp only
  have hc' : checkFault (s.strand (siteOf s u m i i.op i.fields).u) i.op i.fields (usesOf i.op i.fields) = some (cause, sub) := hc
  rw [hc']
  rfl

/-- What a trap's entry writes beyond its frame in the save slot: s62, s63 and TFP. -/
abbrev Touch.trap : Touch := { s := fun c => c == 62 || c == 63, ctl := fun c => c == 8 }

/-- Entry of a trap that mints no birth, in a strand with a handler (R174). -/
theorem takeTrap_enters (s : State) (p : Site) (x : Exc) (hs : s.has p.u) (hb : x.birth = none) (ht : (s.strand p.u).trap = none)
    (hv : (s.strand p.u).ctl.tvec ≠ 0) (hop : SlotOpen s p.u 0x400 256) :
    let restart := x.restart.getD (if p.boundary then byteOf p.pc else byteOf ((s.strand p.u).startOf ((s.strand p.u).lowest p.mask)))
    ∃ c bytes k, bytes = frameBytes x false c (x.lanes.getD ((s.strand p.u).laneMask (maskBits p.mask))) (byteOf p.pc) p.word0 restart
        (x.next.getD (byteOf (p.pc + BitVec.ofNat 62 p.words))) ((s.strand p.u).readS 62 1).w ((s.strand p.u).readS 63 1).w ∧
      Only Touch.trap (slotWrite s p.u 0x400 bytes) (takeTrap s p x) p.u ∧
      ((takeTrap s p x).strand p.u).trap = some k ∧ k.frag = p.mask ∧ k.cause = x.cause ∧ k.restart = BitVec.ofNat 64 restart := by
  obtain ⟨c, bytes, hbytes, htake⟩ := takeTrap_eq s p x (fun h => by rw [hb] at h; cases h) ht hv
  have hlen : bytes.length = 256 := by rw [hbytes]; exact length_frame _ _ _ _ _ _ _ _ _ _
  obtain ⟨mem, hmem⟩ := slotWrite_mem s p.u 0x400 bytes (by rw [hlen]; exact hop)
  have hhas : (slotWrite s p.u 0x400 bytes).has p.u := by rw [hmem]; exact hs
  dsimp only
  rw [htake]
  generalize hk : TrapState.mk _ _ _ _ _ _ _ = k
  have h1 := fun f => (has_modStrand (slotWrite s p.u 0x400 bytes) p.u p.u f).2 hhas
  refine ⟨c, bytes, k, hbytes, (only_modStrand _ p.u _ _ hhas ?_).trans (openRegion_only _ p.u p.mask _ false (h1 _) _), ?_,
    by rw [← hk], by rw [← hk], by rw [← hk]⟩
  · exact trapStrand_sees _ _ _ _ _ _ _ (fun c hc => by rcases hc with rfl | rfl <;> rfl) rfl
  · refine (openRegion_quiet _ p.u p.mask _ false (h1 _)).agree.trap.trans ?_
    rw [strand_modStrand_self _ p.u _ hhas]
    rfl

/-- The frame that an instruction refused by the checks leaves, and what else its trap writes. -/
theorem trapAt_refused {i : Instr} {s : State} {u : Nat} {m : BitVec 32} {cause sub : Nat} (hs : s.has u) (hcause : cause < 256) (hsub : sub < 65536)
    (ht : (s.strand u).trap = none) (hv : (s.strand u).ctl.tvec ≠ 0) (hop : SlotOpen s u 0x400 256) :
    let start := byteOf ((s.strand u).startOf ((s.strand u).lowest m))
    let t := trapAt s (siteOf s u m i i.op i.fields) i.op i.fields i.uses { cause := cause, sub := sub, restart := some start }
    ∃ bytes k, (bytes.length = 256 ∧ field bytes 0 1 = cause ∧ field bytes 2 2 = sub ∧
        field bytes 4 4 = ((s.strand u).laneMask (maskBits m)).toNat ∧ field bytes 8 8 = byteOf (herePc i s u m) ∧ field bytes 32 8 = start) ∧
      Only Touch.trap (slotWrite s u 0x400 bytes) t u ∧
      (t.strand u).trap = some k ∧ k.frag = m ∧ k.cause = cause ∧ k.restart = BitVec.ofNat 64 start := by
  unfold trapAt
  dsimp only
  generalize frameSrcs _ _ _ _ _ _ = tags
  obtain ⟨c, bytes, k, hbytes, honly, htrap, hfrag, hk, hrestart⟩ := takeTrap_enters s (siteOf s u m i i.op i.fields)
    { cause := cause, sub := sub, restart := some (byteOf ((s.strand u).startOf ((s.strand u).lowest m))), tags := tags,
      uniform := isUniform i.op, untagged := ruleOf (s.strand u) i.op i.fields.tr == 5 } hs rfl ht hv hop
  refine ⟨bytes, k, ?_, honly.trans (stopRun_only _ _ _), htrap, hfrag, hk, hrestart⟩
  have hlen : bytes.length = 256 := by rw [hbytes]; exact length_frame _ _ _ _ _ _ _ _ _ _
  rw [hbytes] at hlen ⊢
  obtain ⟨f0, f2, f4, f8, _, f32, _⟩ := frame_fields _ _ _ _ _ _ _ _ _ _
  refine ⟨hlen, f0.trans (Nat.mod_eq_of_lt hcause), f2.trans (Nat.mod_eq_of_lt hsub), f4.trans (Nat.mod_eq_of_lt (BitVec.isLt _)),
    f8.trans (Nat.mod_eq_of_lt (byteOf_lt _)), f32.trans (Nat.mod_eq_of_lt (byteOf_lt _))⟩

/-- Settles O43. By R69 the checks come before execution; that RESTART is the region's start for a refused boundary too and that the frame
names all lanes of the fragment is the model's reading (log entries 19, 21 and 23, DEDUCED). -/
theorem registerChecksTrap : Obligations.RegisterChecksTrap := by
  unfold Obligations.RegisterChecksTrap
  refine ⟨fun i s u m cause sub hk hi hc ht hv hop => ?_, fun st i => checkFault_sys, fun st i hop hs => checkFault_ctl hop hs,
    fun st i h pre us f n hu hpre hx => hu ▸ checkFault_reg h hpre hx, fun regs q x => ⟨fun hsp hc => ?_, fun hsp hc hq => ?_, useFault_port regs q, fun h => ?_⟩⟩
  · obtain ⟨hcause, hsub⟩ := checkFault_range hc
    obtain ⟨bytes, k, hframe, honly, htrap, hfrag, hkcause, hrestart⟩ :=
      trapAt_refused (i := i) (m := m) (issuing_has s u m hi) (by omega : cause < 256) (by omega : sub < 65536) ht hv hop
    exact ⟨_, bytes, k, exec_refused hk hi hc, hframe, honly, htrap, hfrag, hkcause, hrestart⟩
  · simp [useFault, hsp, hc]
  · simp only [useFault, hsp, hc]
    rcases hq with hq | hq <;> simp [hq]
  · rw [useFault_register regs q h]
    refine ⟨fun h2 hodd => by simp [h2, hodd], fun h4 hmis => by simp [h4, hmis], fun h2 h4 => ?_⟩
    rw [if_neg (by omega), if_neg (by omega)]

end Sys2Proof.Machine
end

section
/-!
Integer arithmetic, logic, shifts and bit counts complete with the results of R126 (O1).
-/

namespace Sys2Proof.Machine

/-! ### Operations restated -/

theorem Binary.congr {i : Instr} {o : Alu} {f g : Word → Word → Word} (h : Binary i o f) (hfg : ∀ a b, f a b = g a b) : Binary i o g := by
  rw [← funext fun a => funext (hfg a)]
  exact h

theorem Ternary.congr {i : Instr} {o : Alu} {f g : Word → Word → Word → Word} (h : Ternary i o f) (hfg : ∀ a b c, f a b c = g a b c) :
    Ternary i o g := by
  rw [← funext fun a => funext fun b => funext (hfg a b)]
  exact h

/-- Without SAT a sum of signed operands is the sum modulo 2^w. -/
theorem opAdd_wraps {w : Nat} (a b : BitVec w) : opAdd false false a b = a + b := by
  unfold opAdd intResult intOf
  simp [BitVec.ofInt_add]

theorem opMin_eq {w : Nat} (z : Bool) (a b : BitVec w) : opMin z a b = if reading z a ≤ reading z b then a else b := by
  simp only [← Int.not_lt, ite_not]
  rfl

theorem opMax_eq {w : Nat} (z : Bool) (a b : BitVec w) : opMax z a b = if reading z b ≤ reading z a then a else b := by
  simp only [← Int.not_lt, ite_not]
  rfl

/-! ### Bit counts and reversal -/

theorem opPopc_toNat (a : Word) : (opPopc a).toNat = ((List.range 32).filter fun k => a.getLsbD k).length := by
  have hle : ((List.range 32).filter fun k => a.getLsbD k).length ≤ 32 := by
    simpa using List.length_filter_le (fun k => a.getLsbD k) (List.range 32)
  unfold opPopc
  rw [List.countP_eq_length_filter, BitVec.toNat_ofNat, Nat.mod_eq_of_lt (by omega)]

/-- How many of the numbers from `a` on, among `n`, come before the first that `p` rejects. -/
theorem takeWhile_range' (p : Nat → Bool) (a n : Nat) :
    let c := ((List.range' a n).takeWhile p).length
    c ≤ n ∧ (∀ k, k < c → p (a + k) = true) ∧ (c < n → p (a + c) = false) := by
  induction n generalizing a with
  | zero => simp
  | succ n ih =>
    obtain ⟨hle, hbefore, hat⟩ := ih (a + 1)
    rw [List.range'_succ, List.takeWhile_cons]
    cases ha : p a with
    | false => simpa using ha
    | true =>
      simp only [if_true, List.length_cons]
      refine ⟨by omega, fun k hk => ?_, fun hlt => ?_⟩
      · cases k with
        | zero => simpa using ha
        | succ k => simpa [Nat.add_assoc, Nat.add_comm 1] using hbefore k (by omega)
      · simpa [Nat.add_assoc, Nat.add_comm 1] using hat (by omega)

theorem opClz_spec (a : Word) :
    (∀ k, k < (opClz a).toNat → a.getLsbD (31 - k) = false) ∧ (opClz a).toNat ≤ 32 ∧
      ((opClz a).toNat < 32 → a.getLsbD (31 - (opClz a).toNat) = true) := by
  obtain ⟨hle, hbefore, hat⟩ := takeWhile_range' (fun i => !a.getLsbD (31 - i)) 0 32
  rw [← List.range_eq_range'] at hle hbefore hat
  have hn : (opClz a).toNat = ((List.range 32).takeWhile fun i => !a.getLsbD (31 - i)).length := by
    unfold opClz
    rw [BitVec.toNat_ofNat, Nat.mod_eq_of_lt (by omega)]
  rw [hn]
  exact ⟨fun k hk => by simpa using hbefore k hk, hle, fun hlt => by simpa using hat hlt⟩

/-- Bits set one by one: bit j of the result was set before or is the mirror of a bit that is set. -/
theorem getLsbD_mirror (a r : Word) (l : List Nat) (j : Nat) :
    (l.foldl (fun r i => if a.getLsbD i then r ||| BitVec.twoPow 32 (31 - i) else r) r).getLsbD j =
      (r.getLsbD j || l.any fun i => a.getLsbD i && (31 - i == j)) := by
  induction l generalizing r with
  | nil => simp
  | cons i l ih =>
    rw [List.foldl_cons, ih, List.any_cons]
    cases ha : a.getLsbD i
    · simp
    · have hmirror : 31 - i < 32 := by omega
      rw [if_pos rfl, BitVec.getLsbD_or, BitVec.getLsbD_twoPow, decide_eq_true hmirror, Bool.true_and, Bool.true_and, Bool.or_assoc]
      rfl

theorem opBrev_getLsbD (a : Word) (k : Nat) (hk : k < 32) : (opBrev a).getLsbD (31 - k) = a.getLsbD k := by
  unfold opBrev
  rw [getLsbD_mirror, show BitVec.getLsbD (0 : Word) (31 - k) = false from BitVec.getLsbD_zero, Bool.false_or, Bool.eq_iff_iff, List.any_eq_true]
  refine ⟨fun ⟨i, hi, h⟩ => ?_, fun h => ⟨k, List.mem_range.2 hk, by simp [h]⟩⟩
  rw [List.mem_range] at hi
  simp only [Bool.and_eq_true, beq_iff_eq] at h
  obtain ⟨ha, he⟩ := h
  rwa [show k = i by omega]

/-! ### The instructions -/

/-- Settles O1: each instruction is `alu1`, `alu2` or `alu3` of its operation, and the operation is the one that the row of R126 gives. -/
theorem integerInstructionsGiveTheirResults : Obligations.IntegerInstructionsGiveTheirResults := by
  unfold Obligations.IntegerInstructionsGiveTheirResults
  have hclamp : ∀ (z sat : Bool) (e : Int), intResult 32 z sat e = clamped z sat 32 e := intResult_clamped 32 (by decide)
  refine ⟨fun o => ⟨?_, ?_, ?_, ?_, ?_, ?_, ?_, ?_⟩, fun o => ⟨⟨?_, ?_, ?_, ?_, ?_, ?_, ?_, ?_, ?_, ?_, ?_⟩, fun q => ?_⟩⟩
  · exact (alu2_spec _ o _ fun _ => rfl).congr fun _ _ => hclamp _ _ _
  · exact (alu2_spec _ o _ fun _ => rfl).congr fun _ _ => hclamp _ _ _
  · exact (alu2_spec _ o _ fun _ => rfl).congr fun _ _ => hclamp _ _ _
  · exact (alu3_spec _ o _ fun _ => rfl).congr fun _ _ _ => hclamp _ _ _
  · exact alu2_spec _ o (opMulh o.z) fun _ => rfl
  · exact (alu2_spec _ o _ fun _ => rfl).congr (opMin_eq o.z)
  · exact (alu2_spec _ o _ fun _ => rfl).congr (opMax_eq o.z)
  · exact (alu2_spec _ o _ fun _ => rfl).congr opAdd_wraps
  · exact alu2_spec _ o _ fun _ => rfl
  · exact alu2_spec _ o _ fun _ => rfl
  · exact alu2_spec _ o _ fun _ => rfl
  · exact alu2_spec _ o _ fun _ => rfl
  · exact alu2_spec _ o _ fun _ => rfl
  · exact (alu2_spec _ o _ fun _ => rfl).congr fun a b => opShl_eq a b.toNat
  · exact (alu2_spec _ o _ fun _ => rfl).congr fun a b => opShr_eq a b.toNat
  · exact (alu2_spec _ o _ fun _ => rfl).congr fun a b => opSar_eq a b.toNat
  · exact alu2_spec _ o (fun a b => opRot a b.toNat) fun _ => rfl
  · exact (alu2_spec _ o _ fun _ => rfl).congr fun a b => opShl_eq a b.toNat
  · exact (alu2_spec _ o _ fun _ => rfl).congr fun a b => opShr_eq a b.toNat
  · refine ⟨opPopc, opClz, opBrev, alu1_spec _ q _ fun _ => rfl, alu1_spec _ q _ fun _ => rfl, alu1_spec _ q _ fun _ => rfl, fun a => ?_⟩
    obtain ⟨hbefore, hle, hat⟩ := opClz_spec a
    exact ⟨opPopc_toNat a, hbefore, hle, hat, opBrev_getLsbD a⟩

end Sys2Proof.Machine
end

section
/-!
Moves, selection and address formation (O2), and the vector instructions that write predicates (O3).
-/

namespace Sys2Proof.Machine

/-! ### Results from operands -/

section
variable {i : Instr} {s : State} {u : Nat} {m : BitVec 32} {body : Cx → State → Eff}

/-- An instruction whose lanes give words made from clean operands, without flags. -/
theorem vec_of_operands (d n fmt : Nat) (ws : Nat → List Word) (ops : Nat → List Opd) (h : Ready i s u m)
    (hx : ∀ s', exec i s' = issue i s' body) (hlen : ∀ j, (ws j).length = n) (hops : ∀ j, ∀ o ∈ ops j, o.poison = false)
    (hb : body (contextOf i s u m) (entered i s u m) = finishLanes (entered i s u m) (contextOf i s u m) d fmt false
      ((acting i s u m).map fun j => (j, laneRes (ws j) 0 none (ops j)))) :
    VecResult i s u m d n ws fun j => plainTag i s u m ((ops j).map (·.tag)) :=
  vec_plain i s u m d n fmt body (fun j => laneRes (ws j) 0 none (ops j)) h hb
    (fun j _ => by
      obtain ⟨hev, hfl, hpoison, hw⟩ := laneRes_plain (ws j) (ops j) (hops j)
      exact ⟨hev, hfl, hpoison, hw.trans (hlen j)⟩) hx

/-- A comparison lane by lane, of operands without poison. -/
theorem pred_of_lanes (d : Nat) (f q : Nat → Bool) (h : Ready i s u m) (hx : ∀ s', exec i s' = issue i s' body) (hq : ∀ j, q j = false)
    (hb : body (contextOf i s u m) (entered i s u m) =
      let rs := (acting i s u m).map fun j => (j, f j, q j)
      finishPreds (entered i s u m) (contextOf i s u m) d (rs.map fun r => (r.1, r.2.1)) (rs.any (·.2.2))) :
    PredResult i s u m d f := by
  refine pred_plain i s u m d body f h hx (hb.trans ?_)
  have hany : ((acting i s u m).map fun j => (j, f j, q j)).any (·.2.2) = false := by
    rw [List.any_map, List.any_eq_false]
    intro j _
    simp [hq j]
  dsimp only
  rw [hany, List.map_map]
  rfl

end

/-! ### Moves, SEL and LEA -/

theorem movs_spec (o : MovsOp) {s : State} {u : Nat} {m : BitVec 32} (h : Ready (.movs o) s u m) (hc : (s.strand u).clean) :
    VecResult (.movs o) s u m o.d 1 (fun _ => [(s.sreg u o.b).val]) fun _ => plainTag (.movs o) s u m [(s.sreg u o.b).tag] := by
  obtain ⟨hw, ht⟩ := readS_one s u o.b hc
  rw [← hw, ← ht]
  refine vec_of_operands o.d 1 0 _ (fun _ => [(s.strand u).readS o.b 1]) h (fun _ => rfl) (fun _ => rfl) (fun _ => ?_) ?_
  · simpa using readS_clean _ hc o.b 1
  · dsimp only
    rw [contextOf_u, h.agree.readS]
    rfl

theorem movl_spec (o : MovlOp) {s : State} {u : Nat} {m : BitVec 32} (h : Ready (.movl o) s u m) :
    VecResult (.movl o) s u m o.d (if o.wide then 2 else 1) (fun _ => wordsOfNat (if o.wide then 2 else 1) o.lit.toNat)
      fun _ => plainTag (.movl o) s u m [0] :=
  vec_of_operands o.d _ 0 _ (fun _ => [{ words := wordsOfNat (if o.wide then 2 else 1) o.lit.toNat }]) h (fun _ => rfl)
    (fun _ => by simp [wordsOfNat]) (fun _ => by simp) rfl

theorem sel_spec (o : SelOp) {s : State} {u : Nat} {m : BitVec 32} (h : Ready (.sel o) s u m) (hc : (s.strand u).clean) :
    let x (j : Nat) : Opd := if s.pred u j o.p then vOpd (.sel o) s u m j o.a 1 else srcOpd (.sel o) s u m j o.b 1
    VecResult (.sel o) s u m o.d 1 (fun j => [(x j).w]) fun j => plainTag (.sel o) s u m [(x j).tag] := by
  intro x
  refine vec_of_operands o.d 1 0 _ (fun j => [x j]) h (fun _ => rfl) (fun _ => rfl) (fun j => ?_) ?_
  · have hx : (x j).poison = false := by
      unfold x
      split
      · exact v_clean _ _ hc _ _ _
      · exact src_clean _ _ hc _ _ _
    simpa using hx
  · refine congrArg (finishLanes _ _ _ _ _) (List.map_congr_left fun j _ => ?_)
    simp only [contextOf_u, h.agree.cxv, h.agree.cxsrc, h.agree.p]
    rfl

theorem lea_spec (o : LeaOp) {s : State} {u : Nat} {m : BitVec 32} (h : Ready (.lea o) s u m) (hc : (s.strand u).clean) :
    let base := (s.strand u).readS o.b 2
    let a (j : Nat) := vOpd (.lea o) s u m j o.a 1
    VecResult (.lea o) s u m o.d 2 (fun j => wordsOfNat 2 (leaOf base.d (a j).w o.sc o.disp).toNat)
      fun j => plainTag (.lea o) s u m [(a j).tag, base.tag] := by
  intro base a
  refine vec_of_operands o.d 2 1 _ (fun j => [a j, base]) h (fun _ => rfl) (fun _ => by simp [wordsOfNat]) (fun j => ?_) ?_
  · simpa using ⟨v_clean _ _ hc _ _ _, readS_clean _ hc _ _⟩
  · refine congrArg (finishLanes _ _ _ _ _) (List.map_congr_left fun j _ => ?_)
    simp only [contextOf_u, h.agree.cxv, h.agree.readS]
    rfl

/-- Settles O2: the lanes' words are those of `movs_spec`, `movl_spec`, `sel_spec` and `lea_spec`, written as the rows of R127 to R130 do. -/
theorem movesSelectAndLea : Obligations.MovesSelectAndLea := by
  unfold Obligations.MovesSelectAndLea
  refine ⟨fun o => alu1_spec _ o id fun _ => rfl, fun o s u m h hc => movs_spec o h hc, fun o s u m h _ => ?_, fun o s u m h hc => ?_,
    fun o s u m h hc => ?_⟩
  · refine (movl_spec o h).congr (fun _ => ?_) fun _ => rfl
    split
    · exact wordsOf2 o.lit
    · exact wordsOf1 o.lit
  · exact (sel_spec o h hc).congr (fun j => by rw [apply_ite Opd.w]) fun j => by rw [apply_ite Opd.tag]
  · exact (lea_spec o h hc).congr (fun j => by rw [leaOf_eq, wordsOf2]) fun _ => rfl

/-! ### Instructions that write predicates -/

theorem lop_eq (fn : Nat) (a b : Bool) : lop fn a b = fn.testBit (2 * bit a + bit b) := by
  unfold lop
  rw [Nat.testBit_eq_decide_div_mod_eq]
  rfl

theorem icmp_spec (o : CmpOp) {s : State} {u : Nat} {m : BitVec 32} (h : Ready (.icmp o) s u m) (hc : (s.strand u).clean) :
    PredResult (.icmp o) s u m o.d fun j => icmp o.cond (vOpd (.icmp o) s u m j o.a 1).w (srcOpd (.icmp o) s u m j o.b 1).w := by
  refine pred_of_lanes o.d _ (fun j => (vOpd (.icmp o) s u m j o.a 1).poison || (srcOpd (.icmp o) s u m j o.b 1).poison) h (fun _ => rfl)
    (fun j => ?_) ?_
  · exact Bool.or_eq_false_iff.2 ⟨v_clean _ _ hc _ _ _, src_clean _ _ hc _ _ _⟩
  · simp only [contextOf_u, h.agree.cxv, h.agree.cxsrc]
    rfl

theorem fcmp_spec (o : CmpOp) {s : State} {u : Nat} {m : BitVec 32} (h : Ready (.fcmp o) s u m) (hc : (s.strand u).clean) :
    let f : Fmt := if o.dbl then .f64 else .f32
    let n := if o.dbl then 2 else 1
    PredResult (.fcmp o) s u m o.d fun j => fcmp o.cond (f.input (s.strand u).ftz (vOpd (.fcmp o) s u m j o.a n).val)
      (f.input (s.strand u).ftz (srcOpd (.fcmp o) s u m j o.b n).val) := by
  intro f n
  refine pred_of_lanes o.d _ (fun j => (vOpd (.fcmp o) s u m j o.a n).poison || (srcOpd (.fcmp o) s u m j o.b n).poison) h (fun _ => rfl)
    (fun j => ?_) ?_
  · exact Bool.or_eq_false_iff.2 ⟨v_clean _ _ hc _ _ _, src_clean _ _ hc _ _ _⟩
  · simp only [contextOf_u, h.agree.cxv, h.agree.cxsrc, h.agree.ftz]
    rfl

theorem fclass_spec (o : FclassOp) {s : State} {u : Nat} {m : BitVec 32} (h : Ready (.fclass o) s u m) (hc : (s.strand u).clean) :
    let a (j : Nat) := vOpd (.fclass o) s u m j o.a (if o.dbl then 2 else 1)
    PredResult (.fclass o) s u m o.d fun j =>
      Nat.land (classBits (if o.dbl then .f64 else .f32) (s.strand u).ftz (a j).val (a j).tag) o.mask != 0 := by
  intro a
  refine pred_of_lanes o.d _ (fun j => (a j).poison) h (fun _ => rfl) (fun j => v_clean _ _ hc _ _ _) ?_
  simp only [contextOf_u, h.agree.cxv, h.agree.ftz]
  rfl

theorem plop_spec (o : LopOp) {s : State} {u : Nat} {m : BitVec 32} (h : Ready (.plop o) s u m) :
    PredResult (.plop o) s u m o.d fun j => lop o.fn (s.pred u j o.a) (s.pred u j o.b) := by
  refine pred_plain _ s u m o.d _ _ h (fun _ => rfl) ?_
  simp only [contextOf_u, h.agree.p]
  rfl

/-- Settles O3: the conditions of R128 are those of `icmp` and `fcmp`; FN of R154 is looked up at 2a + b. -/
theorem comparesWritePredicates : Obligations.ComparesWritePredicates := by
  unfold Obligations.ComparesWritePredicates
  refine ⟨fun o s u m h hc => icmp_spec o h hc, fun o s u m h hc => fcmp_spec o h hc, fun o s u m h hc => fclass_spec o h hc, fun o s u m h => ?_⟩
  simp only [← lop_eq]
  exact plop_spec o h

end Sys2Proof.Machine
end

section
/-!
Values of other lanes (O4), and the identity values and the generator (O5).
-/

namespace Sys2Proof.Machine

/-! ### SHFL -/

theorem Agree.place {a b : Strand} (h : Agree a b) (j : Nat) : Machine.place b j = Machine.place a j := by
  unfold Machine.place
  rw [h.prot, h.lane]

/-- The thread whose word SHFL gives thread `j`, by its mode and the amount (R131): `j` itself where there is none. -/
def shflSource (mode : Nat) (st : Strand) (amt : Word) (j : Nat) : Nat :=
  ((shflFrom mode (place st j) (amt.toNat % 32)).bind fun k => (st.byLane st.liveMask).find? fun t => place st t == k).getD j

theorem Agree.shflSource {a b : Strand} (h : Agree a b) (mode : Nat) (amt : Word) (j : Nat) :
    Machine.shflSource mode b amt j = Machine.shflSource mode a amt j := by
  unfold Machine.shflSource
  simp only [h.place, h.byLane, h.liveMask]

theorem shfl_spec (o : ShflOp) {s : State} {u : Nat} {m : BitVec 32} (h : Ready (.shfl o) s u m) (hc : (s.strand u).clean) :
    let source (j : Nat) : Nat := shflSource o.mode (s.strand u) (srcOpd (.shfl o) s u m j o.amt 1).w j
    VecResult (.shfl o) s u m o.d 1 (fun j => [(vOpd (.shfl o) s u m (source j) o.a 1).w])
      fun j => plainTag (.shfl o) s u m [(vOpd (.shfl o) s u m (source j) o.a 1).tag] := by
  intro source
  let a (j : Nat) : Opd := vOpd (.shfl o) s u m (source j) o.a 1
  let amt (j : Nat) : Opd := srcOpd (.shfl o) s u m j o.amt 1
  have hpoison : ∀ j, ((a j).poison || (amt j).poison) = false := fun j =>
    Bool.or_eq_false_iff.2 ⟨v_clean _ _ hc _ _ _, src_clean _ _ hc _ _ _⟩
  refine vec_plain _ s u m o.d 1 0 _
    (fun j => { laneRes [(a j).w] 0 none [a j] with listed := recordTags [a j, amt j], poison := (a j).poison || (amt j).poison })
    h ?_ (fun j _ => ⟨by unfold LaneRes.event; rw [hpoison j]; rfl, rfl, hpoison j, rfl⟩) fun _ => rfl
  refine congrArg (finishLanes _ _ _ _ _) (List.map_congr_left fun j _ => ?_)
  simp only [contextOf_u, h.agree.cxv, h.agree.cxsrc, h.agree.place, h.agree.byLane, h.agree.liveMask]
  rfl

/-! ### SCAN -/

/-- The poison that results written in the frame of R122 report is that of their lanes. -/
theorem finishLanes_poison {s t : State} {cx : Cx} {d fmt : Nat} {draw p : Bool} {rs : List (Nat × LaneRes)}
    (h : finishLanes s cx d fmt draw rs = .done t p) : p = rs.any (·.2.poison) := by
  unfold finishLanes orFpTrap at h
  dsimp only at h
  split at h
  · cases h
  · injection h with _ hp
    exact hp.symm

/-- SCAN's lanes, from what each scans in the state before the instruction. -/
theorem scanLanes_entered (o : ScanOp) {i : Instr} {s : State} {u : Nat} {m : BitVec 32} (h : Ready i s u m) :
    ∃ first : Nat → Bool, scanLanes (contextOf i s u m) o.op o.excl (((entered i s u m).strand u).rnd o.rm 0 0) ((entered i s u m).strand u) o.a
        (acting i s u m) {} false =
      (acting i s u m).map fun j => (j, prefixRes (contextOf i s u m) o.op (scanPrefix i o s u m j) (first j)) := by
  obtain ⟨first, hf⟩ := scanLanes_spec (contextOf i s u m) o.op o.excl (((entered i s u m).strand u).rnd o.rm 0 0)
    ((entered i s u m).strand u) o.a (acting i s u m) (acting_nodup i s u m) {} false
  refine ⟨first, hf.trans (List.map_congr_left fun j _ => ?_)⟩
  simp only [h.agree.cxv, h.agree.rnd]
  rfl

/-- SCAN gives each thread what it scans; the tag chosen across the lanes is the one that the rule picks from all the tags scanned (R112). -/
theorem scan_spec (o : ScanOp) {s : State} {u : Nat} {m : BitVec 32} (h : Ready (.scan o) s u m) (hc : (s.strand u).clean)
    (hsr : ¬(o.op = 1 ∧ draws s u o.rm)) :
    let p := scanPrefix (.scan o) o s u m
    FpResult (.scan o) s u m o.d 1 false (fun j => [(p j).val.getD (scanIdentity o.op)]) (fun j => (p j).flags)
      fun j => plainTag (.scan o) s u m (p j).tags := by
  intro p
  obtain ⟨first, hlanes⟩ := scanLanes_entered o h
  let f (j : Nat) : LaneRes := prefixRes (contextOf (.scan o) s u m) o.op (p j) (first j)
  refine (fp_lanes _ s u m o.d 1 (if o.op = 1 then 2 else 0) false _ f h ?_ (fun _ _ => ⟨rfl, rfl⟩) fun _ => rfl).congr
    (fun _ => rfl) (fun _ => rfl) fun j => ?_
  · have hmode : ¬(o.op = 1 ∧ ((entered (.scan o) s u m).strand u).rmEff o.rm = 6) := by
      rw [h.agree.rmEff]
      simpa [draws] using hsr
    have hread : ((acting (.scan o) s u m).any fun j =>
        ((contextOf (.scan o) s u m).v ((entered (.scan o) s u m).strand u) j o.a 1).poison) = false := by
      rw [List.any_eq_false]
      intro j _
      rw [h.agree.cxv, v_clean _ _ hc]
      decide
    have hresult : ((acting (.scan o) s u m).map fun j => (j, f j)).any (·.2.poison) = false := by
      rw [List.any_map, List.any_eq_false]
      intro j _
      exact Bool.false_ne_true
    dsimp only
    rw [contextOf_u, contextOf_act, if_neg hmode, hlanes, hread]
    cases hfin : finishLanes (entered (.scan o) s u m) (contextOf (.scan o) s u m) o.d (if o.op = 1 then 2 else 0) false
        ((acting (.scan o) s u m).map fun j => (j, f j)) with
    | done t q => rw [finishLanes_poison hfin, hresult]
    | _ => rfl
  · show plainTag _ s u m [tagPick _ _ _] = _
    unfold plainTag
    rw [tagPick_idem]

/-- Settles O4: SHFL reads the thread `shflSource` (`shfl_spec`), SCAN combines the operands up to it (`scan_spec`). -/
theorem shuffleAndScan : Obligations.ShuffleAndScan := by
  unfold Obligations.ShuffleAndScan
  exact ⟨fun o s u m h hc => shfl_spec o h hc, fun o s u m h hc hsr => scan_spec o h hc hsr⟩

/-! ### Identity values -/

/-- The identity values read what entering an instruction leaves alone (R51). -/
theorem Quiet.identity {u : Nat} {s t : State} (h : Quiet u s t) {cx : Cx} (hu : cx.u = u) (j sel : Nat) :
    Machine.identity t cx j sel = Machine.identity s cx j sel := by
  obtain ⟨hskein, hidx, hsid, hcore, hpart, hslot, -⟩ := h.agree.ids
  unfold Machine.identity skeinIndex State.launch
  rw [hu]
  simp only [h.beside.launches, h.beside.skeins, h.agree.launch, h.agree.lane, h.agree.liveMask, hskein, hidx, hsid, hcore, hpart, hslot]

theorem sread_spec (o : SreadOp) {s : State} {u : Nat} {m : BitVec 32} (h : Ready (.sread o) s u m) :
    let n := identityWords o.sel
    let words (j : Nat) : List Word := wordsOfNat n (identity s (contextOf (.sread o) s u m) j o.sel)
    (o.u = false → VecResult (.sread o) s u m o.d n words fun _ => 0) ∧ (o.u = true → UniResult (.sread o) s u m o.d n (words 0) 0) := by
  intro n words
  have hid : ∀ j, identity (entered (.sread o) s u m) (contextOf (.sread o) s u m) j o.sel = identity s (contextOf (.sread o) s u m) j o.sel :=
    fun j => h.quiet.identity rfl j o.sel
  have hlen : ∀ j, (words j).length = n := fun j => by simp [words, wordsOfNat]
  refine ⟨fun hu => vec_write _ s u m o.d n _ words _ h (fun _ => rfl) (fun j _ => hlen j) ?_,
    fun hu => uni_write _ s u m o.d n _ (words 0) 0 h (fun _ => rfl) (hlen 0) ?_⟩
  · dsimp only
    rw [hu]
    simp only [hid]
    rfl
  · dsimp only
    rw [hu]
    simp only [hid]
    rfl

/-! ### RAND -/

theorem rand_spec (o : RandOp) {s : State} {u : Nat} {m : BitVec 32} (h : Ready (.rand o) s u m) :
    FpResult (.rand o) s u m o.d 1 true (fun j => [randWord o.f (gen (s.creg u 5) (s.creg u 6) ((s.strand u).thread j).lane)]) (fun _ => 0)
      fun _ => plainTag (.rand o) s u m [] := by
  obtain ⟨-, -, -, hgenk, hgenc, -⟩ := h.agree.ctls
  refine fp_lanes _ s u m o.d 1 (if o.f then 2 else 0) true _
    (fun j => laneRes [randWord o.f (gen (s.creg u 5) (s.creg u 6) ((s.strand u).thread j).lane)] 0 none []) h ?_ (fun _ _ => ⟨rfl, rfl⟩)
    fun _ => rfl
  dsimp only
  simp only [contextOf_u, hgenk, hgenc, h.agree.lane]
  rfl

/-- Settles O5: SREAD by `sread_spec`, RAND by `rand_spec`. -/
theorem identityAndGeneratorReads : Obligations.IdentityAndGeneratorReads := by
  unfold Obligations.IdentityAndGeneratorReads
  exact ⟨fun o s u m h => sread_spec o h, fun o s u m h => rand_spec o h⟩

end Sys2Proof.Machine
end

section
/-!
FP32, FP64 and packed arithmetic (O6, O7).
-/

namespace Sys2Proof.Machine

/-! ### Floating-point lanes -/

/-- A floating-point instruction lane by lane, where entering it changes neither what its lanes do nor their operands. -/
theorem fpLanes_spec {i : Instr} {s : State} {u : Nat} {m : BitVec 32} (d n fmt rm : Nat) (ops : Cx → Strand → Nat → List Opd)
    (lane : Strand → Nat → List Opd → LaneRes) (h : Ready i s u m) (hx : ∀ s', exec i s' = issue i s' (fpLanes d fmt rm ops lane))
    (hops : ∀ j, ops (contextOf i s u m) ((entered i s u m).strand u) j = ops (contextOf i s u m) (s.strand u) j)
    (hlane : ∀ l xs, lane ((entered i s u m).strand u) l xs = lane (s.strand u) l xs)
    (hf : ∀ j, (lane (s.strand u) ((s.strand u).thread j).lane (ops (contextOf i s u m) (s.strand u) j)).poison = false ∧
      (lane (s.strand u) ((s.strand u).thread j).lane (ops (contextOf i s u m) (s.strand u) j)).words.length = n) :
    let r (j : Nat) : LaneRes := lane (s.strand u) ((s.strand u).thread j).lane (ops (contextOf i s u m) (s.strand u) j)
    FpResult i s u m d n (draws s u rm) (fun j => (r j).words) (fun j => (r j).flags) fun j => plainTag i s u m (r j).srcs := by
  intro r
  refine fp_lanes i s u m d n fmt (draws s u rm) _ r h ?_ (fun j _ => hf j) hx
  unfold fpLanes
  dsimp only
  simp only [contextOf_u, contextOf_act, h.agree.rmEff, h.agree.lane, hops, hlane]
  rfl

/-! ### FP32 -/

theorem fscl_spec (o : Alu) {s : State} {u : Nat} {m : BitVec 32} (h : Ready (.fscl o) s u m) (hc : (s.strand u).clean) :
    let a (j : Nat) := vOpd (.fscl o) s u m j o.a 1
    let b (j : Nat) := srcOpd (.fscl o) s u m j o.b 1
    let r (j : Nat) : FpOut := fpApply .f32 (roundOf s u j o.rm 0) (fun _ xs => (fscl (b j).w.toInt (xs.getD 0 .nan), false, false)) [(a j).val]
    FpResult (.fscl o) s u m o.d 1 (draws s u o.rm) (fun j => [BitVec.ofNat 32 (r j).pat]) (fun j => (r j).flags)
      fun j => plainTag (.fscl o) s u m [(a j).tag, (b j).tag] := by
  refine fpLanes_spec o.d 1 2 o.rm (ops2 o 1) _ h (fun _ => rfl) (fun j => ?_) (fun l xs => ?_) fun j => ⟨?_, rfl⟩
  · unfold ops2
    rw [h.agree.cxv, h.agree.cxsrc]
  · dsimp only
    rw [h.agree.rnd]
  · exact List.any_eq_false.2 (by simpa [ops2] using ⟨v_clean _ _ hc _ _ _, src_clean _ _ hc _ _ _⟩)

theorem frnd_spec (o : Un) {s : State} {u : Nat} {m : BitVec 32} (h : Ready (.frnd o) s u m) (hc : (s.strand u).clean) :
    let a (j : Nat) := vOpd (.frnd o) s u m j o.a 1
    let r (j : Nat) : Ex × Bool := frnd (roundOf s u j o.rm 0) (Fmt.f32.input (s.strand u).ftz (a j).val)
    FpResult (.frnd o) s u m o.d 1 (draws s u o.rm) (fun j => [BitVec.ofNat 32 (roundTo .f32 {} (r j).1).1])
      (fun j => 16 * bit (r j).2) fun j => plainTag (.frnd o) s u m [(a j).tag] := by
  refine fpLanes_spec o.d 1 2 o.rm (ops1 o) _ h (fun _ => rfl) (fun j => ?_) (fun l xs => ?_) fun j => ⟨?_, rfl⟩
  · unfold ops1
    rw [h.agree.cxv]
  · dsimp only
    rw [h.agree.rnd]
  · exact List.any_eq_false.2 (by simpa [ops1] using v_clean _ _ hc _ _ _)

/-- Settles O6: FMIN and FMAX choose (`minmax_spec`), FSCL and FRND have lanes of their own, and every other instruction rounds the result
of its operation once (`fp1_spec`, `fp2_spec`, `fp3_spec`). -/
theorem singlePrecision : Obligations.SinglePrecision := by
  unfold Obligations.SinglePrecision
  refine ⟨⟨fun o => ⟨?_, ?_, ?_, ?_, ?_⟩, fun o => ⟨?_, ?_, ?_, ?_, ?_, ?_, ?_⟩⟩, fun o max s u m h hc => ?_, fun o s u m h hc => fscl_spec o h hc,
    fun o s u m h hc => ?_⟩
  · exact fp2_spec _ .f32 1 2 o opFadd rfl fun _ => rfl
  · exact fp2_spec _ .f32 1 2 o opFsub rfl fun _ => rfl
  · exact fp2_spec _ .f32 1 2 o opFmul rfl fun _ => rfl
  · exact fp3_spec _ .f32 1 2 o opFfma rfl fun _ => rfl
  · exact fp2_spec _ .f32 1 2 o opFdiv rfl fun _ => rfl
  · exact fp1_spec _ o opFsqrt fun _ => rfl
  · exact fp1_spec _ o opFrcp fun _ => rfl
  · exact fp1_spec _ o opFrsq fun _ => rfl
  · exact fp1_spec _ o opFex2 fun _ => rfl
  · exact fp1_spec _ o opFlg2 fun _ => rfl
  · exact fp1_spec _ o opFsin fun _ => rfl
  · exact fp1_spec _ o opFcos fun _ => rfl
  · exact minmax_spec max o _ (by cases max <;> exact fun _ => rfl) s u m h hc
  · refine (frnd_spec o h hc).congr (fun _ => rfl) (fun j => ?_) fun _ => rfl
    rw [bit, mul_ite, Nat.mul_one, Nat.mul_zero]

/-! ### FP64 and packed arithmetic -/

/-- Settles O7: `fp2_spec` and `fp3_spec` at FP64 over pairs, `pk2` and `pk3` at FP16 and BF16. -/
theorem doubleAndPackedArithmetic : Obligations.DoubleAndPackedArithmetic := by
  unfold Obligations.DoubleAndPackedArithmetic
  refine fun o => ⟨⟨?_, ?_, ?_⟩, ⟨?_, ?_, ?_⟩, ?_, ?_, ?_⟩
  · exact fp2_spec _ .f64 2 3 o opFadd rfl fun _ => rfl
  · exact fp2_spec _ .f64 2 3 o opFmul rfl fun _ => rfl
  · exact fp3_spec _ .f64 2 3 o opFfma rfl fun _ => rfl
  · exact pk2 _ .f16 4 o opFadd fun _ => rfl
  · exact pk2 _ .f16 4 o opFmul fun _ => rfl
  · exact pk3 _ .f16 4 o opFfma fun _ => rfl
  · exact pk2 _ .bf16 5 o opFadd fun _ => rfl
  · exact pk2 _ .bf16 5 o opFmul fun _ => rfl
  · exact pk3 _ .bf16 5 o opFfma fun _ => rfl

end Sys2Proof.Machine
end

section
/-!
CVT (O8), the narrow dot products (O9) and the weight update (O10).
-/

namespace Sys2Proof.Machine

/-! ### CVT -/

/-- What CVT reads in thread `j`: the source, the scales of an N4 format, and the old destination of a narrow result. -/
def cvtSrc (o : CvtOp) (cx : Cx) (st : Strand) (j : Nat) : Opd := cx.v st j o.a (if fmtWidth o.sf = 64 then 2 else 1)
def cvtScales (o : CvtOp) (cx : Cx) (st : Strand) (j : Nat) : Opd := if o.sf == 14 || o.df == 14 then cx.v st j o.c 1 else {}
def cvtOld (o : CvtOp) (st : Strand) (j : Nat) : Opd := if fmtWidth o.df < 32 then (st.thread j).readV o.d 1 else {}

/-- The converted element of thread `j`. -/
def cvtOut (o : CvtOp) (cx : Cx) (st : Strand) (j : Nat) : FpOut :=
  cvtElem o.sf o.df (fld (cvtSrc o cx st j).val (fmtWidth o.sf * o.se) (fmtWidth o.sf)) (fld (cvtScales o cx st j).w.toNat (8 * o.sb) 8) o.sat
    (st.rnd o.rm (st.thread j).lane 0)

/-- The destination's words in thread `j`: a narrow element replaces element DE of the old word. -/
def cvtWords (o : CvtOp) (cx : Cx) (st : Strand) (j : Nat) : List Word :=
  let old := (cvtOld o st j).w.toNat
  let at_ := fmtWidth o.df * o.de
  wordsOfNat (if fmtWidth o.df = 64 then 2 else 1)
    (if fmtWidth o.df < 32 then old - fld old at_ (fmtWidth o.df) * 2 ^ at_ + (cvtOut o cx st j).pat * 2 ^ at_ else (cvtOut o cx st j).pat)

def cvtLane (o : CvtOp) (cx : Cx) (st : Strand) (j : Nat) : LaneRes :=
  { laneRes (cvtWords o cx st j) (cvtOut o cx st j).flags (cvtOut o cx st j).ev [cvtSrc o cx st j] with
    poison := (cvtSrc o cx st j).poison || (cvtScales o cx st j).poison || (cvtOld o st j).poison }

theorem Agree.cvtLane {a b : Strand} (h : Agree a b) (o : CvtOp) (cx : Cx) (j : Nat) : Machine.cvtLane o cx b j = Machine.cvtLane o cx a j := by
  unfold Machine.cvtLane cvtWords cvtOut cvtSrc cvtScales cvtOld
  simp only [h.cxv, h.readV, h.rnd, h.lane]

theorem cvtLane_clean (o : CvtOp) (cx : Cx) {st : Strand} (hc : st.clean = true) (j : Nat) : (cvtLane o cx st j).poison = false := by
  have hsrc : (cvtSrc o cx st j).poison = false := v_clean _ _ hc _ _ _
  have hscales : (cvtScales o cx st j).poison = false := by
    unfold cvtScales
    split
    · exact v_clean _ _ hc _ _ _
    · rfl
  have hold : (cvtOld o st j).poison = false := by
    unfold cvtOld
    split
    · exact readV_clean _ hc _ _ _
    · rfl
  unfold cvtLane
  rw [hsrc, hscales, hold]
  rfl

theorem cvtScales_byte (o : CvtOp) (cx : Cx) (st : Strand) (j : Nat) :
    fld (cvtScales o cx st j).w.toNat (8 * o.sb) 8 =
      if o.sf = 14 ∨ o.df = 14 then (cx.v st j o.c 1).w.toNat / 2 ^ (8 * o.sb) % 2 ^ 8 else 0 := by
  unfold cvtScales
  by_cases h14 : o.sf = 14 ∨ o.df = 14
  · rw [if_pos (by simpa using h14), if_pos h14]
    rfl
  · rw [if_neg (by simpa using h14), if_neg h14]
    simp [fld, Opd.w]

theorem cvt_spec (o : CvtOp) {s : State} {u : Nat} {m : BitVec 32} (h : Ready (.cvt o) s u m) (hc : (s.strand u).clean)
    (hsr : ¬(o.df = 14 ∧ draws s u o.rm)) :
    let lane (j : Nat) : LaneRes := cvtLane o (contextOf (.cvt o) s u m) (s.strand u) j
    FpResult (.cvt o) s u m o.d (if fmtWidth o.df = 64 then 2 else 1) (draws s u o.rm && !(fmtIsInt o.sf && fmtIsInt o.df))
      (fun j => (lane j).words) (fun j => (lane j).flags) fun j => plainTag (.cvt o) s u m (lane j).srcs := by
  intro lane
  refine fp_lanes _ s u m o.d _ (birthFmt o.df) _ _ lane h ?_ (fun j _ => ⟨cvtLane_clean o _ hc j, ?_⟩) fun _ => rfl
  · have hmode : ¬(o.df = 14 ∧ (((entered (.cvt o) s u m).strand u).rmEff o.rm == 6 && !(fmtIsInt o.sf && fmtIsInt o.df)) = true) := by
      rw [h.agree.rmEff]
      exact fun hd => hsr ⟨hd.1, (Bool.and_eq_true_iff.1 hd.2).1⟩
    have hlanes : ((acting (.cvt o) s u m).map fun j => (j, cvtLane o (contextOf (.cvt o) s u m) ((entered (.cvt o) s u m).strand u) j)) =
        (acting (.cvt o) s u m).map fun j => (j, lane j) := List.map_congr_left fun j _ => by rw [h.agree.cvtLane]
    refine (if_neg hmode).trans ?_
    rw [← hlanes]
    unfold draws
    rw [← h.agree.rmEff]
    rfl
  · show (wordsOfNat _ _).length = _
    simp [wordsOfNat]

/-- A narrow result: the destination's word with the element put in place, bit by bit. -/
theorem cvtWords_narrow (o : CvtOp) (cx : Cx) {s : State} {u : Nat} (hc : (s.strand u).clean) (j : Nat) (hn : fmtWidth o.df < 32) :
    ∃ x : Word, cvtWords o cx (s.strand u) j = [x] ∧ ∀ k, k < 32 → x.getLsbD k =
      if fmtWidth o.df * o.de ≤ k ∧ k < fmtWidth o.df * o.de + fmtWidth o.df then
        (cvtOut o cx (s.strand u) j).pat.testBit (k - fmtWidth o.df * o.de) else (s.vreg u j o.d).val.getLsbD k := by
  have hold : (cvtOld o (s.strand u) j).w = (s.vreg u j o.d).val := by
    unfold cvtOld
    rw [if_pos hn, (readV_one s u j o.d hc).1]
  unfold cvtWords
  dsimp only
  rw [if_neg (show fmtWidth o.df ≠ 64 by omega), if_pos hn, hold]
  refine ⟨_, rfl, fun k hk => ?_⟩
  rw [BitVec.getLsbD_ofNat, decide_eq_true hk, Bool.true_and, Nat.mul_zero, Nat.pow_zero, Nat.div_one]
  exact testBit_replace _ _ _ _ _ (cvtElem_lt _ _ _ _ _ _)

/-- Settles O8: a wide result is the pattern itself; of a narrow one the bits are those of `cvtWords_narrow`. -/
theorem cvtConvertsOneElement : Obligations.CvtConvertsOneElement := by
  unfold Obligations.CvtConvertsOneElement
  intro o s u m h hc hsr sw dw whole a scale r
  have hout : ∀ j, cvtOut o (contextOf (.cvt o) s u m) (s.strand u) j = r j := fun j => by
    unfold cvtOut
    rw [cvtScales_byte]
    rfl
  refine ⟨cvtWords o (contextOf (.cvt o) s u m) (s.strand u), (cvt_spec o h hc hsr).congr (fun _ => rfl) (fun j => ?_) fun _ => rfl,
    fun j _ => ⟨fun hw => ?_, fun hn => ?_⟩⟩
  · exact congrArg FpOut.flags (hout j)
  · unfold cvtWords
    dsimp only
    rw [if_neg (show ¬ fmtWidth o.df < 32 from Nat.not_lt.2 hw), hout]
  · rw [← hout]
    exact cvtWords_narrow o _ hc j hn

/-! ### DOT4 and DOT8 -/

/-- The pairs of elements that a dot product multiplies, with their scale bytes. -/
def dotPairs (eight : Bool) (o : DotOp) (ftz : Bool) (a b : Word) (sa sb : Nat) : List (Ex × Ex) :=
  if eight then (List.range 8).map fun e => (n4Value sa (fld a.toNat (4 * e) 4), n4Value sb (fld b.toNat (4 * e) 4))
  else (List.range 4).map fun e => (dot4Elem o.fa (fld a.toNat (8 * e) 8) sa ftz, dot4Elem o.fb (fld b.toNat (8 * e) 8) sb ftz)

/-- The dot product of thread `j`. -/
def dotLane (eight : Bool) (o : DotOp) (cx : Cx) (st : Strand) (j : Nat) : LaneRes :=
  let lane := (st.thread j).lane
  let ops := [cx.v st j o.a 1, cx.src st j o.b 1, cx.v st j o.c 1]
  let ra := scaleReg st lane o.sra
  let rb := scaleReg st lane o.srb
  let r := dotSum (st.rnd o.rm lane 0)
    (dotPairs eight o st.ftz (cx.v st j o.a 1).w (cx.src st j o.b 1).w (fld ra.w.toNat (8 * o.bsa) 8) (fld rb.w.toNat (8 * o.bsb) 8))
    (cx.v st j o.c 1).w.toNat
  { laneRes [BitVec.ofNat 32 r.pat] r.flags r.ev ops with poison := (laneRes [BitVec.ofNat 32 r.pat] r.flags r.ev ops).poison || ra.poison || rb.poison }

theorem dotLanes_eq (eight : Bool) (o : DotOp) (cx : Cx) (s : State) :
    dotLanes eight o cx s = finishLanes s cx o.d 2 ((s.strand cx.u).rmEff o.rm == 6)
      (cx.act.map fun j => (j, dotLane eight o cx (s.strand cx.u) j)) := rfl

theorem Agree.dotLane {a b : Strand} (h : Agree a b) (eight : Bool) (o : DotOp) (cx : Cx) (j : Nat) :
    Machine.dotLane eight o cx b j = Machine.dotLane eight o cx a j := by
  unfold Machine.dotLane
  simp only [h.cxv, h.cxsrc, h.rnd, h.lane, h.ftz, scaleReg_agree h]

theorem scaleReg_clean {st : Strand} (hc : st.clean = true) (lane code : Nat) : (scaleReg st lane code).poison = false := by
  unfold scaleReg
  split
  · next t ht =>
    obtain ⟨k, -, rfl⟩ := threads_of_thread st t (List.mem_of_find?_eq_some ht)
    exact readV_clean st hc k code 1
  · rfl

theorem dotLane_clean (eight : Bool) (o : DotOp) (cx : Cx) {st : Strand} (hc : st.clean = true) (j : Nat) :
    (dotLane eight o cx st j).poison = false := by
  unfold dotLane laneRes
  simp [v_clean _ _ hc, src_clean _ _ hc, scaleReg_clean hc]

theorem dot_spec (eight : Bool) (o : DotOp) {i : Instr} {s : State} {u : Nat} {m : BitVec 32} (h : Ready i s u m) (hc : (s.strand u).clean)
    (hx : ∀ s', exec i s' = issue i s' (dotLanes eight o)) :
    let lane (j : Nat) : LaneRes := dotLane eight o (contextOf i s u m) (s.strand u) j
    FpResult i s u m o.d 1 (draws s u o.rm) (fun j => (lane j).words) (fun j => (lane j).flags) fun j => plainTag i s u m (lane j).srcs := by
  intro lane
  refine fp_lanes _ s u m o.d 1 2 _ _ lane h ?_ (fun j _ => ⟨dotLane_clean eight o _ hc j, rfl⟩) hx
  rw [dotLanes_eq, contextOf_u, contextOf_act, h.agree.rmEff]
  exact congrArg (finishLanes _ _ _ _ _) (List.map_congr_left fun j _ => by rw [h.agree.dotLane])

/-- Settles O9: both instructions are `dotLane`. -/
theorem narrowDotProductsRoundOnce : Obligations.NarrowDotProductsRoundOnce := by
  unfold Obligations.NarrowDotProductsRoundOnce
  intro o eight s u m
  cases eight
  case true => exact fun h hc => dot_spec true o h hc fun _ => rfl
  case false => exact fun h hc => dot_spec false o h hc fun _ => rfl

/-! ### WUPD -/

theorem Agree.wupdLane {a b : Strand} (h : Agree a b) (o : WupdOp) (hyper : Opd) (j : Nat) :
    Machine.wupdLane b o hyper j = Machine.wupdLane a o hyper j := by
  unfold Machine.wupdLane
  simp only [h.readV]

/-- The seven parameters of a group, in consecutive s-registers. -/
theorem readS_words (s : State) (u c n : Nat) (hc : (s.strand u).clean) :
    ((s.strand u).readS c n).words = (List.range n).map fun k => (s.sreg u (c + k)).val := by
  unfold Strand.clean at hc
  rw [Bool.and_eq_true] at hc
  unfold Strand.readS
  rw [readWords_clean _ hc.1]
  dsimp only
  rw [upFrom, List.map_map]
  rfl

/-- The update of the quad `d` of thread `j` by the gradient in `a`, with the parameters of group `g`. -/
def quadUpdate (s : State) (u j : Nat) (o : WupdOp) : Update :=
  let q (k : Nat) : Nat := (s.vreg u j (o.d + k)).val.toNat
  update (q 0 % 2 ^ 16 * 2 ^ 16 + q 1 % 2 ^ 16) (s.vreg u j o.a).val.toNat (q 2) (q 3) ((List.range 7).map fun k => (s.sreg u (8 * o.g + k)).val.toNat)

/-- A lane's result, with its predicates NEGV and ZDEN, is the update of the quad of thread `j` without poison. -/
structure IsUpdate (s : State) (u j : Nat) (o : WupdOp) (lane : LaneRes × Bool × Bool) : Prop where
  words : lane.1.words = [(quadUpdate s u j o).w1 / 2 ^ 16, (quadUpdate s u j o).w1 % 2 ^ 16, (quadUpdate s u j o).m1, (quadUpdate s u j o).v1].map
    (BitVec.ofNat 32)
  flags : lane.1.flags = (quadUpdate s u j o).flags
  srcs : lane.1.srcs = [(s.vreg u j o.d).tag, (s.vreg u j o.a).tag, (s.vreg u j (o.d + 2)).tag, (s.vreg u j (o.d + 3)).tag]
  clean : lane.1.poison = false
  negv : lane.2.1 = (quadUpdate s u j o).negv
  zden : lane.2.2 = (quadUpdate s u j o).zden

theorem wupdLane_clean (o : WupdOp) {s : State} {u : Nat} (hc : (s.strand u).clean) (j : Nat) :
    IsUpdate s u j o (wupdLane (s.strand u) o ((s.strand u).readS (8 * o.g) 7) j) := by
  have hv := fun c => readV_one s u j c hc
  have hupdate : update (fld (((s.strand u).thread j).readV (o.d + 0) 1).w.toNat 0 16 * 2 ^ 16 + fld (((s.strand u).thread j).readV (o.d + 1) 1).w.toNat 0 16)
      (((s.strand u).thread j).readV o.a 1).w.toNat (((s.strand u).thread j).readV (o.d + 2) 1).w.toNat
      (((s.strand u).thread j).readV (o.d + 3) 1).w.toNat (((s.strand u).readS (8 * o.g) 7).words.map (·.toNat)) = quadUpdate s u j o := by
    unfold quadUpdate
    simp only [(hv _).1, readS_words s u _ _ hc, List.map_map, Function.comp_def, fld, Nat.pow_zero, Nat.div_one]
  unfold wupdLane
  dsimp only
  rw [hupdate]
  constructor
  case words => dsimp only [laneRes]
  case flags => dsimp only [laneRes]
  case negv => dsimp only
  case zden => dsimp only
  case srcs => simp [laneRes, (hv _).2]
  case clean => simp [laneRes, readV_clean _ hc, readS_clean _ hc]

/-- The two predicates of WUPD written: NEGV first, so that ZDEN stands where both name one. -/
def putPreds (s : State) (cx : Cx) (o : WupdOp) (act : List Nat) (negv zden : Nat → Bool) : State :=
  writeP (writeP s cx o.negv (act.map fun j => (j, negv j))) cx o.zden (act.map fun j => (j, zden j))

theorem putPreds_body (s : State) (cx : Cx) (o : WupdOp) (act : List Nat) (negv zden : Nat → Bool) (h : s.has cx.u)
    (hl : ∀ j ∈ act, j < (s.strand cx.u).threads.length) :
    Body { p := fun j c => act.contains j && c != 7 && (c == o.negv || c == o.zden) } s (putPreds s cx o act negv zden) cx.u := by
  have h1 := writeP_body s cx o.negv act negv { p := fun j c => act.contains j && c != 7 && (c == o.negv || c == o.zden) } h hl
    fun h7 j hj => by simp [hj, h7]
  exact h1.trans (writeP_body _ cx o.zden act zden _ (h1.has h) (fun j hj => by rw [h1.len]; exact hl j hj) fun h7 j hj => by simp [hj, h7])

/-- In each acting thread both predicates are written, ZDEN over NEGV. -/
def PredsWritten (u : Nat) (o : WupdOp) (act : List Nat) (negv zden : Nat → Bool) (t : State) : Prop :=
  ∀ j ∈ act, (o.zden < 7 → t.pred u j o.zden = zden j) ∧ (o.negv < 7 → o.negv ≠ o.zden → t.pred u j o.negv = negv j)

theorem putPreds_written (s : State) (cx : Cx) (o : WupdOp) (act : List Nat) (negv zden : Nat → Bool) (h : s.has cx.u)
    (hl : ∀ j ∈ act, j < (s.strand cx.u).threads.length) : PredsWritten cx.u o act negv zden (putPreds s cx o act negv zden) := by
  intro j hj
  have h1 := writeP_body s cx o.negv act negv { p := fun _ _ => true } h hl fun _ _ _ => rfl
  have hl1 : ∀ j ∈ act, j < ((writeP s cx o.negv (act.map fun j => (j, negv j))).strand cx.u).threads.length := fun j hj => by
    rw [h1.len]; exact hl j hj
  have h2 := writeP_body _ cx o.zden act zden { p := fun _ c => c == o.zden } (h1.has h) hl1 fun _ _ _ => beq_self_eq_true _
  refine ⟨fun hz => writeP_pred _ cx o.zden act zden (h1.has h) hl1 hz j hj, fun hn hne => ?_⟩
  exact (h2.only.preds j o.negv (by simpa using hne)).trans (writeP_pred s cx o.negv act negv h hl hn j hj)

theorem PredsWritten.complete {s : State} {cx : Cx} {o : WupdOp} {act : List Nat} {negv zden : Nat → Bool}
    (h : PredsWritten cx.u o act negv zden s) (us : List Use) (hs : s.has cx.u) :
    PredsWritten cx.u o act negv zden (complete s cx us false 0) := by
  intro j hj
  obtain ⟨hzden, hnegv⟩ := h j hj
  have hkept := complete_kept s cx us hs
  exact ⟨fun hz => (hkept.preds j o.zden rfl).trans (hzden hz), fun hn hne => (hkept.preds j o.negv rfl).trans (hnegv hn hne)⟩

/-- WUPD's meaning: the quad in the frame of R122, and its two predicates where that does not trap. -/
theorem wupd_body (o : WupdOp) {s : State} {u : Nat} {m : BitVec 32} (h : Ready (.wupd o) s u m) :
    let lane (j : Nat) := wupdLane (s.strand u) o ((s.strand u).readS (8 * o.g) 7) j
    ∃ body, (∀ s', exec (.wupd o) s' = issue (.wupd o) s' body) ∧ body (contextOf (.wupd o) s u m) (entered (.wupd o) s u m) =
      match finishLanes (entered (.wupd o) s u m) (contextOf (.wupd o) s u m) o.d 2 false ((acting (.wupd o) s u m).map fun j => (j, (lane j).1)) with
      | .done t p => .done (putPreds t (contextOf (.wupd o) s u m) o (acting (.wupd o) s u m) (fun j => (lane j).2.1) fun j => (lane j).2.2) p
      | e => e := by
  intro lane
  refine ⟨_, fun _ => rfl, ?_⟩
  dsimp only
  simp only [contextOf_u, contextOf_act, h.agree.readS, h.agree.wupdLane, List.map_map, Function.comp_def]
  rfl

/-- Settles O10: the quad goes through the frame of R122 (`fp_lanes_then`), and `putPreds` writes the predicates. -/
theorem wupdUpdatesTheQuad : Obligations.WupdUpdatesTheQuad := by
  unfold Obligations.WupdUpdatesTheQuad
  intro o s u m h hc q g r act flags htrap
  let lane (j : Nat) := wupdLane (s.strand u) o ((s.strand u).readS (8 * o.g) 7) j
  have hlane : ∀ j, IsUpdate s u j o (lane j) := wupdLane_clean o hc
  have hr : ∀ j, quadUpdate s u j o = r j := fun _ => rfl
  have hflags : gather (act.map fun j => (lane j).1.flags) = flags :=
    congrArg gather (List.map_congr_left fun j _ => by rw [(hlane j).flags, hr])
  obtain ⟨body, hx, hb⟩ := wupd_body o h
  have hacting : ∀ {t : State}, (t.strand u).threads.length = (s.strand u).threads.length → ∀ j ∈ act, j < (t.strand u).threads.length :=
    fun hlen j hj => by rw [hlen]; exact (acting_lt _ s u m j hj).1
  obtain ⟨t, hexec, ⟨⟨tags, htags, hgives⟩, hrest⟩, honly, hadvances⟩ := fp_lanes_then _ s u m o.d 4 2 false body (fun j => (lane j).1)
    (fun t => putPreds t (contextOf (.wupd o) s u m) o act (fun j => (lane j).2.1) fun j => (lane j).2.2) _
    (PredsWritten u o act (fun j => (lane j).2.1) fun j => (lane j).2.2) h hb
    (fun t ht hlen => ⟨putPreds_body t _ o act _ _ ht (hacting hlen), putPreds_written t _ o act _ _ ht (hacting hlen)⟩)
    (fun t ht hw => PredsWritten.complete (cx := contextOf (.wupd o) s u m) hw _ ht)
    (fun j _ => ⟨(hlane j).clean, by rw [(hlane j).words]; rfl⟩) hx (by rw [hflags]; exact htrap)
  simp only [Bool.false_and, Bool.or_false] at honly
  refine ⟨t, hexec, ⟨⟨tags, fun hm j hj => ?_, ?_⟩, fun j hj => ?_, fun ha => ?_⟩, honly, hadvances⟩
  · rw [htags hm j hj, (hlane j).srcs]
  · have hwords : ∀ j k, (lane j).1.words.getD k 0 =
        BitVec.ofNat 32 ([(r j).w1 / 2 ^ 16, (r j).w1 % 2 ^ 16, (r j).m1, (r j).v1].getD k 0) := fun j k => by
      rw [(hlane j).words, hr]
      exact List.getD_map _ _ _
    simpa only [hwords] using hgives
  · obtain ⟨-, -, hpreds⟩ := hrest (List.ne_nil_of_mem hj)
    replace hpreds := hpreds j hj
    dsimp only at hpreds
    rwa [(hlane j).negv, (hlane j).zden, hr] at hpreds
  · rw [← hflags]
    exact (hrest ha).1

end Sys2Proof.Machine
end

section
/-!
Uniform instructions (O11), reductions from vector to uniform (O12), votes, ballots and predicate logic (O13).
-/

namespace Sys2Proof.Machine

/-! ### Uniform results -/

section
variable {i : Instr} {s : State} {u : Nat} {m : BitVec 32} {body : Cx → State → Eff}

/-- A uniform instruction that gives words made from clean operands, without flags. -/
theorem uni_of_operands (d n fmt : Nat) (ws : List Word) (ops : List Opd) (h : Ready i s u m) (hx : ∀ s', exec i s' = issue i s' body)
    (hlen : ws.length = n) (hops : ∀ o ∈ ops, o.poison = false)
    (hb : body (contextOf i s u m) (entered i s u m) =
      finishUniform (entered i s u m) (contextOf i s u m) d fmt false (laneRes ws 0 none ops)) :
    UniResult i s u m d n ws (plainTag i s u m (ops.map (·.tag))) := by
  obtain ⟨hev, hfl, hpoison, -⟩ := laneRes_plain ws ops hops
  exact uni_plain i s u m d n fmt body (laneRes ws 0 none ops) h hx hlen ⟨hev, hfl, hpoison⟩ hb

theorem UniResult.congr {d n : Nat} {ws ws' : List Word} {t t' : Tag} (h : UniResult i s u m d n ws t) (hw : ws = ws') (ht : t = t') :
    UniResult i s u m d n ws' t' := by
  rw [← hw, ← ht]
  exact h

end

theorem UniBinary.of_salu {i : Instr} {o : SAlu} {f g : (w : Nat) → BitVec w → BitVec w → BitVec w} (hx : ∀ s, exec i s = issue i s (salu o f))
    (hfg : ∀ w, 0 < w → ∀ a b, f w a b = g w a b) : UniBinary i o g :=
  salu_spec i o f g hx (hfg 32 (by decide)) (hfg 64 (by decide))

/-! ### SMOV, SSEL and SCMP -/

theorem smov_spec (o : SmovOp) {s : State} {u : Nat} {m : BitVec 32} (h : Ready (.smov o) s u m) (hc : (s.strand u).clean) :
    let a := (s.strand u).readS o.a (if o.wide then 2 else 1)
    UniResult (.smov o) s u m o.d (if o.wide then 2 else 1)
      (if o.wide then wordsOfNat 2 (a.d + o.x).toNat else [a.w + o.x.setWidth 32]) (plainTag (.smov o) s u m [a.tag]) := by
  intro a
  refine uni_of_operands o.d _ (if o.wide then 1 else 0) _ [a] h (fun _ => rfl) ?_ ?_ ?_
  · cases o.wide <;> simp [wordsOfNat]
  · simpa using readS_clean _ hc _ _
  · simp only [contextOf_u, h.agree.readS]
    rfl

theorem ssel_spec (o : SselOp) {s : State} {u : Nat} {m : BitVec 32} (h : Ready (.ssel o) s u m) (hc : (s.strand u).clean) :
    let x := if s.kpred u o.k then (s.strand u).readS o.a 1 else uniSrc (s.strand u) o.b 1
    UniResult (.ssel o) s u m o.d 1 [x.w] (plainTag (.ssel o) s u m [x.tag]) := by
  intro x
  refine uni_of_operands o.d 1 0 _ [x] h (fun _ => rfl) rfl ?_ ?_
  · have hx : x.poison = false := by
      unfold x
      split
      · exact readS_clean _ hc _ _
      · exact uniSrc_clean _ hc _ _
    simpa using hx
  · simp only [contextOf_u, h.agree.readS, h.agree.uniSrc, h.agree.k]
    rfl

theorem scmp_spec (o : ScmpOp) {s : State} {u : Nat} {m : BitVec 32} (h : Ready (.scmp o) s u m) (hc : (s.strand u).clean) :
    KResult (.scmp o) s u m o.d (scmp o.cond (s.strand u).ftz ((s.strand u).readS o.a 1).w (uniSrc (s.strand u) o.b 1).w) := by
  refine k_write _ s u m o.d _ _ h (fun _ => rfl) ?_
  dsimp only
  rw [contextOf_u, h.agree.readS, h.agree.uniSrc, h.agree.ftz, readS_clean _ hc, uniSrc_clean _ hc]
  rfl

/-- Settles O11: the arithmetic is `salu` of the operations of R126, at 32 and at 64 bits. -/
theorem uniformInstructions : Obligations.UniformInstructions := by
  unfold Obligations.UniformInstructions
  refine ⟨fun o => ⟨?_, ?_, ?_, ?_, ?_, ?_, ?_, ?_⟩, fun o s u m h hc => ?_, fun o s u m h hc => ssel_spec o h hc, fun o s u m h hc => scmp_spec o h hc⟩
  · exact .of_salu (fun _ => rfl) fun w hw _ _ => intResult_clamped w hw _ _ _
  · exact .of_salu (fun _ => rfl) fun w hw _ _ => intResult_clamped w hw _ _ _
  · exact .of_salu (fun _ => rfl) fun w hw _ _ => intResult_clamped w hw _ _ _
  · exact .of_salu (fun _ => rfl) fun _ _ _ _ => rfl
  · exact .of_salu (fun _ => rfl) fun _ _ _ _ => rfl
  · exact .of_salu (fun _ => rfl) fun _ _ _ _ => rfl
  · exact .of_salu (fun _ => rfl) fun _ _ a b => opShl_eq a b.toNat
  · exact .of_salu (fun _ => rfl) fun _ _ a b => by rw [opSar_eq, opShr_eq]
  · exact (smov_spec o h hc).congr (by rw [wordsOf2]) rfl

/-! ### VTOS -/

/-- The operands of VTOS: one of each thread of the fragment, in lane order. -/
def vtosOpds (o : VtosOp) (s : State) (u : Nat) (m : BitVec 32) : List Opd :=
  ((s.strand u).byLane m).map fun j => vOpd (.vtos o) s u m j o.a 1

theorem vtosOpds_entered (o : VtosOp) {s : State} {u : Nat} {m : BitVec 32} (h : Ready (.vtos o) s u m) :
    (((contextOf (.vtos o) s u m).threads ((entered (.vtos o) s u m).strand u)).map fun j =>
      (contextOf (.vtos o) s u m).v ((entered (.vtos o) s u m).strand u) j o.a 1) = vtosOpds o s u m := by
  unfold Cx.threads
  rw [h.agree.byLane]
  exact List.map_congr_left fun j _ => h.agree.cxv _ j o.a 1

theorem vtosOpds_clean (o : VtosOp) {s : State} {u : Nat} {m : BitVec 32} (hc : (s.strand u).clean) :
    ∀ x ∈ vtosOpds o s u m, x.poison = false := by
  intro x hx
  obtain ⟨j, -, rfl⟩ := List.mem_map.1 hx
  exact v_clean _ _ hc _ _ _

theorem headD_clean {xs : List Opd} (h : ∀ x ∈ xs, x.poison = false) : (xs.headD {}).poison = false := by
  cases xs with
  | nil => rfl
  | cons x xs => exact h x (List.mem_cons_self ..)

theorem headD_w (xs : List Opd) : (xs.map (·.w)).headD 0 = (xs.headD {}).w := by cases xs <;> rfl

/-- The result of a uniform instruction whose rule the instruction itself fixes (R98). -/
theorem uni_ruled {i : Instr} {s : State} {u : Nat} {m : BitVec 32} {body : Cx → State → Eff} (d fmt rule : Nat) (w : Word) (ops : List Opd)
    (h : Ready i s u m) (hx : ∀ s', exec i s' = issue i s' body) (hops : ∀ o ∈ ops, o.poison = false)
    (hb : body (contextOf i s u m) (entered i s u m) =
      finishUniform (entered i s u m) { contextOf i s u m with rule := rule } d fmt false (laneRes [w] 0 none ops)) :
    UniResult i s u m d 1 [w] (tagBy i s u m rule (ops.map (·.tag))) := by
  obtain ⟨hev, hfl, hpoison, -⟩ := laneRes_plain [w] ops hops
  refine uni_write i s u m d 1 body [w] _ h hx rfl (hb.trans ?_)
  rw [finishUniform_plain _ _ _ _ _ ⟨hev, hfl, hpoison⟩]
  dsimp only
  rw [contextOf_u, h.agree.tagEn]
  rfl

/-- The tag of a reduction, chosen across the lanes and then alone (R112). -/
theorem plainTag_pick (i : Instr) (s : State) (u : Nat) (m : BitVec 32) (tags : List Tag) :
    plainTag i s u m [tagPick (contextOf i s u m).here (contextOf i s u m).rule tags] = plainTag i s u m tags := by
  unfold plainTag
  rw [tagPick_idem]

/-- The modes of VTOS other than FIRST, EQ and COUNT are `vtosReduce`. -/
theorem vtos_body (o : VtosOp) {s : State} {u : Nat} {m : BitVec 32} (h : Ready (.vtos o) s u m) (h0 : o.mode ≠ 0) (h1 : o.mode ≠ 1)
    (h7 : o.mode ≠ 7) (hsr : ¬(o.mode = 6 ∧ o.ty = 2 ∧ draws s u o.rm)) :
    ∃ body, (∀ s', exec (.vtos o) s' = issue (.vtos o) s' body) ∧ body (contextOf (.vtos o) s u m) (entered (.vtos o) s u m) =
      finishUniform (entered (.vtos o) s u m) (contextOf (.vtos o) s u m) o.d (if o.mode = 6 ∧ o.ty = 2 then 2 else 0) false
        (vtosReduce o (contextOf (.vtos o) s u m) (s.strand u) (vtosOpds o s u m)) := by
  refine ⟨_, fun _ => rfl, ?_⟩
  have hmode : ¬(o.mode = 6 ∧ o.ty = 2 ∧ ((entered (.vtos o) s u m).strand u).rmEff o.rm = 6) := by
    rw [h.agree.rmEff]
    simpa [draws] using hsr
  have hreduce : vtosReduce o (contextOf (.vtos o) s u m) ((entered (.vtos o) s u m).strand u) (vtosOpds o s u m) =
      vtosReduce o (contextOf (.vtos o) s u m) (s.strand u) (vtosOpds o s u m) := by
    unfold vtosReduce
    rw [h.agree.rnd, h.agree.ftz]
  dsimp only
  split
  · next hm => exact absurd hm h0
  · next hm => exact absurd hm h1
  · next hm => exact absurd hm h7
  · rw [contextOf_u, if_neg hmode, vtosOpds_entered o h, hreduce]

theorem vtosOpds_any (o : VtosOp) {s : State} {u : Nat} {m : BitVec 32} (hc : (s.strand u).clean) :
    (vtosOpds o s u m).any (·.poison) = false :=
  List.any_eq_false.2 fun x hx => by simp [vtosOpds_clean o hc x hx]

/-- A reduction but for the FP32 sum starts from the lowest lane's word and goes on in lane order. -/
theorem vtosReduce_word (o : VtosOp) (cx : Cx) (st : Strand) (xs : List Opd) (h : ¬(o.mode = 6 ∧ o.ty = 2)) :
    let ws := xs.map (·.w)
    let v := (ws.drop 1).foldl (vtosComb o.mode o.ty st.ftz)
      (if o.ty = 2 && (o.mode == 4 || o.mode == 5) then scanFirst 6 st.ftz (ws.headD 0) else ws.headD 0)
    vtosReduce o cx st xs =
      { words := [v], pat := v, srcs := [tagPick cx.here cx.rule (xs.map (·.tag))], poison := xs.any (·.poison) } :=
  if_neg h

theorem vtosReduce_sum (o : VtosOp) (cx : Cx) (st : Strand) (xs : List Opd) (h : o.mode = 6 ∧ o.ty = 2) :
    (vtosReduce o cx st xs).words = [BitVec.ofNat 32 (vtosSum (st.rnd o.rm 0 0) (xs.map (·.w))).1] ∧
      (vtosReduce o cx st xs).flags = (vtosSum (st.rnd o.rm 0 0) (xs.map (·.w))).2 ∧
      (vtosReduce o cx st xs).srcs = [tagPick cx.here cx.rule (xs.map (·.tag))] ∧
      (vtosReduce o cx st xs).poison = xs.any (·.poison) := by
  unfold vtosReduce
  simp only [if_pos h, and_self]

theorem writeK_tagEn (s : State) (cx : Cx) (d : Nat) (b : Bool) (h : s.has cx.u) :
    ((writeK s cx d b).strand cx.u).tagEn = (s.strand cx.u).tagEn := by
  unfold writeK
  rw [strand_modStrand_self s cx.u _ h]
  rfl

/-- The effect of EQ: a uniform predicate, then the word of a clean operand with its tag by `rule`. -/
theorem finishUniform_equal (s : State) (cx : Cx) (rule d kf : Nat) (b bad : Bool) (low : Opd) (h : s.has cx.u)
    (hbad : bad = false) :
    finishUniform (writeK s { cx with rule := rule } kf b) { cx with rule := rule } d 0 false
        { laneRes [low.w] 0 none [low] with poison := bad } =
      .done (writeU (writeK s cx kf b) cx d [low.w] (if (s.strand cx.u).tagEn then tagPick cx.here rule [low.tag] else 0)) false := by
  rw [finishUniform_plain _ _ _ _ _ ⟨by simp [LaneRes.event, laneRes, hbad], rfl, hbad⟩, writeK_tagEn s { cx with rule := rule } kf b h]
  rfl

section
variable (o : VtosOp) {s : State} {u : Nat} {m : BitVec 32} (h : Ready (.vtos o) s u m) (hc : (s.strand u).clean)
include h hc

/-- OR, AND, MIN, MAX and the integer sum: `f` goes on, in lane order, from the word `first` that the lowest lane gives. -/
theorem vtos_combines (f : Word → Word → Word) (first : Word) (hm : 2 ≤ o.mode ∧ o.mode ≤ 6) (hsum : ¬(o.mode = 6 ∧ o.ty = 2))
    (hf : vtosComb o.mode o.ty (s.strand u).ftz = f)
    (hfirst : (if o.ty = 2 && (o.mode == 4 || o.mode == 5) then scanFirst 6 (s.strand u).ftz (((vtosOpds o s u m).map (·.w)).headD 0)
      else ((vtosOpds o s u m).map (·.w)).headD 0) = first) :
    UniResult (.vtos o) s u m o.d 1 [(((vtosOpds o s u m).map (·.w)).drop 1).foldl f first]
      (plainTag (.vtos o) s u m ((vtosOpds o s u m).map (·.tag))) := by
  obtain ⟨body, hx, hb⟩ := vtos_body o h (by omega) (by omega) (by omega) fun hd => hsum ⟨hd.1, hd.2.1⟩
  have hclean := vtosOpds_any o (m := m) hc
  rw [vtosReduce_word _ _ _ _ hsum] at hb
  rw [← plainTag_pick, ← hf, ← hfirst]
  refine uni_plain _ s u m o.d 1 _ body _ h hx rfl ⟨?_, rfl, hclean⟩ hb
  unfold LaneRes.event
  simp [hclean]

/-- The FP32 sum in lane order. -/
theorem vtos_sums (hm : o.mode = 6) (hty : o.ty = 2) (hd : draws s u o.rm = false) :
    let r := vtosSum ((s.strand u).rnd o.rm 0 0) ((vtosOpds o s u m).map (·.w))
    UniFpResult (.vtos o) s u m o.d (BitVec.ofNat 32 r.1) r.2 (plainTag (.vtos o) s u m ((vtosOpds o s u m).map (·.tag))) := by
  intro r
  obtain ⟨body, hx, hb⟩ := vtos_body o h (by omega) (by omega) (by omega) fun hsr => by simp [hd] at hsr
  obtain ⟨hwords, hflags, hsrcs, hpoison⟩ := vtosReduce_sum o (contextOf (.vtos o) s u m) (s.strand u) (vtosOpds o s u m) ⟨hm, hty⟩
  rw [← plainTag_pick, ← hsrcs, ← hflags]
  exact uni_fp _ s u m o.d _ body _ _ h hx hwords (hpoison.trans (vtosOpds_any o hc)) hb

/-- FIRST keeps the lowest thread's word and tag. -/
theorem vtos_first (hm : o.mode = 0) :
    let low := (vtosOpds o s u m).headD {}
    UniResult (.vtos o) s u m o.d 1 [low.w] (tagBy (.vtos o) s u m (if o.tr = 0 then 3 else o.tr) [low.tag]) := by
  intro low
  refine uni_ruled o.d 0 _ low.w [low] h (fun _ => rfl) (List.forall_mem_singleton.2 (headD_clean (vtosOpds_clean o hc))) ?_
  simp only [hm, contextOf_u, vtosOpds_entered o h]
  rfl

omit hc in
/-- COUNT gives the number of threads. -/
theorem vtos_counts (hm : o.mode = 7) :
    UniResult (.vtos o) s u m o.d 1 [BitVec.ofNat 32 (vtosOpds o s u m).length]
      (tagBy (.vtos o) s u m (if o.tr = 0 then 4 else o.tr) []) := by
  refine uni_ruled o.d 0 _ _ [] h (fun _ => rfl) (fun _ hx => absurd hx List.not_mem_nil) ?_
  simp only [hm, contextOf_u, vtosOpds_entered o h]

/-- EQ keeps the lowest thread's word and tag and writes, into a uniform predicate, whether all words are equal. -/
theorem vtos_equal (hm : o.mode = 1) :
    let low := (vtosOpds o s u m).headD {}
    Completes (.vtos o) s u m
      { s := fun c => decide (acting (.vtos o) s u m ≠ [] ∧ c = o.d)
        k := fun c => decide (acting (.vtos o) s u m ≠ [] ∧ c = o.kf ∧ o.kf ≠ 7) } fun t =>
      acting (.vtos o) s u m ≠ [] →
        (o.d ≠ 0 → t.sreg u o.d = { val := low.w, tag := tagBy (.vtos o) s u m (if o.tr = 0 then 3 else o.tr) [low.tag] }) ∧
        (o.kf < 7 → t.kpred u o.kf = (vtosOpds o s u m).all fun x => x.w == low.w) := by
  intro low
  have hes := h.has
  let cx := contextOf (.vtos o) s u m
  let s1 := writeK (entered (.vtos o) s u m) cx o.kf ((vtosOpds o s u m).all fun x => x.w == low.w)
  let t1 := writeU s1 cx o.d [low.w] (tagBy (.vtos o) s u m (if o.tr = 0 then 3 else o.tr) [low.tag])
  have hes1 : s1.has u := (writeK_body _ cx o.kf _ { k := fun _ => true } hes fun _ => rfl).has hes
  have hU : Body { s := fun c => decide (c = o.d) } s1 t1 u :=
    writeU_body s1 cx o.d _ _ _ hes1 fun c h1 h2 => by simp at h2 ⊢; omega
  refine completes_of _ s u m _ _ _ t1 h rfl (fun _ => ?_) (fun ha => ?_) fun t0 ht0 hh ha => ?_
  · dsimp only
    split
    · next h0 => omega
    · simp only [contextOf_u, vtosOpds_entered o h]
      refine (finishUniform_equal _ cx _ o.d o.kf _ _ _ hes (vtosOpds_any o hc)).trans ?_
      rw [contextOf_u, h.agree.tagEn]
      rfl
    · next h7 => omega
    · next _ h1 _ => exact absurd hm h1
  · exact Body.trans (writeK_body _ cx o.kf _ _ hes fun h7 => by simp [ha, h7])
      (writeU_body s1 cx o.d _ _ _ hes1 fun c h1 h2 => by simp at h2; simp [ha]; omega)
  · rw [if_neg ha] at ht0
    subst ht0
    have hkept := complete_kept t1 cx (Instr.vtos o).uses hh
    refine ⟨fun hd => ?_, fun hk => ?_⟩
    · exact (hkept.sregs o.d rfl).trans (writeU_sreg s1 cx o.d _ _ hes1 0 (by simp) hd)
    · exact (hkept.kpreds o.kf rfl).trans ((hU.only.kpreds o.kf rfl).trans (writeK_kpred _ cx o.kf _ hes hk))

end

theorem foldl_zero {f : Word → Word → Word} (hf : ∀ w, f 0 w = w) (ws : List Word) : (ws.drop 1).foldl f (ws.headD 0) = ws.foldl f 0 := by
  cases ws with
  | nil => rfl
  | cons w ws => exact congrArg (fun a => ws.foldl f a) (hf w).symm

/-- Settles O12: FIRST, EQ and COUNT have lemmas of their own, the FP32 sum is `vtos_sums`, every other mode `vtos_combines`. -/
theorem vtosReduces : Obligations.VtosReduces := by
  unfold Obligations.VtosReduces
  intro o s u m h hc xs ws low keep all one
  have hlow : ws.headD 0 = low.w := headD_w xs
  refine ⟨vtos_first o h hc, ?_, ?_, ?_, ?_, ?_, ?_, ?_, vtos_sums o h hc, vtos_counts o h⟩
  · intro hm
    rw [List.all_map]
    exact vtos_equal o h hc hm
  · intro hm
    rw [← foldl_zero (fun w => BitVec.zero_or) ws]
    exact vtos_combines o h hc _ _ (by omega) (by omega) (by rw [hm]; rfl) (if_neg (by simp [hm]))
  · intro hm
    exact vtos_combines o h hc _ _ (by omega) (by omega) (by rw [hm]; rfl) ((if_neg (by simp [hm])).trans hlow)
  · intro hm hty
    refine vtos_combines o h hc _ _ (by omega) (by omega) ?_ ((if_neg (by simp; omega)).trans hlow)
    funext a b
    rw [hm]
    exact if_neg (by omega)
  · intro hm hty
    refine vtos_combines o h hc _ _ (by omega) (by omega) ?_ ((if_neg (by simp; omega)).trans hlow)
    funext a b
    rw [hm]
    exact if_neg (by omega)
  · intro hm hty
    refine vtos_combines o h hc _ _ (by omega) (by omega) ?_ ((if_pos (by simp [hty, hm])).trans (congrArg _ hlow))
    funext a b
    rcases hm with hm | hm <;> rw [hm, hty] <;> rfl
  · intro hm hty
    rw [← foldl_zero (fun w => BitVec.zero_add w) ws]
    exact vtos_combines o h hc _ _ (by omega) (by omega) (by rw [hm]; rfl) (if_neg (by simp; omega))

/-! ### Votes, ballots and KLOP -/

theorem vote_spec (o : VoteOp) {s : State} {u : Nat} {m : BitVec 32} (h : Ready (.vote o) s u m) :
    let ps := ((s.strand u).byLane m).map fun j => s.pred u j o.p
    KResult (.vote o) s u m o.d <|
      match o.mode with
      | 0 => ps.any id
      | 1 => ps.all id
      | _ => ps.all id || !ps.any id := by
  intro ps
  refine k_write _ s u m o.d _ _ h (fun _ => rfl) ?_
  simp only [contextOf_u, Cx.threads, h.agree.byLane, h.agree.p]
  rfl

theorem getLsbD_laneMask (st : Strand) (ts : List Nat) (l : Nat) (hl : l < 32) :
    (st.laneMask ts).getLsbD l = ts.any fun j => (st.thread j).lane == l || (st.prot && (st.thread j).lane + 1 == l) := by
  unfold Strand.laneMask
  rw [getLsbD_maskOf, decide_eq_true hl, Bool.true_and, List.contains_eq_any_beq, List.any_flatMap]
  congr 1
  funext j
  cases st.prot <;> simp [eq_comm, Bool.beq_eq_decide_eq]

theorem ballot_spec (o : BallotOp) {s : State} {u : Nat} {m : BitVec 32} (h : Ready (.ballot o) s u m) :
    UniResult (.ballot o) s u m o.d 1 [(s.strand u).laneMask (((s.strand u).byLane m).filter fun j => s.pred u j o.p)]
      (plainTag (.ballot o) s u m []) := by
  refine uni_of_operands o.d 1 0 _ [] h (fun _ => rfl) rfl (fun _ hx => absurd hx List.not_mem_nil) ?_
  simp only [contextOf_u, Cx.threads, h.agree.byLane, h.agree.p, h.agree.laneMask]
  rfl

theorem klop_spec (o : LopOp) {s : State} {u : Nat} {m : BitVec 32} (h : Ready (.klop o) s u m) :
    KResult (.klop o) s u m o.d (lop o.fn (s.kpred u o.a) (s.kpred u o.b)) := by
  refine k_write _ s u m o.d _ _ h (fun _ => rfl) ?_
  simp only [contextOf_u, h.agree.k]
  rfl

/-- Settles O13: BALLOT's word is the lane mask of the threads whose predicate is true. -/
theorem votesBallotsAndKlop : Obligations.VotesBallotsAndKlop := by
  unfold Obligations.VotesBallotsAndKlop
  refine ⟨fun o s u m h => vote_spec o h, fun o s u m h => ⟨_, ballot_spec o h, fun l hl => ?_⟩, fun o s u m h => ?_⟩
  · rw [getLsbD_laneMask _ _ l hl, List.any_filter]
  · rw [← lop_eq]
    exact klop_spec o h

end Sys2Proof.Machine
end

section
/-!
Loads (O22): what memory gives to the destination of LD and of SLD.
-/

namespace Sys2Proof.Machine

/-! ### The words of a load -/

theorem toInt_ofNat_signedOf (w x : Nat) (hw : 0 < w) : (BitVec.ofNat w x).toInt = signedOf w x := by
  have hpow : 2 ^ w = 2 * 2 ^ (w - 1) := by rw [← Nat.pow_succ']; congr 1; omega
  have hiff : 2 * (x % 2 ^ w) < 2 ^ w ↔ x % 2 ^ w < 2 ^ (w - 1) := by omega
  unfold signedOf
  simp only [BitVec.toInt_eq_toNat_cond, BitVec.toNat_ofNat, hiff, Nat.cast_pow, Nat.cast_ofNat]

/-- Narrow bytes are extended as SX directs (R182). -/
theorem extendWords_eq (sx : Bool) (k x : Nat) :
    extendWords sx (2 ^ k) x = if 2 ^ k < 4 then [if sx then (BitVec.ofNat (8 * 2 ^ k) x).signExtend 32 else BitVec.ofNat 32 x]
      else wordsOfNat (2 ^ k / 4) x := by
  unfold extendWords BitVec.signExtend
  rw [toInt_ofNat_signedOf _ _ (by positivity)]

theorem extendWords_count (sx : Bool) (n x : Nat) : (extendWords sx n x).length = max 1 (n / 4) := by
  rw [extendWords_length]
  split <;> omega

/-! ### Operands that are no queues -/

theorem usesMem_q (r : Raw) (sp : Space) (load : Bool) : ∀ x ∈ usesMem r sp load, x.q = false := by
  intro x hx
  simp only [usesMem, List.mem_cons, List.not_mem_nil, or_false] at hx
  obtain rfl | rfl | rfl := hx
  · split <;> rfl
  · rfl
  · rfl

theorem ld_dest_plain {o : MemOp} {s : State} {u : Nat} {m : BitVec 32} (h : Ready (.ld o) s u m) (hpd : o.pd = false) : o.d < 248 := by
  refine use_plain (.ld o) s u m h (useN .v o.d (sizeWords (rawSize (o.raw (bit o.h.form.isW3)))) false true 0) ?_ rfl rfl
  show _ ∈ usesMem (o.raw (bit o.h.form.isW3)) .v true
  have hsub : (o.raw (bit o.h.form.isW3)).sub = 0 := congrArg bit hpd
  unfold usesMem
  rw [hsub]
  exact List.mem_cons_self

/-! ### LD and SLD -/

/-- The tag that a load gives (R114). -/
def loadedTag (s base : State) (u l n : Nat) : Tag := if (s.strand u).tagEn then base.tagOf l n else 0

/-- What a load, its addresses found, starts from: a strand that owes nothing, and clean bytes at its locations. -/
structure LoadReady (i : Instr) (o : MemOp) (uniform : Bool) (s base : State) (u : Nat) (m : BitVec 32) (loc leaf : Nat → Nat) : Prop where
  ready : Ready i s u m
  clean : (s.strand u).clean
  raw : s.raw = []
  owes : (s.strand u).owesNothing
  noProbe : isProbe o uniform = false
  finds : Finds i s u m uniform .load (2 ^ o.size) (accesses i o uniform s u m) base loc leaf
  bytes : ∀ x ∈ accesses i o uniform s u m, base.cleanAt (loc x.thread) (2 ^ o.size)

section
variable {i : Instr} {o : MemOp} {uniform : Bool} {s base : State} {u : Nat} {m : BitVec 32} {loc leaf : Nat → Nat}

/-- What the load of one access gives. -/
def laneLoaded (o : MemOp) (uniform : Bool) (s base : State) (u : Nat) (loc : Nat → Nat) (j : Nat) : LaneLoad :=
  { thread := j
    words := extendWords o.sx (2 ^ o.size) (base.readNat (loc j) (2 ^ o.size))
    tag := if !uniform && o.pd then 0 else loadedTag s base u (loc j) (2 ^ o.size)
    poison := false }

theorem LoadReady.body (h : LoadReady i o uniform s base u m loc leaf) :
    load o uniform (contextOf i s u m) (entered i s u m) =
      .done (putLoads base (contextOf i s u m) o uniform
        ((accesses i o uniform s u m).map fun x => laneLoaded o uniform s base u loc x.thread)) false := by
  obtain ⟨hbuf, hredraw, hcq, -, -⟩ := h.owes
  exact load_finds i o uniform s u m base loc leaf h.ready h.clean h.noProbe h.raw hbuf hredraw hcq h.finds h.bytes

/-- The base of a load holds the strand as the instruction entered it. -/
theorem LoadReady.strand (h : LoadReady i o uniform s base u m loc leaf) : base.strand u = (entered i s u m).strand u := by
  obtain ⟨mem, cores, hb⟩ := h.finds.near
  rw [hb]
  rfl

theorem LoadReady.has (h : LoadReady i o uniform s base u m loc leaf) : base.has u := by
  obtain ⟨mem, cores, hb⟩ := h.finds.near
  rw [hb]
  exact h.ready.has

theorem LoadReady.lanes (h : LoadReady i o uniform s base u m loc leaf) : ∀ j ∈ acting i s u m, j < (base.strand u).threads.length := by
  intro j hj
  rw [h.strand, h.ready.agree.len]
  exact (acting_lt i s u m j hj).1

end

theorem accesses_vector (i : Instr) (o : MemOp) (s : State) (u : Nat) (m : BitVec 32) {β : Type} (f : Nat → β) :
    (accesses i o false s u m).map (fun x => f x.thread) = (acting i s u m).map f := by
  unfold accesses memAddrs vecAddrs
  simp [Function.comp_def]

section
variable {o : MemOp} {s base : State} {u : Nat} {m : BitVec 32} {loc leaf : Nat → Nat}

theorem ld_words (h : LoadReady (.ld o) o false s base u m loc leaf) (ha : acting (.ld o) s u m ≠ []) (hpd : o.pd = false) :
    CompletesFrom base (.ld o) s u m (Touch.vec (.ld o) s u m o.d (max 1 (2 ^ o.size / 4))) fun t =>
      Gives (.ld o) s t u m o.d (max 1 (2 ^ o.size / 4)) fun j k =>
        { val := (extendWords o.sx (2 ^ o.size) (base.readNat (loc j) (2 ^ o.size))).getD k 0, tag := loadedTag s base u (loc j) (2 ^ o.size) } := by
  have hd := ld_dest_plain h.ready hpd
  let ws (j : Nat) : List Word × Tag :=
    (extendWords o.sx (2 ^ o.size) (base.readNat (loc j) (2 ^ o.size)), loadedTag s base u (loc j) (2 ^ o.size))
  have hbody : load o false (contextOf (.ld o) s u m) (entered (.ld o) s u m) =
      .ok (writeD base (contextOf (.ld o) s u m) o.d ((acting (.ld o) s u m).map fun j => (j, ws j))) := by
    rw [h.body, accesses_vector]
    simp [putLoads, hpd, laneLoaded, ws, Eff.ok, Function.comp_def]
  have hB := writeD_body base (contextOf (.ld o) s u m) o.d ((acting (.ld o) s u m).map fun j => (j, ws j))
    (Touch.vec (.ld o) s u m o.d (max 1 (2 ^ o.size / 4))) h.has ?_ ?_
  · refine completes_from _ s u m base _ _ _ _ h.ready rfl ha hbody h.strand hB h.has ?_
    refine Gives_core _ s u m o.d _ _ _ h.ready (hB.has h.has) (fun h8 => absurd hd (by omega)) fun h8 j hj k hk h0 => ?_
    exact writeD_vreg base (contextOf (.ld o) s u m) o.d (acting (.ld o) s u m) ws h.has h8 j hj (h.lanes j hj) k
      (by rw [extendWords_count]; exact hk) h0
  · intro _ r hr c h1 h2
    obtain ⟨j, hj, rfl⟩ := List.mem_map.1 hr
    rw [extendWords_count] at h2
    simp [Touch.vec, hd, hj, h1]
    omega
  · intro h8
    omega

theorem ld_preds (h : LoadReady (.ld o) o false s base u m loc leaf) (ha : acting (.ld o) s u m ≠ []) (hpd : o.pd = true) :
    CompletesFrom base (.ld o) s u m (Touch.preds (.ld o) s u m o.d) fun t =>
      o.d < 7 → ∀ j ∈ acting (.ld o) s u m,
        t.pred u j o.d = (extendWords o.sx (2 ^ o.size) (base.readNat (loc j) (2 ^ o.size))).any (· != 0) := by
  let f (j : Nat) : Bool := (extendWords o.sx (2 ^ o.size) (base.readNat (loc j) (2 ^ o.size))).any (· != 0)
  have hbody : load o false (contextOf (.ld o) s u m) (entered (.ld o) s u m) =
      .ok (writeP base (contextOf (.ld o) s u m) o.d ((acting (.ld o) s u m).map fun j => (j, f j))) := by
    rw [h.body, accesses_vector]
    simp [putLoads, hpd, laneLoaded, f, Eff.ok, Function.comp_def]
  have hB := writeP_body base (contextOf (.ld o) s u m) o.d (acting (.ld o) s u m) f (Touch.preds (.ld o) s u m o.d) h.has h.lanes
    fun h7 j hj => by simp [Touch.preds, hj, h7]
  refine completes_from _ s u m base _ _ _ _ h.ready rfl ha hbody h.strand hB h.has fun hd j hj => ?_
  refine ((complete_kept _ (contextOf (.ld o) s u m) _ (hB.has h.has)).preds j o.d rfl).trans ?_
  exact writeP_pred base (contextOf (.ld o) s u m) o.d _ f h.has h.lanes hd j hj

theorem sld_words (h : LoadReady (.sld o) o true s base u m loc leaf) (ha : acting (.sld o) s u m ≠ []) :
    let j := (s.strand u).lowest m
    CompletesFrom base (.sld o) s u m { s := fun c => decide (o.d ≤ c ∧ c < o.d + max 1 (2 ^ o.size / 4)) } fun t =>
      ∀ k, k < max 1 (2 ^ o.size / 4) → o.d + k ≠ 0 → t.sreg u (o.d + k) =
        { val := (extendWords o.sx (2 ^ o.size) (base.readNat (loc j) (2 ^ o.size))).getD k 0, tag := loadedTag s base u (loc j) (2 ^ o.size) } := by
  intro j
  have hbody : load o true (contextOf (.sld o) s u m) (entered (.sld o) s u m) =
      .ok (writeU base (contextOf (.sld o) s u m) o.d (extendWords o.sx (2 ^ o.size) (base.readNat (loc j) (2 ^ o.size)))
        (loadedTag s base u (loc j) (2 ^ o.size))) := h.body
  have hB := writeU_body base (contextOf (.sld o) s u m) o.d (extendWords o.sx (2 ^ o.size) (base.readNat (loc j) (2 ^ o.size)))
    (loadedTag s base u (loc j) (2 ^ o.size)) { s := fun c => decide (o.d ≤ c ∧ c < o.d + max 1 (2 ^ o.size / 4)) } h.has
    fun c h1 h2 => decide_eq_true ⟨h1, by rwa [extendWords_count] at h2⟩
  refine completes_from _ s u m base _ _ _ _ h.ready rfl ha hbody h.strand hB h.has fun k hk h0 => ?_
  refine ((complete_kept _ (contextOf (.sld o) s u m) _ (hB.has h.has)).sregs (o.d + k) rfl).trans ?_
  exact writeU_sreg base (contextOf (.sld o) s u m) o.d _ _ h.has k (by rw [extendWords_count]; exact hk) h0

end

/-- Settles O22: `load_finds` gives what the load does, `ld_words`, `ld_preds` and `sld_words` what it leaves. -/
theorem loadsGiveMemory : Obligations.LoadsGiveMemory := by
  unfold Obligations.LoadsGiveMemory
  intro o s base u m loc leaf n count words tag hc hraw howes
  have hwords : words = fun j => extendWords o.sx (2 ^ o.size) (base.readNat (loc j) (2 ^ o.size)) := funext fun j => (extendWords_eq _ _ _).symm
  rw [hwords]
  refine ⟨fun h ha hp hf hcl => ?_, fun h ha hp => ?_⟩
  · have hl : LoadReady (.ld o) o false s base u m loc leaf := ⟨h, hc, hraw, howes, hp, hf, fun x hx => hcl _ ?_⟩
    · exact ⟨ld_words hl ha, ld_preds hl ha⟩
    · have := List.mem_map_of_mem (f := fun x => id x.thread) hx
      rwa [accesses_vector, List.map_id] at this
  · intro j hf hcl
    refine sld_words (leaf := leaf) ⟨h, hc, hraw, howes, hp, hf, fun x hx => ?_⟩ ha
    rw [List.mem_singleton.1 (show x ∈ [uniAddr (s.strand u) (contextOf (.sld o) s u m) o.a o.b o.sc o.disp] from hx)]
    exact hcl

end Sys2Proof.Machine
end

section
/-!
Stores (O24): what ST and SST leave in the region store buffer, and the trap of a 33rd store.
-/

namespace Sys2Proof.Machine

section
variable {i : Instr} {s : State} {u : Nat} {m : BitVec 32} {body : Cx → State → Eff}

/-- An instruction that places one entry in the buffer completes. -/
theorem completes_buffered (h : Ready i s u m) (ha : acting i s u m ≠ []) (hx : exec i s = issue i s body)
    (hnb : isBoundary i.op i.uses = false) {kind : StKind} {size : Nat} {sc : Bool} {lanes : List StLane}
    (hb : body (contextOf i s u m) s = .ok (bufferStore s (contextOf i s u m) kind size sc lanes)) :
    Completes i s u m {} fun t =>
      ∃ e : BufStore, (t.strand u).buf = (s.strand u).buf ++ [e] ∧ e.kind = kind ∧ e.lanes = lanes := by
  have hs := issuing_has s u m h.atIssue
  have hent := startOf_entered i s u m hnb
  obtain ⟨hbody, e, hbuf, hkind, hlanes⟩ := bufferStore_body s (contextOf i s u m) kind size sc lanes {} hs
  refine completes_of i s u m _ _ body _ h hx (fun _ => by rw [hent]; exact hb) (fun _ => by rw [hent]; exact hbody)
    fun t0 ht0 hh => ⟨e, ?_, hkind, hlanes⟩
  rw [if_neg ha] at ht0
  exact (complete_buf t0 (contextOf i s u m) i.uses false 0 hh hnb).trans (by rw [ht0]; exact hbuf)

/-- After REGION_OVERFLOW no open store of the fragment's regions is left in a buffer. -/
def Discarded (s : State) (u : Nat) (m : BitVec 32) (t : State) : Prop :=
  ∀ e ∈ (t.strand u).buf, ∀ l ∈ e.lanes, m.getLsbD l.thread → l.region = ((s.strand u).thread l.thread).region → l.closed = true

/-- The state after the discard of a 33rd store (R164). -/
def overflowed (s : State) (cx : Cx) : BitVec 32 × State :=
  discard s cx.u cx.mask fun a b => restoreCtl a b (isDet (s.launch (s.strand cx.u).launch))

/-- Threads of other fragments whose regions were discarded go back to their regions' starts. -/
def Strand.sendBack (st : Strand) (all mask : BitVec 32) : Strand :=
  { st with threads := st.threads.mapIdx fun i t =>
      if all.getLsbD i && !mask.getLsbD i then { t with pc := st.startOf i, wait := .ready } else t }

theorem overflow_eq (s : State) (cx : Cx) :
    overflow s cx = .trap { cause := 0x30 } ((overflowed s cx).2.modStrand cx.u fun st => st.sendBack (overflowed s cx).1 cx.mask) := rfl

theorem overflowed_slotOpen (s : State) (cx : Cx) (h : s.has cx.u) (hslot : SlotOpen s cx.u 0x400 256) :
    SlotOpen (overflowed s cx).2 cx.u 0x400 256 :=
  slotOpen_mod s cx.u _ 0x400 256 h ⟨rfl, rfl, rfl, rfl, rfl, rfl, rfl, rfl⟩ hslot

/-- The discard leaves a trap handler where every region's snapshot has one. -/
theorem overflowed_tvec (s : State) (cx : Cx) (h : s.has cx.u) (htvec : (s.strand cx.u).ctl.tvec ≠ 0)
    (hregions : ∀ r ∈ (s.strand cx.u).regions, r.ctl.tvec ≠ 0) : ((overflowed s cx).2.strand cx.u).ctl.tvec ≠ 0 := by
  obtain ⟨-, -, -, b, hctl, hb⟩ := discard_buf s cx.u cx.mask (fun a b => restoreCtl a b (isDet (s.launch (s.strand cx.u).launch))) h
  have hb : b.tvec ≠ 0 := by
    obtain rfl | ⟨r, hr, rfl⟩ := hb
    · exact htvec
    · exact hregions r hr
  exact fun hc => hb ((congrArg Ctl.tvec hctl).symm.trans hc)

/-- A 33rd store discards the fragment's regions, and traps in a state from which the trap can be taken. -/
theorem overflow_discards (s : State) (cx : Cx) (h : s.has cx.u) (htvec : (s.strand cx.u).ctl.tvec ≠ 0)
    (hregions : ∀ r ∈ (s.strand cx.u).regions, r.ctl.tvec ≠ 0) (hslot : SlotOpen s cx.u 0x400 256) :
    ∃ t, overflow s cx = .trap { cause := 0x30 } t ∧ t.has cx.u ∧ (t.strand cx.u).trap = (s.strand cx.u).trap ∧
      (t.strand cx.u).ctl.tvec ≠ 0 ∧ SlotOpen t cx.u 0x400 256 ∧ Discarded s cx.u cx.mask t := by
  obtain ⟨hbuf, hhas, htrap, -⟩ := discard_buf s cx.u cx.mask (fun a b => restoreCtl a b (isDet (s.launch (s.strand cx.u).launch))) h
  have hback := strand_modStrand_self (overflowed s cx).2 cx.u (fun st => st.sendBack (overflowed s cx).1 cx.mask) hhas
  refine ⟨_, overflow_eq s cx, (has_modStrand _ _ _ _).2 hhas, ?_, ?_, ?_, ?_⟩
  · rw [hback]
    exact htrap
  · rw [hback]
    exact overflowed_tvec s cx h htvec hregions
  · exact slotOpen_mod _ cx.u _ 0x400 256 hhas ⟨rfl, rfl, rfl, rfl, rfl, rfl, rfl, rfl⟩ (overflowed_slotOpen s cx h hslot)
  · unfold Discarded
    rw [hback]
    exact hbuf

theorem trapAt_into (s : State) (p : Site) (op : Nat) (r : Raw) (us : List Use) (x : Exc) (h : s.has p.u) (hb : x.birth = none)
    (ht : (s.strand p.u).trap = none) (hv : (s.strand p.u).ctl.tvec ≠ 0) (ho : SlotOpen s p.u 0x400 256) :
    ∃ k, ((trapAt s p op r us x).strand p.u).trap = some k ∧ k.cause = x.cause ∧ k.frag = p.mask ∧
      ((trapAt s p op r us x).strand p.u).buf = (s.strand p.u).buf :=
  takeTrap_into s p _ h hb ht hv ho

/-- An instruction that is a 33rd store traps REGION_OVERFLOW. -/
theorem traps_overflow (h : Ready i s u m) (ha : acting i s u m ≠ []) (hx : exec i s = issue i s body)
    (hnb : isBoundary i.op i.uses = false) (hb : body (contextOf i s u m) s = overflow s (contextOf i s u m))
    (htrap : (s.strand u).trap = none) (htvec : (s.strand u).ctl.tvec ≠ 0) (hregions : ∀ r ∈ (s.strand u).regions, r.ctl.tvec ≠ 0)
    (hslot : SlotOpen s u 0x400 256) :
    ∃ t k, exec i s = .next t ∧ (t.strand u).trap = some k ∧ k.cause = 0x30 ∧ k.frag = m ∧ Discarded s u m t := by
  have hs := issuing_has s u m h.atIssue
  have hent := startOf_entered i s u m hnb
  have hem : (acting i s u m).isEmpty = false := by simpa using ha
  obtain ⟨r, hover, hhas, hnone, hvec, hopen, hdisc⟩ := overflow_discards s (contextOf i s u m) hs htvec hregions hslot
  have hnext : exec i s = .next (trapAt r (contextOf i s u m).site (contextOf i s u m).op (contextOf i s u m).raw i.uses { cause := 0x30 }) := by
    rw [hx, issue_ready i s u m body h, hent, hem, hb, hover]
    rfl
  obtain ⟨k, hk, hcause, hfrag, hbuf⟩ := trapAt_into r (contextOf i s u m).site (contextOf i s u m).op (contextOf i s u m).raw i.uses
    { cause := 0x30 } hhas rfl (hnone.trans htrap) hvec hopen
  exact ⟨_, k, hnext, hk, hcause, hfrag, fun e he => hdisc e ((congrArg (e ∈ ·) hbuf).mp he)⟩

end

/-! ### ST and SST -/

theorem storeOp_plain {i : Instr} {o : MemOp} {s : State} {u : Nat} {m : BitVec 32} (hi : i = .st o ∨ i = .sst o) (h : Ready i s u m) :
    isBoundary i.op i.uses = false := by
  obtain rfl | rfl := hi
  · exact not_boundary _ s u m h (usesMem_q (o.raw (bit o.h.form.isW3)) .v false) rfl
  · exact not_boundary _ s u m h (usesMem_q (o.raw 0) .s false) rfl

/-- The lanes of a store: of each thread the region, the address, the bytes and the tag. -/
def storeLanes (st : Strand) (threads : List Nat) (va : Nat → Nat) (size : Nat) (data : Nat → Opd) : List StLane :=
  threads.map fun j => stLane st j (st.thread j).lane (va j) size (data j)

theorem storeLanes_fields (st : Strand) (threads : List Nat) (va : Nat → Nat) (size : Nat) (data : Nat → Opd) :
    (storeLanes st threads va size data).map (fun l => (l.thread, l.region, l.addr, l.bytes, l.tag, l.closed)) =
      threads.map fun j => (j, (st.thread j).region, va j, toBytes (2 ^ size) (data j).val, (if st.tagEn then (data j).tag else 0), false) :=
  List.map_map ..

/-- The accesses of a vector instruction: one of each acting thread, in its lane. -/
theorem accesses_lanes (i : Instr) (o : MemOp) (s : State) (u : Nat) (m : BitVec 32) (hc : (s.strand u).clean) :
    ∃ f : Nat → Ea, accesses i o false s u m = (acting i s u m).map f ∧
      ∀ j, (f j).thread = j ∧ (f j).lane = ((s.strand u).thread j).lane ∧ (f j).poison = false := by
  refine ⟨_, rfl, fun j => ⟨rfl, rfl, ?_⟩⟩
  dsimp only
  rw [readS_clean _ hc, readV_clean _ hc]
  rfl

section
variable {o : MemOp} {s : State} {u : Nat} {m : BitVec 32}

theorem store_buffers (hc : (s.strand u).clean) (hgood : badAddr (accesses (.st o) o false s u m) (2 ^ o.size) = none)
    (hrel : o.sync = true → 2 ≤ o.ord → Released s u) (hcount : ∀ j ∈ acting (.st o) s u m, storeCount (s.strand u) j < 32) :
    store o (contextOf (.st o) s u m) s =
      .ok (bufferStore s (contextOf (.st o) s u m) .st o.size (o.sync && o.ord == 3)
        (storeLanes (s.strand u) (acting (.st o) s u m)
          (fun j => (((accesses (.st o) o false s u m).find? fun x => x.thread == j).map (·.va)).getD 0) o.size
          fun j => ((s.strand u).thread j).readV o.d (max 1 (2 ^ o.size / 4)))) := by
  have hfew : ((acting (.st o) s u m).any fun j => 32 ≤ storeCount (s.strand u) j) = false :=
    List.any_eq_false.2 fun j hj => by simpa using hcount j hj
  obtain ⟨f, hf, hlane⟩ := accesses_lanes (.st o) o s u m hc
  unfold store
  dsimp only
  refine (withAddrs_good _ _ _ _ _ hgood).trans ?_
  rw [contextOf_act, contextOf_u, hfew, if_neg Bool.false_ne_true]
  refine (releaseFirst_idle s (contextOf (.st o) s u m) o _ _ hrel).trans ?_
  refine congrArg₂ Eff.done (congrArg (bufferStore s (contextOf (.st o) s u m) .st o.size _) ?_) ?_
  · refine (List.map_map ..).trans ((congrArg (List.map _) hf).trans ((List.map_map ..).trans (List.map_congr_left fun j hj => ?_)))
    obtain ⟨hthread, hl, -⟩ := hlane j
    dsimp only [Function.comp]
    rw [hf, find_acc _ f (fun j => (hlane j).1) j hj, hthread, hl]
    rfl
  · refine List.any_eq_false.2 fun d hd => ?_
    obtain ⟨x, hx, rfl⟩ := List.mem_map.1 hd
    obtain ⟨j, -, rfl⟩ := List.mem_map.1 ((congrArg (x ∈ ·) hf).mp hx)
    obtain ⟨-, -, hpoison⟩ := hlane j
    simp [hpoison, readV_clean _ hc]

theorem store_overflows (hgood : badAddr (accesses (.st o) o false s u m) (2 ^ o.size) = none)
    (hmany : ∃ j ∈ acting (.st o) s u m, 32 ≤ storeCount (s.strand u) j) :
    store o (contextOf (.st o) s u m) s = overflow s (contextOf (.st o) s u m) := by
  have hany : ((acting (.st o) s u m).any fun j => 32 ≤ storeCount (s.strand u) j) = true := by simpa using hmany
  unfold store
  dsimp only
  refine (withAddrs_good _ _ _ _ _ hgood).trans ?_
  rw [contextOf_act, contextOf_u, hany]
  rfl

theorem storeUniform_buffers (hc : (s.strand u).clean) (hgood : badAddr (accesses (.sst o) o true s u m) (2 ^ o.size) = none)
    (hrel : o.sync = true → 2 ≤ o.ord → Released s u) (hcount : ∀ j ∈ (s.strand u).byLane m, storeCount (s.strand u) j < 32) :
    storeUniform o (contextOf (.sst o) s u m) s =
      .ok (bufferStore s (contextOf (.sst o) s u m) .sst o.size (o.sync && o.ord == 3)
        (storeLanes (s.strand u) ((s.strand u).byLane m) (fun _ => ((accesses (.sst o) o true s u m).map (·.va)).headD 0) o.size
          fun _ => (s.strand u).readS o.d (max 1 (2 ^ o.size / 4)))) := by
  have hfew : (((s.strand u).byLane m).any fun j => 32 ≤ storeCount (s.strand u) j) = false :=
    List.any_eq_false.2 fun j hj => by simpa using hcount j hj
  unfold storeUniform
  dsimp only
  refine (withAddrs_good _ _ _ _ _ hgood).trans ?_
  rw [contextOf_mask, contextOf_u, hfew, if_neg Bool.false_ne_true]
  refine (releaseFirst_idle s (contextOf (.sst o) s u m) o _ _ hrel).trans ?_
  unfold uniAddr
  dsimp only
  simp only [readS_clean _ hc]
  rfl

theorem storeUniform_overflows (hgood : badAddr (accesses (.sst o) o true s u m) (2 ^ o.size) = none)
    (hmany : ∃ j ∈ (s.strand u).byLane m, 32 ≤ storeCount (s.strand u) j) :
    storeUniform o (contextOf (.sst o) s u m) s = overflow s (contextOf (.sst o) s u m) := by
  have hany : (((s.strand u).byLane m).any fun j => 32 ≤ storeCount (s.strand u) j) = true := by simpa using hmany
  unfold storeUniform
  dsimp only
  refine (withAddrs_good _ _ _ _ _ hgood).trans ?_
  rw [contextOf_mask, contextOf_u, hany]
  rfl

end

/-- Settles O24: ST and SST place one entry (`completes_buffered`), or discard their region (`traps_overflow`). -/
theorem storesAreBuffered : Obligations.StoresAreBuffered := by
  unfold Obligations.StoresAreBuffered
  intro i o uniform s u m hi h ha hc st n xs threads va data hgood
  have hnb := storeOp_plain (hi.imp And.left And.left) h
  obtain ⟨rfl, rfl⟩ | ⟨rfl, rfl⟩ := hi
  · refine ⟨fun hrel hcount => ?_, fun hmany htrap hv hr ho => traps_overflow h ha rfl hnb (store_overflows hgood hmany) htrap hv hr ho⟩
    obtain ⟨t, hx, ⟨e, hbuf, hkind, hlanes⟩, hO, hA⟩ := completes_buffered h ha rfl hnb (store_buffers hc hgood hrel hcount)
    exact ⟨t, hx, ⟨e, hbuf, hkind, by rw [hlanes]; exact storeLanes_fields ..⟩, hO, hA⟩
  · refine ⟨fun hrel hcount => ?_, fun hmany htrap hv hr ho => traps_overflow h ha rfl hnb (storeUniform_overflows hgood hmany) htrap hv hr ho⟩
    obtain ⟨t, hx, ⟨e, hbuf, hkind, hlanes⟩, hO, hA⟩ := completes_buffered h ha rfl hnb (storeUniform_buffers hc hgood hrel hcount)
    exact ⟨t, hx, ⟨e, hbuf, hkind, by rw [hlanes]; exact storeLanes_fields ..⟩, hO, hA⟩

end Sys2Proof.Machine
end

section
/-!
Branches (O14), regions and spans (O17), CHKERR and DRAIN (O18).
-/

namespace Sys2Proof.Machine

/-! ### Branches -/

/-- Settles O14: each of the three is `goTo` with a target for every acting thread (`goTo_goes`); JMP's targets pass their checks
(`regTargets_eq`). -/
theorem branchesMoveTheirThreads : Obligations.BranchesMoveTheirThreads := by
  unfold Obligations.BranchesMoveTheirThreads
  refine ⟨fun o s u m h => ?_, fun o s u m h => ?_, fun o s u m h hok => ?_⟩
  · exact goTo_goes _ s u m (fun _ => herePc (.bra o) s u m + o.off.signExtend 62) (branch o) h rfl fun _ => rfl
  · exact goTo_goes _ s u m (fun _ => herePc (.sbra o) s u m + o.off.signExtend 62) (branch o) h rfl fun _ => rfl
  · exact goTo_goes _ s u m (fun j => BitVec.ofNat 62 ((srcOpd (.jmp o) s u m j o.target 2).val / 4)) _ h rfl fun _ =>
      regTargets_eq _ s u m o.target (fun ts e => goTo e (contextOf (.jmp o) s u m) ts) h hok

/-! ### Regions -/

/-- A boundary without an effect of its own completes: each thread of its fragment begins a region at the next instruction, and the
stores of the region it was in are closed. -/
theorem boundary_completes {i : Instr} {s : State} {u : Nat} {m : BitVec 32} (h : Ready i s u m) (hB : isBoundary i.op i.uses = true)
    (hx : exec i s = issue i s fun _ s => .ok s) :
    Completes i s u m {} fun t => ∀ j ∈ (s.strand u).byLane m,
      (t.strand u).startOf j = nextPc i s u m ∧ Shut (t.strand u) j ((s.strand u).thread j).region := by
  refine completes_same i s u m (fun _ s => .ok s) h hx (fun _ => rfl) _ fun t ht j hj => ?_
  subst ht
  have hlive : ∀ k, m.getLsbD k = true → (((entered i s u m).strand u).thread k).live = true := fun k hk =>
    (h.agree.live k).trans ((issuing_spec s u m h.atIssue).2 k hk)
  exact complete_starts (entered i s u m) (contextOf i s u m) i.uses h.has hB hlive j ((h.agree.byLane m).symm ▸ hj) _
    (entered_shut i s u m (issuing_has s u m h.atIssue) hB j (mem_byLane _ _ _ hj).1)

/-! ### Spans -/

theorem guardOpen_spec (o : GuardOp) {s : State} {u : Nat} {m : BitVec 32} (h : Ready (.guardOpen o) s u m) (ha : acting (.guardOpen o) s u m ≠ []) :
    ((s.strand u).spans.length < 4 → Completes (.guardOpen o) s u m { flow := true, ctl := fun n => n == 9 } fun t =>
      (t.strand u).spans = (s.strand u).spans ++ [Span.mk (herePc (.guardOpen o) s u m + o.off.signExtend 62) o.p
        (((entered (.guardOpen o) s u m).strand u).threads.map fun t => t.stack.length)] ∧
      cfld (t.creg u 9) 0 3 = (s.strand u).spans.length + 1) ∧
    (4 ≤ (s.strand u).spans.length → Traps (.guardOpen o) s u m false 0x32 0 ((s.strand u).laneMask (maskBits m)) 0) := by
  have hdepth : ((entered (.guardOpen o) s u m).strand u).depth = (s.strand u).spans.length := congrArg List.length h.agree.spans
  refine ⟨fun hlen => ?_, fun hlen => ?_⟩
  · obtain ⟨t, hx, ⟨hspans, hdep⟩, hO, hA⟩ := spans_completes (.guardOpen o) s u m
      (· ++ [Span.mk (herePc (.guardOpen o) s u m + o.off.signExtend 62) o.p
        (((entered (.guardOpen o) s u m).strand u).threads.map fun t => t.stack.length)]) _ h rfl ha
      (if_neg (by rw [contextOf_u, hdepth]; omega))
    refine ⟨t, hx, ⟨hspans, hdep.trans ?_⟩, hO, hA⟩
    rw [List.length_append, List.length_singleton]
    exact Nat.mod_eq_of_lt (by omega)
  · exact trap_of (.guardOpen o) s u m _ { cause := 0x32, sub := 0 } h rfl ha (if_pos (by rw [contextOf_u, hdepth]; exact hlen))
      rfl rfl (by decide) (by decide) (by decide)

theorem guardClose_spec (o : NoOp) {s : State} {u : Nat} {m : BitVec 32} (h : Ready (.guardClose o) s u m) (ha : acting (.guardClose o) s u m ≠ []) :
    ((s.strand u).spans ≠ [] → Completes (.guardClose o) s u m { flow := true, ctl := fun n => n == 9 } fun t =>
      (t.strand u).spans = (s.strand u).spans.dropLast ∧ cfld (t.creg u 9) 0 3 = ((s.strand u).spans.length - 1) % 8) ∧
    ((s.strand u).spans = [] → Traps (.guardClose o) s u m false 0x32 1 ((s.strand u).laneMask (maskBits m)) 0) := by
  have hdepth : ((entered (.guardClose o) s u m).strand u).depth = (s.strand u).spans.length := congrArg List.length h.agree.spans
  refine ⟨fun hne => ?_, fun he => ?_⟩
  · have hpos : (s.strand u).spans.length ≠ 0 := fun hz => hne (List.length_eq_zero_iff.1 hz)
    obtain ⟨t, hx, ⟨hspans, hdep⟩, hO, hA⟩ := spans_completes (.guardClose o) s u m List.dropLast _ h rfl ha
      (if_neg (by rw [contextOf_u, hdepth]; exact hpos))
    exact ⟨t, hx, ⟨hspans, by rw [hdep, List.length_dropLast]⟩, hO, hA⟩
  · exact trap_of (.guardClose o) s u m _ { cause := 0x32, sub := 1 } h rfl ha (if_pos (by rw [contextOf_u, hdepth, he]; rfl))
      rfl rfl (by decide) (by decide) (by decide)

/-- Settles O17: RGN is a boundary and nothing else (`boundary_completes`), the guards change the list of spans (`spans_completes`);
that the traps' LANES are the fragment's is log entry 19. -/
theorem regionsAndSpans : Obligations.RegionsAndSpans := by
  unfold Obligations.RegionsAndSpans
  exact ⟨fun b s u m h => nop_completes b h, fun o s u m h => boundary_completes h rfl rfl, fun o s u m h ha => guardOpen_spec o h ha,
    fun o s u m h ha => guardClose_spec o h ha⟩

/-! ### CHKERR -/

/-- CHKERR is no boundary (R162). -/
theorem chkerr_no_boundary (o : ChkOp) : isBoundary (Instr.chkerr o).op (Instr.chkerr o).uses = false := rfl

/-- The error bits that CHKERR finds (R170). -/
def checkedBits (o : ChkOp) (s : State) (u : Nat) : Nat := (s.creg u 3).toNat % 16 &&& o.mask

theorem checkedBits_lt (o : ChkOp) (s : State) (u : Nat) : checkedBits o s u < 16 :=
  Nat.lt_of_le_of_lt Nat.and_le_left (Nat.mod_lt _ (by decide))

/-- What CHKERR leaves where it does not trap: its uniform predicate, and the bits it found cleared where CLR asks for it. -/
def checked (o : ChkOp) (s : State) (cx : Cx) : State :=
  if o.clr then
    (writeK s cx o.k (checkedBits o s cx.u != 0)).modStrand cx.u fun st =>
      { st with ctl := { st.ctl with chki := st.ctl.chki &&& ~~~BitVec.ofNat 64 (checkedBits o s cx.u) } }
  else writeK s cx o.k (checkedBits o s cx.u != 0)

theorem chkerr_body (o : ChkOp) (s : State) : ∃ body, exec (.chkerr o) s = issue (.chkerr o) s body ∧ ∀ cx t,
    body cx t = if checkedBits o t cx.u ≠ 0 ∧ o.t then .trap { cause := 0x40, sub := 0x10 + checkedBits o t cx.u } t else .ok (checked o t cx) := by
  refine ⟨_, rfl, fun cx t => ?_⟩
  have hbits : cfld (t.strand cx.u).ctl.chki 0 4 &&& o.mask = checkedBits o t cx.u := by
    unfold checkedBits cfld fld
    rw [Nat.pow_zero, Nat.div_one]
    rfl
  dsimp only
  rw [hbits]
  rfl

theorem checked_body (o : ChkOp) (s : State) (cx : Cx) (h : s.has cx.u) :
    Body { k := fun c => decide (c = o.k ∧ o.k ≠ 7), ctl := fun n => n == 3 } s (checked o s cx) cx.u := by
  have hk : Body { k := fun c => decide (c = o.k ∧ o.k ≠ 7), ctl := fun n => n == 3 } s (writeK s cx o.k (checkedBits o s cx.u != 0)) cx.u :=
    writeK_body s cx o.k _ _ h fun h7 => decide_eq_true ⟨rfl, h7⟩
  unfold checked
  split
  · refine hk.trans (Body.mono (ctlPut_body _ cx.u 3 (fun c => { c with chki := c.chki &&& ~~~BitVec.ofNat 64 (checkedBits o s cx.u) })
      (hk.has h) fun r hr h0 h3 st => ?_) ⟨?_, ?_, ?_, ?_, ?_, fun _ h => h, ?_, ?_, ?_, ?_⟩)
    · interval_cases r <;> first | rfl | contradiction
    all_goals simp
  · exact hk

theorem checked_kpred (o : ChkOp) (s : State) (cx : Cx) (h : s.has cx.u) (hk : o.k < 7) :
    (checked o s cx).kpred cx.u o.k = (checkedBits o s cx.u != 0) := by
  have hw := writeK_kpred s cx o.k (checkedBits o s cx.u != 0) h hk
  have hh : (writeK s cx o.k (checkedBits o s cx.u != 0)).has cx.u := (has_modStrand _ _ _ _).2 h
  unfold checked
  split
  · unfold State.kpred at hw ⊢
    rw [strand_modStrand_self _ _ _ hh]
    exact hw
  · exact hw

theorem checked_chki (o : ChkOp) (s : State) (cx : Cx) (h : s.has cx.u) :
    (checked o s cx).creg cx.u 3 = if o.clr then s.creg cx.u 3 &&& ~~~BitVec.ofNat 64 (checkedBits o s cx.u) else s.creg cx.u 3 := by
  have hs : (writeK s cx o.k (checkedBits o s cx.u != 0)).strand cx.u = _ := strand_modStrand_self s cx.u _ h
  have hh : (writeK s cx o.k (checkedBits o s cx.u != 0)).has cx.u := (has_modStrand _ _ _ _).2 h
  unfold checked
  split
  · show ((State.modStrand _ _ _).strand cx.u).ctl.chki = _
    rw [strand_modStrand_self _ _ _ hh, hs]
    rfl
  · show ((writeK s cx o.k _).strand cx.u).ctl.chki = _
    rw [hs]
    rfl

theorem chkerr_spec (o : ChkOp) {s : State} {u : Nat} {m : BitVec 32} (h : Ready (.chkerr o) s u m) (ha : acting (.chkerr o) s u m ≠ []) :
    (checkedBits o s u = 0 ∨ o.t = false →
      Completes (.chkerr o) s u m { k := fun c => decide (c = o.k ∧ o.k ≠ 7), ctl := fun n => n == 3 } fun t =>
        (o.k < 7 → t.kpred u o.k = (checkedBits o s u != 0)) ∧
        t.creg u 3 = if o.clr then s.creg u 3 &&& ~~~BitVec.ofNat 64 (checkedBits o s u) else s.creg u 3) ∧
    (checkedBits o s u ≠ 0 → o.t = true →
      Traps (.chkerr o) s u m false 0x40 (0x10 + checkedBits o s u) ((s.strand u).laneMask (maskBits m)) 0) := by
  have hs := issuing_has s u m h.atIssue
  have hent := startOf_entered (.chkerr o) s u m (chkerr_no_boundary o)
  obtain ⟨body, hx, hb⟩ := chkerr_body o s
  have hb := hb (contextOf (.chkerr o) s u m) s
  rw [contextOf_u] at hb
  refine ⟨fun hok => ?_, fun hne ht => ?_⟩
  · have hno : ¬(checkedBits o s u ≠ 0 ∧ o.t = true) := fun hc => hok.elim hc.1 fun ht => by simp [ht] at hc
    rw [if_neg hno] at hb
    refine completes_of (.chkerr o) s u m _ _ body _ h hx (fun _ => hent.symm ▸ hb) (fun _ => hent.symm ▸ checked_body o s _ hs) fun t0 ht0 hh => ?_
    rw [if_neg ha] at ht0
    subst ht0
    refine ⟨fun hk => ?_, ?_⟩
    · exact ((complete_kept _ (contextOf (.chkerr o) s u m) _ hh).kpreds o.k rfl).trans (checked_kpred o s (contextOf (.chkerr o) s u m) hs hk)
    · exact (complete_creg_plain _ (contextOf (.chkerr o) s u m) _ hh (chkerr_no_boundary o) 3 (by decide) (by decide)).trans
        (checked_chki o s (contextOf (.chkerr o) s u m) hs)
  · rw [if_pos ⟨hne, ht⟩] at hb
    have hlt := checkedBits_lt o s u
    exact trap_of (.chkerr o) s u m body { cause := 0x40, sub := 0x10 + checkedBits o s u } h hx ha (hent.symm ▸ hb) rfl rfl (show 0x40 < 256 by decide)
      (show 0x10 + checkedBits o s u < 65536 by omega) (show 0 < 2 ^ 64 by decide)

/-! ### DRAIN -/

/-- A wait for the stores of a strand that owes none is over at once (R169). -/
theorem settleStores_idle (s : State) (u : Nat) (m : BitVec 32) (restart next : Nat) (k : State → Eff) (hcq : (s.strand u).cq = [])
    (hun : (s.strand u).unacked = []) (hf : (s.strand u).stFaults = []) : settleStores s u m restart next k = k s := by
  unfold settleStores
  dsimp only
  rw [commitPass_nil s u _ hcq]
  unfold storesOwed nowFaults
  rw [hcq, hun, hf]
  rfl

theorem drain_completes (o : NoOp) {s : State} {u : Nat} {m : BitVec 32} (h : Ready (.drain o) s u m) (hbuf : (s.strand u).buf = [])
    (hre : (s.strand u).redraw = []) (hun : (s.strand u).unacked = []) : Completes (.drain o) s u m {} fun _ => True := by
  obtain ⟨hcq, hf⟩ := h.settled rfl
  have hi := entered_idle (.drain o) s u m (issuing_has s u m h.atIssue) hbuf hre hcq
  exact completes_same _ s u m _ h rfl (fun _ => settleStores_idle _ u _ _ _ _ hi.cq (hi.unacked.trans hun) (hi.stFaults.trans hf)) _
    fun _ _ => trivial

/-- Settles O18: CHKERR finds `checkedBits` and leaves `checked`, or traps with what it found; DRAIN finds no store to wait for
(`settleStores_idle`). That the trap's LANES are the fragment's is log entry 19. -/
theorem chkerrAndDrain : Obligations.ChkerrAndDrain := by
  unfold Obligations.ChkerrAndDrain
  exact ⟨fun o s u m h ha => chkerr_spec o h ha, fun o s u m h hbuf hre hun => drain_completes o h hbuf hre hun⟩

end Sys2Proof.Machine
end

section
/-!
TAG.GET, TAG.SET and TAG.MINT (O19).
-/

namespace Sys2Proof.Machine

/-! ### Results written after births -/

/-- An instruction that mints births and then writes a vector destination: `s1` is the state between the two. -/
theorem vec_write_births {i : Instr} {s : State} {u : Nat} {m : BitVec 32} {d n : Nat} {s1 : State} {ws : Nat → List Word × Tag}
    {body : Cx → State → Eff} (h : Ready i s u m) (hx : exec i s = issue i s body)
    (hb : body (contextOf i s u m) (entered i s u m) = .ok (writeD s1 (contextOf i s u m) d ((acting i s u m).map fun j => (j, ws j))))
    (h1 : Body Touch.births (entered i s u m) s1 u) (hlen : ∀ j ∈ acting i s u m, (ws j).1.length = n) :
    Completes i s u m { Touch.vec i s u m d n with ctl := fun n => n == 1 || n == 0x11, launches := true } fun t =>
      Gives i s t u m d n fun j k => { val := (ws j).1.getD k 0, tag := (ws j).2 } := by
  have hs1 : s1.has u := h1.has h.has
  have hlane (j : Nat) : ((s1.strand u).thread j).lane = ((s.strand u).thread j).lane := (h1.shape.2.2 j).trans (h.agree.lane j)
  have hprot : (s1.strand u).prot = (s.strand u).prot := h1.shape.1.trans h.agree.prot
  have hwrite : Body (Touch.vec i s u m d n) s1 (writeD s1 (contextOf i s u m) d ((acting i s u m).map fun j => (j, ws j))) u := by
    refine writeD_body s1 (contextOf i s u m) d _ _ hs1 (fun hd r hr c hlo hhi => ?_) fun hd => by simp [Touch.vec, hd]
    obtain ⟨j, hj, rfl⟩ := List.mem_map.1 hr
    dsimp only at hhi
    rw [hlen j hj] at hhi
    simp [Touch.vec, hd, hj, hlo, hhi]
  refine completes_of i s u m _ _ body _ h hx (fun _ => hb)
    (fun _ => (h1.mono (by constructor <;> simp [Touch.births])).trans (hwrite.mono (by constructor <;> simp [Touch.vec]))) fun t0 ht0 hh =>
    Gives_core i s u m d n _ t0 h hh (fun hd ha hql => ?_) fun hd j hj k hk h0 => ?_
  · rw [if_neg ha] at ht0
    subst ht0
    refine (writeD_queue s1 (contextOf i s u m) d (acting i s u m) ws hs1 hd
      (by rw [contextOf_u, h1.shape.2.1, h.agree.q]; exact hql)).trans ?_
    have hold : s1.queue u (d - 248) = s.queue u (d - 248) :=
      (h1.only.queues (d - 248) rfl).trans (congrArg (fun q : List (List (List TWord)) => q.getD (d - 248) []) h.agree.q)
    rw [contextOf_u, hold]
    unfold queueEntry
    simp only [hlane, hprot]
  · rw [if_neg (List.ne_nil_of_mem hj)] at ht0
    subst ht0
    exact writeD_vreg s1 (contextOf i s u m) d (acting i s u m) ws hs1 hd j hj
      (by rw [contextOf_u, h1.len, h.agree.len]; exact (acting_lt i s u m j hj).1) k (by rw [hlen j hj]; exact hk) h0

/-- A list over the acting threads in which no operand is poisoned. -/
theorem any_map_false {α : Type} (l : List Nat) (f : Nat → α) (p : α → Bool) (h : ∀ j, p (f j) = false) : (l.map f).any p = false := by
  rw [List.any_map, List.any_eq_false]
  intro j _
  simp [h]

/-- The operands that a one-source instruction reads, with their threads. -/
theorem Ready.operands {i : Instr} {s : State} {u : Nat} {m : BitVec 32} (h : Ready i s u m) (c n : Nat) :
    ((contextOf i s u m).act.map fun j => (j, (contextOf i s u m).v ((entered i s u m).strand u) j c n)) =
      (acting i s u m).map fun j => (j, vOpd i s u m j c n) :=
  List.map_congr_left fun j _ => by rw [h.agree.cxv]; rfl

theorem operands_clean {i : Instr} {s : State} {u : Nat} {m : BitVec 32} (hc : (s.strand u).clean) (l : List Nat) (c n : Nat) :
    (l.map fun j => (j, vOpd i s u m j c n)).any (·.2.poison) = false :=
  any_map_false l _ _ fun j => v_clean _ _ hc j c n

/-! ### TAG.GET -/

theorem tagGet_spec (o : TagOp) {s : State} {u : Nat} {m : BitVec 32} (h : Ready (.tagGet o) s u m) (hc : (s.strand u).clean) :
    VecResult (.tagGet o) s u m o.d 1 (fun j => [(vOpd (.tagGet o) s u m j o.a 1).tag.setWidth 32]) fun _ => 0 := by
  refine vec_write _ s u m o.d 1 _ _ _ h (fun _ => rfl) (fun _ _ => rfl) ?_
  dsimp only
  rw [contextOf_u, h.operands, operands_clean hc, List.map_map]
  rfl

/-! ### TAG.SET -/

/-- The tag that TAG.SET is given in thread j. -/
def givenTag (o : TagOp) (s : State) (u : Nat) (m : BitVec 32) (j : Nat) : Tag := (srcOpd (.tagSet o) s u m j o.b 1).w.setWidth 16

/-- A value that is no tag: class NONE with an index (R93). -/
def noTag (t : Tag) : Bool := tagClass t = 0 ∧ tagIndex t ≠ 0

theorem tagSet_form (o : TagOp) : (Instr.tagSet o).fields.form = o.h.form := by
  show (Raw.putSrc _ o.b).form = _
  cases o.b <;> rfl

/-- TAG.SET's meaning, of operands without poison. -/
theorem tagSet_body (o : TagOp) {s : State} {u : Nat} {m : BitVec 32} (h : Ready (.tagSet o) s u m) (hc : (s.strand u).clean) :
    ∃ body, (∀ s, exec (.tagSet o) s = issue (.tagSet o) s body) ∧ body (contextOf (.tagSet o) s u m) (entered (.tagSet o) s u m) =
      if (acting (.tagSet o) s u m).any fun j => noTag (givenTag o s u m j) then
        .trap { cause := 0x02, sub := if o.h.form.isW3 then 32 else 24 } (entered (.tagSet o) s u m)
      else .ok (writeD (entered (.tagSet o) s u m) (contextOf (.tagSet o) s u m) o.d ((acting (.tagSet o) s u m).map fun j =>
        (j, [(vOpd (.tagSet o) s u m j o.a 1).w], if (s.strand u).tagEn then givenTag o s u m j else 0))) := by
  refine ⟨_, fun _ => rfl, ?_⟩
  have hops : ((contextOf (.tagSet o) s u m).act.map fun j => (j, (contextOf (.tagSet o) s u m).v ((entered (.tagSet o) s u m).strand u) j o.a 1,
      (contextOf (.tagSet o) s u m).src ((entered (.tagSet o) s u m).strand u) j o.b 1)) =
      (acting (.tagSet o) s u m).map fun j => (j, vOpd (.tagSet o) s u m j o.a 1, srcOpd (.tagSet o) s u m j o.b 1) :=
    List.map_congr_left fun j _ => by rw [h.agree.cxv, h.agree.cxsrc]; rfl
  have hform : (contextOf (.tagSet o) s u m).raw.form = o.h.form := tagSet_form o
  have hpoison (l : List Nat) : (l.map fun j => (j, vOpd (.tagSet o) s u m j o.a 1, srcOpd (.tagSet o) s u m j o.b 1)).any
      (fun x => x.2.1.poison || x.2.2.poison) = false :=
    any_map_false l _ _ fun j => Bool.or_eq_false_iff.2 ⟨v_clean _ _ hc j o.a 1, src_clean _ _ hc j o.b 1⟩
  dsimp only
  rw [contextOf_u, hops, hform, hpoison, List.any_map, List.map_map, h.agree.tagEn]
  rfl

theorem tagSet_spec (o : TagOp) {s : State} {u : Nat} {m : BitVec 32} (h : Ready (.tagSet o) s u m) (hc : (s.strand u).clean) :
    ((∀ j ∈ acting (.tagSet o) s u m, noTag (givenTag o s u m j) = false) →
      VecResult (.tagSet o) s u m o.d 1 (fun j => [(vOpd (.tagSet o) s u m j o.a 1).w])
        fun j => if (s.strand u).tagEn then givenTag o s u m j else 0) ∧
    ((∃ j ∈ acting (.tagSet o) s u m, noTag (givenTag o s u m j) = true) →
      Traps (.tagSet o) s u m false 0x02 (if o.h.form.isW3 then 32 else 24) ((s.strand u).laneMask (maskBits m)) 0) := by
  obtain ⟨body, hx, hb⟩ := tagSet_body o h hc
  refine ⟨fun hgood => ?_, fun hbad => ?_⟩
  · have hany : ((acting (.tagSet o) s u m).any fun j => noTag (givenTag o s u m j)) = false := List.any_eq_false.2 fun j hj => by simp [hgood j hj]
    rw [hany, if_neg Bool.false_ne_true] at hb
    exact vec_write _ s u m o.d 1 body _ _ h hx (fun _ _ => rfl) hb
  · rw [if_pos (List.any_eq_true.2 hbad)] at hb
    have hsub : (if o.h.form.isW3 then 32 else 24) < 65536 := by split <;> decide
    obtain ⟨j, hj, _⟩ := hbad
    exact trap_of _ s u m body { cause := 0x02, sub := if o.h.form.isW3 then 32 else 24 } h (hx s) (List.ne_nil_of_mem hj) hb rfl rfl
      (show 0x02 < 256 by decide) hsub (show 0 < 2 ^ 64 by decide)

/-! ### TAG.MINT -/

/-- Where no birth is minted, the copies keep their tags (R101). -/
theorem mintLanes_noMint (s : State) (cx : Cx) (xs : List (Nat × Opd)) (hm : s.mints cx.u = false) :
    mintLanes s cx xs = (s, xs.map fun x => (x.1, [x.2.w], x.2.tag)) := by
  have hm' : ((s.strand cx.u).tagEn && (s.strand cx.u).mintOn) = false := hm
  have key (l : List (Nat × Opd)) (acc : List (Nat × List Word × Tag)) :
      l.foldl (fun r x => (r.1, r.2 ++ [(x.1, [x.2.w], x.2.tag)])) (s, acc) = (s, acc ++ l.map fun x => (x.1, [x.2.w], x.2.tag)) := by
    induction l generalizing acc with
    | nil => simp
    | cons x l ih => rw [List.foldl_cons, ih]; simp
  unfold mintLanes
  simp only [hm', Bool.false_eq_true, if_false]
  exact key xs []

/-- TAG.MINT's meaning, of operands without poison. -/
theorem tagMint_body (o : TagOp) {s : State} {u : Nat} {m : BitVec 32} (h : Ready (.tagMint o) s u m) (hc : (s.strand u).clean) :
    ∃ body, (∀ s, exec (.tagMint o) s = issue (.tagMint o) s body) ∧ body (contextOf (.tagMint o) s u m) (entered (.tagMint o) s u m) =
      let r := mintLanes (entered (.tagMint o) s u m) (contextOf (.tagMint o) s u m)
        ((acting (.tagMint o) s u m).map fun j => (j, vOpd (.tagMint o) s u m j o.a 1))
      .ok (writeD r.1 (contextOf (.tagMint o) s u m) o.d r.2) := by
  refine ⟨_, fun _ => rfl, ?_⟩
  dsimp only
  rw [contextOf_u, h.operands, operands_clean hc]
  rfl

theorem Ready.mints_entered {i : Instr} {s : State} {u : Nat} {m : BitVec 32} (h : Ready i s u m) : (entered i s u m).mints u = s.mints u := by
  unfold State.mints
  rw [h.agree.tagEn, h.agree.mintOn]

theorem tagMint_copies (o : TagOp) {s : State} {u : Nat} {m : BitVec 32} (h : Ready (.tagMint o) s u m) (hc : (s.strand u).clean)
    (hm : s.mints u = false) : VecResult (.tagMint o) s u m o.d 1 (fun j => [(vOpd (.tagMint o) s u m j o.a 1).w])
      fun j => (vOpd (.tagMint o) s u m j o.a 1).tag := by
  obtain ⟨body, hx, hb⟩ := tagMint_body o h hc
  have hno : (entered (.tagMint o) s u m).mints (contextOf (.tagMint o) s u m).u = false := h.mints_entered.trans hm
  rw [mintLanes_noMint _ _ _ hno] at hb
  dsimp only at hb
  rw [List.map_map] at hb
  exact vec_write _ s u m o.d 1 body _ _ h hx (fun _ _ => rfl) hb

theorem tagMint_mints (o : TagOp) {s : State} {u : Nat} {m : BitVec 32} (h : Ready (.tagMint o) s u m) (hc : (s.strand u).clean)
    (hm : s.mints u = true) : Completes (.tagMint o) s u m
      { Touch.vec (.tagMint o) s u m o.d 1 with ctl := fun n => n == 1 || n == 0x11, launches := true } fun t =>
      ∃ tags : Nat → Tag, (∀ j ∈ acting (.tagMint o) s u m, isBirth (tags j) = true) ∧
        Gives (.tagMint o) s t u m o.d 1 fun j k => { val := [(vOpd (.tagMint o) s u m j o.a 1).w].getD k 0, tag := tags j } := by
  obtain ⟨body, hx, hb⟩ := tagMint_body o h hc
  obtain ⟨hbody, hwords, hbirth⟩ := mintLanes_body (entered (.tagMint o) s u m) (contextOf (.tagMint o) s u m)
    ((acting (.tagMint o) s u m).map fun j => (j, vOpd (.tagMint o) s u m j o.a 1)) h.has (h.mints_entered.trans hm)
  rw [List.map_map] at hwords
  obtain ⟨tags, htags⟩ := keyed (acting (.tagMint o) s u m) _ (fun j => [(vOpd (.tagMint o) s u m j o.a 1).w]) hwords (acting_nodup _ s u m)
  rw [htags] at hbirth
  dsimp only at hb
  rw [htags] at hb
  obtain ⟨t, hnext, hgives, hO, hA⟩ := vec_write_births h (hx s) hb hbody fun _ _ => rfl
  exact ⟨t, hnext, ⟨tags, fun j hj => hbirth _ (List.mem_map_of_mem hj), hgives⟩, hO, hA⟩

/-- Settles O19: the three are results written with given tags (`vec_write`, `vec_write_births`); that LANES of TAG.SET's trap are the fragment's is
log entry 19. -/
theorem tagOperations : Obligations.TagOperations := by
  unfold Obligations.TagOperations
  refine ⟨fun o s u m h hc => tagGet_spec o h hc, fun o s u m h hc => ?_, fun o s u m h hc => ⟨tagMint_copies o h hc, tagMint_mints o h hc⟩⟩
  obtain ⟨hgood, hbad⟩ := tagSet_spec o h hc
  refine ⟨fun hok => hgood fun j hj => decide_eq_false (hok j hj), fun hno => hbad ?_⟩
  obtain ⟨j, hj, hn⟩ := hno
  exact ⟨j, hj, decide_eq_true hn⟩

end Sys2Proof.Machine
end

section
/-!
TRAP (O20) and EXIT (O16).
-/

namespace Sys2Proof.Machine

/-! ### TRAP -/

theorem trap_code_lt {o : TrapOp} (h : (Instr.trap o).WF) : o.code < 2 ^ 16 := by
  obtain ⟨hf, -⟩ := List.append_eq_nil_iff.1 h
  obtain ⟨-, hcode⟩ := List.append_eq_nil_iff.1 (show o.h.faults two ++ need (o.code < 2 ^ 16) (o.h.form.at 10 64) = [] from hf)
  by_contra hge
  unfold need at hcode
  rw [if_neg (by simpa using hge)] at hcode
  cases hcode

/-- TRAP's meaning: a trap of its acting lanes, whatever the strand's state (R173). -/
theorem trap_body (o : TrapOp) {s : State} {u : Nat} {m : BitVec 32} (h : Ready (.trap o) s u m) :
    ∃ body, exec (.trap o) s = issue (.trap o) s body ∧ body (contextOf (.trap o) s u m) (entered (.trap o) s u m) =
      .trap { cause := 0x60, sub := o.code, lanes := some ((s.strand u).laneMask (acting (.trap o) s u m)) } (entered (.trap o) s u m) := by
  refine ⟨_, rfl, ?_⟩
  rw [contextOf_u, contextOf_act, h.agree.laneMask]

/-- Settles O20: TRAP's meaning is its trap (`trap_body`), which enters the handler (`trap_of`) or terminates the strand (`dies_of`). -/
theorem trapEntersTheHandler : Obligations.TrapEntersTheHandler := by
  unfold Obligations.TrapEntersTheHandler
  intro o s u m h ha
  obtain ⟨body, hx, hb⟩ := trap_body o h
  refine ⟨?_, fun hnone htvec => ?_, fun hin => ?_⟩
  · exact trap_of _ s u m body { cause := 0x60, sub := o.code, lanes := some _ } h hx ha hb rfl rfl (show 0x60 < 256 by decide)
      (trap_code_lt h.wf) (show 0 < 2 ^ 64 by decide)
  · exact dies_of _ s u m body _ 0x60 h hx ha hb rfl (.inr ⟨hnone, htvec, rfl⟩)
  · exact dies_of _ s u m body _ 0x61 h hx ha hb rfl (.inl ⟨hin, rfl⟩)

/-- An instruction after which its threads have gone elsewhere. -/
theorem exec_gone {i : Instr} {s : State} {u : Nat} {m : BitVec 32} {body : Cx → State → Eff} {e : State} (h : Ready i s u m)
    (hx : exec i s = issue i s body) (ha : acting i s u m ≠ []) (hb : body (contextOf i s u m) (entered i s u m) = .gone e) :
    exec i s = .next (stopRun e) := by
  have hem : (acting i s u m).isEmpty = false := by simpa using ha
  rw [hx, issue_ready i s u m body h, hb, hem]
  rfl

/-! ### EXIT -/

/-- A change that `Quiet` allows touches, of what a program sees, the control registers that closing regions changes. -/
theorem Quiet.body {s t : State} {u : Nat} (w : Touch) (hq : Quiet u s t) (h2 : w.ctl 2 = true) (h3 : w.ctl 3 = true) (h11 : w.ctl 0x11 = true) :
    Body w s t u := by
  refine ⟨only_of hq.beside hq.agree fun n hn h0 hw => ?_, hq.stay, hq.agree.len, hq.beside.has.2, hq.agree.prot, by rw [hq.agree.q], hq.agree.lane⟩
  have hne {k : Nat} (hk : w.ctl k = true) : n ≠ k := by
    rintro rfl
    simp [hk] at hw
  exact creg_agree hq.agree hn h0 (hne h2) (hne h3) (hne h11)

/-- What EXIT may change: which threads live, and what closing their regions changes. -/
def Touch.exits : Touch := { flow := true, ctl := fun n => n == 2 || n == 3 || n == 0x11 }

/-- The threads `act` gone, nothing else: they are live no longer. -/
theorem gone_live {a b : Strand} {act : List Nat} (hlt : ∀ j ∈ act, j < 32) (h : ∀ j, (b.thread j).live = ((a.thread j).live && !(maskOf act).getLsbD j))
    (j : Nat) : (b.thread j).live = ((a.thread j).live && !act.contains j) := by
  rw [h, getLsbD_maskOf]
  by_cases hj : j ∈ act
  · simp [hj, hlt j hj]
  · simp [hj]

/-- Where other threads of the strand live on, EXIT takes its threads out; alone in their fragment they close their regions (R159). -/
theorem exitSome_spec (s : State) (cx : Cx) (h : s.has cx.u) (hlt : ∀ j ∈ cx.act, j < 32)
    (houts : ∀ j ∈ cx.act, ((s.strand cx.u).thread j).outs = []) :
    ∃ t, exitSome s cx = .ok t ∧ Body Touch.exits s t cx.u ∧
      ∀ j, ((t.strand cx.u).thread j).live = (((s.strand cx.u).thread j).live && !cx.act.contains j) := by
  by_cases hstay : cx.mask &&& ~~~maskOf cx.act = 0
  · obtain ⟨hout, hlive⟩ := exit_out s.newId.2 cx.u (maskOf cx.act) (maskOf cx.act) Touch.exits h rfl
    have hq := closeThreads_quiet _ cx.u (maskOf cx.act) s.newId.1 (hout.has h)
    refine ⟨_, ?_, (newId_body _ s cx.u).trans (hout.trans (hq.body Touch.exits rfl rfl rfl)), gone_live hlt fun j => (hq.agree.live j).trans (hlive j)⟩
    have hany : (cx.act.any fun i => !((s.strand cx.u).thread i).outs.isEmpty) = false := List.any_eq_false.2 fun j hj => by simp [houts j hj]
    unfold exitSome
    dsimp only
    rw [hstay, hany]
    rfl
  · obtain ⟨hout, hlive⟩ := exit_out s cx.u (maskOf cx.act) (cx.mask &&& ~~~maskOf cx.act) Touch.exits h rfl
    exact ⟨_, if_pos (bne_iff_ne.2 hstay), hout, gone_live hlt hlive⟩

/-- EXIT is no boundary (R162). -/
theorem exit_entered (o : NoOp) (s : State) (u : Nat) (m : BitVec 32) : entered (.exit o) s u m = s := startOf_entered _ s u m rfl

/-- Live threads outside of `act`, by their mask. -/
theorem survivors_eq_zero (st : Strand) (act : List Nat) :
    st.liveMask &&& ~~~maskOf act = 0 ↔ ∀ j, st.liveMask.getLsbD j = true → j ∈ act := by
  have hbit (j : Nat) : (st.liveMask &&& ~~~maskOf act).getLsbD j = (st.liveMask.getLsbD j && !act.contains j) := by
    rw [BitVec.getLsbD_and, BitVec.getLsbD_not, getLsbD_maskOf, getLsbD_liveMask]
    by_cases hj : j < 32 <;> simp [hj]
  refine ⟨fun hz j hj => ?_, fun hall => BitVec.eq_of_getLsbD_eq fun j _ => ?_⟩
  · have := hbit j
    rw [hz, hj] at this
    simpa using this.symm
  · rw [hbit]
    cases hj : st.liveMask.getLsbD j
    · simp
    · simp [hall j hj]

theorem exit_some (o : NoOp) {s : State} {u : Nat} {m : BitVec 32} (h : Ready (.exit o) s u m) (htrap : (s.strand u).trap = none)
    (hleft : ∃ j, (s.strand u).liveMask.getLsbD j ∧ j ∉ acting (.exit o) s u m) :
    Completes (.exit o) s u m Touch.exits fun t =>
      ∀ j, ((t.strand u).thread j).live = (((s.strand u).thread j).live && !(acting (.exit o) s u m).contains j) := by
  have hs := issuing_has s u m h.atIssue
  obtain ⟨t1, hexit, hbody, hlive⟩ := exitSome_spec s (contextOf (.exit o) s u m) hs (fun _ => acting_lt_32)
    fun j hj => h.returned j (acting_lt _ s u m j hj).2
  have hmore : (s.strand u).liveMask &&& ~~~maskOf (acting (.exit o) s u m) ≠ 0 := fun hz => by
    obtain ⟨j, hj, hn⟩ := hleft
    exact hn ((survivors_eq_zero _ _).1 hz j hj)
  refine completes_of (.exit o) s u m _ _ _ t1 h rfl (fun _ => ?_) (fun _ => (exit_entered o s u m).symm ▸ hbody) fun t0 ht0 hh j => ?_
  · rw [exit_entered]
    refine (if_neg (by rw [contextOf_u, htrap]; decide)).trans ((if_neg ?_).trans hexit)
    exact hmore
  · obtain ⟨hkept, -, -⟩ := (complete_kept t0 (contextOf (.exit o) s u m) (Instr.exit o).uses hh).flow rfl
    refine (hkept j).trans ?_
    subst ht0
    split
    · next ha => rw [exit_entered, ha]; simp
    · exact hlive j

theorem exit_last (o : NoOp) {s : State} {u : Nat} {m : BitVec 32} (h : Ready (.exit o) s u m) (htrap : (s.strand u).trap = none)
    (ha : acting (.exit o) s u m ≠ []) (hall : ∀ j, (s.strand u).liveMask.getLsbD j → j ∈ acting (.exit o) s u m)
    {e : State} (hfinal : finalExit s (contextOf (.exit o) s u m).site .gone = .gone e) : exec (.exit o) s = .next (stopRun e) := by
  refine exec_gone h rfl ha ?_
  rw [exit_entered]
  refine (if_neg (by rw [contextOf_u, htrap]; decide)).trans ((if_pos ?_).trans hfinal)
  exact (survivors_eq_zero _ _).2 hall

/-- Settles O16: `exitSome_spec` where threads live on, `finalExit_ends` for the last of them, `dies_of` in a handler. -/
theorem exitEndsThreads : Obligations.ExitEndsThreads := by
  unfold Obligations.ExitEndsThreads
  intro o s u m h st act
  refine ⟨fun htrap hleft => exit_some o h htrap hleft,
    fun htrap ha hall houts hbuf hre hcq hun heng hst hcp hmt hws _ => ?_, fun hin ha => ?_⟩
  · obtain ⟨e, hfinal, -, hphase, hdead, honly, -⟩ := finalExit_ends (.exit o) s (contextOf (.exit o) s u m).site .gone
      (issuing_has s u m h.atIssue) houts hbuf hre hcq hun heng hst hcp hmt hws
    exact ⟨stopRun e, exit_last o h htrap ha hall hfinal, hphase, hdead, honly.trans (stopRun_only _ e u)⟩
  · refine dies_of (.exit o) s u m _ { cause := 0x61 } 0x61 h rfl ha (if_pos ?_) rfl (.inl ⟨hin, rfl⟩)
    rw [exit_entered]
    exact Option.isSome_iff_ne_none.2 hin

end Sys2Proof.Machine
end

section
/-!
The returns from a trap (O21): what TRET waits for, what leaving trap mode changes, and where the trapped threads go on.
-/

namespace Sys2Proof.Machine

/-! ### The frame, read back -/

/-- The trap frame reads the same where only regions, pcs and windows of the strand have changed. -/
theorem Quiet.frameField {u : Nat} {s t : State} (h : Quiet u s t) (off n : Nat) :
    Machine.frameField t (t.strand u) off n = Machine.frameField s (s.strand u) off n := by
  have hd : SameDevice s t := ⟨h.beside.mem, h.beside.contexts, h.beside.sec⟩
  obtain ⟨-, -, -, -, -, -, htfp, -⟩ := h.agree.ctls
  unfold Machine.frameField State.ctxOf State.launch
  rw [hd.devGet, h.agree.launch, h.beside.launches, htfp]

/-! ### What TRET waits for -/

/-- The threads in the handler that are not of the fragment. -/
def handlerOthers (st : Strand) (m : BitVec 32) : BitVec 32 :=
  maskOf ((List.range st.threads.length).filter fun j => (st.thread j).inTrap && !m.getLsbD j)

/-- A strand in a handler that owes no store: TRET's meaning is to return, as `f` does it, from a state in which only regions have been
closed (R175). -/
theorem tret_settled (f : Site → TrapState → State → State) (cx : Cx) (s : State) {k : TrapState} (h : s.has cx.u)
    (htrap : (s.strand cx.u).trap = some k) (hbuf : (s.strand cx.u).buf = []) (hre : (s.strand cx.u).redraw = [])
    (hcq : (s.strand cx.u).cq = []) (hun : (s.strand cx.u).unacked = []) (hf : (s.strand cx.u).stFaults = []) :
    ∃ t, tret f cx s = .gone (f cx.site k t) ∧ Quiet cx.u s t := by
  have hclosed := closeThreads_idle s.newId.2 cx.u (handlerOthers (s.strand cx.u) cx.mask) s.newId.1 h hbuf hre hcq
  have hcommit := commitPass_nil _ _ (fun _ => true) hclosed.cq
  refine ⟨closeThreads s.newId.2 cx.u (handlerOthers (s.strand cx.u) cx.mask) s.newId.1, ?_,
    (newId_quiet s cx.u).trans (closeThreads_quiet _ cx.u _ _ h)⟩
  have hun' := hclosed.unacked.trans hun
  have hf' := hclosed.stFaults.trans hf
  have hcq' := hclosed.cq
  unfold handlerOthers at *
  unfold tret
  simp [htrap, hcommit, hcq', hun', hf']

/-- TRET where the strand is in a handler and owes no store. -/
theorem tret_entered {i : Instr} {s : State} {u : Nat} {m : BitVec 32} {k : TrapState} (f : Site → TrapState → State → State)
    (h : Ready i s u m) (hB : isBoundary i.op i.uses = true) (htrap : (s.strand u).trap = some k) (hbuf : (s.strand u).buf = [])
    (hre : (s.strand u).redraw = []) (hun : (s.strand u).unacked = []) :
    ∃ t, tret f (contextOf i s u m) (entered i s u m) = .gone (f (contextOf i s u m).site k t) ∧ Quiet u s t := by
  obtain ⟨hcq, hf⟩ := h.settled hB
  have hin : Idle (s.strand u) ((entered i s u m).strand u) := entered_idle i s u m (issuing_has s u m h.atIssue) hbuf hre hcq
  obtain ⟨t, ht, hq⟩ := tret_settled f (contextOf i s u m) (entered i s u m) h.has (h.agree.trap.trans htrap) hin.buf hin.redraw hin.cq
    (hin.unacked.trans hun) (hin.stFaults.trans hf)
  exact ⟨t, ht, h.quiet.trans hq⟩

/-- TRET outside a handler (R175). -/
theorem tret_outside {i : Instr} {s : State} {u : Nat} {m : BitVec 32} (f : Site → TrapState → State → State) (h : Ready i s u m)
    (htrap : (s.strand u).trap = none) :
    tret f (contextOf i s u m) (entered i s u m) = .trap { cause := 0x01, sub := 3 } (entered i s u m) := by
  unfold tret
  rw [contextOf_u, h.agree.trap, htrap]

/-! ### Leaving trap mode -/

/-- A thread as the end of trap mode leaves it: in the region that the trap interrupted. -/
def leftThread (t : Thread) : Thread := { t with inTrap := false, paused := false, region := t.intr.getD t.region, intr := none }

/-- The strand as the end of trap mode leaves it, `x` and `y` being what the frame holds of s62 and s63. -/
def leftStrand (x y : Nat) (st : Strand) : Strand :=
  let k := st.trap.getD ⟨0, 0, 0, false, 0, 0, 0⟩
  let st := (st.writeS 62 [BitVec.ofNat 32 x] k.tag62).writeS 63 [BitVec.ofNat 32 y] k.tag63
  Strand.pruneRegions { st with trap := none, ctl := { st.ctl with tfp := 0 }, threads := st.threads.map leftThread }

theorem leaveTrap_eq (s : State) (u : Nat) : leaveTrap s u =
    s.modStrand u (leftStrand (frameField s (s.strand u) 48 4) (frameField s (s.strand u) 52 4)) := rfl

/-- What `leftStrand` changes, field by field. -/
theorem leftStrand_eq (x y : Nat) (st : Strand) {k : TrapState} (hk : st.trap = some k) : ∃ R, leftStrand x y st =
    { st with s := writeWords (writeWords st.s 62 [BitVec.ofNat 32 x] k.tag62) 63 [BitVec.ofNat 32 y] k.tag63, trap := none
              ctl := { st.ctl with tfp := 0 }, threads := st.threads.map leftThread, regions := R } := by
  unfold leftStrand
  rw [hk]
  exact ⟨_, rfl⟩

theorem leftStrand_thread (x y : Nat) (st : Strand) (j : Nat) : (leftStrand x y st).thread j = leftThread (st.thread j) := by
  show (st.threads.map leftThread).getD j default = leftThread (st.threads.getD j default)
  simp only [List.getD_eq_getElem?_getD, List.getElem?_map]
  cases st.threads[j]? <;> rfl

/-- A word of a register file after one word is written. -/
theorem writeWords_one (f : Sparse TWord) (d : Nat) (x : Word) (tag : Tag) (c : Nat) (h0 : c ≠ 0) :
    sget {} (writeWords f d [x] tag) c = if c = d then { val := x, tag := tag } else sget {} f c := by
  rw [writeWords_get _ _ _ _ _ h0]
  by_cases hc : c = d
  · subst hc
    simp
  · rw [dif_neg (by simp; omega), if_neg hc]

/-- A word of the uniform file after s62 and s63 have been restored. -/
theorem leftStrand_s (x y : Nat) (st : Strand) {k : TrapState} (hk : st.trap = some k) (c : Nat) (h0 : c ≠ 0) :
    sget {} (leftStrand x y st).s c =
      if c = 63 then { val := BitVec.ofNat 32 y, tag := k.tag63 } else if c = 62 then { val := BitVec.ofNat 32 x, tag := k.tag62 }
      else sget {} st.s c := by
  obtain ⟨R, hR⟩ := leftStrand_eq x y st hk
  rw [hR]
  dsimp only
  rw [writeWords_one _ _ _ _ _ h0, writeWords_one _ _ _ _ _ h0]

end Sys2Proof.Machine
end

section
/-!
Where the threads of a trap go on (O21): what each step of a return keeps, and TRET.next and TRET.restart as those steps.
-/

namespace Sys2Proof.Machine

/-! ### What a return keeps -/

/-- The strand `b` has left the trap `k` of `a`, with `x` and `y` in s62 and s63 (R175). -/
structure Returned (k : TrapState) (x y : Nat) (a b : Strand) : Prop where
  trap : b.trap = none
  tfp : b.ctl.tfp = 0
  s62 : sget {} b.s 62 = { val := BitVec.ofNat 32 x, tag := k.tag62 }
  s63 : sget {} b.s 63 = { val := BitVec.ofNat 32 y, tag := k.tag63 }
  thread : ∀ j, (b.thread j).inTrap = false ∧ (b.thread j).paused = false ∧ (b.thread j).live = (a.thread j).live

/-- Two strands with the same register files, accumulators, trap, and threads in the same mode. -/
structure SameFiles (a b : Strand) : Prop where
  files : b.s = a.s ∧ b.k = a.k ∧ b.q = a.q
  acc : b.acc = a.acc ∧ b.rowmax = a.rowmax ∧ b.rowsum = a.rowsum
  trap : b.trap = a.trap
  thread : ∀ j, (b.thread j).v = (a.thread j).v ∧ (b.thread j).p = (a.thread j).p ∧ (b.thread j).inTrap = (a.thread j).inTrap ∧
    (b.thread j).paused = (a.thread j).paused

/-- A change of control registers and of control flow alone, as a program sees it. -/
theorem SameFiles.sees {a b : Strand} (h : SameFiles a b) {w : Touch} {s : State} (hw : w.flow = true)
    (hctl : ∀ n, n < 0x12 → n ≠ 0x0B → w.ctl n = false → ctlRead s b n = ctlRead s a n) : Sees w s a b := by
  obtain ⟨⟨hs, hk, hq⟩, hacc, -, hthread⟩ := h
  refine ⟨hctl, fun _ => hacc, fun c _ _ => by rw [hs], fun c _ => by rw [hk], fun j _ => by rw [hq], fun j c _ _ => ?_, fun j c _ => ?_,
    fun hf => by simp [hw] at hf⟩
  · obtain ⟨hv, -⟩ := hthread j
    rw [hv]
  · obtain ⟨-, hp, -⟩ := hthread j
    rw [hp]

/-- A change after the return that keeps what the return is about. -/
theorem Returned.keep {k : TrapState} {x y : Nat} {a b c : Strand} (h : Returned k x y a b) (hf : SameFiles b c) (hc : c.ctl.tfp = b.ctl.tfp)
    (hlive : ∀ j, (c.thread j).live = (b.thread j).live) : Returned k x y a c := by
  obtain ⟨⟨hs, -⟩, -, htrap, hthread⟩ := hf
  refine ⟨htrap.trans h.trap, hc.trans h.tfp, hs ▸ h.s62, hs ▸ h.s63, fun j => ?_⟩
  obtain ⟨-, -, hin, hpaused⟩ := hthread j
  rw [hin, hpaused, hlive]
  exact h.thread j

/-- What a return may change, whatever else `w` names. -/
structure Touch.Returns (w : Touch) : Prop where
  s62 : w.s 62 = true
  s63 : w.s 63 = true
  tfp : w.ctl 8 = true
  rctl : w.ctl 2 = true
  flow : w.flow = true

/-! ### Leaving trap mode -/

theorem leftStrand_sees (x y : Nat) (s : State) (st : Strand) {k : TrapState} (hk : st.trap = some k) {w : Touch} (hw : w.Returns) :
    Sees w s st (leftStrand x y st) := by
  have hword (c : Nat) (h0 : c ≠ 0) (hc : w.s c = false) : sget {} (leftStrand x y st).s c = sget {} st.s c := by
    rw [leftStrand_s _ _ _ hk c h0, if_neg (by rintro rfl; simp [hw.s63] at hc), if_neg (by rintro rfl; simp [hw.s62] at hc)]
  have hthread := leftStrand_thread x y st
  obtain ⟨R, hR⟩ := leftStrand_eq x y st hk
  constructor
  case ctl =>
    intro n hn h0 hc
    have hn8 : n ≠ 8 := by rintro rfl; simp [hw.tfp] at hc
    rw [hR]
    interval_cases n <;> first | rfl | contradiction
  case acc => exact fun _ => by rw [hR]; exact ⟨rfl, rfl, rfl⟩
  case s => exact fun c hc h0 => hword c h0 hc
  case k => exact fun _ _ => by rw [hR]
  case q => exact fun _ _ => by rw [hR]
  case v => exact fun j _ _ _ => by rw [hthread]; rfl
  case p => exact fun j _ _ => by rw [hthread]; rfl
  case flow => exact fun hf => by simp [hw.flow] at hf

theorem leftStrand_returned (x y : Nat) (st : Strand) {k : TrapState} (hk : st.trap = some k) : Returned k x y st (leftStrand x y st) := by
  have h62 := leftStrand_s x y st hk 62 (by decide)
  have h63 := leftStrand_s x y st hk 63 (by decide)
  have hthread := leftStrand_thread x y st
  obtain ⟨R, hR⟩ := leftStrand_eq x y st hk
  refine ⟨by rw [hR], by rw [hR], h62, h63, fun j => ?_⟩
  rw [hthread]
  exact ⟨rfl, rfl, rfl⟩

/-- Leaving trap mode: what it restores, what it may change, and the threads where they stood. -/
theorem leaveTrap_spec (s : State) (u : Nat) {k : TrapState} (h : s.has u) (hk : (s.strand u).trap = some k) {w : Touch} (hw : w.Returns) :
    (leaveTrap s u).has u ∧ Only w s (leaveTrap s u) u ∧
      Returned k (frameField s (s.strand u) 48 4) (frameField s (s.strand u) 52 4) (s.strand u) ((leaveTrap s u).strand u) ∧
      ∀ j, ((leaveTrap s u).strand u).thread j = leftThread ((s.strand u).thread j) := by
  rw [leaveTrap_eq, strand_modStrand_self _ _ _ h]
  exact ⟨(has_modStrand _ _ _ _).2 h, only_modStrand s u _ w h (leftStrand_sees _ _ s _ hk hw), leftStrand_returned _ _ _ hk,
    leftStrand_thread _ _ _⟩

/-! ### Discarding the interrupted region -/

/-- A thread that a discard takes back. -/
def revive (t : Thread) : Thread := { t with live := t.live || t.exited, exited := false, bound := 0 }

/-- No exited thread closes with a set where none has exited. -/
theorem or_boundTo (st : Strand) (m : BitVec 32) (hex : ∀ j, (st.thread j).exited = false) : m ||| st.boundTo m = m :=
  BitVec.eq_of_getLsbD_eq fun j _ => by
    have hno : (st.boundTo m).getLsbD j ≠ true := fun hb => by simpa [hex j] using boundTo_exited st m j hb
    rw [BitVec.getLsbD_or, Bool.eq_false_iff.2 hno, Bool.or_false]

/-- A discard, field by field. -/
theorem discard_eq (s : State) (u : Nat) (m : BitVec 32) (ctl : Ctl → Ctl → Ctl) :
    ∃ f B R D P c, discard s u m ctl = (m ||| (s.strand u).boundTo m, s.modStrand u f) ∧ f (s.strand u) =
      { (s.strand u).modThreads (m ||| (s.strand u).boundTo m) revive with
        buf := B, reserved := R, redraw := D, peers := P, ctl := ctl (s.strand u).ctl c } :=
  ⟨_, _, _, _, _, _, rfl, rfl⟩

/-- The control registers after the discard of TRET.restart: `b`'s GENC and, in a deterministic launch, BTNEXT (R175). -/
def ctlAtStart (det : Bool) (a b : Ctl) : Ctl := { a with genc := b.genc, btnext := if det then b.btnext else a.btnext }

theorem revive_live (t : Thread) (h : t.exited = false) : (revive t).live = t.live := by
  show (t.live || t.exited) = t.live
  rw [h, Bool.or_false]

/-- The discard of TRET.restart: only GENC and BTNEXT of the control registers change, and no thread moves. -/
theorem discard_spec (s : State) (u : Nat) (m : BitVec 32) (det : Bool) (h : s.has u) (hex : ∀ j, ((s.strand u).thread j).exited = false)
    {w : Touch} (hgenc : w.ctl 6 = true) (hbt : w.ctl 0x11 = true) (hflow : w.flow = true) :
    ∃ t, discard s u m (ctlAtStart det) = (m, t) ∧ t.has u ∧
      Only w s t u ∧ (∀ j, ((t.strand u).thread j).pc = ((s.strand u).thread j).pc) ∧
      (t.strand u).threads.length = (s.strand u).threads.length ∧
      ∀ {k x y a}, Returned k x y a (s.strand u) → Returned k x y a (t.strand u) := by
  obtain ⟨f, B, R, D, P, c, hd, hf⟩ := discard_eq s u m (ctlAtStart det)
  rw [or_boundTo _ _ hex] at hd hf
  have hthread (j : Nat) : (f (s.strand u)).thread j = if j < (s.strand u).threads.length ∧ m.getLsbD j then revive ((s.strand u).thread j)
      else (s.strand u).thread j := by
    rw [hf]
    exact thread_modThreads _ _ _ j
  have hfiles : SameFiles (s.strand u) (f (s.strand u)) := by
    refine ⟨by rw [hf]; exact ⟨rfl, rfl, rfl⟩, by rw [hf]; exact ⟨rfl, rfl, rfl⟩, by rw [hf]; rfl, fun j => ?_⟩
    rw [hthread]
    split <;> exact ⟨rfl, rfl, rfl, rfl⟩
  have hctl : (f (s.strand u)).ctl = ctlAtStart det (s.strand u).ctl c := by rw [hf]
  refine ⟨_, hd, (has_modStrand _ _ _ _).2 h, only_modStrand s u f w h (hfiles.sees hflow fun n hn h0 hc => ?_), ?_⟩
  · have hn6 : n ≠ 6 := by rintro rfl; simp [hgenc] at hc
    have hn11 : n ≠ 0x11 := by rintro rfl; simp [hbt] at hc
    unfold ctlRead
    interval_cases n <;> first | contradiction | simp only [hctl, ctlAtStart]
  · rw [strand_modStrand_self s u f h]
    refine ⟨fun j => ?_, ?_, fun hr => hr.keep hfiles (by rw [hctl]; rfl) fun j => ?_⟩
    · rw [hthread]
      split <;> rfl
    · rw [hf]
      exact modThreads_length _ _ _
    · rw [hthread]
      split
      · exact revive_live _ (hex j)
      · rfl

/-! ### Going on -/

/-- A strand whose threads `m` go on at `pc`, with a new RCTL. -/
def resumed (m : BitVec 32) (pc : BitVec 62) (rctl : BitVec 64 → BitVec 64) (st : Strand) : Strand :=
  { st.modThreads m fun t => { t with pc := pc, wait := .ready } with ctl := { st.ctl with rctl := rctl st.ctl.rctl } }

theorem resumed_thread (m : BitVec 32) (pc : BitVec 62) (rctl : BitVec 64 → BitVec 64) (st : Strand) (j : Nat) :
    (resumed m pc rctl st).thread j =
      if j < st.threads.length ∧ m.getLsbD j then { st.thread j with pc := pc, wait := .ready } else st.thread j :=
  thread_modThreads st m (fun t => { t with pc := pc, wait := .ready }) j

theorem resumed_spec (s : State) (u : Nat) (m : BitVec 32) (pc : BitVec 62) (rctl : BitVec 64 → BitVec 64) (h : s.has u) {w : Touch}
    (hw : w.Returns) :
    let t := s.modStrand u (resumed m pc rctl)
    t.has u ∧ Only w s t u ∧ (∀ j, j < (s.strand u).threads.length →
      ((t.strand u).thread j).pc = if m.getLsbD j then pc else ((s.strand u).thread j).pc) ∧
      ∀ {k x y a}, Returned k x y a (s.strand u) → Returned k x y a (t.strand u) := by
  have hthread := resumed_thread m pc rctl (s.strand u)
  have hfiles : SameFiles (s.strand u) (resumed m pc rctl (s.strand u)) :=
    ⟨⟨rfl, rfl, rfl⟩, ⟨rfl, rfl, rfl⟩, rfl, fun j => by rw [hthread]; split <;> exact ⟨rfl, rfl, rfl, rfl⟩⟩
  dsimp only
  rw [strand_modStrand_self _ _ _ h]
  refine ⟨(has_modStrand _ _ _ _).2 h, only_modStrand s u _ w h (hfiles.sees hw.flow fun n hn h0 hc => ?_), fun j hj => ?_,
    fun hr => hr.keep hfiles rfl fun j => ?_⟩
  · have hn2 : n ≠ 2 := by rintro rfl; simp [hw.rctl] at hc
    interval_cases n <;> first | rfl | contradiction
  · rw [hthread]
    by_cases hm : m.getLsbD j = true
    · rw [if_pos ⟨hj, hm⟩, if_pos hm]
    · rw [if_neg (fun hc => hm hc.2), if_neg hm]
  · rw [hthread]
    split <;> rfl

theorem openRegion_returned (s : State) (u : Nat) (m : BitVec 32) (pc : BitVec 62) (own : Bool) (h : s.has u) {k : TrapState} {x y : Nat} {a : Strand}
    (hr : Returned k x y a (s.strand u)) : Returned k x y a ((openRegion s u m pc own).strand u) := by
  have ha := (openRegion_quiet s u m pc own h).agree
  obtain ⟨-, -, -, -, -, -, htfp, -⟩ := ha.ctls
  refine hr.keep ⟨⟨ha.s, ha.k, ha.q⟩, ha.acc, ha.trap, fun j => ?_⟩ htfp ha.live
  rw [openRegion_thread s u m pc own h]
  split <;> exact ⟨rfl, rfl, rfl, rfl⟩

/-! ### TRET.next and TRET.restart -/

/-- The trap `k` of the strand's is left by the step from `s` to `t`, the threads `m` going on at `pc`. -/
structure Leaves (w : Touch) (k : TrapState) (m : BitVec 32) (pc : BitVec 62) (s t : State) (u : Nat) : Prop where
  only : Only w s t u
  returned : Returned k (frameField s (s.strand u) 48 4) (frameField s (s.strand u) 52 4) (s.strand u) (t.strand u)
  pcs : ∀ j, j < (s.strand u).threads.length → t.pcOf u j = if m.getLsbD j then pc else s.pcOf u j

/-- A region opened after the return. -/
theorem Leaves.opened {w : Touch} {k : TrapState} {m : BitVec 32} {pc : BitVec 62} {s t : State} {u : Nat} (h : Leaves w k m pc s t u) (ht : t.has u)
    (m' : BitVec 32) (pc' : BitVec 62) (own : Bool) : Leaves w k m pc s (openRegion t u m' pc' own) u where
  only := h.only.trans (openRegion_only t u m' pc' own ht w)
  returned := openRegion_returned t u m' pc' own ht h.returned
  pcs := fun j hj => ((openRegion_quiet t u m' pc' own ht).stay j).trans (h.pcs j hj)

theorem leaveTrap_length (s : State) (u : Nat) (h : s.has u) :
    ((leaveTrap s u).strand u).threads.length = (s.strand u).threads.length := by
  rw [leaveTrap_eq, strand_modStrand_self _ _ _ h]
  exact List.length_map _

theorem leaveTrap_liveMask (s : State) (u : Nat) (h : s.has u) : ((leaveTrap s u).strand u).liveMask = (s.strand u).liveMask :=
  BitVec.eq_of_getLsbD_eq fun j _ => by
    rw [getLsbD_liveMask, getLsbD_liveMask, leaveTrap_eq, strand_modStrand_self _ _ _ h, leftStrand_thread]
    rfl

/-- TRET.next: the live threads of the trapped fragment go on at the frame's NEXT (R175). -/
theorem tretNext_leaves (s : State) (p : Site) (k : TrapState) (h : s.has p.u) (hk : (s.strand p.u).trap = some k) {w : Touch} (hw : w.Returns) :
    Leaves w k (k.frag &&& (s.strand p.u).liveMask) (BitVec.ofNat 62 (frameField s (s.strand p.u) 40 8 / 4)) s (tretNext s p k) p.u := by
  obtain ⟨hhas, honly, hret, hthread⟩ := leaveTrap_spec s p.u h hk hw
  rw [← leaveTrap_liveMask s p.u h]
  let m := k.frag &&& ((leaveTrap s p.u).strand p.u).liveMask
  let pc := BitVec.ofNat 62 (frameField s (s.strand p.u) 40 8 / 4)
  obtain ⟨hhas', honly', hpcs, hkeep⟩ := resumed_spec (leaveTrap s p.u) p.u m pc id hhas hw
  have hmain : Leaves w k m pc s ((leaveTrap s p.u).modStrand p.u (resumed m pc id)) p.u :=
    ⟨honly.trans honly', hkeep hret, fun j hj => by
      refine (hpcs j (by rwa [leaveTrap_length s p.u h])).trans ?_
      rw [hthread]
      rfl⟩
  show Leaves w k m pc s (if _ then openRegion ((leaveTrap s p.u).modStrand p.u (resumed m pc id)) p.u m pc false else
    (leaveTrap s p.u).modStrand p.u (resumed m pc id)) p.u
  split
  · exact hmain.opened hhas' m pc false
  · exact hmain

/-- TRET.restart at an address of the handler's choice, or where RESTART is no region's start (R175). -/
theorem tretRestart_leaves (s : State) (p : Site) (k : TrapState) (h : s.has p.u) (hk : (s.strand p.u).trap = some k)
    (hex : ∀ j, ((s.strand p.u).thread j).exited = false)
    (hc : BitVec.ofNat 64 (frameField s (s.strand p.u) 32 8) ≠ k.restart ∨ k.regional = false) {w : Touch} (hw : w.Returns)
    (hgenc : w.ctl 6 = true) (hbt : w.ctl 0x11 = true) :
    Leaves w k k.frag (BitVec.ofNat 62 (frameField s (s.strand p.u) 32 8 / 4)) s (tretRestart s p k) p.u := by
  obtain ⟨hhas, honly, hret, hthread⟩ := leaveTrap_spec s p.u h hk hw
  let pc := BitVec.ofNat 62 (frameField s (s.strand p.u) 32 8 / 4)
  obtain ⟨d, hd, hdhas, hdonly, hdpc, hdlen, hdkeep⟩ := discard_spec (leaveTrap s p.u) p.u k.frag
    (isDet ((leaveTrap s p.u).launch ((leaveTrap s p.u).strand p.u).launch)) hhas (fun j => by rw [hthread]; exact hex j) hgenc hbt hw.flow
  obtain ⟨hhas', honly', hpcs, hkeep⟩ := resumed_spec d p.u k.frag pc (fun r => cset r 0 8 (min 0 255)) hdhas hw
  have hmain : Leaves w k k.frag pc s (d.modStrand p.u (resumed k.frag pc fun r => cset r 0 8 (min 0 255))) p.u :=
    ⟨(honly.trans hdonly).trans honly', hkeep (hdkeep hret), fun j hj => by
      refine (hpcs j (by rwa [hdlen, leaveTrap_length s p.u h])).trans ?_
      rw [hdpc, hthread]
      rfl⟩
  have hother : ¬ (frameField s (s.strand p.u) 32 8 == k.restart.toNat && k.regional) = true := by
    intro hb
    obtain ⟨haddr, hreg⟩ := Bool.and_eq_true_iff.1 hb
    rcases hc with hc | hc
    · exact hc (by rw [beq_iff_eq.1 haddr, BitVec.ofNat_toNat, BitVec.setWidth_eq])
    · simp [hc] at hreg
  have heq : tretRestart s p k = openRegion (d.modStrand p.u (resumed k.frag pc fun r => cset r 0 8 (min 0 255))) p.u k.frag pc false := by
    unfold ctlAtStart at hd
    unfold tretRestart
    dsimp only
    rw [hd, if_neg hother]
    rfl
  rw [heq]
  exact hmain.opened hhas' k.frag pc false

/-! ### The three returns -/

/-- What O21 lets the TRET `i` change. -/
def tretTouch (i : Instr) (restarts : Bool) : Touch :=
  Touch.of { s := fun c => c == 62 || c == 63, flow := true, ctl := fun n => n == 8 || (restarts && (n == 2 || n == 6 || n == 0x11)) } i

theorem tretTouch_returns {i : Instr} (hB : isBoundary i.op i.uses = true) (r : Bool) : (tretTouch i r).Returns where
  s62 := rfl
  s63 := rfl
  tfp := rfl
  rctl := by simp [tretTouch, Touch.of, closes, hB]
  flow := rfl

/-- What closing the other threads' regions changes is among it, a TRET being a boundary (R162). -/
theorem tretTouch_only {i : Instr} (hB : isBoundary i.op i.uses = true) (r : Bool) {s t : State} {u : Nat} (hq : Quiet u s t) :
    Only (tretTouch i r) s t u :=
  (hq.body _ (by simp [tretTouch, Touch.of, closes, hB]) (by simp [tretTouch, Touch.of, closes, hB])
    (by simp [tretTouch, Touch.of, closes, hB])).only

/-- What a return is, read from the state before the regions were closed. -/
theorem Leaves.of_quiet {w : Touch} {k : TrapState} {m : BitVec 32} {pc : BitVec 62} {s e t : State} {u : Nat} (h : Leaves w k m pc e t u)
    (hq : Quiet u s e) (ho : Only w s e u) : Leaves w k m pc s t u where
  only := ho.trans h.only
  returned := by
    obtain ⟨htrap, htfp, h62, h63, hthread⟩ := h.returned
    rw [hq.frameField] at h62 h63
    exact ⟨htrap, htfp, h62, h63, fun j => hq.agree.live j ▸ hthread j⟩
  pcs := fun j hj => (h.pcs j (hq.agree.len.symm ▸ hj)).trans (by unfold State.pcOf; rw [hq.stay j])

/-- After a return the run ends; what it says of the registers and threads holds. -/
theorem Leaves.spec {w : Touch} {k : TrapState} {m : BitVec 32} {pc : BitVec 62} {s t : State} {u : Nat} (h : Leaves w k m pc s t u)
    (hm : ∀ j, m.getLsbD j = true → k.frag.getLsbD j = true)
    (hlive : ∀ j, k.frag.getLsbD j = true → ((s.strand u).thread j).live = true → m.getLsbD j = true) :
    ((stopRun t).strand u).trap = none ∧ (stopRun t).creg u 8 = 0 ∧
      (stopRun t).sreg u 62 = { val := BitVec.ofNat 32 (frameField s (s.strand u) 48 4), tag := k.tag62 } ∧
      (stopRun t).sreg u 63 = { val := BitVec.ofNat 32 (frameField s (s.strand u) 52 4), tag := k.tag63 } ∧
      Only w s (stopRun t) u ∧ ∀ j, j < (s.strand u).threads.length →
        (((stopRun t).strand u).thread j).inTrap = false ∧ (((stopRun t).strand u).thread j).paused = false ∧
        (((stopRun t).strand u).thread j).live = ((s.strand u).thread j).live ∧
        (k.frag.getLsbD j → ((s.strand u).thread j).live = true → (stopRun t).pcOf u j = pc) ∧
        (k.frag.getLsbD j = false → (stopRun t).pcOf u j = s.pcOf u j) := by
  obtain ⟨htrap, htfp, h62, h63, hthread⟩ := h.returned
  refine ⟨htrap, htfp, h62, h63, h.only.trans (stopRun_only _ t u), fun j hj => ?_⟩
  obtain ⟨hin, hpaused, hl⟩ := hthread j
  refine ⟨hin, hpaused, hl, fun hk hlv => (h.pcs j hj).trans (if_pos (hlive j hk hlv)), fun hk => (h.pcs j hj).trans (if_neg fun hc => ?_)⟩
  simp [hm j hc] at hk

/-- A TRET in a handler of a strand that owes no store. -/
structure Returning (i : Instr) (s : State) (u : Nat) (m : BitVec 32) (k : TrapState) : Prop where
  ready : Ready i s u m
  acts : acting i s u m ≠ []
  boundary : isBoundary i.op i.uses = true
  trap : (s.strand u).trap = some k
  buf : (s.strand u).buf = []
  redraw : (s.strand u).redraw = []
  unacked : (s.strand u).unacked = []

/-- Its meaning is then `f`, after only regions have been closed. -/
theorem Returning.exec {i : Instr} {s : State} {u : Nat} {m : BitVec 32} {k : TrapState} (h : Returning i s u m k)
    {f : Site → TrapState → State → State} (hx : exec i s = issue i s (tret f)) :
    ∃ e, Machine.exec i s = .next (stopRun (f (contextOf i s u m).site k e)) ∧ Quiet u s e ∧ e.has u ∧ (e.strand u).trap = some k := by
  obtain ⟨e, hbody, hq⟩ := tret_entered f h.ready h.boundary h.trap h.buf h.redraw h.unacked
  exact ⟨e, exec_gone h.ready hx h.acts hbody, hq, hq.beside.has.2 (issuing_has s u m h.ready.atIssue), hq.agree.trap.trans h.trap⟩

theorem tretNext_returns (r : Bool) {o : NoOp} {s : State} {u : Nat} {m : BitVec 32} {k : TrapState} (h : Returning (.tretNext o) s u m k) :
    ∃ t, exec (.tretNext o) s = .next (stopRun t) ∧ Leaves (tretTouch (.tretNext o) r) k (k.frag &&& (s.strand u).liveMask)
      (BitVec.ofNat 62 (frameField s (s.strand u) 40 8 / 4)) s t u := by
  obtain ⟨e, hx, hq, he, htrap⟩ := h.exec (f := fun p t s => tretNext s p t) rfl
  refine ⟨_, hx, ?_⟩
  rw [← hq.frameField, ← hq.agree.liveMask]
  exact (tretNext_leaves e (contextOf (.tretNext o) s u m).site k he htrap (tretTouch_returns h.boundary r)).of_quiet hq
    (tretTouch_only h.boundary r hq)

theorem tretRestart_returns {r : Bool} (hr : r = true) {o : NoOp} {s : State} {u : Nat} {m : BitVec 32} {k : TrapState} (h : Returning (.tretRestart o) s u m k)
    (hex : ∀ j, ((s.strand u).thread j).exited = false)
    (haddr : BitVec.ofNat 64 (frameField s (s.strand u) 32 8) ≠ k.restart ∨ k.regional = false) :
    ∃ t, exec (.tretRestart o) s = .next (stopRun t) ∧ Leaves (tretTouch (.tretRestart o) r) k k.frag
      (BitVec.ofNat 62 (frameField s (s.strand u) 32 8 / 4)) s t u := by
  subst hr
  obtain ⟨e, hx, hq, he, htrap⟩ := h.exec (f := fun p t s => tretRestart s p t) rfl
  refine ⟨_, hx, ?_⟩
  rw [← hq.frameField] at haddr ⊢
  exact (tretRestart_leaves e (contextOf (.tretRestart o) s u m).site k he htrap (fun j => hq.agree.exited j (hex j)) haddr
    (tretTouch_returns h.boundary true) rfl rfl).of_quiet hq (tretTouch_only h.boundary true hq)

theorem tretKill_terminates {o : NoOp} {s : State} {u : Nat} {m : BitVec 32} {k : TrapState} (h : Returning (.tretKill o) s u m k) :
    Terminates s (.tretKill o) s u k.cause := by
  obtain ⟨e, hx, hq, he, -⟩ := h.exec (f := fun p t s => terminate s p.u t.cause) rfl
  obtain ⟨hphase, hcause, hdead, hothers, hmem, htags, hctx⟩ := terminate_spec e u k.cause he
  exact ⟨_, hx, hphase, hcause, hdead, fun x hx => (hothers x hx).trans (hq.beside.others x hx), hmem.trans hq.beside.mem,
    htags.trans hq.beside.tags, hctx.trans hq.beside.contexts⟩

/-- TRET outside a handler is refused (R175). -/
theorem tret_traps {i : Instr} {s : State} {u : Nat} {m : BitVec 32} {f : Site → TrapState → State → State} (hx : exec i s = issue i s (tret f))
    (h : Ready i s u m) (ha : acting i s u m ≠ []) (htrap : (s.strand u).trap = none) :
    Traps i s u m false 0x01 3 ((s.strand u).laneMask (maskBits m)) 0 :=
  trap_of i s u m (tret f) { cause := 0x01, sub := 3 } h hx ha (tret_outside f h htrap) rfl rfl (show 0x01 < 256 by decide)
    (show 3 < 65536 by decide) (show 0 < 2 ^ 64 by decide)

/-- Settles O21: TRET's wait is `tret_settled`, its returns are `tretNext_leaves` and `tretRestart_leaves`, the end of the strand is
`terminate_spec`. That LANES of the trap outside a handler are the fragment's is log entry 19. -/
theorem tretLeavesTheHandler : Obligations.TretLeavesTheHandler := by
  unfold Obligations.TretLeavesTheHandler
  intro i o s u m hi h ha st
  refine ⟨fun htrap => ?_, fun k htrap hbuf hre _ hun _ => ?_⟩
  · rcases hi with rfl | rfl | rfl <;> exact tret_traps rfl h ha htrap
  · have hr : Returning i s u m k := ⟨h, ha, by rcases hi with rfl | rfl | rfl <;> rfl, htrap, hbuf, hre, hun⟩
    refine ⟨?_, ?_⟩
    · rintro rfl
      exact tretKill_terminates hr
    · rintro (rfl | ⟨rfl, haddr⟩) hex
      · rw [if_pos rfl]
        obtain ⟨t, hx, hl⟩ := tretNext_returns (decide (Instr.tretNext o = .tretRestart o)) hr
        have hbit (j : Nat) : (k.frag &&& st.liveMask).getLsbD j = (k.frag.getLsbD j && (decide (j < 32) && (st.thread j).live)) := by
          rw [BitVec.getLsbD_and, getLsbD_liveMask]
        refine ⟨_, hx, hl.spec (fun j hj => ?_) fun j hj hlive => ?_⟩
        · rw [hbit] at hj
          exact (Bool.and_eq_true_iff.1 hj).1
        · rw [hbit, hj, hlive, decide_eq_true (BitVec.lt_of_getLsbD hj)]
          rfl
      · rw [if_neg (by rintro ⟨⟩)]
        obtain ⟨t, hx, hl⟩ := tretRestart_returns (decide_eq_true (Eq.refl (Instr.tretRestart o))) hr hex haddr
        exact ⟨_, hx, hl.spec (fun _ hj => hj) fun _ hj _ => hj⟩

end Sys2Proof.Machine
end

section
/-!
Instructions that address memory through one target, FENCE (O29) and BARI (O30).
-/

namespace Sys2Proof.Machine

/-! ### A strand that owes no store -/

theorem Ready.owesNothing {i : Instr} {s : State} {u : Nat} {m : BitVec 32} (h : Ready i s u m) (ho : (s.strand u).owesNothing) :
    ((entered i s u m).strand u).owesNothing := by
  obtain ⟨hbuf, hredraw, hcq, hun, hst⟩ := ho
  have hi := entered_idle i s u m (issuing_has s u m h.atIssue) hbuf hredraw hcq
  exact ⟨hi.buf, hi.redraw, hi.cq, hi.unacked.trans hun, hi.stFaults.trans hst⟩

theorem afterStores_idle (s : State) (u : Nat) (m : BitVec 32) (k : State → Eff) (hcq : (s.strand u).cq = []) (hun : (s.strand u).unacked = []) :
    afterStores s u m k = k s := by
  unfold afterStores storesOwed
  rw [commitPass_nil _ _ _ hcq]
  simp [hcq, hun]

theorem release_waits (s : State) (u : Nat) (pc : BitVec 62) (m : BitVec 32) (scope : Nat) (k : State → Eff) (hcq : (s.strand u).cq = [])
    (hun : (s.strand u).unacked ≠ []) : release s u pc m scope k = .wait .stores s := by
  unfold release settleStores storesOwed
  rw [commitPass_nil _ _ _ hcq]
  simp [hcq, hun]

/-! ### What completion leaves -/

theorem complete_beside (t : State) (cx : Cx) (us : List Use) (h : t.has cx.u) : Beside cx.u t (complete t cx us false 0) :=
  (complete_spec t cx us false 0 h).2.2

/-! ### FENCE -/

/-- Settles O29: an idle release goes on (`release_idle`), one with a store on its way to a peer waits (`release_waits`). -/
theorem fenceOrdersStores : Obligations.FenceOrdersStores := by
  unfold Obligations.FenceOrdersStores
  intro o s u m i h ha
  refine ⟨fun hfree => ?_, fun hord hbuf hredraw hcq hun => ?_⟩
  · refine completes_same i s u m _ h rfl (fun _ => ?_) _ fun t ht => ?_
    · by_cases hord : o.ord = 0
      · exact if_pos hord
      · obtain ⟨-, hrel⟩ := hfree.resolve_right hord
        exact (if_neg hord).trans (release_idle _ u _ _ _ _ hrel)
    · subst ht
      exact (complete_beside _ _ _ h.has).mem.trans h.quiet.beside.mem
  · have hi := entered_idle i s u m (issuing_has s u m h.atIssue) hbuf hredraw hcq
    refine waits_entered i s u m _ .stores h rfl ha ((if_neg hord).trans (release_waits _ u _ _ _ _ hi.cq ?_))
    rwa [hi.unacked]

/-! ### Instructions with one target -/

section
variable {i : Instr} {k : Access} {n b : Nat} {disp : BitVec 16} {s base : State} {u : Nat} {m : BitVec 32} {l leaf : Nat} {body : Cx → State → Eff}

theorem Reaches.acts (hr : Reaches i s u m k n b disp base l leaf) : acting i s u m ≠ [] := by
  obtain ⟨-, -, ha, -⟩ := hr
  exact ha

theorem Reaches.agree (hr : Reaches i s u m k n b disp base l leaf) (h : Ready i s u m) : Agree (s.strand u) (base.strand u) := by
  rw [(hr.base h).1]
  exact h.agree

theorem Reaches.targetClean (hr : Reaches i s u m k n b disp base l leaf) : (targetOf s u m b disp).poison = false := by
  obtain ⟨-, -, -, hc⟩ := hr
  exact readS_clean _ hc b 2

/-- A uniform register of the strand, as the instruction finds it. -/
theorem Reaches.readS (hr : Reaches i s u m k n b disp base l leaf) (h : Ready i s u m) (c w : Nat) :
    (base.strand u).readS c w = (s.strand u).readS c w ∧ ((s.strand u).readS c w).poison = false := by
  obtain ⟨-, -, -, hc⟩ := id hr
  exact ⟨(hr.agree h).readS c w, readS_clean _ hc c w⟩

theorem Reaches.afterStores (hr : Reaches i s u m k n b disp base l leaf) (M : BitVec 32) (f : State → Eff) : Machine.afterStores base u M f = f base := by
  obtain ⟨-, ⟨hcq, hun, -⟩, -⟩ := hr
  exact afterStores_idle base u M f hcq hun

/-- The meaning refuses the target. -/
theorem Reaches.traps (hr : Reaches i s u m k n b disp base l leaf) (h : Ready i s u m) (hx : exec i s = issue i s body) {cause sub : Nat}
    (hb : body (contextOf i s u m) (entered i s u m) = .trap { cause := cause, sub := sub, addr := (targetOf s u m b disp).va } base)
    (hc : cause < 256) (hsub : sub < 65536) :
    TrapsFrom base i s u m false cause sub ((s.strand u).laneMask (maskBits m)) (targetOf s u m b disp).va :=
  trap_from base i s u m body { cause := cause, sub := sub, addr := (targetOf s u m b disp).va } h hx hr.acts (hr.base h).2 (hr.base h).1 hb
    rfl rfl hc hsub (BitVec.isLt _)

/-- The meaning completes at the target. -/
theorem Reaches.completes (hr : Reaches i s u m k n b disp base l leaf) (h : Ready i s u m) (hx : exec i s = issue i s body) {w : Touch} {P : State → Prop}
    {t : State} (hb : body (contextOf i s u m) (entered i s u m) = .ok t) (hB : Body w base t u)
    (hP : P (complete t (contextOf i s u m) i.uses false 0)) : CompletesFrom base i s u m w P :=
  completes_from i s u m base w P body t h hx hr.acts hb (hr.base h).1 hB (hr.base h).2 hP

end

/-! ### BARI -/

section
variable {s : State} {u l leaf n : Nat}

theorem Writable.bobbin (h : Writable s u [0] n (fun _ => l) (fun _ => leaf)) : bobbinFree s u [.hit (.loc l) leaf] = true := by
  obtain ⟨-, -, -, -, hb⟩ := h
  exact hb

theorem Writable.hostFree (h : Writable s u [0] n (fun _ => l) (fun _ => leaf)) (k : State → Eff) :
    Machine.hostFree s (localOf [.hit (.loc l) leaf] n) k = k s := hostFree_clean s u l leaf n k h

/-- The object written: what changes, and what it then reads as. -/
theorem Writable.barWrite_body (h : Writable s u [0] 16 (fun _ => l) (fun _ => leaf)) (x : Nat) (w : Touch) (hw : ∀ a, l ≤ a → a < l + 16 → w.mem a = true) :
    Body w s (barWrite s l x) u := by
  rw [barWrite_clean s u l leaf x h]
  exact body_mem s u l 16 x w hw

theorem Writable.barWrite_read (h : Writable s u [0] 16 (fun _ => l) (fun _ => leaf)) {x : Nat} (hx : x < 256 ^ 16) {t : State}
    (ht : t.mem = (barWrite s l x).mem) : t.readNat l 16 = x := by
  refine (readNat_written s t l 16 x ?_).trans (Nat.mod_eq_of_lt hx)
  rw [ht, barWrite_clean s u l leaf x h]

end

/-- Settles O30: the object is found (`object_found`) and written whole (`Writable.barWrite_read`). That LANES of the trap are the fragment's is
log entry 19. -/
theorem bariInitializes : Obligations.BariInitializes := by
  unfold Obligations.BariInitializes
  intro o s base u m l leaf i n ea h hr
  obtain ⟨hreg, hpoison⟩ := hr.readS h o.a 1
  refine ⟨fun h1 h2 hw => ?_, fun hn => ?_⟩
  · refine hr.completes h rfl (t := barWrite base l (n * 2 ^ 16)) ?_ (hw.barWrite_body _ _ fun a h1 h2 => decide_eq_true ⟨h1, h2⟩) ?_
    · refine (object_found i .atomic s u m o.b o.disp base l leaf _ h hr).trans ?_
      simp only [contextOf_u, hreg]
      rw [if_neg (by omega), hr.afterStores, hw.bobbin, hw.hostFree, hpoison, hr.targetClean]
      rfl
    · exact hw.barWrite_read (by omega) (complete_beside _ _ _ ((hw.barWrite_body _ { mem := fun _ => true } fun _ _ _ => rfl).has (hr.base h).2)).mem
  · refine hr.traps h rfl ?_ (by decide) (by decide)
    refine (object_found i .atomic s u m o.b o.disp base l leaf _ h hr).trans ?_
    simp only [contextOf_u, hreg]
    exact if_pos hn

end Sys2Proof.Machine
end

section
/-!
BARW (O32), and TOKW and TOKP (O33).
-/

namespace Sys2Proof.Machine

/-! ### BARW -/

theorem barBad_iff (x : Nat) : barBad x = true ↔ x / 2 ^ 37 % 8 ≠ 0 ∨ x / 2 ^ 96 % 2 ^ 32 ≠ 0 ∨ x / 2 ^ 16 % 2 ^ 16 = 0 := by
  simp [barBad, barExp, fld, or_assoc]

/-- WAIT counted up, saturating at 255 (R194). -/
theorem setFld_waiters (x : Nat) : setFld x 40 8 (min 255 (barWait x + 1)) = x + if x / 2 ^ 40 % 256 = 255 then 0 else 2 ^ 40 := by
  unfold setFld barWait fld
  split <;> omega

theorem barWaiters_up (s : State) (l : Nat) : barWaiters s l true = barWrite s l (setFld (s.readNat l 16) 40 8 (min 255 (barWait (s.readNat l 16) + 1))) := rfl

theorem park_mem (s : State) (u : Nat) (m : BitVec 32) (w : Wait) : (park s u m w).mem = s.mem := rfl

/-- An instruction whose meaning waits leaves its threads parked. -/
theorem exec_waits {i : Instr} {s : State} {u : Nat} {m : BitVec 32} {body : Cx → State → Eff} {w : Wait} {t : State} (h : Ready i s u m)
    (hx : exec i s = issue i s body) (ha : acting i s u m ≠ []) (hb : body (contextOf i s u m) (entered i s u m) = .wait w t) :
    exec i s = .next (park t u m w) := by
  have hem : (acting i s u m).isEmpty = false := by simpa using ha
  rw [hx, issue_ready i s u m body h, hb, hem]
  rfl

/-- BARW at an object it has found and whose lines the host does not hold (R196). -/
theorem barw_body {o : BarwOp} {s base : State} {u : Nat} {m : BitVec 32} {l leaf : Nat} (h : Ready (.barw o) s u m)
    (hr : Reaches (.barw o) s u m .load 16 o.b o.disp base l leaf) :
    ∃ body, (∀ s', exec (.barw o) s' = issue (.barw o) s' body) ∧ body (contextOf (.barw o) s u m) (entered (.barw o) s u m) =
      if barBad (base.readNat l 16) = true then .trap { cause := 0x35, sub := 0, addr := (targetOf s u m o.b o.disp).va } base
      else if barPh (base.readNat l 16) ≠ ((s.strand u).readS o.a 1).w.toNat % 16 then .ok (writeK base (contextOf (.barw o) s u m) o.d true)
      else if ((s.strand u).readS o.c 1).w.toNat = 0 then .ok (writeK base (contextOf (.barw o) s u m) o.d false)
      else hostFree base [(l, 16)] fun s' => .wait (.barw l (((s.strand u).readS o.a 1).w.toNat % 16)
        (s'.dies.getD (dieOfCore (base.strand u).core) {}).cycle ((s.strand u).readS o.c 1).w.toNat o.d (nextPc (.barw o) s u m)) (barWaiters s' l true) := by
  obtain ⟨hph, hp1⟩ := hr.readS h o.a 1
  obtain ⟨hbd, hp2⟩ := hr.readS h o.c 1
  refine ⟨_, fun _ => rfl, (object_found _ .load s u m o.b o.disp base l leaf _ h hr).trans ?_⟩
  simp only [contextOf_u, barRead, hph, hbd, hp1, hp2, hr.targetClean, Bool.or_self, Bool.false_and, Bool.false_eq_true, ↓reduceIte]
  rfl

/-- Settles O32: a bad object traps, BARW answers by `writeK` where it need not wait, and `barw_waits` otherwise. That LANES of the trap are the
fragment's is log entry 19. -/
theorem barwTestsThePhase : Obligations.BarwTestsThePhase := by
  unfold Obligations.BarwTestsThePhase
  intro o s base u m l leaf i st x bad same bound h hr
  obtain ⟨body, hx, hb⟩ := barw_body h hr
  refine ⟨fun hbad => ?_, fun hbad => ?_⟩
  · exact hr.traps h (hx s) (hb.trans (if_pos ((barBad_iff x).2 hbad))) (by decide) (by decide)
  have hgood : ¬ barBad x = true := fun hc => hbad ((barBad_iff x).1 hc)
  replace hb := hb.trans (if_neg hgood)
  have hB (v : Bool) : Body { k := fun c => c == o.d } base (writeK base (contextOf i s u m) o.d v) u :=
    writeK_body base (contextOf i s u m) o.d v _ (hr.base h).2 fun _ => beq_self_eq_true _
  have hwrote (v : Bool) : o.d < 7 → (complete (writeK base (contextOf i s u m) o.d v) (contextOf i s u m) i.uses false 0).kpred u o.d = v := fun hd =>
    ((complete_kept _ (contextOf i s u m) _ ((hB v).has (hr.base h).2)).kpreds o.d rfl).trans (writeK_kpred base (contextOf i s u m) o.d v (hr.base h).2 hd)
  have hmet (hsame : same) := hb.trans (if_neg (not_not.2 hsame))
  refine ⟨fun hne => ?_, fun hsame h0 => ?_, fun hsame h0 hw => ?_⟩
  · exact hr.completes h (hx s) (hb.trans (if_pos hne)) (hB true) (hwrote true)
  · exact hr.completes h (hx s) ((hmet hsame).trans (if_pos h0)) (hB false) (hwrote false)
  · replace hb := ((hmet hsame).trans (if_neg h0)).trans (hostFree_clean base u l leaf 16 _ hw)
    rw [← show x / 2 ^ 32 % 16 = ((s.strand u).readS o.a 1).w.toNat % 16 from hsame, barWaiters_up, setFld_waiters] at hb
    have hx16 : x < 256 ^ 16 := readNat_lt base l 16
    have hval : x + (if x / 2 ^ 40 % 256 = 255 then 0 else 2 ^ 40) < 256 ^ 16 := by split <;> omega
    have hBw := hw.barWrite_body (x + if x / 2 ^ 40 % 256 = 255 then 0 else 2 ^ 40) { mem := fun a => decide (l ≤ a ∧ a < l + 16) } fun a h1 h2 => decide_eq_true ⟨h1, h2⟩
    have hhas := hBw.has (hr.base h).2
    refine ⟨_, exec_waits h (hx s) hr.acts hb, ?_, fun a ha => ?_, fun j hj => ⟨?_, fun hm => ⟨_, (park_thread _ u m _ hhas j).2 hm ?_⟩⟩⟩
    · exact hw.barWrite_read hval (park_mem _ u m _)
    · exact hBw.only.bytes a (decide_eq_false ha)
    · refine (park_thread _ u m _ hhas j).1.trans ((hBw.stay j).trans ?_)
      rw [(hr.base h).1]
      exact h.quiet.stay j
    · exact hBw.len.symm ▸ (hr.agree h).len.symm ▸ hj

/-! ### TOKW and TOKP -/

theorem Ready.launch {i : Instr} {s : State} {u : Nat} {m : BitVec 32} (h : Ready i s u m) (key : Nat) :
    (entered i s u m).launch key = s.launch key := by
  unfold State.launch
  rw [h.quiet.beside.launches]

theorem Ready.holdsBobbin {i : Instr} {s : State} {u : Nat} {m : BitVec 32} (h : Ready i s u m) :
    Machine.holdsBobbin (entered i s u m) ((entered i s u m).strand u) = Machine.holdsBobbin s (s.strand u) := by
  obtain ⟨-, -, hsid, -⟩ := h.agree.ids
  unfold Machine.holdsBobbin
  rw [h.launch, h.agree.launch, hsid]

/-- Handing the bobbin on changes the holder of its launch. -/
theorem passBobbin_body (s : State) (u key : Nat) : Body { launches := true } s (passBobbin s key) u := by
  unfold passBobbin
  dsimp only
  split
  · exact launch_body s u _ key fun _ => ⟨rfl, rfl⟩
  · split
    · exact launch_body s u _ key fun _ => ⟨rfl, rfl⟩
    · exact Body.refl _ _ _

/-- TOKW, from the state before the instruction. -/
theorem tokw_body (o : NoOp) {s : State} {u : Nat} {m : BitVec 32} (h : Ready (.tokw o) s u m) :
    ∃ body, (∀ s', exec (.tokw o) s' = issue (.tokw o) s' body) ∧ body (contextOf (.tokw o) s u m) (entered (.tokw o) s u m) =
      if !isDet (s.launch (s.strand u).launch) then .trap { cause := 0x36, sub := 0 } (entered (.tokw o) s u m)
      else if holdsBobbin s (s.strand u) then .ok (entered (.tokw o) s u m) else .wait .bobbin (entered (.tokw o) s u m) := by
  refine ⟨_, fun _ => rfl, ?_⟩
  simp only [contextOf_u, h.launch, h.agree.launch, h.holdsBobbin]

/-- TOKP of a strand that owes no store, from the state before the instruction. -/
theorem tokp_body (o : NoOp) {s : State} {u : Nat} {m : BitVec 32} (h : Ready (.tokp o) s u m) (ho : (s.strand u).owesNothing) :
    ∃ body, (∀ s', exec (.tokp o) s' = issue (.tokp o) s' body) ∧ body (contextOf (.tokp o) s u m) (entered (.tokp o) s u m) =
      if !isDet (s.launch (s.strand u).launch) then .trap { cause := 0x36, sub := 0 } (entered (.tokp o) s u m)
      else if !holdsBobbin s (s.strand u) then .trap { cause := 0x36, sub := 1 } (entered (.tokp o) s u m)
      else .ok (passBobbin (entered (.tokp o) s u m) (s.strand u).launch) := by
  obtain ⟨-, -, hcq, -, -⟩ := h.owesNothing ho
  refine ⟨_, fun _ => rfl, ?_⟩
  simp only [contextOf_u, h.launch, h.agree.launch, h.holdsBobbin, commitPass_nil _ _ _ hcq, hcq, List.any_nil, Bool.false_eq_true, ↓reduceIte]

theorem tokw_spec (o : NoOp) {s : State} {u : Nat} {m : BitVec 32} (h : Ready (.tokw o) s u m) (ha : acting (.tokw o) s u m ≠ []) :
    (isDet (s.launch (s.strand u).launch) = false → Traps (.tokw o) s u m false 0x36 0 ((s.strand u).laneMask (maskBits m)) 0) ∧
    (isDet (s.launch (s.strand u).launch) = true → holdsBobbin s (s.strand u) = true → Completes (.tokw o) s u m {} fun _ => True) ∧
    (isDet (s.launch (s.strand u).launch) = true → holdsBobbin s (s.strand u) = false → WaitsFor (entered (.tokw o) s u m) (.tokw o) s u m .bobbin) := by
  obtain ⟨body, hx, hb⟩ := tokw_body o h
  refine ⟨fun hdet => ?_, fun hdet hold => ?_, fun hdet hold => ?_⟩ <;> rw [hdet] at hb
  · exact trap_of (.tokw o) s u m body _ h (hx s) ha hb rfl rfl (by decide) (by decide) (by decide)
  · rw [hold] at hb
    exact completes_same (.tokw o) s u m body h (hx s) (fun _ => hb) _ fun _ _ => trivial
  · rw [hold] at hb
    exact waits_entered (.tokw o) s u m body .bobbin h (hx s) ha hb

theorem tokp_spec (o : NoOp) {s : State} {u : Nat} {m : BitVec 32} (h : Ready (.tokp o) s u m) (ha : acting (.tokp o) s u m ≠ [])
    (ho : (s.strand u).owesNothing) :
    (isDet (s.launch (s.strand u).launch) = false → Traps (.tokp o) s u m false 0x36 0 ((s.strand u).laneMask (maskBits m)) 0) ∧
    (isDet (s.launch (s.strand u).launch) = true → holdsBobbin s (s.strand u) = true → Completes (.tokp o) s u m { launches := true } fun t =>
      ∀ k, t.launch k = (passBobbin (entered (.tokp o) s u m) (s.strand u).launch).launch k) ∧
    (isDet (s.launch (s.strand u).launch) = true → holdsBobbin s (s.strand u) = false →
      Traps (.tokp o) s u m false 0x36 1 ((s.strand u).laneMask (maskBits m)) 0) := by
  obtain ⟨body, hx, hb⟩ := tokp_body o h ho
  refine ⟨fun hdet => ?_, fun hdet hold => ?_, fun hdet hold => ?_⟩ <;> rw [hdet] at hb
  · exact trap_of (.tokp o) s u m body _ h (hx s) ha hb rfl rfl (by decide) (by decide) (by decide)
  · rw [hold] at hb
    refine completes_of (.tokp o) s u m _ _ body _ h (hx s) (fun _ => hb) (fun _ => passBobbin_body _ _ _) fun t ht hh k => ?_
    rw [if_neg ha] at ht
    subst ht
    exact congrArg (sget default · k) (complete_beside _ _ _ hh).launches
  · rw [hold] at hb
    exact trap_of (.tokp o) s u m body _ h (hx s) ha hb rfl rfl (by decide) (by decide) (by decide)

/-- Settles O33: `tokw_spec` and `tokp_spec`. That LANES of the traps are the fragment's is log entry 19. -/
theorem tokensOrderStrands : Obligations.TokensOrderStrands := by
  unfold Obligations.TokensOrderStrands
  intro o pass s u m
  cases pass with
  | false =>
    intro i st l h ha _
    obtain ⟨hno, hold, hother⟩ := tokw_spec o h ha
    exact ⟨hno, fun hd hh => ⟨fun _ => hold hd hh, fun hc => (nomatch hc)⟩, fun hd hh => ⟨fun _ => hother hd hh, fun hc => (nomatch hc)⟩⟩
  | true =>
    intro i st l h ha ho
    obtain ⟨hno, hold, hother⟩ := tokp_spec o h ha ho
    exact ⟨hno, fun hd hh => ⟨fun hc => (nomatch hc), fun _ => hold hd hh⟩, fun hd hh => ⟨fun hc => (nomatch hc), fun _ => hother hd hh⟩⟩

end Sys2Proof.Machine
end

section
/-!
CSEAL and CWAIT (O34), and CPY (O35).
-/

namespace Sys2Proof.Machine

/-! ### CSEAL and CWAIT -/

theorem Ready.core {i : Instr} {s : State} {u : Nat} {m : BitVec 32} (h : Ready i s u m) (c : Nat) : (entered i s u m).core c = s.core c := by
  unfold State.core
  rw [h.quiet.beside.cores]

/-- The strand stands on the core on which it entered. -/
theorem Ready.strandCore {i : Instr} {s : State} {u : Nat} {m : BitVec 32} (h : Ready i s u m) : ((entered i s u m).strand u).core = (s.strand u).core := by
  obtain ⟨-, -, -, hcore, -⟩ := h.agree.ids
  exact hcore

theorem batchNumber_succ (k : Nat) : batchNumber (k + 1) = k % (2 ^ 32 - 1) + 1 := rfl

theorem ofNat_batchNumber (k : Nat) : BitVec.ofNat 64 (batchNumber k) = (BitVec.ofNat 32 (batchNumber k)).setWidth 64 := by
  have hlt : batchNumber k < 2 ^ 32 := by unfold batchNumber; omega
  refine BitVec.eq_of_toNat_eq ?_
  rw [BitVec.toNat_setWidth, BitVec.toNat_ofNat, BitVec.toNat_ofNat, Nat.mod_eq_of_lt hlt]

theorem cseal_spec (o : SealOp) {s : State} {u : Nat} {m : BitVec 32} (h : Ready (.cseal o) s u m) (ha : acting (.cseal o) s u m ≠ []) :
    Completes (.cseal o) s u m { s := fun c => c == o.r, ctl := fun n => n == 0x0C } fun t =>
      (o.r ≠ 0 → t.sreg u o.r = { val := BitVec.ofNat 32 (batchNumber ((s.strand u).sealed + 1)), tag := 0 }) ∧
      t.creg u 0x0C = BitVec.ofNat 64 (batchNumber ((s.strand u).sealed + 1)) := by
  have hsealed := entered_sealed (.cseal o) s u m (issuing_has s u m h.atIssue)
  obtain ⟨hB, hreg, hbatch⟩ := seal_body (entered (.cseal o) s u m) (contextOf (.cseal o) s u m) o.r
    (BitVec.ofNat 32 (batchNumber ((s.strand u).sealed + 1))) h.has
  rw [contextOf_u, hsealed] at hbatch
  refine completes_of (.cseal o) s u m _ _ _ _ h rfl (fun _ => ?_) (fun _ => hB) fun t ht hh => ?_
  · dsimp only [contextOf_u]
    rw [strand_modStrand_self _ u sealBatch h.has]
    dsimp only [sealBatch]
    rw [hsealed]
  · rw [if_neg ha] at ht
    subst ht
    refine ⟨fun h0 => ((complete_kept _ (contextOf (.cseal o) s u m) _ hh).sregs o.r rfl).trans (hreg h0), ?_⟩
    exact (complete_creg _ (contextOf (.cseal o) s u m) _ hh 0x0C (by decide)).trans hbatch

/-- CWAIT's meaning, from the state before the instruction. -/
theorem cwait_body (o : SealOp) {s : State} {u : Nat} {m : BitVec 32} (h : Ready (.cwait o) s u m) (hc : (s.strand u).clean) :
    let st := s.strand u
    let e := entered (.cwait o) s u m
    let k := coveredBatch st.sealed (st.readS o.r 1).w.toNat
    ∃ body, (∀ s', exec (.cwait o) s' = issue (.cwait o) s' body) ∧
    (((s.core st.core).copies.any fun c => c.strand == u && decide (c.batch ≤ k)) = true → body (contextOf (.cwait o) s u m) e = .wait .batch e) ∧
    (((s.core st.core).copies.any fun c => c.strand == u && decide (c.batch ≤ k)) = false → (∀ f ∈ st.cpFaults, decide (f.batch ≤ k) = false) →
      body (contextOf (.cwait o) s u m) e = .ok (e.modStrand u fun st =>
        { st with copyUnacked := st.copyUnacked.map fun c => if c.2.1 ≤ k then (c.1, 0, c.2.2) else c })) := by
  intro st e k
  have hhas := issuing_has s u m h.atIssue
  have hsealed := entered_sealed (.cwait o) s u m hhas
  have hfaults := entered_cpFaults (.cwait o) s u m hhas
  refine ⟨_, fun _ => rfl, fun hrun => ?_, fun hidle hnone => ?_⟩
  · simp only [contextOf_u, e, h.core, h.strandCore, hsealed, h.agree.readS]
    exact if_pos hrun
  · have hnil : st.cpFaults.filter (fun f => decide (f.batch ≤ k)) = [] := List.filter_eq_nil_iff.2 fun f hf => by rw [hnone f hf]; exact Bool.false_ne_true
    simp only [contextOf_u, e, h.core, h.strandCore, hsealed, h.agree.readS, hfaults]
    refine (if_neg (by rw [hidle]; exact Bool.false_ne_true)).trans ?_
    rw [hnil, readS_clean _ hc]
    rfl

/-- Settles O34: CSEAL by `seal_body`, CWAIT by `cwait_body`. -/
theorem batchesAreSealedAndAwaited : Obligations.BatchesAreSealedAndAwaited := by
  unfold Obligations.BatchesAreSealedAndAwaited
  intro o s u m
  refine ⟨fun h ha => ?_, fun h ha hc => ?_⟩
  · have hspec := cseal_spec o h ha
    rwa [ofNat_batchNumber, batchNumber_succ] at hspec
  · obtain ⟨body, hx, hwait, hdone⟩ := cwait_body o h hc
    refine ⟨fun hrun => waits_entered _ s u m body .batch h (hx s) ha (hwait hrun), fun hidle hnone => ?_⟩
    exact completes_of _ s u m {} _ body _ h (hx s) (fun _ => hdone hidle hnone) (fun _ => acked_body _ u _ h.has) fun _ _ _ => trivial

/-! ### CPY -/

theorem openCount_eq (st : Strand) : openCount st = st.ctl.batch.toNat / 2 ^ 32 % 128 := rfl

/-- What CPY is asked for: its destination, source and length. -/
def cpyDst (o : CpyOp) (st : Strand) : Nat := (st.readS o.d 2).val
def cpySrc (o : CpyOp) (st : Strand) : Nat := (st.readS o.a 2).val
def cpyLen (o : CpyOp) (st : Strand) : Nat := (st.readS o.b 1).w.toNat

/-- The copy of CPY that its engine has taken from the state `base` (R199, R201). -/
def Joins (o : CpyOp) (mode : Nat) (s base t : State) (u bar : Nat) : Prop :=
  (∃ c : Copy, (t.core (s.strand u).core).copies = (base.core (s.strand u).core).copies ++ [c] ∧ c.strand = u ∧ c.mode = mode ∧
    c.dst = cpyDst o (s.strand u) ∧ c.src = cpySrc o (s.strand u) ∧ c.len = cpyLen o (s.strand u) ∧ c.done = 0 ∧ c.bar = bar ∧
    c.scope = o.scope ∧ c.stream = o.stream ∧ c.batch = (s.strand u).sealed + (if openCount (s.strand u) = 64 then 2 else 1)) ∧
  (t.creg u 0x0C).toNat / 2 ^ 32 % 128 = if openCount (s.strand u) = 64 then 1 else (openCount (s.strand u) + 1) % 128

/-- CPY with good addresses, and room in the engine. -/
structure CpyReady (i : Instr) (o : CpyOp) (mode : Nat) (s : State) (u : Nat) (m : BitVec 32) : Prop where
  ready : Ready i s u m
  means : exec i s = issue i s (cpy mode o)
  acts : acting i s u m ≠ []
  clean : (s.strand u).clean
  dst : mode ≠ 2 → cpyDst o (s.strand u) < 2 ^ 56
  src : mode ≠ 1 → cpySrc o (s.strand u) < 2 ^ 56
  room : (s.core (s.strand u).core).copies.length < 64
  len : cpyLen o (s.strand u) ≠ 0

section
variable {i : Instr} {o : CpyOp} {mode : Nat} {s : State} {u : Nat} {m : BitVec 32}

/-- The addresses pass their checks, and the barrier object is next. -/
theorem CpyReady.body (h : CpyReady i o mode s u m) : cpy mode o (contextOf i s u m) (entered i s u m) =
    pendUp (contextOf i s u m) o.c (entered i s u m) fun bar s' =>
      .ok (startCopy s' (contextOf i s u m) mode (cpyDst o (s.strand u)) (cpySrc o (s.strand u)) (cpyLen o (s.strand u)) bar o) := by
  unfold cpy
  simp only [contextOf_u, h.ready.agree.readS, h.ready.strandCore, readS_clean _ h.clean]
  refine (withAddrs_good _ 1 true _ _ ?_).trans ((if_neg (by rw [h.ready.core]; exact Nat.not_le.2 h.room)).trans rfl)
  have hva : ∀ x ∈ (if mode = 2 then [] else [Ea.mk (((entered i s u m).strand u).lowest m) 0 (cpyDst o (s.strand u)) ((s.strand u).readS o.d 2).tag 0 false]) ++
      (if mode = 1 then [] else [Ea.mk (((entered i s u m).strand u).lowest m) 0 (cpySrc o (s.strand u)) ((s.strand u).readS o.a 2).tag 0 false]), x.va < 2 ^ 56 := by
    intro x hx
    rcases List.mem_append.1 hx with hx | hx <;> split at hx
    · cases hx
    · rw [List.mem_singleton.1 hx]
      exact h.dst ‹_›
    · cases hx
    · rw [List.mem_singleton.1 hx]
      exact h.src ‹_›
  unfold badAddr
  rw [List.find?_eq_none.2 fun x hx => by simpa using hva x hx, List.find?_eq_none.2 fun x _ => by simp [Nat.mod_one]]
  rfl

/-- What completing leaves of a copy that has joined from `e`. -/
theorem CpyReady.joins (h : CpyReady i o mode s u m) {e base : State} (bar : Nat) (hst : e.strand u = (entered i s u m).strand u) (hcores : e.cores = base.cores) :
    let t := startCopy e (contextOf i s u m) mode (cpyDst o (s.strand u)) (cpySrc o (s.strand u)) (cpyLen o (s.strand u)) bar o
    e.has u → t.mem = e.mem ∧ Body { ctl := fun n => n == 0x0C } e t u ∧ Joins o mode s base (complete t (contextOf i s u m) i.uses false 0) u bar := by
  intro t he
  have hag : Agree (s.strand u) (e.strand u) := by rw [hst]; exact h.ready.agree
  have hopen : openCount (e.strand u) = openCount (s.strand u) := by rw [openCount_eq, openCount_eq, hag.ctl]
  have hsealed : (e.strand u).sealed = (s.strand u).sealed := by rw [hst]; exact entered_sealed i s u m (issuing_has s u m h.ready.atIssue)
  have hcore : (e.strand u).core = (s.strand u).core := by rw [hst]; exact h.ready.strandCore
  obtain ⟨hmem, hB, ⟨c, hcopies, hrest⟩, hbatch⟩ := startCopy_spec e (contextOf i s u m) mode (cpyDst o (s.strand u)) (cpySrc o (s.strand u))
    (cpyLen o (s.strand u)) bar o he h.len
  rw [contextOf_u, hcore] at hcopies
  rw [contextOf_u, hsealed, hopen] at hrest
  rw [contextOf_u, hopen] at hbatch
  have hh : t.has u := hB.has he
  refine ⟨hmem, hB, ⟨c, ?_, hrest⟩, ?_⟩
  · rw [complete_core t (contextOf i s u m) _ hh, hcopies]
    unfold State.core
    rw [hcores]
  · rw [show (complete t (contextOf i s u m) i.uses false 0).creg u 0x0C = t.creg u 0x0C from complete_creg t (contextOf i s u m) _ hh 0x0C (by decide)]
    exact hbatch

theorem CpyReady.alone (h : CpyReady i o mode s u m) (hc : o.c = 0) : Completes i s u m { ctl := fun n => n == 0x0C } fun t => Joins o mode s s t u 0 := by
  obtain ⟨-, hB, hjoins⟩ := h.joins (e := entered i s u m) (base := s) 0 rfl h.ready.quiet.beside.cores h.ready.has
  refine completes_of i s u m _ _ (cpy mode o) _ h.ready h.means (fun _ => h.body.trans (if_pos hc)) (fun _ => hB) fun t ht _ => ?_
  rw [if_neg h.acts] at ht
  exact ht ▸ hjoins

theorem barPend_eq (x : Nat) : barPend x = x / 2 ^ 48 % 2 ^ 16 := rfl

/-- PEND counted up (R197). -/
theorem setFld_pend {x : Nat} (h : x / 2 ^ 48 % 2 ^ 16 < 65535) : setFld x 48 16 (barPend x + 1) = x + 2 ^ 48 := by
  unfold setFld barPend fld
  omega

variable {base : State} {l leaf : Nat}

/-- The barrier object that CPY names, found and with its PEND not full. -/
theorem CpyReady.counted (h : CpyReady i o mode s u m) (hc : o.c ≠ 0) (hr : Reaches i s u m .atomic 16 o.c 0 base l leaf)
    (hw : Writable base u [0] 16 (fun _ => l) (fun _ => leaf)) (hp : base.readNat l 16 / 2 ^ 48 % 2 ^ 16 < 65535) :
    CompletesFrom base i s u m { ctl := fun n => n == 0x0C, mem := fun a => decide (l ≤ a ∧ a < l + 16) } fun t =>
      Joins o mode s base t u (targetOf s u m o.c 0).va ∧ t.readNat l 16 = base.readNat l 16 + 2 ^ 48 := by
  have hlt : base.readNat l 16 < 256 ^ 16 := readNat_lt base l 16
  have hwritten := barWrite_clean base u l leaf (base.readNat l 16 + 2 ^ 48) hw
  have hBw := hw.barWrite_body (base.readNat l 16 + 2 ^ 48) { ctl := fun n => n == 0x0C, mem := fun a => decide (l ≤ a ∧ a < l + 16) } fun a h1 h2 => decide_eq_true ⟨h1, h2⟩
  obtain ⟨hmem, hB, hjoins⟩ := h.joins (e := barWrite base l (base.readNat l 16 + 2 ^ 48)) (base := base) (targetOf s u m o.c 0).va
    (by rw [hwritten]; exact (hr.base h.ready).1) (by rw [hwritten]) (hBw.has (hr.base h.ready).2)
  refine hr.completes h.ready h.means (h.body.trans ((if_neg hc).trans ((object_found i .atomic s u m o.c 0 base l leaf _ h.ready hr).trans ?_)))
    (hBw.trans (hB.mono ⟨fun _ hx => (nomatch hx), fun _ _ => id, fun _ _ => id, fun _ => id, fun _ => id, fun _ => id, fun _ => id, id, id, id⟩)) ⟨hjoins, ?_⟩
  · simp only [barRead, setFld_pend hp, contextOf_u, hw.bobbin, Bool.not_true, Bool.false_eq_true, ↓reduceIte]
    exact (if_neg (by rw [barPend_eq]; omega)).trans (hostFree_clean base u l leaf 16 _ hw)
  · exact hw.barWrite_read (by omega) ((complete_beside _ _ _ (hB.has (hBw.has (hr.base h.ready).2))).mem.trans hmem)

theorem CpyReady.full (h : CpyReady i o mode s u m) (hc : o.c ≠ 0) (hr : Reaches i s u m .atomic 16 o.c 0 base l leaf)
    (hp : base.readNat l 16 / 2 ^ 48 % 2 ^ 16 = 65535) :
    TrapsFrom base i s u m false 0x35 2 ((s.strand u).laneMask (maskBits m)) (targetOf s u m o.c 0).va :=
  hr.traps h.ready h.means (h.body.trans ((if_neg hc).trans ((object_found i .atomic s u m o.c 0 base l leaf _ h.ready hr).trans (if_pos hp))))
    (by decide) (by decide)

end

/-- Settles O35: the copy joins by `startCopy_spec` alone, with its object counted, or the full object traps. That LANES of the trap are the
fragment's is log entry 19. -/
theorem copiesJoinTheEngine : Obligations.CopiesJoinTheEngine := by
  unfold Obligations.CopiesJoinTheEngine
  intro o mode s base u m l leaf hmode i st dst src len full joined h ha hc hdst hsrc hroom hlen
  have hx : exec i s = issue i s (cpy mode o) := by
    obtain rfl | rfl | rfl : mode = 0 ∨ mode = 1 ∨ mode = 2 := by omega
    all_goals rfl
  have hr : CpyReady i o mode s u m := ⟨h, hx, ha, hc, hdst, hsrc, hroom, hlen⟩
  exact ⟨hr.alone, fun h0 hf hw => ⟨hr.counted h0 hf hw, hr.full h0 hf⟩⟩

end Sys2Proof.Machine
end

section
/-!
MAIL (O36) and EMIT (O37).
-/

namespace Sys2Proof.Machine

/-! ### MAIL -/

theorem mailTarget_loc (s : State) (ctx l leaf : Nat) :
    mailTarget s ctx (.hit (.loc l) leaf) = (if leaf / 2 ^ 5 % 4 = 1 then mailboxAt s ctx l else none).map some :=
  (apply_ite (Option.map some) (leafOrd leaf = 1) (mailboxAt s ctx l) none).symm

/-- A free slot for which nobody waits takes the message at once (R302). -/
theorem slotTurn_free (s : State) (ctx n id loc : Nat) (bytes : List Byte) (hw : (s.context ctx).writers.all (fun w => w.1 != n)) (hb : isBusy s ctx n = false) :
    slotTurn s ctx n id loc bytes =
      (true, putSlot (s.modContext ctx fun c => { c with writers := c.writers.filter fun w => w.2.1 != some id }) ctx n bytes loc) := by
  have hnone : (s.context ctx).writers.filter (fun w => w.1 == n) = [] := List.filter_eq_nil_iff.2 fun w hmem => by
    simpa [bne] using List.all_eq_true.1 hw w hmem
  unfold slotTurn
  dsimp only
  rw [hnone, hb]
  rfl

theorem putSlot_clean (s : State) (ctx n loc : Nat) (bytes : List Byte) (hraw : s.raw = []) (hp : ∀ x ∈ unitsOf loc bytes.length, s.poison.contains x = false) :
    ∃ tags, putSlot s ctx n bytes loc =
        { s with
          mem := Memory.write s.mem loc bytes
          tags := tags
          contexts := smod s.contexts ctx fun c => { c with busy := c.busy ++ [(n, bytes)] } } ∧
      ∀ k, k ∉ sectorsOf loc bytes.length → sget 0 tags k = sget 0 s.tags k := by
  obtain ⟨tags, hstore, htags⟩ := store_clean s loc bytes (BitVec.ofNat 16 (0xE000 + n)) hp
  refine ⟨tags, ?_, htags⟩
  have hs : s.settleStore [(loc, bytes, BitVec.ofNat 16 (0xE000 + n))] = s := by simp [State.settleStore, hraw]
  unfold putSlot State.storeAll
  dsimp only
  rw [hs, hstore]
  rfl

/-- The bytes of MAIL's 16 registers, lowest first (R204). -/
def mailWords (st : Strand) (a : Nat) : List Byte := (List.range 16).flatMap fun k => toBytes 4 ((st.readS (a + k) 1).w.toNat)

theorem mailBytes_clean {a b : Strand} (hab : Agree a b) (hc : a.clean) (r : Nat) : mailBytes b r = (mailWords a r, false) := by
  unfold mailBytes mailWords upFrom
  simp [List.flatMap_map, hab.readS, readS_clean _ hc]

theorem length_mailWords (st : Strand) (a : Nat) : (mailWords st a).length = 64 := by simp [mailWords, List.length_flatMap]

/-- MAIL at its target, once it is found: what it does where it is the slot of mailbox `box`, and where it is none (R204). -/
def mailAt (o : MailOp) (cx : Cx) (x : Ea) (l leaf : Nat) (s : State) : Option Nat → Eff
  | none => .trap { cause := 0x21, sub := 5, addr := x.va } s
  | some n => release s cx.u cx.site.pc cx.mask o.scope fun s =>
    match mailPut cx (.hit (.loc l) leaf) (some n) s with
    | .done s p => .done s (p || x.poison)
    | e => e

section
variable {o : MailOp} {s base : State} {u : Nat} {m : BitVec 32} {l leaf : Nat}

theorem Reaches.ctxOf {i : Instr} {k : Access} {n b : Nat} {disp : BitVec 16} (hr : Reaches i s u m k n b disp base l leaf) (h : Ready i s u m) :
    base.ctxOf (base.strand u) = s.ctxOf (s.strand u) := by
  obtain ⟨mem, cores, hb⟩ := hr.1.near
  have hl : base.launches = s.launches := by
    rw [hb]
    exact h.quiet.beside.launches
  unfold State.ctxOf State.launch
  rw [(hr.base h).1, h.agree.launch, hl]

/-- MAIL finds the target of its address pair. -/
theorem mail_found (h : Ready (.mail o) s u m) (hr : Reaches (.mail o) s u m .atomic 64 o.b 0 base l leaf) :
    ∃ body, (∀ s', exec (.mail o) s' = issue (.mail o) s' body) ∧ body (contextOf (.mail o) s u m) (entered (.mail o) s u m) =
      mailAt o (contextOf (.mail o) s u m) (targetOf s u m o.b 0) l leaf base (if leaf / 2 ^ 5 % 4 = 1 then mailboxAt base (s.ctxOf (s.strand u)) l else none) := by
  refine ⟨_, fun _ => rfl, ?_⟩
  obtain ⟨⟨hgood, hheld, hfates⟩, -⟩ := id hr
  have hctx := hr.ctxOf h
  rw [(hr.base h).1] at hctx
  have hva : ((s.strand u).readS o.b 2).val = (targetOf s u m o.b 0).va := (pair_addr _ _).symm
  dsimp only
  rw [contextOf_u, show (contextOf (.mail o) s u m).mask = m from rfl, h.agree.readS, h.agree.lowest, hva,
    show Ea.mk ((s.strand u).lowest m) 0 (targetOf s u m o.b 0).va ((s.strand u).readS o.b 2).tag 0 ((s.strand u).readS o.b 2).poison = targetOf s u m o.b 0 from rfl]
  refine (withAddrs_good _ _ _ _ _ hgood).trans ?_
  rw [hfates]
  refine (withHits_all [targetOf s u m o.b 0] (fun _ => l) (fun _ => leaf) 2 base _ _).trans ?_
  dsimp only [List.map, List.headD]
  rw [hctx, mailTarget_loc, hheld]
  generalize (if leaf / 2 ^ 5 % 4 = 1 then mailboxAt base (s.ctxOf (s.strand u)) l else none) = box
  cases box <;> rfl

/-- A target that is no slot of a bound mailbox is refused (R204). -/
theorem mail_refused (h : Ready (.mail o) s u m) (hr : Reaches (.mail o) s u m .atomic 64 o.b 0 base l leaf)
    (hbox : (if leaf / 2 ^ 5 % 4 = 1 then mailboxAt base (s.ctxOf (s.strand u)) l else none) = none) :
    TrapsFrom base (.mail o) s u m false 0x21 5 ((s.strand u).laneMask (maskBits m)) (targetOf s u m o.b 0).va := by
  obtain ⟨body, hx, hb⟩ := mail_found h hr
  rw [hbox] at hb
  exact hr.traps h (hx s) hb (by decide) (by decide)

/-- The message goes into the free slot. -/
theorem mail_body (h : Ready (.mail o) s u m) (hr : Reaches (.mail o) s u m .atomic 64 o.b 0 base l leaf) {n : Nat}
    (hbox : (if leaf / 2 ^ 5 % 4 = 1 then mailboxAt base (s.ctxOf (s.strand u)) l else none) = some n)
    (hlines : heldLines base [(l, List.replicate 64 0, 0)] = [])
    (hwriters : (base.context (s.ctxOf (s.strand u))).writers.all fun w => w.1 != n) (hfree : isBusy base (s.ctxOf (s.strand u)) n = false) :
    ∃ body, (∀ s', exec (.mail o) s' = issue (.mail o) s' body) ∧ body (contextOf (.mail o) s u m) (entered (.mail o) s u m) =
      .ok (putSlot (base.modContext (s.ctxOf (s.strand u)) fun c => { c with writers := c.writers.filter fun w => w.2.1 != some u })
        (s.ctxOf (s.strand u)) n (mailWords (s.strand u) o.a) l) := by
  obtain ⟨body, hx, hb⟩ := mail_found h hr
  refine ⟨body, hx, hb.trans ?_⟩
  obtain ⟨-, hrel, -, hc⟩ := id hr
  rw [hbox]
  refine (release_idle base u _ _ _ _ hrel).trans ?_
  unfold mailPut
  dsimp only
  rw [contextOf_u, hr.ctxOf h, mailBytes_clean (hr.agree h) hc, hr.targetClean]
  dsimp only [hostFree, List.map]
  rw [hlines]
  dsimp only
  rw [slotTurn_free base _ n u l _ hwriters hfree]
  rfl

end

/-- Settles O36: `mail_refused`, and for a free slot `mail_body` with what `putSlot_clean` leaves. That LANES of the trap are the fragment's is
log entry 19. -/
theorem mailFillsAFreeSlot : Obligations.MailFillsAFreeSlot := by
  unfold Obligations.MailFillsAFreeSlot
  intro o s base u m l leaf i st ctx h hr box
  refine ⟨mail_refused h hr, fun n hbox hlines hraw hunits hctx hwriters hfree => ?_⟩
  intro bytes
  obtain ⟨body, hx, hb⟩ := mail_body h hr hbox hlines hwriters hfree
  have hlen : bytes.length = 64 := length_mailWords st o.a
  obtain ⟨tags, hput, htags⟩ := putSlot_clean (base.modContext ctx fun c => { c with writers := c.writers.filter fun w => w.2.1 != some u }) ctx n l bytes hraw
    (by rw [hlen]; exact hunits)
  rw [show mailWords (s.strand u) o.a = bytes from rfl, hput] at hb
  have hB := stored_body base u l bytes tags (smod (base.modContext ctx fun c => { c with writers := c.writers.filter fun w => w.2.1 != some u }).contexts ctx
    fun c => { c with busy := c.busy ++ [(n, bytes)] }) { mem := fun a => decide (32 * (l / 32) ≤ a ∧ a < 32 * ((l + 64 + 31) / 32)) }
    (fun a h1 h2 => decide_eq_true ⟨h1, by rwa [hlen] at h2⟩) htags
  have hdone := complete_beside _ (contextOf i s u m) i.uses (hB.has (hr.base h).2)
  have hfirst := context_mod base ctx (fun c => { c with writers := c.writers.filter fun w => w.2.1 != some u }) hctx ctx
  have hsecond := context_mod (base.modContext ctx fun c => { c with writers := c.writers.filter fun w => w.2.1 != some u }) ctx
    (fun c => { c with busy := c.busy ++ [(n, bytes)] }) (by rw [State.modContext_contexts, sfind_smod, if_pos rfl, Option.isSome_map]; exact hctx) ctx
  rw [if_pos rfl] at hfirst hsecond
  rw [hfirst] at hsecond
  refine hr.completes h (hx s) hb hB ⟨?_, ?_⟩
  · exact (congrArg (Memory.read · l 64) hdone.mem).trans (hlen ▸ read_write_same base.mem l bytes)
  · exact (congrArg (fun cs => (sget default cs ctx).busy) hdone.contexts).trans (congrArg Context.busy hsecond)

/-! ### EMIT -/

/-- EMIT's records, one for each acting thread in lane order (R205). -/
def emitted (o : EmitOp) (s : State) (u : Nat) (m : BitVec 32) : List EmitRec :=
  (acting (.emit o) s u m).map fun j => (emitRec (entered (.emit o) s u m) (contextOf (.emit o) s u m) ((s.strand u).readS o.b 2).val j).1

/-- The entry put into the intake of the strand's die. -/
def intakeWith (die : Nat) (rs : List EmitRec) (ds : List Die) : List Die :=
  ds.mapIdx fun i d => if i = die then { d with intake := d.intake ++ rs } else d

theorem intakeWith_self (die : Nat) (rs : List EmitRec) (ds : List Die) (h : die < ds.length) :
    ((intakeWith die rs ds).getD die {}).intake = (ds.getD die {}).intake ++ rs := by
  simp [intakeWith, List.getD_eq_getElem?_getD, h]

section
variable {o : EmitOp} {s : State} {u : Nat} {m : BitVec 32}

theorem emitRec_clean (h : Ready (.emit o) s u m) (hc : (s.strand u).clean) (entry j : Nat) :
    (emitRec (entered (.emit o) s u m) (contextOf (.emit o) s u m) entry j).2 = false := by
  unfold emitRec
  dsimp only
  refine List.any_eq_false.2 fun w hw => ?_
  obtain ⟨r, -, rfl⟩ := List.mem_map.1 hw
  rw [contextOf_u, h.agree.readV, readV_clean _ hc]
  exact Bool.false_ne_true

theorem emitRec_fields (h : Ready (.emit o) s u m) (entry j : Nat) :
    let r := (emitRec (entered (.emit o) s u m) (contextOf (.emit o) s u m) entry j).1
    r.launch = (s.strand u).launch ∧ r.sid = (s.strand u).sid ∧ r.call = (s.strand u).emits ∧ r.lane = ((s.strand u).thread j).lane ∧ r.entry = entry ∧
      r.words.map (·.1) = (List.range 14).map fun c => (((s.strand u).thread j).readV (o.a + c) 1).w := by
  obtain ⟨-, -, hsid, -⟩ := h.agree.ids
  refine ⟨h.agree.launch, hsid, entered_emits _ s u m (issuing_has s u m h.atIssue), h.agree.lane j, rfl, ?_⟩
  unfold emitRec upFrom
  simp only [List.map_map, contextOf_u]
  refine List.map_congr_left fun c _ => ?_
  show ((((entered (.emit o) s u m).strand u).thread j).readV (o.a + c) 1).w = _
  rw [h.agree.readV]

/-- EMIT waits where the intake has no room for its records, and otherwise puts them there. -/
theorem emit_body (h : Ready (.emit o) s u m) (hc : (s.strand u).clean) (h56 : ((s.strand u).readS o.b 2).val < 2 ^ 56) (h4 : ((s.strand u).readS o.b 2).val % 4 = 0) :
    ∃ body, (∀ s', exec (.emit o) s' = issue (.emit o) s' body) ∧ body (contextOf (.emit o) s u m) (entered (.emit o) s u m) =
      if 256 < (s.dies.getD ((s.strand u).core / 32) {}).intake.length + (acting (.emit o) s u m).length then .wait .dispatcher (entered (.emit o) s u m)
      else .ok { ((entered (.emit o) s u m).modStrand u fun st => { st with emits := st.emits + 1 }) with
        dies := intakeWith ((s.strand u).core / 32) (emitted o s u m) s.dies } := by
  have hgood : addrFault ((s.strand u).readS o.b 2).val 4 = none := by
    unfold addrFault
    rw [if_neg (by omega), if_neg (by omega)]
  have hpoison : ((acting (.emit o) s u m).map (emitRec (entered (.emit o) s u m) (contextOf (.emit o) s u m) ((s.strand u).readS o.b 2).val)).any (·.2) = false :=
    List.any_eq_false.2 fun r hr => by
      obtain ⟨j, -, rfl⟩ := List.mem_map.1 hr
      rw [emitRec_clean h hc]
      exact Bool.false_ne_true
  refine ⟨_, fun _ => rfl, ?_⟩
  dsimp only [contextOf_u, contextOf_act]
  rw [h.agree.readS, hgood]
  dsimp only [dieOfCore]
  rw [h.strandCore, entered_dies, hpoison, readS_clean _ hc, List.map_map, State.modStrand_dies, entered_dies]
  rfl

end

/-- Settles O37: `emit_body` gives what EMIT does, `emitRec_fields` what its records hold. -/
theorem emitSendsRecords : Obligations.EmitSendsRecords := by
  unfold Obligations.EmitSendsRecords
  intro o s u m i st entry room h ha hc h56 h4 hdie
  obtain ⟨body, hx, hb⟩ := emit_body h hc h56 h4
  refine ⟨fun hfull => waits_entered i s u m body .dispatcher h (hx s) ha (hb.trans (if_pos hfull)), fun hroom => ?_⟩
  have hB := emits_body (entered i s u m) u (fun _ => intakeWith (st.core / 32) (emitted o s u m) s.dies) h.has
  refine completes_of i s u m _ _ body _ h (hx s) (fun _ => hb.trans (if_neg (Nat.not_lt.2 hroom))) (fun _ => hB) fun t ht _ => ?_
  rw [if_neg ha] at ht
  subst ht
  refine ⟨emitted o s u m, ?_, by simp [emitted, i], fun k hk => ?_⟩
  · rw [complete_dies]
    exact intakeWith_self _ _ _ hdie
  · have hk' : k < (acting i s u m).length := by simpa [emitted] using hk
    have hrec : (emitted o s u m).getD k default =
        (emitRec (entered i s u m) (contextOf i s u m) entry ((acting i s u m).getD k 0)).1 := by
      simp [emitted, List.getD_eq_getElem?_getD, hk', i, entry, st]
    dsimp only
    rw [hrec]
    exact emitRec_fields h entry _

end Sys2Proof.Machine
end

section
/-!
GETC and SETC of the registers whose write has no check of its own (O27).
-/

namespace Sys2Proof.Machine

/-! ### GETC -/

/-- What GETC leaves before its result: a read of STFQ begins a new count of arrivals (R48). -/
def readCtl (o : GetcOp) (s : State) (u : Nat) : State :=
  if o.n = 0x0E then s.modStrand u fun st => { st with arrivals := 0 } else s

theorem readCtl_body (o : GetcOp) (s : State) (u : Nat) (w : Touch) (h : s.has u) : Body w s (readCtl o s u) u := by
  unfold readCtl
  split
  · exact body_modStrand s u _ w h ⟨rfl, rfl, rfl, ⟨rfl, rfl, rfl⟩, rfl, rfl, fun _ _ _ => rfl, fun _ _ => rfl, fun _ _ => rfl, fun _ _ _ _ => rfl,
      fun _ _ _ => rfl, fun _ => ⟨rfl, rfl, rfl, rfl, rfl⟩, rfl, rfl⟩
  · exact Body.refl w s u

/-- A uniform instruction that writes s-registers after a change that its program does not see. -/
theorem uni_write_from {i : Instr} {s e : State} {u : Nat} {m : BitVec 32} {d : Nat} {body : Cx → State → Eff} {ws : List Word} {t : Tag}
    (h : Ready i s u m) (hx : exec i s = issue i s body) (he : ∀ w, Body w (entered i s u m) e u)
    (hb : body (contextOf i s u m) (entered i s u m) = .ok (writeU e (contextOf i s u m) d ws t)) : UniResult i s u m d ws.length ws t := by
  have hes : e.has u := (he {}).has h.has
  refine completes_of i s u m _ _ body _ h hx (fun _ => hb) (fun ha => (he _).trans ?_) fun t0 ht0 hh ha k hk h0 => ?_
  · exact writeU_body e (contextOf i s u m) d ws t _ hes fun c h1 h2 => decide_eq_true ⟨ha, h1, h2⟩
  · rw [if_neg ha] at ht0
    refine ((complete_kept t0 (contextOf i s u m) i.uses hh).sregs (d + k) rfl).trans ?_
    rw [ht0]
    exact writeU_sreg e (contextOf i s u m) d ws t hes k hk h0

theorem getc_result (o : GetcOp) {s : State} {u : Nat} {m : BitVec 32} (h : Ready (.getc o) s u m) :
    UniResult (.getc o) s u m o.d 2 [(s.creg u o.n).setWidth 32, ((s.creg u o.n) >>> 32).setWidth 32] 0 := by
  have hee : entered (.getc o) s u m = s := startOf_entered _ s u m rfl
  rw [← wordsOf2]
  refine uni_write_from (ws := wordsOfNat 2 (s.creg u o.n).toNat) h rfl (fun w => readCtl_body o _ u w h.has) ?_
  rw [hee]
  rfl

/-! ### The system registers (R50) -/

/-- Each holds one field, at its place. -/
def sysField (n : Nat) : Nat × Nat :=
  match n with
  | 0x40 => (0, 4)
  | 0x41 => (12, 44)
  | 0x43 => (6, 50)
  | _ => (0, 48)

/-- A read after a write of a system register gives its field of what was put. -/
theorem ctlRead_ctxPut {n : Nat} (hn : n ∈ [0x40, 0x41, 0x43, 0x44]) {t : State} {b : Strand} {c : Context} {x : BitVec 64}
    (h : t.context (t.ctxOf b) = ctxPut c n x) :
    ctlRead t b n = BitVec.ofNat 64 (cfld x (sysField n).1 (sysField n).2 % 2 ^ (sysField n).2 * 2 ^ (sysField n).1) := by
  simp only [List.mem_cons, List.not_mem_nil, or_false] at hn
  rcases hn with rfl | rfl | rfl | rfl <;> simp [ctlRead, sysField, h, ctxPut]

theorem ctlRead_system_field {n : Nat} (hn : n ∈ [0x40, 0x41, 0x43, 0x44]) (s : State) (st : Strand) :
    ∃ v, ctlRead s st n = BitVec.ofNat 64 (v % 2 ^ (sysField n).2 * 2 ^ (sysField n).1) := by
  simp only [List.mem_cons, List.not_mem_nil, or_false] at hn
  rcases hn with rfl | rfl | rfl | rfl
  · exact ⟨(s.context (s.ctxOf st)).world, by simp [ctlRead, sysField]⟩
  · exact ⟨(s.context (s.ctxOf st)).ptroot, rfl⟩
  · exact ⟨(s.context (s.ctxOf st)).mbx, rfl⟩
  · exact ⟨(s.context (s.ctxOf st)).deadline, by simp [ctlRead, sysField]⟩

/-- What SETC puts into a system register has bits in its field alone. -/
theorem ctlMerge_field {n : Nat} (hn : n ∈ [0x40, 0x41, 0x43, 0x44]) (v : Nat) (src mask : BitVec 64) :
    let x := ctlMerge n (BitVec.ofNat 64 (v % 2 ^ (sysField n).2 * 2 ^ (sysField n).1)) src mask
    BitVec.ofNat 64 (cfld x (sysField n).1 (sysField n).2 % 2 ^ (sysField n).2 * 2 ^ (sysField n).1) = x := by
  intro x
  have hfit : (sysField n).1 + (sysField n).2 ≤ 64 ∧
      ∀ k < 64, (ctlWritable n).getLsbD k = decide ((sysField n).1 ≤ k ∧ k < (sysField n).1 + (sysField n).2) := by
    simp only [List.mem_cons, List.not_mem_nil, or_false] at hn
    rcases hn with rfl | rfl | rfl | rfl <;> decide +kernel
  have hx : x = ((BitVec.ofNat 64 (v % 2 ^ (sysField n).2 * 2 ^ (sysField n).1)) &&& ~~~(mask &&& ctlWritable n)) ||| (src &&& (mask &&& ctlWritable n)) := by
    simp only [List.mem_cons, List.not_mem_nil, or_false] at hn
    rcases hn with rfl | rfl | rfl | rfl <;> rfl
  obtain ⟨hle, hbits⟩ := hfit
  refine BitVec.eq_of_getLsbD_eq fun k hk => ?_
  rw [bit_field _ _ _ _ hle]
  by_cases hin : (sysField n).1 ≤ k ∧ k < (sysField n).1 + (sysField n).2
  · simp [hin]
  · rw [hx, getLsbD_masked, hbits k hk, bit_placed _ _ _ _ hle]
    simp [hin]

/-- A register that no SETC writes keeps its value. -/
theorem ctlMerge_readonly {n : Nat} (h : n ∉ [0, 1, 2, 3, 4, 5, 6, 7, 0x0A, 0x0E, 0x40, 0x41, 0x43, 0x44]) (old src mask : BitVec 64) :
    ctlMerge n old src mask = old := by
  have hplain : ctlMerge n old src mask = (old &&& ~~~(mask &&& ctlWritable n)) ||| (src &&& (mask &&& ctlWritable n)) := by
    simp only [List.mem_cons, List.not_mem_nil, or_false, not_or] at h
    obtain ⟨h0, h1, -, -, -, -, -, -, -, he, -⟩ := h
    unfold ctlMerge
    split <;> first | rfl | contradiction
  refine BitVec.eq_of_getLsbD_eq fun k _ => ?_
  rw [hplain, getLsbD_masked, ctlWritable_none n h]
  simp

theorem ctxOf_congr {s t : State} {a b : Strand} (hl : t.launches = s.launches) (hb : b.launch = a.launch) : t.ctxOf b = s.ctxOf a := by
  unfold State.ctxOf State.launch
  rw [hl, hb]

/-- A completion leaves the system registers. -/
theorem complete_creg_system (t : State) (cx : Cx) (us : List Use) (h : t.has cx.u) {n : Nat} (hn : 0x40 ≤ n) :
    (complete t cx us false 0).creg cx.u n = t.creg cx.u n := by
  obtain ⟨hag, -, hbeside⟩ := complete_spec t cx us false 0 h
  obtain ⟨-, -, -, hcore, -⟩ := hag.ids
  have hctx := ctxOf_congr hbeside.launches hag.launch
  unfold State.creg
  by_cases h4 : n ∈ [0x40, 0x41, 0x43, 0x44]
  · simp only [List.mem_cons, List.not_mem_nil, or_false] at h4
    rcases h4 with rfl | rfl | rfl | rfl <;> simp only [ctlRead, hctx, State.context, hbeside.contexts] <;> rfl
  · exact ctlRead_system _ _ _ _ n hn h4 hctx hbeside.cores hcore

/-! ### SETC -/

theorem Ready.setcNumber {o : SetcOp} {s : State} {u : Nat} {m : BitVec 32} (h : Ready (.setc o) s u m) :
    ctlUndefined o.n = false ∧ o.n ≠ 4 ∧ o.n ≠ 0x0A ∧ o.n ≠ 0x0E := by
  have hf : o.faults (fun n => n != 4 && n != 0x0A && n != 0x0E) = [] := List.append_eq_nil_iff.1 h.wf |>.1
  simp only [SetcOp.faults, need, List.append_eq_nil_iff] at hf
  obtain ⟨⟨⟨-, hn⟩, -⟩, -⟩ := hf
  grind

/-- The value that SETC leaves (R206). -/
def setcValue (o : SetcOp) (s : State) (u : Nat) : BitVec 64 :=
  ctlMerge o.n (s.creg u o.n) ((s.strand u).readS o.b 2).d (if o.m then ((s.strand u).readS o.c 2).d else BitVec.allOnes 64)

section
variable {o : SetcOp} {s : State} {u : Nat} {m : BitVec 32}

theorem setc_body (hc : (s.strand u).clean) :
    ∃ body, (∀ s', exec (.setc o) s' = issue (.setc o) s' body) ∧ body (contextOf (.setc o) s u m) s =
      if o.n = 0x40 ∧ ¬(s.strand u).onSec then .trap { cause := 0x04, sub := 2 } s
      else if 0x40 ≤ o.n then .ok (s.modContext (s.ctxOf (s.strand u)) fun c => ctxPut c o.n (setcValue o s u))
      else .ok (s.modStrand u fun st => { st with ctl := ctlPut st.ctl o.n (setcValue o s u) }) := by
  refine ⟨_, fun _ => rfl, ?_⟩
  dsimp only
  rw [contextOf_u, setcArgs_clean _ o hc]
  rfl

/-- A register of the strand: `P` need only follow from what the register then reads as. -/
theorem setc_strand (h : Ready (.setc o) s u m) (ha : acting (.setc o) s u m ≠ []) (hc : (s.strand u).clean) (hn : o.n < 0x40) {P : State → Prop}
    (hP : ∀ t : State, (o.n ≠ 0x0B → t.creg u o.n = setcValue o s u) → P t) : Completes (.setc o) s u m { ctl := fun n => n == o.n } P := by
  obtain ⟨body, hx, hb⟩ := setc_body (o := o) (m := m) hc
  obtain ⟨hdef, h4, ha', he⟩ := h.setcNumber
  refine completes_creg (.setc o) s u m o.n body (fun c => ctlPut c o.n (setcValue o s u)) h (hx s) ha (setc_no_boundary (.inl rfl)) ?_
    (fun r hr h0 hne st => setc_plain_read r o.n _ hne s st hr h0) P fun t ht => hP t fun h0 => ?_
  · rw [hb, if_neg (by omega), if_neg (by omega)]
  · have hlt : o.n < 0x12 := by
      simp only [ctlUndefined] at hdef
      grind
    rw [ht o.n hlt h0, setc_same_read o.n _ s _ hn (by simp [h4, ha', he, h0])]
    split
    · rfl
    · next hno => exact (ctlMerge_readonly (by simp only [List.mem_cons] at hno ⊢; grind) _ _ _).symm

/-- A register of the context. -/
theorem setc_context (h : Ready (.setc o) s u m) (ha : acting (.setc o) s u m ≠ []) (hc : (s.strand u).clean) (hn : 0x40 ≤ o.n)
    (hsec : o.n = 0x40 → (s.strand u).onSec = true) (hsome : (sfind s.contexts (s.ctxOf (s.strand u))).isSome) :
    Completes (.setc o) s u m {} fun t => t.creg u o.n = setcValue o s u ∧ ∀ c, c ≠ s.ctxOf (s.strand u) → t.context c = s.context c := by
  obtain ⟨body, hx, hb⟩ := setc_body (o := o) (m := m) hc
  have hee := startOf_entered (.setc o) s u m (setc_no_boundary (.inl rfl))
  replace hb := (hb.trans (if_neg fun hno => hno.2 (hsec hno.1))).trans (if_pos hn)
  have hctx := context_mod s (s.ctxOf (s.strand u)) (fun c => ctxPut c o.n (setcValue o s u)) hsome
  refine completes_of (.setc o) s u m _ _ body _ h (hx s) (fun _ => by rw [hee]; exact hb) (fun _ => by rw [hee]; exact contexts_body s _ u _ ⟨_, rfl⟩)
    fun t ht hh => ?_
  rw [if_neg ha] at ht
  subst ht
  refine ⟨(complete_creg_system _ (contextOf (.setc o) s u m) _ hh hn).trans ?_, fun c hne => ?_⟩
  · unfold State.creg
    by_cases h4 : o.n ∈ [0x40, 0x41, 0x43, 0x44]
    · have hput := (hctx (s.ctxOf (s.strand u))).trans (if_pos rfl)
      obtain ⟨v, hv⟩ := ctlRead_system_field h4 s (s.strand u)
      refine (ctlRead_ctxPut h4 hput).trans ?_
      unfold setcValue State.creg
      rw [hv]
      exact ctlMerge_field h4 v _ _
    · have hro : o.n ∉ [0, 1, 2, 3, 4, 5, 6, 7, 0x0A, 0x0E, 0x40, 0x41, 0x43, 0x44] := by
        simp only [List.mem_cons, List.not_mem_nil, or_false, not_or] at h4 ⊢
        omega
      refine Eq.trans (b := s.creg u o.n) ?_ (ctlMerge_readonly hro _ _ _).symm
      exact ctlRead_system s _ (s.strand u) _ o.n hn h4 rfl rfl rfl
  · have hcontexts := (complete_beside _ (contextOf (.setc o) s u m) (Instr.setc o).uses hh).contexts
    exact (congrArg (fun cs => sget ({} : Context) cs c) hcontexts).trans ((hctx c).trans (if_neg hne))

/-- WORLD is written on the security core alone (R362; log entry 8). -/
theorem setc_world (h : Ready (.setc o) s u m) (ha : acting (.setc o) s u m ≠ []) (hc : (s.strand u).clean) (hn : o.n = 0x40) (hsec : (s.strand u).onSec = false) :
    Traps (.setc o) s u m false 0x04 2 ((s.strand u).laneMask (maskBits m)) 0 := by
  obtain ⟨body, hx, hb⟩ := setc_body (o := o) (m := m) hc
  refine trap_of (.setc o) s u m body { cause := 0x04, sub := 2 } h (hx s) ha ?_ rfl rfl (by decide) (by decide) (by decide)
  rw [startOf_entered (.setc o) s u m (setc_no_boundary (.inl rfl))]
  exact hb.trans (if_pos ⟨hn, by simp [hsec]⟩)

end

/-- Settles O27: GETC by `getc_result`; SETC by `setc_strand`, `setc_context` and `setc_world`, its value by bits as `ctlMerge_bits` says. That LANES
of the trap are the fragment's is log entry 19, that the security core's strand writes WORLD is log entry 8. -/
theorem controlRegisters : Obligations.ControlRegisters := by
  unfold Obligations.ControlRegisters
  refine ⟨fun o s u m h => getc_result o h, fun o s u m h ha hc => ?_⟩
  intro st mask old merged writable undefined written
  obtain ⟨-, h4, ha', he⟩ := h.setcNumber
  have hwritten (t : State) (ht : t.creg u o.n = setcValue o s u) (k : Nat) (hk : k < 64) :
      (t.creg u o.n).getLsbD k = if writable k && !undefined k then merged.getLsbD k else old.getLsbD k := by
    rw [ht]
    exact ctlMerge_bits o.n old (st.readS o.b 2).d mask h4 ha' he k hk
  refine ⟨fun hn => setc_strand h ha hc hn fun t ht h0 => hwritten t (ht h0), fun hn hsec hsome => ?_, setc_world h ha hc⟩
  obtain ⟨t, hx, ⟨hv, hrest⟩, hleaves⟩ := setc_context h ha hc hn hsec hsome
  exact ⟨t, hx, ⟨fun _ => hwritten t hv, hrest⟩, hleaves⟩

end Sys2Proof.Machine
end

section
/-!
Accesses that are refused (O23).
-/

namespace Sys2Proof.Machine

/-! ### The checks of R180 -/

theorem badAddr_some {xs : List Ea} {n c : Nat} {x : Ea} (h : badAddr xs n = some (c, x)) :
    x ∈ xs ∧ ((c = 0x23 ∧ 2 ^ 56 ≤ x.va) ∨ (c = 0x24 ∧ x.va % n ≠ 0 ∧ ∀ y ∈ xs, y.va < 2 ^ 56)) := by
  unfold badAddr at h
  split at h
  · next y hy =>
    obtain ⟨rfl, rfl⟩ := Prod.mk.inj (Option.some.inj h)
    exact ⟨List.mem_of_find?_eq_some hy, .inl ⟨rfl, by simpa using List.find?_some hy⟩⟩
  · next hcanon =>
    obtain ⟨y, hy, hyx⟩ := Option.map_eq_some_iff.1 h
    obtain ⟨rfl, rfl⟩ := Prod.mk.inj hyx
    have hmis := List.find?_some hy
    refine ⟨List.mem_of_find?_eq_some hy, .inr ⟨rfl, by simpa using hmis, fun z hz => ?_⟩⟩
    simpa using List.find?_eq_none.1 hcanon z hz

theorem withAddrs_bad {xs : List Ea} {n c : Nat} {x : Ea} (h : badAddr xs n = some (c, x)) (uniform : Bool) (s : State) (k : State → Eff) :
    withAddrs xs n uniform s k = addrTrap c x.va x.lane none x.base x.idx uniform s := by
  unfold withAddrs
  rw [h]

theorem withHits_bad {fs : List (Ea × Fate)} {x : Ea} {f : XFault} (h : fs.find? (fun y => !y.2.isHit) = some (x, .bad f)) (sub : Nat) (s : State)
    (absent : List Nat → State → Eff) (k : State → Eff) : withHits fs sub s absent k = permTrap f sub x.va s := by
  unfold withHits
  rw [h]

theorem XFault.trap_lt (f : XFault) : (f.trap 0).1 < 256 ∧ (f.trap 0).2 < 65536 := by
  cases f <;> decide

/-! ### Loads and stores check before they translate -/

/-- A load that is no probe checks its addresses, then translates them. -/
theorem load_translates (o : MemOp) (uniform : Bool) (cx : Cx) (s : State) (hcq : (s.strand cx.u).cq = []) (hp : isProbe o uniform = false) :
    ∃ k : List (Ea × Fate) → State → Eff, load o uniform cx s =
      withAddrs (memAddrs (s.strand cx.u) cx o uniform) (2 ^ o.size) uniform s fun s' =>
        withHits (fates s' cx.u uniform .load (2 ^ o.size) (memAddrs (s.strand cx.u) cx o uniform)).1 0
          (fates s' cx.u uniform .load (2 ^ o.size) (memAddrs (s.strand cx.u) cx o uniform)).2 (loadFault cx)
          (k (fates s' cx.u uniform .load (2 ^ o.size) (memAddrs (s.strand cx.u) cx o uniform)).1) := by
  refine ⟨fun fs s' => ?_, ?_⟩
  · exact if anyHeld s' cx.u (memAddrs (s.strand cx.u) cx o uniform) (2 ^ o.size) then .wait .scoreboard s' else
      .done (putLoads (loadLanes cx o uniform fs s').2 cx o uniform (loadLanes cx o uniform fs s').1) ((loadLanes cx o uniform fs s').1.any (·.poison))
  · unfold load
    dsimp only
    rw [afterSc_idle s cx o _ hcq, hp]
    rfl

/-- The instructions of the statement. -/
def Accesses (i : Instr) (o : MemOp) (uniform : Bool) : Prop :=
  (i = .ld o ∧ uniform = false ∧ isProbe o false = false) ∨ (i = .sld o ∧ uniform = true ∧ isProbe o true = false) ∨
    (i = .st o ∧ uniform = false) ∨ (i = .sst o ∧ uniform = true)

section
variable {i : Instr} {o : MemOp} {uniform : Bool} {s : State} {u : Nat} {m : BitVec 32}

/-- Each of them checks its addresses before anything else. -/
theorem Accesses.checks (hi : Accesses i o uniform) (h : Ready i s u m) (ho : (s.strand u).owesNothing) :
    ∃ body, exec i s = issue i s body ∧ ∃ k, body (contextOf i s u m) (entered i s u m) =
      withAddrs (accesses i o uniform s u m) (2 ^ o.size) uniform (entered i s u m) k := by
  obtain ⟨-, -, hcq, -, -⟩ := h.owesNothing ho
  rw [← accesses_entered i o uniform s u m h]
  obtain ⟨rfl, rfl, hp⟩ | ⟨rfl, rfl, hp⟩ | ⟨rfl, rfl⟩ | ⟨rfl, rfl⟩ := hi
  · obtain ⟨k, hk⟩ := load_translates o false (contextOf (.ld o) s u m) _ hcq hp
    exact ⟨_, rfl, _, hk⟩
  · obtain ⟨k, hk⟩ := load_translates o true (contextOf (.sld o) s u m) _ hcq hp
    exact ⟨_, rfl, _, hk⟩
  · exact ⟨_, rfl, store_addrs o _ _⟩
  · exact ⟨_, rfl, storeUniform_addrs o _ _⟩

/-- A failing check traps with a birth (R106). -/
theorem Accesses.address_traps (hi : Accesses i o uniform) (h : Ready i s u m) (ha : acting i s u m ≠ []) (ho : (s.strand u).owesNothing) {c : Nat} {x : Ea}
    (hbad : badAddr (accesses i o uniform s u m) (2 ^ o.size) = some (c, x)) : Traps i s u m true c 0 ((s.strand u).laneMask (maskBits m)) x.va := by
  obtain ⟨body, hx, k, hb⟩ := hi.checks h ho
  obtain ⟨hmem, hcause⟩ := badAddr_some hbad
  refine trap_of i s u m body _ h hx ha (hb.trans (withAddrs_bad hbad _ _ _)) rfl rfl ?_ (by show 0 < 65536; decide) (accesses_va i o uniform s u m x hmem)
  show c < 256
  omega

/-- A load whose first missing access is refused (R284; log entry 20). -/
theorem load_refused (hi : Accesses i o uniform) (hload : i = .ld o ∨ i = .sld o) (h : Ready i s u m) (ha : acting i s u m ≠ []) (ho : (s.strand u).owesNothing)
    {fs : List (Ea × Fate)} {base : State} {x : Ea} {f : XFault} (hgood : badAddr (accesses i o uniform s u m) (2 ^ o.size) = none)
    (hfates : fates (entered i s u m) u uniform .load (2 ^ o.size) (accesses i o uniform s u m) = (fs, base))
    (hfind : fs.find? (fun y => !y.2.isHit) = some (x, .bad f)) :
    TrapsFrom base i s u m false (f.trap 0).1 (f.trap 0).2 ((s.strand u).laneMask (maskBits m)) x.va := by
  have hp : isProbe o uniform = false := by
    obtain ⟨-, rfl, hp⟩ | ⟨-, rfl, hp⟩ | ⟨rfl, -⟩ | ⟨rfl, -⟩ := hi
    · exact hp
    · exact hp
    all_goals obtain hc | hc := hload <;> cases hc
  have hx : exec i s = issue i s (load o uniform) := by
    obtain ⟨rfl, rfl, -⟩ | ⟨rfl, rfl, -⟩ | ⟨rfl, -⟩ | ⟨rfl, -⟩ := hi
    · rfl
    · rfl
    all_goals obtain hc | hc := hload <;> cases hc
  obtain ⟨-, -, hcq, -, -⟩ := h.owesNothing ho
  obtain ⟨k, hk⟩ := load_translates o uniform (contextOf i s u m) (entered i s u m) hcq hp
  rw [contextOf_u, accesses_entered i o uniform s u m h] at hk
  have hb : load o uniform (contextOf i s u m) (entered i s u m) = permTrap f 0 x.va base := by
    refine (hk.trans (withAddrs_good _ _ _ _ _ hgood)).trans ?_
    rw [hfates]
    exact withHits_bad hfind 0 base _ _
  obtain ⟨mem, cores, hbase⟩ : Near (entered i s u m) base := by
    have hn := fates_near (entered i s u m) u uniform .load (2 ^ o.size) (accesses i o uniform s u m)
    rwa [hfates] at hn
  have hmem : x ∈ accesses i o uniform s u m := by
    refine fates_mem (entered i s u m) u uniform .load (2 ^ o.size) _ (x, .bad f) ?_
    rw [hfates]
    exact List.mem_of_find?_eq_some hfind
  obtain ⟨hcause, hsub⟩ := f.trap_lt
  refine trap_from base i s u m (load o uniform) _ h hx ha ?_ ?_ hb rfl rfl hcause hsub (accesses_va i o uniform s u m x hmem)
  · rw [hbase]
    exact h.has
  · rw [hbase]
    rfl

end

/-- Settles O23: the failing check is the first one (`badAddr_some`) and traps before anything is translated (`Accesses.address_traps`); a load that
translation refuses traps as `load_refused` says. That LANES is every lane of the fragment is log entry 19, that the lowest missing access decides is log
entry 20. -/
theorem refusedAccessesTrap : Obligations.RefusedAccessesTrap := by
  unfold Obligations.RefusedAccessesTrap
  intro i o uniform s u m hi h ha ho
  replace hi : Accesses i o uniform := hi
  refine ⟨fun c x hbad => ?_, fun fs base x f hload hgood hfates hfind => load_refused hi hload h ha ho hgood hfates hfind⟩
  obtain ⟨hmem, hcause⟩ := badAddr_some hbad
  exact ⟨hmem, hcause, hi.address_traps h ha ho hbad⟩

end Sys2Proof.Machine
end

section
/-!
ATOM, RED and CAS (O26).
-/

namespace Sys2Proof.Machine

/-! ### What a lane writes (R190, R191) -/

theorem atomNew_smin (w old c : Nat) (hw : 0 < w) : atomNew 1 w old c = if (BitVec.ofNat w c).slt (BitVec.ofNat w old) then c else old := by
  rw [slt_signedOf w c old hw]
  rfl

theorem atomNew_smax (w old c : Nat) (hw : 0 < w) : atomNew 2 w old c = if (BitVec.ofNat w c).slt (BitVec.ofNat w old) then old else c := by
  rw [slt_signedOf w c old hw]
  rfl

theorem AtomOp.size_of_faults {o : AtomOp} {red cas : Bool} (h : o.faults red cas = []) : 4 ≤ 2 ^ o.size := by
  have hsize : (o.size == 2 || o.size == 3) = true := by
    simp only [AtomOp.faults, need, List.append_eq_nil_iff] at h
    grind
  obtain hs | hs : o.size = 2 ∨ o.size = 3 := by simpa using hsize
  all_goals rw [hs]; decide

/-! ### The accesses of a vector instruction -/

/-- The access of one thread (R180). -/
def laneAddr (st : Strand) (a b sc : Nat) (disp : BitVec 16) (j : Nat) : Ea :=
  { thread := j, lane := (st.thread j).lane, va := addrOf (st.readS b 2).d ((st.thread j).readV a 1).w sc disp, base := (st.readS b 2).tag,
    idx := ((st.thread j).readV a 1).tag, poison := (st.readS b 2).poison || ((st.thread j).readV a 1).poison }

theorem vecAddrs_eq (st : Strand) (cx : Cx) (a b sc : Nat) (disp : BitVec 16) : vecAddrs st cx a b sc disp = cx.act.map (laneAddr st a b sc disp) := rfl

theorem vecAddrs_entered {i : Instr} {s : State} {u : Nat} {m : BitVec 32} (h : Ready i s u m) (a b sc : Nat) (disp : BitVec 16) :
    vecAddrs ((entered i s u m).strand u) (contextOf i s u m) a b sc disp = vecAddrs (s.strand u) (contextOf i s u m) a b sc disp :=
  accesses_entered i { (default : MemOp) with a := a, b := b, sc := sc, disp := disp } false s u m h

theorem laneAddr_clean {st : Strand} (h : st.clean = true) (a b sc : Nat) (disp : BitVec 16) (j : Nat) : (laneAddr st a b sc disp j).poison = false := by
  simp [laneAddr, readS_clean _ h, readV_clean _ h]

/-! ### The atomics of a fragment -/

/-- One of the three instructions, with its targets found and writable. -/
structure AtomReady (i : Instr) (k : AtomKind) (o : AtomOp) (s base : State) (u : Nat) (m : BitVec 32) (loc leaf : Nat → Nat) : Prop where
  kind : (i = .atom o ∧ k = .atom) ∨ (i = .red o ∧ k = .red) ∨ (i = .cas o ∧ k = .cas)
  ready : Ready i s u m
  clean : (s.strand u).clean = true
  released : Released base u
  finds : Finds i s u m false .atomic (2 ^ o.size) (vecAddrs (s.strand u) (contextOf i s u m) o.a o.b o.sc o.disp) base loc leaf
  writable : Writable base u (acting i s u m) (2 ^ o.size) loc leaf

section
variable {i : Instr} {k : AtomKind} {o : AtomOp} {s base : State} {u : Nat} {m : BitVec 32} {loc leaf : Nat → Nat}

theorem AtomReady.means (h : AtomReady i k o s base u m loc leaf) : exec i s = issue i s (atomic k o) := by
  obtain ⟨rfl, rfl⟩ | ⟨rfl, rfl⟩ | ⟨rfl, rfl⟩ := h.kind <;> rfl

theorem AtomReady.wide (h : AtomReady i k o s base u m loc leaf) : 4 ≤ 2 ^ o.size := by
  obtain ⟨hf, -⟩ := List.append_eq_nil_iff.1 h.ready.wf
  obtain ⟨rfl, -⟩ | ⟨rfl, -⟩ | ⟨rfl, -⟩ := h.kind
  all_goals exact AtomOp.size_of_faults hf

/-- The destination is no queue. -/
theorem AtomReady.dest (h : AtomReady i k o s base u m loc leaf) (hk : k ≠ .red) : o.d < 248 := by
  refine use_plain i s u m h.ready (useN .v o.d (sizeWords (o.raw.x % 8)) false true 0) ?_ rfl rfl
  obtain ⟨rfl, -⟩ | ⟨-, hred⟩ | ⟨rfl, -⟩ := h.kind
  · exact List.mem_cons_self
  · exact absurd hred hk
  · exact List.mem_cons_self

theorem AtomReady.strand (h : AtomReady i k o s base u m loc leaf) : base.strand u = (entered i s u m).strand u := by
  obtain ⟨mem, cores, hb⟩ := h.finds.near
  rw [hb]
  rfl

theorem AtomReady.has (h : AtomReady i k o s base u m loc leaf) : base.has u := by
  obtain ⟨mem, cores, hb⟩ := h.finds.near
  rw [hb]
  exact h.ready.has

/-- The operands of a lane are as before the instruction, and clean. -/
theorem AtomReady.operand (h : AtomReady i k o s base u m loc leaf) (j : Nat) :
    atomOperand k o ((base.strand u).thread j) = atomOperand k o ((s.strand u).thread j) ∧ (atomOperand k o ((s.strand u).thread j)).2.2.2 = false := by
  refine ⟨atomOperand_v k o _ _ (by rw [h.strand]; exact h.ready.agree.v j), ?_⟩
  unfold atomOperand
  cases k <;> simp [readV_clean _ h.clean]

/-- The lanes' atomics in the order of the acting threads. -/
def atomRun (i : Instr) (k : AtomKind) (o : AtomOp) (s base : State) (u : Nat) (m : BitVec 32) (loc leaf : Nat → Nat) : State × Bool :=
  (acting i s u m).foldl (fun r j =>
    let q := atomLane k o (contextOf i s u m) (laneAddr (s.strand u) o.a o.b o.sc o.disp j) (.hit (.loc (loc j)) (leaf j)) r.1
    (q.1, r.2 || q.2)) (base, false)

/-- Nothing holds the targets back. -/
theorem AtomReady.all (h : AtomReady i k o s base u m loc leaf) :
    atomAll k o (contextOf i s u m) ((vecAddrs (s.strand u) (contextOf i s u m) o.a o.b o.sc o.disp).map fun x => (x, Fate.hit (.loc (loc x.thread)) (leaf x.thread))) base =
      .done (atomRun i k o s base u m loc leaf).1 (atomRun i k o s base u m loc leaf).2 := by
  obtain ⟨-, hheld, -⟩ := h.finds
  obtain ⟨-, -, -, hlines, hbobbin⟩ := h.writable
  have hfst : ((vecAddrs (s.strand u) (contextOf i s u m) o.a o.b o.sc o.disp).map fun x => (x, Fate.hit (.loc (loc x.thread)) (leaf x.thread))).map (·.1) =
      vecAddrs (s.strand u) (contextOf i s u m) o.a o.b o.sc o.disp := List.map_map.trans (List.map_id _)
  have hsnd : ((vecAddrs (s.strand u) (contextOf i s u m) o.a o.b o.sc o.disp).map fun x => (x, Fate.hit (.loc (loc x.thread)) (leaf x.thread))).map (·.2) =
      (acting i s u m).map fun j => Fate.hit (.loc (loc j)) (leaf j) := by
    rw [vecAddrs_eq]
    simp [laneAddr, Function.comp_def]
  unfold atomAll hostFree
  rw [hfst, hsnd, contextOf_u, hheld, hbobbin, localOf_hits, List.map_map, show heldLines base ((acting i s u m).map ((fun l : Nat × Nat => (l.1, List.replicate l.2 0, 0)) ∘
    fun j => (loc j, 2 ^ o.size))) = [] from hlines, vecAddrs_eq, List.map_map]
  dsimp only
  rw [List.foldl_map]
  rfl

theorem AtomReady.body (h : AtomReady i k o s base u m loc leaf) :
    atomic k o (contextOf i s u m) (entered i s u m) = .done (atomRun i k o s base u m loc leaf).1 (atomRun i k o s base u m loc leaf).2 := by
  obtain ⟨hgood, -, hfates⟩ := h.finds
  obtain ⟨hcq, hun, -⟩ := id h.released
  unfold atomic
  dsimp only
  rw [contextOf_u, vecAddrs_entered h.ready]
  refine (withAddrs_good _ _ _ _ _ hgood).trans ?_
  rw [hfates]
  refine (withHits_all _ loc leaf 2 base _ _).trans (Eq.trans ?_ h.all)
  split
  · exact release_idle base u _ _ _ _ h.released
  · exact afterStores_idle base u _ _ hcq hun

/-- The read-modify-writes in lane order (R191), with what the threads find; `new` is what each writes. -/
theorem AtomReady.completes (h : AtomReady i k o s base u m loc leaf) (ha : acting i s u m ≠ []) {new : Nat → Nat → Option Nat}
    (hnew : ∀ j ∈ acting i s u m, (atomOperand k o ((s.strand u).thread j)).2.2.1 = new j) {w : Touch}
    (hmem : ∀ j ∈ acting i s u m, ∀ y, 32 * (loc j / 32) ≤ y → y < 32 * ((loc j + 2 ^ o.size + 31) / 32) → w.mem y = true)
    (hv : k ≠ .red → ∀ j ∈ acting i s u m, ∀ c, o.d ≤ c → c < o.d + 2 ^ o.size / 4 → w.v j c = true) :
    let r := atomically (2 ^ o.size) new ((acting i s u m).map fun j => (j, loc j)) base.mem
    CompletesFrom base i s u m w fun t =>
      t.mem = r.2 ∧ (∀ l, (∀ j ∈ acting i s u m, ¬(loc j ≤ l ∧ l < loc j + 2 ^ o.size)) → t.byteAt l = base.byteAt l) ∧
        (k ≠ .red → ∀ e ∈ r.1, ∀ c, c < 2 ^ o.size / 4 → o.d + c ≠ 0 → (t.vreg u e.1 (o.d + c)).val = (wordsOfNat (2 ^ o.size / 4) e.2).getD c 0) := by
  intro r
  obtain ⟨hraw, hclean, hbusy, -⟩ := h.writable
  obtain ⟨hpoison, hm, hB, -, hregs⟩ := atomFold k o (contextOf i s u m) w (laneAddr (s.strand u) o.a o.b o.sc o.disp) loc leaf new (fun _ => rfl) h.wide h.dest
    (acting i s u m) (acting_nodup i s u m) base h.has hraw hbusy hclean (fun j _ => laneAddr_clean h.clean _ _ _ _ j)
    (fun j hj => by rw [contextOf_u, (h.operand j).1]; exact ⟨hnew j hj, (h.operand j).2⟩)
    (fun j hj => by rw [contextOf_u, h.strand, h.ready.agree.len]; exact (acting_lt i s u m j hj).1) hmem hv
  have hb : atomic k o (contextOf i s u m) (entered i s u m) = .ok (atomRun i k o s base u m loc leaf).1 :=
    h.body.trans (congrArg (Eff.done _) hpoison)
  have hdone := complete_kept _ (contextOf i s u m) i.uses (hB.has h.has)
  have hmemory := ((complete_beside _ (contextOf i s u m) i.uses (hB.has h.has)).mem).trans hm
  refine completes_from i s u m base w _ (atomic k o) _ h.ready h.means ha hb h.strand hB h.has ⟨hmemory, fun l hl => ?_, fun hk e he c hc h0 => ?_⟩
  · refine (congrArg (Memory.byte · l) hmemory).trans (atomically_else _ _ _ _ _ fun e he => ?_)
    obtain ⟨j, hj, rfl⟩ := List.mem_map.1 he
    exact hl j hj
  · exact (congrArg TWord.val (hdone.vregs e.1 (o.d + c) rfl)).trans (hregs hk e he c hc h0)

end

/-- Settles O26: `AtomReady.completes`, a fold of the lanes' steps (`atomFold`), with the operations that compare signed values by `atomNew_smin` and
`atomNew_smax`. -/
theorem atomicsReadModifyWrite : Obligations.AtomicsReadModifyWrite := by
  unfold Obligations.AtomicsReadModifyWrite
  intro i k o s base u m loc leaf hkind h ha hclean _ hrel st n c swap less new act hfinds hwritable
  have hr : AtomReady i k o s base u m loc leaf := ⟨hkind, h, hclean, hrel, hfinds, hwritable⟩
  have hpos : 0 < 8 * n := by positivity
  refine hr.completes ha (new := new) (fun j _ => funext fun old => ?_) (fun j hj y h1 h2 => ?_) (fun hk j hj d h1 h2 => ?_)
  · cases k
    case cas => rfl
    all_goals
      change some (atomNew o.op (8 * n) old (c j).val) = some _
      generalize o.op = op
      match op with
      | 1 => exact congrArg some (atomNew_smin _ _ _ hpos)
      | 2 => exact congrArg some (atomNew_smax _ _ _ hpos)
      | 0 | 3 | 4 | 5 | 6 | 7 | 8 | 9 | 10 | _ + 11 => rfl
  · exact List.any_eq_true.2 ⟨j, hj, decide_eq_true ⟨h1, h2⟩⟩
  · have hd := hr.dest hk
    simp [hk, Touch.vec, hd, hj, h1, h2, n]

end Sys2Proof.Machine
end

section
/-!
The matrix engine's checks, and the operations that enter it (O50).
-/

namespace Sys2Proof.Machine

/-! ### The checks before an operation enters (R391) -/

/-- A matrix instruction that owes no report and whose operands are not poisoned (R223, R347). -/
structure MatrixReady (i : Instr) (s : State) (u : Nat) (m : BitVec 32) : Prop where
  ready : Ready i s u m
  acts : acting i s u m ≠ []
  clean : (s.strand u).clean
  noFaults : (s.strand u).mtFaults = []
  noPoison : (s.strand u).poisonDue = false

/-- A tile, given as its number, rows, width and the position of its field, runs past the strand's allocation (R33). -/
def badTile (st : Strand) (t : Nat × Nat × Nat × Nat) : Bool := tileBad st t.1 t.2.1 t.2.2.1

theorem engineRoom_free {s : State} {u : Nat} (h : (s.strand u).mops.length < 4) (k : State → Eff) : engineRoom s u k = k s :=
  if_neg (Nat.not_le.2 h)

/-- What a stationary unit of a strand's skein holds (R234). -/
def unitInfo (s : State) (st : Strand) (n : Nat) : UnitInfo := sget {} (((sfind s.skeins st.skein).map Skein.units).getD []) n

/-- Units that are written and whole are not waited for, and none traps (R234, R235). -/
theorem unitsReady_whole {s : State} {cx : Cx} {us : List Nat}
    (h : ∀ n ∈ us, (unitInfo s (s.strand cx.u) n).pending = 0 ∧ (unitInfo s (s.strand cx.u) n).err = none) (k : State → Eff) : unitsReady s cx us k = k s := by
  have hpending : us.any (fun n => (unitInfo s (s.strand cx.u) n).pending != 0) = false := List.any_eq_false.2 fun n hn => by simp [(h n hn).1]
  have herr : us.findSome? (fun n => (unitInfo s (s.strand cx.u) n).err) = none := List.findSome?_eq_none_iff.2 fun n hn => (h n hn).2
  unfold unitsReady
  unfold unitInfo at hpending herr
  dsimp only
  rw [hpending, herr]
  rfl

/-- The eight words of a descriptor (R210). -/
def descWords (st : Strand) (g : Nat) : List Word := (upFrom g 8).map fun r => (st.readS r 1).w

/-- Descriptors that pass their checks, with units written and whole and room in the engine, let the instruction go on. -/
theorem descsReady_good {s : State} {cx : Cx} {syn dest : Nat} {args : List DescArg} {bitmap : Option Opd}
    (hdescs : descsFault (s.strand cx.u) syn dest (winOf s (s.strand cx.u)) args = none) (hbitmap : ∀ b ∈ bitmap, b.val < 2 ^ 56)
    (hunits : ∀ a ∈ args, ∀ n ∈ unitsTouched (descOf (readDesc (s.strand cx.u) a.g).1) a.rows a.cols,
      (unitInfo s (s.strand cx.u) n).pending = 0 ∧ (unitInfo s (s.strand cx.u) n).err = none)
    (hroom : (s.strand cx.u).mops.length < 4) (k : State → Eff) : descsReady s cx syn dest args bitmap none k = k s := by
  have hnone : bitmap.filter (fun b => decide (2 ^ 56 ≤ b.val)) = none :=
    Option.filter_eq_none_iff.2 fun b hmem => by simpa using hbitmap b hmem
  unfold descsReady
  dsimp only
  rw [hdescs, hnone]
  refine (unitsReady_whole (fun n hn => ?_) _).trans (engineRoom_free hroom k)
  obtain ⟨a, ha, hna⟩ := List.mem_flatMap.1 (List.mem_dedup.1 ((sortBy_mem _ _ _).1 hn))
  exact hunits a ha n hna

/-! ### An operation enters -/

/-- An operation with another limit of attempts at a row-block (R351). -/
def MOp.withLimit (p : MOp) (n : Nat) : MOp := { p with limit := n }

@[simp] theorem MOp.withLimit_counts (p : MOp) (n t : Nat) : (p.withLimit n).counts t = p.counts t := rfl
@[simp] theorem MOp.withLimit_memRanges (p : MOp) (n : Nat) : (p.withLimit n).memRanges = p.memRanges := rfl

/-- The operation `p` enters the engine: the strand's newest, with RPROG of its tiles at 0 and its memory ranges in the scoreboard (R215, R221). -/
def Enters (i : Instr) (s : State) (u : Nat) (m : BitVec 32) (p : MOp) : Prop :=
  Completes i s u m {} fun t => ∃ id lim, (t.strand u).mops = (s.strand u).mops ++ [{ p with id := id, limit := lim }] ∧
    (t.core (s.strand u).core).score = (s.core (s.strand u).core).score ++ p.memRanges.map (fun r => (id, s.ctxOf (s.strand u), r.1, r.2)) ∧
    ∀ k, k < (s.strand u).rprog.length → (t.strand u).rprog.getD k 0 = if p.counts k then 0 else (s.strand u).rprog.getD k 0

theorem moved_matrix {a b : Strand} (h : Moved a b) : b.mops = a.mops ∧ b.rprog = a.rprog ∧ b.latch = a.latch := by
  obtain ⟨T, R, B, Q, V, W, C, q, rfl⟩ := h
  exact ⟨rfl, rfl, rfl⟩

theorem Agree.f8sat {a b : Strand} (h : Agree a b) : b.f8sat = a.f8sat := by
  unfold Strand.f8sat
  rw [h.fctl]

theorem Ready.ctxOf {i : Instr} {s : State} {u : Nat} {m : BitVec 32} (h : Ready i s u m) :
    (entered i s u m).ctxOf ((entered i s u m).strand u) = s.ctxOf (s.strand u) :=
  ctxOf_congr h.quiet.beside.launches h.agree.launch

section
variable {i : Instr} {s : State} {u : Nat} {m : BitVec 32} {body : Cx → State → Eff}

theorem MatrixReady.pre (h : MatrixReady i s u m) (k : State → Eff) : matrixPre (contextOf i s u m) (entered i s u m) k = k (entered i s u m) := by
  obtain ⟨-, -, -, -, hfaults, hpoison, -⟩ := entered_tiles i s u m h.ready
  exact matrixPre_idle _ _ k (hfaults.trans h.noFaults) (hpoison.trans h.noPoison)

/-- How often a row-block may fail before it is written as NaN (R351), as the operation of an instruction takes it from RCTL. -/
def opLimit (i : Instr) (s : State) (u : Nat) (m : BitVec 32) : Nat :=
  if ((entered i s u m).strand u).limit = 0 then 8 else ((entered i s u m).strand u).limit

theorem Ready.newOp (h : Ready i s u m) (kind : MKind) : Machine.newOp i (contextOf i s u m) ((entered i s u m).strand u) kind =
    (Machine.newOp i (contextOf i s u m) (s.strand u) kind).withLimit (opLimit i s u m) := newOp_agree h.agree i _ kind

theorem Ready.tileBase (h : Ready i s u m) (t : Nat) : Machine.tileBase ((entered i s u m).strand u) t = Machine.tileBase (s.strand u) t := by
  obtain ⟨haccn, -⟩ := entered_tiles i s u m h
  unfold Machine.tileBase
  rw [haccn]

theorem Ready.readDesc (h : Ready i s u m) (hc : (s.strand u).clean) (g : Nat) :
    Machine.readDesc ((entered i s u m).strand u) g = (descWords (s.strand u) g, false) := by
  refine Eq.trans ?_ (readDesc_clean (s.strand u) g hc)
  unfold Machine.readDesc
  simp only [h.agree.readS]

/-- The descriptors pass the checks of R213, and the stationary units that they touch are written and whole. -/
def DescsGood (s : State) (u syn dest : Nat) (args : List DescArg) : Prop :=
  descsFault (s.strand u) syn dest (winOf s (s.strand u)) args = none ∧ ∀ a ∈ args, ∀ n ∈ unitsTouched (descOf (descWords (s.strand u) a.g)) a.rows a.cols,
    (unitInfo s (s.strand u) n).pending = 0 ∧ (unitInfo s (s.strand u) n).err = none

theorem MatrixReady.descsReady (h : MatrixReady i s u m) {syn dest : Nat} {args : List DescArg} (hg : DescsGood s u syn dest args)
    (hroom : (s.strand u).mops.length < 4) {bitmap : Option Opd} (hb : ∀ b ∈ bitmap, b.val < 2 ^ 56) (k : State → Eff) :
    Machine.descsReady (entered i s u m) (contextOf i s u m) syn dest args bitmap none k = k (entered i s u m) := by
  obtain ⟨hdescs, hunits⟩ := hg
  obtain ⟨haccn, hmops, -⟩ := entered_tiles i s u m h.ready
  obtain ⟨hskein, -⟩ := h.ready.agree.ids
  have hskeins := h.ready.quiet.beside.skeins
  refine descsReady_good ?_ hb (fun a ha n hn => ?_) (hmops ▸ hroom) k
  · rw [contextOf_u, descsFault_congr h.ready.agree.s haccn, winOf, hskeins, hskein]
    exact hdescs
  · rw [contextOf_u, h.ready.readDesc h.clean] at hn
    rw [contextOf_u, unitInfo, hskeins, hskein]
    exact hunits a ha n hn

theorem MatrixReady.enters (h : MatrixReady i s u m) (hx : exec i s = issue i s body) {p : MOp}
    (hb : body (contextOf i s u m) (entered i s u m) = .ok (startMop (entered i s u m) u (p.withLimit (opLimit i s u m)))) : Enters i s u m p := by
  obtain ⟨-, hmops, hrprog, -⟩ := entered_tiles i s u m h.ready
  obtain ⟨hB, hst, hscore⟩ := startMop_spec (entered i s u m) u (p.withLimit (opLimit i s u m)) {} h.ready.has
  refine completes_of i s u m {} _ body _ h.ready hx (fun _ => hb) (fun _ => hB) fun t ht hh => ?_
  rw [if_neg h.acts] at ht
  subst ht
  obtain ⟨hm, hr, -⟩ := moved_matrix (complete_moved _ (contextOf i s u m) i.uses false 0 hh)
  rw [contextOf_u, hst] at hm hr
  rw [h.ready.strandCore, h.ready.core, h.ready.ctxOf] at hscore
  refine ⟨_, _, hm.trans (congrArg (· ++ _) hmops), (congrArg Core.score (complete_core _ (contextOf i s u m) _ hh _)).trans hscore, fun k hk => ?_⟩
  rw [hr, ← hrprog] at *
  show (((entered i s u m).strand u).rprog.mapIdx fun k x => if p.counts k then 0 else x).getD k 0 = _
  simp [List.getD_eq_getElem?_getD, hk]

/-- The check of the tiles (R33): the first that runs past the allocation is ILL_FIELD at its field's position; without one the
operation that follows enters. -/
theorem MatrixReady.tiles (h : MatrixReady i s u m) (hx : exec i s = issue i s body) {ts : List (Nat × Nat × Nat × Nat)} {k : State → Eff}
    (hb : body (contextOf i s u m) (entered i s u m) = tilesOk ((entered i s u m).strand u) ts (entered i s u m) k) :
    (∀ t rows width pos, ts.find? (badTile (s.strand u)) = some (t, rows, width, pos) → pos < 65536 →
      Traps i s u m false 0x02 pos ((s.strand u).laneMask (maskBits m)) 0) ∧
    (∀ p, ts.find? (badTile (s.strand u)) = none → k (entered i s u m) = .ok (startMop (entered i s u m) u (p.withLimit (opLimit i s u m))) → Enters i s u m p) := by
  obtain ⟨haccn, -⟩ := entered_tiles i s u m h.ready
  have hbad : badTile ((entered i s u m).strand u) = badTile (s.strand u) := funext fun t => tileBad_congr haccn _ _ _
  have hb' : body (contextOf i s u m) (entered i s u m) = match ts.find? (badTile (s.strand u)) with
      | some t => .trap { cause := 0x02, sub := t.2.2.2 } (entered i s u m)
      | none => k (entered i s u m) := by
    rw [hb, ← hbad]
    rfl
  refine ⟨fun t rows width pos ht hpos => ?_, fun p ht hk => ?_⟩ <;> rw [ht] at hb'
  · exact trap_of i s u m body { cause := 0x02, sub := pos } h.ready hx h.acts hb' rfl rfl (show 0x02 < 256 by decide) hpos (show 0 < 2 ^ 64 by decide)
  · exact h.enters hx (hb'.trans hk)

end

/-! ### ACCZ, ACCLD, ACCST, SMX -/

/-- A matrix operation of tile `t1`, of mb and nb as encoded, with what it takes from its issue. -/
def matOp (i : Instr) (s : State) (u : Nat) (m : BitVec 32) (kind : MKind) (t1 mb nb : Nat) : MOp :=
  { newOp i (contextOf i s u m) (s.strand u) kind with t1 := t1, m := 8 * (mb + 1), n := 8 * (nb + 1) }

section
variable {s : State} {u : Nat} {m : BitVec 32}

theorem accz_body {o : AcczOp} (h : MatrixReady (.accz o) s u m) : let i : Instr := .accz o
    ∃ body, exec i s = issue i s body ∧ ∃ k, body (contextOf i s u m) (entered i s u m) = tilesOk ((entered i s u m).strand u) [(o.t, 8 * (o.mb + 1), 8 * (o.nb + 1), o.h.form.at 20 10)] (entered i s u m) k ∧
      ((s.strand u).mops.length < 4 → k (entered i s u m) =
        .ok (startMop (entered i s u m) u (MOp.withLimit { matOp i s u m .accz o.t o.mb o.nb with side := o.side } (opLimit i s u m)))) := by
  obtain ⟨-, hmops, -⟩ := entered_tiles _ s u m h.ready
  refine ⟨_, rfl, ?_⟩
  simp only [h.pre, contextOf_u, h.ready.newOp]
  exact ⟨_, rfl, fun hroom => engineRoom_free (hmops ▸ hroom) _⟩

theorem accld_body {o : AccldOp} (h : MatrixReady (.accld o) s u m) : let i : Instr := .accld o
    ∃ body, exec i s = issue i s body ∧ ∃ k, body (contextOf i s u m) (entered i s u m) = tilesOk ((entered i s u m).strand u) [(o.d, 8 * (o.mb + 1), 8 * (o.nb + 1), 10)] (entered i s u m) k ∧
      ((s.strand u).mops.length < 4 → DescsGood s u 0 4 [⟨0, o.a, .load, 8 * (o.mb + 1), 8 * (o.nb + 1)⟩] → k (entered i s u m) =
        .ok (startMop (entered i s u m) u (MOp.withLimit { matOp i s u m .accld o.d o.mb o.nb with descs := [descWords (s.strand u) o.a] } (opLimit i s u m)))) := by
  refine ⟨_, rfl, ?_⟩
  simp only [h.pre, contextOf_u, h.ready.newOp, h.ready.readDesc h.clean]
  exact ⟨_, rfl, fun hroom hg => h.descsReady hg hroom (by simp) _⟩

theorem accst_body {o : AccstOp} (h : MatrixReady (.accst o) s u m) : let i : Instr := .accst o
    let p : MOp := { matOp i s u m .accst o.a o.mb o.nb with q := o.q, sat := o.sat, rm := (s.strand u).rmEff o.rm, f8sat := (s.strand u).f8sat }
    ∃ body, exec i s = issue i s body ∧ ∃ k, body (contextOf i s u m) (entered i s u m) = tilesOk ((entered i s u m).strand u) [(o.a, 8 * (o.mb + 1), 8 * (o.nb + 1), 18)] (entered i s u m) k ∧
      ((s.strand u).mops.length < 4 → o.q = true → k (entered i s u m) = .ok (startMop (entered i s u m) u (p.withLimit (opLimit i s u m)))) ∧
      ((s.strand u).mops.length < 4 → o.q = false → DescsGood s u 0 4 [⟨0, o.d, .store, 8 * (o.mb + 1), 8 * (o.nb + 1)⟩] → (s.strand u).rmEff o.rm ≠ 6 →
        k (entered i s u m) = .ok (startMop (entered i s u m) u (MOp.withLimit { p with descs := [descWords (s.strand u) o.d] } (opLimit i s u m)))) := by
  obtain ⟨-, hmops, -⟩ := entered_tiles _ s u m h.ready
  intro i p
  refine ⟨_, rfl, ?_⟩
  simp only [i, p, h.pre, contextOf_u, h.ready.newOp, h.ready.agree.rmEff, h.ready.agree.f8sat, h.ready.readDesc h.clean]
  cases hq : o.q with
  | true =>
    simp only [↓reduceIte]
    exact ⟨_, rfl, fun hroom _ => engineRoom_free (hmops ▸ hroom) _, fun _ hno => nomatch hno⟩
  | false =>
    simp only [Bool.false_eq_true, ↓reduceIte]
    refine ⟨_, rfl, fun _ hno => hno.elim, fun hroom _ hg hrm => ?_⟩
    simp only [hrm, ↓reduceIte]
    exact h.descsReady hg hroom (by simp) _

/-- Two tiles, given by number and elements, share none (R33). -/
def tilesApart (st : Strand) (a b : Nat × Nat) : Prop :=
  ¬(a.1 * st.accn / 4 < b.1 * st.accn / 4 + b.2 ∧ b.1 * st.accn / 4 < a.1 * st.accn / 4 + a.2)

theorem overlaps_apart {st : Strand} {a b : Nat × Nat} (h : tilesApart st a b) :
    overlaps [(tileBase st a.1, tileBase st a.1 + a.2)] [(tileBase st b.1, tileBase st b.1 + b.2)] = false := by
  unfold tilesApart at h
  simpa [overlaps, tileBase, not_and, Nat.not_lt] using h

theorem smx_body {o : SmxOp} (h : MatrixReady (.smx o) s u m) : let i : Instr := .smx o
    ∃ body, exec i s = issue i s body ∧ ∃ k, body (contextOf i s u m) (entered i s u m) = tilesOk ((entered i s u m).strand u)
        [(o.d, 8 * (o.mb + 1), 8 * (o.db + 1), 10), (o.a, 8 * (o.mb + 1), 8 * (o.nb + 1), 18)] (entered i s u m) k ∧
      ((s.strand u).mops.length < 4 → tilesApart (s.strand u) (o.d, 8 * (o.mb + 1) * (8 * (o.db + 1))) (o.a, 8 * (o.mb + 1) * (8 * (o.nb + 1))) →
        k (entered i s u m) =
          .ok (startMop (entered i s u m) u (MOp.withLimit { matOp i s u m .smx o.d o.mb o.nb with t2 := o.a, k := 8 * (o.db + 1) } (opLimit i s u m)))) := by
  obtain ⟨-, hmops, -⟩ := entered_tiles _ s u m h.ready
  refine ⟨_, rfl, ?_⟩
  simp only [h.pre, contextOf_u, h.ready.newOp, h.ready.tileBase]
  refine ⟨_, rfl, fun hroom hapart => ?_⟩
  simp only [overlaps_apart hapart, Bool.false_eq_true, ↓reduceIte]
  exact engineRoom_free (hmops ▸ hroom) _

/-! ### MMA, MMAS, MMD outside a crew -/

def productTiles (kind : MKind) (o : MmaOp) : List (Nat × Nat × Nat × Nat) :=
  if kind = .mmd then [(o.d, 8 * (o.mb + 1), 8 * (o.kb + 1), 10), (o.t2, 8 * (o.kb + 1), 8 * (o.nb + 1), 26)]
  else [(o.d, 8 * (o.mb + 1), 8 * (o.nb + 1), 10)]

def productArgs (kind : MKind) (o : MmaOp) : List DescArg :=
  if kind = .mmd then
    [⟨0, o.a, .prod, 8 * (o.mb + 1), 8 * (o.nb + 1)⟩, ⟨1, o.b, .prod, 8 * (o.kb + 1), 8 * (o.nb + 1)⟩, ⟨2, o.c, .prod, 8 * (o.mb + 1), 8 * (o.kb + 1)⟩]
  else [⟨0, o.a, .prodA, 8 * (o.mb + 1), 8 * (o.kb + 1)⟩, ⟨1, o.b, .prod, 8 * (o.kb + 1), 8 * (o.nb + 1)⟩]

def productGroups (kind : MKind) (o : MmaOp) : List Nat := [o.a, o.b] ++ if kind = .mmd then [o.c] else []

/-- The operation of a product outside a crew, with the bitmap of MMAS. -/
def aloneOp (i : Instr) (s : State) (u : Nat) (m : BitVec 32) (kind : MKind) (o : MmaOp) : MOp :=
  { matOp i s u m kind o.d o.mb o.nb with
    t2 := o.t2, k := 8 * (o.kb + 1), rows := 8 * (o.mb + 1), cols := 8 * (o.nb + 1), syn := o.syn
    descs := (productGroups kind o).map (descWords (s.strand u))
    bitmap := if kind = .mmas then ((s.strand u).readS o.c 2).val else 0 }

theorem latchVerdict_none {cx : Cx} {s : State} (h : (s.strand cx.u).latch = none) (k : State → Eff) : latchVerdict cx s k = k s := by
  unfold latchVerdict
  rw [h]
  rfl

theorem latchVerdict_met {cx : Cx} {s : State} (h : (s.strand cx.u).latch.bind (·.verdict) = some none) (k : State → Eff) :
    latchVerdict cx s k = .ok (s.modStrand cx.u fun st => { st with latch := none }) := by
  unfold latchVerdict
  rw [h]

theorem prodOp_alone {i : Instr} (h : MatrixReady i s u m) (kind : MKind) {o : MmaOp} (hcrew : o.crew = false) :
    prodOp i (contextOf i s u m) ((entered i s u m).strand u) kind o = (aloneOp i s u m kind o).withLimit (opLimit i s u m) := by
  unfold prodOp
  simp only [hcrew, Bool.false_eq_true, ↓reduceIte, h.ready.newOp, h.ready.readDesc h.clean, h.ready.agree.readS, Nat.one_mul, Nat.zero_mul]
  rfl

theorem product_body {i : Instr} (h : MatrixReady i s u m) (hl : (s.strand u).latch = none) (kind : MKind) (o : MmaOp) :
    ∃ k, product i kind o (contextOf i s u m) (entered i s u m) = tilesOk ((entered i s u m).strand u) (productTiles kind o) (entered i s u m) k ∧
      ((s.strand u).mops.length < 4 → o.crew = false → DescsGood s u o.syn o.d (productArgs kind o) →
        (kind = .mmd → tilesApart (s.strand u) (o.d, 8 * (o.mb + 1) * (8 * (o.kb + 1))) (o.t2, 8 * (o.kb + 1) * (8 * (o.nb + 1)))) →
        (kind = .mmas → ((s.strand u).readS o.c 2).val < 2 ^ 56) →
        k (entered i s u m) = .ok (startMop (entered i s u m) u ((aloneOp i s u m kind o).withLimit (opLimit i s u m)))) := by
  obtain ⟨-, -, -, hlatch, -⟩ := entered_tiles i s u m h.ready
  unfold product
  rw [latchVerdict_none (hlatch.trans hl), h.pre]
  refine ⟨_, rfl, fun hroom hcrew hg hapart hbm => ?_⟩
  simp only [contextOf_u, prodOp_alone h kind hcrew, hcrew, h.ready.readDesc h.clean, h.ready.agree.readS, h.ready.tileBase, Bool.false_eq_true, false_and, ↓reduceIte]
  have hclash : ¬(kind = .mmd ∧ overlaps [(tileBase (s.strand u) o.d, tileBase (s.strand u) o.d + 8 * (o.mb + 1) * (8 * (o.kb + 1)))]
      [(tileBase (s.strand u) o.t2, tileBase (s.strand u) o.t2 + 8 * (o.kb + 1) * (8 * (o.nb + 1)))] = true) := fun hc => by
    rw [overlaps_apart (hapart hc.1)] at hc
    exact Bool.false_ne_true hc.2
  have hbitmap : ∀ b ∈ (if kind = .mmas then some ((s.strand u).readS o.c 2) else none), b.val < 2 ^ 56 := fun b hb => by
    split at hb
    · next hk => exact Option.some.inj hb ▸ hbm hk
    · cases hb
  refine (congrArg (Machine.descsReady _ _ _ _ _ _ · _) (if_neg hclash)).trans ((h.descsReady hg hroom hbitmap _).trans (Eff.done_false _ _ ?_))
  refine Bool.or_eq_false_iff.2 ⟨List.any_eq_false.2 fun _ _ => Bool.false_ne_true, ?_⟩
  split
  · exact readS_clean _ h.clean _ _
  · rfl

theorem product_spec {i : Instr} {kind : MKind} {o : MmaOp} (h : MatrixReady i s u m) (hx : exec i s = issue i s (product i kind o)) (hl : (s.strand u).latch = none) :
    (∀ t rows width pos, (productTiles kind o).find? (badTile (s.strand u)) = some (t, rows, width, pos) → pos < 65536 →
      Traps i s u m false 0x02 pos ((s.strand u).laneMask (maskBits m)) 0) ∧
    (o.crew = false → (productTiles kind o).find? (badTile (s.strand u)) = none → DescsGood s u o.syn o.d (productArgs kind o) →
      (kind = .mmd → tilesApart (s.strand u) (o.d, 8 * (o.mb + 1) * (8 * (o.kb + 1))) (o.t2, 8 * (o.kb + 1) * (8 * (o.nb + 1)))) →
      (kind = .mmas → ((s.strand u).readS o.c 2).val < 2 ^ 56) → (s.strand u).mops.length < 4 → Enters i s u m (aloneOp i s u m kind o)) := by
  obtain ⟨k, hb, hk⟩ := product_body h hl kind o
  obtain ⟨htraps, henters⟩ := h.tiles hx hb
  exact ⟨htraps, fun hcrew hfits hg hapart hbm hroom => henters _ hfits (hk hroom hcrew hg hapart hbm)⟩

/-! ### A crew's member -/

/-- The crew has met: its member's operation is in the engine, and the member goes on (R220). -/
theorem product_met {i : Instr} {kind : MKind} {o : MmaOp} (h : MatrixReady i s u m) (hx : exec i s = issue i s (product i kind o))
    (hl : (s.strand u).latch.bind (·.verdict) = some none) :
    Completes i s u m {} fun t => (t.strand u).latch = none ∧ (t.strand u).mops = (s.strand u).mops := by
  obtain ⟨-, hmops, -, hlatch, -⟩ := entered_tiles i s u m h.ready
  have hhas := h.ready.has
  refine completes_of i s u m {} _ (product i kind o) _ h.ready hx (fun _ => latchVerdict_met (by rw [contextOf_u, hlatch, hl]) _)
    (fun _ => withMops_body _ u _ _ none _ {} hhas rfl) fun t ht hh => ?_
  rw [if_neg h.acts] at ht
  subst ht
  obtain ⟨hm, -, hv⟩ := moved_matrix (complete_moved _ (contextOf i s u m) i.uses false 0 hh)
  rw [contextOf_u, strand_modStrand_self _ u _ hhas] at hm hv
  exact ⟨hv, hm.trans hmops⟩

end

/-! ### What enters -/

theorem find_fits {st : Strand} {t : Nat × Nat × Nat × Nat} (h : ¬(st.accn = 0 ∨ st.accn < t.1 * st.accn / 4 + t.2.1 * t.2.2.1)) (ts : List (Nat × Nat × Nat × Nat)) :
    (t :: ts).find? (badTile st) = ts.find? (badTile st) := List.find?_cons_of_neg (fun hc => h ((tileBad_iff st _ _ _).1 hc))

theorem find_past {st : Strand} {t : Nat × Nat × Nat × Nat} (h : st.accn = 0 ∨ st.accn < t.1 * st.accn / 4 + t.2.1 * t.2.2.1) (ts : List (Nat × Nat × Nat × Nat)) :
    (t :: ts).find? (badTile st) = some t := List.find?_cons_of_pos ((tileBad_iff st _ _ _).2 h)

/-- Settles O50: the engine's checks pass an operation on one by one (`MatrixReady.tiles`), and each instruction's body is named with the operation that it enters
(`product_spec`, `accz_body`, `accld_body`, `accst_body`, `smx_body`); the lanes of an ILL_FIELD report are the fragment's (log entry 19). -/
theorem matrixOperationsEnterTheEngine : Obligations.MatrixOperationsEnterTheEngine := by
  unfold Obligations.MatrixOperationsEnterTheEngine
  intro i s u m hr ha hc hmt hpd st ext past desc base good apart enters illTile prod
  have h : MatrixReady i s u m := ⟨hr, ha, hc, hmt, hpd⟩
  refine ⟨?_, ?_, ?_, ?_, ?_, ?_, ?_, ?_⟩
  · rintro o rfl hl
    obtain ⟨htraps, henters⟩ := product_spec (kind := .mma) (o := o) h rfl hl
    exact ⟨fun hpast => htraps _ _ _ _ (find_past hpast []) (by decide), fun hcrew hfits hg => henters hcrew (find_fits hfits []) hg nofun nofun⟩
  · rintro o rfl hl
    obtain ⟨htraps, henters⟩ := product_spec (kind := .mmas) (o := o) h rfl hl
    exact ⟨fun hpast => htraps _ _ _ _ (find_past hpast []) (by decide), fun hcrew hfits hg hbm => henters hcrew (find_fits hfits []) hg nofun fun _ => hbm⟩
  · rintro o rfl hl
    obtain ⟨htraps, henters⟩ := product_spec (kind := .mmd) (o := o) h rfl hl
    exact ⟨fun hpast => htraps _ _ _ _ (find_past hpast _) (by decide), fun h1 hpast => htraps _ _ _ _ ((find_fits h1 _).trans (find_past hpast [])) (by decide),
      fun hcrew h1 h2 hapart hg => henters hcrew ((find_fits h1 _).trans (find_fits h2 [])) hg (fun _ => hapart) nofun⟩
  · rintro o rfl
    obtain ⟨body, hx, k, hb, hk⟩ := accz_body h
    obtain ⟨htraps, henters⟩ := h.tiles hx hb
    have hpos : o.h.form.at 20 10 < 65536 := by unfold Form.at; split <;> decide
    exact ⟨fun hpast => htraps _ _ _ _ (find_past hpast []) hpos, fun hfits hroom => henters _ (find_fits hfits []) (hk hroom)⟩
  · rintro o rfl
    obtain ⟨body, hx, k, hb, hk⟩ := accld_body h
    obtain ⟨htraps, henters⟩ := h.tiles hx hb
    exact ⟨fun hpast => htraps _ _ _ _ (find_past hpast []) (by decide), fun hfits hg hroom => henters _ (find_fits hfits []) (hk hroom hg)⟩
  · rintro o rfl
    obtain ⟨body, hx, k, hb, hqueue, hmemory⟩ := accst_body h
    obtain ⟨htraps, henters⟩ := h.tiles hx hb
    exact ⟨fun hpast => htraps _ _ _ _ (find_past hpast []) (by decide), fun hfits hq hroom => henters _ (find_fits hfits []) (hqueue hroom hq),
      fun hfits hq hg hrm hroom => henters _ (find_fits hfits []) (hmemory hroom hq hg hrm)⟩
  · rintro o rfl
    obtain ⟨body, hx, k, hb, hk⟩ := smx_body h
    obtain ⟨htraps, henters⟩ := h.tiles hx hb
    exact ⟨fun hpast => htraps _ _ _ _ (find_past hpast _) (by decide), fun h1 hpast => htraps _ _ _ _ ((find_fits h1 _).trans (find_past hpast [])) (by decide),
      fun h1 h2 hapart hroom => henters _ ((find_fits h1 _).trans (find_fits h2 [])) (hk hroom hapart)⟩
  · rintro ⟨o, rfl | rfl | rfl⟩ hl
    · exact product_met h rfl hl
    · exact product_met h rfl hl
    · exact product_met h rfl hl

end Sys2Proof.Machine
end

section
/-!
LAUNCH (O38).
-/

namespace Sys2Proof.Machine

/-! ### The record -/

/-- The launch record that LAUNCH hands over: as found, or with the code address that the instruction gives (R238). -/
def launchRecord (o : LaunchOp) (found : List Byte) : List Byte := if o.h.form.isLit then toBytes 8 o.lit.toNat ++ found.drop 8 else found

/-- A clean record that no store of the strand covers is read as the bytes of memory. -/
theorem readRecord_clean {cx : Cx} {s : State} {l leaf va : Nat} (hraw : s.raw = []) (hclean : s.cleanAt l 64) (hbuf : (s.strand cx.u).buf = [])
    (hcq : (s.strand cx.u).cq = []) (k : List Byte → Bool → State → Eff) : readRecord cx (.hit (.loc l) leaf) va s k = k (s.read l 64) false s := by
  unfold readRecord
  dsimp only
  rw [settle_clean _ _ _ hraw, viewOf_idle _ _ hbuf hcq, loadAt_clean _ _ _ _ hclean, record_bytes]

section
variable {o : LaunchOp} {s base : State} {u : Nat} {m : BitVec 32} {l leaf : Nat}

/-- LAUNCH finds its record. -/
theorem launch_found (h : Ready (.launch o) s u m) (hr : Reaches (.launch o) s u m .load 64 o.b 0 base l leaf) (hraw : base.raw = [])
    (hclean : base.cleanAt l 64) (ho : (s.strand u).owesNothing) :
    ∃ body, (∀ s', exec (.launch o) s' = issue (.launch o) s' body) ∧ body (contextOf (.launch o) s u m) (entered (.launch o) s u m) =
      handOver o (contextOf (.launch o) s u m) (base.read l 64) false base := by
  refine ⟨_, fun _ => rfl, ?_⟩
  obtain ⟨⟨hgood, hheld, hfates⟩, hrel, -, hstrand⟩ := id hr
  obtain ⟨hbuf, -, hcq, -⟩ := h.owesNothing ho
  rw [← (hr.base h).1] at hbuf hcq
  have hva : ((s.strand u).readS o.b 2).val = (targetOf s u m o.b 0).va := (pair_addr _ _).symm
  dsimp only
  rw [contextOf_u, show (contextOf (.launch o) s u m).mask = m from rfl, h.agree.readS, h.agree.lowest, hva,
    show Ea.mk ((s.strand u).lowest m) 0 (targetOf s u m o.b 0).va ((s.strand u).readS o.b 2).tag 0 ((s.strand u).readS o.b 2).poison = targetOf s u m o.b 0 from rfl]
  refine (withAddrs_good _ _ _ _ _ hgood).trans ?_
  rw [hfates]
  refine (withHits_all [targetOf s u m o.b 0] (fun _ => l) (fun _ => leaf) 0 base _ _).trans ?_
  rw [hheld]
  refine (release_idle base u _ _ _ _ hrel).trans ((readRecord_clean hraw hclean hbuf hcq _).trans ?_)
  rw [readS_clean _ hstrand]
  rfl

end

/-! ### The dispatcher -/

/-- A child launch as the dispatcher notes it, before the die queues take it (R305). -/
def listChild (s : State) (l : Launch) : State :=
  { s.modContext l.ctx fun c => { c with numB := c.numB + 1 } with uid := s.uid + 1, launches := sset s.launches s.uid l }

/-- A launch with nothing against its record enters the queues, numbered next among the context's child launches (R305, R307). -/
theorem takeLaunch_child {s : State} {bytes : List Byte} {proto taken : Launch} (hctx : (sfind s.contexts proto.ctx).isSome)
    (htaken : taken = { proto with num := launchNumber true ((s.context proto.ctx).numB + 1), msg := parseMsg bytes })
    (hfields : badField taken.msg = none) (hvet : vet (listChild s taken) taken = none) :
    takeLaunch s bytes true proto = (s.uid, enqueue (listChild s taken) s.uid) := by
  have hnumber : { proto with
      num := launchNumber true (numbersGiven ((s.modContext proto.ctx fun c => { c with numB := c.numB + 1 }).context proto.ctx) true), msg := parseMsg bytes } = taken := by
    rw [htaken, context_mod _ _ _ hctx, if_pos rfl]
    rfl
  have hlist : listChild s taken = { s.modContext proto.ctx fun c => { c with numB := c.numB + 1 } with uid := s.uid + 1, launches := sset s.launches s.uid taken } := by
    rw [htaken]
    rfl
  rw [hlist, ← hnumber] at hvet ⊢
  rw [← hnumber] at hfields
  unfold takeLaunch
  dsimp only
  split
  · next hbad => cases hfields.symm.trans hbad
  · split
    · next hbad => cases hvet.symm.trans hbad
    · rfl

/-- The launches that accepting one leaves. -/
theorem enqueue_launches (s : State) (taken : Launch) : ∃ L D, enqueue (listChild s taken) s.uid = { listChild s taken with launches := L, dies := D } ∧
    (∃ ds un ph, sget default L s.uid = { taken with dies := ds, unplaced := un, phase := ph }) ∧ ∀ k, k ≠ s.uid → sget default L k = s.launch k := by
  obtain ⟨L, D, heq, hL⟩ := enqueue_spec (listChild s taken) s.uid
  have hfind (k : Nat) : sfind (listChild s taken).launches k = if k = s.uid then some taken else sfind s.launches k := sfind_sset s.launches s.uid k taken
  have hlaunch (k : Nat) : (listChild s taken).launch k = if k = s.uid then taken else s.launch k :=
    (congrArg (Option.getD · default) (hfind k)).trans (apply_ite (Option.getD · default) (k = s.uid) (some taken) (sfind s.launches k))
  refine ⟨L, D, heq, ?_, fun k hk => ?_⟩
  · obtain ⟨ds, un, ph, he⟩ := hL s.uid
    rw [if_pos ⟨rfl, by rw [hfind, if_pos rfl]; rfl⟩, hlaunch, if_pos rfl] at he
    exact ⟨ds, un, ph, he⟩
  · obtain ⟨ds, un, ph, he⟩ := hL k
    rwa [if_neg fun hc => hk hc.1, hlaunch, if_neg hk] at he

/-! ### LAUNCH -/

section
variable {o : LaunchOp} {s base : State} {u : Nat} {m : BitVec 32} {l leaf : Nat}

/-- The launch that LAUNCH makes of its record in the context `ctx`. -/
def childLaunch (o : LaunchOp) (s base : State) (u l : Nat) : Launch :=
  { num := launchNumber true ((base.context (s.ctxOf (s.strand u))).numB + 1), ctx := s.ctxOf (s.strand u), msg := parseMsg (launchRecord o (base.read l 64))
    parent := some (s.strand u).launch, order := ((s.strand u).sid, (s.strand u).launches) }

theorem patch_front (b bs : List Byte) : patch b 0 bs = bs ++ b.drop bs.length := by simp [patch]

theorem launchRecord_eq (o : LaunchOp) (found : List Byte) : (if o.h.form.isLit then patch found 0 (toBytes 8 o.lit.toNat) else found) = launchRecord o found := by
  unfold launchRecord
  rw [patch_front, length_toBytes]

theorem handOver_waits {cx : Cx} {t : State} {found : List Byte} (h : canAccept t (parseMsg (launchRecord o found)) = false) :
    handOver o cx found false t = .wait .dispatcher t := by
  unfold handOver
  dsimp only
  rw [launchRecord_eq, h]
  rfl

/-- The state that an accepted launch leaves, before its number is written. -/
def handedOver (o : LaunchOp) (s base : State) (u l : Nat) : State :=
  (enqueue (listChild (dropPeerBytes base u 0) (childLaunch o s base u l)) base.uid).modStrand u fun st => { st with launches := st.launches + 1 }

/-- The strand's counts, the contexts, the launches, the dies and the count of numbers change; of the launches only the new one, which is the
child launch but for where the queues put it. -/
theorem handedOver_spec (o : LaunchOp) (s base : State) (u l : Nat) : ∃ L D,
    handedOver o s base u l = { (dropPeerBytes base u 0).modStrand u fun st => { st with launches := st.launches + 1 } with
      contexts := smod base.contexts (s.ctxOf (s.strand u)) fun c => { c with numB := c.numB + 1 }, launches := L, dies := D, uid := base.uid + 1 } ∧
    (∃ ds un ph, sget default L base.uid = { childLaunch o s base u l with dies := ds, unplaced := un, phase := ph }) ∧
    ∀ k, k ≠ base.uid → sget default L k = base.launch k := by
  obtain ⟨L, D, heq, hself, hothers⟩ := enqueue_launches (dropPeerBytes base u 0) (childLaunch o s base u l)
  refine ⟨L, D, ?_, hself, hothers⟩
  unfold handedOver
  rw [show base.uid = (dropPeerBytes base u 0).uid from rfl, heq]
  rfl

theorem handOver_accepts (h : Ready (.launch o) s u m) (hr : Reaches (.launch o) s u m .load 64 o.b 0 base l leaf)
    (haccept : canAccept base (childLaunch o s base u l).msg = true) (hctx : (sfind base.contexts (s.ctxOf (s.strand u))).isSome)
    (hfields : badField (childLaunch o s base u l).msg = none) (hvet : vet (listChild (dropPeerBytes base u 0) (childLaunch o s base u l)) (childLaunch o s base u l) = none) :
    handOver o (contextOf (.launch o) s u m) (base.read l 64) false base =
      .ok (writeU (handedOver o s base u l) (contextOf (.launch o) s u m) o.d [BitVec.ofNat 32 (childLaunch o s base u l).num] 0) := by
  obtain ⟨-, -, hsid, -⟩ := (hr.agree h).ids
  have hcount : (base.strand u).launches = (s.strand u).launches := by
    rw [(hr.base h).1, entered_launchCount _ s u m (issuing_has s u m h.atIssue)]
  have htaken := takeLaunch_child (s := dropPeerBytes base u 0) (bytes := launchRecord o (base.read l 64))
    (proto := { num := 0, ctx := s.ctxOf (s.strand u), msg := {}, parent := some (s.strand u).launch, order := ((s.strand u).sid, (s.strand u).launches) })
    (taken := childLaunch o s base u l) hctx rfl hfields hvet
  have hnum : ((enqueue (listChild (dropPeerBytes base u 0) (childLaunch o s base u l)) base.uid).launch base.uid).num = (childLaunch o s base u l).num := by
    obtain ⟨L, D, heq, ⟨ds, un, ph, hself⟩, -⟩ := handedOver_spec o s base u l
    show ((handedOver o s base u l).launch base.uid).num = _
    rw [heq]
    show (sget default L base.uid).num = _
    rw [hself]
  unfold handOver
  dsimp only
  rw [launchRecord_eq, show canAccept base (parseMsg (launchRecord o (base.read l 64))) = true from haccept, contextOf_u, (hr.agree h).launch, hsid, hcount,
    show (dropPeerBytes base u 0).ctxOf (base.strand u) = s.ctxOf (s.strand u) from hr.ctxOf h, htaken]
  dsimp only
  rw [show (dropPeerBytes base u 0).uid = base.uid from rfl, hnum]
  rfl

/-- BTNEXT (control register 0x11) is read from the strand's launch, which handing over changes only where the new number is that launch's. -/
theorem handedOver_body (hhas : base.has u) {w : Touch} (hw : w.launches = true) (hct : base.uid = (base.strand u).launch → w.ctl 0x11 = true) :
    Body w base (handedOver o s base u l) u := by
  obtain ⟨L, D, heq, -, hothers⟩ := handedOver_spec o s base u l
  have hdrop : Body w base (dropPeerBytes base u 0) u := counts_body base u _ hhas ⟨_, _, rfl⟩ w
  have hcount := counts_body (dropPeerBytes base u 0) u (fun st => { st with launches := st.launches + 1 }) (hdrop.has hhas) ⟨_, _, rfl⟩ w
  have hdropped : (dropPeerBytes base u 0).strand u = { base.strand u with peerBuf := (base.strand u).peerBuf.filter fun b => b.owner != 0 } :=
    strand_modStrand_self base u _ hhas
  rw [heq]
  refine (hdrop.trans hcount).trans (queues_body _ u _ L D _ w hw ?_)
  rw [strand_modStrand_self _ u _ (hdrop.has hhas), hdropped]
  by_cases hk : base.uid = (base.strand u).launch
  · exact .inl (hct hk)
  · exact .inr (by rw [hothers _ (Ne.symm hk)]; exact ⟨rfl, rfl⟩)

theorem launched_body (hhas : base.has u) {w : Touch} (hw : w.launches = true) (hct : base.uid = (base.strand u).launch → w.ctl 0x11 = true)
    (hd : w.s o.d = true) (x : Word) : Body w base (writeU (handedOver o s base u l) (contextOf (.launch o) s u m) o.d [x] 0) u := by
  have hB : Body w base (handedOver o s base u l) u := handedOver_body hhas hw hct
  refine hB.trans (writeU_body _ (contextOf (.launch o) s u m) o.d [x] 0 w (hB.has hhas) fun c h1 h2 => ?_)
  rwa [Nat.le_antisymm (Nat.le_of_lt_succ h2) h1]

end

/-- Settles O38: the record is found (`launch_found`); where the queues are full LAUNCH waits (`handOver_waits`), otherwise `handOver_accepts` and what
`handedOver_spec` says of the launches. -/
theorem launchHandsOver : Obligations.LaunchHandsOver := by
  unfold Obligations.LaunchHandsOver
  intro o s base u m l leaf i st ctx h hr hraw hclean ho found record given taken listed
  obtain ⟨body, hx, hb⟩ := launch_found h hr hraw hclean ho
  refine ⟨fun hfull => ?_, fun haccept hctx hfields hvet => ?_⟩
  · rw [handOver_waits hfull] at hb
    exact waits_of i s u m body .dispatcher base base h (hx s) hr.acts hb (Only.refl _ _ _) (hr.base h).2
      (fun j => by rw [(hr.base h).1]; exact h.quiet.stay j) (by rw [(hr.base h).1]; exact h.agree.len)
  · rw [handOver_accepts h hr haccept hctx hfields hvet] at hb
    have hhas := (hr.base h).2
    have hlaunch : (base.strand u).launch = st.launch := (hr.agree h).launch
    obtain ⟨L, D, heq, ⟨ds, un, ph, hself⟩, hothers⟩ := handedOver_spec o s base u l
    have hhanded : (handedOver o s base u l).has u := (handedOver_body hhas (w := { launches := true, ctl := fun _ => true }) rfl fun _ => rfl).has hhas
    have hwritten := (writeU_body (handedOver o s base u l) (contextOf i s u m) o.d [BitVec.ofNat 32 taken.num] 0 { s := fun _ => true } hhanded fun _ _ _ => rfl).has hhanded
    have hdone := complete_beside _ (contextOf i s u m) i.uses hwritten
    refine hr.completes h (hx s) hb (launched_body hhas rfl (fun hk => ?_) (beq_self_eq_true o.d) _) ⟨fun h0 => ?_, ?_, ?_⟩
    · exact (beq_iff_eq (α := Nat)).2 (hk.trans hlaunch)
    · exact ((complete_kept _ (contextOf i s u m) i.uses hwritten).sregs o.d rfl).trans
        (writeU_sreg _ (contextOf i s u m) o.d _ 0 hhanded 0 Nat.one_pos h0)
    · have hcontexts := hdone.contexts.trans (show (handedOver o s base u l).contexts = _ from congrArg State.contexts heq)
      exact (congrArg (fun cs => (sget default cs ctx).numB) hcontexts).trans
        (congrArg Context.numB ((context_mod base ctx (fun c => { c with numB := c.numB + 1 }) hctx ctx).trans (if_pos rfl)))
    · have hlaunches := hdone.launches.trans (show (handedOver o s base u l).launches = L from congrArg State.launches heq)
      have hself' := (congrArg (sget default · base.uid) hlaunches).trans hself
      exact ⟨(congrArg Launch.msg hself' :), (congrArg Launch.num hself' :), (congrArg Launch.ctx hself' :), (congrArg Launch.parent hself' :),
        fun k hk => (congrArg (sget default · k) hlaunches).trans (hothers k hk)⟩

end Sys2Proof.Machine
end

section
/-!
ACCRD, MSYNC and WSL (O51).
-/

namespace Sys2Proof.Machine

/-! ### ACCRD (R226) -/

/-- The first row that ACCRD reads. -/
def accrdRow (o : AccrdOp) (st : Strand) : Nat := (st.readS o.b 1).w.toNat % 256

/-- The first column that ACCRD reads. -/
def accrdCol (o : AccrdOp) (st : Strand) : Nat := (st.readS o.b 1).w.toNat / 2 ^ 16 % 512

/-- The elements that ACCRD covers, for which it waits. -/
def accrdRange (o : AccrdOp) (st : Strand) : Nat × Nat :=
  let n := 8 * (o.nb + 1)
  let i := tileBase st o.a + accrdRow o st * n
  if o.sel = 0 then (i + min (accrdCol o st) n, i + min (accrdCol o st + 32) n) else sideRange o.a (accrdRow o st) (min 128 (accrdRow o st + 32))

/-- What thread `j` reads: word, tag, poison. -/
def accrdRead (o : AccrdOp) (st : Strand) (j : Nat) : Word × Tag × Bool := accrdLane st o (accrdRow o st) (accrdCol o st) (st.thread j).lane

/-- A fold whose steps put one result each at the end of a list, where no element is one that it treats otherwise. -/
theorem foldl_appends {σ α β : Type} (bad : α → Bool) (f : σ × List β → α → σ × List β) (g : α → β) (rs : List α) (h : ∀ r ∈ rs, bad r = false) (s : σ)
    (out : List β) : rs.foldl (fun a r => if bad r = true then f a r else (a.1, a.2 ++ [g r])) (s, out) = (s, out ++ rs.map g) := by
  induction rs generalizing out with
  | nil => simp
  | cons r rs ih =>
    rw [List.foldl_cons, h r List.mem_cons_self]
    exact (ih (fun r' hr => h r' (List.mem_cons_of_mem r hr)) _).trans (by simp)

theorem accrd_entered {o : AccrdOp} {s : State} {u : Nat} {m : BitVec 32} (h : Ready (.accrd o) s u m) : entered (.accrd o) s u m = s := by
  refine startOf_entered _ s u m (not_boundary _ s u m h (fun x hx => ?_) rfl)
  have huses : x ∈ [useV o.d false true false 0, useS o.b true false 2] := hx
  simp only [List.mem_cons, List.not_mem_nil, or_false] at huses
  obtain rfl | rfl := huses <;> rfl

/-- ACCRD traps without an allocation, waits for what is still written, and otherwise gives what its lanes read. -/
theorem accrd_body {o : AccrdOp} {s : State} {u : Nat} {m : BitVec 32} (h : MatrixReady (.accrd o) s u m) :
    ∃ body, (∀ s', exec (.accrd o) s' = issue (.accrd o) s' body) ∧
      ((s.strand u).accn = 0 → body (contextOf (.accrd o) s u m) (entered (.accrd o) s u m) = .trap { cause := 0x02, sub := 18 } (entered (.accrd o) s u m)) ∧
      ((s.strand u).accn ≠ 0 → stillWritten (s.strand u) [accrdRange o (s.strand u)] = true →
        body (contextOf (.accrd o) s u m) (entered (.accrd o) s u m) = .wait .engine (entered (.accrd o) s u m)) ∧
      ((s.strand u).accn ≠ 0 → stillWritten (s.strand u) [accrdRange o (s.strand u)] = false →
        (∀ j ∈ acting (.accrd o) s u m, (accrdRead o (s.strand u) j).2.2 = false) →
        body (contextOf (.accrd o) s u m) (entered (.accrd o) s u m) = .ok (writeD (entered (.accrd o) s u m) (contextOf (.accrd o) s u m) o.d
          ((acting (.accrd o) s u m).map fun j => (j, [(accrdRead o (s.strand u) j).1], (accrdRead o (s.strand u) j).2.1)))) := by
  refine ⟨_, fun _ => rfl, ?_⟩
  have hpre := h.pre
  rw [accrd_entered h.ready] at hpre ⊢
  dsimp only
  rw [hpre]
  dsimp only [contextOf_u]
  refine ⟨fun h0 => if_pos h0, fun h0 hdue => ?_, fun h0 hfree hclean => ?_⟩
  · exact (if_neg h0).trans (if_pos hdue)
  · refine (if_neg h0).trans ((if_neg (Bool.eq_false_iff.1 hfree)).trans ?_)
    have hreads : ∀ r ∈ (acting (.accrd o) s u m).map fun j => (j, accrdRead o (s.strand u) j), r.2.2.2 = false := by
      intro r hr
      obtain ⟨j, hj, rfl⟩ := List.mem_map.1 hr
      exact hclean j hj
    rw [foldl_appends (fun r : Nat × Word × Tag × Bool => r.2.2.2) _ (fun r => (r.1, [r.2.1], r.2.2.1)), readS_clean _ h.clean, List.nil_append, List.map_map]
    · refine Eff.done_false _ _ ?_
      rw [Bool.false_or]
      exact List.any_eq_false.2 fun r hr => Bool.eq_false_iff.1 (hreads r hr)
    · exact hreads

theorem accrdRow_bits (o : AccrdOp) (st : Strand) : ((st.readS o.b 1).w.extractLsb' 0 8).toNat = accrdRow o st := by
  rw [BitVec.extractLsb'_toNat, Nat.shiftRight_zero]
  rfl

theorem accrdCol_bits (o : AccrdOp) (st : Strand) : ((st.readS o.b 1).w.extractLsb' 16 9).toNat = accrdCol o st := by
  rw [BitVec.extractLsb'_toNat, Nat.shiftRight_eq_div_pow]
  rfl

/-- An earlier operation still writes into the range. -/
theorem stillWritten_one (st : Strand) (r : Nat × Nat) :
    stillWritten st [r] = st.mops.any fun p => (p.todo st).1.any fun x => x.1 < r.2 && r.1 < x.2 := by
  simp [stillWritten, overlaps]

/-- The element of the tile that thread `j` reads. -/
def accrdIndex (o : AccrdOp) (st : Strand) (j : Nat) : Nat :=
  tileBase st o.a + accrdRow o st * (8 * (o.nb + 1)) + accrdCol o st + (st.thread j).lane

/-- Thread `j` reads an element of the tile. -/
def accrdInside (o : AccrdOp) (st : Strand) (j : Nat) : Prop :=
  accrdCol o st + (st.thread j).lane < 8 * (o.nb + 1) ∧ accrdRow o st < 128 ∧ accrdIndex o st j < st.accn

section
variable {o : AccrdOp} {st : Strand} {j : Nat}

theorem accrdRead_inside (hsel : o.sel = 0) (h : accrdInside o st j) : accrdRead o st j =
    (accWord st (accrdIndex o st j), if st.tagEn then accTag st (accrdIndex o st j) else 0, accPoison st (accrdIndex o st j)) := by
  obtain ⟨hcol, hrow, hidx⟩ := h
  exact (if_pos hsel).trans (if_neg (by rintro (hc | hc | hc) <;> [exact Nat.not_le.2 hcol hc; exact Nat.not_le.2 hrow hc; exact Nat.not_le.2 hidx hc]))

theorem accrdRead_outside (hsel : o.sel = 0) (h : ¬accrdInside o st j) : accrdRead o st j = (0, 0, false) := by
  refine (if_pos hsel).trans (if_pos ?_)
  by_contra hc
  rw [not_or, not_or, Nat.not_le, Nat.not_le, Nat.not_le] at hc
  exact h hc

theorem accrdRead_side (hsel : o.sel ≠ 0) : accrdRead o st j =
    (if accrdRow o st + (st.thread j).lane ≤ 127 then sget 0 (if o.sel = 1 then st.rowmax else st.rowsum) (128 * o.a + accrdRow o st + (st.thread j).lane) else 0, 0, false) := by
  refine (if_neg hsel).trans ?_
  by_cases hin : accrdRow o st + (st.thread j).lane ≤ 127
  · rw [if_neg (by omega), if_pos hin, Nat.add_assoc]
    rfl
  · rw [if_pos (by omega), if_neg hin]

theorem accrdRead_clean (h : o.sel = 0 → (sget {} st.acc (accrdIndex o st j)).poison = false) : (accrdRead o st j).2.2 = false := by
  by_cases hsel : o.sel = 0
  · by_cases hin : accrdInside o st j
    · rw [accrdRead_inside hsel hin]
      exact h hsel
    · rw [accrdRead_outside hsel hin]
  · rw [accrdRead_side hsel]

end

section
variable {o : AccrdOp} {s : State} {u : Nat} {m : BitVec 32}

/-- What ACCRD gives where nothing is waited for. -/
theorem accrd_result (h : MatrixReady (.accrd o) s u m) (h0 : (s.strand u).accn ≠ 0) (hfree : stillWritten (s.strand u) [accrdRange o (s.strand u)] = false)
    (hclean : ∀ j ∈ acting (.accrd o) s u m, o.sel = 0 → (sget {} (s.strand u).acc (accrdIndex o (s.strand u) j)).poison = false) :
    VecResult (.accrd o) s u m o.d 1 (fun j => [(accrdRead o (s.strand u) j).1]) fun j => (accrdRead o (s.strand u) j).2.1 := by
  obtain ⟨body, hx, -, -, hb⟩ := accrd_body h
  exact vec_write _ s u m o.d 1 body _ _ h.ready hx (fun _ _ => rfl) (hb h0 hfree fun j hj => accrdRead_clean (hclean j hj))

theorem accWord_clean {st : Strand} {k : Nat} (h : (sget {} st.acc k).poison = false) : accWord st k = (sget {} st.acc k).val := by
  unfold accWord
  dsimp only
  rw [h]
  rfl

end

/-! ### MSYNC (R228) -/

theorem msync_entered {i : Instr} {s : State} {u : Nat} {m : BitVec 32} {o : MsyncOp} (hi : i = .msyncAll o ∨ i = .msyncProg o ∨ i = .msyncWs o)
    (h : Ready i s u m) : entered i s u m = s := by
  refine startOf_entered _ s u m (not_boundary _ s u m h (fun x hx => ?_) ?_)
  · obtain rfl | rfl | rfl := hi <;> cases (show x ∈ [] from hx)
  · obtain rfl | rfl | rfl := hi <;> rfl

/-- RPROG counts far enough in the last pass of the operation that sets it, or nothing in progress writes the tile. -/
theorem progReached_iff (st : Strand) (t n : Nat) : progReached st t n = true ↔
    (∀ p ∈ st.mops, ¬(p.counts t = true ∨ (p.kind = .smx ∧ p.t2 = t))) ∨
      (n ≤ st.rprog.getD t 0 ∧ ∀ p, (st.mops.filter fun p => p.counts t).getLast? = some p → p.lastPass = true) := by
  unfold progReached
  rw [Bool.or_eq_true, Bool.and_eq_true, List.isEmpty_iff, List.filter_eq_nil_iff, decide_eq_true_iff, Option.all_eq_true]
  simp only [Bool.or_eq_true, Bool.and_eq_true, beq_iff_eq]

section
variable {o : MsyncOp} {s : State} {u : Nat} {m : BitVec 32}

theorem msyncAll_waits (h : Ready (.msyncAll o) s u m) (ha : acting (.msyncAll o) s u m ≠ []) (hp : (s.strand u).poisonDue = false)
    (hops : (s.strand u).mops ≠ []) : WaitsFor (entered (.msyncAll o) s u m) (.msyncAll o) s u m .engine := by
  refine waits_entered _ s u m _ .engine h rfl ha ?_
  rw [msync_entered (.inl rfl) h]
  exact (if_neg (mt List.isEmpty_iff.1 hops)).trans (poisonPre_idle _ _ _ hp)

theorem msyncAll_completes (h : Ready (.msyncAll o) s u m) (hp : (s.strand u).poisonDue = false) (hops : (s.strand u).mops = [])
    (hfaults : (s.strand u).mtFaults = []) : Completes (.msyncAll o) s u m {} fun _ => True := by
  refine completes_same _ s u m _ h rfl (fun _ => ?_) _ fun _ _ => trivial
  rw [msync_entered (.inl rfl) h]
  exact (if_pos (List.isEmpty_iff.2 hops)).trans (matrixPre_idle _ _ _ hfaults hp)

/-- MSYNC.prog traps without an allocation, completes once its condition holds and waits until then. -/
theorem msyncProg_body (h : Ready (.msyncProg o) s u m) (hp : (s.strand u).poisonDue = false) :
    ∃ body, exec (.msyncProg o) s = issue (.msyncProg o) s body ∧ body (contextOf (.msyncProg o) s u m) (entered (.msyncProg o) s u m) =
      if (s.strand u).accn = 0 then .trap { cause := 0x02, sub := o.h.form.at 15 10 } (entered (.msyncProg o) s u m)
      else if progReached (s.strand u) o.t o.n then .ok (entered (.msyncProg o) s u m) else .wait .engine (entered (.msyncProg o) s u m) := by
  refine ⟨_, rfl, ?_⟩
  rw [msync_entered (.inr (.inl rfl)) h]
  exact poisonPre_idle _ _ _ hp

/-- MSYNC.ws waits for the strand's weight streams, and completes without one where no error is to be reported. -/
theorem msyncWs_body (h : Ready (.msyncWs o) s u m) (hp : (s.strand u).poisonDue = false) :
    ∃ body, exec (.msyncWs o) s = issue (.msyncWs o) s body ∧
      (((s.core (s.strand u).core).wsu.filter fun c => c.1.strand == u) ≠ [] →
        body (contextOf (.msyncWs o) s u m) (entered (.msyncWs o) s u m) = .wait .engine (entered (.msyncWs o) s u m)) ∧
      (((s.core (s.strand u).core).wsu.filter fun c => c.1.strand == u) = [] → (s.strand u).wsFaults = [] →
        body (contextOf (.msyncWs o) s u m) (entered (.msyncWs o) s u m) = .ok (entered (.msyncWs o) s u m)) := by
  have hany : ((s.core (s.strand u).core).wsu.filter fun c => c.1.strand == u) ≠ [] ↔ ((s.core (s.strand u).core).wsu.any fun c => c.1.strand == u) = true := by simp
  refine ⟨_, rfl, fun hmine => ?_, fun hmine hfaults => ?_⟩ <;> rw [msync_entered (.inr (.inr rfl)) h] <;> refine (poisonPre_idle _ _ _ hp).trans ?_
  · exact if_pos (hany.1 hmine)
  · refine (if_neg fun hc => hany.2 hc hmine).trans ?_
    dsimp only [contextOf_u]
    rw [hfaults]
    rfl

end

/-! ### WSL (R229) -/

/-- Where the decoded block goes: the offset in its destination. -/
def wslOff (o : WslOp) (st : Strand) : Nat := if o.dst = 2 then 0 else (st.readS o.d 1).w.toNat

/-- The destination of a WSL has room for a block at the offset (R229). -/
def wslFits (s : State) (st : Strand) (o : WslOp) (off : Nat) : Prop :=
  match o.dst with
  | 0 => off % 4096 = 0 ∧ off + 4096 ≤ winOf s st
  | 1 => off % 32 = 0 ∧ off + 4096 ≤ ((sfind s.skeins st.skein).map Skein.scratch).getD 0
  | _ => (portQueue st 1).isSome

section
variable {s : State} {st : Strand} {o : WslOp} {off : Nat}

theorem wslFault_window (h : o.dst = 0) : (wslFits s st o off ↔ off % 4096 = 0 ∧ off + 4096 ≤ winOf s st) ∧
    wslFault s st o off = if off % 4096 ≠ 0 ∨ winOf s st < off + 4096 then some 10 else none := by
  unfold wslFault wslFits
  rw [h]
  exact ⟨Iff.rfl, rfl⟩

theorem wslFault_scratch (h : o.dst = 1) :
    (wslFits s st o off ↔ off % 32 = 0 ∧ off + 4096 ≤ ((sfind s.skeins st.skein).map Skein.scratch).getD 0) ∧ wslFault s st o off =
      if off % 32 ≠ 0 ∨ ((sfind s.skeins st.skein).map Skein.scratch).getD 0 < off + 4096 then some 10 else none := by
  unfold wslFault wslFits
  rw [h]
  exact ⟨Iff.rfl, rfl⟩

theorem wslFault_queue (h : o.dst = 2) :
    (wslFits s st o off ↔ (portQueue st 1).isSome) ∧ wslFault s st o off = if (portQueue st 1).isNone then some 64 else none := by
  unfold wslFault wslFits
  rw [h]
  exact ⟨Iff.rfl, rfl⟩

theorem wslFault_fits (hdst : o.dst < 3) (h : wslFits s st o off) : wslFault s st o off = none := by
  obtain hd | hd | hd : o.dst = 0 ∨ o.dst = 1 ∨ o.dst = 2 := by omega
  · obtain ⟨hfits, hfault⟩ := wslFault_window (s := s) (st := st) (off := off) hd
    rw [hfits] at h
    exact hfault.trans (if_neg (by omega))
  · obtain ⟨hfits, hfault⟩ := wslFault_scratch (s := s) (st := st) (off := off) hd
    rw [hfits] at h
    exact hfault.trans (if_neg (by omega))
  · obtain ⟨hfits, hfault⟩ := wslFault_queue (s := s) (st := st) (off := off) hd
    rw [hfits] at h
    exact hfault.trans (if_neg (by simp [Option.isSome_iff_ne_none.1 h]))

/-- A destination that the block does not fit is an ILL_FIELD, of the offset's register or of the destination itself. -/
theorem wslFault_unfit (hdst : o.dst < 3) (h : ¬wslFits s st o off) : wslFault s st o off = some (if o.dst = 2 then 64 else 10) := by
  obtain hd | hd | hd : o.dst = 0 ∨ o.dst = 1 ∨ o.dst = 2 := by omega
  · obtain ⟨hfits, hfault⟩ := wslFault_window (s := s) (st := st) (off := off) hd
    rw [hfits] at h
    rw [hfault, if_pos (by omega), hd]
    rfl
  · obtain ⟨hfits, hfault⟩ := wslFault_scratch (s := s) (st := st) (off := off) hd
    rw [hfits] at h
    rw [hfault, if_pos (by omega), hd]
    rfl
  · obtain ⟨hfits, hfault⟩ := wslFault_queue (s := s) (st := st) (off := off) hd
    rw [hfits, Option.not_isSome_iff_eq_none] at h
    rw [hfault, if_pos (Option.isNone_iff_eq_none.2 h), if_pos hd]

end

/-- The access of WSL to its block. -/
def wslEa (o : WslOp) (st : Strand) (m : BitVec 32) : Ea :=
  { thread := st.lowest m, lane := 0, va := (st.readS o.b 2).val, base := (st.readS o.b 2).tag, idx := 0 }

/-- The command that WSL puts into the queue. -/
def wslCommand (o : WslOp) (s : State) (u : Nat) : WslCmd :=
  let st := s.strand u
  { strand := u, sid := st.sid, skein := st.skein, ctx := s.ctxOf st, blk := (st.readS o.b 2).val
    scale := if o.dst == 0 && o.c != 0 then some (st.readS o.c 2).val else none, off := wslOff o st
    dst := o.dst, key := o.key, q := (portQueue st 1).getD 0, en := st.tagEn, seq := s.uid }

/-- The command in the queue, numbered. -/
def wslEnqueued (o : WslOp) (s : State) (u : Nat) : State :=
  let k := s.core (s.strand u).core
  s.newId.2.setCore (s.strand u).core { k with wsu := k.wsu ++ [(wslCommand o s u, .run)] }

/-- For destination 0 its unit has one more command pending (R234). -/
def wslQueued (o : WslOp) (s : State) (u : Nat) : State :=
  if o.dst = 0 then modUnit (wslEnqueued o s u) (s.strand u).skein (wslOff o (s.strand u) / 4096) fun i => { i with pending := i.pending + 1 }
  else wslEnqueued o s u

/-- A canonical, aligned access passes the checks of R180. -/
theorem badAddr_good {x : Ea} {n : Nat} (h56 : x.va < 2 ^ 56) (haligned : x.va % n = 0) : badAddr [x] n = none := by
  unfold badAddr
  rw [List.find?_cons_of_neg (by simpa using h56), List.find?_nil]
  dsimp only
  rw [List.find?_cons_of_neg (by simp [haligned])]
  rfl

theorem badAddr_far {x : Ea} {n : Nat} (h56 : 2 ^ 56 ≤ x.va) : badAddr [x] n = some (0x23, x) := by
  unfold badAddr
  rw [List.find?_cons_of_pos (by simpa using h56)]

/-- WSL checks its address, then its destination, and waits for room in the queue. -/
theorem wsl_body (o : WslOp) (s : State) (u : Nat) (m : BitVec 32) (e : State)
    (he : ∀ c n, ((e.strand u).readS c n).poison = false) :
    ∃ body k, exec (.wsl o) s = issue (.wsl o) s body ∧ body (contextOf (.wsl o) s u m) e = withAddrs [wslEa o (e.strand u) m] 4 true e k ∧
      (∀ p, wslFault e (e.strand u) o (wslOff o (e.strand u)) = some p → k e = .trap { cause := 0x02, sub := p } e) ∧
      (wslFault e (e.strand u) o (wslOff o (e.strand u)) = none → 8 ≤ (e.core (e.strand u).core).wsu.length → k e = .wait .wsuQueue e) ∧
      (wslFault e (e.strand u) o (wslOff o (e.strand u)) = none → (e.core (e.strand u).core).wsu.length < 8 → k e = .ok (wslQueued o e u)) := by
  refine ⟨_, _, rfl, rfl, fun p hp => ?_, fun hn hfull => ?_, fun hn hroom => ?_⟩
  · dsimp only [contextOf_u]
    rw [show wslFault e (e.strand u) o (if o.dst = 2 then 0 else ((e.strand u).readS o.d 1).w.toNat) = some p from hp]
  · dsimp only [contextOf_u]
    rw [show wslFault e (e.strand u) o (if o.dst = 2 then 0 else ((e.strand u).readS o.d 1).w.toNat) = none from hn]
    exact if_pos hfull
  · dsimp only [contextOf_u]
    rw [show wslFault e (e.strand u) o (if o.dst = 2 then 0 else ((e.strand u).readS o.d 1).w.toNat) = none from hn]
    refine (if_neg (Nat.not_le.2 hroom)).trans ((Eff.done_false _ _ ?_).trans rfl)
    rw [he, he, he, Bool.and_false, Bool.and_false]
    rfl

theorem wslEnqueued_body (o : WslOp) (s : State) (u : Nat) (w : Touch) : Body w s (wslEnqueued o s u) u :=
  (newId_body w s u).trans (setCore_body s.newId.2 u w _ _)

theorem wslQueued_body (o : WslOp) (s : State) (u : Nat) (w : Touch) : Body w s (wslQueued o s u) u := by
  unfold wslQueued
  split
  · exact (wslEnqueued_body o s u w).trans (skeins_body _ _ u w ⟨_, rfl⟩)
  · exact wslEnqueued_body o s u w

/-- The command stands last in the queue of the strand's core. -/
theorem wslQueued_wsu (o : WslOp) (s : State) (u : Nat) :
    ((wslQueued o s u).core (s.strand u).core).wsu = (s.core (s.strand u).core).wsu ++ [(wslCommand o s u, .run)] := by
  have hcore : (wslQueued o s u).core (s.strand u).core = (wslEnqueued o s u).core (s.strand u).core := by
    unfold wslQueued
    split <;> rfl
  rw [hcore]
  exact congrArg Core.wsu (core_setCore _ _ _)

theorem modUnit_skein {s : State} {sk : Nat} {k : Skein} (h : sfind s.skeins sk = some k) (n : Nat) (f : UnitInfo → UnitInfo) :
    sfind (modUnit s sk n f).skeins sk = some { k with units := sput {} k.units n (f (sget {} k.units n)) } := by
  unfold modUnit
  dsimp only
  rw [sfind_smod, if_pos rfl, h]
  rfl

/-- For destination 0 the unit at the offset has one more command pending; every other unit is as it was. -/
theorem wslQueued_units {o : WslOp} {s : State} {u : Nat} {k : Skein} (hk : sfind s.skeins (s.strand u).skein = some k) :
    ∃ k', sfind (wslQueued o s u).skeins (s.strand u).skein = some k' ∧ ∀ n, sget {} k'.units n =
      if o.dst = 0 ∧ n = wslOff o (s.strand u) / 4096 then { sget {} k.units n with pending := (sget {} k.units n).pending + 1 } else sget {} k.units n := by
  unfold wslQueued
  by_cases hd : o.dst = 0
  · rw [if_pos hd]
    refine ⟨_, modUnit_skein (s := wslEnqueued o s u) hk _ _, fun n => ?_⟩
    dsimp only
    rw [sget_sput]
    by_cases hn : n = wslOff o (s.strand u) / 4096
    · rw [if_pos hn, if_pos ⟨hd, hn⟩, hn]
    · rw [if_neg hn, if_neg fun hc => hn hc.2]
  · rw [if_neg hd]
    exact ⟨k, hk, fun n => (if_neg fun hc => hd hc.1).symm⟩

section
variable {o : WslOp} {s : State} {u : Nat} {m : BitVec 32}

theorem wslEa_agree {a b : Strand} (h : Agree a b) (o : WslOp) (m : BitVec 32) : wslEa o b m = wslEa o a m := by
  unfold wslEa
  rw [h.lowest, h.readS]

theorem wslOff_agree {a b : Strand} (h : Agree a b) (o : WslOp) : wslOff o b = wslOff o a := by
  unfold wslOff
  rw [h.readS]

theorem wslFits_entered (h : Ready (.wsl o) s u m) (off : Nat) :
    wslFits (entered (.wsl o) s u m) ((entered (.wsl o) s u m).strand u) o off ↔ wslFits s (s.strand u) o off := by
  obtain ⟨-, -, -, -, -, -, -, -, hqmap, -⟩ := h.agree.ctls
  obtain ⟨hskein, -⟩ := h.agree.ids
  unfold wslFits winOf portQueue
  rw [h.quiet.beside.skeins, hskein, hqmap]

/-- The command's fields are the operands of the instruction as the strand finds them (R229). -/
theorem wslCommand_fields (h : Ready (.wsl o) s u m) :
    let c := wslCommand o (entered (.wsl o) s u m) u
    let st := s.strand u
    c.strand = u ∧ c.skein = st.skein ∧ c.ctx = s.ctxOf st ∧ c.blk = (st.readS o.b 2).val ∧ c.off = wslOff o st ∧ c.dst = o.dst ∧ c.key = o.key ∧
      c.scale = if o.dst = 0 ∧ o.c ≠ 0 then some (st.readS o.c 2).val else none := by
  obtain ⟨hskein, -⟩ := h.agree.ids
  refine ⟨rfl, hskein, h.ctxOf, congrArg Opd.val (h.agree.readS o.b 2), wslOff_agree h.agree o, rfl, rfl, ?_⟩
  show (if (o.dst == 0 && o.c != 0) = true then some (((entered (.wsl o) s u m).strand u).readS o.c 2).val else none) = _
  rw [h.agree.readS]
  simp

/-- WSL at a canonical, aligned block. -/
theorem wsl_checked (h : Ready (.wsl o) s u m) (hc : (s.strand u).clean) (h56 : ((s.strand u).readS o.b 2).val < 2 ^ 56) (h4 : ((s.strand u).readS o.b 2).val % 4 = 0) :
    ∃ body, exec (.wsl o) s = issue (.wsl o) s body ∧
      (¬wslFits s (s.strand u) o (wslOff o (s.strand u)) → body (contextOf (.wsl o) s u m) (entered (.wsl o) s u m) =
        .trap { cause := 0x02, sub := if o.dst = 2 then 64 else 10 } (entered (.wsl o) s u m)) ∧
      (wslFits s (s.strand u) o (wslOff o (s.strand u)) → 8 ≤ (s.core (s.strand u).core).wsu.length →
        body (contextOf (.wsl o) s u m) (entered (.wsl o) s u m) = .wait .wsuQueue (entered (.wsl o) s u m)) ∧
      (wslFits s (s.strand u) o (wslOff o (s.strand u)) → (s.core (s.strand u).core).wsu.length < 8 →
        body (contextOf (.wsl o) s u m) (entered (.wsl o) s u m) = .ok (wslQueued o (entered (.wsl o) s u m) u)) := by
  obtain ⟨body, k, hx, hb, htrap, hwait, hdone⟩ := wsl_body o s u m (entered (.wsl o) s u m) fun c n => by
    rw [h.agree.readS]
    exact readS_clean _ hc c n
  have hgood : badAddr [wslEa o (s.strand u) m] 4 = none := badAddr_good h56 h4
  rw [wslEa_agree h.agree, withAddrs_good _ _ _ _ _ hgood] at hb
  rw [wslOff_agree h.agree] at htrap hwait hdone
  rw [h.strandCore, h.core] at hwait hdone
  have hdst := wsl_dst o h.wf
  exact ⟨body, hx, fun hun => hb.trans (htrap _ (wslFault_unfit hdst (mt (wslFits_entered h _).1 hun))),
    fun hf hfull => hb.trans (hwait (wslFault_fits hdst ((wslFits_entered h _).2 hf)) hfull),
    fun hf hroom => hb.trans (hdone (wslFault_fits hdst ((wslFits_entered h _).2 hf)) hroom)⟩

/-- WSL at an address that is not canonical traps with a birth (R106, R180). -/
theorem wsl_address_traps (h : Ready (.wsl o) s u m) (ha : acting (.wsl o) s u m ≠ []) (hc : (s.strand u).clean) (h56 : 2 ^ 56 ≤ ((s.strand u).readS o.b 2).val) :
    Traps (.wsl o) s u m true 0x23 0 ((s.strand u).laneMask (maskBits m)) ((s.strand u).readS o.b 2).val := by
  obtain ⟨body, k, hx, hb, -⟩ := wsl_body o s u m (entered (.wsl o) s u m) fun c n => by
    rw [h.agree.readS]
    exact readS_clean _ hc c n
  have hbad : badAddr [wslEa o (s.strand u) m] 4 = some (0x23, wslEa o (s.strand u) m) := badAddr_far h56
  rw [wslEa_agree h.agree, withAddrs_bad hbad] at hb
  exact trap_of _ s u m body _ h hx ha hb rfl rfl (show 0x23 < 256 by decide) (show 0 < 65536 by decide) (readS_pair_lt _ _)

end

/-- Settles O51: ACCRD by `accrd_body` and `accrd_result`, MSYNC by `msyncAll_waits`, `msyncProg_body` and `msyncWs_body`, WSL by `wsl_checked`. That LANES
of the traps are the fragment's is log entry 19, the progress form's condition log entry 50. -/
theorem accumulatorReadsAndWaits : Obligations.AccumulatorReadsAndWaits := by
  unfold Obligations.AccumulatorReadsAndWaits
  intro i s u m h ha hp st waits
  refine ⟨?_, ?_, ?_, ?_, ?_⟩
  · rintro o rfl hc hfaults
    have hm : MatrixReady (.accrd o) s u m := ⟨h, ha, hc, hfaults, hp⟩
    obtain ⟨body, hx, htrap, hwait, -⟩ := accrd_body hm
    refine ⟨fun h0 => trap_of _ s u m body _ h (hx s) ha (htrap h0) rfl rfl (by decide) (by decide) (by decide), ?_⟩
    intro b row col n at_ range due inside h0
    have hrow : row = accrdRow o st := accrdRow_bits o st
    have hcol : col = accrdCol o st := accrdCol_bits o st
    have hrange : range = accrdRange o st := by
      simp only [range, hrow, hcol]
      rfl
    have hdue : due = stillWritten st [accrdRange o st] := by
      rw [stillWritten_one, ← hrange]
    have hindex (j : Nat) : at_ j = accrdIndex o st j := by
      simp only [at_, hrow, hcol]
      rfl
    have hinside (j : Nat) : inside j ↔ accrdInside o st j := by
      simp only [inside, hindex, hrow, hcol]
      rfl
    refine ⟨fun hd => waits_entered _ s u m body .engine h (hx s) ha (hwait h0 (hdue.symm.trans hd)), fun hd hclean => ?_⟩
    refine ⟨_, _, accrd_result hm h0 (hdue.symm.trans hd) fun j hj hsel => hindex j ▸ hclean j hj hsel,
      fun j hj => ⟨fun hsel hin => ?_, fun hsel hout => ?_, fun hsel => ?_⟩⟩
    · rw [accrdRead_inside hsel ((hinside j).1 hin), hindex]
      exact ⟨accWord_clean (hindex j ▸ hclean j hj hsel), rfl⟩
    · rw [accrdRead_outside hsel (mt (hinside j).2 hout)]
      exact ⟨rfl, rfl⟩
    · rw [accrdRead_side hsel, hrow]
      exact ⟨rfl, rfl⟩
  · rintro o rfl
    exact ⟨msyncAll_waits h ha hp, msyncAll_completes h hp⟩
  · rintro o rfl
    obtain ⟨body, hx, hb⟩ := msyncProg_body h hp
    refine ⟨fun h0 => trap_of _ s u m body _ h hx ha (hb.trans (if_pos h0)) rfl rfl (show 0x02 < 256 by decide) ?_ (show 0 < 2 ^ 64 by decide), ?_⟩
    · show o.h.form.at 15 10 < 65536
      unfold Form.at
      split <;> decide
    intro writes reached h0
    rw [if_neg h0] at hb
    have hreached : progReached st o.t o.n = true ↔ reached := progReached_iff st o.t o.n
    refine ⟨fun hr => completes_same _ s u m body h hx (fun _ => hb.trans (if_pos (hreached.2 hr))) _ fun _ _ => trivial,
      fun hr => waits_entered _ s u m body .engine h hx ha (hb.trans (if_neg (mt hreached.1 hr)))⟩
  · rintro o rfl
    obtain ⟨body, hx, hwait, hdone⟩ := msyncWs_body h hp
    exact ⟨fun hmine => waits_entered _ s u m body .engine h hx ha (hwait hmine),
      fun hmine hfaults => completes_same _ s u m body h hx (fun _ => hdone hmine hfaults) _ fun _ _ => trivial⟩
  · rintro o rfl hc
    intro blk off fits
    refine ⟨fun h56 _ => wsl_address_traps h ha hc h56, fun h56 h4 hun => ?_, fun h56 h4 hf hfull => ?_, fun h56 h4 hf hroom => ?_⟩
    · obtain ⟨body, hx, htrap, -⟩ := wsl_checked h hc h56 h4
      have hsub : (if o.dst = 2 then 64 else 10) < 65536 := by split <;> decide
      exact trap_of _ s u m body _ h hx ha (htrap hun) rfl rfl (show 0x02 < 256 by decide) hsub (show 0 < 2 ^ 64 by decide)
    · obtain ⟨body, hx, -, hwait, -⟩ := wsl_checked h hc h56 h4
      exact waits_entered _ s u m body .wsuQueue h hx ha (hwait hf hfull)
    · obtain ⟨body, hx, -, -, hdone⟩ := wsl_checked h hc h56 h4
      refine completes_of _ s u m _ _ body _ h hx (fun _ => hdone hf hroom) (fun _ => wslQueued_body o _ u _) fun t0 ht0 hh => ?_
      rw [if_neg ha] at ht0
      subst ht0
      refine ⟨⟨wslCommand o (entered (.wsl o) s u m) u, ?_, wslCommand_fields h⟩, fun k hk => ?_⟩
      · have hwsu := wslQueued_wsu o (entered (.wsl o) s u m) u
        rw [h.strandCore, h.core] at hwsu
        rw [complete_core _ _ _ hh]
        exact hwsu
      · obtain ⟨hskein, -⟩ := h.agree.ids
        have hunits := wslQueued_units (o := o) (s := entered (.wsl o) s u m) (u := u) (k := k)
        rw [hskein, h.quiet.beside.skeins, wslOff_agree h.agree] at hunits
        rw [complete_skeins _ _ _ hh]
        exact hunits hk

end Sys2Proof.Machine
end

section
/-!
REPLAY ends waits (O39), and TLBINV removes translations (O40).
-/

namespace Sys2Proof.Machine

/-! ### Completion, as the registers see it -/

section
variable {i : Instr} {s : State} {u : Nat} {m : BitVec 32}

/-- An instruction whose meaning is carried out goes on to its completion. -/
theorem exec_of_ok {body : Cx → State → Eff} {t : State} (h : Ready i s u m) (hx : exec i s = issue i s body) (ha : acting i s u m ≠ [])
    (hb : body (contextOf i s u m) (entered i s u m) = .ok t) : exec i s = .next (complete t (contextOf i s u m) i.uses false 0) := by
  have hacts : (acting i s u m).isEmpty = false := by simpa using ha
  rw [hx, issue_ready i s u m body h, hb, hacts]
  rfl

/-- Completion leaves the words and predicates of every strand's registers. -/
theorem complete_sees (t : State) (cx : Cx) (us : List Use) (h : t.has cx.u) :
    let r := complete t cx us false 0
    (∀ x c, r.sreg x c = t.sreg x c ∧ r.kpred x c = t.kpred x c) ∧ ∀ x j c, r.vreg x j c = t.vreg x j c ∧ r.pred x j c = t.pred x j c := by
  have hkept := complete_kept t cx us h
  refine ⟨fun x c => ?_, fun x j c => ?_⟩
  · rcases eq_or_ne x cx.u with rfl | hother
    · exact ⟨hkept.sregs c rfl, hkept.kpreds c rfl⟩
    · unfold State.sreg State.kpred
      rw [hkept.others x hother]
      exact ⟨rfl, rfl⟩
  · rcases eq_or_ne x cx.u with rfl | hother
    · exact ⟨hkept.vregs j c rfl, hkept.preds j c rfl⟩
    · unfold State.vreg State.pred
      rw [hkept.others x hother]
      exact ⟨rfl, rfl⟩

/-! ### REPLAY (R292) -/

/-- The instruction completes, registers, memory, contexts and launches are as before, and the wait-table entries that `gone` names have left
each core. -/
def EndsWaits (i : Instr) (s : State) (u : Nat) (m : BitVec 32) (gone : Nat → WaitEnt → Bool) : Prop :=
  ∃ t, exec i s = .next t ∧ Advances s t u m (nextPc i s u m) ∧
    t.mem = s.mem ∧ t.tags = s.tags ∧ t.contexts = s.contexts ∧ t.launches = s.launches ∧
    (∀ x c, t.sreg x c = s.sreg x c ∧ t.kpred x c = s.kpred x c) ∧ (∀ x j c, t.vreg x j c = s.vreg x j c ∧ t.pred x j c = s.pred x j c) ∧
    ∀ c, (t.core c).waits = (s.core c).waits.filter fun e => !gone c e

/-- The fragment moves on from a state in which threads have been woken. -/
theorem Woken.advances {t : State} (hw : Woken s t) (h : t.has u) :
    Advances s (complete t (contextOf i s u m) i.uses false 0) u m (nextPc i s u m) := by
  obtain ⟨-, -, hpcs⟩ := hw.sees
  obtain ⟨-, hstay, -⟩ := complete_spec t (contextOf i s u m) i.uses false 0 h
  intro j hj
  have hlen : j < (t.strand u).threads.length := (hw.strand u).len.symm ▸ hj
  refine (hstay j).trans ?_
  rw [movedOn_thread, contextOf_mask, contextOf_u]
  by_cases hm : m.getLsbD j = true
  · rw [if_pos ⟨rfl, hlen, hm⟩, if_pos hm]
    rfl
  · rw [if_neg fun hc => hm hc.2.2, if_neg hm]
    exact hpcs u j

/-- An instruction whose meaning wakes threads, and takes the entries `gone` from the wait tables, ends those waits. -/
theorem endsWaits_of_woken {body : Cx → State → Eff} {t : State} {gone : Nat → WaitEnt → Bool} (h : Ready i s u m) (hx : exec i s = issue i s body)
    (ha : acting i s u m ≠ []) (hb : body (contextOf i s u m) (entered i s u m) = .ok t) (hw : Woken s t)
    (hgone : ∀ c, (t.core c).waits = (s.core c).waits.filter fun e => !gone c e) : EndsWaits i s u m gone := by
  have hhas : t.has u := (hw.has u).2 (issuing_has s u m h.atIssue)
  obtain ⟨huniform, hvector⟩ := complete_sees t (contextOf i s u m) i.uses hhas
  obtain ⟨huniform', hvector', -⟩ := hw.sees
  have hbeside := complete_beside t (contextOf i s u m) i.uses hhas
  obtain ⟨S, C, K, rfl⟩ := hw.shape
  refine ⟨_, exec_of_ok h hx ha hb, hw.advances hhas, hbeside.mem, hbeside.tags, hbeside.contexts, hbeside.launches, fun x c => ?_, fun x j c => ?_,
    fun c => ?_⟩
  · obtain ⟨hs, hk⟩ := huniform x c
    obtain ⟨hs', hk'⟩ := huniform' x c
    exact ⟨hs.trans hs', hk.trans hk'⟩
  · obtain ⟨hv, hp⟩ := hvector x j c
    obtain ⟨hv', hp'⟩ := hvector' x j c
    exact ⟨hv.trans hv', hp.trans hp'⟩
  · rw [complete_core _ _ _ hhas]
    exact hgone c

end

/-- The cores on which something of the context waits for the page. -/
def waitingCores (s : State) (ctx page : Nat) : List Nat :=
  (s.cores.filter fun c => c.2.waits.any fun e => e.ctx == ctx && e.page == page).map (·.1)

theorem mem_waitingCores {s : State} {ctx page c : Nat} {e : WaitEnt} (he : e ∈ (s.core c).waits) (hp : (e.ctx == ctx && e.page == page) = true) :
    c ∈ waitingCores s ctx page := by
  unfold State.core sget at he
  cases hc : s.cores.lookup c with
  | none =>
    rw [hc] at he
    exact absurd he List.not_mem_nil
  | some k =>
    rw [hc] at he
    obtain ⟨l, r, hl, -⟩ := List.lookup_eq_some_iff.1 hc
    have hk : (c, k) ∈ s.cores := hl ▸ List.mem_append_right l List.mem_cons_self
    exact List.mem_map.2 ⟨(c, k), List.mem_filter.2 ⟨hk, List.any_eq_true.2 ⟨e, he, hp⟩⟩, rfl⟩

/-- Replayed on the cores where something waits for it, a page has left every core. -/
theorem replayed_waits (s : State) (ctx page c : Nat) :
    (((waitingCores s ctx page).foldl (fun s c => s.replayOn c ctx page) s).core c).waits =
      (s.core c).waits.filter fun e => !(e.ctx == ctx && e.page == page) := by
  obtain ⟨-, hwaits⟩ := replays_woken (waitingCores s ctx page) s ctx page
  rw [hwaits]
  refine List.filter_congr fun e he => congrArg not ?_
  cases hp : e.ctx == ctx && e.page == page with
  | false => exact Bool.and_false _
  | true => rw [List.contains_iff_mem.2 (mem_waitingCores he hp), Bool.and_true]

section
variable {o : SysOp} {s : State} {u : Nat} {m : BitVec 32}

theorem sysReplay_endsWaits (h : Ready (.sysReplay o) s u m) (ha : acting (.sysReplay o) s u m ≠ []) (hc : (s.strand u).clean) :
    EndsWaits (.sysReplay o) s u m fun _ e => e.ctx == s.ctxOf (s.strand u) && e.page == ((s.strand u).readS o.a 2).val / 4096 := by
  obtain ⟨hentered, -⟩ := sys_entered o (.sysReplay o) s u m h (by simp)
  obtain ⟨hw, -⟩ := replays_woken (waitingCores s (s.ctxOf (s.strand u)) (((s.strand u).readS o.a 2).val / 4096)) s _ _
  refine endsWaits_of_woken h rfl ha ?_ hw fun c => replayed_waits _ _ _ c
  rw [hentered]
  exact Eff.done_false _ _ (readS_clean _ hc o.a 2)

/-- The state that replay.tok leaves: the page of the entry that its token names is replayed on the entry's core; a stale token names none and changes
nothing. -/
def replayEntry (s : State) : Option (Nat × WaitEnt) → State
  | some (core, e) => s.replayOn core e.ctx e.page
  | none => s

theorem sysReplayTok_body (h : Ready (.sysReplayTok o) s u m) (hc : (s.strand u).clean) : ∃ body, exec (.sysReplayTok o) s = issue (.sysReplayTok o) s body ∧
    body (contextOf (.sysReplayTok o) s u m) (entered (.sysReplayTok o) s u m) =
      if 2 ^ 32 ≤ ((s.strand u).readS o.a 2).val then .trap { cause := 0x02, sub := 18 } (entered (.sysReplayTok o) s u m)
      else .ok (replayEntry s (tokenEntry s (s.ctxOf (s.strand u)) ((s.strand u).readS o.a 2).val)) := by
  obtain ⟨hentered, -⟩ := sys_entered o (.sysReplayTok o) s u m h (by simp)
  refine ⟨_, rfl, ?_⟩
  rw [hentered]
  dsimp only
  rw [contextOf_u, readS_clean _ hc]
  split
  · rfl
  · cases tokenEntry s (s.ctxOf (s.strand u)) ((s.strand u).readS o.a 2).val <;> rfl

/-- A token within 32 bits ends the waits that replaying its entry does. -/
theorem sysReplayTok_endsWaits {entry : Option (Nat × WaitEnt)} {gone : Nat → WaitEnt → Bool} (h : Ready (.sysReplayTok o) s u m)
    (ha : acting (.sysReplayTok o) s u m ≠ []) (hc : (s.strand u).clean) (hlow : ((s.strand u).readS o.a 2).val < 2 ^ 32)
    (hentry : tokenEntry s (s.ctxOf (s.strand u)) ((s.strand u).readS o.a 2).val = entry) (hw : Woken s (replayEntry s entry))
    (hgone : ∀ c, ((replayEntry s entry).core c).waits = (s.core c).waits.filter fun e => !gone c e) : EndsWaits (.sysReplayTok o) s u m gone := by
  obtain ⟨body, hx, hb⟩ := sysReplayTok_body h hc
  rw [if_neg (Nat.not_le.2 hlow), hentry] at hb
  exact endsWaits_of_woken h hx ha hb hw hgone

end

/-- Settles O39: SYS.replay by `replayed_waits`, a token by what `replayOn_woken` says of its core. That LANES of the trap are the fragment's is
log entry 19. -/
theorem replayEndsWaits : Obligations.ReplayEndsWaits := by
  unfold Obligations.ReplayEndsWaits
  intro o s u m a ctx ends
  refine ⟨fun h ha hc => sysReplay_endsWaits h ha hc, fun h ha hc => ⟨fun hhigh => ?_, fun hlow core e hentry => ?_, fun hlow hentry => ?_⟩⟩
  · obtain ⟨body, hx, hb⟩ := sysReplayTok_body h hc
    exact trap_of _ s u m body _ h hx ha (hb.trans (if_pos hhigh)) rfl rfl (show 0x02 < 256 by decide) (show 18 < 65536 by decide)
      (show 0 < 2 ^ 64 by decide)
  · obtain ⟨hw, hwaits⟩ := replayOn_woken s core e.ctx e.page
    refine sysReplayTok_endsWaits h ha hc hlow hentry hw fun c => ?_
    simp only [Bool.and_assoc]
    exact hwaits c
  · exact sysReplayTok_endsWaits h ha hc hlow hentry (Woken.refl s) fun c => (List.filter_true _).symm

/-! ### TLBINV (R287, R288) -/

section
variable {o : SysOp} {s : State} {u : Nat} {m : BitVec 32}

/-- TLBINV completes with the translations removed that its scope names, and only they. -/
theorem sysTlbinv_completes (ctx page : Option Nat) (h : Ready (.sysTlbinv o) s u m) (ha : acting (.sysTlbinv o) s u m ≠ []) {body : Cx → State → Eff}
    (hx : exec (.sysTlbinv o) s = issue (.sysTlbinv o) s body) (hb : body (contextOf (.sysTlbinv o) s u m) s = .ok (s.shootDown ctx page)) :
    Completes (.sysTlbinv o) s u m {} fun t => ∀ c, (t.core c).tlb = ((s.core c).tlb.filter fun e =>
      !((ctx.all fun c => c == e.ctx) && (page.all fun p => p / 2 ^ (e.shift - 12) == e.page))) ∧ (t.core c).last = [] := by
  obtain ⟨hentered, -⟩ := sys_entered o (.sysTlbinv o) s u m h (by simp)
  have hbody : Body {} s (s.shootDown ctx page) u := cores_body _ _ _ _ ⟨_, rfl⟩
  refine completes_of _ s u m _ _ body (s.shootDown ctx page) h hx (fun _ => by rw [hentered, hb]) (fun _ => by rwa [hentered])
    fun t0 ht0 hh c => ?_
  rw [complete_core t0 _ _ hh, ht0, if_neg ha]
  exact shootDown_core s ctx page c

end

/-- Settles O40: each scope of TLBINV is a `shootDown`, which leaves of each core what `shootDown_core` says. -/
theorem tlbinvRemovesTranslations : Obligations.TlbinvRemovesTranslations := by
  unfold Obligations.TlbinvRemovesTranslations
  intro o s u m h ha hc ctx page gone
  obtain ⟨body, hx, hb⟩ : ∃ body, exec (.sysTlbinv o) s = issue (.sysTlbinv o) s body ∧ body (contextOf (.sysTlbinv o) s u m) s =
      match o.x % 4 with
      | 0 => .done (s.shootDown (some ctx) (some page)) ((s.strand u).readS o.a 2).poison
      | 1 => .ok (s.shootDown (some ctx) none)
      | _ => .ok (s.shootDown none none) := ⟨_, rfl, rfl⟩
  match hscope : o.x % 4 with
  | 0 =>
    rw [hscope] at hb
    have hdone := sysTlbinv_completes (some ctx) (some page) h ha hx (hb.trans (Eff.done_false _ _ (readS_clean _ hc o.a 2)))
    simpa only [gone, hscope, Option.all_some, nat_beq_comm ctx] using hdone
  | 1 =>
    rw [hscope] at hb
    have hdone := sysTlbinv_completes (some ctx) none h ha hx hb
    simpa only [gone, hscope, Option.all_some, Option.all_none, Bool.and_true, nat_beq_comm ctx] using hdone
  | n + 2 =>
    rw [hscope] at hb
    have hdone := sysTlbinv_completes none none h ha hx hb
    simpa only [gone, hscope, Option.all_none, Bool.and_true] using hdone

end Sys2Proof.Machine
end

section
/-!
DIAGST and DIAGLD reach units of storage and register words (O41).
-/

namespace Sys2Proof.Machine

/-! ### Register words written by DIAGST (R356) -/

/-- One vector word of thread `j` replaced, tag and check bits included. -/
def putWord (s : State) (u j r : Nat) (w : TWord) : State :=
  s.modStrand u fun st => st.modThreads (BitVec.twoPow 32 j) fun t => { t with v := sput {} t.v r w }

/-- A thread that a lane holds stands in the list. -/
theorem threadIn_lt {st : Strand} {lane j : Nat} (h : st.threadIn lane = some j) : j < st.threads.length :=
  List.mem_range.1 (List.mem_of_find?_eq_some h)

section
variable {s : State} {u j r : Nat} {w : TWord}

theorem putWord_thread (hs : s.has u) (hlen : j < (s.strand u).threads.length) (hj : j < 32) (i : Nat) :
    ((putWord s u j r w).strand u).thread i =
      if i = j then { (s.strand u).thread i with v := sput {} ((s.strand u).thread i).v r w } else (s.strand u).thread i := by
  unfold putWord
  rw [strand_modStrand_self _ _ _ hs, thread_modThreads]
  refine if_congr ?_ rfl rfl
  rw [BitVec.getLsbD_twoPow, Bool.and_eq_true, decide_eq_true_iff, decide_eq_true_iff]
  omega

theorem putWord_vreg (hs : s.has u) (hlen : j < (s.strand u).threads.length) (hj : j < 32) (hr : 0 < r) :
    (putWord s u j r w).vreg u j r = w := by
  unfold State.vreg
  rw [if_neg (Nat.ne_of_gt hr), putWord_thread hs hlen hj, if_pos rfl]
  exact (sget_sput ..).trans (if_pos rfl)

/-- Of the strand, only the word is another. -/
theorem putWord_body (hs : s.has u) (hlen : j < (s.strand u).threads.length) (hj : j < 32) :
    Body { v := fun i c => i == j && c == r } s (putWord s u j r w) u := by
  have hthread (i : Nat) := putWord_thread (r := r) (w := w) hs hlen hj i
  unfold putWord at hthread ⊢
  rw [strand_modStrand_self _ _ _ hs] at hthread
  refine body_modStrand s u _ _ hs ?_
  constructor
  case v =>
    intro i c hc _
    rw [hthread]
    split
    · next hi =>
      have hcr : c ≠ r := by simpa [hi] using hc
      exact (sget_sput ..).trans (if_neg hcr)
    · rfl
  case p =>
    intro i c _
    rw [hthread]
    split <;> rfl
  case flow =>
    intro i
    rw [hthread]
    split <;> exact ⟨rfl, rfl, rfl, rfl, rfl⟩
  case len => exact modThreads_length _ _ _
  case acc => exact ⟨rfl, rfl, rfl⟩
  case shape => exact ⟨rfl, rfl⟩
  all_goals intros; rfl

end

/-! ### Units of storage (R356, R357) -/

/-- The address that a diagnostic access names in its pair A (R356). -/
def diagEa (o : SysOp) (s : State) (u : Nat) (m : BitVec 32) : Ea :=
  { thread := (s.strand u).lowest m, lane := 0, va := ((s.strand u).readS o.a 2).val, base := ((s.strand u).readS o.a 2).tag, idx := 0 }

/-- DIAGST or DIAGLD finds the unit at `l`: the scratchpad word that the window holds there, or the sector to which the address translates as a
store. Translation leaves `base`. -/
def DiagUnit (o : SysOp) (s base : State) (u : Nat) (m : BitVec 32) (l : Nat) : Prop :=
  let x := diagEa o s u m
  (o.x % 4 = 0 ∧ base = s ∧ localWindow ≤ x.va ∧ x.va < 2 ^ 56 ∧ x.va % 8 = 0 ∧
    ∃ leaf, windowAt s ((s.strand u).who s none) .store x.va 8 = .ok (.loc l) leaf) ∨
  (o.x % 4 = 1 ∧ l < 2 ^ 41 ∧ badAddr [x] 32 = none ∧ ∃ leaf, fates s u true .store 32 [x] = ([(x, .hit (.loc l) leaf)], base))

theorem DiagUnit.near {o : SysOp} {s base : State} {u : Nat} {m : BitVec 32} {l : Nat} (hunit : DiagUnit o s base u m l) : Near s base := by
  rcases hunit with ⟨-, rfl, -⟩ | ⟨-, -, -, leaf, hfates⟩
  · exact Near.refl base
  · have hnear := fates_near s u true .store 32 [diagEa o s u m]
    rwa [hfates] at hnear

/-- Translation leaves the strands alone. -/
theorem Near.strands {s base : State} (h : Near s base) (u : Nat) : base.strand u = s.strand u ∧ (base.has u ↔ s.has u) := by
  obtain ⟨mem, cores, rfl⟩ := h
  exact ⟨rfl, Iff.rfl⟩

/-- What DIAGST leaves in a unit: its eight bytes and its check bits; every other byte of memory stays. -/
theorem rawPut_holds (e : State) (l data bits : Nat) {t : State} (hdata : data < 2 ^ 64) (hmem : t.mem = (e.rawPut l data bits).mem)
    (hraw : t.raw = (e.rawPut l data bits).raw) :
    t.readNat l 8 = data ∧ sfind t.raw l = some bits ∧ ∀ k, ¬(l ≤ k ∧ k < l + 8) → t.byteAt k = e.byteAt k := by
  refine ⟨(readNat_written e t l 8 data hmem).trans (Nat.mod_eq_of_lt hdata), ?_, fun k hk => ?_⟩
  · rw [hraw]
    exact (sfind_sset ..).trans (if_pos rfl)
  · unfold State.byteAt
    rw [hmem]
    refine (byte_write ..).trans (if_neg ?_)
    rwa [length_toBytes]

/-! ### DIAGST and DIAGLD complete -/

theorem wordsOfNat_getD {n k : Nat} (x : Nat) (hk : k < n) : (wordsOfNat n x).getD k 0 = BitVec.ofNat 32 (x / 2 ^ (32 * k)) := by
  simp [wordsOfNat, List.getD_eq_getElem?_getD, hk]

/-- What DIAGST leaves at its target. -/
def diagWrite (base : State) (u : Nat) (b c : Opd) : DiagAt → State
  | .cell l => base.rawPut l b.val c.w.toNat
  | .reg j r => putWord base u j r { val := b.w, tag := c.w.setWidth 16, chk := .raw (c.w.toNat / 2 ^ 16 % 128) }

/-- What DIAGLD reads at its target: the data, and above them the check bits. -/
def diagRead (base : State) (u : Nat) : DiagAt → Nat
  | .cell l => base.readNat l 8 + 2 ^ 64 * rawBits base l
  | .reg j r => (sget {} ((base.strand u).thread j).v r).val.toNat + 2 ^ 64 * rawWord (sget {} ((base.strand u).thread j).v r)

/-- The target of the diagnostic instruction `i` is `place`; the check of the target leaves `base`. -/
def DiagFinds (o : SysOp) (i : Instr) (s base : State) (u : Nat) (m : BitVec 32) (place : DiagAt) : Prop :=
  ∀ k, diagTarget o (contextOf i s u m) s k = k (some place) base

section
variable {o : SysOp} {s base : State} {u : Nat} {m : BitVec 32} {place : DiagAt}

/-- DIAGST completes with its target written. -/
theorem diagst_completes {w : Touch} {P : State → Prop} (h : Ready (.sysDiagst o) s u m) (ha : acting (.sysDiagst o) s u m ≠ [])
    (hc : (s.strand u).clean) (hn : Near s base) (hf : DiagFinds o (.sysDiagst o) s base u m place) {t : State}
    (ht : t = diagWrite base u ((s.strand u).readS o.b 2) ((s.strand u).readS o.c 1) place) (hB : Body w base t u)
    (hP : ∀ r : State, r.mem = t.mem → r.raw = t.raw → (∀ j c, r.vreg u j c = t.vreg u j c) → P r) :
    CompletesFrom base (.sysDiagst o) s u m w P := by
  obtain ⟨hentered, hboundary⟩ := sys_entered o (.sysDiagst o) s u m h (by simp)
  obtain ⟨hstrand, hhas⟩ := hn.strands u
  have hbase : base.has u := hhas.2 (issuing_has s u m h.atIssue)
  have hclean : (((s.strand u).readS o.a 2).poison || ((s.strand u).readS o.b 2).poison || ((s.strand u).readS o.c 1).poison) = false := by
    simp only [readS_clean _ hc, Bool.or_self]
  obtain ⟨body, hx, hb⟩ : ∃ body, exec (.sysDiagst o) s = issue (.sysDiagst o) s body ∧ body (contextOf (.sysDiagst o) s u m) s = .ok t := by
    refine ⟨_, rfl, (hf _).trans ?_⟩
    rw [ht]
    cases place <;> exact Eff.done_false _ _ hclean
  refine completes_from _ s u m base w P body t h hx ha (by rwa [hentered]) (by rwa [hentered]) hB hbase (hP _ ?_ ?_ fun j c => ?_)
  · exact (complete_beside t _ _ (hB.has hbase)).mem
  · exact complete_raw t _ _ hboundary
  · exact (complete_kept t (contextOf (.sysDiagst o) s u m) _ (hB.has hbase)).vregs j c rfl

/-- DIAGLD completes with the quad D holding what it read. -/
theorem diagld_completes (h : Ready (.sysDiagld o) s u m) (ha : acting (.sysDiagld o) s u m ≠ []) (hc : (s.strand u).clean)
    (hn : Near s base) (hf : DiagFinds o (.sysDiagld o) s base u m place) :
    CompletesFrom base (.sysDiagld o) s u m { s := fun c => decide (o.d ≤ c ∧ c < o.d + 4) } fun t =>
      ∀ k, k < 4 → o.d + k ≠ 0 → t.sreg u (o.d + k) = { val := BitVec.ofNat 32 (diagRead base u place / 2 ^ (32 * k)), tag := 0 } := by
  obtain ⟨hentered, -⟩ := sys_entered o (.sysDiagld o) s u m h (by simp)
  obtain ⟨hstrand, hhas⟩ := hn.strands u
  have hbase : base.has u := hhas.2 (issuing_has s u m h.atIssue)
  have hlen : (wordsOfNat 4 (diagRead base u place)).length = 4 := by simp [wordsOfNat]
  obtain ⟨body, hx, hb⟩ : ∃ body, exec (.sysDiagld o) s = issue (.sysDiagld o) s body ∧ body (contextOf (.sysDiagld o) s u m) s =
      .ok (writeU base (contextOf (.sysDiagld o) s u m) o.d (wordsOfNat 4 (diagRead base u place)) 0) := by
    refine ⟨_, rfl, (hf _).trans ?_⟩
    cases place <;> exact Eff.done_false _ _ (readS_clean _ hc o.a 2)
  have hB : Body { s := fun c => decide (o.d ≤ c ∧ c < o.d + 4) } base
      (writeU base (contextOf (.sysDiagld o) s u m) o.d (wordsOfNat 4 (diagRead base u place)) 0) u :=
    writeU_body base (contextOf (.sysDiagld o) s u m) o.d _ 0 _ hbase fun c hlo hhi => decide_eq_true ⟨hlo, by rwa [hlen] at hhi⟩
  refine completes_from _ s u m base _ _ body _ h hx ha (by rwa [hentered]) (by rwa [hentered]) hB hbase fun k hk h0 => ?_
  refine ((complete_kept _ (contextOf (.sysDiagld o) s u m) _ (hB.has hbase)).sregs (o.d + k) rfl).trans ?_
  rw [← wordsOfNat_getD _ hk]
  exact writeU_sreg base (contextOf (.sysDiagld o) s u m) o.d _ 0 hbase k (by rwa [hlen]) h0

end

/-- Settles O41: the target is `diagTarget_cell` or `diagTarget_reg`; a unit written holds what `rawPut_holds` says, a register word what
`putWord_vreg` says, and DIAGLD writes what it read as its quad (`diagld_completes`). That DIAGLD's words have tag NONE, and that a window is
checked for the strand's own skein, is log entry 48. -/
theorem diagnosticsReachStorage : Obligations.DiagnosticsReachStorage := by
  unfold Obligations.DiagnosticsReachStorage
  intro o s u m st a x finds reg thread
  refine ⟨fun h ha hc => ⟨fun base l hunit => ?_, fun hkind hlow hpos hregs j hthread hj => ?_⟩,
    fun h ha hc => ⟨fun base l hunit => ?_, fun hkind hlow hpos hregs j hthread hj => ?_⟩⟩
  · exact diagst_completes h ha hc (DiagUnit.near hunit) (fun k => diagTarget_cell o _ s u m k base l hunit) rfl (rawPut_body base u l _ _)
      fun r hmem hraw _ => rawPut_holds base l _ _ (readS_pair_lt st o.b) hmem hraw
  · have hhas := issuing_has s u m h.atIssue
    have hlen := threadIn_lt hthread
    exact diagst_completes h ha hc (Near.refl s) (fun k => diagTarget_reg o _ s u m k j hkind hlow hpos hregs hthread) rfl
      (putWord_body hhas hlen hj) fun r _ _ hv => (hv j reg).trans (putWord_vreg hhas hlen hj hpos)
  · exact diagld_completes h ha hc (DiagUnit.near hunit) fun k => diagTarget_cell o _ s u m k base l hunit
  · have hword : s.vreg u j reg = sget {} (st.thread j).v reg := if_neg (Nat.ne_of_gt hpos)
    rw [hword]
    exact diagld_completes h ha hc (Near.refl s) fun k => diagTarget_reg o _ s u m k j hkind hlow hpos hregs hthread

end Sys2Proof.Machine
end

section
/-!
Worlds and the end of a core's work (O42): SCRUB, WORLD and HALT.
-/

namespace Sys2Proof.Machine

/-! ### SCRUB (R368) -/

section
variable {o : SysOp} {s : State} {u : Nat} {m : BitVec 32}

/-- SCRUB's effect: the core of the strand has one more scrub under way. -/
theorem sysScrub_completes (h : Ready (.sysScrub o) s u m) (ha : acting (.sysScrub o) s u m ≠ []) (hc : (s.strand u).clean) :
    Completes (.sysScrub o) s u m {} fun t => (t.core (s.strand u).core).scrub = (s.core (s.strand u).core).scrub ++
      [(o.x % 16, scrubSelector (o.x % 16) ((s.strand u).readS o.a 1).w.toNat)] := by
  obtain ⟨hentered, -⟩ := sys_entered o (.sysScrub o) s u m h (by simp)
  refine completes_of _ s u m _ _ _ (s.setCore (s.strand u).core { s.core (s.strand u).core with
    scrub := (s.core (s.strand u).core).scrub ++ [(o.x % 16, scrubSelector (o.x % 16) ((s.strand u).readS o.a 1).w.toNat)] }) h rfl
    (fun _ => ?_) (fun _ => ?_) fun t0 ht0 hh => ?_
  · rw [hentered]
    exact Eff.done_false _ _ (readS_clean _ hc o.a 1)
  · rw [hentered]
    exact setCore_body s u _ _ _
  · rw [complete_core t0 _ _ hh, ht0, if_neg ha, core_setCore]

/-! ### WORLD (R369) -/

/-- Some launch of the context is not done. -/
def launchesOf (s : State) (ctx : Nat) : Bool := s.launches.any fun l => l.2.ctx == ctx && l.2.phase ≠ .done

/-- The state in which WORLD looks at the launches of the context: its mailboxes are held. -/
def boxesHeld (s : State) (ctx : Nat) : State := s.modContext ctx fun c => { c with mbxHeld := true }

/-- The state that WORLD leaves: the context has its new world, its mailboxes are free again, and its translations are gone. -/
def worldPut (s : State) (ctx world : Nat) : State :=
  ((boxesHeld s ctx).modContext ctx fun c => { c with world := world, mbxHeld := false }).shootDown (some ctx) none

theorem launchesOf_eq_true {s : State} {ctx : Nat} (h : ∃ l ∈ s.launches, l.2.ctx = ctx ∧ l.2.phase ≠ .done) : launchesOf s ctx = true := by
  obtain ⟨l, hl, hctx, hphase⟩ := h
  exact List.any_eq_true.2 ⟨l, hl, by simp [hctx, hphase]⟩

theorem launchesOf_eq_false {s : State} {ctx : Nat} (h : ∀ l ∈ s.launches, l.2.ctx = ctx → l.2.phase = .done) : launchesOf s ctx = false := by
  refine List.any_eq_false.2 fun l hl => ?_
  simpa using h l hl

theorem boxesHeld_body (s : State) (ctx u : Nat) (w : Touch) : Body w s (boxesHeld s ctx) u := contexts_body s _ u w ⟨_, rfl⟩

theorem worldPut_body (s : State) (ctx world u : Nat) (w : Touch) : Body w s (worldPut s ctx world) u :=
  ((boxesHeld_body s ctx u w).trans (contexts_body _ _ u w ⟨_, rfl⟩)).trans (cores_body _ _ u w ⟨_, rfl⟩)

/-- Of the contexts, WORLD changes the one it names. -/
theorem worldPut_context (s : State) (ctx world : Nat) (h : (sfind s.contexts ctx).isSome) (c : Nat) :
    (worldPut s ctx world).context c = if c = ctx then { s.context ctx with world := world, mbxHeld := false } else s.context c := by
  have hheld : (sfind (boxesHeld s ctx).contexts ctx).isSome := by simpa [boxesHeld, sfind_smod] using h
  have hfirst (c : Nat) : (boxesHeld s ctx).context c = if c = ctx then { s.context ctx with mbxHeld := true } else s.context c :=
    context_mod s ctx _ h c
  refine (context_mod (boxesHeld s ctx) ctx (fun c => { c with world := world, mbxHeld := false }) hheld c).trans ?_
  rw [hfirst, if_pos rfl, hfirst]
  by_cases hc : c = ctx
  · rw [if_pos hc, if_pos hc]
  · rw [if_neg hc, if_neg hc, if_neg hc]

/-- No core keeps a translation of the context. -/
theorem worldPut_tlb (s : State) (ctx world c : Nat) : ∀ e ∈ ((worldPut s ctx world).core c).tlb, e.ctx ≠ ctx := by
  intro e he hctx
  obtain ⟨htlb, -⟩ := shootDown_core ((boxesHeld s ctx).modContext ctx fun c => { c with world := world, mbxHeld := false }) (some ctx) none c
  obtain ⟨-, hkept⟩ := List.mem_filter.1 (htlb ▸ he)
  simp [hctx] at hkept

/-- WORLD's meaning, check by check. -/
theorem sysWorld_body (h : Ready (.sysWorld o) s u m) (hc : (s.strand u).clean) : ∃ body, exec (.sysWorld o) s = issue (.sysWorld o) s body ∧
    body (contextOf (.sysWorld o) s u m) (entered (.sysWorld o) s u m) =
      let x := ((s.strand u).readS o.a 1).w.toNat
      if !(s.strand u).onSec then .trap { cause := 0x04, sub := 2 } (entered (.sysWorld o) s u m)
      else if x / 16 % 2 ^ 12 ≠ 0 then .trap { cause := 0x02, sub := 18 } (entered (.sysWorld o) s u m)
      else if launchesOf s (x / 2 ^ 16) then .wait (.quiet (x / 2 ^ 16)) (boxesHeld s (x / 2 ^ 16))
      else .ok (worldPut s (x / 2 ^ 16) (x % 16)) := by
  obtain ⟨hentered, -⟩ := sys_entered o (.sysWorld o) s u m h (by simp)
  refine ⟨_, rfl, ?_⟩
  rw [hentered]
  dsimp only
  rw [contextOf_u, readS_clean _ hc]
  rfl

/-- WORLD of a context whose launches are done: the context has the world, and no core a translation of it. -/
theorem sysWorld_completes {ctx world : Nat} (h : Ready (.sysWorld o) s u m) (ha : acting (.sysWorld o) s u m ≠ []) {body : Cx → State → Eff}
    (hx : exec (.sysWorld o) s = issue (.sysWorld o) s body) (hsome : (sfind s.contexts ctx).isSome)
    (hb : body (contextOf (.sysWorld o) s u m) (entered (.sysWorld o) s u m) = .ok (worldPut s ctx world)) :
    Completes (.sysWorld o) s u m {} fun t => (t.context ctx).world = world ∧ (t.context ctx).mbxHeld = false ∧
      (∀ c, c ≠ ctx → t.context c = s.context c) ∧ ∀ c, ∀ e ∈ (t.core c).tlb, e.ctx ≠ ctx := by
  obtain ⟨hentered, -⟩ := sys_entered o (.sysWorld o) s u m h (by simp)
  refine completes_of _ s u m _ _ body _ h hx (fun _ => hb) (fun _ => by rw [hentered]; exact worldPut_body s ctx world u _) fun t0 ht0 hh => ?_
  rw [if_neg ha] at ht0
  subst ht0
  have hcontext (c : Nat) : (complete (worldPut s ctx world) (contextOf (.sysWorld o) s u m) (Instr.sysWorld o).uses false 0).context c =
      if c = ctx then { s.context ctx with world := world, mbxHeld := false } else s.context c :=
    (congrArg (fun cs => sget ({} : Context) cs c) (complete_beside _ (contextOf (.sysWorld o) s u m) _ hh).contexts).trans
      (worldPut_context s ctx world hsome c)
  refine ⟨?_, ?_, fun c hne => ?_, fun c => ?_⟩
  · rw [hcontext, if_pos rfl]
  · rw [hcontext, if_pos rfl]
  · rw [hcontext, if_neg hne]
  · rw [complete_core _ _ _ hh]
    exact worldPut_tlb s ctx world c

end

/-! ### HALT (R207) -/

theorem sleepIfEmpty_body (s : State) (core u : Nat) (w : Touch) : Body w s (sleepIfEmpty s core) u := by
  unfold sleepIfEmpty
  split
  · exact Body.refl w s u
  · exact setCore_body s u w _ _

theorem sleepIfEmpty_strand (s : State) (core u : Nat) : (sleepIfEmpty s core).strand u = s.strand u := by
  unfold sleepIfEmpty
  split
  · rfl
  · exact strand_setCore s _ u _

/-- A core without a resident strand sleeps (R359). -/
theorem sleepIfEmpty_asleep {s : State} {core : Nat} (h : ∀ y ∈ s.strands, y.2.core = core → y.2.phase ≠ .resident) :
    ((sleepIfEmpty s core).core core).asleep = true := by
  have hnone : (s.strands.any fun x => x.2.core == core && x.2.phase = .resident) = false :=
    List.any_eq_false.2 fun y hy => by simpa using h y hy
  unfold sleepIfEmpty goToSleep
  rw [hnone, if_neg Bool.false_ne_true, core_setCore]

section
variable {o : SysOp} {s : State} {u : Nat} {m : BitVec 32}

/-- HALT in a handler is a trap in trap mode (log entry 25). -/
theorem sysHalt_dies (h : Ready (.sysHalt o) s u m) (ha : acting (.sysHalt o) s u m ≠ []) (htrap : (s.strand u).trap ≠ none) :
    Dies (.sysHalt o) s u m 0x61 := by
  refine dies_of _ s u m _ { cause := 0x61 } 0x61 h rfl ha (if_pos ?_) rfl (.inl ⟨htrap, rfl⟩)
  rw [contextOf_u, h.agree.trap]
  exact Option.isSome_iff_ne_none.2 htrap

/-- HALT outside a handler is a final EXIT, after which the core may sleep. -/
theorem sysHalt_exec {e : State} (h : Ready (.sysHalt o) s u m) (ha : acting (.sysHalt o) s u m ≠ []) (htrap : (s.strand u).trap = none)
    (hfinal : finalExit s (contextOf (.sysHalt o) s u m).site (fun t => .gone (sleepIfEmpty t (s.strand u).core)) =
      .gone (sleepIfEmpty e (s.strand u).core)) : exec (.sysHalt o) s = .next (stopRun (sleepIfEmpty e (s.strand u).core)) := by
  obtain ⟨hentered, -⟩ := sys_entered o (.sysHalt o) s u m h (by simp)
  refine exec_gone h rfl ha ?_
  rw [hentered]
  exact (if_neg (by rw [contextOf_u, htrap]; decide)).trans hfinal

end

/-- Settles O42: SCRUB by `sysScrub_completes`, WORLD by the branches of `sysWorld_body`, HALT by `finalExit_ends` and `sleepIfEmpty_asleep`. Which
strands stand on the security core is log entry 8, that the traps' LANES are the fragment's log entry 19, and HALT in trap mode log entry 25. -/
theorem scrubWorldAndHalt : Obligations.ScrubWorldAndHalt := by
  unfold Obligations.ScrubWorldAndHalt
  intro o s u m st x ctx i
  refine ⟨fun h ha hc => sysScrub_completes h ha hc, fun h ha hc => ?_, fun h ha => ⟨fun htrap => sysHalt_dies h ha htrap, ?_⟩⟩
  · obtain ⟨body, hx, hb⟩ := sysWorld_body h hc
    have hon (hsec : st.onSec = true) : ¬(!st.onSec) = true := by simp [hsec]
    refine ⟨fun hsec => ?_, fun hsec hres => ?_, fun hsec hres hbusy => ?_, fun hsec hres hidle hsome => ?_⟩
    · have hoff : (!st.onSec) = true := by simp [hsec]
      exact trap_of _ s u m body { cause := 0x04, sub := 2 } h hx ha (hb.trans (if_pos hoff)) rfl rfl (by decide) (by decide) (by decide)
    · have hbody := hb.trans ((if_neg (hon hsec)).trans (if_pos hres))
      exact trap_of _ s u m body { cause := 0x02, sub := 18 } h hx ha hbody rfl rfl (by decide) (by decide) (by decide)
    · have hheld := boxesHeld_body s ctx u (Touch.of {} i)
      have hbody := hb.trans ((if_neg (hon hsec)).trans ((if_neg (not_not.2 hres)).trans (if_pos (launchesOf_eq_true hbusy))))
      exact waits_of _ s u m body (.quiet ctx) s (boxesHeld s ctx) h hx ha hbody hheld.only (hheld.has (issuing_has s u m h.atIssue)) hheld.stay
        hheld.len
    · have hnone := Bool.eq_false_iff.1 (launchesOf_eq_false hidle)
      exact sysWorld_completes h ha hx hsome (hb.trans ((if_neg (hon hsec)).trans ((if_neg (not_not.2 hres)).trans (if_neg hnone))))
  · rintro htrap houts ⟨hbuf, hredraw, hcq, hun, hst⟩ heng hcp hmt hws
    obtain ⟨e, hfinal, -, hphase, hdead, honly, hstrands⟩ := finalExit_ends (.sysHalt o) s (contextOf (.sysHalt o) s u m).site
      (fun t => .gone (sleepIfEmpty t st.core)) (issuing_has s u m h.atIssue) houts hbuf hredraw hcq hun heng hst hcp hmt hws
    have hstrand : (stopRun (sleepIfEmpty e st.core)).strand u = e.strand u := sleepIfEmpty_strand e st.core u
    refine ⟨stopRun (sleepIfEmpty e st.core), sysHalt_exec h ha htrap hfinal, hstrand ▸ hphase, fun j => hstrand ▸ hdead j,
      (honly.trans (sleepIfEmpty_body e st.core u _).only).trans (stopRun_only _ _ u), fun halone => ?_⟩
    refine sleepIfEmpty_asleep fun y hy hcore hres => ?_
    rcases hstrands y hy with ⟨-, hended⟩ | ⟨hother, hmem⟩
    · cases hended.symm.trans hres
    · exact hother (halone y hmem hcore hres)

end Sys2Proof.Machine
end

section
/-!
The package at power-on (O53).
-/

namespace Sys2Proof.Machine

/-- Before the device is ready a context is not made (log entry 37). -/
theorem createContext_notReady {s : State} (p : CtxParams) (h : s.link.ready = false) : createContext s p = s := by
  unfold createContext State.works
  rw [h]
  rfl

/-- Settles O53: the fields of `State.reset`, and `createContext_notReady` of every state before the device is ready. That memory reads as zero and
that the dies' counts start at 0 is log entry 3. -/
theorem resetLeavesNothingRunning : Obligations.ResetLeavesNothingRunning := by
  unfold Obligations.ResetLeavesNothingRunning
  refine ⟨⟨rfl, List.getElem?_getD_replicate_default_eq 0 16⟩, rfl, rfl, rfl, rfl, rfl, rfl, rfl, rfl, rfl, rfl, rfl, fun _ => rfl, rfl,
    fun d hd => ?_, fun p s h => ?_⟩
  · rw [List.eq_of_mem_replicate hd]
  · exact ⟨createContext s p, rfl, by rw [createContext_notReady p h]⟩

end Sys2Proof.Machine
end
